-- ==== Sys2Proof/Word.lean ====
section
/-! DEFINITION. The words of the model: bytes, sparse canonical memories (as a type) and the shapes of the plain data
that cross the module's boundary. Every operation on them stands in Sys2Proof/Machine/, where it can be mended. -/

namespace Sys2Proof

/-- One byte (R5: bit 0 is the least significant). -/
abbrev Byte := BitVec 8

/-- A run of bytes, lowest address first. -/
abbrev Bytes := List Byte

/-- A sparse memory: pairs (address, value), addresses strictly rising, no value equal to what an unlisted address
reads as. `Sys2Proof.Machine.SMap.wf` says so. -/
abbrev SMap (α : Type) := List (Nat × α)

/-- A 512-bit word: one descriptor (R422), one event record (R473), one vane entry (R247). -/
abbrev Word512 := BitVec 512

end Sys2Proof
end

