-- ==== Sys2Proof/Syntax.lean ====
section
/-! DEFINITION. The commands of the block: one constructor of `Instr` per row of spec/opcode_table.json, with the
operands a sender, the module's own sequencers or nature supply. The table gives no operands and no bits (log 1). -/

namespace Sys2Proof

/-- The routed header (R353). LEN is the length of the body and is held with it. -/
structure Hdr where
  kind : Nat
  hops : Nat
  dst : Nat
  dstHost : Bool
  src : Nat
  srcHost : Bool
  sjob : Nat
  schan : Nat
  seq : Nat
  deriving DecidableEq, Repr, Inhabited

/-- One message of a routed virtual channel (R348, R352): channel, header, body. -/
structure Msg where
  vc : Nat
  hdr : Hdr
  body : Bytes
  deriving DecidableEq, Repr, Inhabited

/-- The mailbox sender's identity as the firmware sees it (R440). -/
structure Sender where
  src : Nat
  srcHost : Bool
  sjob : Nat
  schan : Nat
  deriving DecidableEq, Repr, Inhabited

/-- Where a Chodal packet came from (R452, R453): a T1S datagram, or the MGMT channel of a port. -/
inductive ChodalSrc where
  | t1s (mac : Nat) (udpPort : Nat)
  | inband (port : Nat) (hdr : Hdr)
  deriving DecidableEq, Repr

/-- An error of one burst: `unit` 0 to 11 a stack, 12 to 43 package `unit - 12`; `addr` the byte address within the
stack, or the data address within the package (R284, R285). The burst is read, read again, and read once more after the
write-back (R290): the symbols that each reading changes, with the differences. A symbol is numbered within its codeword,
and from 68 on by the slow tier's next codeword. -/
structure BurstErr where
  unit : Nat
  addr : Nat
  first : List (Nat × Nat)
  again : List (Nat × Nat)
  after : List (Nat × Nat)
  deriving DecidableEq, Repr

/-- An event offered to the recorder (R473 to R475): everything of a record but what the recorder adds. -/
structure EventIn where
  code : Nat
  severity : Nat
  level : Nat
  location : Nat
  /-- Job context concerned, and the step (R473). -/
  job : Option (Nat × Nat)
  detail : Bytes
  /-- DOWN_END only (R469). -/
  partialFlag : Bool
  deriving DecidableEq, Repr, Inhabited

/-- A page of a walk: key-value head, page group, and whether the second pass works on it (R205, R206). -/
structure PageAt where
  head : Nat
  page : Nat
  second : Bool
  deriving DecidableEq, Repr, Inhabited

/-- One run of an `attend` (R205), on the descriptor with flight number `f`. -/
structure AttendRun where
  f : Nat
  /-- The walk stands where this page loads; none: it runs to its end. -/
  load : Option PageAt
  /-- The page, and the word of SCORE_PROG, whose fetch finds a parity error (R111). -/
  parity : Option (PageAt × Nat)
  /-- K-loops of pages whose successive runs fail the residue check, in columns as for K_LOOP_RUN (R97, R99). -/
  loops : List (PageAt × List (List Nat))
  deriving DecidableEq, Repr

/-- What the check bits make of an error of a memory of a block (R21). -/
inductive SramRead where
  | corrected
  /-- `reader`: the descriptor that read the datum. -/
  | uncorrectable (reader : Option Nat)
  deriving DecidableEq, Repr

/-- What the home core brings to a step boundary, or to a check mark: the 1 us counter (R404), and the descriptors that it issues
for the step, on a predicted overrun for its fallback model (R405, R417). -/
structure StepIssue where
  us : Nat
  descs : List (BitVec 512)
  deriving DecidableEq, Repr

/-- One run of an APPLY (R326, R330) on the descriptor with flight number `f`: until `upTo` blocks of its bucket are written;
none: until all are. -/
structure ApplyRun where
  f : Nat
  upTo : Option Nat
  deriving DecidableEq, Repr

/-- The commands of the block. -/
inductive Instr where
  -- descriptor commands, on the fetched descriptor with flight number `f`
  /-- MMA (R424): run the matrix product of descriptor `f` over its declared extent. -/
  | mma (f : Nat)
  /-- ELEM (R112): run the element program over V vectors; `parity`: the word whose fetch finds a parity error (R111). -/
  | elem (f : Nat) (parity : Option Nat)
  /-- ELEM_LOAD (R110). -/
  | elemLoad (f : Nat)
  /-- CONV (R154). -/
  | conv (f : Nat)
  /-- SCAN (R173). -/
  | scan (f : Nat)
  /-- ATTEND (R205). -/
  | attend (run : AttendRun)
  -- operations of a move descriptor: operation `k` of its LIST (R429)
  | alloc (f k : Nat)
  | free (f k : Nat)
  | promote (f k : Nat)
  | demote (f k : Nat)
  | rehome (f k : Nat)
  | relocate (f k : Nat)
  | pin (f k : Nat)
  | unpin (f k : Nat)
  /-- MOVE_QUEUE_HEAD (R266): the first waiting move of segment `seg` reaches the head. -/
  | moveQueueHead (seg : Nat)
  /-- MOVE_COMMIT (R265). -/
  | moveCommit (seg : Nat)
  /-- REDUCE (R304). -/
  | reduce (f : Nat)
  /-- REDUCE_CONTEXT_OPEN (R307). -/
  | reduceContextOpen (f : Nat)
  /-- SCALE_UP, SCALE_DOWN, DATA_UP, ABORT (R309 to R318): a record received on `port`. -/
  | scaleUp (port : Nat) (rec : Bytes)
  | scaleDown (port : Nat) (rec : Bytes)
  | dataUp (port : Nat) (rec : Bytes)
  | abort (port : Nat) (rec : Bytes)
  /-- REDUCE_TIMEOUT (R319). -/
  | reduceTimeout (tag id epoch : Nat)
  /-- UPDATE_CONFIG, UPDATE_APPLY (R325), APPLY_EXECUTE (R326). -/
  | updateConfig (f : Nat)
  | updateApply (f : Nat)
  | applyExecute (run : ApplyRun)
  /-- FORK (R237). -/
  | fork (f : Nat)
  -- operation `k` of a page-edit descriptor (R218)
  | pageEditInit (f k : Nat)
  | pageEditMap (f k : Nat)
  | pageEditUnmap (f k : Nat)
  | pageEditSetLen (f k : Nat)
  | pageEditSetMask (f k : Nat)
  | pageEditClearMask (f k : Nat)
  /-- PAGE_EDIT_APPLY (R219): the boundary at which the pending operations on directory `dir` are applied. -/
  | pageEditApply (dir : Nat)
  /-- BARRIER (R378), SEM_ACQUIRE, SEM_RELEASE (R400). -/
  | barrier (f : Nat)
  | semAcquire (f : Nat)
  | semRelease (f : Nat)
  /-- SYNC_ARRIVE, SYNC_RELEASE, SYNC_ABORT (R378, R379): a token received on `port`. -/
  | syncArrive (port : Nat) (m : Msg)
  | syncRelease (port : Nat) (m : Msg)
  | syncAbort (port : Nat) (m : Msg)
  | barrierTimeout (tag id epoch : Nat)
  /-- SEM_GRACE_EXPIRY (R402). -/
  | semGraceExpiry (sem : Nat)
  /-- DESCRIPTOR_FETCH (R417). -/
  | descriptorFetch (job queue : Nat)
  /-- DESCRIPTOR_COMPLETE (R435); `stepNs`: the step time measured when this completion is the last of its step (R409). -/
  | descriptorComplete (f : Nat) (stepNs : Nat)
  /-- BLOCK_DOORBELL (R439): logical block `blk` of the job of `f`. -/
  | blockDoorbell (f blk : Nat)
  /-- K_LOOP_RUN (R89): K-loop `tile` of the share of logical block `blk` (tile `tile` mod n of piece `tile` div n, of n
  output tiles); `runs`: where its successive runs fail the residue check (R97, R99): the logical column of a cell, or 64 and
  the output column of a column merge tree; a run past the end of the list passes. -/
  | kLoopRun (f blk tile : Nat) (runs : List (List Nat))
  /-- SHADOW_AUDIT (R75): output tile (tr, tc); `retries`: residue failures of the recomputation. -/
  | shadowAudit (f tr tc retries : Nat)
  /-- STAGE_STEP_START (R148). -/
  | stageStepStart (job stage step : Nat)
  /-- UNCORRECTABLE_SRAM (R21): block address, memory (0 ACC, 1 OPB, 2 scale shadow), address; an error that the check bits
  correct after all is only counted. -/
  | uncorrectableSram (blk mem addr : Nat) (read : SramRead)
  /-- BLOCK_RETIRE (R23): block address and the item of R22. -/
  | blockRetire (blk cause : Nat)
  | regionWatchdogExpiry (r : Nat)
  /-- REGION_FENCE (R30): region, the item of R29, and whether stack, controller, crossbar and uplink are sound (R31). -/
  | regionFence (r cause : Nat) (sound : Bool)
  /-- SEGMENT_EVACUATED (R31). -/
  | segmentEvacuated (seg : Nat)
  | dmWatchdogExpiry
  /-- DEVICE_FENCE (R34): the item of R33. -/
  | deviceFence (cause : Nat)
  /-- BURST_ERROR (R290). -/
  | burstError (e : BurstErr)
  /-- CA_PARITY_ERROR (R293); `again`: it recurs within 1 s of a retraining. -/
  | caParityError (stack : Nat) (again : Bool)
  /-- PATROL_SCRUB (R297): one daily patrol of `unit` and the errors it meets. -/
  | patrolScrub (unit : Nat) (errs : List BurstErr)
  /-- REFRESH_INTERVAL (R297): stack sensor in 0.1 degrees C. -/
  | refreshInterval (stack : Nat) (deciC : Int)
  /-- SLOW_TEMP_POLL (R297): package report in 0.1 degrees C. -/
  | slowTempPoll (pkg : Nat) (deciC : Int)
  /-- SERVING_STEP_BOUNDARY (R233) of the loop of `job`. -/
  | servingStepBoundary (job : Nat) (issue : StepIssue)
  /-- VANE_ANSWER_WRITE (R248): an answer row of stream `n`; `sat`: the row carried SAT. -/
  | vaneAnswerWrite (n : Nat) (row : Bytes) (sat : Bool)
  -- mailbox messages to a serving loop (R230, R242)
  | start (who : Sender) (job seg : Nat)
  | stop (who : Sender) (job : Nat)
  | join (who : Sender) (job prio : Nat) (planOn : Bool)
  | leave (who : Sender) (job stream : Nat)
  | status (who : Sender) (job stream : Nat)
  | planOn (who : Sender) (job stream : Nat)
  | planOff (who : Sender) (job stream : Nat)
  -- messages delivered to this module (R356, R419)
  | vaneRead (port : Nat) (m : Msg)
  | segWrite (port : Nat) (m : Msg)
  | segRead (port : Nat) (m : Msg)
  | doorbell (port : Nat) (m : Msg)
  | mboxWrite (port : Nat) (m : Msg)
  /-- MBOX_CONSUME (R440). -/
  | mboxConsume (ch : Nat)
  /-- MESSAGE_ROUTE (R369): a message that arrived on `port` (16: it originates in this module). -/
  | messageRoute (port : Nat) (m : Msg)
  /-- REORDER_TIMEOUT (R377): 20 us passed for the oldest message held of this source and channel. -/
  | reorderTimeout (src vc : Nat)
  /-- SUPERFRAME_RX (R340): the 2,720 levels received on each lane that training made logical lane 0 to 7, and on the spare
  (R335, R339, R346); the lanes' eye margins and their trained minima (R344). -/
  | superframeRx (port : Nat) (lanes : List (List Nat)) (spare margins minima : List Nat)
  | replayTimeout (port : Nat)
  /-- LOSS_OF_SIGNAL (R343): the lanes lost. -/
  | lossOfSignal (port : Nat) (lanes : List Nat)
  | laneCorrectedLimit (port lane corrected : Nat)
  -- received link control frames (R357)
  | swapReq (port lane : Nat)
  | swapAck (port lane sseq : Nat)
  | retrain (port reason : Nat)
  | hello (port role devId : Nat) (serial : Bytes) (peerPort version : Nat)
  | creditInit (port : Nat) (credits : List Nat)
  /-- PORT_TRAINING (R358): the physical lanes that fail training (R336). -/
  | portTraining (port : Nat) (failed : List Nat)
  /-- PORT_STATE_CHANGE (R375): the new PORT_STATE (R363). -/
  | portStateChange (port st : Nat)
  -- the census (R371 to R374)
  | groupCensusStart
  | wave (port : Nat) (m : Msg)
  | reply (port : Nat) (m : Msg)
  | routeSet (port : Nat) (m : Msg)
  | announce (port : Nat) (m : Msg)
  | machineCensusStart
  | mwave (port : Nat) (m : Msg)
  | mreply (port : Nat) (m : Msg)
  | mroutes (port : Nat) (m : Msg)
  | fenceReq (port : Nat) (m : Msg)
  | fenceNote (port : Nat) (m : Msg)
  | imageReq (port : Nat) (m : Msg)
  | imageData (port : Nat) (m : Msg)
  | recoveryRetry
  | imageFetchTimeout
  | lullNote (port : Nat) (m : Msg)
  -- Chodal packets (R454 to R462)
  | chodalGet (src : ChodalSrc) (pkt : Bytes)
  | chodalSet (src : ChodalSrc) (pkt : Bytes)
  | chodalGetPart (src : ChodalSrc) (pkt : Bytes)
  | chodalList (src : ChodalSrc) (pkt : Bytes)
  | persistEraseDone
  -- job commands (R386)
  | form (j : Nat)
  | suspend (j : Nat)
  | resume (j : Nat)
  | destroy (j : Nat)
  | reform (j : Nat)
  | reformTakeEffect (j : Nat)
  | groupStepSet (j v : Nat)
  | baselineWrite (j cls v : Nat)
  -- the recorder (R469 to R479)
  | recorderFreeze
  | freezeDrainDone
  | recorderThaw
  | freezeTimeout (secs : Nat)
  | alertClear
  | eventAccept (ev : EventIn)
  | recordProgram
  | ringSectorEraseDone
  /-- HOURLY_UPDATE (R471): seconds outside planned states, of degraded time and of operation since the last update. -/
  | hourlyUpdate (serviceS degradedS opS : Nat)
  /-- OUTAGE_END (R469): CODE of the outage, its length in ns, what of it no other outage has counted yet and no planned state
  covers (R468, R470),
  the bound of R466 in ns, and whether a power loss cut it. -/
  | outageEnd (code ns countNs boundNs : Nat) (cut : Bool)
  | fwUpdateCmd
  | attestNonce (nonce : Bytes)
  | attestSignDone
  | unlockChallenge
  | unlockToken (token : Bytes)
  /-- BOOT (R487): cause 0 power, 1 MOD_RST_N, 2 recovery restart. -/
  | boot (cause : Nat)
  /-- DEVICE_READY (R370): block addresses that fail self-test, stacks and packages that fail training, rows whose hard
  repair is refused (R295). -/
  | deviceReady (badBlocks badStacks badPkgs : List Nat) (repairFails : List Nat)
  | pwrOkAssert (sid : Nat)
  | pwrOkDeassert
  /-- MOD_RST_N (R504): the pin's new level. -/
  | modRstN (level : Bool)
  | railFault (step : Nat)
  /-- INPUT_SAMPLE (R500): mV, mA, and the highest excursion above 60 V since the last sample, if any. -/
  | inputSample (mv ma : Nat) (excursion : Option Nat)
  | inputFault (isOver : Bool) (mv : Nat)
  /-- POWER_CAP_ADJUST (R501): the unthrottled demand in W of the next 1 ms. -/
  | powerCapAdjust (demandW : Nat)
  | thermalHold (sensor : Nat) (deciC : Int)
  | thermalTrip (sensor : Nat) (deciC : Int)
  | lullEnter
  | lullCmdWake (ns : Nat)
  | wakeN (ns : Nat)
  | lullTimer (ns : Nat)
  | laneLightDetect (port ns : Nat)
  /-- TENANCY_SWITCH (R395): block address; ARR cycles of the tenancy that ends. -/
  | tenancySwitch (blk cycles : Nat)
  /-- DEADLINE_MARK (R404): mark `k` of the loop of `job`, at counter value `us`. -/
  | deadlineMark (job k : Nat) (issue : StepIssue)
  | superframeTx (port : Nat)
  | plcaBeaconTimeout
  | neighbourSolicitation (mac : Nat) (pkt : Bytes)
  | echoRequest (mac : Nat) (pkt : Bytes)
  | arpRequest (mac : Nat) (pkt : Bytes)
  | malformedPacket (src : ChodalSrc) (pkt : Bytes)
  /-- THERMAL_HOLD_END (R512): every die below 92 degrees; `heldNs`: how long the hold lasted. -/
  | thermalHoldEnd (heldNs : Nat)
  /-- UNLOCK_ERASE_DONE (R495): whether every stack and package could be written. -/
  | unlockEraseDone (ok : Bool)
  deriving DecidableEq, Repr

end Sys2Proof
end

