-- ==== Sys2Proof/Machine/Bits.lean ====
section
/-! DEFINITION. Bit fields, byte order (R5: little-endian), exact rounding, the CRC and the small list helpers that every
chapter uses. -/

namespace Sys2Proof.Machine

/-- Bits [lo + n - 1 : lo] of a number. -/
def fld (w lo n : Nat) : Nat := w / 2 ^ lo % 2 ^ n

/-- The same, read as two's complement. -/
def sfld (w lo n : Nat) : Int :=
  if fld w lo n < 2 ^ (n - 1) then (fld w lo n : Int) else (fld w lo n : Int) - 2 ^ n

/-- One bit of a number. -/
def bit (w lo : Nat) : Bool := w / 2 ^ lo % 2 == 1

/-- `w` with bits [lo + n - 1 : lo] replaced. -/
def setFld (w lo n v : Nat) : Nat := w - fld w lo n * 2 ^ lo + (v % 2 ^ n) * 2 ^ lo

/-- Places a field in a number that is built by addition. -/
def at' (lo n v : Nat) : Nat := (v % 2 ^ n) * 2 ^ lo

/-- Two's complement of `n` bits. -/
def toUns (n : Nat) (v : Int) : Nat := (v % (2 ^ n : Int)).toNat

def toSgn (n : Nat) (v : Nat) : Int :=
  if v % 2 ^ n < 2 ^ (n - 1) then ((v % 2 ^ n : Nat) : Int) else ((v % 2 ^ n : Nat) : Int) - 2 ^ n

/-- Signed value of a 32-bit code. -/
def s32 (w : BitVec 32) : Int := w.toInt

def bool01 (b : Bool) : Nat := if b then 1 else 0

/-- Little-endian bytes of a number (R5). -/
def leBytes : Nat → Nat → Bytes
  | 0, _ => []
  | n + 1, v => BitVec.ofNat 8 v :: leBytes n (v / 256)

/-- The number a little-endian run of bytes spells (R5). -/
def ofLe : Bytes → Nat
  | [] => 0
  | b :: bs => b.toNat + 256 * ofLe bs

/-- Bytes `o` to `o + n - 1` of a run as a little-endian number; bytes past the end read 0. -/
def leAt (bs : Bytes) (o n : Nat) : Nat := ofLe ((bs.drop o).take n)

/-- Cut or padded with zeros to `n` bytes. -/
def fitBytes (n : Nat) (bs : Bytes) : Bytes := bs.take n ++ List.replicate (n - bs.length) 0

/-- ASCII bytes of a name. -/
def ascii (s : String) : Bytes := s.toList.map (fun c => BitVec.ofNat 8 c.toNat)

/-- Element `i` of a list, with a default. -/
def nth {α : Type} (d : α) (l : List α) (i : Nat) : α := (l[i]?).getD d

/-- Replaces element `i`. -/
def setNth {α : Type} (l : List α) (i : Nat) (v : α) : List α := l.set i v

/-- Numbers `a` to `a + n - 1`. -/
def rangeFrom (a n : Nat) : List Nat := (List.range n).map (fun i => a + i)

/-- Sum of a list of naturals. -/
def sumNat (l : List Nat) : Nat := l.foldl (· + ·) 0

def sumInt (l : List Int) : Int := l.foldl (· + ·) 0

def maxNat (l : List Nat) : Nat := l.foldl Nat.max 0

/-- Quotient rounded up. -/
def ceilDiv (a b : Nat) : Nat := (a + b - 1) / b

/-- Exact quotient num / den rounded to the nearest integer, ties to even (den > 0). -/
def divRHE (num : Int) (den : Nat) : Int :=
  let q := num / (den : Int)
  let r := num % (den : Int)
  if 2 * r < den then q
  else if 2 * r > den then q + 1
  else if q % 2 = 0 then q else q + 1

/-- Clamps to [lo, hi]. -/
def clampI (lo hi v : Int) : Int := if v < lo then lo else if v > hi then hi else v

/-- Floor of the base-2 logarithm; 0 of 0. -/
def log2 (n : Nat) : Nat := Nat.log2 n

/-- CRC-32C (Castagnoli), reflected: one bit step and one byte step. -/
def crcBit (c : BitVec 32) : BitVec 32 := if c.getLsbD 0 then (c >>> 1) ^^^ 0x82F63B78#32 else c >>> 1

def crcByte (c : BitVec 32) (b : Byte) : BitVec 32 :=
  crcBit (crcBit (crcBit (crcBit (crcBit (crcBit (crcBit (crcBit (c ^^^ b.setWidth 32))))))))

/-- CRC-32C of a run of bytes; the manual names the code (R247, R459, R473). -/
def crc32c (bs : Bytes) : Nat := ((bs.foldl crcByte 0xFFFFFFFF#32) ^^^ 0xFFFFFFFF#32).toNat

/-- Bytes of a 512-bit word. -/
def wordBytes (w : Word512) : Bytes := leBytes 64 w.toNat

/-- The first match in a list, replaced. -/
def updFirst {α : Type} (p : α → Bool) (f : α → α) : List α → List α
  | [] => []
  | x :: xs => if p x then f x :: xs else x :: updFirst p f xs

/-- Insertion that keeps a list ordered by `le`, after its equals. -/
def insertBy {α : Type} (le : α → α → Bool) (x : α) : List α → List α
  | [] => [x]
  | y :: ys => if le y x then y :: insertBy le x ys else x :: y :: ys

/-- Stable sort. -/
def sortBy {α : Type} (le : α → α → Bool) (l : List α) : List α := l.foldl (fun acc x => insertBy le x acc) []

/-- Numbers 0 to `n` - 1 whose bit is set in a mask. -/
def bitsOf (n mask : Nat) : List Nat := (List.range n).filter (fun i => bit mask i)

end Sys2Proof.Machine
end

