-- ==== Sys2Proof/Machine/Arith.lean ====
section
/-! DEFINITION. Formats, tiles, the counter-based generator, rounding and alignment (R50 to R64, R70). -/

namespace Sys2Proof.Machine

/-! ### Element formats: 0 G2, 1 S4, 2 D8, 3 O16, 4 A32, 5 A64, 6 raw (R50, R423) -/

/-- Width of a code in bits. -/
def fmtBits (f : Nat) : Nat := match f with | 0 => 2 | 1 => 4 | 2 => 8 | 3 => 16 | 4 => 32 | 5 => 64 | _ => 8

/-- Magnitude bits m (R50). -/
def fmtMag (f : Nat) : Nat := match f with | 0 => 1 | 1 => 3 | 2 => 7 | _ => 15

/-- Largest legal magnitude. -/
def fmtMax (f : Nat) : Int := match f with | 0 => 1 | 1 => 7 | 2 => 127 | _ => 32767

/-- Bytes of one engine tile (R55, R56); 0 for raw bytes. -/
def tileBytes (f : Nat) : Nat :=
  match f with | 0 => 1088 | 1 => 2112 | 2 => 4160 | 3 => 8256 | 4 => 16640 | 5 => 33024 | _ => 0

/-- The format stores codes with scale bytes. -/
def isElemFmt (f : Nat) : Bool := decide (f < 4)

/-- Index of element (r, c) in block-major order (R55). -/
def elemIdx (r c : Nat) : Nat := 64 * (8 * (r / 8) + c / 8) + 8 * (r % 8) + c % 8

/-- Byte `i` of a tile. -/
def tb (t : Array Byte) (i : Nat) : Nat := (t.getD i 0).toNat

/-- Raw code of element (r, c) of an element tile. -/
def rawCode (f : Nat) (t : Array Byte) (r c : Nat) : Nat :=
  let x := elemIdx r c
  match f with
  | 0 => tb t (64 + x / 4) / 4 ^ (x % 4) % 4
  | 1 => tb t (64 + x / 2) / 16 ^ (x % 2) % 16
  | 2 => tb t (64 + x)
  | _ => tb t (64 + 2 * x) + 256 * tb t (65 + 2 * x)

/-- Scale byte of the block that holds rows of block i and columns of block j (R55). -/
def scaleByte (t : Array Byte) (i j : Nat) : Nat := tb t (8 * i + j)

/-- What a scale byte means (R52). -/
inductive Scale where
  | exp (e : Int)
  | empty
  | bad
  deriving DecidableEq, Repr

def scaleOf (b : Nat) : Scale :=
  if b = 0x80 then .empty else if b < 0x40 ∨ 0xC0 <= b then .exp (toSgn 8 b) else .bad

/-- The reserved code of a format: its most negative (R50). -/
def isReserved (f raw : Nat) : Bool := raw == 2 ^ (fmtBits f - 1)

/-- Code of element (r, c): a reserved code and any element of an empty block read as zero (R51, R53). -/
def elemCode (f : Nat) (t : Array Byte) (r c : Nat) : Int :=
  if scaleByte t (r / 8) (c / 8) = 0x80 then 0
  else
    let w := rawCode f t r c
    if isReserved f w then 0 else toSgn (fmtBits f) w

/-- A reserved code stands at (r, c) of a block that is not empty. -/
def elemVoid (f : Nat) (t : Array Byte) (r c : Nat) : Bool :=
  scaleByte t (r / 8) (c / 8) != 0x80 && isReserved f (rawCode f t r c)

/-- Value bytes of a whole element tile from codes in block-major order. -/
def packCodes (f : Nat) (codes : List Nat) : Bytes :=
  match f with
  | 0 => packAux 4 4 codes
  | 1 => packAux 2 16 codes
  | 2 => codes.map (fun c => BitVec.ofNat 8 c)
  | _ => codes.flatMap (fun c => leBytes 2 c)
where
  /-- `n` codes to the byte, base `b`. -/
  packAux (n b : Nat) (codes : List Nat) : Bytes :=
    (List.range (codes.length / n)).map (fun i =>
      BitVec.ofNat 8 (((codes.drop (n * i)).take n).foldr (fun c acc => c % b + b * acc) 0))

/-- An element tile from its scale bytes (64) and its codes by row and column. -/
def buildTile (f : Nat) (scales : List Nat) (code : Nat → Nat → Int) : Bytes :=
  scales.map (fun s => BitVec.ofNat 8 s) ++
    packCodes f ((List.range 4096).map (fun x =>
      let b := x / 64
      let r := 8 * (b / 8) + x % 64 / 8
      let c := 8 * (b % 8) + x % 8
      toUns (fmtBits f) (code r c)))

/-- An element tile none of whose blocks holds a value. -/
def emptyTile (f : Nat) : Bytes := List.replicate 64 0x80 ++ List.replicate (tileBytes f - 64) 0

/-! ### Row words (R57) -/

/-- A row word: exponent, SAT, WIDE, VOID_SEEN. -/
structure RowWord where
  exp : Int
  sat : Bool
  wide : Bool
  void : Bool
  deriving DecidableEq, Repr, Inhabited

def RowWord.enc (w : RowWord) : BitVec 32 :=
  BitVec.ofNat 32 (toUns 16 w.exp + at' 16 1 (bool01 w.sat) + at' 17 1 (bool01 w.wide) + at' 18 1 (bool01 w.void))

def RowWord.dec (v : Nat) : RowWord := ⟨sfld v 0 16, bit v 16, bit v 17, bit v 18⟩

/-- The exponent that marks a row without contribution. -/
def zeroRow : Int := -32768

/-! ### Accumulators (R58, R67) -/

/-- Accumulator width W: 31 or 63. -/
def accW (wide : Bool) : Nat := if wide then 63 else 31

/-- Clamps to the accumulator's range. -/
def accClamp (wide : Bool) (v : Int) : Int := clampI (-(2 ^ accW wide - 1)) (2 ^ accW wide - 1) v

/-- An addition into an accumulator and whether it clamped. -/
def accAdd (wide : Bool) (a b : Int) : Int × Bool := (accClamp wide (a + b), accClamp wide (a + b) != a + b)

/-! ### The generator (R64) -/

def philoxRound (k0 k1 : Nat) (c : Nat × Nat × Nat × Nat) : Nat × Nat × Nat × Nat :=
  let p := 0xD2511F53 * c.1
  let q := 0xCD9E8D57 * c.2.2.1
  (Nat.xor (Nat.xor (q / 2 ^ 32) c.2.1) k0, q % 2 ^ 32, Nat.xor (Nat.xor (p / 2 ^ 32) c.2.2.2) k1, p % 2 ^ 32)

def philoxAux : Nat → Nat → Nat → Nat × Nat × Nat × Nat → Nat × Nat × Nat × Nat
  | 0, _, _, c => c
  | n + 1, k0, k1, c =>
    philoxAux n ((k0 + 0x9E3779B9) % 2 ^ 32) ((k1 + 0xBB67AE85) % 2 ^ 32) (philoxRound k0 k1 c)

/-- Philox4x32-10: the four counter words after the tenth round. -/
def philox (seed w0 w1 w2 w3 : Nat) : Nat × Nat × Nat × Nat :=
  philoxAux 10 (seed % 2 ^ 32) (seed / 2 ^ 32 % 2 ^ 32) (w0 % 2 ^ 32, w1 % 2 ^ 32, w2 % 2 ^ 32, w3 % 2 ^ 32)

/-- The generator word of a contribution with coordinates ROW, COL, KB (R64). -/
def genWord (seed step tag row col kb : Nat) : Nat :=
  (philox seed step (tag % 65536 + kb / 65536 % 65536 * 65536) row (col % 65536 + kb % 65536 * 65536)).1

/-! ### Rounding and alignment (R62, R63) -/

/-- How one operation rounds: half-even, or stochastic by seed, step and tag. -/
structure Rnd where
  stoch : Bool
  seed : Nat
  step : Nat
  tag : Nat
  deriving DecidableEq, Repr, Inhabited

/-- t / 2^s rounded half-even (s >= 0). -/
def shrRHE (t : Int) (s : Nat) : Int := divRHE t (2 ^ s)

/-- t / 2^s rounded stochastically by the 32-bit word `w`. -/
def shrStoch (t : Int) (s w : Nat) : Int := (t + ((w * 2 ^ s / 2 ^ 32 : Nat) : Int)) / (2 ^ s : Int)

/-- A contribution of integer value t at exponent e, brought to the row exponent F. -/
def alignTo (r : Rnd) (row col kb : Nat) (f e t : Int) : Int :=
  if f <= e then t * 2 ^ (e - f).toNat
  else if r.stoch then shrStoch t (f - e).toNat (genWord r.seed r.step r.tag row col kb)
  else shrRHE t (f - e).toNat

/-- ceil(log2 n) for n >= 1; 0 of 0 and 1. -/
def clog2 (n : Nat) : Nat := if n <= 1 then 0 else Nat.log2 (n - 1) + 1

/-! ### The quantiser (R70) -/

/-- A rational value v = num / den * 2^e handed to the quantiser. -/
structure QVal where
  num : Int
  e : Int
  deriving DecidableEq, Repr, Inhabited

/-- v / 2^E rounded by `rnd`, which gets the shift. -/
def qCode (rnd : Int → Nat → Int) (v : QVal) (ex : Int) : Int :=
  if ex <= v.e then v.num * 2 ^ (v.e - ex).toNat else rnd v.num (ex - v.e).toNat

/-- The smallest exponent from `ex` up, `n` candidates left, at which every rounded code fits. -/
def fitExp (rnd : Nat → Int → Nat → Int) (mx : Int) (vs : List QVal) : Nat → Int → Int
  | 0, _ => 63
  | n + 1, ex =>
    if (vs.zipIdx).all (fun p => decide ((qCode (rnd p.2) p.1 ex).natAbs <= mx.natAbs)) then ex
    else fitExp rnd mx vs n (ex + 1)

/-- A quantised block: scale byte, codes, elements clipped. `given`: the exponent of given mode. `rnd`: rounding of
element i of the block. -/
def quantBlock (f : Nat) (rnd : Nat → Int → Nat → Int) (given : Option Int) (vs : List QVal) : Nat × List Int × Nat :=
  let mx := fmtMax f
  match given with
  | none =>
    if vs.all (fun v => v.num == 0) then (0x80, vs.map (fun _ => 0), 0)
    else quantAt mx rnd (fitExp rnd mx vs 128 (-64)) vs
  | some e => quantAt mx rnd e vs
where
  /-- The block at exponent `ex`. -/
  quantAt (mx : Int) (rnd : Nat → Int → Nat → Int) (ex : Int) (vs : List QVal) : Nat × List Int × Nat :=
    let raw := vs.zipIdx.map (fun p => qCode (rnd p.2) p.1 ex)
    (toUns 8 ex, raw.map (clampI (-mx) mx), (raw.filter (fun c => decide (mx.natAbs < c.natAbs))).length)

end Sys2Proof.Machine
end

