-- ==== Sys2Proof/Machine/Lut.lean ====
section
/-! DEFINITION. The function tables of the vector engine (R118 to R120) and the fit rule (R119): nodes by exact integer
roots and quotients, interpolation, one lane, one row. -/

namespace Sys2Proof.Machine

/-- The largest number below 2^n that a downward-closed test admits. -/
def findMax (p : Nat → Bool) : Nat → Nat → Nat
  | 0, acc => acc
  | k + 1, acc => if p (acc + 2 ^ k) then findMax p k (acc + 2 ^ k) else findMax p k acc

/-- Integer square root, rounded down. -/
def isqrt (n : Nat) : Nat := findMax (fun k => decide (k * k <= n)) (Nat.log2 n / 2 + 1) 0

/-! ### Nodes: roundHE(g(x0 + i h) * 2^20) (R118) -/

/-- 2^(i / 256). -/
def expNode (i : Nat) : Int := ((findMax (fun n => decide (n ^ 256 <= 2 ^ (i + 5376))) 23 0 + 1) / 2 : Nat)

/-- 1 / (1 + i / 256). -/
def rcpNode (i : Nat) : Int := divRHE (2 ^ 28) (256 + i)

/-- 1 / sqrt x at x = 1 + i / 128 up to i = 128, at i / 64 above. -/
def rsqNode (i : Nat) : Int :=
  ((isqrt (if i <= 128 then 2 ^ 42 * 128 / (128 + i) else 2 ^ 42 * 64 / i) + 1) / 2 : Nat)

/-- e^(-1/16) in units of 2^-192, from its series. -/
def eBase : Nat :=
  (((List.range 40).foldl (fun (acc : Int × Nat) k =>
    (acc.1 + (if k % 2 = 0 then 1 else -1) * ((2 ^ 192 / acc.2 : Nat) : Int), acc.2 * 16 * (k + 1))) (0, 1)).1).toNat

/-- e^(-i/16) in units of 2^-192. -/
def ePow (i : Nat) : Nat := if i = 0 then 2 ^ 192 else eBase ^ i / 2 ^ (192 * (i - 1))

/-- 1 / (1 + e^(-i/16)). -/
def sigNode (i : Nat) : Int := divRHE (2 ^ 212) (2 ^ 192 + ePow i)

/-- tanh(i/32) = (1 - e^(-i/16)) / (1 + e^(-i/16)). -/
def tanhNode (i : Nat) : Int := divRHE (2 ^ 20 * (2 ^ 192 - (ePow i : Int))) (2 ^ 192 + ePow i)

/-- Interpolation at the 24-bit argument t. -/
def interp (node : Nat → Int) (t : Nat) : Int :=
  let a := node (t / 65536)
  a + divRHE ((node (t / 65536 + 1) - a) * ((t % 65536 : Nat) : Int)) 65536

/-- v * 2^-s rounded half-even. -/
def shiftRHE (v : Int) (s : Int) : Int := if s <= 0 then v * 2 ^ (-s).toNat else shrRHE v s.toNat

/-- Largest code of a lane (R117). -/
def laneMax : Int := 2147483647

/-- A lane's value of an exponent: a row at -32,768 is zero (R116). -/
def laneCode (code f : Int) : Int := if f = zeroRow then 0 else code

/-! ### Lanes -/

/-- EXP of code * 2^f at exponent -16, and whether it saturates (R118 to R120). -/
def expLane (code f : Int) : Int × Bool :=
  let f := if code = 0 then 0 else f
  let num := code * 1549082005
  let sh := 30 - f
  let n := if sh <= 0 then num * 2 ^ (-sh).toNat else num / 2 ^ sh.toNat
  let t := if sh <= 0 then 0 else shiftRHE (num - n * 2 ^ sh.toNat) (sh - 24)
  let n' := if t = 2 ^ 24 then n + 1 else n
  let t' := if t = 2 ^ 24 then 0 else t
  if 15 <= n' then (laneMax, true)
  else if n' < -40 then (0, false)
  else
    let c := shiftRHE (interp expNode t'.toNat) (4 - n')
    if laneMax < c then (laneMax, true) else (c, false)

/-- Bits of |x|. -/
def bitLen (n : Nat) : Nat := if n = 0 then 0 else Nat.log2 n + 1

/-- A mantissa of 16 significant bits from a table value at exponent e. -/
def mant16 (y e : Int) : Int × Int :=
  let m := divRHE y 16
  if 65536 <= m then (m / 2, e + 1) else (m, e)

/-- RCP of a code that is not zero: mantissa and exponent. -/
def rcpLane (code f : Int) : Int × Int :=
  let a := code.natAbs
  let p := f + bitLen a - 1
  let t := shiftRHE a ((bitLen a : Int) - 25) - 2 ^ 24
  let (t', p') := if 2 ^ 24 <= t then ((0 : Int), p + 1) else (t, p)
  let (m, e) := mant16 (interp rcpNode t'.toNat) (-16 - p')
  (if code < 0 then -m else m, e)

/-- RSQ of a positive code: mantissa and exponent. -/
def rsqLane (code f : Int) : Int × Int :=
  let a := code.natAbs
  let p := f + bitLen a - 1
  if p % 2 = 0 then
    let t := shiftRHE a ((bitLen a : Int) - 24) - 2 ^ 23
    mant16 (interp rsqNode t.toNat) (-16 - p / 2)
  else
    let t := shiftRHE a ((bitLen a : Int) - 24)
    if 2 ^ 24 <= t then mant16 (interp rsqNode 0) (-16 - (p + 1) / 2)
    else mant16 (interp rsqNode t.toNat) (-16 - (p - 1) / 2)

/-- Argument |x| * 2^s of SIG and TANH. -/
def sigArg (code f s : Int) : Int := if code = 0 then 0 else shiftRHE code.natAbs (-(f + s))

/-- SIG at exponent -16. -/
def sigLane (code f : Int) : Int :=
  let t := sigArg code f 20
  let y := if 2 ^ 24 <= t then 2 ^ 20 else interp sigNode t.toNat
  divRHE (if code < 0 then 2 ^ 20 - y else y) 16

/-- TANH at exponent -16. -/
def tanhLane (code f : Int) : Int :=
  let t := sigArg code f 21
  let y := if 2 ^ 24 <= t then 2 ^ 20 else interp tanhNode t.toNat
  divRHE (if code < 0 then -y else y) 16

/-! ### The fit rule and one row (R119) -/

/-- A value to place: code and exponent, and whether its lane is present. -/
structure FitVal where
  code : Int
  exp : Int
  present : Bool
  deriving Repr, Inhabited

/-- The exponent that brings the largest present magnitude into [2^30, 2^31). -/
def fitRowExp (vs : List FitVal) : Option Int :=
  let tops : List Int := (vs.filter (fun v => v.present && v.code != 0)).map (fun v => v.exp + (bitLen v.code.natAbs : Int))
  match tops with
  | [] => none
  | t :: ts =>
    let e := ts.foldl max t - 31
    if (vs.filter (fun v => v.present && v.code != 0)).any (fun v => decide (laneMax < ((shiftRHE v.code (e - v.exp)).natAbs : Int)))
    then some (e + 1) else some e

/-- Codes placed at exponent e, half-even and clamped. -/
def fitPlace (vs : List FitVal) (e : Int) : List Int :=
  vs.map (fun v => clampI (-laneMax) laneMax (shiftRHE v.code (e - v.exp)))

/-- Result of a table on one row of 64 lanes: codes, exponent, SAT, DOMAIN count. -/
structure LutRow where
  codes : List Int
  exp : Int
  sat : Bool
  dom : Nat
  deriving Repr, Inhabited

/-- RCP or RSQ of a row. -/
def lutFit (rsq : Bool) (lanes : List (Int × Bool)) (f : Int) : LutRow :=
  let good := fun (c : Int) => decide (laneCode c f ≠ 0) && !(rsq && decide (c < 0))
  let vs := lanes.map (fun p =>
    if good p.1 then
      let r := if rsq then rsqLane p.1 f else rcpLane p.1 f
      FitVal.mk r.1 r.2 p.2
    else FitVal.mk 0 0 false)
  let e := (fitRowExp vs).getD 0
  let codes := ((fitPlace vs e).zip lanes).map (fun p =>
    if laneCode p.2.1 f = 0 then laneMax else if rsq && decide (p.2.1 < 0) then 0 else p.1)
  let here := lanes.filter (·.2)
  ⟨codes, e, here.any (fun p => laneCode p.1 f = 0), (here.filter (fun p => !good p.1)).length⟩

/-- Table `k` on a row whose exponent is `f`; each lane with whether it is present. -/
def lutRow (k : Nat) (lanes : List (Int × Bool)) (f : Int) : LutRow :=
  let f' := if f = zeroRow then 0 else f
  match k with
  | 0 =>
    let rs := lanes.map (fun p => (expLane (laneCode p.1 f) f', p.2))
    ⟨rs.map (·.1.1), -16, rs.any (fun r => r.1.2 && r.2), 0⟩
  | 1 => lutFit false lanes f
  | 2 => lutFit true lanes f
  | 3 => ⟨lanes.map (fun p => sigLane (laneCode p.1 f) f'), -16, false, 0⟩
  | 4 => ⟨lanes.map (fun p => tanhLane (laneCode p.1 f) f'), -16, false, 0⟩
  | _ => ⟨lanes.map (fun p => divRHE (laneCode p.1 f * sigLane (laneCode p.1 f) f') 65536), f, false, 0⟩

end Sys2Proof.Machine
end

