-- ==== Sys2Proof/Machine/Flags.lean ====
section
/-! DEFINITION. Status codes and their precedence (R73, R438), and the flags a completion carries. -/

namespace Sys2Proof.Machine

/-! Status codes (R438). -/
def stOk : Nat := 0x00
def stEmpty : Nat := 0x01
def stVoid : Nat := 0x02
def stField : Nat := 0x10
def stAccShort : Nat := 0x11
def stScale : Nat := 0x12
def stSat : Nat := 0x13
def stPoison : Nat := 0x14
def stDiscard : Nat := 0x15
def stBusyPinned : Nat := 0x16
def stNoPages : Nat := 0x17
def stPageLocked : Nat := 0x18
def stDirHole : Nat := 0x19
def stMismatch : Nat := 0x1A
def stQuota : Nat := 0x1B
def stNoSpace : Nat := 0x1C
def stQueueFull : Nat := 0x1D
def stComp : Nat := 0x1E
def stDenied : Nat := 0x1F
def stMboxBusy : Nat := 0x20

/-- The completion status of a descriptor that met the conditions of a list: the first that applies in the order POISON,
DISCARDED, SCALE_RANGE, ACC_SAT, FORMAT_VOID, OK (R73); any other condition stands before FORMAT_VOID and after those
that stop the step, in the order met (log 23). -/
def statusOf (conds : List Nat) : Nat :=
  if conds.contains stPoison then stPoison
  else if conds.contains stDiscard then stDiscard
  else if conds.contains stScale then stScale
  else if conds.contains stSat then stSat
  else
    match conds.find? (fun c => c != stVoid && c != stOk) with
    | some c => c
    | none => if conds.contains stVoid then stVoid else stOk

/-- A step proceeds past a descriptor only when its status is below 0x10 (R438). -/
def passes (st : Nat) : Bool := decide (st < 0x10)

end Sys2Proof.Machine
end

