-- ==== Sys2Proof/Config.lean ====
section
/-! DEFINITION. What the manual leaves to the unit, to a named standard or to nobody: uninterpreted constants. Nothing
in Lean can evaluate one, so no proof can lean on a value of it. -/

namespace Sys2Proof.Config

/-- Free values, one per draw: `freeWord n` is the n-th value the manual calls unspecified (R54) or fresh (R494).
The draw number is the field `freeNo` of the state. DESIGN CHOICE (log 3). -/
opaque freeWord : Nat → BitVec 32

/-- The n-th draw of 32 fresh random bytes (R494). Always cut or padded to 32 bytes where it is used. (log 3) -/
opaque freeBytes : Nat → Bytes

/-- SHA-384 of a byte string (R485); the manual names the standard. (log 4) -/
opaque sha384 : Bytes → BitVec 384

/-- ECDSA on brainpoolP384r1 verifies: firmware key k (R484), the digest, the 96-byte signature. (log 4) -/
opaque fwSigOk : Nat → BitVec 384 → Bytes → Bool

/-- The debug key's check of an unlock token's bytes 0 to 63 against its signature (R494). (log 4) -/
opaque debugSigOk : Bytes → Bytes → Bool

/-- The identity key's signature over bytes 0 to 159 of a report (R493). (log 4) -/
opaque identitySign : Bytes → Bytes

/-- Per-unit values of the dictionary (R2, R465, R498): serial number (16 characters), MAC address, certificate. (log 5) -/
opaque serialNumber : Bytes
opaque mgmtMac : BitVec 48
opaque attestCert : Bytes

/-- What a LOCK object of 0x9000-0x9FFF holds at power-up, by index and sub-index; R450 does not describe the range. `none`: no
object. (log 6) -/
opaque vendorObject : Nat → Nat → Option Nat

/-- The NAME that LIST gives such an object (R461). (log 6) -/
opaque vendorName : Nat → Nat → List (BitVec 8)

/-- The sampled input power over the last 1 ms in W, from voltage in mV and current in mA samples: the manual names the
object (R519) and not how the average is taken. (log 7) -/
opaque inputWatts : Nat → Nat → Nat

end Sys2Proof.Config
end

