-- ==== Sys2Proof/Machine/Objects.lean ====
section
/-! DEFINITION. The dictionary tables of every chapter, row by row: index, sub-indices, name, type code (R447), access
code (R461) and default. "per unit" rows have the default of a unit without defects (log 5). R77 to R519. -/

namespace Sys2Proof.Machine

/-- A row of a dictionary table: `n` consecutive indices from `base`, sub-indices `lo` to `hi`. -/
structure Obj where
  base : Nat
  n : Nat
  lo : Nat
  hi : Nat
  name : String
  ty : Nat
  acc : Nat
  dflt : Nat
  deriving DecidableEq, Repr, Inhabited

/-- Rows of indices 0x1000 to 0x1FFF, part 1. -/
def objs1a : List Obj := [
  ⟨0x1000, 1, 0x01, 0x01, "VENDOR_NAME", 7, 0, 0⟩,
  ⟨0x1000, 1, 0x02, 0x02, "FAMILY_NAME", 7, 0, 0⟩,
  ⟨0x1000, 1, 0x03, 0x03, "PART_NUMBER", 7, 0, 0⟩,
  ⟨0x1000, 1, 0x04, 0x04, "STEPPING", 7, 0, 0⟩,
  ⟨0x1000, 1, 0x05, 0x05, "SERIAL_NUMBER", 7, 0, 0⟩,
  ⟨0x1001, 1, 0x01, 0x01, "DEVICE_ID", 2, 0, 32768⟩,
  ⟨0x1001, 1, 0x02, 0x02, "MEMBER_SID", 1, 0, 0⟩,
  ⟨0x1001, 1, 0x03, 0x03, "GROUP_NUMBER", 2, 3, 0⟩,
  ⟨0x1001, 1, 0x04, 0x04, "CENSUS_STATE", 1, 0, 0⟩,
  ⟨0x1001, 1, 0x05, 0x05, "CENSUS_GEN", 2, 0, 0⟩,
  ⟨0x1001, 1, 0x06, 0x06, "GROUP_MEMBERS", 1, 0, 0⟩,
  ⟨0x1001, 1, 0x07, 0x07, "GROUP_DIAMETER", 1, 0, 0⟩,
  ⟨0x1001, 1, 0x08, 0x08, "MACHINE_GROUPS", 2, 0, 0⟩,
  ⟨0x1001, 1, 0x09, 0x09, "MACHINE_ROOT", 2, 0, 0⟩,
  ⟨0x1001, 1, 0x0a, 0x0a, "CALENDAR_TIME", 9, 1, 0⟩,
  ⟨0x1100, 1, 0x01, 0x01, "REGIONS_PHYSICAL", 1, 0, 12⟩,
  ⟨0x1100, 1, 0x02, 0x02, "BLOCKS_PER_REGION", 1, 0, 13⟩,
  ⟨0x1100, 1, 0x03, 0x03, "ACTIVE_BLOCKS_PER_REGION", 1, 0, 12⟩,
  ⟨0x1100, 1, 0x04, 0x04, "ARRAY_SPARE_COLUMNS", 1, 0, 1⟩,
  ⟨0x1101, 1, 0x01, 0x0c, "REGION_BLOCK_STATE", 3, 0, 805310463⟩,
  ⟨0x1200, 1, 0x01, 0x01, "MGMT_MAC", 4, 0, 0⟩,
  ⟨0x1200, 1, 0x02, 0x02, "MGMT_PLCA_ID", 1, 0, 0⟩,
  ⟨0x1200, 1, 0x03, 0x03, "MGMT_PLCA_STATUS", 1, 0, 0⟩,
  ⟨0x1200, 1, 0x04, 0x04, "MGMT_IPV4", 3, 3, 0⟩,
  ⟨0x1200, 1, 0x05, 0x05, "MGMT_INBAND_READ", 1, 3, 1⟩,
  ⟨0x1200, 1, 0x06, 0x06, "MGMT_INBAND_WRITE", 1, 3, 1⟩,
  ⟨0x1200, 1, 0x07, 0x07, "NOTIFY_SEVERITY", 1, 3, 2⟩,
  ⟨0x1200, 1, 0x08, 0x08, "NOTIFY_INBAND", 6, 3, 0⟩,
  ⟨0x1200, 1, 0x09, 0x09, "DICT_VERSION", 2, 0, 1⟩,
  ⟨0x1200, 1, 0x0a, 0x0a, "PERSIST_WRITES", 3, 0, 0⟩,
  ⟨0x1201, 1, 0x01, 0x08, "MGMT_PEERS", 4, 3, 0⟩,
  ⟨0x1202, 1, 0x01, 0x04, "NOTIFY_DEST", 4, 3, 0⟩,
  ⟨0x1203, 1, 0x01, 0x01, "PKTS_RX", 4, 0, 0⟩,
  ⟨0x1203, 1, 0x02, 0x02, "PKTS_MALFORMED", 4, 0, 0⟩,
  ⟨0x1203, 1, 0x03, 0x03, "REPLIES_CACHED", 4, 0, 0⟩,
  ⟨0x1203, 1, 0x04, 0x04, "NOTIFY_SENT", 4, 0, 0⟩,
  ⟨0x1203, 1, 0x05, 0x05, "NOTIFY_DROPPED", 4, 0, 0⟩,
  ⟨0x1203, 1, 0x06, 0x06, "WRITES_DENIED", 4, 0, 0⟩]

/-- Rows of indices 0x2000 to 0x2FFF, part 1. -/
def objs2a : List Obj := [
  ⟨0x2000, 1, 0x01, 0x01, "INPUT_MV", 3, 0, 0⟩,
  ⟨0x2000, 1, 0x02, 0x02, "INPUT_MA", 3, 0, 0⟩,
  ⟨0x2000, 1, 0x03, 0x03, "INPUT_W", 3, 0, 0⟩,
  ⟨0x2000, 1, 0x04, 0x04, "POWER_CAP_W", 2, 3, 2700⟩,
  ⟨0x2000, 1, 0x05, 0x05, "CAP_THROTTLE_NS", 4, 0, 0⟩,
  ⟨0x2001, 1, 0x01, 0x01, "LULL_CMD", 1, 2, 0⟩,
  ⟨0x2001, 1, 0x02, 0x02, "LULL_STATE", 1, 0, 0⟩,
  ⟨0x2001, 1, 0x03, 0x03, "LULL_TIMER", 9, 1, 0⟩,
  ⟨0x2001, 1, 0x04, 0x04, "LULL_ENTRIES", 3, 0, 0⟩,
  ⟨0x2001, 1, 0x05, 0x05, "LULL_WAKE_US", 3, 0, 180⟩,
  ⟨0x2002, 1, 0x01, 0x01, "COOLANT_IN_C", 5, 0, 0⟩,
  ⟨0x2002, 1, 0x02, 0x02, "COOLANT_OUT_C", 5, 0, 0⟩,
  ⟨0x2002, 1, 0x03, 0x03, "THERMAL_HOLD_NS", 4, 0, 0⟩,
  ⟨0x2003, 1, 0x01, 0x19, "DIE_TEMP_C", 5, 0, 0⟩]

/-- Rows of indices 0x3000 to 0x3FFF, part 1. -/
def objs3a : List Obj := [
  ⟨0x3000, 1, 0x01, 0x01, "LINK_PORTS", 1, 0, 16⟩,
  ⟨0x3000, 1, 0x02, 0x02, "LANES_ACTIVE", 1, 0, 8⟩,
  ⟨0x3000, 1, 0x03, 0x03, "LANES_SPARE", 1, 0, 1⟩,
  ⟨0x3000, 1, 0x04, 0x04, "SYMBOL_RATE_MBD", 3, 0, 212500⟩,
  ⟨0x3000, 1, 0x05, 0x05, "SUPERFRAME_FRAMES", 1, 0, 20⟩,
  ⟨0x3000, 1, 0x06, 0x06, "REPLAY_SUPERFRAMES", 2, 0, 128⟩,
  ⟨0x3000, 1, 0x07, 0x07, "RX_CREDITS", 2, 0, 8192⟩,
  ⟨0x3000, 1, 0x08, 0x08, "FIBRE_MAX_M", 2, 0, 100⟩,
  ⟨0x3000, 1, 0x09, 0x09, "HOST_PORT", 1, 0, 255⟩,
  ⟨0x3000, 1, 0x0a, 0x0a, "LANE_SWAP_CORRECTED", 3, 1, 4096⟩,
  ⟨0x3001, 16, 0x01, 0x01, "PORT_STATE", 1, 0, 0⟩,
  ⟨0x3001, 16, 0x02, 0x02, "PEER_ID", 2, 0, 32768⟩,
  ⟨0x3001, 16, 0x03, 0x03, "SPARE_SERVES", 1, 0, 255⟩,
  ⟨0x3001, 16, 0x04, 0x04, "FEC_CORRECTED", 4, 0, 0⟩,
  ⟨0x3001, 16, 0x05, 0x05, "SF_FAILED", 4, 0, 0⟩,
  ⟨0x3001, 16, 0x06, 0x06, "REPLAYS", 4, 0, 0⟩,
  ⟨0x3001, 16, 0x07, 0x07, "LINK_TRANSIENT", 4, 0, 0⟩,
  ⟨0x3001, 16, 0x08, 0x08, "LANE_SWAPS", 3, 0, 0⟩,
  ⟨0x3001, 16, 0x09, 0x09, "RETRAINS", 3, 0, 0⟩,
  ⟨0x3001, 16, 0x0a, 0x0a, "PROTOCOL_FAULTS", 4, 0, 0⟩,
  ⟨0x3001, 16, 0x0b, 0x0b, "HOP_DROPS", 4, 0, 0⟩,
  ⟨0x3001, 16, 0x0c, 0x0c, "HOST_UNMAPPED", 4, 0, 0⟩,
  ⟨0x3001, 16, 0x0d, 0x0d, "TX_FRAMES", 4, 0, 0⟩,
  ⟨0x3001, 16, 0x0e, 0x0e, "RX_FRAMES", 4, 0, 0⟩,
  ⟨0x3020, 1, 0x01, 0x80, "HOST_CHANNEL", 3, 3, 0⟩,
  ⟨0x3030, 1, 0x01, 0x10, "PORT_ROLE", 1, 3, 0⟩,
  ⟨0x3040, 1, 0x01, 0x01, "UNREACHABLE_DROPS", 4, 0, 0⟩,
  ⟨0x3040, 1, 0x02, 0x02, "SEQ_GAPS", 4, 0, 0⟩,
  ⟨0x3040, 1, 0x03, 0x03, "SEQ_DUPLICATES", 4, 0, 0⟩,
  ⟨0x3040, 1, 0x04, 0x04, "SYNC_STALE", 4, 0, 0⟩,
  ⟨0x3040, 1, 0x05, 0x05, "FENCES_SEEN", 3, 0, 0⟩,
  ⟨0x3040, 1, 0x06, 0x06, "CENSUS_RUNS", 3, 0, 0⟩,
  ⟨0x3100, 64, 0x01, 0x08, "LINK_RESERVE", 2, 1, 0⟩]

/-- Rows of indices 0x4000 to 0x4FFF, part 1. -/
def objs4a : List Obj := [
  ⟨0x4000, 1, 0x01, 0x01, "FRAME_BYTES", 3, 0, 4096⟩,
  ⟨0x4000, 1, 0x02, 0x02, "RESIDENCE_ENTRIES", 3, 0, 524288⟩,
  ⟨0x4000, 1, 0x03, 0x03, "SEGMENT_MIN", 3, 0, 65536⟩,
  ⟨0x4000, 1, 0x04, 0x04, "SEGMENT_MAX", 3, 0, 8388608⟩,
  ⟨0x4000, 1, 0x05, 0x05, "FAST_USABLE", 4, 0, 572778774528⟩,
  ⟨0x4000, 1, 0x06, 0x06, "SLOW_USABLE", 4, 0, 2048000000000⟩,
  ⟨0x4000, 1, 0x07, 0x07, "STACK_RESERVED", 4, 0, 268435456⟩,
  ⟨0x4000, 1, 0x08, 0x08, "TIER_MOVERS", 1, 0, 16⟩,
  ⟨0x4000, 1, 0x09, 0x09, "SLOW_FREE", 4, 0, 0⟩,
  ⟨0x4000, 1, 0x0a, 0x0a, "RELOCATIONS", 4, 0, 0⟩,
  ⟨0x4001, 1, 0x01, 0x0c, "STACK_FREE", 4, 0, 0⟩,
  ⟨0x4100, 64, 0x01, 0x01, "FAST_QUOTA", 4, 1, 0⟩,
  ⟨0x4100, 64, 0x02, 0x02, "FAST_GUARANTEE", 4, 1, 0⟩,
  ⟨0x4100, 64, 0x03, 0x03, "FAST_USED", 4, 0, 0⟩,
  ⟨0x4100, 64, 0x04, 0x04, "SLOW_QUOTA", 4, 1, 0⟩,
  ⟨0x4100, 64, 0x05, 0x05, "SLOW_GUARANTEE", 4, 1, 0⟩,
  ⟨0x4100, 64, 0x06, 0x06, "SLOW_USED", 4, 0, 0⟩,
  ⟨0x4100, 64, 0x07, 0x07, "PINS_HELD", 2, 0, 0⟩,
  ⟨0x4100, 64, 0x08, 0x08, "MOVES_DONE", 4, 0, 0⟩,
  ⟨0x4100, 64, 0x09, 0x09, "EVICTED", 4, 0, 0⟩,
  ⟨0x4100, 64, 0x0a, 0x0a, "EVICT_BUSY", 4, 0, 0⟩,
  ⟨0x4100, 64, 0x0b, 0x0b, "ALLOC_FAILS", 4, 0, 0⟩,
  ⟨0x4100, 64, 0x0c, 0x0c, "BUSY_PINNED_COUNT", 4, 0, 0⟩,
  ⟨0x4100, 64, 0x0d, 0x0d, "CODEC_SAVED", 4, 0, 0⟩,
  ⟨0x4200, 1, 0x01, 0x01, "HBM_PCS", 1, 0, 32⟩,
  ⟨0x4200, 1, 0x02, 0x02, "HBM_BANKS", 1, 0, 64⟩,
  ⟨0x4200, 1, 0x03, 0x03, "HBM_REMAP_ENTRIES", 2, 0, 4096⟩,
  ⟨0x4200, 1, 0x04, 0x04, "SLOW_REMAP_ENTRIES", 2, 0, 1024⟩,
  ⟨0x4200, 1, 0x05, 0x05, "HOT_REFRESH_C", 1, 0, 85⟩,
  ⟨0x4201, 12, 0x01, 0x01, "CORRECTED", 4, 0, 0⟩,
  ⟨0x4201, 12, 0x02, 0x02, "TRANSIENT", 4, 0, 0⟩,
  ⟨0x4201, 12, 0x03, 0x03, "POISONED_BURSTS", 4, 0, 0⟩,
  ⟨0x4201, 12, 0x04, 0x04, "BAD_PINS", 3, 0, 0⟩,
  ⟨0x4201, 12, 0x05, 0x05, "PC_RETIRED", 3, 0, 0⟩,
  ⟨0x4201, 12, 0x06, 0x06, "REMAPS_ACTIVE", 2, 0, 0⟩,
  ⟨0x4201, 12, 0x07, 0x07, "DEAD_SPARES", 3, 0, 0⟩,
  ⟨0x4201, 12, 0x08, 0x08, "FRAMES_RETIRED", 3, 0, 0⟩,
  ⟨0x4201, 12, 0x09, 0x09, "HARD_REPAIRS", 3, 0, 0⟩,
  ⟨0x4201, 12, 0x0a, 0x0a, "HOT_REFRESH", 6, 0, 0⟩,
  ⟨0x4201, 12, 0x0b, 0x0b, "READ_BYTES", 4, 0, 0⟩]

/-- Rows of indices 0x4000 to 0x4FFF, part 2. -/
def objs4b : List Obj := [
  ⟨0x4201, 12, 0x0c, 0x0c, "WRITE_BYTES", 4, 0, 0⟩,
  ⟨0x4220, 32, 0x01, 0x01, "CORRECTED", 4, 0, 0⟩,
  ⟨0x4220, 32, 0x02, 0x02, "TRANSIENT", 4, 0, 0⟩,
  ⟨0x4220, 32, 0x03, 0x03, "POISONED_BURSTS", 4, 0, 0⟩,
  ⟨0x4220, 32, 0x04, 0x04, "BAD_PINS", 4, 0, 0⟩,
  ⟨0x4220, 32, 0x05, 0x05, "PKG_LOST", 6, 0, 0⟩,
  ⟨0x4220, 32, 0x06, 0x06, "REMAPS_ACTIVE", 2, 0, 0⟩,
  ⟨0x4220, 32, 0x07, 0x07, "DEAD_SPARES", 3, 0, 0⟩,
  ⟨0x4220, 32, 0x08, 0x08, "FRAMES_RETIRED", 3, 0, 0⟩,
  ⟨0x4220, 32, 0x09, 0x09, "HARD_REPAIRS", 3, 0, 0⟩,
  ⟨0x4220, 32, 0x0a, 0x0a, "HOT_REFRESH", 6, 0, 0⟩,
  ⟨0x4220, 32, 0x0b, 0x0b, "READ_BYTES", 4, 0, 0⟩,
  ⟨0x4220, 32, 0x0c, 0x0c, "WRITE_BYTES", 4, 0, 0⟩]

/-- Rows of indices 0x5000 to 0x5FFF, part 1. -/
def objs5a : List Obj := [
  ⟨0x5000, 1, 0x01, 0x01, "JOB_CONTEXTS", 1, 0, 64⟩,
  ⟨0x5000, 1, 0x02, 0x02, "SEMAPHORES", 2, 0, 1024⟩,
  ⟨0x5000, 1, 0x03, 0x03, "SEM_GRACE_US", 1, 0, 20⟩,
  ⟨0x5000, 1, 0x04, 0x04, "CREDIT_RETURN_US", 1, 0, 12⟩,
  ⟨0x5000, 1, 0x05, 0x05, "STEP_CLASSES", 1, 0, 16⟩,
  ⟨0x5000, 1, 0x06, 0x06, "DEADLINE_MARKS", 1, 0, 16⟩,
  ⟨0x5000, 1, 0x07, 0x07, "DEADLINE_TICK_NS", 2, 0, 1000⟩,
  ⟨0x5001, 1, 0x01, 0x01, "SEM_SELECT", 2, 1, 0⟩,
  ⟨0x5001, 1, 0x02, 0x02, "SEM_STATE", 4, 0, 0⟩,
  ⟨0x5001, 1, 0x03, 0x03, "SEM_JOBS", 4, 1, 0⟩,
  ⟨0x5100, 64, 0x01, 0x01, "JOB_STATE", 1, 0, 0⟩,
  ⟨0x5100, 64, 0x02, 0x02, "JOB_CMD", 1, 2, 0⟩,
  ⟨0x5100, 64, 0x03, 0x03, "PART_RESULT", 1, 0, 0⟩,
  ⟨0x5100, 64, 0x04, 0x04, "PART_BLOCKS", 1, 1, 1⟩,
  ⟨0x5100, 64, 0x05, 0x05, "PART_REGIONS", 2, 1, 4095⟩,
  ⟨0x5100, 64, 0x06, 0x06, "PART_SHARED", 6, 1, 1⟩,
  ⟨0x5100, 64, 0x07, 0x07, "SLOT_GRANT", 1, 1, 0⟩,
  ⟨0x5100, 64, 0x08, 0x08, "OPB_GRANT", 3, 1, 0⟩,
  ⟨0x5100, 64, 0x09, 0x09, "PROG_GRANT", 1, 1, 0⟩,
  ⟨0x5100, 64, 0x0a, 0x0a, "REDUCE_REQ", 3, 1, 0⟩,
  ⟨0x5100, 64, 0x0b, 0x0b, "PRIORITY", 1, 1, 0⟩,
  ⟨0x5100, 64, 0x0c, 0x0c, "WEIGHT", 1, 1, 16⟩,
  ⟨0x5100, 64, 0x0d, 0x0d, "PREEMPT_MODE", 1, 1, 0⟩,
  ⟨0x5100, 64, 0x0e, 0x0e, "PART_MAP", 8, 0, 0⟩,
  ⟨0x5100, 64, 0x0f, 0x0f, "PART_LOST", 3, 0, 0⟩,
  ⟨0x5100, 64, 0x10, 0x17, "PIPELINE_REC", 3, 1, 0⟩,
  ⟨0x5200, 64, 0x01, 0x01, "STEP_DEADLINE", 3, 1, 0⟩,
  ⟨0x5200, 64, 0x02, 0x02, "FALLBACK_PIPELINE", 1, 1, 255⟩,
  ⟨0x5200, 64, 0x03, 0x03, "FALLBACK_MODE", 1, 1, 0⟩,
  ⟨0x5200, 64, 0x04, 0x04, "FALLBACK_HOLD", 2, 1, 16⟩,
  ⟨0x5200, 64, 0x05, 0x05, "MARK_COUNT", 1, 1, 0⟩,
  ⟨0x5200, 64, 0x06, 0x06, "DEADLINE_MISSES", 4, 0, 0⟩,
  ⟨0x5200, 64, 0x07, 0x07, "OVERRUNS_PREDICTED", 4, 0, 0⟩,
  ⟨0x5200, 64, 0x08, 0x08, "FALLBACK_STEPS", 4, 0, 0⟩,
  ⟨0x5200, 64, 0x09, 0x09, "WORST_STEP_US", 3, 0, 0⟩,
  ⟨0x5200, 64, 0x10, 0x1f, "MARK", 3, 1, 0⟩,
  ⟨0x5300, 64, 0x01, 0x10, "BASELINE", 3, 1, 0⟩,
  ⟨0x5300, 64, 0x11, 0x20, "SLOWDOWN", 2, 0, 0⟩,
  ⟨0x5300, 64, 0x21, 0x21, "PREEMPT_WAIT_NS", 4, 0, 0⟩,
  ⟨0x5300, 64, 0x22, 0x22, "DISPLACEMENTS", 4, 0, 0⟩]

/-- Rows of indices 0x5000 to 0x5FFF, part 2. -/
def objs5b : List Obj := [
  ⟨0x5300, 64, 0x23, 0x23, "DISCARDED_BY_PREEMPT", 4, 0, 0⟩,
  ⟨0x5300, 64, 0x24, 0x24, "SEM_WAIT_NS", 4, 0, 0⟩,
  ⟨0x5300, 64, 0x25, 0x25, "SEM_BROKEN", 4, 0, 0⟩,
  ⟨0x5300, 64, 0x26, 0x26, "CREDIT_WAIT_NS", 4, 0, 0⟩,
  ⟨0x5400, 1, 0x01, 0x01, "STREAM_ENTRIES", 3, 0, 65536⟩,
  ⟨0x5400, 1, 0x02, 0x02, "VANE_ENTRIES", 3, 0, 65536⟩,
  ⟨0x5400, 1, 0x03, 0x03, "VANE_REPLY_LNK_CYCLES", 1, 0, 19⟩,
  ⟨0x5400, 1, 0x04, 0x04, "JOIN_QUEUE_MAX", 2, 0, 1024⟩,
  ⟨0x5400, 1, 0x05, 0x05, "FORK_CHILDREN_MAX", 2, 0, 4096⟩,
  ⟨0x5410, 64, 0x01, 0x01, "STREAMS_RUNNING", 3, 0, 0⟩,
  ⟨0x5410, 64, 0x02, 0x02, "STREAMS_HELD", 3, 0, 0⟩,
  ⟨0x5410, 64, 0x03, 0x03, "HOLDS", 4, 0, 0⟩,
  ⟨0x5410, 64, 0x04, 0x04, "JOINS_REFUSED", 4, 0, 0⟩,
  ⟨0x5410, 64, 0x05, 0x05, "FORKS_APPLIED", 4, 0, 0⟩,
  ⟨0x5410, 64, 0x06, 0x06, "TAIL_GROUPS", 4, 0, 0⟩,
  ⟨0x5410, 64, 0x07, 0x07, "DEMOTIONS", 4, 0, 0⟩,
  ⟨0x5410, 64, 0x08, 0x08, "PLANS_DONE", 4, 0, 0⟩,
  ⟨0x5410, 64, 0x09, 0x09, "PLAN_DEFERRED", 4, 0, 0⟩,
  ⟨0x5410, 64, 0x0a, 0x0a, "VANE_DENIED", 4, 0, 0⟩,
  ⟨0x5500, 64, 0x01, 0x01, "JOB_OWNER", 3, 1, 0⟩,
  ⟨0x5500, 64, 0x02, 0x05, "QUEUE_DEPTH", 3, 1, 0⟩,
  ⟨0x5500, 64, 0x06, 0x09, "QUEUE_SEG", 3, 0, 0⟩,
  ⟨0x5500, 64, 0x0a, 0x0d, "COMPL_SEG", 3, 0, 0⟩,
  ⟨0x5500, 64, 0x0e, 0x11, "QUEUE_TAIL", 3, 0, 0⟩,
  ⟨0x5500, 64, 0x12, 0x15, "QUEUE_HEAD", 3, 0, 0⟩,
  ⟨0x5500, 64, 0x16, 0x19, "COMPL_TAIL", 3, 0, 0⟩,
  ⟨0x5500, 64, 0x1a, 0x1d, "COMPL_HEAD", 3, 0, 0⟩,
  ⟨0x5600, 1, 0x01, 0x80, "MBOX_BIND", 4, 1, 0⟩,
  ⟨0x5601, 1, 0x01, 0x80, "MBOX_BIND", 4, 1, 0⟩,
  ⟨0x5602, 1, 0x01, 0x01, "DOORBELL_REJECTS", 4, 0, 0⟩,
  ⟨0x5602, 1, 0x02, 0x02, "SEG_DENIED", 4, 0, 0⟩,
  ⟨0x5602, 1, 0x03, 0x03, "MBOX_DENIED", 4, 0, 0⟩,
  ⟨0x5602, 1, 0x04, 0x04, "MBOX_BUSY_COUNT", 4, 0, 0⟩]

/-- Rows of indices 0x6000 to 0x6FFF, part 1. -/
def objs6a : List Obj := [
  ⟨0x6000, 1, 0x01, 0x01, "RECORDER_CMD", 1, 2, 0⟩,
  ⟨0x6000, 1, 0x02, 0x02, "RECORDER_STATE", 1, 0, 0⟩,
  ⟨0x6000, 1, 0x03, 0x03, "OLDEST_SEQ", 3, 0, 4294967295⟩,
  ⟨0x6000, 1, 0x04, 0x04, "NEWEST_SEQ", 3, 0, 4294967295⟩,
  ⟨0x6000, 1, 0x05, 0x05, "RECORDER_READ_SEQ", 3, 1, 0⟩,
  ⟨0x6000, 1, 0x06, 0x06, "RECORDER_READ", 8, 0, 0⟩,
  ⟨0x6000, 1, 0x07, 0x07, "RECORDS_LOST", 4, 0, 0⟩,
  ⟨0x6000, 1, 0x08, 0x08, "FREEZE_HELD", 2, 0, 0⟩,
  ⟨0x6000, 1, 0x09, 0x09, "FREEZE_OVERFLOW", 4, 0, 0⟩,
  ⟨0x6000, 1, 0x0a, 0x0a, "FREEZE_LIMIT_S", 3, 3, 600⟩,
  ⟨0x6000, 1, 0x0b, 0x0b, "OP_HOURS", 3, 0, 0⟩,
  ⟨0x6000, 1, 0x0c, 0x0c, "POWER_CYCLES", 3, 0, 0⟩,
  ⟨0x6000, 1, 0x0d, 0x0d, "ALERT_SEVERITY", 1, 3, 3⟩,
  ⟨0x6000, 1, 0x0e, 0x0e, "ALERT_CLEAR", 6, 2, 0⟩,
  ⟨0x6000, 1, 0x0f, 0x0f, "ALERT_CAUSE", 3, 0, 4294967293⟩,
  ⟨0x6001, 1, 0x01, 0x01, "SERVICE_S", 4, 0, 0⟩,
  ⟨0x6001, 1, 0x02, 0x02, "DOWN_NS", 4, 0, 0⟩,
  ⟨0x6001, 1, 0x03, 0x03, "AVAILABILITY_PPB", 3, 0, 1000000000⟩,
  ⟨0x6001, 1, 0x04, 0x04, "DEGRADED_S", 4, 0, 0⟩,
  ⟨0x6001, 1, 0x05, 0x05, "DELAY_NS", 4, 0, 0⟩,
  ⟨0x6001, 1, 0x06, 0x06, "BLOCK_OUTAGES", 3, 0, 0⟩,
  ⟨0x6001, 1, 0x07, 0x07, "REGION_OUTAGES", 3, 0, 0⟩,
  ⟨0x6001, 1, 0x08, 0x08, "DEVICE_OUTAGES", 3, 0, 0⟩,
  ⟨0x6001, 1, 0x09, 0x09, "HOST_PORT_OUTAGES", 3, 0, 0⟩,
  ⟨0x6001, 1, 0x0a, 0x0a, "LONGEST_OUTAGE_NS", 4, 0, 0⟩,
  ⟨0x6001, 1, 0x0b, 0x0b, "BOUND_EXCEEDED", 3, 0, 0⟩,
  ⟨0x6002, 1, 0x01, 0x05, "RECORDS_BY_SEVERITY", 4, 0, 0⟩]

/-- Rows of indices 0x7000 to 0x7FFF, part 1. -/
def objs7a : List Obj := [
  ⟨0x7000, 1, 0x01, 0x01, "FW_VERSION", 3, 0, 0⟩,
  ⟨0x7000, 1, 0x02, 0x02, "FW_SVN", 3, 0, 0⟩,
  ⟨0x7000, 1, 0x03, 0x03, "FW_DIGEST", 8, 0, 0⟩,
  ⟨0x7000, 1, 0x04, 0x04, "MIN_SVN", 3, 0, 0⟩,
  ⟨0x7000, 1, 0x05, 0x05, "KEYS_REVOKED", 1, 0, 0⟩,
  ⟨0x7000, 1, 0x06, 0x06, "FW_UPDATE_SOURCE", 1, 1, 255⟩,
  ⟨0x7000, 1, 0x07, 0x07, "FW_UPDATE_CMD", 1, 2, 0⟩,
  ⟨0x7000, 1, 0x08, 0x08, "FW_UPDATE_STATE", 1, 0, 0⟩,
  ⟨0x7001, 1, 0x01, 0x01, "ATTEST_NONCE", 8, 2, 0⟩,
  ⟨0x7001, 1, 0x02, 0x02, "ATTEST_STATE", 1, 0, 0⟩,
  ⟨0x7001, 1, 0x03, 0x03, "ATTEST_REPORT", 8, 0, 0⟩,
  ⟨0x7001, 1, 0x04, 0x04, "ATTEST_CERT", 8, 0, 0⟩,
  ⟨0x7002, 1, 0x01, 0x01, "UNLOCK_CHALLENGE", 8, 0, 0⟩,
  ⟨0x7002, 1, 0x02, 0x02, "UNLOCK_TOKEN", 8, 2, 0⟩,
  ⟨0x7002, 1, 0x03, 0x03, "DEBUG_STATE", 1, 0, 0⟩,
  ⟨0x7002, 1, 0x04, 0x04, "DEBUG_OPENED", 1, 0, 0⟩]

/-- Rows of indices 0x8000 to 0x8FFF, part 1. -/
def objs8a : List Obj := [
  ⟨0x8000, 1, 0x01, 0x01, "VEC_MAT_RATIO", 3, 0, 512⟩,
  ⟨0x8001, 1, 0x01, 0x01, "RESIDUE_RETRIES", 4, 0, 0⟩,
  ⟨0x8001, 1, 0x02, 0x02, "COLUMN_SWITCHES", 3, 0, 0⟩,
  ⟨0x8001, 1, 0x03, 0x03, "AUDIT_RETRIES", 4, 0, 0⟩,
  ⟨0x8002, 1, 0x01, 0x01, "ARRAY_ROWS", 1, 0, 64⟩,
  ⟨0x8002, 1, 0x02, 0x02, "ARRAY_COLUMNS", 1, 0, 64⟩,
  ⟨0x8002, 1, 0x03, 0x03, "CELL_MULTIPLIERS", 1, 0, 16⟩,
  ⟨0x8002, 1, 0x04, 0x04, "ACC_SLOTS", 1, 0, 128⟩,
  ⟨0x8002, 1, 0x05, 0x05, "WIDE_PORT_BYTES", 2, 0, 4096⟩,
  ⟨0x8002, 1, 0x06, 0x06, "NARROW_PORT_BYTES", 2, 0, 512⟩,
  ⟨0x8002, 1, 0x07, 0x07, "EXP_UNIT_TRIPLES", 2, 0, 512⟩,
  ⟨0x8003, 1, 0x01, 0x9c, "SPARE_COLUMN_MAP", 1, 0, 255⟩,
  ⟨0x8004, 1, 0x01, 0x01, "VE_LANES", 2, 0, 256⟩,
  ⟨0x8004, 1, 0x02, 0x02, "VE_PROGRAMS", 1, 0, 16⟩,
  ⟨0x8004, 1, 0x03, 0x03, "VE_PROGRAM_WORDS", 1, 0, 32⟩,
  ⟨0x8004, 1, 0x04, 0x04, "VE_REGISTERS", 1, 0, 16⟩,
  ⟨0x8004, 1, 0x05, 0x05, "VE_CONTEXTS", 1, 0, 8⟩,
  ⟨0x8005, 1, 0x01, 0x01, "KV_PAGE_POSITIONS", 2, 0, 256⟩,
  ⟨0x8005, 1, 0x02, 0x02, "KV_MAX_POSITIONS", 3, 0, 16777216⟩,
  ⟨0x8005, 1, 0x03, 0x03, "KV_MAX_DIM", 2, 0, 256⟩,
  ⟨0x8005, 1, 0x04, 0x04, "KV_EDIT_PENDING_MAX", 2, 0, 4096⟩,
  ⟨0x8006, 1, 0x01, 0x01, "REDUCE_ENGINES", 1, 0, 16⟩,
  ⟨0x8006, 1, 0x02, 0x02, "REDUCE_STORE_BLOCKS", 3, 0, 65536⟩,
  ⟨0x8006, 1, 0x03, 0x03, "REDUCE_CONTEXTS", 2, 0, 1024⟩,
  ⟨0x8006, 1, 0x04, 0x04, "PARAM_GROUPS", 2, 0, 4096⟩,
  ⟨0x8006, 1, 0x05, 0x05, "CURVE_POINTS", 1, 0, 64⟩,
  ⟨0x8006, 1, 0x06, 0x06, "BC_TABLE_STEPS", 3, 0, 65536⟩,
  ⟨0x8006, 1, 0x07, 0x07, "UPDATE_BLOCKS_PER_CYCLE", 1, 0, 1⟩,
  ⟨0x8100, 64, 0x01, 0x01, "ROUND_MODE", 1, 1, 0⟩,
  ⟨0x8100, 64, 0x02, 0x02, "JOB_SEED", 4, 1, 0⟩,
  ⟨0x8100, 64, 0x03, 0x03, "SAT_POLICY", 1, 1, 0⟩,
  ⟨0x8100, 64, 0x04, 0x04, "CLIP_THRESHOLD", 1, 1, 8⟩,
  ⟨0x8100, 64, 0x05, 0x05, "AUDIT_SHIFT", 1, 1, 12⟩,
  ⟨0x8100, 64, 0x06, 0x06, "FORMAT_VOID_COUNT", 4, 0, 0⟩,
  ⟨0x8100, 64, 0x07, 0x07, "SCALE_RANGE_COUNT", 4, 0, 0⟩,
  ⟨0x8100, 64, 0x08, 0x08, "SAT_TILES", 4, 0, 0⟩,
  ⟨0x8100, 64, 0x09, 0x09, "CLIPPED_VALUES", 4, 0, 0⟩,
  ⟨0x8100, 64, 0x0a, 0x0a, "CLIP_EVENTS", 4, 0, 0⟩,
  ⟨0x8100, 64, 0x0b, 0x0b, "AUDIT_TILES", 4, 0, 0⟩,
  ⟨0x8100, 64, 0x0c, 0x0c, "AUDIT_NO_MASTER", 4, 0, 0⟩]

/-- Rows of indices 0x8000 to 0x8FFF, part 2. -/
def objs8b : List Obj := [
  ⟨0x8100, 64, 0x0d, 0x0d, "AUDIT_ELEMENTS", 4, 0, 0⟩,
  ⟨0x8100, 64, 0x0e, 0x0e, "AUDIT_DRIFT_MEAN", 5, 0, 0⟩,
  ⟨0x8100, 64, 0x0f, 0x0f, "AUDIT_DRIFT_RMS", 3, 0, 0⟩,
  ⟨0x8100, 64, 0x10, 0x10, "AUDIT_DRIFT_MAX", 3, 0, 0⟩,
  ⟨0x8100, 64, 0x11, 0x11, "LANE_RANGE_COUNT", 4, 0, 0⟩,
  ⟨0x8100, 64, 0x12, 0x12, "DOMAIN_COUNT", 4, 0, 0⟩,
  ⟨0x8100, 64, 0x13, 0x13, "EMPTY_ROW", 4, 0, 0⟩,
  ⟨0x8100, 64, 0x14, 0x14, "RETILE_COUNT", 4, 0, 0⟩,
  ⟨0x8100, 64, 0x15, 0x15, "RETILE_LOSS_MAX", 2, 0, 0⟩,
  ⟨0x8100, 64, 0x16, 0x16, "ACC_SHORT_REJECTS", 4, 0, 0⟩,
  ⟨0x8100, 64, 0x17, 0x17, "SCALE_SWEEPS", 4, 0, 0⟩,
  ⟨0x8100, 64, 0x18, 0x18, "EXPAND_ROUNDED", 4, 0, 0⟩,
  ⟨0x8100, 64, 0x19, 0x19, "CONV_EMPTY", 4, 0, 0⟩,
  ⟨0x8100, 64, 0x1a, 0x1a, "EXPAND_STALLS", 4, 0, 0⟩,
  ⟨0x8100, 64, 0x1b, 0x1b, "STATE_AUDIT", 1, 1, 0⟩,
  ⟨0x8100, 64, 0x1c, 0x1c, "STATE_SAT_ROWS", 4, 0, 0⟩,
  ⟨0x8100, 64, 0x1d, 0x1d, "COEF_CLAMPED", 4, 0, 0⟩,
  ⟨0x8100, 64, 0x1e, 0x1e, "STATE_AUDIT_STEPS", 4, 0, 0⟩,
  ⟨0x8100, 64, 0x1f, 0x1f, "STATE_DRIFT_MEAN", 5, 0, 0⟩,
  ⟨0x8100, 64, 0x20, 0x20, "STATE_DRIFT_RMS", 3, 0, 0⟩,
  ⟨0x8100, 64, 0x21, 0x21, "STATE_DRIFT_MAX", 3, 0, 0⟩,
  ⟨0x8100, 64, 0x22, 0x22, "ATTN_PAGES", 4, 0, 0⟩,
  ⟨0x8100, 64, 0x23, 0x23, "ATTN_REFETCH_PAGES", 4, 0, 0⟩,
  ⟨0x8100, 64, 0x24, 0x24, "ATTN_INF_ROWS", 4, 0, 0⟩,
  ⟨0x8100, 64, 0x25, 0x25, "KV_RESCALED", 4, 0, 0⟩,
  ⟨0x8100, 64, 0x26, 0x26, "DIR_EDITS_APPLIED", 4, 0, 0⟩,
  ⟨0x8100, 64, 0x27, 0x27, "DIR_HOLES", 4, 0, 0⟩,
  ⟨0x8100, 64, 0x28, 0x28, "FROZEN_SKIPS", 4, 0, 0⟩,
  ⟨0x8100, 64, 0x29, 0x29, "STEP_MISMATCHES", 4, 0, 0⟩,
  ⟨0x8100, 64, 0x2a, 0x2a, "REDUCE_STALE_RECORDS", 4, 0, 0⟩,
  ⟨0x8100, 64, 0x2b, 0x2b, "BUCKETS_APPLIED", 4, 0, 0⟩,
  ⟨0x8100, 64, 0x2c, 0x2c, "REDUCE_SAT_BLOCKS", 4, 0, 0⟩,
  ⟨0x8100, 64, 0x2d, 0x2d, "REDUCE_TIMEOUT", 3, 1, 1000⟩,
  ⟨0x8100, 64, 0x2e, 0x2e, "REDUCE_GRANT", 3, 0, 0⟩,
  ⟨0x8100, 64, 0x2f, 0x2f, "GROUP_SELECT", 2, 1, 0⟩,
  ⟨0x8100, 64, 0x30, 0x30, "GROUP_STATE", 1, 0, 0⟩,
  ⟨0x8100, 64, 0x31, 0x31, "GROUP_FROZEN", 6, 1, 0⟩,
  ⟨0x8100, 64, 0x32, 0x32, "GROUP_STEP_SET", 3, 2, 0⟩,
  ⟨0x8100, 64, 0x33, 0x3e, "SHARD_STEP", 3, 0, 0⟩]

/-- The rows that may hold index `i`: those of its range (R450). -/
def objsOf (i : Nat) : List Obj :=
  match i / 4096 with
  | 1 => objs1a
  | 2 => objs2a
  | 3 => objs3a
  | 4 => objs4a ++ objs4b
  | 5 => objs5a ++ objs5b
  | 6 => objs6a
  | 7 => objs7a
  | 8 => objs8a ++ objs8b
  | _ => []

/-- Every row, in rising index and sub-index. -/
def objTable : List Obj := objs1a ++ objs2a ++ objs3a ++ objs4a ++ objs4b ++ objs5a ++ objs5b ++ objs6a ++ objs7a ++ objs8a ++ objs8b

/-! Keys of the objects, index * 256 + sub-index: `j` a job, stack, package or port; `k` counts sub-indices from the first. -/

/-- VENDOR_NAME, R2. -/
def O.VENDOR_NAME : Nat := 0x100001
/-- FAMILY_NAME, R2. -/
def O.FAMILY_NAME : Nat := 0x100002
/-- PART_NUMBER, R2. -/
def O.PART_NUMBER : Nat := 0x100003
/-- STEPPING, R2. -/
def O.STEPPING : Nat := 0x100004
/-- SERIAL_NUMBER, R2. -/
def O.SERIAL_NUMBER : Nat := 0x100005
/-- DEVICE_ID, R384. -/
def O.DEVICE_ID : Nat := 0x100101
/-- MEMBER_SID, R384. -/
def O.MEMBER_SID : Nat := 0x100102
/-- GROUP_NUMBER, R384. -/
def O.GROUP_NUMBER : Nat := 0x100103
/-- CENSUS_STATE, R384. -/
def O.CENSUS_STATE : Nat := 0x100104
/-- CENSUS_GEN, R384. -/
def O.CENSUS_GEN : Nat := 0x100105
/-- GROUP_MEMBERS, R384. -/
def O.GROUP_MEMBERS : Nat := 0x100106
/-- GROUP_DIAMETER, R384. -/
def O.GROUP_DIAMETER : Nat := 0x100107
/-- MACHINE_GROUPS, R384. -/
def O.MACHINE_GROUPS : Nat := 0x100108
/-- MACHINE_ROOT, R384. -/
def O.MACHINE_ROOT : Nat := 0x100109
/-- CALENDAR_TIME, R384. -/
def O.CALENDAR_TIME : Nat := 0x10010a
/-- REGIONS_PHYSICAL, R40. -/
def O.REGIONS_PHYSICAL : Nat := 0x110001
/-- BLOCKS_PER_REGION, R40. -/
def O.BLOCKS_PER_REGION : Nat := 0x110002
/-- ACTIVE_BLOCKS_PER_REGION, R40. -/
def O.ACTIVE_BLOCKS_PER_REGION : Nat := 0x110003
/-- ARRAY_SPARE_COLUMNS, R40. -/
def O.ARRAY_SPARE_COLUMNS : Nat := 0x110004
/-- REGION_BLOCK_STATE, R40. -/
def O.REGION_BLOCK_STATE (k : Nat) : Nat := 0x110101 + k
/-- MGMT_MAC, R465. -/
def O.MGMT_MAC : Nat := 0x120001
/-- MGMT_PLCA_ID, R465. -/
def O.MGMT_PLCA_ID : Nat := 0x120002
/-- MGMT_PLCA_STATUS, R465. -/
def O.MGMT_PLCA_STATUS : Nat := 0x120003
/-- MGMT_IPV4, R465. -/
def O.MGMT_IPV4 : Nat := 0x120004
/-- MGMT_INBAND_READ, R465. -/
def O.MGMT_INBAND_READ : Nat := 0x120005
/-- MGMT_INBAND_WRITE, R465. -/
def O.MGMT_INBAND_WRITE : Nat := 0x120006
/-- NOTIFY_SEVERITY, R465. -/
def O.NOTIFY_SEVERITY : Nat := 0x120007
/-- NOTIFY_INBAND, R465. -/
def O.NOTIFY_INBAND : Nat := 0x120008
/-- DICT_VERSION, R465. -/
def O.DICT_VERSION : Nat := 0x120009
/-- PERSIST_WRITES, R465. -/
def O.PERSIST_WRITES : Nat := 0x12000a
/-- MGMT_PEERS, R465. -/
def O.MGMT_PEERS (k : Nat) : Nat := 0x120101 + k
/-- NOTIFY_DEST, R465. -/
def O.NOTIFY_DEST (k : Nat) : Nat := 0x120201 + k
/-- PKTS_RX, R465. -/
def O.PKTS_RX : Nat := 0x120301
/-- PKTS_MALFORMED, R465. -/
def O.PKTS_MALFORMED : Nat := 0x120302
/-- REPLIES_CACHED, R465. -/
def O.REPLIES_CACHED : Nat := 0x120303
/-- NOTIFY_SENT, R465. -/
def O.NOTIFY_SENT : Nat := 0x120304
/-- NOTIFY_DROPPED, R465. -/
def O.NOTIFY_DROPPED : Nat := 0x120305
/-- WRITES_DENIED, R465. -/
def O.WRITES_DENIED : Nat := 0x120306
/-- INPUT_MV, R519. -/
def O.INPUT_MV : Nat := 0x200001
/-- INPUT_MA, R519. -/
def O.INPUT_MA : Nat := 0x200002
/-- INPUT_W, R519. -/
def O.INPUT_W : Nat := 0x200003
/-- POWER_CAP_W, R519. -/
def O.POWER_CAP_W : Nat := 0x200004
/-- CAP_THROTTLE_NS, R519. -/
def O.CAP_THROTTLE_NS : Nat := 0x200005
/-- LULL_CMD, R519. -/
def O.LULL_CMD : Nat := 0x200101
/-- LULL_STATE, R519. -/
def O.LULL_STATE : Nat := 0x200102
/-- LULL_TIMER, R519. -/
def O.LULL_TIMER : Nat := 0x200103
/-- LULL_ENTRIES, R519. -/
def O.LULL_ENTRIES : Nat := 0x200104
/-- LULL_WAKE_US, R519. -/
def O.LULL_WAKE_US : Nat := 0x200105
/-- COOLANT_IN_C, R519. -/
def O.COOLANT_IN_C : Nat := 0x200201
/-- COOLANT_OUT_C, R519. -/
def O.COOLANT_OUT_C : Nat := 0x200202
/-- THERMAL_HOLD_NS, R519. -/
def O.THERMAL_HOLD_NS : Nat := 0x200203
/-- DIE_TEMP_C, R519. -/
def O.DIE_TEMP_C (k : Nat) : Nat := 0x200301 + k
/-- LINK_PORTS, R362. -/
def O.LINK_PORTS : Nat := 0x300001
/-- LANES_ACTIVE, R362. -/
def O.LANES_ACTIVE : Nat := 0x300002
/-- LANES_SPARE, R362. -/
def O.LANES_SPARE : Nat := 0x300003
/-- SYMBOL_RATE_MBD, R362. -/
def O.SYMBOL_RATE_MBD : Nat := 0x300004
/-- SUPERFRAME_FRAMES, R362. -/
def O.SUPERFRAME_FRAMES : Nat := 0x300005
/-- REPLAY_SUPERFRAMES, R362. -/
def O.REPLAY_SUPERFRAMES : Nat := 0x300006
/-- RX_CREDITS, R362. -/
def O.RX_CREDITS : Nat := 0x300007
/-- FIBRE_MAX_M, R362. -/
def O.FIBRE_MAX_M : Nat := 0x300008
/-- HOST_PORT, R362. -/
def O.HOST_PORT : Nat := 0x300009
/-- LANE_SWAP_CORRECTED, R362. -/
def O.LANE_SWAP_CORRECTED : Nat := 0x30000a
/-- PORT_STATE, R363. -/
def O.PORT_STATE (j : Nat) : Nat := 0x300101 + 256 * j
/-- PEER_ID, R363. -/
def O.PEER_ID (j : Nat) : Nat := 0x300102 + 256 * j
/-- SPARE_SERVES, R363. -/
def O.SPARE_SERVES (j : Nat) : Nat := 0x300103 + 256 * j
/-- FEC_CORRECTED, R363. -/
def O.FEC_CORRECTED (j : Nat) : Nat := 0x300104 + 256 * j
/-- SF_FAILED, R363. -/
def O.SF_FAILED (j : Nat) : Nat := 0x300105 + 256 * j
/-- REPLAYS, R363. -/
def O.REPLAYS (j : Nat) : Nat := 0x300106 + 256 * j
/-- LINK_TRANSIENT, R363. -/
def O.LINK_TRANSIENT (j : Nat) : Nat := 0x300107 + 256 * j
/-- LANE_SWAPS, R363. -/
def O.LANE_SWAPS (j : Nat) : Nat := 0x300108 + 256 * j
/-- RETRAINS, R363. -/
def O.RETRAINS (j : Nat) : Nat := 0x300109 + 256 * j
/-- PROTOCOL_FAULTS, R363. -/
def O.PROTOCOL_FAULTS (j : Nat) : Nat := 0x30010a + 256 * j
/-- HOP_DROPS, R363. -/
def O.HOP_DROPS (j : Nat) : Nat := 0x30010b + 256 * j
/-- HOST_UNMAPPED, R363. -/
def O.HOST_UNMAPPED (j : Nat) : Nat := 0x30010c + 256 * j
/-- TX_FRAMES, R363. -/
def O.TX_FRAMES (j : Nat) : Nat := 0x30010d + 256 * j
/-- RX_FRAMES, R363. -/
def O.RX_FRAMES (j : Nat) : Nat := 0x30010e + 256 * j
/-- HOST_CHANNEL, R362. -/
def O.HOST_CHANNEL (k : Nat) : Nat := 0x302001 + k
/-- PORT_ROLE, R384. -/
def O.PORT_ROLE (k : Nat) : Nat := 0x303001 + k
/-- UNREACHABLE_DROPS, R385. -/
def O.UNREACHABLE_DROPS : Nat := 0x304001
/-- SEQ_GAPS, R385. -/
def O.SEQ_GAPS : Nat := 0x304002
/-- SEQ_DUPLICATES, R385. -/
def O.SEQ_DUPLICATES : Nat := 0x304003
/-- SYNC_STALE, R385. -/
def O.SYNC_STALE : Nat := 0x304004
/-- FENCES_SEEN, R385. -/
def O.FENCES_SEEN : Nat := 0x304005
/-- CENSUS_RUNS, R385. -/
def O.CENSUS_RUNS : Nat := 0x304006
/-- LINK_RESERVE, R364. -/
def O.LINK_RESERVE (j k : Nat) : Nat := 0x310001 + 256 * j + k
/-- FRAME_BYTES, R281. -/
def O.FRAME_BYTES : Nat := 0x400001
/-- RESIDENCE_ENTRIES, R281. -/
def O.RESIDENCE_ENTRIES : Nat := 0x400002
/-- SEGMENT_MIN, R281. -/
def O.SEGMENT_MIN : Nat := 0x400003
/-- SEGMENT_MAX, R281. -/
def O.SEGMENT_MAX : Nat := 0x400004
/-- FAST_USABLE, R281. -/
def O.FAST_USABLE : Nat := 0x400005
/-- SLOW_USABLE, R281. -/
def O.SLOW_USABLE : Nat := 0x400006
/-- STACK_RESERVED, R281. -/
def O.STACK_RESERVED : Nat := 0x400007
/-- TIER_MOVERS, R281. -/
def O.TIER_MOVERS : Nat := 0x400008
/-- SLOW_FREE, R281. -/
def O.SLOW_FREE : Nat := 0x400009
/-- RELOCATIONS, R281. -/
def O.RELOCATIONS : Nat := 0x40000a
/-- STACK_FREE, R281. -/
def O.STACK_FREE (k : Nat) : Nat := 0x400101 + k
/-- FAST_QUOTA, R282. -/
def O.FAST_QUOTA (j : Nat) : Nat := 0x410001 + 256 * j
/-- FAST_GUARANTEE, R282. -/
def O.FAST_GUARANTEE (j : Nat) : Nat := 0x410002 + 256 * j
/-- FAST_USED, R282. -/
def O.FAST_USED (j : Nat) : Nat := 0x410003 + 256 * j
/-- SLOW_QUOTA, R282. -/
def O.SLOW_QUOTA (j : Nat) : Nat := 0x410004 + 256 * j
/-- SLOW_GUARANTEE, R282. -/
def O.SLOW_GUARANTEE (j : Nat) : Nat := 0x410005 + 256 * j
/-- SLOW_USED, R282. -/
def O.SLOW_USED (j : Nat) : Nat := 0x410006 + 256 * j
/-- PINS_HELD, R282. -/
def O.PINS_HELD (j : Nat) : Nat := 0x410007 + 256 * j
/-- MOVES_DONE, R282. -/
def O.MOVES_DONE (j : Nat) : Nat := 0x410008 + 256 * j
/-- EVICTED, R282. -/
def O.EVICTED (j : Nat) : Nat := 0x410009 + 256 * j
/-- EVICT_BUSY, R282. -/
def O.EVICT_BUSY (j : Nat) : Nat := 0x41000a + 256 * j
/-- ALLOC_FAILS, R282. -/
def O.ALLOC_FAILS (j : Nat) : Nat := 0x41000b + 256 * j
/-- BUSY_PINNED_COUNT, R282. -/
def O.BUSY_PINNED_COUNT (j : Nat) : Nat := 0x41000c + 256 * j
/-- CODEC_SAVED, R282. -/
def O.CODEC_SAVED (j : Nat) : Nat := 0x41000d + 256 * j
/-- HBM_PCS, R300. -/
def O.HBM_PCS : Nat := 0x420001
/-- HBM_BANKS, R300. -/
def O.HBM_BANKS : Nat := 0x420002
/-- HBM_REMAP_ENTRIES, R300. -/
def O.HBM_REMAP_ENTRIES : Nat := 0x420003
/-- SLOW_REMAP_ENTRIES, R300. -/
def O.SLOW_REMAP_ENTRIES : Nat := 0x420004
/-- HOT_REFRESH_C, R300. -/
def O.HOT_REFRESH_C : Nat := 0x420005
/-- CORRECTED, R301. -/
def O.STACK_CORRECTED (j : Nat) : Nat := 0x420101 + 256 * j
/-- TRANSIENT, R301. -/
def O.STACK_TRANSIENT (j : Nat) : Nat := 0x420102 + 256 * j
/-- POISONED_BURSTS, R301. -/
def O.STACK_POISONED_BURSTS (j : Nat) : Nat := 0x420103 + 256 * j
/-- BAD_PINS, R301. -/
def O.STACK_BAD_PINS (j : Nat) : Nat := 0x420104 + 256 * j
/-- PC_RETIRED, R301. -/
def O.STACK_PC_RETIRED (j : Nat) : Nat := 0x420105 + 256 * j
/-- REMAPS_ACTIVE, R301. -/
def O.STACK_REMAPS_ACTIVE (j : Nat) : Nat := 0x420106 + 256 * j
/-- DEAD_SPARES, R301. -/
def O.STACK_DEAD_SPARES (j : Nat) : Nat := 0x420107 + 256 * j
/-- FRAMES_RETIRED, R301. -/
def O.STACK_FRAMES_RETIRED (j : Nat) : Nat := 0x420108 + 256 * j
/-- HARD_REPAIRS, R301. -/
def O.STACK_HARD_REPAIRS (j : Nat) : Nat := 0x420109 + 256 * j
/-- HOT_REFRESH, R301. -/
def O.STACK_HOT_REFRESH (j : Nat) : Nat := 0x42010a + 256 * j
/-- READ_BYTES, R301. -/
def O.STACK_READ_BYTES (j : Nat) : Nat := 0x42010b + 256 * j
/-- WRITE_BYTES, R301. -/
def O.STACK_WRITE_BYTES (j : Nat) : Nat := 0x42010c + 256 * j
/-- CORRECTED, R301. -/
def O.PKG_CORRECTED (j : Nat) : Nat := 0x422001 + 256 * j
/-- TRANSIENT, R301. -/
def O.PKG_TRANSIENT (j : Nat) : Nat := 0x422002 + 256 * j
/-- POISONED_BURSTS, R301. -/
def O.PKG_POISONED_BURSTS (j : Nat) : Nat := 0x422003 + 256 * j
/-- BAD_PINS, R301. -/
def O.PKG_BAD_PINS (j : Nat) : Nat := 0x422004 + 256 * j
/-- PKG_LOST, R301. -/
def O.PKG_LOST (j : Nat) : Nat := 0x422005 + 256 * j
/-- REMAPS_ACTIVE, R301. -/
def O.PKG_REMAPS_ACTIVE (j : Nat) : Nat := 0x422006 + 256 * j
/-- DEAD_SPARES, R301. -/
def O.PKG_DEAD_SPARES (j : Nat) : Nat := 0x422007 + 256 * j
/-- FRAMES_RETIRED, R301. -/
def O.PKG_FRAMES_RETIRED (j : Nat) : Nat := 0x422008 + 256 * j
/-- HARD_REPAIRS, R301. -/
def O.PKG_HARD_REPAIRS (j : Nat) : Nat := 0x422009 + 256 * j
/-- HOT_REFRESH, R301. -/
def O.PKG_HOT_REFRESH (j : Nat) : Nat := 0x42200a + 256 * j
/-- READ_BYTES, R301. -/
def O.PKG_READ_BYTES (j : Nat) : Nat := 0x42200b + 256 * j
/-- WRITE_BYTES, R301. -/
def O.PKG_WRITE_BYTES (j : Nat) : Nat := 0x42200c + 256 * j
/-- JOB_CONTEXTS, R412. -/
def O.JOB_CONTEXTS : Nat := 0x500001
/-- SEMAPHORES, R412. -/
def O.SEMAPHORES : Nat := 0x500002
/-- SEM_GRACE_US, R412. -/
def O.SEM_GRACE_US : Nat := 0x500003
/-- CREDIT_RETURN_US, R412. -/
def O.CREDIT_RETURN_US : Nat := 0x500004
/-- STEP_CLASSES, R412. -/
def O.STEP_CLASSES : Nat := 0x500005
/-- DEADLINE_MARKS, R412. -/
def O.DEADLINE_MARKS : Nat := 0x500006
/-- DEADLINE_TICK_NS, R412. -/
def O.DEADLINE_TICK_NS : Nat := 0x500007
/-- SEM_SELECT, R412. -/
def O.SEM_SELECT : Nat := 0x500101
/-- SEM_STATE, R412. -/
def O.SEM_STATE : Nat := 0x500102
/-- SEM_JOBS, R412. -/
def O.SEM_JOBS : Nat := 0x500103
/-- JOB_STATE, R413. -/
def O.JOB_STATE (j : Nat) : Nat := 0x510001 + 256 * j
/-- JOB_CMD, R413. -/
def O.JOB_CMD (j : Nat) : Nat := 0x510002 + 256 * j
/-- PART_RESULT, R413. -/
def O.PART_RESULT (j : Nat) : Nat := 0x510003 + 256 * j
/-- PART_BLOCKS, R413. -/
def O.PART_BLOCKS (j : Nat) : Nat := 0x510004 + 256 * j
/-- PART_REGIONS, R413. -/
def O.PART_REGIONS (j : Nat) : Nat := 0x510005 + 256 * j
/-- PART_SHARED, R413. -/
def O.PART_SHARED (j : Nat) : Nat := 0x510006 + 256 * j
/-- SLOT_GRANT, R413. -/
def O.SLOT_GRANT (j : Nat) : Nat := 0x510007 + 256 * j
/-- OPB_GRANT, R413. -/
def O.OPB_GRANT (j : Nat) : Nat := 0x510008 + 256 * j
/-- PROG_GRANT, R413. -/
def O.PROG_GRANT (j : Nat) : Nat := 0x510009 + 256 * j
/-- REDUCE_REQ, R413. -/
def O.REDUCE_REQ (j : Nat) : Nat := 0x51000a + 256 * j
/-- PRIORITY, R413. -/
def O.PRIORITY (j : Nat) : Nat := 0x51000b + 256 * j
/-- WEIGHT, R413. -/
def O.WEIGHT (j : Nat) : Nat := 0x51000c + 256 * j
/-- PREEMPT_MODE, R413. -/
def O.PREEMPT_MODE (j : Nat) : Nat := 0x51000d + 256 * j
/-- PART_MAP, R413. -/
def O.PART_MAP (j : Nat) : Nat := 0x51000e + 256 * j
/-- PART_LOST, R413. -/
def O.PART_LOST (j : Nat) : Nat := 0x51000f + 256 * j
/-- PIPELINE_REC, R413. -/
def O.PIPELINE_REC (j k : Nat) : Nat := 0x510010 + 256 * j + k
/-- STEP_DEADLINE, R414. -/
def O.STEP_DEADLINE (j : Nat) : Nat := 0x520001 + 256 * j
/-- FALLBACK_PIPELINE, R414. -/
def O.FALLBACK_PIPELINE (j : Nat) : Nat := 0x520002 + 256 * j
/-- FALLBACK_MODE, R414. -/
def O.FALLBACK_MODE (j : Nat) : Nat := 0x520003 + 256 * j
/-- FALLBACK_HOLD, R414. -/
def O.FALLBACK_HOLD (j : Nat) : Nat := 0x520004 + 256 * j
/-- MARK_COUNT, R414. -/
def O.MARK_COUNT (j : Nat) : Nat := 0x520005 + 256 * j
/-- DEADLINE_MISSES, R414. -/
def O.DEADLINE_MISSES (j : Nat) : Nat := 0x520006 + 256 * j
/-- OVERRUNS_PREDICTED, R414. -/
def O.OVERRUNS_PREDICTED (j : Nat) : Nat := 0x520007 + 256 * j
/-- FALLBACK_STEPS, R414. -/
def O.FALLBACK_STEPS (j : Nat) : Nat := 0x520008 + 256 * j
/-- WORST_STEP_US, R414. -/
def O.WORST_STEP_US (j : Nat) : Nat := 0x520009 + 256 * j
/-- MARK, R414. -/
def O.MARK (j k : Nat) : Nat := 0x520010 + 256 * j + k
/-- BASELINE, R415. -/
def O.BASELINE (j k : Nat) : Nat := 0x530001 + 256 * j + k
/-- SLOWDOWN, R415. -/
def O.SLOWDOWN (j k : Nat) : Nat := 0x530011 + 256 * j + k
/-- PREEMPT_WAIT_NS, R415. -/
def O.PREEMPT_WAIT_NS (j : Nat) : Nat := 0x530021 + 256 * j
/-- DISPLACEMENTS, R415. -/
def O.DISPLACEMENTS (j : Nat) : Nat := 0x530022 + 256 * j
/-- DISCARDED_BY_PREEMPT, R415. -/
def O.DISCARDED_BY_PREEMPT (j : Nat) : Nat := 0x530023 + 256 * j
/-- SEM_WAIT_NS, R415. -/
def O.SEM_WAIT_NS (j : Nat) : Nat := 0x530024 + 256 * j
/-- SEM_BROKEN, R415. -/
def O.SEM_BROKEN (j : Nat) : Nat := 0x530025 + 256 * j
/-- CREDIT_WAIT_NS, R415. -/
def O.CREDIT_WAIT_NS (j : Nat) : Nat := 0x530026 + 256 * j
/-- STREAM_ENTRIES, R252. -/
def O.STREAM_ENTRIES : Nat := 0x540001
/-- VANE_ENTRIES, R252. -/
def O.VANE_ENTRIES : Nat := 0x540002
/-- VANE_REPLY_LNK_CYCLES, R252. -/
def O.VANE_REPLY_LNK_CYCLES : Nat := 0x540003
/-- JOIN_QUEUE_MAX, R252. -/
def O.JOIN_QUEUE_MAX : Nat := 0x540004
/-- FORK_CHILDREN_MAX, R252. -/
def O.FORK_CHILDREN_MAX : Nat := 0x540005
/-- STREAMS_RUNNING, R253. -/
def O.STREAMS_RUNNING (j : Nat) : Nat := 0x541001 + 256 * j
/-- STREAMS_HELD, R253. -/
def O.STREAMS_HELD (j : Nat) : Nat := 0x541002 + 256 * j
/-- HOLDS, R253. -/
def O.HOLDS (j : Nat) : Nat := 0x541003 + 256 * j
/-- JOINS_REFUSED, R253. -/
def O.JOINS_REFUSED (j : Nat) : Nat := 0x541004 + 256 * j
/-- FORKS_APPLIED, R253. -/
def O.FORKS_APPLIED (j : Nat) : Nat := 0x541005 + 256 * j
/-- TAIL_GROUPS, R253. -/
def O.TAIL_GROUPS (j : Nat) : Nat := 0x541006 + 256 * j
/-- DEMOTIONS, R253. -/
def O.DEMOTIONS (j : Nat) : Nat := 0x541007 + 256 * j
/-- PLANS_DONE, R253. -/
def O.PLANS_DONE (j : Nat) : Nat := 0x541008 + 256 * j
/-- PLAN_DEFERRED, R253. -/
def O.PLAN_DEFERRED (j : Nat) : Nat := 0x541009 + 256 * j
/-- VANE_DENIED, R253. -/
def O.VANE_DENIED (j : Nat) : Nat := 0x54100a + 256 * j
/-- JOB_OWNER, R418. -/
def O.JOB_OWNER (j : Nat) : Nat := 0x550001 + 256 * j
/-- QUEUE_DEPTH, R418. -/
def O.QUEUE_DEPTH (j k : Nat) : Nat := 0x550002 + 256 * j + k
/-- QUEUE_SEG, R418. -/
def O.QUEUE_SEG (j k : Nat) : Nat := 0x550006 + 256 * j + k
/-- COMPL_SEG, R418. -/
def O.COMPL_SEG (j k : Nat) : Nat := 0x55000a + 256 * j + k
/-- QUEUE_TAIL, R418. -/
def O.QUEUE_TAIL (j k : Nat) : Nat := 0x55000e + 256 * j + k
/-- QUEUE_HEAD, R418. -/
def O.QUEUE_HEAD (j k : Nat) : Nat := 0x550012 + 256 * j + k
/-- COMPL_TAIL, R418. -/
def O.COMPL_TAIL (j k : Nat) : Nat := 0x550016 + 256 * j + k
/-- COMPL_HEAD, R418. -/
def O.COMPL_HEAD (j k : Nat) : Nat := 0x55001a + 256 * j + k
/-- MBOX_BIND, R441. -/
def O.MBOX_BIND (k : Nat) : Nat := if k < 128 then 0x560001 + k else 0x560101 + (k - 128)
/-- DOORBELL_REJECTS, R441. -/
def O.DOORBELL_REJECTS : Nat := 0x560201
/-- SEG_DENIED, R441. -/
def O.SEG_DENIED : Nat := 0x560202
/-- MBOX_DENIED, R441. -/
def O.MBOX_DENIED : Nat := 0x560203
/-- MBOX_BUSY_COUNT, R441. -/
def O.MBOX_BUSY_COUNT : Nat := 0x560204
/-- RECORDER_CMD, R481. -/
def O.RECORDER_CMD : Nat := 0x600001
/-- RECORDER_STATE, R481. -/
def O.RECORDER_STATE : Nat := 0x600002
/-- OLDEST_SEQ, R481. -/
def O.OLDEST_SEQ : Nat := 0x600003
/-- NEWEST_SEQ, R481. -/
def O.NEWEST_SEQ : Nat := 0x600004
/-- RECORDER_READ_SEQ, R481. -/
def O.RECORDER_READ_SEQ : Nat := 0x600005
/-- RECORDER_READ, R481. -/
def O.RECORDER_READ : Nat := 0x600006
/-- RECORDS_LOST, R481. -/
def O.RECORDS_LOST : Nat := 0x600007
/-- FREEZE_HELD, R481. -/
def O.FREEZE_HELD : Nat := 0x600008
/-- FREEZE_OVERFLOW, R481. -/
def O.FREEZE_OVERFLOW : Nat := 0x600009
/-- FREEZE_LIMIT_S, R481. -/
def O.FREEZE_LIMIT_S : Nat := 0x60000a
/-- OP_HOURS, R481. -/
def O.OP_HOURS : Nat := 0x60000b
/-- POWER_CYCLES, R481. -/
def O.POWER_CYCLES : Nat := 0x60000c
/-- ALERT_SEVERITY, R481. -/
def O.ALERT_SEVERITY : Nat := 0x60000d
/-- ALERT_CLEAR, R481. -/
def O.ALERT_CLEAR : Nat := 0x60000e
/-- ALERT_CAUSE, R481. -/
def O.ALERT_CAUSE : Nat := 0x60000f
/-- SERVICE_S, R482. -/
def O.SERVICE_S : Nat := 0x600101
/-- DOWN_NS, R482. -/
def O.DOWN_NS : Nat := 0x600102
/-- AVAILABILITY_PPB, R482. -/
def O.AVAILABILITY_PPB : Nat := 0x600103
/-- DEGRADED_S, R482. -/
def O.DEGRADED_S : Nat := 0x600104
/-- DELAY_NS, R482. -/
def O.DELAY_NS : Nat := 0x600105
/-- BLOCK_OUTAGES, R482. -/
def O.BLOCK_OUTAGES : Nat := 0x600106
/-- REGION_OUTAGES, R482. -/
def O.REGION_OUTAGES : Nat := 0x600107
/-- DEVICE_OUTAGES, R482. -/
def O.DEVICE_OUTAGES : Nat := 0x600108
/-- HOST_PORT_OUTAGES, R482. -/
def O.HOST_PORT_OUTAGES : Nat := 0x600109
/-- LONGEST_OUTAGE_NS, R482. -/
def O.LONGEST_OUTAGE_NS : Nat := 0x60010a
/-- BOUND_EXCEEDED, R482. -/
def O.BOUND_EXCEEDED : Nat := 0x60010b
/-- RECORDS_BY_SEVERITY, R481. -/
def O.RECORDS_BY_SEVERITY (k : Nat) : Nat := 0x600201 + k
/-- FW_VERSION, R498. -/
def O.FW_VERSION : Nat := 0x700001
/-- FW_SVN, R498. -/
def O.FW_SVN : Nat := 0x700002
/-- FW_DIGEST, R498. -/
def O.FW_DIGEST : Nat := 0x700003
/-- MIN_SVN, R498. -/
def O.MIN_SVN : Nat := 0x700004
/-- KEYS_REVOKED, R498. -/
def O.KEYS_REVOKED : Nat := 0x700005
/-- FW_UPDATE_SOURCE, R498. -/
def O.FW_UPDATE_SOURCE : Nat := 0x700006
/-- FW_UPDATE_CMD, R498. -/
def O.FW_UPDATE_CMD : Nat := 0x700007
/-- FW_UPDATE_STATE, R498. -/
def O.FW_UPDATE_STATE : Nat := 0x700008
/-- ATTEST_NONCE, R498. -/
def O.ATTEST_NONCE : Nat := 0x700101
/-- ATTEST_STATE, R498. -/
def O.ATTEST_STATE : Nat := 0x700102
/-- ATTEST_REPORT, R498. -/
def O.ATTEST_REPORT : Nat := 0x700103
/-- ATTEST_CERT, R498. -/
def O.ATTEST_CERT : Nat := 0x700104
/-- UNLOCK_CHALLENGE, R498. -/
def O.UNLOCK_CHALLENGE : Nat := 0x700201
/-- UNLOCK_TOKEN, R498. -/
def O.UNLOCK_TOKEN : Nat := 0x700202
/-- DEBUG_STATE, R498. -/
def O.DEBUG_STATE : Nat := 0x700203
/-- DEBUG_OPENED, R498. -/
def O.DEBUG_OPENED : Nat := 0x700204
/-- VEC_MAT_RATIO, R2. -/
def O.VEC_MAT_RATIO : Nat := 0x800001
/-- RESIDUE_RETRIES, R78. -/
def O.RESIDUE_RETRIES : Nat := 0x800101
/-- COLUMN_SWITCHES, R78. -/
def O.COLUMN_SWITCHES : Nat := 0x800102
/-- AUDIT_RETRIES, R78. -/
def O.AUDIT_RETRIES : Nat := 0x800103
/-- ARRAY_ROWS, R101. -/
def O.ARRAY_ROWS : Nat := 0x800201
/-- ARRAY_COLUMNS, R101. -/
def O.ARRAY_COLUMNS : Nat := 0x800202
/-- CELL_MULTIPLIERS, R101. -/
def O.CELL_MULTIPLIERS : Nat := 0x800203
/-- ACC_SLOTS, R101. -/
def O.ACC_SLOTS : Nat := 0x800204
/-- WIDE_PORT_BYTES, R101. -/
def O.WIDE_PORT_BYTES : Nat := 0x800205
/-- NARROW_PORT_BYTES, R101. -/
def O.NARROW_PORT_BYTES : Nat := 0x800206
/-- EXP_UNIT_TRIPLES, R101. -/
def O.EXP_UNIT_TRIPLES : Nat := 0x800207
/-- SPARE_COLUMN_MAP, R101. -/
def O.SPARE_COLUMN_MAP (k : Nat) : Nat := 0x800301 + k
/-- VE_LANES, R131. -/
def O.VE_LANES : Nat := 0x800401
/-- VE_PROGRAMS, R131. -/
def O.VE_PROGRAMS : Nat := 0x800402
/-- VE_PROGRAM_WORDS, R131. -/
def O.VE_PROGRAM_WORDS : Nat := 0x800403
/-- VE_REGISTERS, R131. -/
def O.VE_REGISTERS : Nat := 0x800404
/-- VE_CONTEXTS, R131. -/
def O.VE_CONTEXTS : Nat := 0x800405
/-- KV_PAGE_POSITIONS, R222. -/
def O.KV_PAGE_POSITIONS : Nat := 0x800501
/-- KV_MAX_POSITIONS, R222. -/
def O.KV_MAX_POSITIONS : Nat := 0x800502
/-- KV_MAX_DIM, R222. -/
def O.KV_MAX_DIM : Nat := 0x800503
/-- KV_EDIT_PENDING_MAX, R222. -/
def O.KV_EDIT_PENDING_MAX : Nat := 0x800504
/-- REDUCE_ENGINES, R333. -/
def O.REDUCE_ENGINES : Nat := 0x800601
/-- REDUCE_STORE_BLOCKS, R333. -/
def O.REDUCE_STORE_BLOCKS : Nat := 0x800602
/-- REDUCE_CONTEXTS, R333. -/
def O.REDUCE_CONTEXTS : Nat := 0x800603
/-- PARAM_GROUPS, R333. -/
def O.PARAM_GROUPS : Nat := 0x800604
/-- CURVE_POINTS, R333. -/
def O.CURVE_POINTS : Nat := 0x800605
/-- BC_TABLE_STEPS, R333. -/
def O.BC_TABLE_STEPS : Nat := 0x800606
/-- UPDATE_BLOCKS_PER_CYCLE, R333. -/
def O.UPDATE_BLOCKS_PER_CYCLE : Nat := 0x800607
/-- ROUND_MODE, R76. -/
def O.ROUND_MODE (j : Nat) : Nat := 0x810001 + 256 * j
/-- JOB_SEED, R76. -/
def O.JOB_SEED (j : Nat) : Nat := 0x810002 + 256 * j
/-- SAT_POLICY, R76. -/
def O.SAT_POLICY (j : Nat) : Nat := 0x810003 + 256 * j
/-- CLIP_THRESHOLD, R76. -/
def O.CLIP_THRESHOLD (j : Nat) : Nat := 0x810004 + 256 * j
/-- AUDIT_SHIFT, R76. -/
def O.AUDIT_SHIFT (j : Nat) : Nat := 0x810005 + 256 * j
/-- FORMAT_VOID_COUNT, R76. -/
def O.FORMAT_VOID_COUNT (j : Nat) : Nat := 0x810006 + 256 * j
/-- SCALE_RANGE_COUNT, R76. -/
def O.SCALE_RANGE_COUNT (j : Nat) : Nat := 0x810007 + 256 * j
/-- SAT_TILES, R76. -/
def O.SAT_TILES (j : Nat) : Nat := 0x810008 + 256 * j
/-- CLIPPED_VALUES, R76. -/
def O.CLIPPED_VALUES (j : Nat) : Nat := 0x810009 + 256 * j
/-- CLIP_EVENTS, R76. -/
def O.CLIP_EVENTS (j : Nat) : Nat := 0x81000a + 256 * j
/-- AUDIT_TILES, R76. -/
def O.AUDIT_TILES (j : Nat) : Nat := 0x81000b + 256 * j
/-- AUDIT_NO_MASTER, R76. -/
def O.AUDIT_NO_MASTER (j : Nat) : Nat := 0x81000c + 256 * j
/-- AUDIT_ELEMENTS, R76. -/
def O.AUDIT_ELEMENTS (j : Nat) : Nat := 0x81000d + 256 * j
/-- AUDIT_DRIFT_MEAN, R76. -/
def O.AUDIT_DRIFT_MEAN (j : Nat) : Nat := 0x81000e + 256 * j
/-- AUDIT_DRIFT_RMS, R76. -/
def O.AUDIT_DRIFT_RMS (j : Nat) : Nat := 0x81000f + 256 * j
/-- AUDIT_DRIFT_MAX, R76. -/
def O.AUDIT_DRIFT_MAX (j : Nat) : Nat := 0x810010 + 256 * j
/-- LANE_RANGE_COUNT, R132. -/
def O.LANE_RANGE_COUNT (j : Nat) : Nat := 0x810011 + 256 * j
/-- DOMAIN_COUNT, R132. -/
def O.DOMAIN_COUNT (j : Nat) : Nat := 0x810012 + 256 * j
/-- EMPTY_ROW, R132. -/
def O.EMPTY_ROW (j : Nat) : Nat := 0x810013 + 256 * j
/-- RETILE_COUNT, R143. -/
def O.RETILE_COUNT (j : Nat) : Nat := 0x810014 + 256 * j
/-- RETILE_LOSS_MAX, R143. -/
def O.RETILE_LOSS_MAX (j : Nat) : Nat := 0x810015 + 256 * j
/-- ACC_SHORT_REJECTS, R143. -/
def O.ACC_SHORT_REJECTS (j : Nat) : Nat := 0x810016 + 256 * j
/-- SCALE_SWEEPS, R143. -/
def O.SCALE_SWEEPS (j : Nat) : Nat := 0x810017 + 256 * j
/-- EXPAND_ROUNDED, R167. -/
def O.EXPAND_ROUNDED (j : Nat) : Nat := 0x810018 + 256 * j
/-- CONV_EMPTY, R167. -/
def O.CONV_EMPTY (j : Nat) : Nat := 0x810019 + 256 * j
/-- EXPAND_STALLS, R167. -/
def O.EXPAND_STALLS (j : Nat) : Nat := 0x81001a + 256 * j
/-- STATE_AUDIT, R190. -/
def O.STATE_AUDIT (j : Nat) : Nat := 0x81001b + 256 * j
/-- STATE_SAT_ROWS, R190. -/
def O.STATE_SAT_ROWS (j : Nat) : Nat := 0x81001c + 256 * j
/-- COEF_CLAMPED, R190. -/
def O.COEF_CLAMPED (j : Nat) : Nat := 0x81001d + 256 * j
/-- STATE_AUDIT_STEPS, R190. -/
def O.STATE_AUDIT_STEPS (j : Nat) : Nat := 0x81001e + 256 * j
/-- STATE_DRIFT_MEAN, R190. -/
def O.STATE_DRIFT_MEAN (j : Nat) : Nat := 0x81001f + 256 * j
/-- STATE_DRIFT_RMS, R190. -/
def O.STATE_DRIFT_RMS (j : Nat) : Nat := 0x810020 + 256 * j
/-- STATE_DRIFT_MAX, R190. -/
def O.STATE_DRIFT_MAX (j : Nat) : Nat := 0x810021 + 256 * j
/-- ATTN_PAGES, R223. -/
def O.ATTN_PAGES (j : Nat) : Nat := 0x810022 + 256 * j
/-- ATTN_REFETCH_PAGES, R223. -/
def O.ATTN_REFETCH_PAGES (j : Nat) : Nat := 0x810023 + 256 * j
/-- ATTN_INF_ROWS, R223. -/
def O.ATTN_INF_ROWS (j : Nat) : Nat := 0x810024 + 256 * j
/-- KV_RESCALED, R223. -/
def O.KV_RESCALED (j : Nat) : Nat := 0x810025 + 256 * j
/-- DIR_EDITS_APPLIED, R223. -/
def O.DIR_EDITS_APPLIED (j : Nat) : Nat := 0x810026 + 256 * j
/-- DIR_HOLES, R223. -/
def O.DIR_HOLES (j : Nat) : Nat := 0x810027 + 256 * j
/-- FROZEN_SKIPS, R334. -/
def O.FROZEN_SKIPS (j : Nat) : Nat := 0x810028 + 256 * j
/-- STEP_MISMATCHES, R334. -/
def O.STEP_MISMATCHES (j : Nat) : Nat := 0x810029 + 256 * j
/-- REDUCE_STALE_RECORDS, R334. -/
def O.REDUCE_STALE_RECORDS (j : Nat) : Nat := 0x81002a + 256 * j
/-- BUCKETS_APPLIED, R334. -/
def O.BUCKETS_APPLIED (j : Nat) : Nat := 0x81002b + 256 * j
/-- REDUCE_SAT_BLOCKS, R334. -/
def O.REDUCE_SAT_BLOCKS (j : Nat) : Nat := 0x81002c + 256 * j
/-- REDUCE_TIMEOUT, R334. -/
def O.REDUCE_TIMEOUT (j : Nat) : Nat := 0x81002d + 256 * j
/-- REDUCE_GRANT, R334. -/
def O.REDUCE_GRANT (j : Nat) : Nat := 0x81002e + 256 * j
/-- GROUP_SELECT, R334. -/
def O.GROUP_SELECT (j : Nat) : Nat := 0x81002f + 256 * j
/-- GROUP_STATE, R334. -/
def O.GROUP_STATE (j : Nat) : Nat := 0x810030 + 256 * j
/-- GROUP_FROZEN, R334. -/
def O.GROUP_FROZEN (j : Nat) : Nat := 0x810031 + 256 * j
/-- GROUP_STEP_SET, R334. -/
def O.GROUP_STEP_SET (j : Nat) : Nat := 0x810032 + 256 * j
/-- SHARD_STEP, R334. -/
def O.SHARD_STEP (j k : Nat) : Nat := 0x810033 + 256 * j + k

end Sys2Proof.Machine
end

