-- ==== Sys2Proof/Machine/Sparse.lean ====
section
/-! DEFINITION. Sparse memories in one canonical form: keys strictly rising and no entry equal to what its key reads as
when nothing is listed. Every memory and table of the module is read and written through these operations. -/

namespace Sys2Proof.Machine

/-- Reads key `a`; `d` is what an unlisted key reads as. -/
def SMap.findD {α : Type} (d : Nat → α) : SMap α → Nat → α
  | [], a => d a
  | (k, v) :: m, a => if k = a then v else SMap.findD d m a

/-- The entries of every key but `a`. -/
def SMap.without {α : Type} (m : SMap α) (a : Nat) : SMap α := m.filter (fun p => p.1 != a)

/-- Puts an entry in front of the first one with a greater key. -/
def SMap.insertAt {α : Type} : SMap α → Nat → α → SMap α
  | [], a, v => [(a, v)]
  | (k, w) :: m, a, v => if a < k then (a, v) :: (k, w) :: m else (k, w) :: SMap.insertAt m a v

/-- Writes key `a`, keeping the canonical form. -/
def SMap.putD {α : Type} [DecidableEq α] (d : Nat → α) (m : SMap α) (a : Nat) (v : α) : SMap α :=
  if v = d a then SMap.without m a else SMap.insertAt (SMap.without m a) a v

/-- Reads with one default for every key. -/
def SMap.get {α : Type} (d : α) (m : SMap α) (a : Nat) : α := SMap.findD (fun _ => d) m a

/-- Writes with one default for every key. -/
def SMap.put {α : Type} [DecidableEq α] (d : α) (m : SMap α) (a : Nat) (v : α) : SMap α :=
  SMap.putD (fun _ => d) m a v

/-- `n` values from key `a` up, from entries whose keys are not below `a`. -/
def SMap.walk {α : Type} (d : α) : Nat → Nat → SMap α → List α
  | 0, _, _ => []
  | n + 1, a, [] => d :: SMap.walk d n (a + 1) []
  | n + 1, a, (k, v) :: m =>
    if k = a then v :: SMap.walk d n (a + 1) m else d :: SMap.walk d n (a + 1) ((k, v) :: m)

/-- Keys strictly rising from `lo` up. -/
def SMap.rising {α : Type} : Nat → SMap α → Bool
  | _, [] => true
  | lo, (k, _) :: m => decide (lo <= k) && SMap.rising (k + 1) m

/-- `n` values from key `a` up: one walk where the keys rise, as they do in every state a run reaches. -/
def SMap.readRun {α : Type} (d : α) (m : SMap α) (a n : Nat) : List α :=
  if SMap.rising 0 m then SMap.walk d n a (m.dropWhile (fun p => decide (p.1 < a)))
  else (List.range n).map (fun i => SMap.get d m (a + i))

/-- Entries of a run of values from key `a` up, the unlisted value left out. -/
def SMap.runOf {α : Type} [DecidableEq α] (d : α) : Nat → List α → SMap α
  | _, [] => []
  | a, v :: vs => if v = d then SMap.runOf d (a + 1) vs else (a, v) :: SMap.runOf d (a + 1) vs

/-- Writes a run of values from key `a` up. -/
def SMap.writeRun {α : Type} [DecidableEq α] (d : α) (m : SMap α) (a : Nat) (vs : List α) : SMap α :=
  m.filter (fun p => decide (p.1 < a)) ++ SMap.runOf d a vs ++ m.filter (fun p => decide (a + vs.length <= p.1))

/-- The entries of keys `[a, a + n)` moved to `b`, relative to their start; the old keys read as unlisted. -/
def SMap.moveRun {α : Type} (m : SMap α) (a b n : Nat) : SMap α :=
  let out := m.filter (fun p => decide (p.1 < a) || decide (a + n <= p.1))
  let mv := (m.filter (fun p => decide (a <= p.1) && decide (p.1 < a + n))).map (fun p => (p.1 - a + b, p.2))
  out.filter (fun p => decide (p.1 < b)) ++ mv ++ out.filter (fun p => decide (b + n <= p.1))

/-- Gives every key of `[a, a + n)` its unlisted value. -/
def SMap.erase {α : Type} (m : SMap α) (a n : Nat) : SMap α :=
  m.filter (fun p => p.1 < a || a + n <= p.1)

/-- Keys strictly rising from `lo`, no entry equal to its default. -/
def SMap.wfFrom {α : Type} [DecidableEq α] (d : Nat → α) : Nat → SMap α → Bool
  | _, [] => true
  | lo, (k, v) :: m => decide (lo <= k) && decide (v ≠ d k) && SMap.wfFrom d (k + 1) m

/-- The canonical form. -/
def SMap.wf {α : Type} [DecidableEq α] (d : Nat → α) (m : SMap α) : Bool := SMap.wfFrom d 0 m

/-- Every memory of the module is in canonical form (log 8 names the unlisted values). -/
def Memory.wf (m : SMap Byte) : Bool := SMap.wf (fun _ => (0 : Byte)) m

end Sys2Proof.Machine
end

