-- ==== Sys2Proof/Machine/State.lean ====
section
/-! DEFINITION. The state of the module as plain data: every register, table, memory, queue, counter, mode and pin the
manual gives it, grouped as its chapters group them. Each field's comment names the rule and file of spec/, the width and
the value after reset. The numeric objects of the dictionary live in `Dev.dict` under their index and sub-index. -/

namespace Sys2Proof.Machine

/-- Why the machine would stop. No command of this block raises a fault: a fault of nature is a command whose effect is
a next state (log 2). The type has one constructor because the interface asks for a type; nothing raises it. -/
inductive Fault where
  /-- Raised by nothing. Safe: no run reaches it. -/
  | unreachable
  deriving DecidableEq, Repr

/-- Why a command is refused. -/
inductive Refusal where
  /-- Raised by an arm of `exec` that has no meaning yet; safe. No arm is left. -/
  | notModelled (mnemonic : String)
  deriving DecidableEq, Repr

/-! ### Chapters 1 to 7: the memories -/

/-- The memories of the module. Unlisted cells read as 0 (log 8); keys are given with each field. -/
structure Mem where
  /-- R258, R283 (10, 11): fast tier, 12 stacks of 48,000,000,000 bytes; key stack * 2^36 + byte address; reset: nothing listed, reads 0 (DESIGN CHOICE 0, log 8) -/
  fast : SMap Byte
  /-- R258, R285 (10, 11): slow tier, 500,000,000 frames of 4,096 bytes; key frame * 4,096 + offset; reset: nothing listed, reads 0 (DESIGN CHOICE 0, log 8) -/
  slow : SMap Byte
  /-- R11, R92 (01, 03): ACC entries of 156 blocks, 128 slots x 64 rows x 65 physical columns (64 is the spare) of 32 bits; reset 0 (DESIGN CHOICE 0, log 8) -/
  acc : SMap (BitVec 32)
  /-- R93 (03): row-word store of 156 blocks, 128 slots x 4 lanes x 64 row words of 32 bits (R57); reset 0 -/
  rows : SMap (BitVec 32)
  /-- R17 (01): OPB of 156 blocks, 2 MiB of bytes each; reset 0 (DESIGN CHOICE 0, log 8) -/
  opb : SMap Byte
  /-- R85 (03): scale shadow of 156 blocks, 2,048 entries of 64 bytes; reset 0 (DESIGN CHOICE 0, log 8) -/
  shadow : SMap Byte
  /-- R110 (04): element-program store of 156 blocks, 16 programs of 32 words of 32 bits; reset 0, every word a NOP -/
  prog : SMap (BitVec 32)
  deriving DecidableEq, Repr

/-- What a descriptor of a stage left in the OPB of one logical block of the stage in a step (R148, R183): its output's
first byte in the grant, its format, the runs of bytes that the block wrote (offset from that byte, length), and the step
masks it read (first byte in the grant, length; none for other commands than `scan`). -/
structure StageOut where
  job : Nat
  stage : Nat
  step : Nat
  lb : Nat
  base : Nat
  fmt : Nat
  runs : List (Nat × Nat)
  masks : Option (Nat × Nat)
  deriving DecidableEq, Repr, Inhabited

/-- State of the blocks beside their memories. -/
structure Blk where
  /-- R22 item 2 (01): (block address, memory, address) that has had one uncorrectable error; reset none -/
  failedOnce : List (Nat × Nat × Nat)
  /-- R22 item 4, R111 (01, 04): (block address, program) whose store was reloaded after a parity error; reset none -/
  progReloaded : List (Nat × Nat)
  /-- R111 (04): copy of each loaded program in device memory, key (block address * 16 + program) * 32 + word, 32 bits; reset 0 -/
  progCopy : SMap (BitVec 32)
  /-- R395 (15): tenancy of each block: (block address, job, step); reset none -/
  tenants : List (Nat × Nat × Nat)
  /-- R395 (15): VTIME, one count per block address and job (key block * 64 + job); reset 0 -/
  vtime : SMap Nat
  /-- R398 (15): (job, block address) pairs on which a job is displaced; reset none -/
  displaced : List (Nat × Nat)
  /-- R189 (07): rows sampled by the state audit: (job, block address, state slot base, row); reset none -/
  sampled : List (Nat × Nat × Nat × Nat)
  /-- R148, R149 (05): forwarded inputs: (job, stage, step) whose whole input has arrived; reset none -/
  inputs : List (Nat × Nat × Nat)
  /-- R148, R183 (05, 07): step each stage has started: (job, stage, step); reset none -/
  stageStep : List (Nat × Nat × Nat)
  /-- R148 (05): parts of a step of which a descriptor has completed: (job, stage, step); reset none -/
  stageDone : List (Nat × Nat × Nat)
  /-- R148, R183 (05, 07): outputs that wait in the blocks' OPBs to be forwarded; reset none -/
  outs : List StageOut
  /-- R21 (01): corrected errors of each block's ACC (0), OPB (1) and scale shadow (2), key block * 3 + memory; reset 0 -/
  corrected : SMap Nat
  /-- R92, R103 (03, 04): SHAPE code that each ACC slot was last drained in, key block * 128 + slot; reset 0 -/
  slotShape : SMap Nat
  /-- R206 (08): the page descriptor that each block's sequencer works on, 256 bits (block address, descriptor); reset none -/
  pages : List (Nat × BitVec 256)
  deriving DecidableEq, Repr

/-! ### Chapter 16: descriptors in flight -/

/-- The plan of one block's share (R133 to R138, R142). -/
structure Plan where
  /-- Logical block. -/
  blk : Nat
  /-- First column unit and row unit of the share, and how many elements it covers. -/
  row0 : Nat
  rows : Nat
  col0 : Nat
  cols : Nat
  shape : Nat
  pm : Nat
  pn : Nat
  retiled : Bool
  effLoss : Nat
  /-- K-blocks per chunk, KC / 8 (R138); 0: the operands are loaded in one piece. -/
  kc : Nat
  /-- Output tile rows per band of an expanded `conv` (R157); 0: no bands. -/
  band : Nat
  deriving DecidableEq, Repr, Inhabited

/-- A drained output tile that the shadow audit will want (R74, R75): its engine tile, first row and column in the share,
the codes drained, F of each row, and the initial value that its K-loop read with its row exponents. -/
structure AuditPart where
  tr : Nat
  tc : Nat
  row : Nat
  col : Nat
  codes : List (List Int)
  fs : List Int
  init : List (List Int)
  initExp : List Int
  deriving DecidableEq, Repr, Inhabited

/-- A fetched descriptor that has not yet produced its completion record. -/
structure Flight where
  /-- Flight number: the order of acceptance on the module. -/
  id : Nat
  job : Nat
  /-- Queue 0 to 3; 4: issued by the job's serving loop, without a queue (R417). -/
  queue : Nat
  /-- Descriptor index i (R417). -/
  index : Nat
  /-- The 64 bytes (R422). -/
  d : Word512
  /-- Plans of the blocks of its stage (R140). -/
  plans : List Plan
  /-- Waits: the FENCE bit (R417), or a reduce, move, semaphore or barrier that must wait. -/
  waiting : Bool
  started : Bool
  /-- Logical blocks whose doorbell has rung (R439). -/
  rung : List Nat
  /-- (logical block, K-loop) pairs that have drained (R89); K-loop c of n output tiles is tile c mod n of piece c div n. -/
  tiles : List (Nat × Nat)
  /-- F of a row block and engine tile column of a block's share, as the agreement pass fixed it (R60): (logical block, row
  block, column, F); kept where an initial value is named, which the drains may overwrite (R95). -/
  agreed : List (Nat × Nat × Nat × Int)
  /-- Drained tiles that the shadow audit has chosen (R74). -/
  audits : List AuditPart
  /-- Completion status once decided (R438). -/
  done : Option Nat
  retiled : Bool
  laneRange : Bool
  broken : Bool
  stateWritten : Bool
  appended : Bool
  effLoss : Nat
  shape : Nat
  pm : Nat
  pn : Nat
  /-- FIRST_FAIL (R436); 127 none. -/
  firstFail : Nat
  /-- Per-operation result of a move (R429): (operation, status, entry). -/
  results : List (Nat × Nat × Nat)
  /-- Streams and segments a fork has reserved (R237). -/
  reserved : List Nat
  /-- Pins that the descriptor holds: (segment, for writing) (R260). -/
  pins : List (Nat × Bool)
  /-- L of an `attend`: LEN at issue, before the append (R201). -/
  cacheLen : Nat
  /-- True once a write that outlives the step has been made (R397). -/
  lasting : Bool
  /-- Conditions met while running, by status code (R73). -/
  conds : List Nat
  /-- The job's REFORM waits for this descriptor's step (R388), or this descriptor waits for the REFORM. -/
  afterReform : Bool
  deriving DecidableEq, Repr, Inhabited

/-! ### Chapter 10: the store -/

/-- A residence entry (R257). -/
structure Res where
  /-- 0 free, 1 resident, 2 moving, 3 poisoned, 4 freeing. -/
  st : Nat
  /-- 0 fast, 1 slow. -/
  tier : Nat
  home : Nat
  frame : Nat
  frames : Nat
  len64 : Nat
  fmt : Nat
  kind : Nat
  comp : Bool
  use : Bool
  owner : Nat
  pin : Nat
  wpin : Nat
  refs : Nat
  queued : Nat
  destTier : Nat
  destHome : Nat
  deriving DecidableEq, Repr, Inhabited

/-- A move in progress or waiting (R265, R266). -/
structure Move where
  seg : Nat
  /-- Flight and operation it belongs to; `none`: ordered by the module (eviction, relocation, evacuation). -/
  of : Option (Nat × Nat)
  /-- OP code of R429: 2 FREE to 8 UNPIN. -/
  op : Nat
  compress : Bool
  transpose : Bool
  home : Nat
  tr : Nat
  tc : Nat
  /-- False: waits in the segment's queue. True: RESERVE done, copying. -/
  active : Bool
  /-- The copy is done and the commit waits for pins: new pins of every kind wait (DRAIN). -/
  drain : Bool
  destTier : Nat
  destHome : Nat
  destFrame : Nat
  destFrames : Nat
  destCharge : Nat
  deriving DecidableEq, Repr, Inhabited

/-- The tiered store. -/
structure Store where
  /-- R256, R257 (10): residence table, 524,288 entries of 128 bits; reset: every entry free -/
  res : SMap Res
  /-- R265, R266 (10): moves in progress and waiting, in order of acceptance; reset none -/
  moves : List Move
  /-- R261 (10): pin ledger, explicit pins as (job, segment, count), at most 4,096 per job; reset none -/
  ledger : List (Nat × Nat × Nat)
  /-- R274 (10): charge of each segment in bytes (tier, entry, bytes); key tier * 2^19 + entry; reset 0 -/
  charge : SMap Nat
  /-- R277 (10): eviction hand of each of 12 stacks, an entry index of 19 bits; reset 0 -/
  hand : SMap Nat
  /-- R198 (08): segments that an INIT has made page directories, until they are freed; reset none -/
  dirs : List Nat
  /-- R31, R279 (01, 10): segments being evacuated from a fenced stack; reset none -/
  evacuating : List Nat
  /-- R265, R420 (10, 16): REQ messages that wait for a write pin, and those of the same source behind them (port, message); reset none -/
  held : List (Nat × Msg)
  deriving DecidableEq, Repr

/-! ### Chapter 11: memory controllers -/

/-- A soft-remap entry (R294); `unit` 0 to 11 stacks, 12 to 43 packages. -/
structure Remap where
  unit : Nat
  pc : Nat
  bank : Nat
  row : Nat
  spare : Nat
  fails : Nat
  hardPending : Bool
  deriving DecidableEq, Repr, Inhabited

/-- The memory controllers. -/
structure Mc where
  /-- R294 (11): soft-remap tables, 4,096 entries per stack and 1,024 per package; reset none (restored from the ledger, R295) -/
  remaps : List Remap
  /-- R291 (11): dead spares (unit, pc, bank, row); reset none -/
  dead : List (Nat × Nat × Nat × Nat)
  /-- R292 (11): retired frames (unit, frame), slow frames under unit 12; reset none -/
  retired : List (Nat × Nat)
  /-- R293 (11): retired pseudo-channels (stack, pc); reset none -/
  retiredPcs : List (Nat × Nat)
  /-- R290 (11): lasting errors confined to one pin: (unit, pc, pin, row key); cleared at start-up; reset none -/
  pinRows : List (Nat × Nat × Nat × Nat)
  /-- R290 (11): known-bad pins (unit, pc, pin); cleared at start-up; reset none -/
  badPins : List (Nat × Nat × Nat)
  /-- R292 (11): reserved frames kept spare and used, per stack (of 1,024); reset none used -/
  spareUsed : SMap Nat
  /-- R293 (11): lost stacks and packages (unit); reset none -/
  lost : List Nat
  /-- R295 (11): repair ledger in flash, 256 KiB: remap entries, dead spares, retired frames and retired PCs as last recorded; reset empty (PRESUMED: a new unit, log 5) -/
  ledgerRemaps : List Remap
  ledgerDead : List (Nat × Nat × Nat × Nat)
  ledgerRetired : List (Nat × Nat)
  ledgerPcs : List (Nat × Nat)
  /-- R289 (11): bursts that hold poison, as (home, byte of its frames); reset none -/
  poisoned : List (Nat × Nat)
  deriving DecidableEq, Repr

/-! ### Chapter 12: reduction and update -/

/-- A local rank gradient of a reduce context (R303, R304). -/
structure LocalRank where
  f : Nat
  rank : Nat
  blk : Nat
  addr : Nat
  deriving DecidableEq, Repr, Inhabited

/-- An open reduce context (R305 to R313). -/
structure RCtx where
  tag : Nat
  id : Nat
  epoch : Nat
  job : Nat
  updStep : Nat
  nC : Nat
  subtree : Nat
  root : Bool
  parentPort : Nat
  parentId : Nat
  tiles : Nat
  tileBase : Nat
  paramTc : Nat
  round : Nat
  /-- First of its 64 * TILES entries in the reduce store. -/
  base : Nat
  /-- Descriptors of the context that add nothing, and those that add a rank gradient. -/
  relays : List Nat
  locals : List LocalRank
  /-- Children: (port, device ID) of the modules whose SCALE_UP came. -/
  kids : List (Nat × Nat)
  /-- Folded scale byte per block (0x80 none), and contributions folded. -/
  fold : List Nat
  count : Nat
  upSent : Bool
  /-- Tb of every block once agreed (R310). -/
  tb : Option (List Nat)
  /-- Contributions added, per tile; tiles sent; VOID and SAT flags of the partials. -/
  tileCnt : List Nat
  sent : List Nat
  void : List Nat
  sat : List Nat
  committed : Bool
  deriving DecidableEq, Repr, Inhabited

/-- A parameter-group entry (R320). -/
structure Group where
  valid : Bool
  frozen : Bool
  inconsistent : Bool
  updRound : Nat
  workFmt : Nat
  job : Nat
  curveLr : Nat
  curveB1 : Nat
  curveB2 : Nat
  curveWd : Nat
  eps : Nat
  epsExp : Int
  bcTable : Nat
  curveSeg : Nat
  bcSeg : Nat
  deriving DecidableEq, Repr, Inhabited

/-- An APPLY bound to its bucket (R325). -/
structure Apply where
  f : Nat
  group : Nat
  stack : Nat
  close : Bool
  /-- Completed: the close of R327 is pending until every earlier APPLY of the shard has completed. -/
  finished : Bool
  /-- Blocks written so far (R331). -/
  written : Nat
  deriving DecidableEq, Repr, Inhabited

structure Red where
  /-- R307 (12): open reduce contexts, at most 1,024; reset none -/
  ctxs : List RCtx
  /-- R306 (12): reduce store, 65,536 entries of 64 A32 codes (key entry * 64 + element); reset 0 -/
  store : SMap (BitVec 32)
  /-- R308 (12): records that wait in the REDUCE receive buffers (port, record); reset none -/
  held : List (Nat × Bytes)
  /-- R320 (12): group table, 4,096 entries of 512 bits; reset all zero (VALID = 0) -/
  groups : SMap Group
  /-- R324 (12): shard counter COUNT per group and stack, 32 bits (key group * 12 + stack); reset 0 -/
  counts : SMap Nat
  /-- R325, R327 (12): APPLYs in order of issue; reset none -/
  applies : List Apply
  /-- R334 (12): GROUP_FROZEN values waiting for the job's next step boundary (group, value); reset none -/
  frozenNext : List (Nat × Bool)
  /-- R332 (12): GROUP_STEP_SET writes that wait for an APPLY that is writing (group, value); reset none -/
  stepSets : List (Nat × Nat)
  deriving DecidableEq, Repr

/-! ### Chapters 9 and 8: streams, loops, directories -/

/-- A stream-table entry (R226). -/
structure Stream where
  st : Nat
  plan : Bool
  job : Nat
  loop : Nat
  prio : Nat
  row : Nat
  parent : Nat
  hasParent : Bool
  heldFor : Nat
  dirList : Nat
  step : Nat
  deriving DecidableEq, Repr, Inhabited

/-- A vane entry (R247). The CRC is computed when the entry is read out. -/
structure Vane where
  answer : BitVec 384
  step : Nat
  stale : Nat
  job : Nat
  valid : Bool
  held : Bool
  fallback : Bool
  plan : Bool
  sat : Bool
  ended : Bool
  seq : Nat
  deriving DecidableEq, Repr, Inhabited

/-- A queued join (R230, R236). -/
structure Join where
  stream : Nat
  prio : Nat
  planOn : Bool
  who : Sender
  deriving DecidableEq, Repr, Inhabited

/-- A plan record (R242). -/
structure PlanRec where
  c : Nat
  e : Nat
  h : Nat
  i : Nat
  a : Nat
  actExp : Int
  actAddr : Nat
  actMin : List Int
  actMax : List Int
  sigInit : Nat
  sigMin : Nat
  sigMax : Nat
  alpha : Nat
  gamma : Nat
  rewardOff : Nat
  deriving DecidableEq, Repr, Inhabited

/-- What a fork takes from its parent, or a plan from its root (R238, R239, R241): STEP, PRIO, LEN and VE_MAX of every
cache, the bytes of every last group that is not full, and the state row of every scan panel with its row words. -/
structure Snap where
  step : Nat
  prio : Nat
  lens : List Nat
  ves : List Nat
  tails : List Bytes
  rows : List (List (BitVec 32) × List (BitVec 32))
  deriving DecidableEq, Repr, Inhabited

/-- The plan service's work for one root (R241 to R246). -/
structure Planner where
  root : Nat
  /-- The plan record as PLAN_ON found it. -/
  record : PlanRec
  /-- The snapshot the plan works from, and the iteration. -/
  snap : Snap
  iter : Nat
  /-- Mean and spread, row-major over (t, d). -/
  mu : List Int
  sigma : List Int
  /-- Candidates in order: (stream, steps run, discounted score, weight G_t). -/
  cands : List (Nat × Nat × Int × Int)
  /-- Best so far over the iterations: score and step-0 action. -/
  best : Option (Int × List Int)
  deriving DecidableEq, Repr, Inhabited

/-- A serving loop and its record (R228, R229). -/
structure Loop where
  job : Nat
  pipeline : Nat
  rows : Nat
  ncache : Nat
  hkv : Nat
  dim : Nat
  qmax : Nat
  pagesM1 : Nat
  q : Nat
  maskAddr : Nat
  inSeg : Nat
  inBytes : Nat
  inputPolicy : Nat
  ansAddr : Nat
  ansBytes : Nat
  scope : Nat
  planRec : Nat
  who : Sender
  stopping : Option Sender
  joins : List Join
  leaves : List (Nat × Sender)
  /-- Forks accepted and not yet applied: flight numbers, in order of acceptance. -/
  forks : List Nat
  /-- IN_SEQ read at each stream's previous step (R231). -/
  inSeq : SMap Nat
  /-- Streams whose vane entry was written since the last boundary (R249). -/
  written : List Nat
  /-- Streams that took part in the step now running, the step number of the loop and its start on the 1 us counter. -/
  active : List Nat
  step : Nat
  startUs : Nat
  /-- Steps still to run on the fallback (R405); the present step runs on it; the last step met its deadline. -/
  fallbackLeft : Nat
  onFallback : Bool
  missed : Bool
  /-- The monitor's settings in force since the last boundary (R408): deadline, fallback pipeline, mode, hold, mark count, 16 marks. -/
  mon : List Nat
  planners : List Planner
  /-- Streams whose recurrent state was lost with a block: their next step takes mask 01 (R24, R182). -/
  lost : List Nat
  deriving DecidableEq, Repr, Inhabited

/-- A pending page-edit operation (R218, R219): the 16-byte record as accepted. -/
structure Edit where
  job : Nat
  f : Nat
  /-- STEP of its descriptor. -/
  step : Nat
  k : Nat
  op : Nat
  dir : Nat
  j : Nat
  arg : Nat
  /-- Least step before which it takes effect; 0: at once (R219). -/
  eff : Nat
  /-- Mask rows read at acceptance for SET_MASK. -/
  mask : Bytes
  deriving DecidableEq, Repr, Inhabited

structure Srv where
  /-- R225, R226 (09): stream table, 65,536 entries of 128 bits; reset 0 (free) -/
  streams : SMap Stream
  /-- R247 (09): vane, 65,536 entries of 512 bits; reset 0 -/
  vane : SMap Vane
  /-- R228 (09): serving loops, at most one per job context; reset none -/
  loops : List Loop
  /-- R219 (08): pending page-edit operations, at most 4,096 per job, in order of acceptance; reset none -/
  edits : List Edit
  /-- R219 (08): the stage that owns each cache, as the last `attend` on it named it: (directory, job, stage); reset none -/
  caches : List (Nat × Nat × Nat)
  deriving DecidableEq, Repr

/-! ### Chapter 15: jobs -/

/-- Where one logical block of a job lies (R390, R391). -/
structure Place where
  /-- Block address; `none` when lost (R393). -/
  phys : Option Nat
  slot : Nat
  opb : Nat
  prog : Nat
  deriving DecidableEq, Repr, Inhabited

/-- A stage entry of a pipeline record (R521). -/
structure Stage where
  stage : Nat
  blocks : List Nat
  stateLen : Nat
  stateBase : Nat
  inBase : Nat
  inLen : Nat
  resBase : Nat
  resLen : Nat
  deriving DecidableEq, Repr, Inhabited

/-- Sums behind an audit's published statistics (R75, R189). -/
structure Stats where
  /-- Tiles audited (R75), or steps compared (R189). -/
  tiles : Nat
  n : Nat
  sum : Int
  sq : Nat
  max : Nat
  deriving DecidableEq, Repr, Inhabited

/-- A partition and its pipelines, as a FORM or a REFORM asks for them (R387, R388, R413, R521). -/
structure Part where
  places : List Place
  slots : Nat
  opb : Nat
  progs : Nat
  reduce : Nat
  shared : Bool
  regions : Nat
  prio : Nat
  weight : Nat
  preempt : Nat
  pipes : List (Nat × List Stage)
  deriving DecidableEq, Repr, Inhabited

/-- A job context beside its dictionary objects. -/
structure Job where
  places : List Place
  /-- Grants in force: slots, OPB bytes, programs, reduce entries. -/
  slots : Nat
  opb : Nat
  progs : Nat
  /-- PART_SHARED, PART_REGIONS, PRIORITY, WEIGHT and PREEMPT_MODE as read by FORM or REFORM (R413). -/
  shared : Bool
  regions : Nat
  prio : Nat
  weight : Nat
  preempt : Nat
  /-- JOB_OWNER and QUEUE_DEPTH as read by FORM (R418). -/
  owner : Nat
  depths : List Nat
  /-- Pipelines in force: (p, stages). -/
  pipes : List (Nat × List Stage)
  /-- Step accepted last (R394), and the CLASS of each step seen. -/
  step : Option Nat
  classes : List (Nat × Nat)
  /-- Steps of which a descriptor has started, and whether one has made a write that outlives the step (R388, R397). -/
  begun : List (Nat × Bool)
  /-- Settings in force for each step since its step boundary (R79): (step, (sub of 0x8100 + j, value)). -/
  eff : List (Nat × List (Nat × Nat))
  /-- Flights of the present steps still to complete is read from the flights; solo flag per step (R409). -/
  notSolo : List Nat
  /-- Learned solo step times per class, newest first, at most 64 (R409); classes whose BASELINE was written. -/
  hist : List (Nat × List Nat)
  baseSet : List Nat
  /-- Slowdown of the classes that have had an update since their baseline was 0 (R410), published at step boundaries. -/
  slow : List (Nat × Nat)
  /-- Steps in which CLIP_EXCEEDED has been raised (R71). -/
  clipSteps : List Nat
  audit : Stats
  stateAudit : Stats
  /-- Panels of recurrent state as the scans last laid them out (R171): (stage, STATE_BASE, shape, rows, channels). -/
  panels : List (Nat × Nat × Nat × Nat × Nat)
  /-- The partition an accepted REFORM waits to put in force (R388). -/
  reform : Option Part
  deriving DecidableEq, Repr, Inhabited

/-- A device semaphore (R401) with its waiters in order of acceptance (flight, job). -/
structure Sem where
  held : Bool
  broken : Bool
  owner : Nat
  step : Nat
  grace : Bool
  waiters : List (Nat × Nat)
  /-- SEM_JOBS of the semaphore (R412): bit j, job j may use it. -/
  jobs : Nat
  deriving DecidableEq, Repr, Inhabited

/-- A barrier (R378). -/
structure Barrier where
  tag : Nat
  id : Nat
  epoch : Nat
  job : Nat
  n : Nat
  subtree : Nat
  parentPort : Nat
  parentId : Nat
  root : Bool
  flights : List Nat
  /-- Arrivals counted, ports arrivals came from, arrival sent up. -/
  count : Nat
  kids : List Nat
  sent : Bool
  deriving DecidableEq, Repr, Inhabited

structure Sched where
  /-- R386 to R418 (15, 16): the 64 job contexts, key job; reset FREE with nothing granted -/
  jobs : SMap Job
  /-- R400, R401 (15): 1,024 semaphores of 64 bits with waiters; reset 0 -/
  sems : SMap Sem
  /-- R378 (14): open barriers; reset none -/
  barriers : List Barrier
  /-- R379 (14): tokens of later epochs that wait in the SYNC receive buffers (port, message); reset none -/
  heldTokens : List (Nat × Msg)
  /-- R417 (16): descriptors in flight, in order of issue, those that wait in order of acceptance; reset none -/
  flights : List Flight
  /-- R445 (16): scans and attends issued without REPLAY or REWALK: (job, step, opcode, OP_TAG); reset none -/
  issued : List (Nat × Nat × Nat × Nat)
  /-- R417 (16): next flight number (the model's own numbering); reset 1 (DESIGN CHOICE, log 9) -/
  nextFlight : Nat
  deriving DecidableEq, Repr

/-! ### Chapters 13 and 14: links, groups -/

/-- One frame to send: FKIND, 256 bytes, and the job whose reserve pays for it (R351). -/
structure Frame where
  fkind : Nat
  bytes : Bytes
  payer : Option Nat
  deriving DecidableEq, Repr, Inhabited

/-- A superframe held for replay (R341): number, its frames, its credit returns. -/
structure Held where
  sseq : Nat
  frames : List Frame
  cret : List (Nat × Nat)
  deriving DecidableEq, Repr, Inhabited

/-- One Burhar port. PORT_STATE, PEER_ID and SPARE_SERVES are dictionary objects. -/
structure Port where
  /-- Peer from HELLO (R357): role, serial, its port; HELLO and CREDIT_INIT received. -/
  peerHost : Bool
  peerSerial : Bytes
  peerPort : Nat
  helloIn : Bool
  creditIn : Bool
  /-- Next SSEQ to send, last SSEQ received good, a failed superframe awaits replay (NAK), next unacknowledged to resend. -/
  txSseq : Nat
  rxGood : Nat
  nak : Bool
  replay : List Held
  resend : List Held
  /-- Failed attempts of the superframe now awaited (R343). -/
  attempts : Nat
  /-- Transmit queues: link control frames, then frames of all channels in order of queueing. -/
  lcq : List Frame
  txq : List Frame
  /-- Credits the peer granted and not spent, per channel; spent credits in the order sent (channel, payer). -/
  credits : List Nat
  spent : List (Nat × Option Nat)
  /-- Credits the peer may still spend at this receiver, per channel (R348, R349). -/
  granted : List Nat
  /-- Place in the weighted round of R348, 0 to 14. -/
  wrr : Nat
  /-- Bytes of a message not yet whole, per channel (R352). -/
  rxPart : List Bytes
  /-- Spare of the transmit direction (255 unused, 254 none), of the receive direction usable, swap running, swap waiting. -/
  txSpare : Nat
  rxSpareOk : Bool
  swap : Option Nat
  swapWait : Option Nat
  /-- Calendar counts of the latest protocol faults (R359). -/
  faultTimes : List Nat
  /-- Peer is in Lull (R510); failed by a fence until its far end starts afresh (R380). -/
  peerLull : Bool
  fenced : Bool
  /-- The port of a fenced module: it is disabled once its queues are sent (R34, R380). -/
  closing : Bool
  /-- Steps 1 to 3 of R358 are done: superframes flow. The superframe last put on the fibres (an output; R337, R338). -/
  linked : Bool
  line : Bytes
  /-- R335, R339 (13): the levels that the last superframe put on each logical lane, 2,720 unit intervals (an output); reset
  none -/
  lanes : List (List Nat)
  /-- R344 (13): corrected symbols of each lane in the last 64 accepted superframes, the oldest first; reset none -/
  fixed : List (List Nat)
  deriving DecidableEq, Repr, Inhabited

/-- One module's report in a census reply (R371): 320 bytes. -/
abbrev Report := Bytes

/-- Census state of this module (R372, R373). -/
structure Census where
  /-- Latest generation seen, none before the first; tree parent port (none at the origin); hops; ports still to answer. -/
  gen : Option Nat
  parent : Option Nat
  hop : Nat
  pend : List Nat
  kept : List Report
  bridge : Bytes
  /-- A port changed while a census runs (R375); this bridge is stopped by a conflict (R374). -/
  again : Bool
  stopped : Bool
  /-- This bridge's machine census runs (R375). -/
  mrun : Bool
  /-- Members assigned by this bridge: (serial, device ID, port toward it in the tree). -/
  members : List (Bytes × Nat × Nat)
  /-- Machine census. -/
  mgen : Option Nat
  mroot : Nat
  mparent : Option Nat
  mpend : List Nat
  mkept : List Nat
  /-- Ports whose neighbours joined this module's branch of the machine tree. -/
  mkids : List Nat
  /-- Serial and port of the module each tree port leads to, learnt from the replies (R372). -/
  via : List (Bytes × Nat)
  /-- Neighbours' ANNOUNCEs: (port, device ID, generation, serial). -/
  anns : List (Nat × Nat × Nat × Bytes)
  /-- Device ID of the group's bridge, once learnt (log 16). -/
  hostId : Option Nat
  deriving DecidableEq, Repr, Inhabited

structure Lnk where
  /-- R335 to R364 (13): 16 ports, key port; reset down -/
  ports : SMap Port
  /-- R369 (14): member table, 64 bytes; reset 0 (no entry VALID) -/
  member : SMap Byte
  /-- R369 (14): group table, 512 bytes; reset 0 -/
  group : SMap Byte
  /-- R369 (14): backup set, 64 x 576 bytes; reset 0 -/
  backup : SMap Byte
  /-- R380 (14): members fenced since the last census generation, newest first; reset none -/
  fencedIds : List Nat
  /-- R376 (14): SRC_SEQ counters, 32 bits, key destination * 8 + channel; reset 0 -/
  txSeq : SMap Nat
  /-- R377 (14): expected numbers plus 1 (0: unsynchronised), key source * 8 + channel; reset unsynchronised -/
  rxSeq : SMap Nat
  /-- R377 (14): reorder buffer, at most 512 messages (port, message), oldest first; reset none -/
  reorder : List (Nat × Msg)
  /-- R371 to R375 (14): census state; reset nothing seen -/
  census : Census
  deriving DecidableEq, Repr

/-- A mailbox channel (R440): 16 registers and GO. -/
structure Mbox where
  regs : SMap (BitVec 32)
  pending : Bool
  deriving DecidableEq, Repr, Inhabited

/-! ### Chapters 17 and 18: management and recorder -/

/-- A datagram the module sends on T1S (R452): destination MAC, UDP port, payload. `proto` 0 UDP, 1 neighbour
advertisement, 2 echo reply, 3 ARP reply. -/
structure Datagram where
  proto : Nat
  mac : Nat
  port : Nat
  bytes : Bytes
  deriving DecidableEq, Repr, Inhabited

/-- One persisted copy (R459): 0 erased, 1 good, 2 bad. -/
structure Copy where
  kind : Nat
  gen : Nat
  vals : SMap Nat
  deriving DecidableEq, Repr, Inhabited

structure Mgmt where
  /-- R459 (17): the two persisted copies; reset both erased (PRESUMED: a new unit, log 5) -/
  copyA : Copy
  copyB : Copy
  /-- R459 (17): the sector of copy A, of copy B, no longer holds what is programmed into it: a copy written there fails its
  check; reset no (log 144) -/
  wornA : Bool
  wornB : Bool
  /-- R459 (17): a background erase runs; reset no -/
  erasing : Bool
  /-- R459 (17): RWP SETs that wait for the erase, in order; reset none -/
  waiting : List (ChodalSrc × Bytes)
  /-- R462 (17): the last 16 replies: (source, TXN, reply, calendar count); reset none -/
  cache : List (ChodalSrc × Nat × Bytes × Nat)
  /-- R460 (17): sequence number of the next notification, 16 bits; reset 0 (DESIGN CHOICE, log 10) -/
  notifySeq : Nat
  /-- R460 (17): calendar counts of the notifications of the last second (destination, count); reset none -/
  notifyTimes : List (Nat × Nat)
  /-- R452 (17): datagrams sent on T1S, oldest first (an output); reset none -/
  t1sOut : List Datagram
  deriving DecidableEq, Repr

/-- An accepted event (R473, R476): its record without SEQ, LOST_BEFORE and CRC, and its acceptance number. -/
structure Rec where
  no : Nat
  ev : EventIn
  time : Nat
  opHours : Nat
  opSecs : Nat
  timeSet : Bool
  held : Bool
  cycles : Nat
  deriving DecidableEq, Repr, Inhabited

/-- What the availability accounts know of the module's service (R466 to R470). -/
structure Avail where
  /-- The module has been machine-ready since manufacture: service time runs. -/
  ready : Bool
  /-- The module was in service in a part of the time since the last account that a planned state has ended. -/
  part : Bool
  /-- A planned restart lasts until the module is machine-ready: MOD_RST_N that no fence preceded, an update's or a recovery's. -/
  restart : Bool
  /-- Outages that run: CODE, and whether it started outside every planned state. -/
  running : List (Nat × Bool)
  deriving DecidableEq, Repr

structure Recorder where
  /-- R477 (18): write queue, at most 1,024 records; reset empty -/
  queue : List Rec
  /-- R478 (18): freeze holding buffer, at most 256 records; reset empty -/
  holding : List Rec
  /-- R479 (18): events accepted while THAWING, behind the held records; reset none -/
  behind : List Rec
  /-- R472 (18): permanent area (slots 0 to 8,191) and ring (8,192 to 75,775), 512 bits each; unlisted slots are erased (all ones); reset all erased (PRESUMED: a new unit, log 5) -/
  slots : SMap Word512
  /-- R473 (18): SEQ of the next record, 32 bits; reset 0 -/
  nextSeq : Nat
  /-- R472 (18): ring sector under erase; reset none -/
  erasing : Option Nat
  /-- R473, R477 (18): records lost since the previous record was written; reset 0 -/
  lost : Nat
  /-- R478, R479 (18): records dropped in the freeze, not yet carried by LOST_BEFORE; reset 0 -/
  dropped : Nat
  /-- R478 (18): records held and dropped in the freeze now thawing, FREEZE_LIMIT_S in force; reset 0, 0, 600 -/
  heldCount : Nat
  droppedCount : Nat
  limit : Nat
  /-- R477, R481 (18): ALERT_N asserted (the pin is low); reset no -/
  alert : Bool
  /-- R481 (18): acceptance number of the event ALERT_CAUSE waits for; reset none -/
  alertNo : Option Nat
  /-- R477 (18): acceptance number of the next event (the model's own); reset 0 -/
  nextNo : Nat
  /-- R497 (19): events queued until the management core runs; reset none -/
  early : List EventIn
  /-- R470 (18): service, planned states and running outages; reset: never machine-ready, none (PRESUMED: a new unit, log 5) -/
  avail : Avail
  deriving DecidableEq, Repr

/-! ### Chapters 19 and 20: security, power -/

/-- An image fetch in progress (R489): port, bytes received, BODY_LEN + 512 once known, for an update or recovery. -/
structure Fetch where
  update : Bool
  port : Nat
  /-- Ports still to ask (R488). -/
  left : List Nat
  got : Nat
  total : Option Nat
  deriving DecidableEq, Repr, Inhabited

structure Sec where
  /-- R483, R485 (19): image area of the flash, 16 MiB of bytes; unlisted bytes are erased (0xFF); reset erased (DESIGN CHOICE: no image is placed, log 11) -/
  image : SMap Byte
  /-- R488 (19): image buffer, 16 MiB of slow-tier package 0; reset 0 -/
  buffer : SMap Byte
  /-- R487 (19): cores released: the firmware runs; reset no -/
  running : Bool
  /-- R488 (19): the boot ROM is in recovery; waiting for the 10 s retry; reset no -/
  recovery : Bool
  retryWait : Bool
  /-- R370 (14): device-ready reached; reset no -/
  ready : Bool
  /-- R489, R491 (19): fetch in progress; reset none -/
  fetch : Option Fetch
  /-- R493 (19): image installed by recovery or update since the last power-up; reset no -/
  installed : Bool
  /-- R497 (19): FW_VERSION before the update whose restart runs; reset none -/
  oldVersion : Option Nat
  /-- R475, R487 (18, 19): cause that the next boot's POWER_UP records, 2 bits; reset 0 -/
  bootCause : Nat
  /-- R492, R495 (19): the identity key is usable; session keys are present; reset yes -/
  identity : Bool
  session : Bool
  /-- R494 (19): outstanding challenge, 32 bytes; reset none -/
  challenge : Option Bytes
  /-- R492 (19): nonce of the report being signed; reset empty -/
  nonce : Bytes
  /-- R495 (19): an unlock runs; debug access is open; reset no -/
  unlocking : Bool
  debugOpen : Bool
  deriving DecidableEq, Repr

/-- What Lull keeps of the compute dies in reserved frames (R506). -/
structure Saved where
  acc : SMap (BitVec 32)
  rows : SMap (BitVec 32)
  opb : SMap Byte
  shadow : SMap Byte
  prog : SMap (BitVec 32)
  deriving DecidableEq, Repr

structure Pow where
  /-- R514 (20): input pins PWR_OK, MOD_RST_N, WAKE_N (levels); SID[5:0] as sampled is MEMBER_SID (R366); reset low, high, high -/
  pwrOk : Bool
  rstN : Bool
  wakeN : Bool
  /-- R502 (20): rails in regulation, steps 1 to 5 brought up (0 none, 1 standby only); reset 0 -/
  rails : Nat
  /-- R500 (20): power was removed by a fault: PWR_OK must be deasserted before it counts again; reset no -/
  latched : Bool
  /-- R500 (20): input is inside the 42-44 V band, inside the 58-60 V band; reset no -/
  inLow : Bool
  inHigh : Bool
  /-- R512 (20): thermal issue hold; reset no -/
  hold : Bool
  /-- R506 (20): block state saved at Lull entry; reset none -/
  saved : Option Saved
  /-- R506, R464 (20, 17): doorbells and writes accepted in Lull, applied at wake; reset none -/
  deferred : List Msg
  deferredSets : List (Nat × Nat)
  /-- R471 (18): a device fence is in force until the next machine-ready (R469); reset no -/
  deviceFenced : Bool
  deriving DecidableEq, Repr

/-- One-time storage (R484). Its counters only increase. -/
structure Otp where
  /-- R484 (19): firmware-key revocation bits, 4 bits; reset 0 (PRESUMED: a new unit, log 5) -/
  revoked : BitVec 4
  /-- R484 (19): MIN_SVN, 64 fuses, reads 0 to 64; reset 0 (PRESUMED: a new unit, log 5) -/
  minSvn : Nat
  /-- R484 (19): DEBUG_OPENED, 255 fuses, reads 0 to 255; reset 0 (PRESUMED: a new unit, log 5) -/
  debugOpened : Nat
  deriving DecidableEq, Repr

/-- Everything of the module but its one-time storage and the queue of commands. -/
structure Dev where
  /-- R446 (17): the dictionary's numeric objects, key index * 256 + sub; an unlisted object has its table's default -/
  dict : SMap Nat
  /-- R447 (17): STR and BLOB objects that hold content (FW_DIGEST, ATTEST_REPORT), by the same key; reset empty -/
  blobs : SMap Bytes
  mem : Mem
  blk : Blk
  store : Store
  mc : Mc
  red : Red
  srv : Srv
  sched : Sched
  lnk : Lnk
  /-- R440 (16): 256 mailbox channels; reset registers 0, IDLE -/
  mbox : SMap Mbox
  mgmt : Mgmt
  recd : Recorder
  sec : Sec
  pow : Pow
  /-- R383 (14): calendar counter, 64 bits of 1/32,768 s; reset 0 -/
  calendar : Nat
  /-- R473 (18): CALENDAR_TIME has been written since power-up; reset no -/
  timeSet : Bool
  /-- R476 (18): seconds within the current operating hour, 12 bits; reset 0 -/
  opSecs : Nat
  /-- The model's own: number of the next free value (Config.freeWord, Config.freeBytes); reset 0 (DESIGN CHOICE, log 3) -/
  freeNo : Nat
  deriving DecidableEq, Repr

/-- The machine: one-time storage, the rest of the module, and the commands that wait, first in, first out. -/
structure State where
  otp : Otp
  dev : Dev
  /-- The model's own: commands that wait; reset empty -/
  pending : List Instr
  deriving DecidableEq, Repr

/-! ### Reset: power-up, before PWR_OK -/

def Res.free : Res := ⟨0, 0, 0, 0, 0, 0, 0, 0, false, false, 0, 0, 0, 0, 0, 0, 0⟩

def Stream.free : Stream := ⟨0, false, 0, 0, 0, 0, 0, false, 0, 0, 0⟩

def Vane.empty : Vane := ⟨0, 0, 0, 0, false, false, false, false, false, false, 0⟩

def Group.empty : Group := ⟨false, false, false, 0, 0, 0, 0, 0, 0, 0, 0, 0, 0, 0, 0⟩

def Stats.zero : Stats := ⟨0, 0, 0, 0, 0⟩

/-- A FREE job context (R386). -/
def Job.free : Job :=
  { places := [], slots := 0, opb := 0, progs := 0, shared := true, regions := 0, prio := 0, weight := 16, preempt := 0,
    owner := 0, depths := [], pipes := [], step := none, classes := [], begun := [],
    eff := [], notSolo := [], hist := [], baseSet := [], slow := [], clipSteps := [], audit := Stats.zero,
    stateAudit := Stats.zero, panels := [], reform := none }

def Sem.free : Sem := ⟨false, false, 0, 0, false, [], 0⟩

def Mbox.idle : Mbox := ⟨[], false⟩

/-- A port that is down (R363), with nothing queued. -/
def Port.down : Port :=
  { peerHost := false, peerSerial := [], peerPort := 0, helloIn := false, creditIn := false, txSseq := 0, rxGood := 4095,
    nak := false, replay := [], resend := [], attempts := 0, lcq := [], txq := [], credits := [0, 0, 0, 0, 0, 0, 0, 0],
    spent := [], granted := [0, 0, 0, 0, 0, 0, 0, 0], wrr := 0,
    rxPart := [[], [], [], [], [], [], [], []], txSpare := 255,
    rxSpareOk := true, swap := none, swapWait := none, faultTimes := [], peerLull := false, fenced := false,
    closing := false, linked := false, line := [], lanes := [], fixed := [] }

def Census.none : Census :=
  { gen := Option.none, parent := Option.none, hop := 0, pend := [], kept := [], bridge := [], again := false,
    stopped := false, mrun := false, members := [], mgen := Option.none, mroot := 0, mparent := Option.none, mpend := [], mkept := [], mkids := [],
    via := [], anns := [], hostId := Option.none }

def Copy.erased : Copy := ⟨0, 0, []⟩

def Mem.zero : Mem := ⟨[], [], [], [], [], [], []⟩

def Recorder.start : Recorder :=
  { queue := [], holding := [], behind := [], slots := [], nextSeq := 0, erasing := none, lost := 0, dropped := 0,
    heldCount := 0, droppedCount := 0, limit := 600, alert := false, alertNo := none, nextNo := 0, early := [],
    avail := ⟨false, false, false, []⟩ }

def Sec.start : Sec :=
  { image := [], buffer := [], running := false, recovery := false, retryWait := false, ready := false, fetch := none,
    installed := false, oldVersion := none, bootCause := 0, identity := true, session := true, challenge := none, nonce := [],
    unlocking := false, debugOpen := false }

def Pow.start : Pow :=
  { pwrOk := false, rstN := true, wakeN := true, rails := 0, latched := false, inLow := false, inHigh := false,
    hold := false, saved := none, deferred := [], deferredSets := [], deviceFenced := false }

/-- The module at power-up, before PWR_OK is asserted (R256, R448, R502). -/
def Dev.reset : Dev :=
  { dict := [], blobs := [], mem := Mem.zero,
    blk := ⟨[], [], [], [], [], [], [], [], [], [], [], [], [], []⟩,
    store := ⟨[], [], [], [], [], [], [], []⟩,
    mc := ⟨[], [], [], [], [], [], [], [], [], [], [], [], []⟩,
    red := ⟨[], [], [], [], [], [], [], []⟩,
    srv := ⟨[], [], [], [], []⟩,
    sched := ⟨[], [], [], [], [], [], 1⟩,
    lnk := ⟨[], [], [], [], [], [], [], [], Census.none⟩,
    mbox := [],
    mgmt := ⟨Copy.erased, Copy.erased, false, false, false, [], [], 0, [], []⟩,
    recd := Recorder.start, sec := Sec.start, pow := Pow.start,
    calendar := 0, timeSet := false, opSecs := 0, freeNo := 0 }

/-- The machine after reset: power-up of a new unit, no command waiting (log 5, log 8). -/
def State.reset : State :=
  { otp := ⟨0, 0, 0⟩, dev := Dev.reset, pending := [] }

end Sys2Proof.Machine
end

