-- ==== Sys2Proof/Machine/Dict.lean ====
section
/-! DEFINITION. The dictionary as storage (R446 to R449): present values by key, the tables' defaults where none is
listed, and counters that stop at their largest value. -/

namespace Sys2Proof.Machine

/-- The row that holds an object, if any. -/
def objFind (i s : Nat) : Option Obj :=
  (objsOf i).find? (fun o => decide (o.base <= i ∧ i < o.base + o.n ∧ o.lo <= s ∧ s <= o.hi))

/-- Value bytes of a type code (R447); 0 for STR and BLOB. -/
def tyBytes (ty : Nat) : Nat :=
  match ty with
  | 1 => 1 | 2 => 2 | 3 => 4 | 4 => 8 | 5 => 4 | 6 => 1 | 9 => 8 | _ => 0

/-- What an object holds when nothing is listed for it: its table's default. -/
def dictDefault (k : Nat) : Nat :=
  match objFind (k / 256) (k % 256) with
  | some o => o.dflt
  | none => 0

/-- Present value of an object. -/
def Dev.dget (d : Dev) (k : Nat) : Nat := SMap.findD dictDefault d.dict k

/-- Writes an object. -/
def Dev.dset (d : Dev) (k v : Nat) : Dev := { d with dict := SMap.putD dictDefault d.dict k v }

/-- Largest value of an object's type. -/
def dictMax (k : Nat) : Nat :=
  match objFind (k / 256) (k % 256) with
  | some o => 256 ^ tyBytes o.ty - 1
  | none => 0

/-- Adds to a counter, which stops at its largest value (R78, R465). -/
def Dev.bumpN (d : Dev) (k n : Nat) : Dev := d.dset k (Nat.min (d.dget k + n) (dictMax k))

def Dev.bump (d : Dev) (k : Nat) : Dev := d.bumpN k 1

/-- Raises a counter of largest values. -/
def Dev.raiseMax (d : Dev) (k v : Nat) : Dev := d.dset k (Nat.min (Nat.max (d.dget k) v) (dictMax k))

/-- An object back to its default. -/
def Dev.ddef (d : Dev) (k : Nat) : Dev := d.dset k (dictDefault k)

/-- `f` applied for every element of a list, in order. -/
def Dev.forEach {α : Type} (d : Dev) (l : List α) (f : Dev → α → Dev) : Dev := l.foldl f d

end Sys2Proof.Machine
end

