-- ==== Sys2Proof/Machine/Net.lean ====
section
/-! DEFINITION. The sending side of the links: routed headers, message kinds, stamping, sequence numbers, the routing
tables and the transmit queues (R348 to R356, R360, R369, R376), and the Chodal packet codec (R454 to R456). -/

namespace Sys2Proof.Machine

/-! ### Ports -/

def Dev.port (d : Dev) (p : Nat) : Port := SMap.get Port.down d.lnk.ports p

def Dev.setPort (d : Dev) (p : Nat) (v : Port) : Dev :=
  { d with lnk := { d.lnk with ports := SMap.put Port.down d.lnk.ports p v } }

def Dev.modPort (d : Dev) (p : Nat) (f : Port → Port) : Dev := d.setPort p (f (d.port p))

/-- PORT_STATE is 2 or 3 (R363). -/
def Dev.portUp (d : Dev) (p : Nat) : Bool :=
  decide (p < 16) && (d.dget (O.PORT_STATE p) == 2 || d.dget (O.PORT_STATE p) == 3)

/-- The host port, when there is one (R360). -/
def Dev.isHostPort (d : Dev) (p : Nat) : Bool := d.dget O.HOST_PORT == p

/-- A group port: its role is 0 and its peer is no adapter (R367). -/
def Dev.groupPort (d : Dev) (p : Nat) : Bool :=
  d.dget (O.PORT_ROLE p) == 0 && !d.isHostPort p && !(d.port p).peerHost

/-- Up group ports, in rising order. -/
def Dev.upGroupPorts (d : Dev) : List Nat := (List.range 16).filter (fun p => d.portUp p && d.groupPort p)

/-- Up ports with a module at the far end. -/
def Dev.upModulePorts (d : Dev) : List Nat := (List.range 16).filter (fun p => d.portUp p && !(d.port p).peerHost)

/-! ### Device IDs and routing (R365, R369) -/

def idGroup (id : Nat) : Nat := id / 64 % 512
def idMember (id : Nat) : Nat := id % 64

/-- The module's own device ID, when one is assigned. -/
def Dev.ownId (d : Dev) : Option Nat := if d.dget O.DEVICE_ID < 0x8000 then some (d.dget O.DEVICE_ID) else none

/-- The 15 bits stamped into SRC. -/
def Dev.srcId (d : Dev) : Nat := d.dget O.DEVICE_ID % 2 ^ 15

/-- The table entries in force: the backup tables of the member fenced last, until the next generation (R369). -/
def Dev.memberEntry (d : Dev) (m : Nat) : Nat :=
  match d.lnk.fencedIds with
  | x :: _ => (SMap.get 0 d.lnk.backup (idMember x * 576 + m)).toNat
  | [] => (SMap.get 0 d.lnk.member m).toNat

def Dev.groupEntry (d : Dev) (g : Nat) : Nat :=
  match d.lnk.fencedIds with
  | x :: _ => (SMap.get 0 d.lnk.backup (idMember x * 576 + 64 + g)).toNat
  | [] => (SMap.get 0 d.lnk.group g).toNat

/-- Where a routed message goes. -/
inductive Dest where
  | here
  | host (p : Nat)
  | out (p : Nat)
  | noHost
  | unreachable
  deriving DecidableEq, Repr

/-- R369 and R360. A message to a fenced ID is dropped (R381). -/
def Dev.destOf (d : Dev) (dst : Nat) (dstHost : Bool) : Dest :=
  if d.ownId = some dst then
    if dstHost then
      if d.dget O.HOST_PORT < 16 then
        if d.portUp (d.dget O.HOST_PORT) then .host (d.dget O.HOST_PORT) else .unreachable
      else .noHost
    else .here
  else if d.lnk.fencedIds.contains dst then .unreachable
  else
    let e := if d.ownId.map idGroup = some (idGroup dst) then d.memberEntry (idMember dst) else d.groupEntry (idGroup dst)
    if bit e 4 && d.portUp (fld e 0 4) then .out (fld e 0 4) else .unreachable

/-! ### Headers and frames (R352, R353) -/

/-- The 16 bytes of a routed header. -/
def hdrBytes (h : Hdr) (len : Nat) : Bytes :=
  leBytes 16 (at' 0 8 h.kind + at' 8 8 h.hops + at' 16 15 h.dst + at' 31 1 (bool01 h.dstHost) + at' 32 15 h.src +
    at' 47 1 (bool01 h.srcHost) + at' 48 6 h.sjob + at' 54 8 h.schan + at' 64 16 len + at' 96 32 h.seq)

/-- Reads a routed header. -/
def hdrOf (bs : Bytes) : Hdr :=
  let w := leAt bs 0 16
  { kind := fld w 0 8, hops := fld w 8 8, dst := fld w 16 15, dstHost := bit w 31, src := fld w 32 15,
    srcHost := bit w 47, sjob := fld w 48 6, schan := fld w 54 8, seq := fld w 96 32 }

/-- LEN of the header. -/
def hdrLen (bs : Bytes) : Nat := fld (leAt bs 0 16) 64 16

/-- A message's bytes, padded to the 8-byte boundary at which the next one may start. -/
def msgBytes (m : Msg) : Bytes :=
  let b := hdrBytes m.hdr m.body.length ++ m.body
  b ++ List.replicate ((8 - b.length % 8) % 8) 0

/-- Bytes cut into frames of 256, the last filled with zeros: a KIND of 0 marks fill (R352, log 13). -/
def framesAux (fk : Nat) (payer : Option Nat) : Nat → Bytes → List Frame
  | 0, _ => []
  | n + 1, bs => ⟨fk, fitBytes 256 bs, payer⟩ :: framesAux fk payer n (bs.drop 256)

def framesOf (fk : Nat) (payer : Option Nat) (bs : Bytes) : List Frame := framesAux fk payer (ceilDiv bs.length 256) bs

/-- Puts bytes of channel `vc` into the transmit queue of port `p` on behalf of a job, if any. -/
def Dev.emit (d : Dev) (p vc : Nat) (payer : Option Nat) (bs : Bytes) : Dev :=
  d.modPort p (fun q => { q with txq := q.txq ++ framesOf (vc + 1) payer bs })

/-- Puts a link control frame into the queue that goes first (R348, R357). -/
def Dev.emitLc (d : Dev) (p : Nat) (bs : Bytes) : Dev :=
  d.modPort p (fun q => { q with lcq := q.lcq ++ [⟨9, fitBytes 256 bs, none⟩] })

/-- Sends a message as it stands on one port (neighbour messages and replies that leave on their port). -/
def Dev.sendOn (d : Dev) (p : Nat) (payer : Option Nat) (m : Msg) : Dev := d.emit p m.vc payer (msgBytes m)

/-- A census or note message: DST, SRC, SJOB, SCHAN and SRC_SEQ are zero (R371). -/
def syncMsg (kind hops : Nat) (body : Bytes) : Msg :=
  ⟨6, ⟨kind, hops, 0, false, 0, false, 0, 0, 0⟩, body⟩

/-- The next SRC_SEQ for a destination and channel (R376). -/
def Dev.nextSeq (d : Dev) (dst vc : Nat) : Nat × Dev :=
  if vc = 5 ∨ vc = 6 ∨ vc = 3 then (0, d)
  else
    let n := SMap.get 0 d.lnk.txSeq (dst * 8 + vc)
    let n' := if n + 1 = 2 ^ 32 then 1 else n + 1
    (n, { d with lnk := { d.lnk with txSeq := SMap.put 0 d.lnk.txSeq (dst * 8 + vc) n' } })

/-- Queues a message for its destination, or drops and counts it. `rx`: the port it came in on (16: its own). HOPS rises
at each forwarding, delivery to the host port included (R355; log 17). -/
def Dev.transit (d : Dev) (rx : Nat) (payer : Option Nat) (m : Msg) : Dev :=
  let hp := if rx < 16 then rx else 0
  let hops := if rx < 16 then m.hdr.hops + 1 else m.hdr.hops
  let m' : Msg := { m with hdr := { m.hdr with hops := hops } }
  match d.destOf m.hdr.dst m.hdr.dstHost with
  | .here => d
  | .host p => if 127 < hops then d.bump (O.HOP_DROPS hp) else d.sendOn p payer m'
  | .out p => if 127 < hops then d.bump (O.HOP_DROPS hp) else d.sendOn p payer m'
  | .noHost => d.bump (O.HOP_DROPS hp)
  | .unreachable => d.bump O.UNREACHABLE_DROPS

/-- Originates a message: the link interface stamps SRC, SRC_HOST, SJOB and SCHAN (R354) and numbers it (R376). A message
to the module itself is handed to its sink by the caller. -/
def Dev.sendMsg (d : Dev) (vc kind dst : Nat) (dstHost : Bool) (sjob schan : Nat) (payer : Option Nat) (body : Bytes) : Dev :=
  let (n, d1) := d.nextSeq dst vc
  d1.transit 16 payer ⟨vc, ⟨kind, 0, dst, dstHost, d.srcId, false, sjob, schan, n⟩, body⟩

/-! ### Chodal packets (R454 to R456) -/

/-- The 8-byte packet header. -/
def ckHdr (op txn count status : Nat) (reply : Bool) : Bytes :=
  leBytes 8 (at' 0 8 1 + at' 8 8 op + at' 16 16 txn + at' 32 16 count + at' 48 8 status + at' 56 1 (bool01 reply))

/-- One item: header, value, padding to 4 bytes. -/
def ckItem (index sub ty status : Nat) (value : Bytes) : Bytes :=
  leBytes 8 (at' 0 16 index + at' 16 8 sub + at' 24 8 ty + at' 32 16 value.length + at' 48 8 status) ++ value ++
    List.replicate ((4 - value.length % 4) % 4) 0

/-- A request item as read: index, sub-index, type, value. -/
structure CkItem where
  index : Nat
  sub : Nat
  ty : Nat
  value : Bytes
  deriving DecidableEq, Repr

/-- Reads `n` items; `none` when they overrun the packet (R456). -/
def ckItems : Nat → Bytes → Option (List CkItem)
  | 0, _ => some []
  | n + 1, bs =>
    if bs.length < 8 then none
    else
      let w := leAt bs 0 8
      let len := fld w 32 16
      let tot := 8 + len + (4 - len % 4) % 4
      if bs.length < tot then none
      else (ckItems n (bs.drop tot)).map (fun r => ⟨fld w 0 16, fld w 16 8, fld w 24 8, (bs.drop 8).take len⟩ :: r)

/-- A datagram sent on the management port (R452). -/
def Dev.t1s (d : Dev) (g : Datagram) : Dev := { d with mgmt := { d.mgmt with t1sOut := d.mgmt.t1sOut ++ [g] } }

/-! ### Free values (log 3) -/

/-- Draws the next free 32-bit value. -/
def Dev.drawWord (d : Dev) : BitVec 32 × Dev := (Config.freeWord d.freeNo, { d with freeNo := d.freeNo + 1 })

/-- Draws 32 fresh random bytes (R494). -/
def Dev.drawBytes (d : Dev) : Bytes × Dev := (fitBytes 32 (Config.freeBytes d.freeNo), { d with freeNo := d.freeNo + 1 })

end Sys2Proof.Machine
end

