-- ==== Sys2Proof/Machine/Recorder.lean ====
section
/-! DEFINITION. The event recorder and the availability accounts (R460, R466 to R482): accepting an event, programming a
record, freezing and thawing, notifying managers. -/

namespace Sys2Proof.Machine

/-! ### Records (R473) -/

/-- Bits [479:0] of a record. -/
def recBody (r : Rec) (seq lost : Nat) : Nat :=
  at' 0 32 seq + at' 32 64 r.time + at' 96 32 r.opHours + at' 128 12 r.opSecs + at' 140 1 (bool01 r.timeSet) +
  at' 141 1 (bool01 r.held) + at' 142 1 (bool01 r.ev.partialFlag) + at' 144 32 r.cycles + at' 176 16 r.ev.code +
  at' 192 3 r.ev.severity + at' 200 4 r.ev.level + at' 204 20 r.ev.location +
  at' 224 6 ((r.ev.job.map (·.1)).getD 0) + at' 230 1 (bool01 r.ev.job.isSome) +
  at' 232 32 ((r.ev.job.map (·.2)).getD 0) + at' 264 24 (Nat.min lost (2 ^ 24 - 1)) +
  at' 288 192 (ofLe (fitBytes 24 r.ev.detail))

/-- The 64-byte record with its CRC-32C in bits [511:480]. -/
def recWord (r : Rec) (seq lost : Nat) : Word512 :=
  let b := recBody r seq lost
  BitVec.ofNat 512 (b + crc32c (leBytes 60 b) * 2 ^ 480)

/-- An erased slot reads as all ones. -/
def slotErased : Word512 := BitVec.allOnes 512

/-- A slot holds a record: its CRC holds. -/
def slotGood (w : Word512) : Bool := crc32c (leBytes 60 w.toNat) == fld w.toNat 480 32

/-- Slot of a sequence number: 0 to 8,191 the permanent area, then the ring (R472). -/
def recSlot (seq : Nat) : Nat := if seq < 8192 then seq else 8192 + (seq - 8192) % 67584

/-- Ring sector of a slot, if it lies in the ring. -/
def ringSector (slot : Nat) : Option Nat := if slot < 8192 then none else some ((slot - 8192) / 1024)

/-! ### Notification (R460) -/

/-- Notifications sent to destination `k` within the last second. -/
def notifyCount (d : Dev) (k : Nat) : Nat :=
  (d.mgmt.notifyTimes.filter (fun p => p.1 == k && decide (d.calendar < p.2 + 32768))).length

/-- One copy of a notification to destination `k`, unless 100 went there within a second. -/
def notifyOne (d : Dev) (k : Nat) (go : Dev → Option Dev) : Dev :=
  if 100 <= notifyCount d k then d.bump O.NOTIFY_DROPPED
  else
    match go d with
    | none => d.bump O.NOTIFY_DROPPED
    | some d1 =>
      { d1.bump O.NOTIFY_SENT with mgmt := { (d1.bump O.NOTIFY_SENT).mgmt with
          notifyTimes := (k, d.calendar) :: d1.mgmt.notifyTimes.filter (fun p => decide (d.calendar < p.2 + 32768)) } }

/-- Device ID of the host of the module's own group, as far as it is known (log 16). -/
def Dev.hostId (d : Dev) : Option Nat :=
  if d.dget O.HOST_PORT < 16 then d.ownId else d.lnk.census.hostId

/-- Notifies a written record; every record uses one sequence number (log 18). -/
def notify (d : Dev) (r : Rec) (w : Word512) : Dev :=
  if r.ev.severity < d.dget O.NOTIFY_SEVERITY then d
  else
    let pkt := ckHdr 5 d.mgmt.notifySeq 1 0 true ++ ckItem 0 0 8 0 (wordBytes w)
    let d1 := d.forEach (List.range 4) (fun d k =>
      let e := d.dget (O.NOTIFY_DEST k)
      if e = 0 then d else notifyOne d k (fun d => some (d.t1s ⟨0, fld e 0 48, fld e 48 16, pkt⟩)))
    let d2 := if d.dget O.NOTIFY_INBAND = 1 then
        notifyOne d1 4 (fun d => d.hostId.map (fun h => d.sendMsg 4 1 h true 0 0 none pkt))
      else d1
    { d2 with mgmt := { d2.mgmt with notifySeq := (d.mgmt.notifySeq + 1) % 65536 } }

/-! ### Programming a record (R472, R477) -/

def Dev.setRec (d : Dev) (r : Recorder) : Dev := { d with recd := r }

/-- Clears the slots of ring sector `x`, as its erase starts (log 19). -/
def eraseSector (m : SMap Word512) (x : Nat) : SMap Word512 := SMap.erase m (8192 + x * 1024) 1024

/-- Writes a record to flash: SEQ, LOST_BEFORE, the erase of the next ring sector, NEWEST_SEQ, the count by severity,
ALERT_CAUSE and the notification. -/
def writeRecord (d : Dev) (r : Rec) : Dev :=
  let q := d.recd
  let seq := q.nextSeq
  let slot := recSlot seq
  let w := recWord r seq (q.lost + q.dropped)
  let s1 := SMap.put slotErased q.slots slot w
  let (s2, er) :=
    match ringSector slot with
    | some x => if (slot - 8192) % 1024 = 0 then (eraseSector s1 ((x + 1) % 66), some ((x + 1) % 66)) else (s1, q.erasing)
    | none => (s1, q.erasing)
  let hit := q.alertNo == some r.no
  let d1 := d.setRec { q with slots := s2, erasing := er, nextSeq := (seq + 1) % 2 ^ 32, lost := 0, dropped := 0,
                              alertNo := if hit then none else q.alertNo }
  let d2 := (d1.dset O.NEWEST_SEQ seq).bump (O.RECORDS_BY_SEVERITY r.ev.severity)
  let d3 := if hit then d2.dset O.ALERT_CAUSE seq else d2
  notify d3 r w

/-- The next record's sector is under erase: the recorder waits. -/
def recBlocked (q : Recorder) : Bool :=
  match ringSector (recSlot q.nextSeq), q.erasing with
  | some x, some y => x == y
  | _, _ => false

/-! ### Accepting an event (R476, R477) -/

/-- The record of an event accepted now. -/
def mkRec (d : Dev) (ev : EventIn) (held : Bool) : Rec :=
  { no := d.recd.nextNo, ev := ev, time := d.calendar, opHours := d.dget O.OP_HOURS, opSecs := d.opSecs,
    timeSet := d.timeSet, held := held, cycles := d.dget O.POWER_CYCLES }

/-- ALERT_N, and ALERT_CAUSE when this event is the first since the last clear (R477, R481). -/
def alertFor (d : Dev) (sev no : Nat) : Dev :=
  if sev < d.dget O.ALERT_SEVERITY then d
  else
    let first := d.dget O.ALERT_CAUSE == 0xFFFFFFFD
    let d1 := d.setRec { d.recd with alert := true, alertNo := if first then some no else d.recd.alertNo }
    if first then d1.dset O.ALERT_CAUSE 0xFFFFFFFE else d1

/-- The record is lost; `dropped`: out of the freeze's holding buffer. -/
def loseRec (d : Dev) (no : Nat) (dropped : Bool) : Dev :=
  let hit := d.recd.alertNo == some no
  let d1 := if dropped then (d.bump O.FREEZE_OVERFLOW).setRec { d.recd with dropped := d.recd.dropped + 1, droppedCount := d.recd.droppedCount + 1 }
            else (d.bump O.RECORDS_LOST).setRec { d.recd with lost := d.recd.lost + 1 }
  if hit then (d1.setRec { d1.recd with alertNo := none }).dset O.ALERT_CAUSE 0xFFFFFFFF else d1

/-- Counts an acceptance. -/
def Dev.tickNo (d : Dev) : Dev := d.setRec { d.recd with nextNo := d.recd.nextNo + 1 }

/-- An event reaches the recorder. A DEVICE_FENCED event in a freeze is written at once; if its sector is under erase the
erase completes first (R478, log 19). -/
def acceptEvent (d : Dev) (ev : EventIn) : Dev :=
  let st := d.dget O.RECORDER_STATE
  let r := mkRec d ev (st == 1 || st == 2)
  let d1 := alertFor d.tickNo ev.severity r.no
  if (st = 1 ∨ st = 2) ∧ ev.code = 0x0401 then
    writeRecord (if recBlocked d1.recd then d1.setRec { d1.recd with erasing := none } else d1) { r with held := false }
  else if st = 1 ∨ st = 2 then
    if d1.recd.holding.length < 256 then d1.setRec { d1.recd with holding := d1.recd.holding ++ [r] }
    else loseRec d1 r.no true
  else if d1.recd.queue.length + d1.recd.behind.length < 1024 then
    if st = 3 then d1.setRec { d1.recd with behind := d1.recd.behind ++ [r] }
    else d1.setRec { d1.recd with queue := d1.recd.queue ++ [r] }
  else loseRec d1 r.no false

/-- A planned state (R470): Lull, debug access open, an update or a recovery with its restart, a reset that no fence preceded,
no power. -/
def Dev.planned (d : Dev) : Bool :=
  d.dget O.LULL_STATE != 0 || d.sec.debugOpen || decide (1 ≤ d.dget O.FW_UPDATE_STATE ∧ d.dget O.FW_UPDATE_STATE ≤ 3) ||
  d.sec.recovery || d.recd.avail.restart || !d.pow.pwrOk

/-- Service time runs (R470). -/
def Dev.inService (d : Dev) : Bool := d.recd.avail.ready && !d.planned

def Dev.modAvail (d : Dev) (f : Avail → Avail) : Dev := d.setRec { d.recd with avail := f d.recd.avail }

/-- A planned state begins: what was in service since the last account counts. -/
def Dev.planStarts (d : Dev) : Dev := if d.inService then d.modAvail (fun a => { a with part := true }) else d

/-- CODEs of the actions of R466 that are outages: retirement, region fence, device fence, poison, port retrain. -/
def isOutage (code : Nat) : Bool := [0x0201, 0x0202, 0x0301, 0x0401, 0x0508, 0x0602].contains code

/-- An outage is timed from its detection, and whether a planned state runs then is kept with it (R468, R470). -/
def Dev.outageStarts (d : Dev) (code : Nat) : Dev :=
  if isOutage code then d.modAvail (fun a => { a with running := a.running ++ [(code, !d.planned)] }) else d

/-- Raises an event: accepted now when the management core runs, else queued until it does (R497). -/
def Dev.raise (d0 : Dev) (ev : EventIn) : Dev :=
  let d := d0.outageStarts ev.code
  if d.sec.running then acceptEvent d ev
  else d.setRec { d.recd with early := d.recd.early ++ [ev] }

/-- Event of the module itself: code, severity, level, location, detail. -/
def Dev.event (d : Dev) (code sev level loc : Nat) (detail : Bytes) : Dev :=
  d.raise ⟨code, sev, level, loc, none, detail, false⟩

/-- Event that names a job and step. -/
def Dev.eventJ (d : Dev) (code sev level loc job step : Nat) (detail : Bytes) : Dev :=
  d.raise ⟨code, sev, level, loc, some (job, step), detail, false⟩

/-- The events queued before the management core ran are accepted, oldest first. -/
def flushEarly (d : Dev) : Dev :=
  (d.setRec { d.recd with early := [] }).forEach d.recd.early acceptEvent

/-! ### The recorder's own steps -/

/-- The record of an event the recorder writes itself, past the queue. -/
def writeDirect (d : Dev) (ev : EventIn) : Dev :=
  let r := mkRec d ev false
  writeRecord (alertFor d.tickNo ev.severity r.no) r

/-- Starts a freeze: accepted only while RUNNING. -/
def freezeStart (d : Dev) : Dev :=
  if d.dget O.RECORDER_STATE = 0 then
    (d.setRec { d.recd with limit := d.dget O.FREEZE_LIMIT_S, droppedCount := 0 }).dset O.RECORDER_STATE 1
  else d

/-- Starts a thaw: accepted only while FROZEN. -/
def thawStart (d : Dev) : Dev :=
  if d.dget O.RECORDER_STATE = 2 then
    (d.setRec { d.recd with heldCount := d.recd.holding.length }).dset O.RECORDER_STATE 3
  else d

/-- Programs the next record (R477, R479). -/
def programNext (d : Dev) : Dev :=
  let st := d.dget O.RECORDER_STATE
  if recBlocked d.recd then d
  else if st = 3 then
    match d.recd.holding with
    | r :: rest => writeRecord (d.setRec { d.recd with holding := rest }) r
    | [] =>
      let d1 := writeDirect d ⟨0x0003, 0, 7, 0, none, leBytes 2 d.recd.heldCount ++ leBytes 4 d.recd.droppedCount, false⟩
      (d1.setRec { d1.recd with queue := d1.recd.queue ++ d1.recd.behind, behind := [] }).dset O.RECORDER_STATE 0
  else if st = 2 then d
  else
    match d.recd.queue with
    | r :: rest => writeRecord (d.setRec { d.recd with queue := rest }) r
    | [] => d

/-- RECORDER_FREEZE (R478). -/
def execRecorderFreeze (s : State) : Host.Outcome State Fault Refusal := .next { s with dev := freezeStart s.dev }

/-- FREEZE_DRAIN_DONE (R478): the queue is drained and no erase runs. -/
def freezeDrained (d : Dev) : Dev :=
  if d.dget O.RECORDER_STATE = 1 ∧ d.recd.queue = [] ∧ d.recd.erasing = none then
    (writeDirect d ⟨0x0002, 0, 7, 0, none, [], false⟩).dset O.RECORDER_STATE 2
  else d

def execFreezeDrainDone (s : State) : Host.Outcome State Fault Refusal := .next { s with dev := freezeDrained s.dev }

/-- RECORDER_THAW (R479). -/
def execRecorderThaw (s : State) : Host.Outcome State Fault Refusal := .next { s with dev := thawStart s.dev }

/-- FREEZE_TIMEOUT (R478): the freeze outlasted the limit in force; its event is accepted as the thaw starts. -/
def freezeExpired (d : Dev) (secs : Nat) : Dev :=
  if d.dget O.RECORDER_STATE = 2 ∧ d.recd.limit < secs then
    (thawStart d).event 0x0004 2 7 0 (leBytes 4 secs)
  else d

def execFreezeTimeout (secs : Nat) (s : State) : Host.Outcome State Fault Refusal :=
  .next { s with dev := freezeExpired s.dev secs }

/-- ALERT_CLEAR (R477, R481). -/
def alertCleared (d : Dev) : Dev :=
  (d.setRec { d.recd with alert := false, alertNo := none }).dset O.ALERT_CAUSE 0xFFFFFFFD

def execAlertClear (s : State) : Host.Outcome State Fault Refusal := .next { s with dev := alertCleared s.dev }

/-- EVENT_ACCEPT (R477). -/
def execEventAccept (ev : EventIn) (s : State) : Host.Outcome State Fault Refusal :=
  .next { s with dev := s.dev.raise ev }

/-- RECORD_PROGRAM (R472). -/
def execRecordProgram (s : State) : Host.Outcome State Fault Refusal := .next { s with dev := programNext s.dev }

/-- RING_SECTOR_ERASE_DONE (R472). -/
def execRingSectorEraseDone (s : State) : Host.Outcome State Fault Refusal :=
  .next { s with dev := s.dev.setRec { s.dev.recd with erasing := none } }

/-! ### Availability (R468 to R471) -/

/-- floor(10^9 * (1 - DOWN_NS / (SERVICE_S * 10^9))). Where SERVICE_S is 0 or downtime exceeds service time the formula
has no value in the object's range: a free value (log 20). -/
def availability (d : Dev) : Dev :=
  let sv := d.dget O.SERVICE_S
  let down := d.dget O.DOWN_NS
  if sv = 0 ∨ sv * 10 ^ 9 < down then d.drawWord.2.dset O.AVAILABILITY_PPB d.drawWord.1.toNat
  else d.dset O.AVAILABILITY_PPB (10 ^ 9 - ceilDiv down sv)

/-- Adds `secs` seconds of operation (R476). -/
def addOpSecs (d : Dev) (secs : Nat) : Dev :=
  let t := d.opSecs + secs
  { d.bumpN O.OP_HOURS (t / 3600) with opSecs := t % 3600 }

/-- HOURLY_UPDATE (R471). The seconds outside planned states count as service time where there were any since the last
account, from the first machine-ready on (R470). -/
def hourly (d : Dev) (serviceS degradedS opS : Nat) : Dev :=
  let n := if d.inService || d.recd.avail.part then serviceS else 0
  let d1 := d.modAvail (fun a => { a with part := false })
  availability (addOpSecs ((d1.bumpN O.SERVICE_S n).bumpN O.DEGRADED_S degradedS) opS)

def execHourlyUpdate (serviceS degradedS opS : Nat) (s : State) : Host.Outcome State Fault Refusal :=
  .next { s with dev := hourly s.dev serviceS degradedS opS }

/-- The action codes of R466 that are delays: column switch, soft remap, spare replacement, command/address retrain,
lane swap (and 0 for a link replay, which has no code). -/
def isDelay (code : Nat) : Bool := [0, 0x0102, 0x0501, 0x0502, 0x0509, 0x0601].contains code

/-- OUTAGE_END (R468, R469): a delay adds to DELAY_NS; an outage adds to downtime, is checked against its bound and
recorded. One that started in a planned state is no downtime (R470). -/
def outageEnd (d : Dev) (code ns countNs boundNs : Nat) (cut : Bool) : Dev :=
  if isDelay code then d.bumpN O.DELAY_NS ns
  else
    let run := d.recd.avail.running
    let counts := match run.find? (fun o => o.1 == code) with | some o => o.2 | none => !d.planned
    let d0 := d.modAvail (fun a => { a with running := run.eraseP (fun o => o.1 == code) })
    let d1 := if counts then d0.bumpN O.DOWN_NS countNs else d0
    let d2 := if code = 0x0401 then d1 else d1.raiseMax O.LONGEST_OUTAGE_NS ns
    let d3 := (availability d2).raise ⟨0x0005, 1, 3, 0, none, leBytes 8 ns ++ leBytes 2 code, cut⟩
    if boundNs < ns then (d3.bump O.BOUND_EXCEEDED).event 0x0006 3 3 0 (leBytes 2 code ++ leBytes 8 ns) else d3

def execOutageEnd (code ns countNs boundNs : Nat) (cut : Bool) (s : State) : Host.Outcome State Fault Refusal :=
  .next { s with dev := outageEnd s.dev code ns countNs boundNs cut }

end Sys2Proof.Machine
end

