-- ==== Sys2Proof/Machine/Seg.lean ====
section
/-! DEFINITION. Segments as storage (R254 to R260, R269 to R277): residence entries, frames and free runs, bytes of a
segment, the tile codec, charges, and the reservation of frames with its relocations and evictions. -/

namespace Sys2Proof.Machine

/-! ### Residence entries -/

def Dev.res (d : Dev) (e : Nat) : Res := SMap.get Res.free d.store.res e

def Dev.setRes (d : Dev) (e : Nat) (r : Res) : Dev :=
  { d with store := { d.store with res := SMap.put Res.free d.store.res e r } }

def Dev.modRes (d : Dev) (e : Nat) (f : Res → Res) : Dev := d.setRes e (f (d.res e))

def Dev.setStore (d : Dev) (f : Store → Store) : Dev := { d with store := f d.store }

/-- Length of a segment in bytes. -/
def Res.len (r : Res) : Nat := r.len64 * 64

/-- Home number: 0 to 11 a stack, 12 the slow tier. -/
def Res.homeNo (r : Res) : Nat := if r.tier = 0 then r.home else 12

/-- Key of a byte of a run of frames. -/
def cellKey (home frame off : Nat) : Nat := if home < 12 then home * 2 ^ 36 + frame * 4096 + off else frame * 4096 + off

/-- The memory of a tier. -/
def Dev.tierMem (d : Dev) (home : Nat) : SMap Byte := if home < 12 then d.mem.fast else d.mem.slow

def Dev.setTierMem (d : Dev) (home : Nat) (m : SMap Byte) : Dev :=
  if home < 12 then { d with mem := { d.mem with fast := m } } else { d with mem := { d.mem with slow := m } }

/-- Bytes of a run of frames. -/
def Dev.frameRead (d : Dev) (home frame off n : Nat) : Bytes := SMap.readRun 0 (d.tierMem home) (cellKey home frame off) n

/-- Bytes of a burst (R283, R285). -/
def burstLen (home : Nat) : Nat := if home < 12 then 32 else 256

/-- Whole-burst writes make the bursts within `n` bytes of a run of frames sound again (R289). -/
def Dev.sound (d : Dev) (home frame off n : Nat) : Dev :=
  let lo := frame * 4096 + off
  { d with mc := { d.mc with
    poisoned := d.mc.poisoned.filter (fun p => !(p.1 == home && decide (lo ≤ p.2 ∧ p.2 + burstLen home ≤ lo + n))) } }

def Dev.frameWrite (d : Dev) (home frame off : Nat) (bs : Bytes) : Dev :=
  (d.setTierMem home (SMap.writeRun 0 (d.tierMem home) (cellKey home frame off) bs)).sound home frame off bs.length

def Dev.frameErase (d : Dev) (home frame frames : Nat) : Dev :=
  d.setTierMem home (SMap.erase (d.tierMem home) (cellKey home frame 0) (frames * 4096))

/-! ### The tile codec (R271 to R273) -/

/-- Codes of block `b` (scale byte offset b), raw, in order of e = 8 * (r & 7) + (c & 7). -/
def blockRaw (f : Nat) (t : Array Byte) (b : Nat) : List Nat :=
  (List.range 64).map (fun e => rawCode f t (8 * (b / 8) + e / 8) (8 * (b % 8) + e % 8))

/-- Smallest p with every code in [-2^(p-1), 2^(p-1) - 1]; reserved codes are kept as they are. -/
def planesOf (f : Nat) (raws : List Nat) : Nat :=
  let cs := raws.map (toSgn (fmtBits f))
  ((List.range (fmtBits f)).find? (fun q => cs.all (fun c => decide (-(2 ^ q : Int) <= c ∧ c <= 2 ^ q - 1)))).elim
    (fmtBits f) (· + 1)

/-- Plane q of a block: bit q of the code of element e at bit e. -/
def planeOf (raws : List Nat) (q : Nat) : Nat :=
  (raws.zipIdx).foldl (fun acc p => acc + (p.1 / 2 ^ q % 2) * 2 ^ p.2) 0

def pad8 (bs : Bytes) : Bytes := bs ++ List.replicate ((8 - bs.length % 8) % 8) 0

/-- A stored tile: header, then payload. -/
def storedTile (nonempty planes tfmt : Nat) (raw : Bool) (payload : Bytes) : Bytes :=
  let h := nonempty + planes * 2 ^ 64 + at' 320 16 payload.length + at' 336 2 tfmt + at' 338 1 (bool01 raw)
  let hb := leBytes 60 h
  hb ++ leBytes 4 (crc32c (hb ++ payload)) ++ payload

/-- Encodes one source tile (R272). -/
def encodeTile (f : Nat) (src : Bytes) : Bytes :=
  let t := src.toArray
  let live := (List.range 64).filter (fun b => tb t b != 0x80)
  let blocks := live.map (fun b => (b, blockRaw f t b))
  let payload := pad8 (live.map (fun b => BitVec.ofNat 8 (tb t b))) ++
    blocks.flatMap (fun p => (List.range (planesOf f p.2)).flatMap (fun q => leBytes 8 (planeOf p.2 q)))
  let nonempty := sumNat (live.map (fun b => 2 ^ b))
  let planes := sumNat (blocks.map (fun p => (planesOf f p.2 - 1) * 16 ^ p.1))
  if payload.length < tileBytes f then storedTile nonempty planes f false payload
  else storedTile nonempty planes f true src

/-- Encodes a segment's bytes: every whole tile, then the bytes after the last one with RAW = 1. -/
def encodeSeg (f : Nat) : Nat → Bytes → List Bytes
  | 0, _ => []
  | n + 1, bs =>
    if bs = [] then []
    else if bs.length < tileBytes f then [storedTile 0 0 f true bs]
    else encodeTile f (bs.take (tileBytes f)) :: encodeSeg f n (bs.drop (tileBytes f))

/-- Stored tiles of a segment of format `f`. -/
def encodeAll (f : Nat) (bs : Bytes) : List Bytes := encodeSeg f (ceilDiv bs.length (tileBytes f)) bs

/-- Decodes one packed payload into a source tile. -/
def decodePacked (f nonempty planes : Nat) (payload : Bytes) : Bytes :=
  let live := (List.range 64).filter (fun b => bit nonempty b)
  let scales := (List.range 64).map (fun b =>
    if bit nonempty b then (nth (0 : Byte) payload (live.findIdx (· == b))).toNat else 0x80)
  let start := live.length + (8 - live.length % 8) % 8
  let offs := live.map (fun b => (b, start + 8 * sumNat ((live.filter (· < b)).map (fun c => fld planes (4 * c) 4 + 1))))
  let code := fun r c =>
    let b := 8 * (r / 8) + c / 8
    match offs.find? (fun p => p.1 == b) with
    | none => (0 : Int)
    | some (_, o) =>
      let p := fld planes (4 * b) 4 + 1
      let e := 8 * (r % 8) + c % 8
      toSgn p (sumNat ((List.range p).map (fun q => (leAt payload (o + 8 * q) 8 / 2 ^ e % 2) * 2 ^ q)))
  buildTile f scales code

/-- Decodes a run of stored tiles; `none` when a HCRC fails (R273). -/
def decodeSeg (f : Nat) : Nat → Bytes → Option Bytes
  | 0, _ => some []
  | n + 1, bs =>
    let h := leAt bs 0 60
    let plen := fld h 320 16
    let payload := (bs.drop 64).take plen
    if crc32c (bs.take 60 ++ payload) ≠ leAt bs 60 4 then none
    else
      let tile := if bit h 338 then payload else decodePacked f (fld h 0 64) (fld h 64 256) payload
      (decodeSeg f n (bs.drop (64 + plen))).map (fun r => tile ++ r)

/-- Tiles of a segment of format `f` and length `n`: whole tiles and a rest (R271). -/
def tileCount (f n : Nat) : Nat := if tileBytes f = 0 then 0 else ceilDiv n (tileBytes f)

/-- The whole segment, uncompressed; `none` when a stored tile fails its check. -/
def Dev.segAll (d : Dev) (e : Nat) : Option Bytes :=
  let r := d.res e
  if r.comp then
    decodeSeg r.fmt (tileCount r.fmt r.len) (d.frameRead r.homeNo r.frame 0 (r.frames * 4096))
  else some (d.frameRead r.homeNo r.frame 0 r.len)

/-- `n` bytes of a segment from byte `off`, as if uncompressed (R269). A failed check reads as zeros; `segOk` tells. -/
def Dev.segRead (d : Dev) (e off n : Nat) : Bytes :=
  let r := d.res e
  if r.comp then fitBytes n (((d.segAll e).getD []).drop off)
  else d.frameRead r.homeNo r.frame off n

/-- The segment can be read: resident or moving, and its stored tiles check. -/
def Dev.segOk (d : Dev) (e : Nat) : Bool :=
  let r := d.res e
  (r.st == 1 || r.st == 2 || r.st == 4) && (!r.comp || (d.segAll e).isSome)

/-- Writes bytes of an uncompressed segment. -/
def Dev.segWrite (d : Dev) (e off : Nat) (bs : Bytes) : Dev :=
  let r := d.res e
  if r.comp then d else d.frameWrite r.homeNo r.frame off bs

/-- A segment is a page directory: an INIT has made it one, and it has not been freed (R198). -/
def Dev.isDir (d : Dev) (e : Nat) : Bool := (d.res e).st != 0 && d.store.dirs.contains e

/-- The status a write of a segment meets, 0 when it may go on (R278, R198, R269). -/
def Dev.segWriteStatus (d : Dev) (e : Nat) : Nat :=
  if (d.res e).st = 3 then 0x14 else if d.isDir e then 0x18 else if (d.res e).comp then 0x1E else 0

/-- A write that is not the module's own work on a directory: nothing changes where it may not go on (R198). -/
def Dev.segStore (d : Dev) (e off : Nat) (bs : Bytes) : Dev := if d.segWriteStatus e = 0 then d.segWrite e off bs else d

/-! ### Charges (R274) -/

def chargeKey (tier e : Nat) : Nat := tier * 2 ^ 19 + e

def usedKey (tier j : Nat) : Nat := if tier = 0 then O.FAST_USED j else O.SLOW_USED j
def quotaKey (tier j : Nat) : Nat := if tier = 0 then O.FAST_QUOTA j else O.SLOW_QUOTA j
def guaranteeKey (tier j : Nat) : Nat := if tier = 0 then O.FAST_GUARANTEE j else O.SLOW_GUARANTEE j

/-- Adds a charge to a job's USED. -/
def Dev.charge (d : Dev) (tier j n : Nat) : Dev := d.dset (usedKey tier j) (d.dget (usedKey tier j) + n)

def Dev.uncharge (d : Dev) (tier j n : Nat) : Dev := d.dset (usedKey tier j) (d.dget (usedKey tier j) - n)

/-- Sets the standing charge of a segment in a tier, USED following. -/
def Dev.setCharge (d : Dev) (tier e j n : Nat) : Dev :=
  let old := SMap.get 0 d.store.charge (chargeKey tier e)
  (((d.uncharge tier j old).charge tier j n)).setStore
    (fun s => { s with charge := SMap.put 0 s.charge (chargeKey tier e) n })

/-! ### Frames (R258, R259, R291, R293) -/

/-- First and one past the last usable frame of a home. -/
def homeLo (home : Nat) : Nat := if home < 12 then 65536 else 0
def homeHi (home : Nat) : Nat := if home < 12 then 11718750 else 500000000

/-- Period of the frames that a retired pseudo-channel or a lost package takes out. -/
def badPeriod (home : Nat) : Nat := if home < 12 then 8 else 32

/-- Residues of frames that are out: a retired PC p takes one frame in eight (R293), a lost package one in 32. -/
def Dev.badClasses (d : Dev) (home : Nat) : List Nat :=
  if home < 12 then ((d.mc.retiredPcs.filter (fun p => p.1 == home)).map (fun p => p.2 / 4)).dedup
  else ((d.mc.lost.filter (fun u => decide (12 <= u ∧ u < 44))).map (fun u => u - 12)).dedup

/-- Region FENCED (R41): its stack is out of the fast tier. -/
def Dev.regionFenced (d : Dev) (r : Nat) : Bool := bit (d.dget (O.REGION_BLOCK_STATE r)) 30

/-- The home serves at all. -/
def Dev.homeServes (d : Dev) (home : Nat) : Bool :=
  if home < 12 then !d.regionFenced home && !d.mc.lost.contains home else true

/-- Runs in use in a home, by first frame: segments, destinations of moves, retired frames. -/
def Dev.usedRuns (d : Dev) (home : Nat) : List (Nat × Nat) :=
  let segs := (d.store.res.filter (fun p => p.2.st != 0 && p.2.homeNo == home)).map (fun p => (p.2.frame, p.2.frames))
  let dst := (d.store.moves.filter (fun m => m.active && (if m.destTier = 0 then m.destHome else 12) == home)).map
    (fun m => (m.destFrame, m.destFrames))
  let ret := (d.mc.retired.filter (fun p => p.1 == home)).map (fun p => (p.2, 1))
  sortBy (fun a b => decide (a.1 <= b.1)) (segs ++ dst ++ ret)

/-- Gaps between the runs of `[lo, hi)`. -/
def gapsAux (hi : Nat) : Nat → List (Nat × Nat) → List (Nat × Nat)
  | cur, [] => if cur < hi then [(cur, hi)] else []
  | cur, (f, n) :: rs =>
    if cur < f then (cur, Nat.min f hi) :: gapsAux hi (Nat.max cur (f + n)) rs
    else gapsAux hi (Nat.max cur (f + n)) rs

/-- Free gaps of a home; none when it does not serve. -/
def Dev.gaps (d : Dev) (home : Nat) : List (Nat × Nat) :=
  if d.homeServes home then gapsAux (homeHi home) (homeLo home) (d.usedRuns home) else []

/-- Frames x of `[a, b)` with x mod `per` = c. -/
def countClass (a b per c : Nat) : Nat := (b + (per - 1 - c)) / per - (a + (per - 1 - c)) / per

/-- Free bytes of a home (STACK_FREE, SLOW_FREE). -/
def Dev.freeBytes (d : Dev) (home : Nat) : Nat :=
  let bad := d.badClasses home
  4096 * sumNat ((d.gaps home).map (fun g => g.2 - g.1 - sumNat (bad.map (countClass g.1 g.2 (badPeriod home)))))

/-- First start of a run of `n` frames inside a gap. -/
def runInGap (per : Nat) (bad : List Nat) (n : Nat) (g : Nat × Nat) : Option Nat :=
  ((List.range per).map (fun i => g.1 + i)).find? (fun s =>
    decide (s + n <= g.2) && bad.all (fun c => countClass s (s + n) per c == 0))

/-- First-fit run of `n` frames (R259). -/
def Dev.findRun (d : Dev) (home n : Nat) : Option Nat :=
  (d.gaps home).findSome? (runInGap (badPeriod home) (d.badClasses home) n)

/-! ### Relocation and eviction (R259, R276, R277) -/

/-- Moves a segment's frames at once: bytes copied, entry switched, old frames released. -/
def Dev.switchFrames (d : Dev) (e home frame frames : Nat) : Dev :=
  let r := d.res e
  let d1 :=
    if (r.homeNo < 12) = (home < 12) then
      (d.setTierMem home (SMap.moveRun (d.tierMem home) (cellKey r.homeNo r.frame 0) (cellKey home frame 0) (r.frames * 4096))).sound
        home frame 0 (r.frames * 4096)
    else
      (d.frameWrite home frame 0 (d.frameRead r.homeNo r.frame 0 (r.frames * 4096))).frameErase r.homeNo r.frame r.frames
  d1.setRes e { r with tier := if home < 12 then 0 else 1, home := if home < 12 then home else 0, frame := frame, frames := frames }

/-- Pins on a segment. -/
def Dev.pinsOn (d : Dev) (e : Nat) : Nat := (d.res e).pin

/-- A segment the allocator may relocate: STATE 1, PIN and QUEUED 0 (R259). -/
def Dev.idleSeg (d : Dev) (e : Nat) : Bool := (d.res e).st == 1 && d.pinsOn e == 0 && (d.res e).queued == 0

/-- First-fit run of `n` frames outside the frames [lo, hi) of a home. -/
def Dev.findRunOutside (d : Dev) (home n lo hi : Nat) : Option Nat :=
  ((d.gaps home).flatMap (fun g => [(g.1, Nat.min g.2 lo), (Nat.max g.1 hi, g.2)])).findSome?
    (runInGap (badPeriod home) (d.badClasses home) n)

/-- Relocates segments, in the order given, out of the frames [lo, hi) of a home; none where one finds no run. RELOCATIONS
and the owner's MOVES_DONE count each (R259, R281, R282). -/
def clearFrames (home lo hi : Nat) : List Nat → Dev → Option Dev
  | [], d => some d
  | e :: es, d =>
    let r := d.res e
    match d.findRunOutside home r.frames lo hi with
    | some f => clearFrames home lo hi es (((d.switchFrames e home f r.frames).bump O.RELOCATIONS).bump (O.MOVES_DONE r.owner))
    | none => none

/-- Frames [s, s + n) of a home emptied by relocating idle segments, where that can be. -/
def Dev.clearWindow (d : Dev) (home n s : Nat) : Option Dev :=
  let meets := fun (f k : Nat) => decide (f < s + n ∧ s < f + k)
  let mine := d.store.res.filter (fun p => p.2.st != 0 && p.2.homeNo == home && meets p.2.frame p.2.frames)
  let fixed := (d.store.moves.filter (fun m => m.active && (if m.destTier = 0 then m.destHome else 12) == home)).any
      (fun m => meets m.destFrame m.destFrames) || d.mc.retired.any (fun p => p.1 == home && meets p.2 1) ||
    (d.badClasses home).any (fun c => countClass s (s + n) (badPeriod home) c != 0)
  if s < homeLo home ∨ homeHi home < s + n ∨ fixed = true ∨ mine.any (fun p => !d.idleSeg p.1) then none
  else clearFrames home s (s + n) ((sortBy (fun a b => decide (a.2.frame <= b.2.frame)) mine).map (·.1)) d

/-- Relocates idle segments of a home to join free runs until a run of `n` frames exists: the lowest window of frames, between
the runs in use, that relocating its idle segments empties (R259; log 21). Nothing moves where there is none. -/
def Dev.relocateFor (d : Dev) (home n : Nat) : Dev :=
  let us := d.usedRuns home
  let starts := sortBy (fun a b => decide (a <= b))
    (([homeLo home, homeHi home - n] ++ us.map (fun u => u.1 + u.2) ++ us.map (fun u => u.1 - n)).dedup)
  (starts.findSome? (d.clearWindow home n)).getD d

/-- A run of `n` frames for `l` bytes: first-fit, or after relocation when the free bytes suffice (R259, R276). -/
def Dev.takeRun (d : Dev) (home n l : Nat) : Option (Dev × Nat) :=
  match d.findRun home n with
  | some f => some (d, f)
  | none =>
    if l <= d.freeBytes home then
      let d1 := d.relocateFor home n
      (d1.findRun home n).map (fun f => (d1, f))
    else none

/-- What the eviction hand gathers. -/
structure Hand where
  pos : Nat
  cleared : List Nat
  victims : List Nat
  got : Nat
  busy : Nat
  deriving DecidableEq, Repr

/-- Victims' lengths charged to the fast tier of job j so far. -/
def victimFast (d : Dev) (vs : List Nat) (j : Nat) : Nat :=
  sumNat ((vs.filter (fun e => (d.res e).owner == j)).map (fun e => (d.res e).len))

/-- One entry met by the hand (R277). -/
def handStep (d : Dev) (h : Hand) (e : Nat) : Hand :=
  let r := d.res e
  let h := { h with pos := e + 1 }
  if h.victims.contains e then h
  else if r.use && !h.cleared.contains e then { h with cleared := e :: h.cleared }
  else
    let v := victimFast d h.victims r.owner
    let ok := r.st == 1 && (r.kind == 0 || r.kind == 1) && r.queued == 0 &&
      decide (d.dget (O.FAST_GUARANTEE r.owner) < d.dget (O.FAST_USED r.owner) - v) &&
      decide (d.dget (O.SLOW_USED r.owner) + r.len <= d.dget (O.SLOW_QUOTA r.owner))
    if ok && d.pinsOn e == 0 then { h with victims := h.victims ++ [e], got := h.got + r.frames * 4096 }
    else if ok then { h with busy := h.busy + 1 } else h

def handRun (d : Dev) (need : Nat) : List Nat → Hand → Hand
  | [], h => h
  | e :: es, h => if need <= h.got then h else handRun d need es (handStep d h e)

/-- Two rounds of the hand over the entries resident in a stack. -/
def Dev.runHand (d : Dev) (stack need : Nat) (prior : List Nat) : Hand :=
  let es := (d.store.res.filter (fun p => (p.2.st == 1 || p.2.st == 2) && p.2.tier == 0 && p.2.home == stack)).map (·.1)
  let at0 := SMap.get 0 d.store.hand stack
  let round := es.filter (fun e => decide (at0 <= e)) ++ es.filter (fun e => decide (e < at0))
  let h := handRun d need (round ++ round) ⟨at0, [], prior, 0, 0⟩
  { h with victims := h.victims.filter (fun e => !prior.contains e) }

/-- The hand's own effects: its place, the USE bits it cleared, the busy count of the evicting job. -/
def Dev.handEffects (d : Dev) (stack j : Nat) (h : Hand) : Dev :=
  let d1 := d.forEach h.cleared (fun d e => d.modRes e (fun r => { r with use := false }))
  (d1.setStore (fun s => { s with hand := SMap.put 0 s.hand stack (h.pos % 524288) })).bumpN (O.EVICT_BUSY j) h.busy

/-- Evicts one segment: an uncompressed DEMOTE that runs to its commit (log 22). `none` where its own reservation fails. -/
def Dev.evictOne (d : Dev) (e : Nat) : Option Dev :=
  let r := d.res e
  if d.dget (O.SLOW_QUOTA r.owner) < d.dget (O.SLOW_USED r.owner) + r.len then none
  else
    (d.takeRun 12 r.frames r.len).map (fun p =>
      let d1 := p.1.switchFrames e 12 p.2 r.frames
      let d2 := (d1.setCharge 0 e r.owner 0).setCharge 1 e r.owner r.len
      (d2.bump (O.EVICTED r.owner)).bump (O.MOVES_DONE r.owner))

def evictAll : List Nat → Dev → Option Dev
  | [], d => some d
  | e :: es, d =>
    match d.evictOne e with
    | some d1 => evictAll es d1
    | none => none

/-- Result of a reservation. -/
inductive Reserved where
  | ok (d : Dev) (frame : Nat)
  | fail (d : Dev) (status : Nat)

/-- Last part of a reservation: the guarantee's evictions, else NO_SPACE. -/
def reserveEvict (d : Dev) (x home n need : Nat) (within : Bool) : Reserved :=
  if home < 12 ∧ within then
    let short := need - d.freeBytes home
    let h := d.runHand home short []
    let d1 := d.handEffects home x h
    if short <= h.got then
      match evictAll h.victims d1 with
      | some d2 =>
        match d2.takeRun home n need with
        | some p => .ok p.1 p.2
        | none => .fail d1 0x1C
      | none => .fail d1 0x1C
    else .fail d1 0x1C
  else .fail d 0x1C

/-- reserve(X, t, home, L) of R276. ALLOC_FAILS counts the failures. -/
def reserve (d : Dev) (x home l : Nat) : Reserved :=
  let t := if home < 12 then 0 else 1
  let n := ceilDiv l 4096
  let bad := fun (d : Dev) (s : Nat) => Reserved.fail (d.bump (O.ALLOC_FAILS x)) s
  if d.dget (quotaKey t x) < d.dget (usedKey t x) + l then bad d 0x1B
  else
    match d.takeRun home n l with
    | some p => .ok p.1 p.2
    | none =>
      match reserveEvict d x home n l (decide (d.dget (usedKey t x) + l <= d.dget (guaranteeKey t x))) with
      | .ok d1 f => .ok d1 f
      | .fail d1 s => bad d1 s

/-- Lowest free entry from 1 (R256). -/
def lowestFree : Nat → SMap Res → Option Nat
  | i, [] => if i < 524288 then some i else none
  | i, (k, _) :: m => if k < i then lowestFree i m else if k = i then lowestFree (i + 1) m else some i

def Dev.freeEntry (d : Dev) : Option Nat := lowestFree 1 d.store.res

/-- Fills a free entry with a new resident segment, zeroed and charged (R262, R274). -/
def Dev.newSeg (d : Dev) (e j tier home frame len64 fmt kind : Nat) : Dev :=
  let n := ceilDiv (len64 * 64) 4096
  let h := if tier = 0 then home else 12
  let r : Res := { Res.free with
    st := 1, tier := tier, home := if tier = 0 then home else 0, frame := frame, frames := n, len64 := len64, fmt := fmt,
    kind := kind, owner := j }
  (((d.frameErase h frame n).sound h frame 0 (n * 4096)).setRes e r).setCharge tier e j (len64 * 64)

/-- Stacks of a job's partition that serve: the regions of its placed blocks (R259). -/
def Dev.partStacks (d : Dev) (j : Nat) : List Nat :=
  let rs := ((SMap.get Job.free d.sched.jobs j).places.filterMap (fun p => p.phys)).map (fun b => b / 13)
  (List.range 12).filter (fun r => rs.contains r && d.homeServes r)

/-- HOME 15: the stack of the partition with the most free bytes, the lower number on a tie. -/
def Dev.anyStack (d : Dev) (j : Nat) : Option Nat :=
  (d.partStacks j).foldl (fun best s =>
    match best with
    | none => some s
    | some b => if d.freeBytes b < d.freeBytes s then some s else some b) none

/-- Allocates a segment for job `j`: entry and status (R259, R276). `home` 0 to 11, 15 any, 12 the slow tier. -/
def Dev.alloc (d : Dev) (j tier home len64 fmt kind : Nat) : Dev × Nat × Nat :=
  let l := Nat.max len64 1024
  let h := if tier = 1 then some 12 else if home = 15 then d.anyStack j else some home
  match h, d.freeEntry with
  | some h, some e =>
    match reserve d j h (l * 64) with
    | .ok d1 f => (d1.newSeg e j tier h f l fmt kind, 0, e)
    | .fail d1 s => (d1, s, 0)
  | _, _ => (d.bump (O.ALLOC_FAILS j), 0x1C, 0)

/-- Frees a segment: frames, charges, entry. -/
def Dev.freeSeg (d : Dev) (e : Nat) : Dev :=
  let r := d.res e
  let d1 := (d.setCharge 0 e r.owner 0).setCharge 1 e r.owner 0
  let d2 := ((d1.frameErase r.homeNo r.frame r.frames).setRes e Res.free).setStore (fun s =>
    { s with evacuating := s.evacuating.filter (· != e), dirs := s.dirs.filter (· != e) })
  { d2 with srv := { d2.srv with caches := d2.srv.caches.filter (fun c => c.1 != e) } }

/-! ### Pins (R260) -/

/-- A pin on the segment is granted now: PIN (and WPIN) have room, no move of it drains, nothing evacuates it; a write pin not
between RESERVE and COMMIT of a move (R31, R260, R265). -/
def Dev.pinFree (d : Dev) (e : Nat) (write : Bool) : Bool :=
  let r := d.res e
  decide (r.pin < 16383) && (!write || (decide (r.wpin < 255) && r.st != 2)) && !d.store.evacuating.contains e &&
    !d.store.moves.any (fun m => m.seg == e && m.active && m.drain)

def Dev.pinSeg (d : Dev) (e : Nat) : Dev := d.modRes e (fun r => { r with pin := r.pin + 1, use := true })

def Dev.wpinSeg (d : Dev) (e : Nat) : Dev := d.modRes e (fun r => { r with pin := r.pin + 1, wpin := r.wpin + 1, use := true })

/-- Releases a pin; a freeing segment goes when its last pin does (R218, R280). -/
def Dev.unpinSeg (d : Dev) (e : Nat) : Dev :=
  let d1 := d.modRes e (fun r => { r with pin := r.pin - 1 })
  if (d1.res e).st = 4 ∧ (d1.res e).pin = 0 then d1.freeSeg e else d1

def Dev.unwpinSeg (d : Dev) (e : Nat) : Dev :=
  (d.modRes e (fun r => { r with wpin := r.wpin - 1 })).unpinSeg e

/-- Takes, and releases, a pin for reading or writing. -/
def Dev.takePin (d : Dev) (p : Nat × Bool) : Dev := if p.2 then d.wpinSeg p.1 else d.pinSeg p.1
def Dev.dropPin (d : Dev) (p : Nat × Bool) : Dev := if p.2 then d.unwpinSeg p.1 else d.unpinSeg p.1

/-- A descriptor's access sets USE, as every pin does; the pin itself is gone when its step ends. -/
def Dev.touch (d : Dev) (e : Nat) : Dev :=
  if (d.res e).st = 0 then d else d.modRes e (fun r => { r with use := true })

end Sys2Proof.Machine
end

