-- ==== Sys2Proof/Machine/Operands.lean ====
section
/-! DEFINITION. Operand references (R423), and the blocks' memories that they name: ACC slots and sub-slots with their row
words, OPB bytes with their scale shadow, element programs (R11, R85, R86, R92, R93, R110, R391). -/

namespace Sys2Proof.Machine

/-! ### Operand references -/

/-- A reference of 48 bits, taken apart. `kind` 0 none, 1 OPB, 2 ACC, 3 segment. -/
structure Ref where
  kind : Nat
  fmt : Nat
  tr : Bool
  off : Nat
  slot : Nat
  sub : Nat
  pack : Nat
  seg : Nat
  deriving DecidableEq, Repr, Inhabited

/-- Reads the reference at bit `lo` of a descriptor; `off` is in bytes. A field that the kind does not have reads 0. -/
def refAt (w lo : Nat) : Ref :=
  let v := fld w lo 48
  let k := fld v 0 2
  { kind := k, fmt := fld v 2 3, tr := bit v 5,
    off := if k = 1 then fld v 8 21 else if k = 3 then fld v 27 17 * 64 else 0,
    slot := if k = 2 then fld v 8 7 else 0, sub := if k = 2 then fld v 15 6 else 0, pack := if k = 2 then fld v 21 2 else 0,
    seg := if k = 3 then fld v 8 19 else 0 }

/-- The bits of a reference obey R423 and R6. -/
def refOk (w lo : Nat) : Bool :=
  let v := fld w lo 48
  match fld v 0 2 with
  | 0 => v == 0
  | 1 => fld v 2 3 != 7 && !bit v 5 && fld v 6 2 == 0 && fld v 29 19 == 0 && fld v 8 6 == 0
  | 2 => fld v 2 3 != 7 && !bit v 5 && fld v 6 2 == 0 && fld v 23 25 == 0 && fld v 21 2 != 3
  | _ => fld v 2 3 != 7 && fld v 6 2 == 0 && fld v 44 4 == 0

/-! ### Jobs and blocks -/

def Dev.job (d : Dev) (j : Nat) : Job := SMap.get Job.free d.sched.jobs j

def Dev.setJob (d : Dev) (j : Nat) (v : Job) : Dev :=
  { d with sched := { d.sched with jobs := SMap.put Job.free d.sched.jobs j v } }

def Dev.modJob (d : Dev) (j : Nat) (f : Job → Job) : Dev := d.setJob j (f (d.job j))

def Dev.setSched (d : Dev) (f : Sched → Sched) : Dev := { d with sched := f d.sched }

def Dev.setMem (d : Dev) (f : Mem → Mem) : Dev := { d with mem := f d.mem }

def Dev.setBlk (d : Dev) (f : Blk → Blk) : Dev := { d with blk := f d.blk }

/-- Place of a logical block; an unplaced one is lost. -/
def Dev.place (d : Dev) (j lb : Nat) : Place := nth ⟨none, 0, 0, 0⟩ (d.job j).places lb

/-- Stage `s` of a job, found among its pipelines. -/
def Job.stage (j : Job) (s : Nat) : Option Stage := (j.pipes.flatMap (·.2)).find? (fun e => e.stage == s)

/-! ### Accumulator memory (R11, R92, R93, R100) -/

/-- Physical column of a logical one: the spare is column 64. -/
def Dev.physCol (d : Dev) (b c : Nat) : Nat := if d.dget (O.SPARE_COLUMN_MAP b) = c then 64 else c

def accKey (b slot row pcol : Nat) : Nat := ((b * 128 + slot) * 64 + row) * 65 + pcol

def rowKey (b slot lane row : Nat) : Nat := ((b * 128 + slot) * 4 + lane) * 64 + row

/-- Entry (row, logical column) of a slot. -/
def Dev.accGet (d : Dev) (b slot row c : Nat) : BitVec 32 := SMap.get 0 d.mem.acc (accKey b slot row (d.physCol b c))

def Dev.accPut (d : Dev) (b slot row c : Nat) (v : BitVec 32) : Dev :=
  d.setMem (fun m => { m with acc := SMap.put 0 m.acc (accKey b slot row (d.physCol b c)) v })

def Dev.rowGet (d : Dev) (b slot lane row : Nat) : RowWord := RowWord.dec (SMap.get 0 d.mem.rows (rowKey b slot lane row)).toNat

def Dev.rowPut (d : Dev) (b slot lane row : Nat) (w : RowWord) : Dev :=
  d.setMem (fun m => { m with rows := SMap.put 0 m.rows (rowKey b slot lane row) w.enc })

/-- An instruction shape (R86): merge factor, and whether it merges columns. -/
structure Shape where
  x : Nat
  colMerge : Bool
  mt : Nat
  nt : Nat
  deriving DecidableEq, Repr, Inhabited

def shapeOf (s : Nat) : Shape :=
  if s = 0 then ⟨1, false, 64, 64⟩
  else if s <= 6 then ⟨2 ^ s, false, 64 / 2 ^ s, 64⟩
  else if s = 8 then ⟨2, true, 64, 32⟩ else ⟨4, true, 64, 16⟩

/-- SHAPE codes the issue check admits. -/
def shapeLegal (s : Nat) : Bool := decide (s <= 6) || s == 8 || s == 9

/-- Physical row and logical column of element (m, n) of sub-slot `s`, and the lane and row of its row word. -/
def subPos (sh : Shape) (s m n : Nat) : Nat × Nat := if sh.colMerge then (m, sh.x * n + s) else (sh.x * m + s, n)
def subRow (sh : Shape) (s m : Nat) : Nat × Nat := if sh.colMerge then (s, m) else (0, sh.x * m + s)

/-- Value of element (m, n) of sub-slot `s`: `slot` is the physical slot, the low word's for A64. -/
def Dev.subGet (d : Dev) (b : Nat) (sh : Shape) (wide : Bool) (slot s m n : Nat) : Int :=
  let (r, c) := subPos sh s m n
  if wide then toSgn 64 ((d.accGet b slot r c).toNat + (d.accGet b (slot + 1) r c).toNat * 2 ^ 32)
  else s32 (d.accGet b slot r c)

def Dev.subPut (d : Dev) (b : Nat) (sh : Shape) (wide : Bool) (slot s m n : Nat) (v : Int) : Dev :=
  let (r, c) := subPos sh s m n
  let u := toUns 64 v
  if wide then (d.accPut b slot r c (BitVec.ofNat 32 u)).accPut b (slot + 1) r c (BitVec.ofNat 32 (u / 2 ^ 32))
  else d.accPut b slot r c (BitVec.ofNat 32 (toUns 32 v))

def Dev.subRowGet (d : Dev) (b : Nat) (sh : Shape) (slot s m : Nat) : RowWord :=
  d.rowGet b slot (subRow sh s m).1 (subRow sh s m).2

def Dev.subRowPut (d : Dev) (b : Nat) (sh : Shape) (slot s m : Nat) (w : RowWord) : Dev :=
  d.rowPut b slot (subRow sh s m).1 (subRow sh s m).2 w

/-- Physical slot and sub-slot of linear sub-slot `l` counted from physical slot `base` (R92, R134). A64 slot k is entries
2k and 2k + 1 (R58): a job's slots start at an even entry, and no A64 reference names an odd slot (log 24). -/
def linSlot (x : Nat) (wide : Bool) (base l : Nat) : Nat × Nat :=
  (base + (if wide then 2 else 1) * (l / x), l % x)

/-! ### Operand buffer and scale shadow (R17, R85) -/

def opbKey (b a : Nat) : Nat := b * 2 ^ 21 + a

/-- Bytes of a block's OPB from physical address `a`. -/
def Dev.opbRead (d : Dev) (b a n : Nat) : Bytes := SMap.readRun 0 d.mem.opb (opbKey b a) n

def Dev.opbWrite (d : Dev) (b a : Nat) (bs : Bytes) : Dev :=
  d.setMem (fun m => { m with opb := SMap.writeRun 0 m.opb (opbKey b a) bs })

/-- Key of the shadow entry of the tile at `a`: a[20:10]. -/
def shadowKey (b a : Nat) : Nat := (b * 2048 + a / 1024 % 2048) * 64

def Dev.shadowRead (d : Dev) (b a : Nat) : Bytes := SMap.readRun 0 d.mem.shadow (shadowKey b a) 64

/-- Places an engine tile of an element format: the OPB bytes and its 64 scale bytes in the shadow. -/
def Dev.opbPutTile (d : Dev) (b a : Nat) (t : Bytes) : Dev :=
  (d.opbWrite b a t).setMem (fun m => { m with shadow := SMap.writeRun 0 m.shadow (shadowKey b a) (t.take 64) })

/-- A tile as the array sees it: codes from the OPB, scale bytes from the shadow. -/
def Dev.opbTile (d : Dev) (b a f : Nat) : Bytes := d.shadowRead b a ++ d.opbRead b (a + 64) (tileBytes f - 64)

/-- `n` bytes that the manual leaves unspecified, and the state after drawing them. -/
def freeRun (d : Dev) (n : Nat) : Bytes × Dev :=
  ((List.range n).map (fun i => (Config.freeWord (d.freeNo + i / 4)).extractLsb' (8 * (i % 4)) 8),
   { d with freeNo := d.freeNo + ceilDiv n 4 })

/-- Unspecified bytes in the `n` bytes of a block's OPB from physical address `a`, and in the shadow entries of the tiles
that may lie there: a tile is longer than 1 KiB (R85). -/
def Dev.freeOpb (d : Dev) (b a n : Nat) : Dev :=
  let r := freeRun d n
  let s := freeRun (r.2.opbWrite b a r.1) (if n ≤ 1024 then 0 else ((a + n - 1025) / 1024 + 1 - a / 1024) * 64)
  s.2.setMem (fun m => { m with shadow := SMap.writeRun 0 m.shadow (shadowKey b a) s.1 })

/-- Word `w` of element program `p` of a block (R110). -/
def progKey (b p w : Nat) : Nat := (b * 16 + p) * 32 + w

def Dev.progGet (d : Dev) (b p w : Nat) : Nat := (SMap.get 0 d.mem.prog (progKey b p w)).toNat

/-! ### Where a reference points for a job on one of its logical blocks (R391) -/

/-- Physical OPB address of a job's offset on a logical block. -/
def Dev.opbAddr (d : Dev) (j lb off : Nat) : Nat := (d.place j lb).opb + off

/-- Physical block address of a logical block; a lost block has none and reads as block 0 (never reached: the issue check
rejects it). -/
def Dev.physOf (d : Dev) (j lb : Nat) : Nat := (d.place j lb).phys.getD 0

/-- Bytes of a raw or row-major operand from byte `o`: OPB of a logical block, or a segment. -/
def Dev.refBytes (d : Dev) (j lb : Nat) (r : Ref) (o n : Nat) : Bytes :=
  match r.kind with
  | 1 => d.opbRead (d.physOf j lb) (d.opbAddr j lb (r.off + o)) n
  | 3 => d.segRead r.seg (r.off + o) n
  | _ => []

/-- Writes bytes of an operand from byte `o`. -/
def Dev.refWrite (d : Dev) (j lb : Nat) (r : Ref) (o : Nat) (bs : Bytes) : Dev :=
  match r.kind with
  | 1 => d.opbWrite (d.physOf j lb) (d.opbAddr j lb (r.off + o)) bs
  | 3 => (d.segWrite r.seg (r.off + o) bs).touch r.seg
  | _ => d

/-- The transpose of an element tile (R268): scale byte 8i + j moves to 8j + i, element (r, c) to (c, r); no code changes. An
empty block is written with zero value bytes (R53). -/
def transposeTile (f : Nat) (t : Array Byte) : Bytes :=
  (List.range 64).map (fun k => BitVec.ofNat 8 (tb t (8 * (k % 8) + k / 8))) ++
    packCodes f ((List.range 4096).map (fun x =>
      let b := x / 64
      if scaleByte t (b % 8) (b / 8) = 0x80 then 0 else rawCode f t (8 * (b % 8) + x % 8) (8 * (b / 8) + x % 64 / 8)))

/-- Engine tile (i, j) of a matrix operand with `tcols` tile columns (`trows` rows): from the OPB, or delivered from a
segment, transposed when the reference says so (R269). A transposed reference names the grid as it is stored, and tile
(i, j) is the transpose of stored tile (j, i). -/
def Dev.refTile (d : Dev) (j lb : Nat) (r : Ref) (trows tcols i jt : Nat) : Array Byte :=
  let sz := tileBytes r.fmt
  match r.kind with
  | 1 => (d.opbTile (d.physOf j lb) (d.opbAddr j lb (r.off + (i * tcols + jt) * sz)) r.fmt).toArray
  | 3 =>
    if r.tr then (transposeTile r.fmt (d.segRead r.seg (r.off + (jt * trows + i) * sz) sz).toArray).toArray
    else (d.segRead r.seg (r.off + (i * tcols + jt) * sz) sz).toArray
  | _ => #[]

/-- The segment of a reference is readable by the job; 0 or the status of the read (R278). -/
def Dev.refStatus (d : Dev) (r : Ref) : Nat := if r.kind = 3 ∧ d.segOk r.seg = false then stPoison else 0

/-- An extent of `n` bytes at a reference lies in the buffer behind it (R140): the job's OPB grant, or the segment. -/
def Dev.refFits (d : Dev) (j : Nat) (r : Ref) (n : Nat) : Bool :=
  match r.kind with
  | 1 => decide (r.off + n <= (d.job j).opb)
  | 3 => (d.res r.seg).st != 0 && decide (r.off + n <= (d.res r.seg).len)
  | _ => true

end Sys2Proof.Machine
end

