-- ==== Sys2Proof/Machine/Ops.lean ====
section
/-! DEFINITION. The operations every descriptor command shares: flights, the settings in force, the generator of an
operation, tenancies, the scoreboard, deciding a status, the completion record (R14, R79, R96, R394 to R396, R409, R417,
R435 to R438, R520). -/

namespace Sys2Proof.Machine

/-! ### Flights -/

def Flight.w (f : Flight) : Nat := f.d.toNat
def Flight.opcode (f : Flight) : Nat := fld f.w 0 8
def Flight.cls (f : Flight) : Nat := fld f.w 8 4
def Flight.round (f : Flight) : Nat := fld f.w 12 2
def Flight.fence (f : Flight) : Bool := bit f.w 15
def Flight.tag (f : Flight) : Nat := fld f.w 16 16
def Flight.step (f : Flight) : Nat := fld f.w 32 32
def Flight.target (f : Flight) : Nat := fld f.w 64 8
def Flight.flags (f : Flight) : Nat := fld f.w 80 16

/-- Logical blocks the flight runs on; empty for a command of the hub. -/
def Flight.blocks (f : Flight) : List Nat := f.plans.map (·.blk)

def Dev.flight (d : Dev) (f : Nat) : Option Flight := d.sched.flights.find? (fun x => x.id == f)

def Dev.modFlight (d : Dev) (f : Nat) (g : Flight → Flight) : Dev :=
  d.setSched (fun s => { s with flights := updFirst (fun x => x.id == f) g s.flights })

def Dev.dropFlight (d : Dev) (f : Nat) : Dev :=
  d.setSched (fun s => { s with flights := s.flights.filter (fun x => x.id != f) })

/-- A flight as fetched. -/
def Flight.fresh (id job queue index : Nat) (w : Word512) : Flight :=
  { id := id, job := job, queue := queue, index := index, d := w, plans := [], waiting := false, started := false,
    rung := [], tiles := [], agreed := [], audits := [], done := none, retiled := false, laneRange := false, broken := false, stateWritten := false,
    appended := false, effLoss := 0, shape := 0, pm := 0, pn := 0, firstFail := 127, results := [], reserved := [], pins := [], cacheLen := 0,
    lasting := false, conds := [], afterReform := false }

/-- Takes a descriptor in (R417): the flight joins the list in order of acceptance. -/
def Dev.addFlight (d : Dev) (job queue index : Nat) (w : Word512) (waiting : Bool) : Dev :=
  let fl := { Flight.fresh d.sched.nextFlight job queue index w with waiting := waiting }
  d.setSched (fun s => { s with flights := s.flights ++ [fl], nextFlight := s.nextFlight + 1 })

/-- A descriptor takes pins that it does not hold yet (R260). -/
def Dev.grantPins (d : Dev) (f : Nat) (ps : List (Nat × Bool)) : Dev :=
  match d.flight f with
  | none => d
  | some x =>
    let new := (ps.filter (fun p => !x.pins.contains p)).dedup
    (d.forEach new Dev.takePin).modFlight f (fun y => { y with pins := y.pins ++ new })

/-- Every pin of a list is held by the flight or can be granted now. -/
def Flight.pinsReady (x : Flight) (d : Dev) (ps : List (Nat × Bool)) : Bool :=
  ps.all (fun p => x.pins.contains p || d.pinFree p.1 p.2)

/-- A descriptor releases those of its pins that `p` names. -/
def Dev.dropPins (d : Dev) (f : Nat) (p : Nat × Bool → Bool) : Dev :=
  match d.flight f with
  | none => d
  | some x => (d.forEach (x.pins.filter p) Dev.dropPin).modFlight f (fun y => { y with pins := y.pins.filter (fun q => !p q) })

/-- A descriptor releases its pins, and the sequencers of its blocks its page descriptors. -/
def Dev.releasePins (d : Dev) (f : Nat) : Dev :=
  match d.flight f with
  | none => d
  | some x =>
    let bs := x.blocks.filterMap (fun lb => (d.place x.job lb).phys)
    let d1 := d.dropPins f (fun _ => true)
    if x.opcode = 5 ∧ x.started then d1.setBlk (fun k => { k with pages := k.pages.filter (fun p => !bs.contains p.1) }) else d1

/-- Decides the completion status of a flight that has none yet; its last access is over (R260). -/
def Dev.finish (d : Dev) (f st : Nat) : Dev :=
  (d.releasePins f).modFlight f (fun x => if x.done.isSome then x else { x with done := some st })

/-- Marks a flight as started. -/
def Dev.start (d : Dev) (f : Nat) : Dev :=
  match d.flight f with
  | none => d
  | some x =>
    (d.modFlight f (fun x => { x with started := true })).modJob x.job (fun j =>
      if j.begun.any (fun p => p.1 == x.step) then j else { j with begun := j.begun ++ [(x.step, false)] })

/-- The step of a job makes a write that outlives it (R397). -/
def Dev.markLasting (d : Dev) (j step : Nat) : Dev := d.modJob j (fun j =>
  { j with begun := j.begun.filter (fun p => p.1 != step) ++ [(step, true)] })

/-- Segments that a descriptor holds pinned. -/
def Flight.holds (x : Flight) : List Nat := x.pins.map (·.1)

/-- Stages a descriptor of a compute command belongs to: its TARGET, or for `elem` those that hold its block. -/
def stagesOf (jb : Job) (x : Flight) : List Stage :=
  if x.opcode = 2 then (jb.pipes.flatMap (·.2)).filter (fun s => s.blocks.contains x.target)
  else if 1 <= x.opcode ∧ x.opcode <= 5 then (jb.stage x.target).toList
  else []

/-- The descriptor runs on a stage of its job. -/
def Dev.onStage (d : Dev) (j stage : Nat) (x : Flight) : Bool :=
  x.job == j && (stagesOf (d.job j) x).any (fun s => s.stage == stage)

/-- A flight that may take its next step: issued, not decided. -/
def Flight.live (x : Flight) : Bool := !x.waiting && x.done.isNone

/-! ### Settings in force (R79) -/

/-- The settings of R79 and R190, by sub-index of 0x8100 + j. LINK_RESERVE, which follows R79 (R364), is kept beside them
under 256 plus the channel, and FROZEN of the job's groups (R326) under 512 plus the group. -/
def settingSubs : List Nat := [1, 2, 3, 4, 5, 27]

def settingKey (j sub : Nat) : Nat := (0x8100 + j) * 256 + sub

/-- The value of a setting in force for a descriptor's step. -/
def Dev.setting (d : Dev) (x : Flight) (sub : Nat) : Nat :=
  match ((d.job x.job).eff.find? (fun p => p.1 == x.step)).bind (fun p => p.2.find? (fun q => q.1 == sub)) with
  | some q => q.2
  | none => d.dget (settingKey x.job sub)

/-- Snapshot at the step boundary that starts step `step` of job `j`. -/
def Dev.snapSettings (d : Dev) (j step : Nat) : Dev :=
  let vals := settingSubs.map (fun s => (s, d.dget (settingKey j s))) ++
    (List.range 8).map (fun v => (256 + v, d.dget (O.LINK_RESERVE j v))) ++
    (d.red.groups.filter (fun p => p.2.job == j)).map (fun p => (512 + p.1, bool01 p.2.frozen))
  d.modJob j (fun x => { x with eff := x.eff.filter (fun p => p.1 != step) ++ [(step, vals)] })

/-- LINK_RESERVE of job `j` and channel `v` in force: while a step of the job is in flight, as at its boundary (R364). -/
def Dev.linkReserve (d : Dev) (j v : Nat) : Nat :=
  let x := d.job j
  let now := d.dget (O.LINK_RESERVE j v)
  if d.sched.flights.any (fun f => f.job == j) then
    match (x.eff.find? (fun p => x.step == some p.1)).bind (fun p => p.2.find? (fun q => q.1 == 256 + v)) with
    | some q => q.2
    | none => now
  else now

/-- Rounding of an operation of a flight (R63): ROUND 0 takes the job's ROUND_MODE. -/
def Dev.rnd (d : Dev) (f : Flight) : Rnd :=
  { stoch := f.round == 2 || (f.round == 0 && d.setting f 1 == 1), seed := d.setting f 2, step := f.step, tag := f.tag }

/-! ### Per-job counters -/

def Dev.countVoid (d : Dev) (j n : Nat) : Dev := if n = 0 then d else d.bumpN (O.FORMAT_VOID_COUNT j) n

/-! ### Tenancies (R395 to R398) -/

/-- Tenant of a block: job and step. -/
def Dev.tenant (d : Dev) (b : Nat) : Option (Nat × Nat) := (d.blk.tenants.find? (fun t => t.1 == b)).map (·.2)

def Dev.setTenant (d : Dev) (b : Nat) (t : Option (Nat × Nat)) : Dev :=
  d.setBlk (fun k => { k with tenants :=
    match t with
    | none => k.tenants.filter (fun x => x.1 != b)
    | some (j, s) => insertBy (fun p q => decide (p.1 <= q.1)) (b, j, s) (k.tenants.filter (fun x => x.1 != b)) })

/-- Physical blocks of a flight. -/
def Dev.flightPhys (d : Dev) (x : Flight) : List Nat := x.blocks.filterMap (fun lb => (d.place x.job lb).phys)

/-- A flight queued for block `b`: its share stands in the block's inbound queue (R439) and has not started. -/
def Dev.queuedOn (d : Dev) (b : Nat) (x : Flight) : Bool :=
  x.live && !x.started && x.blocks.any (fun lb => x.rung.contains lb && (d.place x.job lb).phys == some b)

/-- Jobs ready on block `b`: FORMED with a descriptor queued for it. -/
def Dev.readyJobs (d : Dev) (b : Nat) : List Nat :=
  (((d.sched.flights.filter (d.queuedOn b)).map (·.job)).dedup).filter (fun j => d.dget (O.JOB_STATE j) == 1)

def vtKey (b j : Nat) : Nat := b * 64 + j

def Dev.vtime (d : Dev) (b j : Nat) : Nat := SMap.get 0 d.blk.vtime (vtKey b j)

def Dev.setVtime (d : Dev) (b j v : Nat) : Dev := d.setBlk (fun k => { k with vtime := SMap.put 0 k.vtime (vtKey b j) v })

/-- Job `i` goes before job `j` on block `b`: higher PRIORITY, less VTIME, lower context. -/
def Dev.outranks (d : Dev) (b i j : Nat) : Bool :=
  let p := (d.job i).prio
  let q := (d.job j).prio
  decide (q < p) || (p == q && (decide (d.vtime b i < d.vtime b j) || (d.vtime b i == d.vtime b j && decide (i < j))))

/-- The control core's choice among the ready jobs. -/
def Dev.pickJob (d : Dev) (b : Nat) : Option Nat :=
  (d.readyJobs b).foldl (fun best j =>
    match best with
    | none => some j
    | some i => if d.outranks b j i then some j else some i) none

/-- The step a job's tenancy of block `b` would run: that of its earliest queued flight there. -/
def Dev.nextStepOn (d : Dev) (b j : Nat) : Option Nat :=
  (d.sched.flights.find? (fun x => d.queuedOn b x && x.job == j)).map (·.step)

/-- Flight `x` may run on block `b` as to tenancy: it holds it, or the block has no tenant and the control core would
choose this job and step. -/
def Dev.tenancyOk (d : Dev) (x : Flight) (b : Nat) : Bool :=
  match d.tenant b with
  | some t => t == (x.job, x.step)
  | none => d.pickJob b == some x.job && d.nextStepOn b x.job == some x.step

/-- Takes the tenancy of every block of a flight. -/
def Dev.takeTenancy (d : Dev) (x : Flight) : Dev := d.forEach (d.flightPhys x) (fun d b =>
  if d.tenant b = none then
    (d.setTenant b (some (x.job, x.step))).setBlk (fun k =>
      { k with displaced := k.displaced.filter (fun p => p != (x.job, b)) })
  else d)

/-! ### The scoreboard (R96) -/

/-- A range a flight names on one logical block: 0 slots, 1 OPB bytes, 2 programs; `[lo, lo + n)`. For slots, `shape` and
`sub` tell which sub-slots of each slot it names: `sub` none, all of them. -/
structure Range where
  blk : Nat
  kind : Nat
  lo : Nat
  n : Nat
  write : Bool
  shape : Nat := 0
  sub : Option Nat := none
  deriving DecidableEq, Repr

/-- Whole slots, OPB bytes or programs. -/
def Range.whole (blk kind lo n : Nat) (write : Bool) : Range := { blk := blk, kind := kind, lo := lo, n := n, write := write }

/-- Sub-slot `s` of a slot in one shape and sub-slot `t` in another share a cell: two row merges meet where the rows of the
finer one are rows of the coarser one, so do two column merges; a row merge meets every column merge (R92). -/
def subsMeet (a b : Shape) (s t : Nat) : Bool :=
  a.colMerge != b.colMerge || s % Nat.min a.x b.x == t % Nat.min a.x b.x

/-- Two ranges conflict: same memory of one block, overlapping. A named slot and sub-slot is reserved whether it is read or
written; bytes and programs conflict when one of the two writes (R96). -/
def Range.clash (a b : Range) : Bool :=
  a.blk == b.blk && a.kind == b.kind && decide (a.lo < b.lo + b.n) && decide (b.lo < a.lo + a.n) &&
  (if a.kind = 0 then
     match a.sub, b.sub with
     | some s, some t => subsMeet (shapeOf a.shape) (shapeOf b.shape) s t
     | _, _ => true
   else a.write || b.write)

/-- The sub-slots `l` to `l + t - 1`, counted from slot `slot`, of a shape with merge factor x: the slots they fill as one
range, and a range for each sub-slot of a slot that they fill in part; for A64 the two slots of each pair. -/
def subRanges (blk shape : Nat) (wide : Bool) (slot l t : Nat) (write : Bool) : List Range :=
  let x := (shapeOf shape).x
  let w := if wide then 2 else 1
  let one := fun i =>
    let p := linSlot x wide slot i
    ({ blk := blk, kind := 0, lo := p.1, n := w, write := write, shape := shape, sub := some p.2 } : Range)
  let a := ceilDiv l x
  let b := (l + t) / x
  if b < a then (rangeFrom l t).map one
  else (rangeFrom l (a * x - l)).map one ++
    (if a < b then [Range.whole blk 0 (slot + w * a) (w * (b - a)) write] else []) ++ (rangeFrom (b * x) (l + t - b * x)).map one

/-! ### Deciding and completing (R435 to R438, R520) -/

/-- The completion record shows a plan: one that was re-tiled (R142), or that ran. A descriptor poisoned or discarded before its
first K-loop ran no shape and no panel (R436; log 91). -/
def Flight.showsPlan (x : Flight) (st : Nat) : Bool := x.retiled || !x.tiles.isEmpty || (st != stPoison && st != stDiscard)

/-- The completion record (R436). FIRST_FAIL belongs to `move` and `page-edit`; other records leave it 0 (log 89). A
panel of AUTO beyond the eight bits of PM or PN reads 255 (log 119). -/
def completionWord (x : Flight) (st : Nat) : Nat :=
  at' 0 8 st + at' 8 1 (bool01 x.retiled) + at' 9 1 (bool01 x.laneRange) + at' 10 1 (bool01 x.broken) +
  at' 11 1 (bool01 x.stateWritten) + at' 12 1 (bool01 x.appended) + at' 16 6 x.job + at' 22 2 x.queue +
  at' 24 8 x.opcode + at' 32 32 x.step + at' 64 32 (fld x.w 96 32) + at' 96 32 x.index + at' 128 16 x.effLoss +
  at' 144 16 x.tag +
  (if x.showsPlan st then at' 160 4 x.shape + at' 164 8 (Nat.min 255 x.pm) + at' 172 8 (Nat.min 255 x.pn) else 0) +
  (if x.opcode = 6 ∨ x.opcode = 10 then at' 180 7 x.firstFail else 0)

/-- Sends a message to the identity of a job's JOB_OWNER in force, when it is VALID (R418, R437). -/
def Dev.sendOwner (d : Dev) (j vc kind : Nat) (body : Bytes) : Dev :=
  let o := (d.job j).owner
  if bit o 22 then d.sendMsg vc kind (fld o 0 15) (bit o 15) j 0 (some j) body else d

/-- Writes the record into the queue's completion ring and advances CTAIL. -/
def Dev.ringRecord (d : Dev) (x : Flight) (st : Nat) : Dev :=
  let depth := nth 0 (d.job x.job).depths x.queue
  let t := d.dget (O.COMPL_TAIL x.job x.queue)
  let seg := d.dget (O.COMPL_SEG x.job x.queue)
  let bs := leBytes 32 (completionWord x st)
  let d1 := if depth = 0 then d else d.segStore seg (t % depth * 32) bs
  let d2 := d1.dset (O.COMPL_TAIL x.job x.queue) ((t + 1) % 2 ^ 32)
  if bit x.w 14 then d2.sendOwner x.job 1 0x21 bs else d2

/-- `stop` statuses that stop the step when their descriptor completes (R54, R60, R68, R111). -/
def Flight.stops (x : Flight) : Bool :=
  x.conds.contains stScale || x.conds.contains stSat || x.conds.contains 0x100

end Sys2Proof.Machine
end

