-- ==== Sys2Proof/Machine/Tiling.lean ====
section
/-! DEFINITION. Shares, shapes, panels, chunks and re-tiling (R133 to R143), and the cycle counts that decide them (R88 to
R91). -/

namespace Sys2Proof.Machine

/-- Shares of `t` units over `b` blocks: (first unit, units) each (R133). -/
def sharesOf (t b : Nat) : List (Nat × Nat) :=
  (List.range b).map (fun i =>
    let q := t / b
    let r := t % b
    (i * q + Nat.min i r, if i < r then q + 1 else q))

/-- Products per cell and cycle (R80). -/
def kPer (f : Nat) : Nat := match f with | 0 => 32 | 1 => 16 | 2 => 4 | _ => 1

/-- Wide-port bytes of one K-step (R88). -/
def wideBytes (x f : Nat) : Nat := 64 * (x * kPer f) * fmtBits f / 8

/-- ARR cycles of one K-loop (R90). -/
def arrayCycles (x f k : Nat) : Nat :=
  let b := ceilDiv k 8
  let p := if f <= 1 then ceilDiv (8 * b) (x * kPer f) else 8 / kPer f * ceilDiv b x
  p * Nat.max 1 (wideBytes x f / 4096)

/-- ARR cycles of the agreement pass over an m x n output (R91). -/
def passCycles (m n k : Nat) : Nat := ceilDiv (ceilDiv k 8 * ceilDiv m 8 * ceilDiv n 8) 512 + 4

/-- Legal SHAPE codes in rising order (R86). -/
def allShapes : List Nat := [0, 1, 2, 3, 4, 5, 6, 8, 9]

/-- What a share asks for: format, accumulator, extent, loaded operands and the chunk area. -/
structure ShareIn where
  fmt : Nat
  wide : Bool
  m : Nat
  n : Nat
  k : Nat
  aLoaded : Bool
  bLoaded : Bool
  opbLen : Nat
  subslot : Nat
  avail : Nat
  deriving DecidableEq, Repr

/-- Loops, cycles per loop, waste of a shape on a share (R136). -/
def loopsOf (s : ShareIn) (shape : Nat) : Nat := ceilDiv s.m (shapeOf shape).mt * ceilDiv s.n (shapeOf shape).nt

def perLoop (s : ShareIn) (shape : Nat) : Nat :=
  let h := shapeOf shape
  Nat.max (arrayCycles h.x s.fmt s.k) (passCycles h.mt h.nt s.k)

/-- Slots of `t` live output tiles from a sub-slot (R134). -/
def slotsFor (x : Nat) (wide : Bool) (subslot t : Nat) : Nat := ceilDiv (subslot + t) x * (if wide then 2 else 1)

/-- Cost, loops, waste, slots, code: the order in which shapes are chosen (R136). -/
def shapeKey (s : ShareIn) (shape : Nat) : List Nat :=
  let h := shapeOf shape
  let l := loopsOf s shape
  [l * perLoop s shape, l, l * h.mt * h.nt - s.m * s.n, slotsFor h.x s.wide 0 l, shape]

def lexLe : List Nat → List Nat → Bool
  | [], _ => true
  | _, [] => false
  | a :: as, b :: bs => decide (a < b) || (a == b && lexLe as bs)

/-- The shape AUTO chooses. -/
def bestShape (s : ShareIn) : Nat :=
  allShapes.foldl (fun best h => if lexLe (shapeKey s best) (shapeKey s h) then best else h) 0

/-- Bytes of the operands over the full K_TOTAL in engine tiles. -/
def bytesA (s : ShareIn) : Nat := ceilDiv s.m 64 * ceilDiv s.k 64 * tileBytes s.fmt
def bytesB (s : ShareIn) : Nat := ceilDiv s.k 64 * ceilDiv s.n 64 * tileBytes s.fmt

/-- The loaded operands of the share together fit the chunk area. -/
def fitsChunk (s : ShareIn) : Bool :=
  decide ((if s.aLoaded then bytesA s else 0) + (if s.bLoaded then bytesB s else 0) <= s.opbLen)

/-- Projected cost of a panel (R137). -/
def projected (s : ShareIn) (shape pm pn : Nat) : Nat :=
  let h := shapeOf shape
  let nm := ceilDiv s.m h.mt
  let nn := ceilDiv s.n h.nt
  let la := if s.aLoaded then bytesA s else 0
  let lb := if s.bLoaded then bytesB s else 0
  let loaded := if fitsChunk s then la + lb else ceilDiv nn pn * la + ceilDiv nm pm * lb
  Nat.max (loopsOf s shape * perLoop s shape) (ceilDiv loaded 384)

/-- A chosen panel. -/
structure Panel where
  shape : Nat
  pm : Nat
  pn : Nat
  retiled : Bool
  effLoss : Nat
  deriving DecidableEq, Repr, Inhabited

/-- The panel AUTO chooses among those that fit: least projected cost, then larger PN, then larger PM. -/
def bestPanel (s : ShareIn) (shape : Nat) : Option Panel :=
  let h := shapeOf shape
  let nm := ceilDiv s.m h.mt
  let nn := ceilDiv s.n h.nt
  let cap := (s.avail / (if s.wide then 2 else 1)) * h.x
  let cands := (rangeFrom 1 (Nat.min nn cap)).flatMap (fun pn => (rangeFrom 1 (Nat.min nm (cap / pn))).map (fun pm => (pm, pn)))
  let best := cands.foldl (fun (b : Option (Nat × Nat × Nat)) c =>
    let cost := projected s shape c.1 c.2
    match b with
    | none => some (cost, c.1, c.2)
    | some (bc, bm, bn) =>
      if cost < bc ∨ (cost = bc ∧ (bn < c.2 ∨ (bn = c.2 ∧ bm < c.1))) then some (cost, c.1, c.2) else b) none
  best.map (fun b => ⟨shape, b.2.1, b.2.2, false, 0⟩)

/-- PM, ceil(PM / 2), ceil(PM / 4), ..., 1. -/
def halvings : Nat → Nat → List Nat
  | 0, p => [p]
  | n + 1, p => if p <= 1 then [1] else p :: halvings n ((p + 1) / 2)

/-- Re-tiling of a precompiled plan that is short of slots (R142). -/
def retile (s : ShareIn) (shape pm pn : Nat) : Option Panel :=
  let h := shapeOf shape
  let cands := ((halvings 9 pm).flatMap (fun a => (halvings 9 pn).map (fun b => (a, b)))).filter
    (fun c => decide (slotsFor h.x s.wide s.subslot (c.1 * c.2) <= s.avail))
  let better := fun (c b : Nat × Nat) =>
    let pc := projected s shape c.1 c.2
    let pb := projected s shape b.1 b.2
    let sc := slotsFor h.x s.wide s.subslot (c.1 * c.2)
    let sb := slotsFor h.x s.wide s.subslot (b.1 * b.2)
    decide (pc < pb) || (pc == pb && (decide (sb < sc) || (sb == sc && decide (b.2 < c.2))))
  let best := cands.foldl (fun (b : Option (Nat × Nat)) c =>
    match b with
    | none => some c
    | some q => if better c q then some c else b) none
  best.map (fun b =>
    let p0 := projected s shape pm pn
    let p1 := projected s shape b.1 b.2
    let loss := divRHE (1000 * ((p1 : Int) - p0)) p1
    ⟨shape, b.1, b.2, true, loss.toNat⟩)

/-- The plan of a share: AUTO's choice, the descriptor's capped plan (R134), or a re-tiled one. -/
def planShare (s : ShareIn) (auto : Bool) (shape pm pn : Nat) : Option Panel :=
  if auto then bestPanel s (bestShape s)
  else
    let h := shapeOf shape
    let pm := Nat.min pm (ceilDiv s.m h.mt)
    let pn := Nat.min pn (ceilDiv s.n h.nt)
    if slotsFor h.x s.wide s.subslot (pm * pn) <= s.avail then some ⟨shape, pm, pn, false, 0⟩ else retile s shape pm pn

/-- K-blocks of one chunk, KC / 8 (R138); 0 when the loaded operands of the share fit in one piece (log 25); `none` when
Cmax is 0. -/
def chunksOf (s : ShareIn) (p : Panel) : Option Nat :=
  if (!s.aLoaded && !s.bLoaded) || fitsChunk s then some 0
  else
    let h := shapeOf p.shape
    let a := if s.aLoaded then ceilDiv (p.pm * h.mt) 64 else 0
    let b := if s.bLoaded then ceilDiv (p.pn * h.nt) 64 else 0
    let cmax := s.opbLen / (2 * tileBytes s.fmt * (a + b))
    let kt := ceilDiv s.k 64
    if cmax = 0 then none else some (8 * ceilDiv kt (Nat.max 1 (ceilDiv kt cmax)))

/-- State slots of a job on a logical block: the state areas its pipeline records name there (R170). -/
def Job.stateSlots (j : Job) (lb : Nat) : List (Nat × Nat) :=
  ((j.pipes.flatMap (·.2)).filter (fun s => s.blocks.contains lb && decide (0 < s.stateLen))).map (fun s => (s.stateBase, s.stateLen))

/-- Slots available from ACC_BASE: the unbroken run inside the grant that holds no recurrent state (R141). -/
def slotsAvail (j : Job) (lb accBase : Nat) : Nat :=
  let st := j.stateSlots lb
  if st.any (fun p => decide (p.1 <= accBase ∧ accBase < p.1 + p.2)) then 0
  else
    let ends := (st.filter (fun p => decide (accBase < p.1))).map (·.1)
    ends.foldl Nat.min j.slots - accBase

end Sys2Proof.Machine
end

