-- ==== Sys2Proof/Machine/Matrix.lean ====
section
/-! DEFINITION. The matrix product (R58 to R77, R80 to R101, R133 to R145, R424): its issue check, one output tile, the
whole descriptor, the K-loop with its residue schedule, the shadow audit. -/

namespace Sys2Proof.Machine

/-- What an issue check answers. -/
inductive Issue where
  | reject (st : Nat)
  | finished (st : Nat)
  | go (plans : List Plan)
  deriving DecidableEq, Repr

/-! ### Fields of an `mma` descriptor (R424) -/

structure MmaD where
  auto : Bool
  wide : Bool
  masterValid : Bool
  masterSide : Bool
  a : Ref
  b : Ref
  init : Ref
  out : Ref
  masterSeg : Nat
  masterOff : Nat
  m : Nat
  n : Nat
  k : Nat
  kbBase : Nat
  kbCount : Nat
  shape : Nat
  subslot : Nat
  pm : Nat
  pn : Nat
  accBase : Nat
  opbBase : Nat
  opbLen : Nat
  deriving DecidableEq, Repr

def mmaD (w : Nat) : MmaD :=
  { auto := bit w 80, wide := bit w 81, masterValid := bit w 82, masterSide := bit w 83, a := refAt w 128, b := refAt w 176,
    init := refAt w 224, out := refAt w 272, masterSeg := fld w 320 19, masterOff := fld w 339 17 * 64, m := fld w 356 16,
    n := fld w 372 16, k := fld w 388 24, kbBase := fld w 412 21, kbCount := fld w 433 21, shape := fld w 454 4,
    subslot := fld w 458 6, pm := fld w 464 8, pn := fld w 472 8, accBase := fld w 480 7, opbBase := fld w 487 11,
    opbLen := fld w 498 12 }

/-- One past the last K-block of the piece (R61). -/
def MmaD.kbEnd (t : MmaD) : Nat := if t.kbCount = 0 then ceilDiv t.k 8 else t.kbBase + t.kbCount

/-- Reference to the O16 master copy of an operand (R74). -/
def MmaD.master (t : MmaD) : Ref := ⟨3, 3, false, t.masterOff, 0, 0, 0, t.masterSeg⟩

/-- Bytes of a matrix of R rows and C columns in tiles of a format (R423). -/
def gridBytes (f r c : Nat) : Nat := ceilDiv r 64 * ceilDiv c 64 * tileBytes f

/-- The rules R424 gives INIT (and R426 a BIAS). An A64 initial value in ACC names an even slot, as ACC_BASE does (R58, R92;
log 24). -/
def initOk (t : Ref) (wide : Bool) : Bool :=
  t.kind == 0 || ((t.fmt == 4 || t.fmt == 5) && !t.tr && t.pack == 0 &&
    (t.kind != 2 || (t.fmt == (if wide then 5 else 4) && !(wide && t.slot % 2 == 1))))

/-- The rules R424 gives OUT. -/
def outOk (t : Ref) (wide : Bool) : Bool :=
  t.kind != 0 && t.fmt == (if wide then 5 else 4) && !t.tr &&
    (t.kind != 2 || (t.slot == 0 && t.sub == 0 && t.pack == 0))

/-- First checks of R140 for `mma`: reserved bits, formats, shape, rounding, all-ones fields, the plan's fields. -/
def mmaFieldsOk (x : Flight) (t : MmaD) : Bool :=
  let w := x.w
  fld w 72 8 == 0 && fld w 84 12 == 0 && fld w 510 2 == 0 && refOk w 128 && refOk w 176 && refOk w 224 && refOk w 272 &&
  (t.a.kind == 1 || t.a.kind == 3) && (t.b.kind == 1 || t.b.kind == 3) && isElemFmt t.a.fmt && t.a.fmt == t.b.fmt &&
  !(t.a.fmt == 3 && !t.wide) && x.round != 3 && shapeLegal t.shape && decide (t.subslot < (shapeOf t.shape).x) &&
  initOk t.init t.wide && outOk t.out t.wide &&
  t.m != 65535 && t.n != 65535 && t.k != 16777215 && t.kbCount != 2097151 && t.opbLen != 4095 && t.pm != 255 && t.pn != 255 &&
  (!t.auto || (t.shape == 0 && t.subslot == 0 && t.pm == 0 && t.pn == 0)) && (t.auto || (t.pm != 0 && t.pn != 0))

/-- Extents of `mma` against the buffers behind them (R140). -/
def mmaFits (d : Dev) (x : Flight) (t : MmaD) : Bool :=
  let j := x.job
  d.refFits j t.a (gridBytes t.a.fmt t.m t.k) && d.refFits j t.b (gridBytes t.b.fmt t.k t.n) &&
  (t.init.kind == 0 || t.init.kind == 2 || d.refFits j t.init (gridBytes t.init.fmt t.m t.n)) &&
  (t.out.kind == 2 || d.refFits j t.out (gridBytes t.out.fmt t.m t.n)) &&
  (!t.masterValid || d.refFits j t.master (if t.masterSide then gridBytes 3 t.k t.n else gridBytes 3 t.m t.k)) &&
  decide (t.opbBase * 1024 + t.opbLen * 1024 <= (d.job j).opb) && decide (t.accBase < (d.job j).slots) &&
  decide (t.kbBase <= ceilDiv t.k 8 ∧ t.kbEnd <= ceilDiv t.k 8) && !(t.wide && t.accBase % 2 == 1)

/-- The plan of one block's share, or the status that rejects it: the panel, then the chunks of K and the bands (R140).
`bt`: 64-row tiles in a band of an expanded `conv`, where BT = 0 is FIELD_RANGE in the chunk step (R157). An ACC_BASE that
names a state slot is FIELD_RANGE (R170). -/
def planBlock (d : Dev) (j lb accBase slotLen : Nat) (s : ShareIn) (auto : Bool) (shape pm pn : Nat) (initRef : Ref)
    (row0 col0 : Nat) (bt : Option Nat) : Plan ⊕ Nat :=
  let s := { s with avail := Nat.min (slotsAvail (d.job j) lb accBase) slotLen }
  if ((d.job j).stateSlots lb).any (fun q => decide (q.1 ≤ accBase ∧ accBase < q.1 + q.2)) then .inr stField
  else
  match planShare s auto shape pm pn with
  | none => .inr stAccShort
  | some p =>
    match chunksOf s p with
    | none => .inr stField
    | some kc =>
      let h := shapeOf p.shape
      let initEnd := initRef.slot + slotsFor h.x s.wide initRef.sub (p.pm * p.pn)
      if bt = some 0 then .inr stField
      else if initRef.kind = 2 ∧ (h.x <= initRef.sub ∨ (d.job j).slots < initEnd ∨
          slotsAvail (d.job j) lb initRef.slot < initEnd - initRef.slot) then .inr stField
      else .inl ⟨lb, row0, s.m, col0, s.n, p.shape, p.pm, p.pn, p.retiled, p.effLoss, kc, bt.getD 0 * (64 / h.mt)⟩

/-- All plans, or the first rejection in block order. -/
def allPlans : List (Plan ⊕ Nat) → Issue
  | [] => .go []
  | .inr st :: _ => .reject st
  | .inl p :: ps =>
    match allPlans ps with
    | .go qs => .go (p :: qs)
    | r => r

/-- The blocks of the stage a descriptor names, when every one is placed (R133, R393). -/
def Dev.stageBlocks (d : Dev) (j target : Nat) : Option (List Nat) :=
  match (d.job j).stage target with
  | none => none
  | some s => if s.blocks.all (fun lb => (d.place j lb).phys.isSome) then some s.blocks else none

/-- What the share of `n` columns of a product asks for. -/
def mmaShare (t : MmaD) (n : Nat) : ShareIn :=
  { fmt := t.a.fmt, wide := t.wide, m := t.m, n := n, k := t.k, aLoaded := t.a.kind == 3, bLoaded := t.b.kind == 3,
    opbLen := t.opbLen * 1024, subslot := t.subslot, avail := 0 }

/-- The issue check of an `mma` (R140). -/
def issueMma (d : Dev) (x : Flight) : Issue :=
  let t := mmaD x.w
  if !mmaFieldsOk x t then .reject stField
  else if t.m = 0 ∨ t.n = 0 then .finished stOk
  else if !mmaFits d x t then .reject stField
  else
    match d.stageBlocks x.job x.target with
    | none => .reject stField
    | some bs =>
      let sh := (bs.zip (sharesOf (ceilDiv t.n 64) bs.length)).filter (fun p => decide (0 < p.2.2))
      allPlans (sh.map (fun p =>
        let c0 := 64 * p.2.1
        planBlock d x.job p.1 t.accBase 128 (mmaShare t (Nat.min t.n (64 * (p.2.1 + p.2.2)) - c0)) t.auto t.shape t.pm t.pn
          t.init 0 c0 none))

/-! ### Operands as numbers (R51 to R55, R144) -/

/-- A loaded matrix: codes by row, scale exponents by row block and column block (`none` empty), the reserved codes of the
counted part by row and column, and whether a scale byte that the descriptor reads is a format error. -/
structure Mat where
  codes : Array (Array Int)
  exps : Array (Array (Option Int))
  vs : List (Nat × Nat)
  bad : Bool
  deriving Inhabited

/-- Loads rows 0 to `r` - 1 and columns `c0` to `c1` - 1 (c0 a multiple of 64) of a matrix whose tiles are `tile i j`;
reserved codes are listed in rows [v0, v1) and columns [w0, w1), the part that the descriptor's K-loops read. `only`: scale
bytes are read there only, because a later piece runs no agreement pass (R61); else over the whole extent (R60). -/
def loadMat (f : Nat) (tile : Nat → Nat → Array Byte) (r c0 c1 v0 v1 w0 w1 : Nat) (only : Bool) : Mat :=
  let tiles : Array (Array (Array Byte)) :=
    ((List.range (ceilDiv r 64)).map (fun i =>
      ((rangeFrom (c0 / 64) (ceilDiv c1 64 - c0 / 64)).map (fun jt => tile i jt)).toArray)).toArray
  let tileAt := fun i c => (tiles.getD (i / 64) #[]).getD (c / 64 - c0 / 64) #[]
  let codes := ((List.range r).map (fun i =>
    ((rangeFrom c0 (c1 - c0)).map (fun c => elemCode f (tileAt i c) (i % 64) (c % 64))).toArray)).toArray
  let sc := fun i c => scaleOf (scaleByte (tileAt i c) (i % 64 / 8) (c % 64 / 8))
  let cbs := rangeFrom (c0 / 8) (ceilDiv c1 8 - c0 / 8)
  let exps := ((List.range (ceilDiv r 8)).map (fun i =>
    (cbs.map (fun c => match sc (8 * i) (8 * c) with | .exp e => some e | _ => none)).toArray)).toArray
  let here := fun i c => !only || (decide (v0 < 8 * i + 8 ∧ 8 * i < v1 ∧ w0 < 8 * c + 8 ∧ 8 * c < w1))
  let bad := (List.range (ceilDiv r 8)).any (fun i => cbs.any (fun c => here i c && sc (8 * i) (8 * c) == .bad))
  let vs := (List.range r).flatMap (fun i => if i < v0 ∨ v1 <= i then [] else
    (rangeFrom c0 (c1 - c0)).filterMap (fun c =>
      if c < w0 ∨ w1 <= c then none else if elemVoid f (tileAt i c) (i % 64) (c % 64) then some (i, c) else none))
  ⟨codes, exps, vs, bad⟩

def Mat.code (t : Mat) (r c : Nat) : Int := (t.codes.getD r #[]).getD c 0

def Mat.exp (t : Mat) (i j : Nat) : Option Int := (t.exps.getD i #[]).getD j none

/-! ### One share (R60 to R68) -/

/-- Everything a share's sums read. Columns are counted from the share's first. -/
structure Prod where
  a : Mat
  b : Mat
  /-- Magnitude bits of the two operands together: 2m, or m_M + m_W in the audit (R75). -/
  mag : Nat
  wide : Bool
  m : Nat
  n : Nat
  nb : Nat
  kb0 : Nat
  kb1 : Nat
  /-- K-blocks whose terms are added in one ARR cycle (R80, R83, R87). -/
  grp : Nat
  /-- F already agreed: (row block, engine tile column, F). -/
  fix : List (Nat × Nat × Int)
  /-- The K-loops read A's reserved codes themselves, and count them. -/
  countA : Bool
  /-- First logical row and column of the share. -/
  row0 : Nat
  col0 : Nat
  /-- Added to the K-block index in the generator's coordinates. -/
  kbOff : Nat
  rnd : Rnd
  /-- An initial value is named; its code and row word at an element. -/
  hasInit : Bool
  init : Nat → Nat → Int
  initRow : Nat → Nat → RowWord

/-- Top positions of the product terms of a row block with column block `cb` (R60), none when every term is empty. -/
def Prod.termTop (p : Prod) (rb cb : Nat) : Option Int :=
  (List.range p.nb).foldl (fun t kb =>
    match p.a.exp rb kb, p.b.exp kb cb with
    | some ea, some eb =>
      let v := ea + eb + (p.mag : Int) + 3
      match t with
      | none => some v
      | some u => some (max u v)
    | _, _ => t) none

def maxOpt (a b : Option Int) : Option Int :=
  match a, b with
  | none, y => y
  | x, none => x
  | some x, some y => some (max x y)

/-- The agreed exponent F of a row block over the eight column blocks of engine tile column `et` (R60): the same for every
instruction shape (R66). -/
def Prod.agree (p : Prod) (rb et : Nat) : Int :=
  let w := (accW p.wide : Int)
  let cbs := (rangeFrom (8 * et) 8).filter (fun cb => decide (cb < ceilDiv p.n 8))
  let t1 := cbs.foldl (fun t cb => maxOpt t (p.termTop rb cb)) none
  let rows := (rangeFrom (8 * rb) 8).filter (fun r => decide (r < p.m))
  let cols := (rangeFrom (64 * et) 64).filter (fun c => decide (c < p.n) && c % 16 == 0)
  let t2 := if p.hasInit then
      rows.foldl (fun t r => cols.foldl (fun t c =>
        let fb := (p.initRow r c).exp
        if fb = zeroRow then t else maxOpt t (some (fb + w))) t) t1
    else t1
  match t2 with
  | none => zeroRow
  | some t => t + clog2 (p.nb + (if p.hasInit then 1 else 0)) - w

/-- A later piece: it takes F from the row words of its initial value (R61). -/
def Prod.later (p : Prod) : Bool := p.hasInit && decide (0 < p.kb0)

/-- F of row `r` at column `c`: from the partial of a later piece, as agreed before, or by the pass. -/
def Prod.rowF (p : Prod) (r c : Nat) : Int :=
  if p.later then (p.initRow r c).exp
  else
    match p.fix.find? (fun q => q.1 == r / 8 && q.2.1 == c / 64) with
    | some q => q.2.2
    | none => p.agree (r / 8) (c / 64)

/-- K-blocks that one output element's merge group completes in an ARR cycle of additions: x members, each with the terms of
R80; a D8 or O16 member completes one term after its 2 or 8 cycles. -/
def groupBlocks (f x : Nat) : Nat := match f with | 0 => 4 * x | 1 => 2 * x | _ => x

/-- Exact product term of K-block `kb` (R81). -/
def Prod.term (p : Prod) (r c kb : Nat) : Int :=
  sumInt ((rangeFrom (8 * kb) 8).map (fun k => p.a.code r k * p.b.code k c))

/-- One addition of an aligned contribution, SAT carried. -/
def accStep (wide : Bool) (acc : Int × Bool) (v : Int) : Int × Bool :=
  let r := accAdd wide acc.1 v
  (r.1, acc.2 || r.2)

/-- The aligned contribution of K-block `kb` to element (r, c) (R62). -/
def Prod.aligned (p : Prod) (f : Int) (r c kb : Nat) : Int :=
  match p.a.exp (r / 8) kb, p.b.exp kb (c / 8) with
  | some ea, some eb => alignTo p.rnd (p.row0 + r) (p.col0 + c) (p.kbOff + kb) f (ea + eb) (p.term r c kb)
  | _, _ => 0

/-- The aligned initial value of element (r, c), 0 where there is none (R95). -/
def Prod.start (p : Prod) (f : Int) (r c : Nat) : Int :=
  if p.hasInit && (p.initRow r c).exp != zeroRow then
    alignTo p.rnd (p.row0 + r) (p.col0 + c) 0xFFFFFFFE f (p.initRow r c).exp (p.init r c)
  else 0

/-- Accumulator code of element (r, c) at row exponent `f`, and whether an addition clamped. The terms that a merge group
completes in one ARR cycle are added first, the initial value with those of step 0, and their sum is one addition into the
accumulator (R83, R87, R95; log 30). -/
def Prod.elem (p : Prod) (f : Int) (r c : Nat) : Int × Bool :=
  if f = zeroRow then (0, false)
  else
    let g := Nat.max 1 p.grp
    (List.range (Nat.max 1 (ceilDiv (p.kb1 - p.kb0) g))).foldl (fun acc i =>
      let lo := p.kb0 + i * g
      accStep p.wide acc ((if i = 0 then p.start f r c else 0) +
        sumInt ((rangeFrom lo (Nat.min g (p.kb1 - lo))).map (p.aligned f r c)))) (0, false)

/-! ### Building a share's product -/

/-- Initial value and row word of element (r, c) of the share. In ACC it is laid out as a panel like the output's. -/
structure InitSrc where
  val : Nat → Nat → Int
  row : Nat → Nat → RowWord

/-- Value of element (r, c) of an A32 or A64 tile. -/
def accTileVal (f : Nat) (t : Array Byte) (r c : Nat) : Int :=
  if f = 5 then
    let o := 256 + 8 * (64 * r + c)
    toSgn 64 (tb t o + 256 * tb t (o + 1) + 65536 * tb t (o + 2) + 2 ^ 24 * tb t (o + 3) + 2 ^ 32 * tb t (o + 4) +
      2 ^ 40 * tb t (o + 5) + 2 ^ 48 * tb t (o + 6) + 2 ^ 56 * tb t (o + 7))
  else
    let o := 256 + 4 * (64 * r + c)
    toSgn 32 (tb t o + 256 * tb t (o + 1) + 65536 * tb t (o + 2) + 2 ^ 24 * tb t (o + 3))

/-- Row word of row r of an A32 or A64 tile (R56). -/
def accTileRow (t : Array Byte) (r : Nat) : RowWord :=
  RowWord.dec (tb t (4 * r) + 256 * tb t (4 * r + 1) + 65536 * tb t (4 * r + 2) + 2 ^ 24 * tb t (4 * r + 3))

/-- Position of output tile (tm, tn) within its panel: rows by columns of tiles, row-major; the panels of an expanded `conv`
start anew in each band (R134, R158). -/
def panelPos (pl : Plan) (nn tm tn : Nat) : Nat :=
  let w := Nat.min pl.pn (nn - tn / pl.pn * pl.pn)
  ((if pl.band = 0 then tm else tm % pl.band) % pl.pm) * w + tn % pl.pn

/-- Number of output tiles of a share, across and down. -/
def Plan.nm (pl : Plan) : Nat := ceilDiv pl.rows (shapeOf pl.shape).mt
def Plan.nn (pl : Plan) : Nat := ceilDiv pl.cols (shapeOf pl.shape).nt

/-- The values that a panel holds in ACC from a slot and sub-slot of the grant (R134). -/
def panelAcc (d : Dev) (j : Nat) (pl : Plan) (wide : Bool) (slot sub : Nat) : InitSrc :=
  let sh := shapeOf pl.shape
  let b := d.physOf j pl.blk
  let base := (d.place j pl.blk).slot + slot
  let pos := fun r c => linSlot sh.x wide base (sub + panelPos pl pl.nn (r / sh.mt) (c / sh.nt))
  { val := fun r c => d.subGet b sh wide (pos r c).1 (pos r c).2 (r % sh.mt) (c % sh.nt),
    row := fun r c => d.subRowGet b sh (pos r c).1 (pos r c).2 (r % sh.mt) }

/-- Initial value of a share held in the OPB or a segment: an M x N matrix of A32 or A64 tiles. -/
def initTiles (d : Dev) (j : Nat) (pl : Plan) (t : Ref) (ncols : Nat) : InitSrc :=
  let tc := ceilDiv ncols 64
  let sz := tileBytes t.fmt
  let tiles := ((rangeFrom (pl.row0 / 64) (ceilDiv (pl.row0 + pl.rows) 64 - pl.row0 / 64)).map (fun i =>
    ((rangeFrom (pl.col0 / 64) (ceilDiv (pl.col0 + pl.cols) 64 - pl.col0 / 64)).map (fun jt =>
      (d.refBytes j pl.blk t ((i * tc + jt) * sz) sz).toArray)).toArray)).toArray
  let at2 := fun r c => (tiles.getD ((pl.row0 + r) / 64 - pl.row0 / 64) #[]).getD ((pl.col0 + c) / 64 - pl.col0 / 64) #[]
  { val := fun r c => accTileVal t.fmt (at2 r c) ((pl.row0 + r) % 64) ((pl.col0 + c) % 64),
    row := fun r c => accTileRow (at2 r c) ((pl.row0 + r) % 64) }

def initOf (d : Dev) (j : Nat) (pl : Plan) (t : Ref) (ncols : Nat) : InitSrc :=
  match t.kind with
  | 2 => panelAcc d j pl (t.fmt == 5) t.slot t.sub
  | 0 => ⟨fun _ _ => 0, fun _ _ => ⟨zeroRow, false, false, false⟩⟩
  | _ => initTiles d j pl t ncols

/-- Operand A of a share: M x K, all rows. -/
def loadA (d : Dev) (j lb : Nat) (t : Ref) (m k kb0 kb1 : Nat) (only : Bool) : Mat :=
  loadMat t.fmt (fun i c => d.refTile j lb t (ceilDiv m 64) (ceilDiv k 64) i c) m 0 k 0 m (8 * kb0) (8 * kb1) only

/-- Operand B of a share: K x columns col0 to col0 + n - 1. -/
def loadB (d : Dev) (j lb : Nat) (t : Ref) (k ntot col0 n kb0 kb1 : Nat) (only : Bool) : Mat :=
  loadMat t.fmt (fun i c => d.refTile j lb t (ceilDiv k 64) (ceilDiv ntot 64) i c) k col0 (col0 + n) (8 * kb0) (8 * kb1) col0
    (col0 + n) only

/-- The product of one share of an `mma`. -/
def mmaProd (d : Dev) (x : Flight) (pl : Plan) : Prod :=
  let t := mmaD x.w
  let i := initOf d x.job pl t.init t.n
  let later := t.init.kind != 0 && decide (0 < t.kbBase)
  { a := loadA d x.job pl.blk t.a t.m t.k t.kbBase t.kbEnd later,
    b := loadB d x.job pl.blk t.b t.k t.n pl.col0 pl.cols t.kbBase t.kbEnd later,
    mag := 2 * fmtMag t.a.fmt, wide := t.wide, m := t.m, n := pl.cols, nb := ceilDiv t.k 8, kb0 := t.kbBase, kb1 := t.kbEnd,
    grp := groupBlocks t.a.fmt (shapeOf pl.shape).x, fix := [], countA := true,
    row0 := 0, col0 := pl.col0, kbOff := 0, rnd := d.rnd x, hasInit := t.init.kind != 0, init := i.val, initRow := i.row }

/-! ### One output tile: drain (R94, R144, R145) -/

/-- A drained output tile: element values with their clamps, and row words. -/
structure TileOut where
  vals : Array (Array (Int × Bool))
  rows : Array RowWord
  deriving Inhabited

/-- Reserved codes that the K-loop of output tile (tm, tn) reads: of A in its rows, of B in its columns (R51, R72; log 28). -/
def Prod.voidsA (p : Prod) (lo hi : Nat) : Nat :=
  (p.a.vs.filter (fun v => decide (lo <= v.1 ∧ v.1 < hi ∧ 8 * p.kb0 <= v.2 ∧ v.2 < 8 * p.kb1))).length

def Prod.voidsB (p : Prod) (lo hi : Nat) : Nat :=
  (p.b.vs.filter (fun v => decide (p.col0 + lo <= v.2 ∧ v.2 < p.col0 + hi ∧ 8 * p.kb0 <= v.1 ∧ v.1 < 8 * p.kb1))).length

def Prod.tileVoids (p : Prod) (sh : Shape) (tm tn : Nat) : Nat :=
  (if p.countA then p.voidsA (tm * sh.mt) (tm * sh.mt + sh.mt) else 0) + p.voidsB (tn * sh.nt) (tn * sh.nt + sh.nt)

/-- One output tile. A row word takes SAT from its clamps, VOID_SEEN where a reserved code entered the row's own sums in the
tile, and both from the initial value (R57, R67, R72). A row block wholly beyond M reads -32,768; `its flags clear` is
taken of SAT and VOID_SEEN, and WIDE says what the entries are (R145; log 120). -/
def Prod.tile (p : Prod) (sh : Shape) (tm tn : Nat) : TileOut :=
  let r0 := tm * sh.mt
  let c0 := tn * sh.nt
  let vt := p.voidsB c0 (c0 + sh.nt) != 0
  let rows := (List.range sh.mt).map (fun m =>
    let r := r0 + m
    if r < p.m then
      let f := p.rowF r c0
      let vs := (List.range sh.nt).map (fun n => if c0 + n < p.n then p.elem f r (c0 + n) else (0, false))
      let iw := p.initRow r c0
      (vs.toArray, ({ exp := f, sat := vs.any (·.2) || (p.hasInit && iw.sat), wide := p.wide,
                      void := vt || p.voidsA r (r + 1) != 0 || (p.hasInit && iw.void) } : RowWord))
    else
      let f := if r / 8 = (p.m - 1) / 8 then p.rowF (p.m - 1) c0 else zeroRow
      ((List.replicate sh.nt ((0 : Int), false)).toArray, ({ exp := f, sat := false, wide := p.wide, void := false } : RowWord)))
  ⟨(rows.map (·.1)).toArray, (rows.map (·.2)).toArray⟩

def TileOut.val (t : TileOut) (m n : Nat) : Int := ((t.vals.getD m #[]).getD n (0, false)).1

/-- Some row word of the tile carries SAT (R68). -/
def TileOut.sat (t : TileOut) : Bool := t.rows.any (·.sat)

/-- One physical row of a slot rewritten: logical column c takes `f c` where that is some value. -/
def Dev.writeRow (d : Dev) (b slot row : Nat) (f : Nat → Option (BitVec 32)) : Dev :=
  let sp := d.dget (O.SPARE_COLUMN_MAP b)
  let old := SMap.readRun 0 d.mem.acc (accKey b slot row 0) 65
  let new := old.zipIdx.map (fun p =>
    let lc := if p.2 = 64 then (if sp < 64 then some sp else none) else if p.2 = sp then none else some p.2
    match lc with
    | some c => (f c).getD p.1
    | none => p.1)
  d.setMem (fun m => { m with acc := SMap.writeRun 0 m.acc (accKey b slot row 0) new })

/-- Writes the cells of sub-slot `s` of a slot: 64 bits of `cell m n` for element (m, n), the low word only for A32. -/
def Dev.subCells (d : Dev) (b : Nat) (sh : Shape) (wide : Bool) (slot s : Nat) (cell : Nat → Nat → Nat) : Dev :=
  d.forEach (List.range sh.mt) (fun d m =>
    let row := if sh.colMerge then m else sh.x * m + s
    let col := fun c => if sh.colMerge then (if c % sh.x = s then some (c / sh.x) else none) else some c
    let lo := d.writeRow b slot row (fun c => (col c).map (fun n => BitVec.ofNat 32 (cell m n)))
    if wide then lo.writeRow b (slot + 1) row (fun c => (col c).map (fun n => BitVec.ofNat 32 (cell m n / 2 ^ 32))) else lo)

/-- Writes a tile into sub-slot `s` of a slot: `val m n` for every element of the sub-slot, a row word per row. -/
def Dev.subWrite (d : Dev) (b : Nat) (sh : Shape) (wide : Bool) (slot s : Nat) (val : Nat → Nat → Int)
    (rw : Nat → RowWord) : Dev :=
  (d.subCells b sh wide slot s (fun m n => toUns (if wide then 64 else 32) (val m n))).forEach (List.range sh.mt) (fun d m =>
    d.subRowPut b sh slot s m (rw m))

/-- Drains output tile (tm, tn) of a share into its panel slot. -/
def drainTile (d : Dev) (j : Nat) (pl : Plan) (wide : Bool) (accBase subslot tm tn : Nat) (o : TileOut) : Dev :=
  let sh := shapeOf pl.shape
  let (slot, s) := linSlot sh.x wide ((d.place j pl.blk).slot + accBase) (subslot + panelPos pl pl.nn tm tn)
  let b := d.physOf j pl.blk
  (d.subWrite b sh wide slot s o.val (fun m => o.rows.getD m default)).setBlk (fun k =>
    { k with slotShape := SMap.put 0 k.slotShape (b * 128 + slot) pl.shape })

/-- Stores the valid elements of output tile (tm, tn) into an A32 or A64 matrix of `ncols` columns (R144, R145): a row word
that several output tiles share takes F, and SAT and VOID_SEEN of any. -/
def storeTile (d : Dev) (j : Nat) (pl : Plan) (t : Ref) (ncols tm tn : Nat) (o : TileOut) : Dev :=
  let sh := shapeOf pl.shape
  let sz := tileBytes t.fmt
  let eb := if t.fmt = 5 then 8 else 4
  let c0 := pl.col0 + tn * sh.nt
  let nv := Nat.min sh.nt (pl.cols - tn * sh.nt)
  d.forEach (List.range (Nat.min sh.mt (pl.rows - tm * sh.mt))) (fun d m =>
    let r := pl.row0 + tm * sh.mt + m
    let base := (r / 64 * ceilDiv ncols 64 + c0 / 64) * sz
    let w := o.rows.getD m default
    let old := RowWord.dec (leAt (d.refBytes j pl.blk t (base + 4 * (r % 64)) 4) 0 4)
    let w' := if tn % (64 / sh.nt) = 0 then w else { w with sat := w.sat || old.sat, void := w.void || old.void }
    let d1 := d.refWrite j pl.blk t (base + 4 * (r % 64)) (leBytes 4 w'.enc.toNat)
    d1.refWrite j pl.blk t (base + 256 + eb * (64 * (r % 64) + c0 % 64))
      ((List.range nv).flatMap (fun n => leBytes eb (toUns (8 * eb) (o.val m n)))))

/-! ### The descriptor -/

/-- Bands of a share: first tile row and tile rows of each; one when nothing is expanded (R134, R158). -/
def Plan.bands (pl : Plan) : List (Nat × Nat) :=
  if pl.band = 0 then [(0, pl.nm)]
  else (List.range (ceilDiv pl.nm pl.band)).map (fun i => (i * pl.band, Nat.min pl.band (pl.nm - i * pl.band)))

/-- K-loops of a share in the order they run, as (piece of K, tile row, tile column): bands, column panels, row panels, and
in each panel every piece of K over its tiles row-major (R134, R138, R158). -/
def loopOrder (pl : Plan) (pieces : Nat) : List (Nat × Nat × Nat) :=
  pl.bands.flatMap (fun b =>
    (List.range (ceilDiv pl.nn pl.pn)).flatMap (fun cp =>
      (List.range (ceilDiv b.2 pl.pm)).flatMap (fun rp =>
        (List.range pieces).flatMap (fun q =>
          (rangeFrom (b.1 + rp * pl.pm) (Nat.min pl.pm (b.2 - rp * pl.pm))).flatMap (fun tm =>
            (rangeFrom (cp * pl.pn) (Nat.min pl.pn (pl.nn - cp * pl.pn))).map (fun tn => (q, tm, tn)))))))

/-- Number of a K-loop within its share. -/
def Plan.loopNo (pl : Plan) (t : Nat × Nat × Nat) : Nat := (t.1 * pl.nm + t.2.1) * pl.nn + t.2.2

/-- The pieces into which chunks of `kc` K-blocks cut the K-blocks [b, e) (R61, R138). -/
def piecesOf (kc b e : Nat) : List (Nat × Nat) :=
  if kc = 0 ∨ e <= b then [(b, e)]
  else (rangeFrom (b / kc) (ceilDiv e kc - b / kc)).map (fun i => (Nat.max b (i * kc), Nat.min e (i * kc + kc)))

/-- A scale byte error, or an agreed F that OUT_EXP cannot hold, stops the descriptor (R54, R60). -/
def Prod.scaleBad (p : Prod) : Bool :=
  p.a.bad || p.b.bad ||
    (List.range (ceilDiv p.m 8)).any (fun rb => (List.range (ceilDiv p.n 64)).any (fun et => decide (32767 < p.rowF (8 * rb) (64 * et))))

/-- Free values in the cells of a plan's panel, from a slot of the grant and a sub-slot (R54). -/
def freePanel (d : Dev) (j : Nat) (pl : Plan) (wide : Bool) (accBase subslot : Nat) : Dev :=
  let sh := shapeOf pl.shape
  d.forEach (List.range (pl.pm * pl.pn)) (fun d i =>
    let p := linSlot sh.x wide ((d.place j pl.blk).slot + accBase) (subslot + i)
    let no := d.freeNo
    { d.subCells (d.physOf j pl.blk) sh wide p.1 p.2 (fun m n =>
        let k := no + 2 * (m * sh.nt + n)
        (Config.freeWord k).toNat + (Config.freeWord (k + 1)).toNat * 2 ^ 32) with freeNo := no + 2 * (sh.mt * sh.nt) })

/-- Slots a plan's panel takes from ACC_BASE. -/
def Plan.slots (pl : Plan) (wide : Bool) (subslot : Nat) : Nat := slotsFor (shapeOf pl.shape).x wide subslot (pl.pm * pl.pn)

/-- Counts and status of a finished product flight (R68, R72, R73): `sats` output tiles that clamped. -/
def Dev.addConds (d : Dev) (f : Nat) (cs : List Nat) : Dev := d.modFlight f (fun y => { y with conds := y.conds ++ cs })

/-- The plan to report of a flight: the largest share's, the lowest block's among equals (R436). -/
def largestPlan (size : Plan → Nat) (pls : List Plan) : Option Plan :=
  pls.foldl (fun (b : Option Plan) p =>
    match b with
    | none => some p
    | some q => if size q < size p ∨ (size q = size p ∧ p.blk < q.blk) then some p else b) none

/-- RETILED, EFF_LOSS and the plan of a descriptor, and the job's re-tiling counters, when its plan is chosen (R142, R143,
R436): an `mma` is shared out by columns, a `conv` by rows, which the window path runs without a plan. -/
def reportPlans (d : Dev) (x : Flight) (plans : List Plan) : Dev :=
  let rt := plans.any (·.retiled)
  let loss := maxNat (plans.map (·.effLoss))
  let best := largestPlan (if x.opcode = 1 then (·.cols) else (·.rows)) plans
  let d1 := d.modFlight x.id (fun y => { y with retiled := rt, effLoss := loss, shape := (best.map (·.shape)).getD 0,
                                                pm := (best.map (·.pm)).getD 0, pn := (best.map (·.pn)).getD 0 })
  if rt then (d1.bump (O.RETILE_COUNT x.job)).raiseMax (O.RETILE_LOSS_MAX x.job) loss else d1

/-- Closes a flight: SCALE_RANGE_COUNT, status by precedence. The counters of every condition count (R73). -/
def closeFlight (d : Dev) (f : Nat) : Dev :=
  match d.flight f with
  | none => d
  | some x =>
    let d1 := if x.conds.contains stScale then d.bump (O.SCALE_RANGE_COUNT x.job) else d
    d1.finish f (statusOf x.conds)

/-- Where a product's tiles go: accumulator, panel base, initial value, output and its columns, K-blocks of the piece. -/
structure MatJob where
  wide : Bool
  accBase : Nat
  subslot : Nat
  init : Ref
  out : Ref
  ncols : Nat
  kb0 : Nat
  kb1 : Nat
  deriving DecidableEq, Repr, Inhabited

def MmaD.matJob (t : MmaD) : MatJob := ⟨t.wide, t.accBase, t.subslot, t.init, t.out, t.n, t.kbBase, t.kbEnd⟩

/-- The pieces of a product on one block. -/
def MatJob.pieces (m : MatJob) (pl : Plan) : List (Nat × Nat) := piecesOf pl.kc m.kb0 m.kb1

/-- K-loops still to run on a block, in order. -/
def loopsLeft (x : Flight) (pl : Plan) (m : MatJob) : List (Nat × Nat × Nat) :=
  (loopOrder pl (m.pieces pl).length).filter (fun t => !x.tiles.contains (pl.blk, pl.loopNo t))

/-- A sum chosen for the audit (R74): the low n bits of its generator word are zero. -/
def auditChosen (seed step tag tr tc n : Nat) : Bool :=
  decide (4 <= n ∧ n <= 20) && (genWord seed step tag tr tc 0xFFFFFFFF) % 2 ^ n == 0

/-- The audit will want output tile (tm, tn) of a share of an `mma`. -/
def auditWants (d : Dev) (x : Flight) (pl : Plan) (tm tn : Nat) : Bool :=
  let sh := shapeOf pl.shape
  x.opcode == 1 && (mmaD x.w).masterValid &&
    auditChosen (d.setting x 2) x.step x.tag (tm * sh.mt / 64) ((pl.col0 + tn * sh.nt) / 64) (d.setting x 5)

/-- Rows and columns of output tile (tm, tn) that hold elements. -/
def Prod.extent (p : Prod) (sh : Shape) (tm tn : Nat) : List Nat × List Nat :=
  (List.range (Nat.min sh.mt (p.m - tm * sh.mt)), List.range (Nat.min sh.nt (p.n - tn * sh.nt)))

/-- What the audit keeps of a tile when its first K-loop reads its initial value. -/
def auditOpen (p : Prod) (pl : Plan) (tm tn : Nat) : AuditPart :=
  let sh := shapeOf pl.shape
  let e := p.extent sh tm tn
  { tr := tm * sh.mt / 64, tc := (pl.col0 + tn * sh.nt) / 64, row := tm * sh.mt, col := tn * sh.nt, codes := [], fs := [],
    init := e.1.map (fun m => e.2.map (fun n => p.init (tm * sh.mt + m) (tn * sh.nt + n))),
    initExp := e.1.map (fun m => (p.initRow (tm * sh.mt + m) (tn * sh.nt)).exp) }

/-- What it keeps once the tile has drained. -/
def auditDrained (p : Prod) (sh : Shape) (tm tn : Nat) (o : TileOut) (a : AuditPart) : AuditPart :=
  let e := p.extent sh tm tn
  if a.row = tm * sh.mt ∧ a.tc = (p.col0 + tn * sh.nt) / 64 ∧ a.col = tn * sh.nt then
    { a with codes := e.1.map (fun m => e.2.map (fun n => o.val m n)), fs := e.1.map (fun m => (o.rows.getD m default).exp) }
  else a

/-- F of the row blocks that output tile (tm, tn) needs and no K-loop has needed before (R60). -/
def Prod.newF (p : Prod) (sh : Shape) (tm tn : Nat) : List (Nat × Nat × Int) :=
  if p.later then []
  else
    let et := tn * sh.nt / 64
    ((p.extent sh tm tn).1.map (fun m => (tm * sh.mt + m) / 8)).dedup.filterMap (fun rb =>
      if p.fix.any (fun q => q.1 == rb && q.2.1 == et) then none else some (rb, et, p.agree rb et))

/-- F agreed so far on a block: (row block, engine tile column, F). -/
def Flight.agreedOn (y : Flight) (lb : Nat) : List (Nat × Nat × Int) :=
  y.agreed.filterMap (fun a => if a.1 = lb then some a.2 else none)

/-- The end of a K-loop that stands (R68, R89, R95): the tile drains; that of the last piece is stored and counted. The
product `p` has its F; `fs` are those agreed for this loop. -/
def drainLoop (d : Dev) (x : Flight) (pl : Plan) (m : MatJob) (p : Prod) (keep : Bool) (fs : List (Nat × Nat × Int))
    (t : Nat × Nat × Nat) : Dev :=
  let sh := shapeOf pl.shape
  let last : Bool := t.1 + 1 == (m.pieces pl).length
  let o := p.tile sh t.2.1 t.2.2
  let voids := p.tileVoids sh t.2.1 t.2.2
  let aud := auditWants d x pl t.2.1 t.2.2
  let d1 := drainTile d x.job pl m.wide m.accBase m.subslot t.2.1 t.2.2 o
  let d2 := if m.out.kind = 2 || !last then d1 else storeTile d1 x.job pl m.out m.ncols t.2.1 t.2.2 o
  let d3 := (d2.countVoid x.job voids).modFlight x.id (fun y => { y with
    tiles := y.tiles ++ [(pl.blk, pl.loopNo t)]
    agreed := if keep then y.agreed ++ fs.map (fun q => (pl.blk, q)) else y.agreed
    audits :=
      let as := if aud && t.1 == 0 then y.audits ++ [auditOpen p pl t.2.1 t.2.2] else y.audits
      if aud && last then as.map (auditDrained p sh t.2.1 t.2.2 o) else as })
  let d4 := if voids = 0 then d3 else d3.addConds x.id [stVoid]
  if last && o.sat then
    let d5 := d4.bump (O.SAT_TILES x.job)
    if d.setting x 3 = 1 then d5.addConds x.id [stSat] else d5
  else d4

/-- One K-loop of a share (R61, R89, R94, R95): the initial value of the first piece is the descriptor's and that of a later
one the partial in its own slot, read as the loop starts; F is agreed when a row block is first needed, and one that OUT_EXP
cannot hold stops the descriptor; then the tile drains. -/
def matLoop (d : Dev) (x : Flight) (pl : Plan) (m : MatJob) (p : Prod) (t : Nat × Nat × Nat) : Dev :=
  match d.flight x.id with
  | none => d
  | some y =>
    let pc := nth (0, 0) (m.pieces pl) t.1
    let i := if t.1 = 0 then initOf d x.job pl m.init m.ncols else panelAcc d x.job pl m.wide m.accBase m.subslot
    let p1 := { p with kb0 := pc.1, kb1 := pc.2, hasInit := p.hasInit || decide (0 < t.1), init := i.val, initRow := i.row,
                       fix := y.agreedOn pl.blk }
    let fs := p1.newF (shapeOf pl.shape) t.2.1 t.2.2
    if y.conds.contains stScale then d
    else if fs.any (fun q => decide (32767 < q.2.2)) then d.addConds x.id [stScale]
    else drainLoop d x pl m { p1 with fix := p1.fix ++ fs } p.hasInit fs t

/-- Every operand segment of an `mma` can be read. -/
def mmaPoison (d : Dev) (t : MmaD) : Bool :=
  [t.a, t.b, t.init].any (fun r => d.refStatus r != 0) || (t.out.kind == 3 && (d.res t.out.seg).st == 3)

/-- Status a store into OUT meets (compressed, a directory), 0 for none (R269, R198). -/
def outStatus (d : Dev) (t : Ref) : Nat := if t.kind = 3 then d.segWriteStatus t.seg else 0

/-- Engine tiles of the output that the audit chooses and no master copy covers (R74). -/
def countNoMaster (d : Dev) (x : Flight) (master : Bool) (m n k : Nat) : Dev :=
  if master ∨ k = 0 then d
  else
    let c := ((List.range (ceilDiv m 64)).flatMap (fun i => (List.range (ceilDiv n 64)).map (fun jt => (i, jt)))).filter
      (fun p => auditChosen (d.setting x 2) x.step x.tag p.1 p.2 (d.setting x 5))
    if c.length = 0 then d else d.bumpN (O.AUDIT_NO_MASTER x.job) c.length

/-- Closes a product: one stopped under R54 leaves free values in the entries named as its output. -/
def closeMat (d : Dev) (x : Flight) (m : MatJob) : Dev :=
  match d.flight x.id with
  | none => d
  | some y =>
    closeFlight (if y.conds.contains stScale then
      d.forEach x.plans (fun d pl => freePanel d x.job pl m.wide m.accBase m.subslot) else d) x.id

/-- A product that stops with a status of its own. -/
def stopWith (d : Dev) (x : Flight) (m : MatJob) (st : Nat) : Dev := closeMat (d.addConds x.id [st]) x m

/-- Last part of an `mma` whose K-loops have all run: audit counts, status. -/
def mmaClose (d : Dev) (x : Flight) : Dev :=
  let t := mmaD x.w
  closeMat (countNoMaster d x t.masterValid t.m t.n t.k) x t.matJob

/-- Runs K-loops of a share in order. -/
def matLoops (x : Flight) (pl : Plan) (m : MatJob) (p : Prod) : List (Nat × Nat × Nat) → Dev → Dev
  | [], d => d
  | t :: ts, d => matLoops x pl m p ts (matLoop d x pl m p t)

/-- What stops an `mma`: a poisoned operand, a store it may not make; before its first K-loop drains, a format error or an
agreed F out of range (R54, R60). -/
def mmaStop (d : Dev) (x : Flight) : Option Nat :=
  let t := mmaD x.w
  if mmaPoison d t then some stPoison
  else if outStatus d t.out ≠ 0 then some (outStatus d t.out)
  else if x.tiles.isEmpty && x.plans.any (fun pl => (mmaProd d x pl).scaleBad) then some stScale
  else none

/-- Runs an `mma`: every K-loop of every share that has not run, then the status. -/
def mmaRun (d : Dev) (x : Flight) : Dev :=
  let t := mmaD x.w
  match mmaStop d x with
  | some st => stopWith d x t.matJob st
  | none => mmaClose (d.forEach x.plans (fun d pl =>
      matLoops x pl t.matJob (mmaProd d x pl) (loopsLeft x pl t.matJob) d)) x

/-! ### Residue failures and the spare column (R97 to R100) -/

/-- What a residue schedule leads to: failures so far, and a column fault or a pass. -/
inductive ResidueEnd where
  | pass (retries : Nat)
  | fault (col : Nat) (fourth : Bool) (retries : Nat) (rest : List (List Nat))
  deriving DecidableEq, Repr

/-- The logical column a failure is attributed to (R97): entry `e` below 64 is the column of the cell that detected it; 64 + n
is the column merge tree of output column n, whose group's lowest column is h n (column n where no columns merge). -/
def blameColumn (sh : Shape) (e : Nat) : Nat := (if e < 64 then e else if sh.colMerge then sh.x * (e - 64) else e - 64) % 64

/-- Judges the successive runs of one K-loop: `seen` the columns recorded, `n` failing runs, `first` the first failure's
column, `k` retries counted (R99). Where a run repeats several recorded columns, or the first failure named several, the
lowest is the faulty one (log 121). -/
def judgeRuns : List (List Nat) → List Nat → Nat → Option Nat → Nat → ResidueEnd
  | [], _, _, _, k => .pass k
  | r :: rs, seen, n, first, k =>
    match r with
    | [] => .pass k
    | c :: cs =>
      let lo := cs.foldl Nat.min c
      let again := (c :: cs).filter (fun x => seen.contains x)
      match again with
      | a :: as => .fault (as.foldl Nat.min a) false k rs
      | [] =>
        if n = 3 then .fault (first.getD lo) true k rs
        else judgeRuns rs (seen ++ (c :: cs)) (n + 1) (some (first.getD lo)) (k + 1)

/-- Switches a logical column to the spare: the entries are copied, the map steers (R100). -/
def columnSwitch (d : Dev) (x : Flight) (b c : Nat) (fourth : Bool) : Dev :=
  let acc := d.forEach ((List.range 128).flatMap (fun s => (List.range 64).map (fun r => (s, r)))) (fun d p =>
    d.setMem (fun m => { m with acc := SMap.put 0 m.acc (accKey b p.1 p.2 64) (SMap.get 0 m.acc (accKey b p.1 p.2 c)) }))
  (((acc.dset (O.SPARE_COLUMN_MAP b) c).bump O.COLUMN_SWITCHES).eventJ 0x0102 2 0 (b + 256 * c) x.job x.step [BitVec.ofNat 8 (bool01 fourth)])

/-- Runs a K-loop's residue schedule in attributed columns: `true` when it ends in a block fault (a column fault with the
spare in use, R22). RESIDUE_RETRIES counts the re-runs after a failure; the first run after a switch is not one of them,
because R99 treats it as a first run (log 122). -/
def residueRun (x : Flight) (b : Nat) : Nat → List (List Nat) → Dev → Dev × Bool
  | 0, _, d => (d, false)
  | n + 1, runs, d =>
    match judgeRuns runs [] 0 none 0 with
    | .pass k => (if k = 0 then d else d.bumpN O.RESIDUE_RETRIES k, false)
    | .fault c fourth k rest =>
      let d1 := if k = 0 then d else d.bumpN O.RESIDUE_RETRIES k
      if d1.dget (O.SPARE_COLUMN_MAP b) ≠ 255 then (d1, true)
      else residueRun x b n rest (columnSwitch d1 x b c fourth)

/-- The residue schedule of a K-loop in a shape. -/
def residueLoop (d : Dev) (x : Flight) (b : Nat) (sh : Shape) (runs : List (List Nat)) : Dev × Bool :=
  residueRun x b (runs.length + 1) (runs.map (fun r => r.map (blameColumn sh))) d

/-! ### The shadow audit (R74, R75) -/

/-- The audit's product of a share: the master in place of the working copy, an A64 accumulator, and the initial value that
the tile's own K-loop read (R75). -/
def auditProd (d : Dev) (x : Flight) (pl : Plan) (parts : List AuditPart) : Prod :=
  let t := mmaD x.w
  let sh := shapeOf pl.shape
  let p := mmaProd d x pl
  let at2 := fun r c => (parts.find? (fun a => decide (a.row <= r ∧ r < a.row + sh.mt ∧ a.col <= c ∧ c < a.col + sh.nt))).getD default
  let q := { p with mag := 15 + fmtMag t.a.fmt, wide := true, grp := groupBlocks 3 sh.x,
                    init := fun r c => let a := at2 r c; nth 0 (nth [] a.init (r - a.row)) (c - a.col),
                    initRow := fun r c => let a := at2 r c; ⟨nth zeroRow a.initExp (r - a.row), false, true, false⟩ }
  if t.masterSide then { q with b := loadB d x.job pl.blk t.master t.k t.n pl.col0 pl.cols 0 0 false }
  else { q with a := loadA d x.job pl.blk t.master t.m t.k 0 0 false }

/-- d of one element: the audit value in units of the working row's 2^F, less the working code (log 29). -/
def auditDiff (q : Prod) (f work : Int) (r c : Nat) : Int :=
  let fa := q.agree (r / 8) (c / 64)
  let v := (q.elem fa r c).1
  let f' := if f = zeroRow then fa else f
  let av := if fa = zeroRow then 0 else if f' <= fa then v * 2 ^ (fa - f').toNat else shrRHE v (f' - fa).toNat
  av - work

/-- The differences of one drained output tile. -/
def AuditPart.diffs (q : Prod) (a : AuditPart) : List Int :=
  (a.codes.zip a.fs).zipIdx.flatMap (fun l =>
    l.1.1.zipIdx.map (fun c => auditDiff q l.1.2 c.1 (a.row + l.2) (a.col + c.2)))

/-- Adds one difference to the statistics. -/
def Stats.add (s : Stats) (v : Int) : Stats :=
  { s with n := s.n + 1, sum := s.sum + v, sq := s.sq + v.natAbs * v.natAbs, max := Nat.max s.max v.natAbs }

/-- Engine tile (tr, tc) of a share has drained: the last piece of every output tile that covers it has run. -/
def tileDrained (x : Flight) (pl : Plan) (m : MatJob) (tr tc : Nat) : Bool :=
  let sh := shapeOf pl.shape
  let q := (m.pieces pl).length - 1
  ((List.range pl.nm).filter (fun tm => tm * sh.mt / 64 == tr)).all (fun tm =>
    ((List.range pl.nn).filter (fun tn => (pl.col0 + tn * sh.nt) / 64 == tc)).all (fun tn =>
      x.tiles.contains (pl.blk, pl.loopNo (q, tm, tn))))

/-- The audit of engine tile (tr, tc), its residue retries counted. The manual gives no outcome for a master copy, or the
other operand, with a scale byte that is a format error: the tile is then not audited, and nothing reports it (log 29). -/
def auditTile (d : Dev) (x : Flight) (tr tc retries : Nat) : Dev :=
  let t := mmaD x.w
  match x.plans.find? (fun pl => decide (pl.col0 <= 64 * tc ∧ 64 * tc < pl.col0 + pl.cols)) with
  | none => d
  | some pl =>
    let parts := x.audits.filter (fun a => a.tr == tr && a.tc == tc)
    let q := auditProd d x pl parts
    if t.masterValid && decide (0 < t.k) && decide (64 * tr < t.m) && tileDrained x pl t.matJob tr tc && !parts.isEmpty &&
        !q.a.bad && !q.b.bad && d.segOk t.masterSeg && !x.results.contains (tr, tc, 0) then
      let es := parts.flatMap (AuditPart.diffs q)
      let d1 := d.modJob x.job (fun j => { j with audit := { es.foldl Stats.add j.audit with tiles := j.audit.tiles + 1 } })
      let d2 := d1.modFlight x.id (fun y => { y with results := y.results ++ [(tr, tc, 0)] })
      if retries = 0 then d2 else d2.bumpN O.AUDIT_RETRIES retries
    else d

/-- Mean and root mean square of the differences in units of 2^-u of theirs (log 29). -/
def Stats.mean (s : Stats) (u : Nat) : Int := if s.n = 0 then 0 else divRHE (s.sum * 2 ^ u) s.n
def Stats.rms (s : Stats) (u : Nat) : Nat := if s.n = 0 then 0 else isqrt (s.sq * 2 ^ (2 * u) / s.n)

/-- Publishes the audit statistics of a job at its step boundary (R79, R190): counters stop at their largest value. -/
def publishAudit (d : Dev) (j : Nat) : Dev :=
  let a := (d.job j).audit
  let b := (d.job j).stateAudit
  let put := fun (d : Dev) k v => d.dset k (Nat.min v (dictMax k))
  let s32c := fun (v : Int) => toUns 32 (clampI (-2147483648) 2147483647 v)
  let d1 := put (put (put (put d (O.AUDIT_TILES j) a.tiles) (O.AUDIT_ELEMENTS j) a.n) (O.AUDIT_DRIFT_RMS j) (a.rms 16))
    (O.AUDIT_DRIFT_MAX j) a.max
  let d2 := d1.dset (O.AUDIT_DRIFT_MEAN j) (s32c (a.mean 16))
  let d3 := put (put (put d2 (O.STATE_AUDIT_STEPS j) b.tiles) (O.STATE_DRIFT_RMS j) (b.rms 8)) (O.STATE_DRIFT_MAX j) b.max
  d3.dset (O.STATE_DRIFT_MEAN j) (s32c (b.mean 8))

/-- Bytes that an operand names in a block's OPB. -/
def opbRange (lb : Nat) (r : Ref) (n : Nat) (write : Bool) : List Range :=
  if r.kind = 1 then [Range.whole lb 1 r.off n write] else []

/-- Sub-slots that a product names on a block: its panel, and an initial value held in ACC as a panel like it (R95, R96). -/
def panelRanges (pl : Plan) (m : MatJob) : List Range :=
  subRanges pl.blk pl.shape m.wide m.accBase m.subslot (pl.pm * pl.pn) true ++
  (if m.init.kind = 2 then subRanges pl.blk pl.shape m.wide m.init.slot m.init.sub (pl.pm * pl.pn) false else [])

/-- The ranges an `mma` names on a block (R96). -/
def mmaRanges (x : Flight) : List Range :=
  let t := mmaD x.w
  x.plans.flatMap (fun pl =>
    panelRanges pl t.matJob ++
    opbRange pl.blk t.a (gridBytes t.a.fmt t.m t.k) false ++ opbRange pl.blk t.b (gridBytes t.b.fmt t.k t.n) false ++
    opbRange pl.blk t.init (gridBytes t.init.fmt t.m t.n) false ++ opbRange pl.blk t.out (gridBytes t.out.fmt t.m t.n) true ++
    (if t.a.kind = 3 ∨ t.b.kind = 3 then [Range.whole pl.blk 1 (t.opbBase * 1024) (t.opbLen * 1024) true] else []))

end Sys2Proof.Machine
end

