-- ==== Sys2Proof/Machine/Pages.lean ====
section
/-! DEFINITION. Page groups and page directories as bytes of segments (R191 to R198). -/

namespace Sys2Proof.Machine

/-- A directory header (R195). `veMax` is the raw byte. -/
structure DirHdr where
  len : Nat
  hkv : Nat
  dim : Nat
  qMax : Nat
  veMax : Nat
  pagesM1 : Nat
  gen : Nat
  deriving DecidableEq, Repr, Inhabited

def DirHdr.enc (h : DirHdr) : Bytes :=
  leBytes 64 (at' 0 25 h.len + at' 32 7 h.hkv + at' 40 2 h.dim + at' 48 7 h.qMax + at' 56 8 h.veMax + at' 64 16 h.pagesM1 +
    at' 96 32 h.gen)

def DirHdr.dec (w : Nat) : DirHdr := ⟨fld w 0 25, fld w 32 7, fld w 40 2, fld w 48 7, fld w 56 8, fld w 64 16, fld w 96 32⟩

def Dev.dirHdr (d : Dev) (dir : Nat) : DirHdr := DirHdr.dec (leAt (d.segRead dir 0 64) 0 64)

def Dev.putDirHdr (d : Dev) (dir : Nat) (h : DirHdr) : Dev := d.segWrite dir 0 h.enc

/-- A directory entry (R196). -/
structure DirEnt where
  seg : Nat
  valid : Bool
  shared : Bool
  masked : Bool
  deriving DecidableEq, Repr, Inhabited

def DirEnt.enc (e : DirEnt) : Bytes :=
  leBytes 8 (at' 0 19 e.seg + at' 19 1 (bool01 e.valid) + at' 20 1 (bool01 e.shared) + at' 21 1 (bool01 e.masked))

def DirEnt.dec (w : Nat) : DirEnt := ⟨fld w 0 19, bit w 19, bit w 20, bit w 21⟩

/-- Entry j; an entry beyond the capacity is not VALID. -/
def Dev.dirEnt (d : Dev) (dir j : Nat) : DirEnt :=
  if (d.dirHdr dir).pagesM1 < j then ⟨0, false, false, false⟩ else DirEnt.dec (leAt (d.segRead dir (64 + 8 * j) 8) 0 8)

def Dev.putDirEnt (d : Dev) (dir j : Nat) (e : DirEnt) : Dev := d.segWrite dir (64 + 8 * j) e.enc

/-- Offset of mask row q of group j (R194, R197). -/
def maskOff (h : DirHdr) (j q : Nat) : Nat := 64 + 8 * (h.pagesM1 + 1) + 32 * (h.qMax * j + q)

/-- Bytes a directory occupies (R194). -/
def dirBytes (qMax pagesM1 : Nat) : Nat := 64 + (8 + 32 * qMax) * (pagesM1 + 1)

/-- Dt of a header: D / 64. -/
def DirHdr.dt (h : DirHdr) : Nat := h.dim + 1

/-- Bytes of one head's page, and the segment length of a page group (R192, R193). -/
def pageBytes (dt : Nat) : Nat := 33280 * dt
def groupBytes (hkv dt : Nat) : Nat := Nat.max 65536 (hkv * pageBytes dt)

/-- Key tile (p, q), value tile (p, q) of head h of a page group: byte offset in the segment. -/
def keyTileOff (dt h p q : Nat) : Nat := h * pageBytes dt + (p * dt + q) * 4160
def valTileOff (dt h p q : Nat) : Nat := h * pageBytes dt + (4 * dt + p * dt + q) * 4160

/-- VE_MAX as an exponent, none for 0x80. -/
def DirHdr.ve (h : DirHdr) : Option Int := if h.veMax = 0x80 then none else some (toSgn 8 h.veMax)

/-- Raises VE_MAX. -/
def DirHdr.raise (h : DirHdr) (e : Int) : DirHdr :=
  match h.ve with
  | none => { h with veMax := toUns 8 e }
  | some v => if v < e then { h with veMax := toUns 8 e } else h

/-- Largest exponent among the value scale bytes of a page group (R218). -/
def groupVe (d : Dev) (seg hkv dt : Nat) : Option Int :=
  let bs := (List.range hkv).flatMap (fun h => (List.range (4 * dt)).flatMap (fun i =>
    d.segRead seg (valTileOff dt h 0 0 + i * 4160) 64))
  bs.foldl (fun (m : Option Int) b =>
    match scaleOf b.toNat with
    | .exp e => match m with | none => some e | some v => some (max v e)
    | _ => m) none

/-- A FREE that the module itself orders, behind the moves of the segment. -/
def ownFree (e : Nat) : Move := { (default : Move) with seg := e, op := 2 }

/-- The module frees a segment: at once, with pins once the last is released (STATE 4), and while it moves or moves of it
wait, behind them (R218, R267). -/
def Dev.freeOwned (d : Dev) (e : Nat) : Dev :=
  if (d.res e).st = 2 ∨ d.store.moves.any (fun m => m.seg == e) then d.setStore (fun s => { s with moves := s.moves ++ [ownFree e] })
  else if d.pinsOn e = 0 then d.freeSeg e
  else d.modRes e (fun r => { r with st := if r.st = 1 then 4 else r.st })

/-- Drops a directory reference to a page group; without references it is freed (R218). -/
def Dev.dropRef (d : Dev) (seg : Nat) : Dev :=
  let d1 := d.modRes seg (fun r => { r with refs := r.refs - 1 })
  if (d1.res seg).refs = 0 ∧ (d1.res seg).st ≠ 0 then d1.freeOwned seg else d1

def Dev.addRef (d : Dev) (seg : Nat) : Dev := d.modRes seg (fun r => { r with refs := r.refs + 1 })

/-! ### Operation lists (R429, R433) -/

/-- The reference of an operation list. -/
def listRef (x : Flight) : Ref := refAt x.w 128

/-- Operation record k of a list. -/
def listRec (d : Dev) (x : Flight) (k : Nat) : Nat := leAt (d.refBytes x.job x.target (listRef x) (16 * k) 16) 0 16

/-- The reference of a list: OPB or segment, raw bytes. -/
def listRefOk (x : Flight) (lo : Nat) : Bool :=
  let r := refAt x.w lo
  refOk x.w lo && (r.kind == 1 || r.kind == 3) && r.fmt == 6 && !r.tr

/-- The logical block that TARGET names is placed. -/
def targetOk (d : Dev) (x : Flight) : Bool := (d.place x.job x.target).phys.isSome

/-- A raw reference may be accessed now: the pin on its segment is granted (R260, R265). -/
def Dev.refReady (d : Dev) (r : Ref) (write : Bool) : Bool := r.kind != 3 || d.pinFree r.seg write

end Sys2Proof.Machine
end

