-- ==== Sys2Proof/Machine/Moves.lean ====
section
/-! DEFINITION. The `move` command (R262 to R268, R429): the issue check, accepting and judging its operations, the batch
pass, the commit, and what a poisoned, discarded or destroyed segment does to its moves (R278 to R280). -/

namespace Sys2Proof.Machine

def moveCount (x : Flight) : Nat := fld x.w 224 7
def moveBatch (x : Flight) : Bool := bit x.w 231
def resultRef (x : Flight) : Ref := refAt x.w 176

/-- The issue check of a `move`. -/
def issueMove (d : Dev) (x : Flight) : Issue :=
  if fld x.w 232 280 ≠ 0 ∨ x.flags ≠ 0 ∨ fld x.w 72 8 ≠ 0 ∨ x.round ≠ 0 ∨ !listRefOk x 128 ∨ !listRefOk x 176 ∨ 64 < moveCount x ∨
     !targetOk d x ∨ !d.refFits x.job (listRef x) (16 * moveCount x) ∨ !d.refFits x.job (resultRef x) (8 * moveCount x) then
    .reject stField
  else if moveCount x = 0 then .finished stOk
  else .go []

/-! ### Operation records (R429) -/

structure MoveOp where
  op : Nat
  compress : Bool
  transpose : Bool
  kind : Nat
  fmt : Nat
  tier : Nat
  home : Nat
  seg : Nat
  len64 : Nat
  tr : Nat
  tc : Nat
  deriving DecidableEq, Repr, Inhabited

def moveOp (v : Nat) : MoveOp :=
  { op := fld v 0 4, compress := bit v 4, transpose := bit v 5, kind := fld v 6 2, fmt := fld v 8 3, tier := fld v 11 1,
    home := fld v 12 4, seg := fld v 16 19, len64 := fld v 35 18, tr := fld v 64 16, tc := fld v 80 16 }

/-- An operation's own rules (R255, R262, R268): judged as it is accepted (log 52). -/
def moveOpOk (d : Dev) (j v : Nat) : Bool :=
  let o := moveOp v
  let r := d.res o.seg
  fld v 53 11 == 0 && fld v 96 32 == 0 && decide (1 <= o.op ∧ o.op <= 8) &&
  (if o.op = 1 then
     decide (1 <= o.len64 ∧ o.len64 <= 131072) && o.kind != 3 && o.fmt != 7 && (o.tier == 1 || decide (o.home < 12) || o.home == 15)
   else
     r.st != 0 && r.owner == j && (!(o.op == 3 || o.op == 5) || decide (o.home < 12) || o.home == 15) &&
     (!o.transpose || decide (o.op < 3) || decide (6 < o.op) ||
       (decide (r.fmt < 4) && o.tr * o.tc * tileBytes r.fmt == r.len)))

/-! ### The pin ledger (R261) -/

def Dev.ledgerCount (d : Dev) (j e : Nat) : Nat :=
  match d.store.ledger.find? (fun p => p.1 == j && p.2.1 == e) with
  | some p => p.2.2
  | none => 0

def Dev.setLedger (d : Dev) (j e n : Nat) : Dev :=
  d.setStore (fun s =>
    let rest := s.ledger.filter (fun p => !(p.1 == j && p.2.1 == e))
    { s with ledger := if n = 0 then rest else rest ++ [(j, e, n)] })

/-- Takes an explicit pin. -/
def Dev.ledgerPin (d : Dev) (j e : Nat) : Dev :=
  ((d.pinSeg e).setLedger j e (d.ledgerCount j e + 1)).bump (O.PINS_HELD j)

/-- Releases an explicit pin the job holds. -/
def Dev.ledgerUnpin (d : Dev) (j e : Nat) : Dev :=
  let d1 := (d.setLedger j e (d.ledgerCount j e - 1)).dset (O.PINS_HELD j) (d.dget (O.PINS_HELD j) - 1)
  d1.unpinSeg e

/-! ### Results (R263, R429) -/

/-- Closes a `move` whose every operation has its result, once RESULT may be written: RESULT, then the status. While a move of
RESULT's own segment is copying, the write waits for it (R263, R265, R267). -/
def moveClose (d : Dev) (x : Flight) : Dev :=
  let rs := (List.range (moveCount x)).map (fun k => ((x.results.find? (fun r => r.1 == k)).map (·.2)).getD (0, 0))
  let ff := if x.firstFail < 64 then x.firstFail else ((rs.findIdx? (fun r => r.1 != stOk)).getD 127)
  let st := if x.conds.contains stDiscard then stDiscard else (nth (stOk, 0) rs ff).1
  let r := resultRef x
  let wst := if r.kind = 3 then d.segWriteStatus r.seg else 0
  let bs := rs.flatMap (fun p => leBytes 8 (at' 0 8 p.1 + at' 8 19 p.2))
  if wst = 0 ∧ !d.refReady r true then d
  else
    let d1 := if wst = 0 then d.refWrite x.job x.target r 0 bs else d
    (d1.modFlight x.id (fun y => { y with firstFail := ff })).finish x.id (if wst = 0 then st else wst)

/-- A `move` every operation of which has ended. -/
def moveWhole (x : Flight) : Bool := x.opcode == 6 && x.live && x.started && x.results.length == moveCount x

/-- Closes the moves that waited to write RESULT. -/
def closeMoves (d : Dev) : Dev := d.forEach (d.sched.flights.filter moveWhole) moveClose

/-- Records the result of operation k. -/
def addResult (d : Dev) (f k st e : Nat) : Dev :=
  let d1 := d.modFlight f (fun y => { y with results := y.results ++ [(k, st, e)] })
  match d1.flight f with
  | none => d
  | some x =>
    let d2 := if st = stBusyPinned then d1.bump (O.BUSY_PINNED_COUNT x.job) else d1
    if x.results.length = moveCount x ∧ x.done.isNone then moveClose d2 x else d2

/-- A move ends with a status. -/
def endMove (d : Dev) (m : Move) (st : Nat) : Dev :=
  match m.of with
  | some (f, k) => addResult d f k st m.seg
  | none => d

/-! ### Waiting and active moves -/

def Dev.activeMove (d : Dev) (e : Nat) : Option Move := d.store.moves.find? (fun m => m.seg == e && m.active)
def Dev.waitingMoves (d : Dev) (e : Nat) : List Move := d.store.moves.filter (fun m => m.seg == e && !m.active)

/-- Takes a move out of the list. -/
def Dev.takeMove (d : Dev) (m : Move) : Dev := d.setStore (fun s => { s with moves := s.moves.erase m })

/-- Move counts among those waiting (QUEUED): all but a FREE that the module itself ordered. -/
def Move.counts (m : Move) : Bool := !(m.of == none && m.op == 2)

/-- One counted move fewer waits. -/
def Dev.unqueue (d : Dev) (m : Move) : Dev := d.modRes m.seg (fun r => { r with queued := r.queued - bool01 m.counts })

/-- Puts a move behind the others of its segment. -/
def Dev.queueMove (d : Dev) (m : Move) : Dev :=
  (d.setStore (fun s => { s with moves := s.moves ++ [{ m with active := false }] })).modRes m.seg (fun r => { r with queued := r.queued + 1 })

/-- Every waiting move of a segment ends with a status. -/
def dropWaiting (d : Dev) (e st : Nat) : Dev :=
  let ws := d.waitingMoves e
  let d1 := (d.setStore (fun s => { s with moves := s.moves.filter (fun m => !(m.seg == e && !m.active)) })).modRes e
    (fun r => { r with queued := 0 })
  d1.forEach ws (fun d m => endMove d m st)

/-- Abandons the active move of a segment: frames and charges of the destination are released, and a PROMOTE's own pin
(R262, R278 to R280). The entry takes state `ns`. -/
def abandonMove (d : Dev) (e ns st : Nat) : Dev :=
  match d.activeMove e with
  | none => d
  | some m =>
    let r := d.res e
    let d1 := (d.takeMove m).uncharge m.destTier r.owner m.destCharge
    let d2 := d1.setRes e { r with st := ns, destTier := 0, destHome := 0 }
    let d3 := if m.op = 3 ∧ 0 < d2.ledgerCount r.owner e then d2.ledgerUnpin r.owner e else d2
    endMove d3 m st

/-- Location of a segment's memory in an event (R474). -/
def segLocation (d : Dev) (e : Nat) : Nat :=
  let r := d.res e
  if r.tier = 0 then r.home else 32 + r.frame % 32

/-- A segment is poisoned (R278); `frame`: the frame at fault. -/
def poisonSeg (d : Dev) (e frame : Nat) : Dev :=
  let r := d.res e
  if r.st = 0 ∨ r.st = 3 then d
  else
    let loc := segLocation d e
    let d1 := if r.st = 2 then abandonMove d e 3 stPoison else d.modRes e (fun r => { r with st := 3 })
    (dropWaiting d1 e stPoison).event 0x0508 3 4 loc (leBytes 3 e ++ leBytes 4 frame)

/-! ### Judging a move at the head (R262 to R266, R276) -/

inductive Judged where
  | done (d : Dev) (st : Nat)
  | copy (d : Dev)
  | wait

/-- Home number and compression the move leads to; no home when every stack of the partition is out. -/
def moveDest (d : Dev) (m : Move) : Option Nat × Bool :=
  let r := d.res m.seg
  match m.op with
  | 4 => (some 12, m.compress && r.kind == 0 && decide (r.fmt < 4))
  | 6 => (some r.homeNo, r.comp)
  | _ => (if m.home = 15 then (if r.tier = 0 ∧ m.op = 3 then some r.home else d.anyStack r.owner) else some m.home, false)

/-- RESERVE: frames and quota of the destination; STATE 2 until the commit (R265, R274). -/
def startCopy (d : Dev) (m : Move) (home : Nat) (comp : Bool) : Judged :=
  let r := d.res m.seg
  let l := r.len + (if comp then 64 * tileCount r.fmt r.len else 0)
  let t := if home < 12 then 0 else 1
  let d1 := d.setRes m.seg { r with st := 2, destTier := t, destHome := if home < 12 then home else 0 }
  match reserve d1 r.owner home l with
  | .fail d2 st => .done (d2.modRes m.seg (fun r => { r with st := 1, destTier := 0, destHome := 0 })) st
  | .ok d2 f =>
    let m' := { m with
      active := true, drain := false, compress := comp, destTier := t, destHome := if home < 12 then home else 0, destFrame := f,
      destFrames := ceilDiv l 4096, destCharge := l }
    .copy ((d2.charge t r.owner l).setStore (fun s => { s with moves := s.moves ++ [m'] }))

/-- A copying operation: at its home already it is done without a copy, unless it transposes (R264). -/
def judgeCopy (d : Dev) (m : Move) : Judged :=
  let r := d.res m.seg
  match moveDest d m with
  | (none, _) => .done d stNoSpace
  | (some h, comp) => if m.op ≠ 6 ∧ !m.transpose ∧ h = r.homeNo ∧ comp = r.comp then .done d stOk else startCopy d m h comp

/-- Judges a move against the entry as it stands (R262). A fast segment that a PROMOTE names goes to the named stack
(log 51). A FREE that the module itself ordered leaves a pinned group freeing. -/
def judgeMove (d : Dev) (m : Move) : Judged :=
  let r := d.res m.seg
  let busy := decide (0 < d.pinsOn m.seg)
  let full := decide (4096 <= d.dget (O.PINS_HELD r.owner))
  if r.st = 0 then .done d stField
  else
    match m.op with
    | 2 =>
      if busy then (if m.of = none ∧ r.refs = 0 ∧ r.st = 1 then .done (d.modRes m.seg (fun r => { r with st := 4 })) stOk else .done d stBusyPinned)
      else if 0 < r.refs then .done d stPageLocked
      else .done ((dropWaiting d m.seg stField).freeSeg m.seg) stOk
    | 7 => if full then .done d stQuota else if !d.pinFree m.seg false then .wait else .done (d.ledgerPin r.owner m.seg) stOk
    | 8 => if d.ledgerCount r.owner m.seg = 0 then .done d stField else .done (d.ledgerUnpin r.owner m.seg) stOk
    | 3 =>
      if r.st = 3 then .done d stPoison
      else if r.st = 4 then .done d stField
      else if full then .done d stQuota
      else if !d.pinFree m.seg false then .wait
      else
        match judgeCopy (d.ledgerPin r.owner m.seg) m with
        | .done d1 st => .done (if st = stOk then d1 else d1.ledgerUnpin r.owner m.seg) st
        | j => j
    | op =>
      if r.st = 3 then .done d stPoison
      else if r.st = 4 ∨ (op = 5 ∧ r.tier = 1) then .done d stField
      else if op ≠ 6 ∧ busy then .done d stBusyPinned
      else judgeCopy d m

/-! ### Accepting operations (R262, R263, R266) -/

/-- Tries operation k: its result when it ends at once. -/
def tryOp (d : Dev) (x : Flight) (k : Nat) : Dev × Option (Nat × Nat) :=
  let v := listRec d x k
  let o := moveOp v
  if !moveOpOk d x.job v then (d, some (stField, if o.op = 1 then 0 else o.seg))
  else if o.op = 1 then
    let a := d.alloc x.job o.tier o.home o.len64 o.fmt o.kind
    (a.1, some (a.2.1, a.2.2))
  else
    let m : Move := { (default : Move) with
      seg := o.seg, of := some (x.id, k), op := o.op, compress := o.compress, transpose := o.transpose, home := o.home,
      tr := o.tr, tc := o.tc }
    let r := d.res o.seg
    if r.st = 2 ∨ !(d.waitingMoves o.seg).isEmpty then
      if 15 <= r.queued then (d, some (stQueueFull, o.seg)) else (d.queueMove m, none)
    else
      match judgeMove d m with
      | .done d1 st => (d1, some (st, o.seg))
      | .copy d1 => (d1, none)
      | .wait => (d.queueMove m, none)

/-- One operation of its own. -/
def acceptOne (d : Dev) (x : Flight) (k : Nat) : Dev :=
  match tryOp d x k with
  | (d1, some (st, e)) => addResult d1 x.id k st e
  | (d1, none) => d1

/-- The batch pass: every operation tried on the entries as the earlier accepted ones leave them; one that fails changes
nothing. Also counts the reservations that failed (ALLOC_FAILS). -/
def batchPass (d0 : Dev) (x : Flight) : Dev × List (Nat × Option (Nat × Nat)) × Nat :=
  let fails := fun (d : Dev) => d.dget (O.ALLOC_FAILS x.job)
  (List.range (moveCount x)).foldl (fun (acc : Dev × List (Nat × Option (Nat × Nat)) × Nat) k =>
    match tryOp acc.1 x k with
    | (d1, some (st, e)) =>
      if st = stOk then (d1, acc.2.1 ++ [(k, some (st, e))], acc.2.2)
      else (acc.1, acc.2.1 ++ [(k, some (st, e))], acc.2.2 + (fails d1 - fails acc.1))
    | (d1, none) => (d1, acc.2.1 ++ [(k, none)], acc.2.2)) (d0, [], 0)

/-- Accepts all operations of a batch or none (R263). -/
def acceptBatch (d : Dev) (x : Flight) : Dev :=
  let p := batchPass d x
  let bad := p.2.1.filterMap (fun r => match r.2 with | some (st, _) => if st = stOk then none else some (r.1, st) | none => none)
  match bad with
  | [] =>
    p.1.forEach p.2.1 (fun d r => match r.2 with | some (st, e) => addResult d x.id r.1 st e | none => d)
  | (k0, st0) :: _ =>
    let rs := p.2.1.map (fun r =>
      let o := moveOp (listRec d x r.1)
      let e := if o.op = 1 then 0 else o.seg
      match r.2 with
      | some (st, _) => if st = stOk then (r.1, st0, e) else (r.1, st, e)
      | none => (r.1, st0, e))
    let n := (bad.filter (fun b => b.2 == stBusyPinned)).length
    let d0 := if p.2.2 = 0 then d else d.bumpN (O.ALLOC_FAILS x.job) p.2.2
    let d1 := (if n = 0 then d0 else d0.bumpN (O.BUSY_PINNED_COUNT x.job) n).modFlight x.id
      (fun y => { y with results := rs, firstFail := k0 })
    match d1.flight x.id with
    | some y => moveClose d1 y
    | none => d1

/-- Operations of a flight already taken: results, and moves that wait or run. -/
def acceptedOps (d : Dev) (x : Flight) : Nat :=
  x.results.length + (d.store.moves.filter (fun m => match m.of with | some (f, _) => f == x.id | none => false)).length

/-- Accepts operation k of a `move`, in list order; a batch is taken whole at its first operation. -/
def acceptMove (op f k : Nat) (d : Dev) : Dev :=
  match d.flight f with
  | none => d
  | some x =>
    if x.opcode ≠ 6 ∨ x.live = false ∨ acceptedOps d x ≠ k ∨ moveCount x <= k ∨ !d.refReady (listRef x) false then d
    else if d.refStatus (listRef x) ≠ 0 then
      (poisonSeg d (listRef x).seg (d.res (listRef x).seg).frame).finish f stPoison
    else
      let c := fld (listRec d x k) 0 4
      if c ≠ op ∧ decide (1 <= c ∧ c <= 8) = true then d
      else if moveBatch x then acceptBatch (d.start f) { x with started := true }
      else acceptOne (d.start f) { x with started := true } k

/-- The first waiting move of a segment reaches the head and is judged; a RELOCATE goes behind moves of other kinds
(R266). -/
def moveHead (e : Nat) (d : Dev) : Dev :=
  if (d.activeMove e).isSome then d
  else
    let ws := d.waitingMoves e
    let next := match ws.find? (fun m => m.op != 6) with
      | some m => some m
      | none => ws.head?
    match next with
    | none => d
    | some m =>
      let d1 := (d.takeMove m).unqueue m
      match judgeMove d1 m with
      | .done d2 st => endMove d2 m st
      | .copy d2 => d2
      | .wait => d

/-- MOVE_QUEUE_HEAD (R266). -/
def execMoveQueueHead (seg : Nat) (s : State) : Host.Outcome State Fault Refusal := .next { s with dev := moveHead seg s.dev }

/-! ### The commit (R265, R268, R274) -/

/-- The grid TR x TC, transposed tile by tile into TC x TR (R268). -/
def transposeGrid (f tr tc : Nat) (bs : Bytes) : Bytes :=
  let sz := tileBytes f
  (List.range tc).flatMap (fun b => (List.range tr).flatMap (fun a =>
    transposeTile f ((bs.drop ((a * tc + b) * sz)).take sz).toArray))

/-- Puts the data at its destination: entry switched, source frames released; answers the final charge. -/
def landMove (d : Dev) (m : Move) (r : Res) : Dev × Nat :=
  let home := if m.destTier = 0 then m.destHome else 12
  if !m.transpose ∧ m.compress = r.comp then
    (d.switchFrames m.seg home m.destFrame r.frames, if r.comp then SMap.get 0 d.store.charge (chargeKey r.tier m.seg) else r.len)
  else
    let raw := (d.segAll m.seg).getD []
    let data := if m.transpose then transposeGrid r.fmt m.tr m.tc raw else raw
    let out := if m.compress then (encodeAll r.fmt data).flatten else data
    let n := if m.compress then Nat.max 1 (ceilDiv out.length 4096) else ceilDiv r.len 4096
    let d1 := (d.frameErase r.homeNo r.frame r.frames).frameWrite home m.destFrame 0 out
    (d1.modRes m.seg (fun r => { r with
      tier := m.destTier, home := m.destHome, frame := m.destFrame, frames := n, comp := m.compress }),
     out.length)

/-- The commit of an active move whose copy is good. -/
def commitMove (d : Dev) (m : Move) : Dev :=
  let r := d.res m.seg
  let (d1, final) := landMove d m r
  let d2 := ((d1.takeMove m).uncharge m.destTier r.owner m.destCharge).setCharge r.tier m.seg r.owner 0
  let d3 := (d2.setCharge m.destTier m.seg r.owner final).modRes m.seg (fun r => { r with
    st := 1, comp := m.compress, destTier := 0, destHome := 0 })
  let d4 := (if m.of = none ∧ m.op = 6 then d3.bump O.RELOCATIONS else d3).bump (O.MOVES_DONE r.owner)
  let d5 := if m.compress then d4.bumpN (O.CODEC_SAVED r.owner) (r.len - final) else d4
  let d6 := match m.of with
    | some (f, _) => d5.modFlight f (fun x => { x with lasting := true })
    | none => d5
  closeMoves (endMove d6 m stOk)

/-- Pins that hold a commit back: all but a PROMOTE's own (R265). -/
def commitPins (d : Dev) (m : Move) : Nat := d.pinsOn m.seg - (if m.op = 3 then 1 else 0)

/-- MOVE_COMMIT of a segment's move (R265): while write pins are held the copy has not begun; once it is done, a stored tile
that fails its check poisons the segment (R273); the commit waits for read pins in DRAIN, in which every new pin waits. -/
def moveCommit (e : Nat) (d : Dev) : Dev :=
  match d.activeMove e with
  | none => d
  | some m =>
    if 0 < (d.res e).wpin then d
    else if !d.segOk e then poisonSeg d e (d.res e).frame
    else if 0 < commitPins d m then
      d.setStore (fun s => { s with moves := updFirst (fun n => n == m) (fun n => { n with drain := true }) s.moves })
    else commitMove d m

end Sys2Proof.Machine
end

