-- ==== Sys2Proof/Machine/Access.lean ====
section
/-! DEFINITION. The REQ messages that reach this module (R419 to R421, R440): remote writes and reads of segments,
doorbells and mailbox writes, and the order among the messages of one source. -/

namespace Sys2Proof.Machine

/-- The stamped identity of a message is the one a JOB_OWNER or MBOX_BIND word names in bits [21:0]. -/
def ownerIs (w : Nat) (h : Hdr) : Bool := fld w 0 15 == h.src && bit w 15 == h.srcHost && fld w 16 6 == h.sjob

/-- A message's layout (R419): body length by KIND, and a mailbox write that stays inside its channel. -/
def reqLayoutOk (m : Msg) : Bool :=
  match m.hdr.kind with
  | 0x10 => decide (80 ≤ m.body.length ∧ m.body.length ≤ 65488) && (m.body.length - 16) % 64 == 0
  | 0x12 => m.body.length == 16
  | 0x20 => m.body.length == 16
  | 0x30 =>
    let w := leAt m.body 0 8
    decide (fld w 12 5 ≤ 16 ∧ fld w 8 4 + fld w 12 5 ≤ 16) && m.body.length == 8 + 4 * fld w 12 5
  | _ => false

/-- Fields of SEG_WRITE and SEG_READ: segment, byte offset, bytes, TAG. -/
def segOf (m : Msg) : Nat := fld (leAt m.body 0 16) 0 19
def segOff (m : Msg) : Nat := 64 * fld (leAt m.body 0 16) 19 17
def segTag (m : Msg) : Nat := fld (leAt m.body 0 16) 64 16
def segCount (m : Msg) : Nat := 64 * fld (leAt m.body 0 16) 36 10

/-- The status of an access of `n` bytes, the first that applies (R420). -/
def segStatus (d : Dev) (m : Msg) (n : Nat) (write : Bool) : Nat :=
  let r := d.res (segOf m)
  let o := (d.job r.owner).owner
  if r.st = 0 then stField
  else if !bit o 22 || !ownerIs o m.hdr then stDenied
  else if n = 0 ∨ r.len < segOff m + n then stField
  else if r.st = 3 then stPoison
  else if write then d.segWriteStatus (segOf m)
  else stOk

/-- SEG_REPLY to the sender of `m`. -/
def segReply (d : Dev) (m : Msg) (st : Nat) (data : Bytes) : Dev :=
  let d1 := if st = stDenied then d.bump O.SEG_DENIED else d
  d1.sendMsg 1 0x11 m.hdr.src m.hdr.srcHost 0 0 none (leBytes 8 (at' 0 8 st + at' 16 16 (segTag m)) ++ data)

/-- SEG_WRITE; none while its write pin waits (R260): for a commit (R265, R267), an evacuation (R31), or a pin released. -/
def segWriteMsg (d : Dev) (m : Msg) : Option Dev :=
  let data := m.body.drop 16
  let st := segStatus d m data.length true
  let e := segOf m
  if st ≠ stOk then
    if st ≠ stDenied ∧ st ≠ stField ∧ st ≠ stPoison ∧ ((d.res e).st = 2 ∨ d.store.evacuating.contains e) then none
    else some (segReply d m st [])
  else if !d.pinFree e true then none
  else some (segReply ((d.segWrite e (segOff m) data).touch e) m stOk [])

/-- SEG_READ; none while its read pin waits (R260). A failed check of a stored tile poisons it (R273). -/
def segReadMsg (d : Dev) (m : Msg) : Option Dev :=
  let n := segCount m
  let st := segStatus d m n false
  let e := segOf m
  if st ≠ stOk then some (segReply d m st [])
  else if !d.pinFree e false then none
  else if !d.segOk e then some (segReply (poisonSeg d e (d.res e).frame) m stPoison [])
  else some (segReply (d.touch e) m stOk (d.segRead e (segOff m) n))

/-! ### Doorbells (R421) -/

/-- Distance from one free-running index to another (R417). -/
def idxDist (a b : Nat) : Nat := (b + 2 ^ 32 - a) % 2 ^ 32

def doorbellOk (d : Dev) (m : Msg) : Bool :=
  let w := leAt m.body 0 16
  let j := fld w 0 6
  let q := fld w 6 2
  let depth := nth 0 (d.job j).depths q
  bit (d.job j).owner 22 && ownerIs (d.job j).owner m.hdr &&
  (d.dget (O.JOB_STATE j) == 1 || d.dget (O.JOB_STATE j) == 2) && depth != 0 &&
  decide (idxDist (d.dget (O.QUEUE_TAIL j q)) (fld w 32 32) ≤
    idxDist (d.dget (O.QUEUE_TAIL j q)) ((d.dget (O.QUEUE_HEAD j q) + depth) % 2 ^ 32)) &&
  (!bit w 8 || decide (idxDist (d.dget (O.COMPL_HEAD j q)) (fld w 64 32) ≤
    idxDist (d.dget (O.COMPL_HEAD j q)) (d.dget (O.COMPL_TAIL j q))))

/-- A doorbell as it takes effect. -/
def doorbellNow (d : Dev) (m : Msg) : Dev :=
  let w := leAt m.body 0 16
  let j := fld w 0 6
  let q := fld w 6 2
  if !doorbellOk d m then d.bump O.DOORBELL_REJECTS
  else
    let d1 := d.dset (O.QUEUE_TAIL j q) (fld w 32 32)
    if bit w 8 then d1.dset (O.COMPL_HEAD j q) (fld w 64 32) else d1

/-- In Lull a doorbell is accepted and takes effect after the wake (R506). -/
def doorbellMsg (d : Dev) (m : Msg) : Dev :=
  if d.dget O.LULL_STATE = 0 then doorbellNow d m
  else { d with pow := { d.pow with deferred := d.pow.deferred ++ [m] } }

/-! ### Mailboxes (R440) -/

def Dev.mbox1 (d : Dev) (c : Nat) : Mbox := SMap.get Mbox.idle d.mbox c

def Dev.setMbox (d : Dev) (c : Nat) (m : Mbox) : Dev := { d with mbox := SMap.put Mbox.idle d.mbox c m }

/-- The sender a channel is bound to. -/
def bindSender (w : Nat) : Sender := ⟨fld w 0 15, bit w 15, fld w 16 6, fld w 22 8⟩

/-- Writes of `n` words from register `k` up. -/
def mboxWords (regs : SMap (BitVec 32)) (k n : Nat) (bs : Bytes) : SMap (BitVec 32) :=
  (List.range n).foldl (fun r i => SMap.put 0 r (k + i) (BitVec.ofNat 32 (leAt bs (4 * i) 4))) regs

def mboxMsg (d : Dev) (m : Msg) : Dev :=
  let w := leAt m.body 0 8
  let c := fld w 0 8
  let b := d.dget (O.MBOX_BIND c)
  let x := d.mbox1 c
  let ack := fun (d : Dev) (st : Nat) => d.sendMsg 1 0x31 m.hdr.src m.hdr.srcHost 0 0 none (leBytes 8 (at' 0 8 c + at' 8 8 st))
  if !bit b 36 || !ownerIs b m.hdr || fld b 22 8 != m.hdr.schan then ack (d.bump O.MBOX_DENIED) stDenied
  else if x.pending then ack (d.bump O.MBOX_BUSY_COUNT) stMboxBusy
  else
    ack (d.setMbox c ⟨mboxWords x.regs (fld w 8 4) (fld w 12 5) (m.body.drop 8), bit w 17⟩) stOk

/-! ### Order among the messages of one source (R420) -/

/-- One REQ message of the right layout; none: it must wait. -/
def reqTry (d : Dev) (m : Msg) : Option Dev :=
  match m.hdr.kind with
  | 0x10 => segWriteMsg d m
  | 0x12 => segReadMsg d m
  | 0x20 => some (doorbellMsg d m)
  | 0x30 => some (mboxMsg d m)
  | _ => some d

def sameSource (a b : Msg) : Bool := a.hdr.src == b.hdr.src && a.hdr.srcHost == b.hdr.srcHost

/-- A REQ message is processed, or waits behind those of its source that wait. -/
def takeReq (port : Nat) (m : Msg) (d : Dev) : Dev :=
  let wait := d.setStore (fun s => { s with held := s.held ++ [(port, m)] })
  if d.store.held.any (fun h => sameSource h.2 m) then wait
  else (reqTry d m).getD wait

/-- One waiting message is tried again, unless one of its source before it still waits. -/
def retryReq (p : Dev × List (Nat × Msg)) (h : Nat × Msg) : Dev × List (Nat × Msg) :=
  if p.2.any (fun g => sameSource g.2 h.2) then (p.1, p.2 ++ [h])
  else
    match reqTry p.1 h.2 with
    | some d => (d, p.2)
    | none => (p.1, p.2 ++ [h])

/-- Tries the waiting messages again, in order of arrival. -/
def redeliver (d : Dev) : Dev :=
  if d.store.held = [] then d
  else
    let r := d.store.held.foldl retryReq (d.setStore (fun s => { s with held := [] }), [])
    r.1.setStore (fun s => { s with held := r.2 })

end Sys2Proof.Machine
end

