-- ==== Sys2Proof/Machine/PageEdit.lean ====
section
/-! DEFINITION. `page-edit` (R218 to R220, R433): the issue check, the six operations, and the boundary at which the
pending operations on a directory are applied. -/

namespace Sys2Proof.Machine

/-- Operations of a `page-edit` descriptor. -/
def editCount (x : Flight) : Nat := fld x.w 176 7

/-- The issue check of a `page-edit`. -/
def issuePageEdit (d : Dev) (x : Flight) : Issue :=
  if fld x.w 183 329 ≠ 0 ∨ x.flags ≠ 0 ∨ fld x.w 72 8 ≠ 0 ∨ x.round ≠ 0 ∨ !listRefOk x 128 ∨ 64 < editCount x ∨
     !targetOk d x ∨ !d.refFits x.job (listRef x) (16 * editCount x) then .reject stField
  else if editCount x = 0 then .finished stOk
  else .go []

/-- Pending operations of a job. -/
def Dev.editsOf (d : Dev) (j : Nat) : List Edit := d.srv.edits.filter (fun e => e.job == j)

def Dev.setSrv (d : Dev) (f : Srv → Srv) : Dev := { d with srv := f d.srv }

/-- Operation k of a list as a pending edit, its mask rows read (R218). -/
def editOf (d : Dev) (x : Flight) (k : Nat) : Edit :=
  let v := listRec d x k
  let dir := fld v 4 19
  let op := fld v 0 4
  let arg := fld v 64 64
  { job := x.job, f := x.id, step := x.step, k := k, op := op, dir := dir, j := fld v 23 16, arg := arg, eff := 0,
    mask := if op = 5 then d.opbRead (d.physOf x.job x.target) (d.opbAddr x.job x.target (fld arg 0 21)) (32 * 64) else [] }

/-- Bits of a record that its operation does not use are zero (R433). -/
def editBitsOk (v : Nat) : Bool :=
  let n := match fld v 0 4 with | 1 => 57 | 2 => 19 | 4 => 25 | 5 => 21 | _ => 0
  fld v 39 25 == 0 && fld v (64 + n) (64 - n) == 0 && (fld v 0 4 != 1 || fld v 23 16 == 0) && (fld v 0 4 != 4 || fld v 23 16 == 0)

/-- Fields of an INIT. -/
def Edit.hdr (e : Edit) : DirHdr :=
  { len := fld e.arg 0 25, hkv := fld e.arg 25 7, dim := fld e.arg 32 2, qMax := fld e.arg 34 7, veMax := 0x80,
    pagesM1 := fld e.arg 41 16, gen := 0 }

/-- Directory references of every VALID entry are dropped: an INIT of a directory in use (log 50). -/
def dropDirRefs (d : Dev) (dir : Nat) : Dev :=
  if d.isDir dir then
    d.forEach (List.range ((d.dirHdr dir).pagesM1 + 1)) (fun d j =>
      let e := d.dirEnt dir j
      if e.valid then d.dropRef e.seg else d)
  else d

/-- A segment becomes a directory: header, entries and masks zero, lock set (R198, R218). -/
def newDir (d : Dev) (dir : Nat) (h : DirHdr) : Dev :=
  let d1 := d.modRes dir (fun r => { r with kind := 2, use := true })
  (d1.setStore (fun s => { s with dirs := if s.dirs.contains dir then s.dirs else s.dirs ++ [dir] })).segWrite dir 0
    (h.enc ++ List.replicate (dirBytes h.qMax h.pagesM1 - 64) 0)

/-- One operation applied to its directory (R218). -/
def applyEdit (d : Dev) (e : Edit) : Dev :=
  let h := d.dirHdr e.dir
  match e.op with
  | 1 =>
    let h := e.hdr
    newDir (dropDirRefs d e.dir) e.dir h
  | 2 =>
    let seg := fld e.arg 0 19
    let d1 := d.putDirEnt e.dir e.j { d.dirEnt e.dir e.j with seg := seg, valid := true }
    let h' := match groupVe d seg h.hkv h.dt with | some v => h.raise v | none => h
    (d1.addRef seg).putDirHdr e.dir h'
  | 3 =>
    let old := d.dirEnt e.dir e.j
    let d1 := d.putDirEnt e.dir e.j ⟨0, false, false, false⟩
    if old.valid then d1.dropRef old.seg else d1
  | 4 => d.putDirHdr e.dir { h with len := fld e.arg 0 25 }
  | 5 =>
    (d.segWrite e.dir (maskOff h e.j 0) (e.mask.take (32 * h.qMax))).putDirEnt e.dir e.j { d.dirEnt e.dir e.j with masked := true }
  | _ => d.putDirEnt e.dir e.j { d.dirEnt e.dir e.j with masked := false }

/-- Directory of cache c: word c of the stream's directory list. -/
def dirOf (d : Dev) (s : Stream) (c : Nat) : Nat := leAt (d.segRead s.dirList (4 * c) 4) 0 4 % 2 ^ 19

/-- A directory of a stream of some serving loop (R232). -/
def Dev.loopOwned (d : Dev) (dir : Nat) : Bool :=
  d.srv.loops.any (fun l => d.srv.streams.any (fun p => p.2.job == l.job && (decide (2 <= p.2.st) || (p.2.st == 1 && p.2.hasParent)) &&
    (List.range l.ncache).any (fun c => dirOf d p.2 c == dir)))

/-- The highest VALID entry plus one. -/
def Dev.dirTop (d : Dev) (dir : Nat) : Nat :=
  maxNat (((List.range ((d.dirHdr dir).pagesM1 + 1)).filter (fun j => (d.dirEnt dir j).valid)).map (fun j => j + 1))

/-- LEN that the command's own SET_LEN of a directory gives, the last in the list. -/
def ownSetLen (d : Dev) (x : Flight) (dir : Nat) : Option Nat :=
  ((List.range (editCount x)).map (listRec d x)).foldl (fun acc v =>
    if fld v 0 4 = 4 ∧ fld v 4 19 = dir then some (fld v 64 25) else acc) none

/-- The rule of an operation (R218), judged on the directory as every operation accepted before it leaves it. A MAP names a
segment of KIND 1, page group (R257; log 132). -/
def editRule (p : Dev) (x : Flight) (e : Edit) : Bool :=
  let h := p.dirHdr e.dir
  match e.op with
  | 1 =>
    let h := e.hdr
    ((p.res e.dir).st == 1 || (p.res e.dir).st == 2) && decide (dirBytes h.qMax h.pagesM1 <= (p.res e.dir).len) && decide (1 <= h.hkv ∧ h.hkv <= 64) &&
      decide (1 <= h.qMax ∧ h.qMax <= 64) && decide (h.hkv * pageBytes h.dt <= 8388608) && decide (h.len <= 16777216)
  | 2 =>
    let seg := fld e.arg 0 19
    p.isDir e.dir && decide (e.j <= h.pagesM1) && !(p.dirEnt e.dir e.j).valid && (p.res seg).st != 0 && (p.res seg).st != 4 &&
      (p.res seg).kind == 1 && !(p.res seg).comp && (p.res seg).len == groupBytes h.hkv h.dt
  | 3 =>
    let len := match ownSetLen p x e.dir with | some l => l | none => h.len
    p.isDir e.dir && decide (e.j <= h.pagesM1) && decide (len <= 256 * e.j)
  | 4 => p.isDir e.dir && decide (fld e.arg 0 25 <= 256 * p.dirTop e.dir) && decide (fld e.arg 0 25 <= 16777216)
  | 5 => p.isDir e.dir && decide (e.j <= h.pagesM1) && decide (fld e.arg 0 21 + 32 * h.qMax <= (p.job x.job).opb)
  | _ => p.isDir e.dir && decide (e.j <= h.pagesM1)

/-- The state with every pending operation applied. -/
def Dev.preview (d : Dev) : Dev := d.forEach d.srv.edits applyEdit

/-- Job and stage that own a cache (R219). -/
def Dev.cacheOwner (d : Dev) (dir : Nat) : Option (Nat × Nat) := (d.srv.caches.find? (fun c => c.1 == dir)).map (·.2)

/-- Descriptors of a stage that are issued and not decided. -/
def Dev.stageFlights (d : Dev) (j stage : Nat) : List Flight := d.sched.flights.filter (fun y => y.live && d.onStage j stage y)

/-- The step that a stage has in flight: the least of its descriptors' steps. -/
def Dev.stageNow (d : Dev) (j stage : Nat) : Option Nat :=
  match (d.stageFlights j stage).map (·.step) with
  | [] => none
  | s :: ss => some (ss.foldl Nat.min s)

/-- Step before which the operations of one command take effect on all its caches: the one after the latest that a stage
owning one of them has in flight; 0, at once, when none has (R219). -/
def editEff (d : Dev) (dirs : List Nat) : Nat :=
  maxNat (dirs.map (fun dir =>
    match (d.cacheOwner dir).bind (fun o => d.stageNow o.1 o.2) with
    | some s => s + 1
    | none => 0))

/-- The whole command of a pending operation has been accepted. -/
def Dev.editWhole (d : Dev) (e : Edit) : Bool :=
  match d.flight e.f with
  | some x => x.done.isSome
  | none => true

/-- An operation is due: its command is accepted whole, and the stage that owns the cache stands at the boundary of its step:
no descriptor of it of an earlier step remains, nor may one still come (R219). -/
def Dev.editDue (d : Dev) (e : Edit) : Bool :=
  d.editWhole e && (e.eff == 0 ||
    match d.cacheOwner e.dir with
    | none => true
    | some o =>
      !(d.stageFlights o.1 o.2).any (fun y => decide (y.step < e.eff)) &&
        (!d.sched.flights.any (fun y => y.job == o.1 && y.done.isNone && decide (y.step < e.eff)) ||
         d.sched.flights.any (fun y => d.onStage o.1 o.2 y && decide (e.eff <= y.step)) ||
         d.blk.stageDone.any (fun p => p.1 == o.1 && p.2.1 == o.2 && decide (e.eff <= p.2.2 + 1))))

/-- The pending operations on a directory that are due now, in order: none while a later one waits behind an earlier, nor
while a move keeps the directory's write pin back (R219, R267). -/
def dueEdits (d : Dev) (dir : Nat) : List Edit :=
  if d.pinFree dir true then (d.srv.edits.filter (fun e => e.dir == dir)).takeWhile d.editDue else []

/-- Operations on a directory take effect, oldest first; GEN rises once (R219). -/
def applyOps (d : Dev) (dir : Nat) (es : List Edit) : Dev :=
  let d1 := d.forEach es (fun d e => (applyEdit d e).bump (O.DIR_EDITS_APPLIED e.job))
  let h := d1.dirHdr dir
  (d1.putDirHdr dir { h with gen := (h.gen + 1) % 2 ^ 32 }).touch dir

/-- Applies some pending operations of a directory. -/
def applyEdits (d : Dev) (dir : Nat) (es : List Edit) : Dev :=
  if es = [] then d
  else
    let d1 := d.setSrv (fun s => { s with edits := s.edits.filter (fun e => !es.contains e) })
    applyOps (d1.forEach es (fun d e => d.markLasting e.job e.step)) dir es

/-- Applies the operations on a directory that are due. -/
def applyDir (d : Dev) (dir : Nat) : Dev := applyEdits d dir (dueEdits d dir)

/-- A whole command is refused: none of its operations stays, and it names the first that failed (R218, R436). -/
def editReject (d : Dev) (x : Flight) (k st : Nat) : Dev :=
  ((d.setSrv (fun s => { s with edits := s.edits.filter (fun e => e.f != x.id) })).modFlight x.id
    (fun y => { y with firstFail := k })).finish x.id st

/-- The status a broken rule gives: POISON or SEG_COMPRESSED of the directory's own segment come before FIELD_RANGE. -/
def editStatus (d : Dev) (e : Edit) : Nat :=
  if (d.res e.dir).st = 3 then stPoison else if (d.res e.dir).comp ∧ (d.res e.dir).st ≠ 0 then stComp else stField

/-- A list that cannot be read: its segment, where a stored tile fails its check, is poisoned (R273, R278). -/
def poisonList (d : Dev) (x : Flight) : Dev := let e := (listRef x).seg; poisonSeg d e (d.res e).frame

/-- Accepts operation k of a `page-edit`: the operations of a command are accepted in order, against the directories as
the operations pending before them leave them; the last one completes the command, whose operations then take their step and
are applied where they are due. -/
def acceptEdit (op f k : Nat) (d : Dev) : Dev :=
  match d.flight f with
  | none => d
  | some x =>
    let mine := d.srv.edits.filter (fun e => e.f == f)
    if x.opcode ≠ 10 ∨ x.live = false ∨ mine.length ≠ k ∨ editCount x <= k ∨ !d.refReady (listRef x) false then d
    else if d.refStatus (listRef x) ≠ 0 then editReject (poisonList d x) x 127 stPoison
    else if x.queue < 4 ∧ (List.range (editCount x)).any (fun i => d.loopOwned (fld (listRec d x i) 4 19)) then
      editReject d x k stPageLocked
    else if fld (listRec d x k) 0 4 ≠ op ∧ decide (1 <= fld (listRec d x k) 0 4 ∧ fld (listRec d x k) 0 4 <= 6) = true then d
    else if k = 0 ∧ 4096 < (d.editsOf x.job).length + editCount x then d
    else
      let e := editOf d x k
      let p := d.preview
      if fld (listRec d x k) 0 4 ≠ op ∨ !editBitsOk (listRec d x k) ∨ !editRule p x e ∨ (p.res e.dir).comp then
        editReject d x k (editStatus p e)
      else
        let d1 := (d.start f).setSrv (fun s => { s with edits := s.edits ++ [e] })
        if k + 1 = editCount x then
          let dirs := ((mine ++ [e]).map (·.dir)).dedup
          let eff := editEff d1 dirs
          ((d1.setSrv (fun s => { s with edits := s.edits.map (fun e => if e.f = f then { e with eff := eff } else e) })).finish f
            stOk).forEach dirs applyDir
        else d1

/-- PAGE_EDIT_APPLY (R219): the boundary of the stage that owns the cache. -/
def pageEditApply (dir : Nat) (d : Dev) : Dev := applyDir d dir

def execPageEditApply (dir : Nat) (s : State) : Host.Outcome State Fault Refusal := .next { s with dev := pageEditApply dir s.dev }

end Sys2Proof.Machine
end

