-- ==== Sys2Proof/Machine/Vector.lean ====
section
/-! DEFINITION. The vector engine (R102 to R130, R425): registers and row tags, the 30 instructions, waves, the window
load, box decoding, overlap suppression, loading a program and running one. -/

namespace Sys2Proof.Machine

/-! ### Registers (R102, R106) -/

/-- A row tag: exponent, SAT, VOID_SEEN. -/
structure Tag where
  exp : Int
  sat : Bool
  void : Bool
  deriving DecidableEq, Repr, Inhabited

/-- A register: 256 lanes and four row tags. -/
structure VReg where
  vals : Array Int
  tags : Array Tag
  deriving Repr, Inhabited

/-- Tag of a row that is zero because its register was cleared: R102 says zero, which is taken of the exponent too (log 123). -/
def Tag.zero : Tag := ⟨0, false, false⟩
def VReg.zero : VReg := ⟨Array.replicate 256 0, Array.replicate 4 Tag.zero⟩
def VReg.lane (r : VReg) (l : Nat) : Int := r.vals.getD l 0
def VReg.tag (r : VReg) (i : Nat) : Tag := r.tags.getD i Tag.zero

/-- A vector context: the vector it runs, V0 to V15, P0 to P3, VL. -/
structure VCtx where
  v : Nat
  regs : Array VReg
  preds : Array Nat
  vl : Nat
  deriving Repr, Inhabited

def VCtx.reg (c : VCtx) (i : Nat) : VReg := c.regs.getD i VReg.zero
def VCtx.pred (c : VCtx) (i : Nat) : Nat := c.preds.getD i 0

/-- All 256 lanes; the lanes of row r; the lanes below VL. -/
def allLanes : Nat := 2 ^ 256 - 1
def rowMask (r : Nat) : Nat := (2 ^ 64 - 1) * 2 ^ (64 * r)
def belowVl (vl : Nat) : Nat := 2 ^ vl - 1

/-- A context as it starts a vector: every register zero, P0 all ones. -/
def VCtx.start (v vl : Nat) : VCtx := ⟨v, Array.replicate 16 VReg.zero, #[allLanes, 0, 0, 0], vl⟩

/-! ### Descriptor fields (R425) -/

/-- Window geometry (R125). -/
structure Win where
  x0 : Nat
  y0 : Nat
  w : Nat
  h : Nat
  s : Nat
  p : Nat
  fh : Nat
  fw : Nat
  deriving DecidableEq, Repr, Inhabited

structure ElemD where
  load : Bool
  window : Bool
  ins : List Ref
  outs : List Ref
  program : Nat
  v : Nat
  vl : Nat
  /-- Byte offset of the parameter block. -/
  param : Nat
  win : Win
  deriving DecidableEq, Repr, Inhabited

def noRef : Ref := ⟨0, 0, false, 0, 0, 0, 0, 0⟩

def elemD (w : Nat) : ElemD :=
  let win := bit w 81
  { load := bit w 80, window := win,
    ins := [refAt w 128, refAt w 176, refAt w 224, if win then noRef else refAt w 272],
    outs := [refAt w 320, if win then noRef else refAt w 368],
    program := fld w 416 4, v := fld w 420 16, vl := fld w 436 9, param := fld w 445 14 * 128,
    win := ⟨fld w 272 16, fld w 288 16, fld w 304 16, fld w 368 16, fld w 384 5, fld w 389 4, fld w 393 5, fld w 398 5⟩ }

/-! ### A run -/

/-- What one descriptor's run carries beside the module's state: U0 to U3, counts, flags, the vectors STQ holds. -/
structure VRun where
  d : Dev
  u : Array VReg
  void : Nat
  dom : Nat
  empty : Nat
  clipped : Nat
  clipEv : Nat
  clipFirst : Option Bytes
  laneRange : Bool
  /-- Output tiles of whose row words this descriptor has set SAT in one (R68). -/
  sats : List Nat
  /-- STQ's held vectors: instruction index, vector, lanes (value, present). -/
  held : List (Nat × Nat × List (QVal × Bool))
  /-- Why the run ends early (FIELD_RANGE, SCALE_RANGE). -/
  stop : Option Nat

/-- Everything a run reads of its descriptor. -/
structure VEnv where
  job : Nat
  lb : Nat
  e : ElemD
  /-- Parameter blocks, one for each vector of a wave of the window form (R163), else one: value and exponent of each entry. -/
  pars : Array (Array (Int × Int))
  rnd : Rnd
  jobStoch : Bool
  thr : Nat

/-- Entry `k` of the parameter block that vector `v` reads (R112, R163). -/
def VEnv.par (e : VEnv) (v k : Nat) : Int × Int := (e.pars.getD (v % 8 % Nat.max 1 e.pars.size) #[]).getD k (0, 0)

def VRun.fail (r : VRun) (st : Nat) : VRun := if r.stop.isSome then r else { r with stop := some st }

/-- Instruction fields (R113). -/
def iOp (w : Nat) : Nat := fld w 26 6
def iVD (w : Nat) : Nat := fld w 22 4
def iVA (w : Nat) : Nat := fld w 18 4
def iVB (w : Nat) : Nat := fld w 14 4
def iPG (w : Nat) : Nat := fld w 12 2
def iMod (w : Nat) : Nat := fld w 0 12

/-! ### Checks at program load (R102, R107, R110, R113, R115, R119, R124, R127) -/

/-- The MOD bits an opcode defines. -/
def modMask (op : Nat) : Nat :=
  match op with
  | 0x01 => 3 | 0x02 => 3 | 0x03 => 0x7FF | 0x04 => 15 | 0x05 => 0xFFF | 0x06 => 3 | 0x07 => 3 | 0x08 => 1
  | 0x09 => 0x3FF | 0x0A => 0xFF | 0x10 => 0x7F | 0x11 => 0x7F | 0x14 => 0xFF | 0x15 => 7 | 0x17 => 0x1FF
  | 0x19 => 7 | 0x1A => 0x11C | 0x1B => 0x1FF | 0x1C => 7 | _ => 0

/-- An instruction word the load accepts. Fields a mnemonic does not use are not constrained but for MOD (log 31). -/
def wordOk (w : Nat) : Bool :=
  let op := iOp w
  let m := iMod w
  let vd := iVD w
  decide (op <= 0x1D) && m == Nat.land m (modMask op) &&
  (!(op == 0x15 || op == 0x06 || (op == 0x03 && bit m 10)) || decide (0 < vd)) &&
  (!(op == 0x15 || op == 0x06 || op == 0x03) || decide (vd < 4)) &&
  (!(op == 0x17 || op == 0x1A) || decide (fld m 2 3 <= 5)) && !(op == 0x17 && fld m 0 2 == 3) &&
  !(op == 0x15 && decide (5 < fld m 0 3)) && !(op == 0x19 && decide (5 < fld m 0 3)) && !(op == 0x09 && fld m 4 2 == 3) &&
  !((op == 0x10 || op == 0x11) && bit m 6 && bit m 5) && !(op == 0x1B && (m == 0 || decide (256 < m))) &&
  !(op == 0x1C && (decide (12 < vd) || decide (12 < iVA w) || decide (12 < iVB w)))

/-! ### Alignment (R116, R117) -/

/-- The larger exponent of live rows. -/
def fmax (a b : Int) : Int := max a b

/-- A lane brought from exponent `f` to exponent `t`; 32 places or more leave zero. -/
def toExp (v f t : Int) : Int :=
  if f = zeroRow then 0 else if t <= f then v else if 32 <= t - f then 0 else shrRHE v (t - f).toNat

/-- A tag that gathers the flags of its sources. -/
def Tag.or (f : Int) (a b : Tag) : Tag := ⟨f, a.sat || b.sat, a.void || b.void⟩

/-- A computed exponent: -32,768 marks a zero row, so a live row that reaches it lies out of range (R117). -/
def liveExp (e : Int) : Int := if e = zeroRow then zeroRow - 1 else e

/-- Writes a register: lanes whose predicate is false keep their code and rows without a written lane their tag; a row that
keeps a lane below VL keeps its flags with the new ones, because that lane's source contributes to it (R69, R106); results
clamp (SAT where a present lane does, or where `extra` says so); an exponent out of range zeroes the row and counts. -/
def putReg (r : VRun) (c : VCtx) (vd pm : Nat) (raw : List Int) (tags : List Tag) (extra : Nat → Bool) : VRun × VCtx :=
  let old := c.reg vd
  let act := Nat.land pm (belowVl c.vl)
  let rowF := fun i => (nth Tag.zero tags i)
  let bad := fun i => Nat.land pm (rowMask i) != 0 && (rowF i).exp != zeroRow && decide ((rowF i).exp < -32767 ∨ 32767 < (rowF i).exp)
  let vals := raw.zipIdx.map (fun p =>
    if bit pm p.2 then (if bad (p.2 / 64) then 0 else clampI (-laneMax) laneMax p.1) else old.lane p.2)
  let clampAt := fun i => (raw.zipIdx.any (fun p => p.2 / 64 == i && bit act p.2 &&
    (clampI (-laneMax) laneMax p.1 != p.1 || extra p.2)))
  let kept := fun i => Nat.land (belowVl c.vl - act) (rowMask i) != 0
  let nt := (List.range 4).map (fun i =>
    if Nat.land pm (rowMask i) = 0 then old.tag i
    else
      let t := if kept i then Tag.or (rowF i).exp (rowF i) (old.tag i) else rowF i
      { t with exp := if bad i then zeroRow else t.exp, sat := t.sat || clampAt i })
  let dom := ((List.range 4).filter (fun i => bad i && Nat.land act (rowMask i) != 0)).length
  ({ r with dom := r.dom + dom }, { c with regs := c.regs.set! vd ⟨vals.toArray, nt.toArray⟩ })

/-- Writes a predicate under the governing one; a destination of P0 never passes the load. -/
def putPred (c : VCtx) (k pm bits : Nat) : VCtx :=
  { c with preds := c.preds.set! k (Nat.lor (Nat.land bits pm) (c.pred k - Nat.land (c.pred k) pm)) }

/-- Lanes 0 to 255 from a function. -/
def lanes (f : Nat → Int) : List Int := (List.range 256).map f

/-- Mask of the lanes at which a test holds. -/
def maskOf (f : Nat → Bool) : Nat := (List.range 256).foldl (fun m l => if f l then m + 2 ^ l else m) 0

/-- Row by row aligned operation on two registers. -/
def binOp (a b : VReg) (fn : Nat → Int → Int → Int) : List Int × List Tag :=
  let ts := (List.range 4).map (fun i => Tag.or (fmax (a.tag i).exp (b.tag i).exp) (a.tag i) (b.tag i))
  (lanes (fun l =>
    let f := (nth Tag.zero ts (l / 64)).exp
    fn l (toExp (a.lane l) (a.tag (l / 64)).exp f) (toExp (b.lane l) (b.tag (l / 64)).exp f)), ts)

/-- Product of two registers: at Fa + Fb, or halved 32 times (MULH); a zero row gives a zero row. -/
def prodOp (a b : VReg) (high : Bool) : List Int × List Tag :=
  let live := fun i => (a.tag i).exp != zeroRow && (b.tag i).exp != zeroRow
  (lanes (fun l =>
    let p := if live (l / 64) then a.lane l * b.lane l else 0
    if high then shrRHE p 32 else p),
   (List.range 4).map (fun i =>
    Tag.or (if live i then liveExp ((a.tag i).exp + (b.tag i).exp + (if high then 32 else 0)) else zeroRow) (a.tag i) (b.tag i)))

/-- Row `i` of a register has a lane in `act`. -/
def rowIn (act i : Nat) : Bool := Nat.land act (rowMask i) != 0

/-- A register with the rows of each segment of `width` lanes brought to their largest exponent. Only rows with a lane in
`act` count, in exponent and in flags (R106, R108, R116); a segment without one keeps the largest exponent of its rows. -/
def segAlign (a : VReg) (width act : Nat) : VReg :=
  let g := Nat.max 1 (width / 64)
  let tg := fun i =>
    let rows := rangeFrom (i / g * g) g
    let on := rows.filter (rowIn act)
    let f := (if on.isEmpty then rows else on).foldl (fun f k => fmax f (a.tag k).exp) zeroRow
    on.foldl (fun (t : Tag) k => Tag.or f t (a.tag k)) ⟨f, false, false⟩
  ⟨(lanes (fun l => toExp (a.lane l) (a.tag (l / 64)).exp (tg (l / 64)).exp)).toArray, ((List.range 4).map tg).toArray⟩

/-! ### Inputs and outputs (R103, R391) -/

def VEnv.input (e : VEnv) (k : Nat) : Ref := nth noRef e.e.ins k
def VEnv.output (e : VEnv) (k : Nat) : Ref := nth noRef e.e.outs k
def VEnv.phys (e : VEnv) (d : Dev) : Nat := d.physOf e.job e.lb

/-- Where a row of an ACC reference lies: physical slot (the low word's), physical row, lane and row of its row word, and its
columns: column c at logical column `x * c + s`, for c below `n`. -/
structure AccRow where
  slot : Nat
  row : Nat
  lane : Nat
  wrow : Nat
  x : Nat
  s : Nat
  n : Nat
  deriving DecidableEq, Repr, Inhabited

/-- Instruction shape whose sub-slots an ACC reference names (R103): that of its PACK; without PACK, sub-slot 0 is the slot
itself, and another is a sub-slot of the shape that the slot was last drained in (log 38). -/
def Dev.refShape (d : Dev) (j lb : Nat) (r : Ref) : Nat :=
  if r.pack = 1 then 5 else if r.pack = 2 then 6 else if r.sub = 0 then 0
  else SMap.get 0 d.blk.slotShape (d.physOf j lb * 128 + (d.place j lb).slot + r.slot)

/-- The row `q` of an ACC reference (R103): its sub-slots in order, row by row. -/
def accRow (e : VEnv) (d : Dev) (r : Ref) (q : Nat) : AccRow :=
  let sh := shapeOf (d.refShape e.job e.lb r)
  let p := linSlot sh.x (r.fmt == 5) ((d.place e.job e.lb).slot + r.slot) (r.sub + q / sh.mt)
  let m := q % sh.mt
  let w := subRow sh p.2 m
  if sh.colMerge then ⟨p.1, m, w.1, w.2, sh.x, p.2, sh.nt⟩ else ⟨p.1, sh.x * m + p.2, w.1, w.2, 1, 0, 64⟩

/-- The sub-slot of an ACC reference exists in its shape. -/
def Dev.refSubOk (d : Dev) (j lb : Nat) (r : Ref) : Bool := decide (r.sub < (shapeOf (d.refShape j lb r)).x)

/-- Entry at column c of a row, 0 beyond its columns. -/
def Dev.accRowGet (d : Dev) (b : Nat) (p : AccRow) (c : Nat) : BitVec 32 :=
  if c < p.n then d.accGet b p.slot p.row (p.x * c + p.s) else 0

/-- Writes a row's entries: column c takes `f c` where that is some value. -/
def Dev.accRowPut (d : Dev) (b : Nat) (p : AccRow) (f : Nat → Option (BitVec 32)) : Dev :=
  d.writeRow b p.slot p.row (fun pc => if pc % p.x = p.s ∧ pc / p.x < p.n then f (pc / p.x) else none)

/-- Rows of the tile that each sub-slot of a packed descriptor holds; 0 where no ACC reference packs (R103). -/
def ElemD.packRows (t : ElemD) : Nat :=
  match (t.ins ++ t.outs).find? (fun r => r.kind == 2 && r.pack != 0) with
  | some r => if r.pack = 1 then 2 else 1
  | none => 0

/-- Engine tile and row within it of matrix row `q` of a tile operand: one column of tiles, or for an output of a packed
descriptor, whose rows go where each belongs in its own tile, one engine tile for each sub-slot (R103; log 124). -/
def tileRow (t : ElemD) (isOut : Bool) (q : Nat) : Nat × Nat :=
  if isOut ∧ t.packRows ≠ 0 then (q / t.packRows, q % t.packRows) else (q / 64, q % 64)

/-- A row of A64 codes narrowed by the fit rule (R119). -/
def narrowRow (codes : List Int) (f : Int) (present : Nat → Bool) : List Int × Int :=
  let vs := codes.zipIdx.map (fun p => FitVal.mk p.1 f (present p.2))
  let e := (fitRowExp vs).getD f
  (fitPlace vs e, e)

/-- One row loaded: 64 codes, its tag, reserved codes met, a scale byte that is an error. -/
structure RowIn where
  codes : List Int
  tag : Tag
  voids : Nat
  bad : Bool
  deriving Repr, Inhabited

/-- Row `q` of an ACC input; `present` lanes choose a narrowed row's exponent. -/
def loadAccRow (e : VEnv) (d : Dev) (r : Ref) (q : Nat) (present : Nat → Bool) : RowIn :=
  let p := accRow e d r q
  let b := e.phys d
  let w := d.rowGet b p.slot p.lane p.wrow
  if r.fmt = 5 then
    let hi := { p with slot := p.slot + 1 }
    let cs := (List.range 64).map (fun c => toSgn 64 ((d.accRowGet b p c).toNat + (d.accRowGet b hi c).toNat * 2 ^ 32))
    let n := narrowRow cs w.exp present
    ⟨n.1, ⟨n.2, w.sat, w.void⟩, 0, false⟩
  else ⟨(List.range 64).map (fun c => s32 (d.accRowGet b p c)), ⟨w.exp, w.sat, w.void⟩, 0, false⟩

/-- Elements of one row from (format, tile, row, column) places: exponent of the row under R116. A place is `none` where
nothing is loaded. -/
def gatherRow (f : Nat) (src : List (Option (Array Byte × Nat × Nat))) (present : Nat → Bool) : RowIn :=
  let sc := src.map (fun o => o.map (fun p => scaleOf (scaleByte p.1 (p.2.1 / 8) (p.2.2 / 8))))
  let bad := sc.any (fun o => o == some .bad)
  let es := sc.filterMap (fun o => match o with | some (.exp e) => some e | _ => none)
  let ex := match es with
    | [] => zeroRow
    | t :: ts =>
      let lo := ts.foldl min t
      let hi := ts.foldl max t
      if hi - lo <= 31 - (fmtMag f : Int) then lo else hi + (fmtMag f : Int) - 31
  let codes := (src.zip sc).map (fun p =>
    match p with
    | (some (t, r, c), some (.exp e)) =>
      let x := elemCode f t r c
      if ex <= e then x * 2 ^ (e - ex).toNat else shrRHE x (ex - e).toNat
    | _ => 0)
  let voids := (src.zipIdx.filter (fun p =>
    present p.2 && (match p.1 with | some (t, r, c) => elemVoid f t r c | none => false))).length
  ⟨codes, ⟨ex, false, decide (0 < voids)⟩, voids, bad⟩

/-- Row `q` of an OPB tile input. An A32 or A64 tile loads as ACC does, with its own row word (log 32). -/
def loadTileRow (e : VEnv) (d : Dev) (r : Ref) (q : Nat) (present : Nat → Bool) : RowIn :=
  let b := e.phys d
  let a := d.opbAddr e.job e.lb (r.off + q / 64 * tileBytes r.fmt)
  if isElemFmt r.fmt then
    let t := (d.opbTile b a r.fmt).toArray
    gatherRow r.fmt ((List.range 64).map (fun c => some (t, q % 64, c))) present
  else
    let t := (d.opbRead b a (tileBytes r.fmt)).toArray
    let w := accTileRow t (q % 64)
    let cs := (List.range 64).map (fun c => accTileVal r.fmt t (q % 64) c)
    if r.fmt = 5 then
      let n := narrowRow cs w.exp present
      ⟨n.1, ⟨n.2, w.sat, w.void⟩, 0, false⟩
    else ⟨cs, ⟨w.exp, w.sat, w.void⟩, 0, false⟩

/-- Puts four loaded rows into a register. -/
def putRows (r : VRun) (c : VCtx) (vd pm : Nat) (rows : List RowIn) : VRun × VCtx :=
  let r1 := { r with void := r.void + sumNat (rows.map (·.voids)) }
  let (r2, c2) := putReg r1 c vd pm (rows.flatMap (·.codes)) (rows.map (·.tag)) (fun _ => false)
  (if rows.any (·.bad) then r2.fail stScale else r2, c2)

/-- Window geometry's output width and the matrix row of lane `l` (R152, R164; log 33). -/
def Win.outW (w : Win) : Nat := if w.w + 2 * w.p < w.fw then 0 else (w.w + 2 * w.p - w.fw) / w.s + 1
def Win.pixel (w : Win) (l : Nat) : Nat := w.y0 * w.outW + w.x0 + l

/-- LDW (R126): lane l at column S (X0 + l) + dx - P and row S Y0 + dy - P of channel `v` of an image of `chans` channels. -/
def loadWindow (e : VEnv) (d : Dev) (r : Ref) (v dx dy : Nat) (act : Nat) : List RowIn × Nat :=
  let w := e.e.win
  let y : Int := w.s * w.y0 + dy - w.p
  let pos := fun l => ((w.s * (w.x0 + l) + dx : Nat) : Int) - w.p
  let inside := fun l => decide (0 <= y ∧ y < w.h ∧ 0 <= pos l ∧ pos l < w.w)
  let tcols := ceilDiv e.e.v 64
  let b := e.phys d
  let place := fun l =>
    if inside l then
      let q := y.toNat * w.w + (pos l).toNat
      let a := d.opbAddr e.job e.lb (r.off + (q / 64 * tcols + v / 64) * tileBytes r.fmt)
      some ((d.opbTile b a r.fmt).toArray, q % 64, v % 64)
    else none
  ((List.range 4).map (fun i => gatherRow r.fmt ((rangeFrom (64 * i) 64).map (fun l => if bit act l then place l else none))
    (fun c => bit act (64 * i + c))), maskOf inside)

/-! ### Stores -/

/-- Writes the present lanes of one row into an ACC or A32 tile output with its row word (R103, R106). -/
def storeRow (e : VEnv) (d : Dev) (r : Ref) (q : Nat) (t : Tag) (codes : List (Int × Bool)) : Dev :=
  let b := e.phys d
  let w : RowWord := ⟨t.exp, t.sat, false, t.void⟩
  if r.kind = 2 then
    let a := accRow e d r q
    let d1 := d.accRowPut b a (fun c =>
      let p := nth ((0 : Int), false) codes c
      if p.2 then some (BitVec.ofNat 32 (toUns 32 p.1)) else none)
    d1.rowPut b a.slot a.lane a.wrow w
  else
    let k := tileRow e.e true q
    let o := k.1 * tileBytes r.fmt
    let d1 := d.refWrite e.job e.lb r (o + 4 * k.2) (leBytes 4 w.enc.toNat)
    d1.forEach codes.zipIdx (fun d p =>
      if p.1.2 then d.refWrite e.job e.lb r (o + 256 + 4 * (64 * k.2 + p.2)) (leBytes 4 (toUns 32 p.1.1)) else d)

/-- Key of the output tile that row `q` lies in. -/
def outKey (e : VEnv) (d : Dev) (r : Ref) (q : Nat) : Nat :=
  if r.kind = 2 then
    let sh := shapeOf (d.refShape e.job e.lb r)
    2 * (64 * (d.place e.job e.lb).slot + 64 * r.slot + r.sub + q / sh.mt)
  else 2 * (r.off / 64 * 65536 + (tileRow e.e true q).1) + 1

/-- Sixty-four values of a scale block as the quantiser takes them, present or absent. -/
abbrev QBlock := List (QVal × Bool)

/-- Quantises the present values of a block: scale byte, codes in block order (`none` absent), clipped (R70, R123). -/
def quantPresent (f : Nat) (rnd : Nat → Int → Nat → Int) (given : Option Int) (vs : QBlock) : Nat × List (Option Int) × Nat :=
  let here := vs.zipIdx.filter (fun p => p.1.2)
  let q := quantBlock f (fun i => rnd (nth 0 (here.map (·.2)) i)) given (here.map (fun p => p.1.1))
  let place := (here.map (·.2)).zip q.2.1
  (q.1, (List.range vs.length).map (fun i => (place.find? (fun p => p.1 == i)).map (·.2)), q.2.2)

/-- The value bytes a scale block is written with: its present codes and what `old` holds elsewhere; an empty block (scale
0x80) is written with zeros (R53, R123). -/
def blockBytes (f scale : Nat) (codes : List (Option Int)) (old : Nat → Nat) : Bytes :=
  packCodes f (codes.zipIdx.map (fun p =>
    if scale = 0x80 then 0 else match p.1 with | some c => toUns (fmtBits f) c | none => old p.2))

/-- Writes one scale block (bi, bj) of an OPB tile: its scale byte to the tile and the shadow, its codes (R55, R85, R123). -/
def putBlock (d : Dev) (b a f bi bj : Nat) (scale : Nat) (codes : List (Option Int)) : Dev :=
  let x0 := 64 * (8 * bi + bj)
  let nb := 64 * fmtBits f / 8
  let t := (d.opbRead b a (tileBytes f)).toArray
  let d1 := d.opbWrite b (a + 64 + x0 * nb / 64)
    (blockBytes f scale codes (fun i => rawCode f t (8 * bi + i / 8) (8 * bj + i % 8)))
  let d2 := d1.opbWrite b (a + 8 * bi + bj) [BitVec.ofNat 8 scale]
  d2.setMem (fun m => { m with shadow := SMap.put 0 m.shadow (shadowKey b a + 8 * bi + bj) (BitVec.ofNat 8 scale) })

/-- Rounding of element (row, col) in the quantiser (R124). -/
def quantRnd (rn : Rnd) (stoch : Bool) (row col : Nat) (t : Int) (s : Nat) : Int :=
  if stoch then shrStoch t s (genWord rn.seed rn.step rn.tag row col 0xFFFFFFFD) else shrRHE t s

/-- Counts the clips of a block (R71): the event names OP_TAG, block row and column. -/
def VRun.clip (r : VRun) (e : VEnv) (bi bj n : Nat) : VRun :=
  let r1 := { r with clipped := r.clipped + n }
  if e.thr < n then
    { r1 with
      clipEv := r1.clipEv + 1,
      clipFirst := if r1.clipFirst.isSome then r1.clipFirst
        else some (leBytes 2 e.rnd.tag ++ leBytes 4 bi ++ leBytes 4 bj ++ leBytes 1 n) }
  else r1

/-- Quantises and stores one scale block at block coordinates (bi, bj) of a matrix of `tcols` tile columns; `v`: the vector
whose parameter block holds a given exponent. -/
def storeBlock (r : VRun) (e : VEnv) (o : Ref) (md tcols bi bj v : Nat) (vs : QBlock) : VRun :=
  if vs.all (fun p => !p.2) then r
  else
    let stoch := fld md 4 2 == 2 || (fld md 4 2 == 0 && e.jobStoch)
    let given := if bit md 3 then some (e.par v (fld md 6 4)).1 else none
    let q := quantPresent o.fmt (fun i => quantRnd e.rnd stoch (8 * bi + i / 8) (8 * bj + i % 8)) given vs
    let a := r.d.opbAddr e.job e.lb (o.off + (bi / 8 * tcols + bj / 8) * tileBytes o.fmt)
    ({ r with d := putBlock r.d (e.phys r.d) a o.fmt (bi % 8) (bj % 8) q.1 q.2.1 }).clip e bi bj q.2.2

/-- Stores the pair of vectors 2u and 2u + 1 that STQ held (R123): block row u of one column of tiles; of a packed
descriptor, the top rows of one tile for each sub-slot, tiles side by side (R103; log 124). -/
def flushPair (r : VRun) (e : VEnv) (pc u md : Nat) : VRun :=
  let half := fun v => (r.held.find? (fun h => h.1 == pc && h.2.1 == v)).map (·.2.2)
  let lo := half (2 * u)
  let hi := half (2 * u + 1)
  let absent : QVal × Bool := (⟨0, 0⟩, false)
  let at8 := fun row c => nth absent ((if row < 4 then lo else hi).getD []) (64 * (row % 4) + c)
  let o := e.output (fld md 0 1)
  let n := e.e.packRows
  let r1 :=
    if n = 0 then
      (List.range 8).foldl (fun r bj =>
        storeBlock r e o md 1 u bj (2 * u) ((List.range 64).map (fun i => at8 (i / 8) (8 * bj + i % 8)))) r
    else
      (List.range (8 / n)).foldl (fun r k =>
        (List.range 8).foldl (fun r bj =>
          storeBlock r e o md (8 * e.e.v) 0 (8 * (8 / n * u + k) + bj) (2 * u) ((List.range 64).map (fun i =>
            if i / 8 < n then at8 (n * k + i / 8) (8 * bj + i % 8) else absent))) r) r
  { r1 with held := r1.held.filter (fun h => !(h.1 == pc && h.2.1 / 2 == u)) }

/-- Stores a wave that STQ held in window mode (R164): pixels by channels. -/
def flushWave (r : VRun) (e : VEnv) (pc v0 md : Nat) : VRun :=
  let w := e.e.win
  let vec := fun v => ((r.held.find? (fun h => h.1 == pc && h.2.1 == v)).map (·.2.2)).getD []
  let absent : QVal × Bool := (⟨0, 0⟩, false)
  let p0 := w.pixel 0
  let bis := ((List.range 256).map (fun l => (p0 + l) / 8)).dedup
  let r1 := bis.foldl (fun r bi =>
    storeBlock r e (e.output (fld md 0 1)) md (ceilDiv e.e.v 64) bi (v0 / 8) v0 ((List.range 64).map (fun i =>
      let q := 8 * bi + i / 8
      if q < p0 then absent else nth absent (vec (v0 / 8 * 8 + i % 8)) (q - p0)))) r
  { r1 with held := r1.held.filter (fun h => h.1 != pc) }

/-! ### Box decoding and overlap suppression (R127, R129) -/

/-- A value num * 2^e. -/
def QVal.mul (a b : QVal) : QVal := ⟨a.num * b.num, a.e + b.e⟩
def QVal.add (a b : QVal) : QVal :=
  let e := min a.e b.e
  ⟨a.num * 2 ^ (a.e - e).toNat + b.num * 2 ^ (b.e - e).toNat, e⟩
def QVal.le (a b : QVal) : Bool := decide ((QVal.add a ⟨-b.num, b.e⟩).num <= 0)

/-- One axis of BOXD in one lane: the low and the high edge in Q16, exact until the one final rounding (log 34), and whether
EXP saturated. -/
def boxSide (dc dw c w vc vw lim hi : QVal) : Int × Int × Bool :=
  let mid := QVal.add c (QVal.mul (QVal.mul dc vc) w)
  let t := QVal.mul dw vw
  let arg := if QVal.le t lim then t else lim
  let ex := expLane arg.num arg.e
  let half := QVal.mul (QVal.mul w ⟨ex.1, -16⟩) ⟨1, -1⟩
  let q := fun (v : QVal) => clampI 0 (shiftRHE hi.num (-16 - hi.e)) (shiftRHE v.num (-16 - v.e))
  (q (QVal.add mid ⟨-half.num, half.e⟩), q (QVal.add mid half), ex.2)

/-- A lane as an exact value. -/
def VReg.q (r : VReg) (l : Nat) : QVal :=
  let f := (r.tag (l / 64)).exp
  if f = zeroRow then ⟨0, 0⟩ else ⟨r.lane l, f⟩

/-- BOXD over a vector: x1, y1, x2, y2 to VD to VD + 3. The sources of an x row are dx, dw, cx and w, those of a y row dy,
dh, cy and h (R106, R127). -/
def runBoxd (r : VRun) (c : VCtx) (e : VEnv) (w pm : Nat) : VRun × VCtx :=
  let m := fld (iMod w) 0 3
  let pv := fun i => let p := e.par c.v (m + i); (⟨p.1, p.2⟩ : QVal)
  let va := fun i => c.reg (iVA w + i)
  let vb := fun i => c.reg (iVB w + i)
  let side := fun k => (List.range 256).map (fun l =>
    boxSide ((va k).q l) ((va (k + 2)).q l) ((vb k).q l) ((vb (k + 2)).q l) (pv 0) (pv 1) (pv 2) (pv (3 + k)))
  let sides := [side 0, side 1]
  (List.range 4).foldl (fun (a : VRun × VCtx) i =>
    let k := i % 2
    let ls := nth [] sides k
    let tags := (List.range 4).map (fun t =>
      Tag.or (-16) (Tag.or (-16) ((va k).tag t) ((va (k + 2)).tag t)) (Tag.or (-16) ((vb k).tag t) ((vb (k + 2)).tag t)))
    putReg a.1 a.2 (iVD w + i) pm (ls.map (fun s => if i < 2 then s.1 else s.2.1)) tags
      (fun l => (nth (0, 0, false) ls l).2.2)) (r, c)

/-- A candidate of NMS: index, corners, score, class. -/
structure Cand where
  i : Nat
  x1 : Int
  y1 : Int
  x2 : Int
  y2 : Int
  score : Int
  cls : Int
  deriving DecidableEq, Repr, Inhabited

/-- Kept candidate `b` suppresses `a` at threshold T. -/
def suppresses (b a : Cand) (t : Nat) (byClass : Bool) : Bool :=
  let pos := fun (v : Int) => max v 0
  let inter := pos (min a.x2 b.x2 - max a.x1 b.x1) * pos (min a.y2 b.y2 - max a.y1 b.y1)
  let area := fun (c : Cand) => pos (c.x2 - c.x1) * pos (c.y2 - c.y1)
  decide (inter * 65536 > (t : Int) * (area a + area b - inter)) && (!byClass || a.cls == b.cls)

/-- Walks the sorted candidates, keeping at most `k`. -/
def nmsWalk (t k : Nat) (byClass : Bool) : List Cand → List Cand → List Cand
  | [], kept => kept
  | a :: rest, kept =>
    if k <= kept.length then kept
    else if kept.any (fun b => suppresses b a t byClass) then nmsWalk t k byClass rest kept
    else nmsWalk t k byClass rest (kept ++ [a])

/-- NMS: the candidate list at input 0 (log 35), count and indices to output 0. -/
def runNms (r : VRun) (e : VEnv) : VRun :=
  let pn := fun i => toUns 32 (e.par 0 i).1
  let src := e.input 0
  let out := e.output 0
  let opb := (r.d.job e.job).opb
  if src.kind ≠ 1 ∨ src.fmt ≠ 6 ∨ out.kind ≠ 1 ∨ out.fmt ≠ 6 ∨ opb < src.off + 327680 + 4 * pn 0 ∨
      opb < out.off + 4 + 2 * Nat.min (pn 0) (pn 1) then r.fail stField
  else
    let at3 := fun k i => toSgn 32 (leAt (r.d.refBytes e.job e.lb src (65536 * k + 4 * i) 4) 0 4)
    let cs := (List.range (pn 0)).map (fun i => Cand.mk i (at3 0 i) (at3 1 i) (at3 2 i) (at3 3 i) (at3 4 i) (at3 5 i))
    let sorted := sortBy (fun a b => decide (b.score < a.score) || (a.score == b.score && decide (a.i <= b.i))) cs
    let kept := nmsWalk (pn 2) (pn 1) (pn 3 != 0) sorted []
    { r with d := r.d.refWrite e.job e.lb out 0 (leBytes 4 kept.length ++ kept.flatMap (fun c => leBytes 2 c.i)) }

/-! ### The instructions (R115) -/

/-- Reduce operation: 0 add, 1 max, 2 min. -/
def redFold (op : Nat) (xs : List Int) : Int :=
  match xs with
  | [] => 0
  | x :: rest => rest.foldl (fun a b => if op = 0 then a + b else if op = 1 then max a b else min a b) x

/-- RED (R115): results per lane, then into U. -/
def runRed (r : VRun) (c : VCtx) (w pm : Nat) : VRun × VCtx :=
  let m := iMod w
  let width := 8 * 2 ^ fld m 2 3
  let op := fld m 0 2
  let bc := bit m 5
  let act := Nat.land pm (belowVl c.vl)
  let al := segAlign (c.reg (iVA w)) width act
  let segs := (List.range (256 / width)).map (fun s =>
    redFold op (((rangeFrom (s * width) width).filter (fun l => bit act l)).map al.lane))
  let raw := lanes (fun l => if bc || l % width == 0 then nth 0 segs (l / width) else 0)
  let tags := (List.range 4).map al.tag
  let (r1, c1) := putReg r c (iVD w) pm raw tags (fun _ => false)
  if bit m 8 then
    let sel := Nat.land act (maskOf (fun l => bc || l % width == 0))
    let k := fld m 6 2
    let u := r1.u.getD k VReg.zero
    let live := fun i => Nat.land sel (rowMask i) != 0
    let f := fun i => fmax (u.tag i).exp (tags.getD i Tag.zero).exp
    let comb := fun l =>
      let i := l / 64
      if live i then
        let old := toExp (u.lane l) (u.tag i).exp (f i)
        if bit sel l then redFold op [old, toExp (clampI (-laneMax) laneMax (nth 0 raw l)) (nth Tag.zero tags i).exp (f i)] else old
      else u.lane l
    let raws := lanes comb
    let nt := (List.range 4).map (fun i =>
      if live i then
        let t := Tag.or (f i) (u.tag i) (nth Tag.zero tags i)
        let k := (rangeFrom (64 * i) 64).any (fun l => bit sel l && clampI (-laneMax) laneMax (nth 0 raws l) != nth 0 raws l)
        { t with sat := t.sat || k }
      else u.tag i)
    ({ r1 with u := r1.u.set! k ⟨(raws.map (clampI (-laneMax) laneMax)).toArray, nt.toArray⟩ }, c1)
  else (r1, c1)

/-- XSUB (R121, R122). A segment wholly at or beyond VL is absent and not counted as empty (log 125). -/
def runXsub (r : VRun) (c : VCtx) (w : Nat) : VRun × VCtx :=
  let m := iMod w
  let width := 8 * 2 ^ fld m 2 3
  let a := c.reg (iVA w)
  let part := Nat.land (c.pred (iPG w)) (belowVl c.vl)
  let al := segAlign a width part
  let starts := ((List.range (256 / width)).map (· * width)).filter (fun s => decide (s < c.vl))
  let seg := fun s => (rangeFrom s width).filter (fun l => bit part l)
  let inf := fun l => bit m 8 && a.lane l == laneMax && (a.tag (l / 64)).sat
  let info := starts.map (fun s => (s, seg s))
  let old := c.reg (iVD w)
  let raw := lanes (fun l =>
    if c.vl <= l then old.lane l
    else
      let ls := nth [] (info.map (·.2)) (l / width)
      if bit part l then
        if ls.any inf then (if inf l then 0 else -laneMax)
        else al.lane l - redFold 1 (ls.map al.lane)
      else -laneMax)
  let tags := (List.range 4).map al.tag
  let p3 := sumNat ((info.filter (fun p => !p.2.isEmpty)).map (fun p => (2 ^ width - 1) * 2 ^ p.1))
  let (r1, c1) := putReg r c (iVD w) (belowVl c.vl) raw tags (fun _ => false)
  ({ r1 with empty := r1.empty + (info.filter (fun p => p.2.isEmpty)).length }, { c1 with preds := c1.preds.set! 3 p3 })

/-- LUT (R118 to R120). -/
def runLut (r : VRun) (c : VCtx) (w pm : Nat) : VRun × VCtx :=
  let a := c.reg (iVA w)
  let act := Nat.land pm (belowVl c.vl)
  let rows := (List.range 4).map (fun i =>
    lutRow (fld (iMod w) 0 3) ((rangeFrom (64 * i) 64).map (fun l => (a.lane l, bit act l))) (a.tag i).exp)
  let tags := rows.zipIdx.map (fun p =>
    let t := a.tag p.2
    (⟨p.1.exp, t.sat || p.1.sat, t.void⟩ : Tag))
  putReg { r with dom := r.dom + sumNat (rows.map (·.dom)) } c (iVD w) pm (rows.flatMap (·.codes)) tags (fun _ => false)

/-- SHR and SHL. -/
def runShift (r : VRun) (c : VCtx) (w pm : Nat) (left : Bool) : VRun × VCtx :=
  let m := iMod w
  let a := c.reg (iVA w)
  let b := c.reg (iVB w)
  let n := fun l => if bit m 5 then toUns 32 (b.lane l) % 32 else fld m 0 5
  let k : Int := fld m 0 5
  putReg r c (iVD w) pm (lanes (fun l => if left then a.lane l * 2 ^ n l else shrRHE (a.lane l) (n l)))
    ((List.range 4).map (fun i =>
      let f := (a.tag i).exp
      let f' := if bit m 6 && f != zeroRow then liveExp (if left then f - k else f + k) else f
      if bit m 5 then Tag.or f' (a.tag i) (b.tag i) else Tag.or f' (a.tag i) Tag.zero)) (fun _ => false)

/-- CLAMP: three operands aligned to their largest exponent. -/
def runClamp (r : VRun) (c : VCtx) (e : VEnv) (w pm : Nat) : VRun × VCtx :=
  let a := c.reg (iVA w)
  let lo := e.par c.v (fld (iMod w) 0 4)
  let hi := e.par c.v (fld (iMod w) 4 4)
  let f := fun i => fmax (fmax (a.tag i).exp lo.2) hi.2
  putReg r c (iVD w) pm (lanes (fun l =>
    let t := f (l / 64)
    min (max (toExp (a.lane l) (a.tag (l / 64)).exp t) (toExp lo.1 lo.2 t)) (toExp hi.1 hi.2 t)))
    ((List.range 4).map (fun i => { a.tag i with exp := f i })) (fun _ => false)

/-- PERM (R109): every lane at the largest exponent of VA's rows below VL (log 98); the sources of a result row are VB's row and
the rows of VA that its written lanes name (R106). -/
def runPerm (r : VRun) (c : VCtx) (w pm : Nat) : VRun × VCtx :=
  let a := c.reg (iVA w)
  let al := segAlign a 256 (belowVl c.vl)
  let b := c.reg (iVB w)
  let ix := fun l => toUns 32 (b.lane l)
  let act := Nat.land pm (belowVl c.vl)
  let out := (List.range 256).any (fun l => bit act l && decide (c.vl <= ix l))
  let tags := (List.range 4).map (fun i =>
    let named := maskOf (fun k => (rangeFrom (64 * i) 64).any (fun l => bit act l && decide (ix l < c.vl) && ix l == k))
    ((List.range 4).filter (rowIn named)).foldl (fun (t : Tag) k => Tag.or t.exp t (a.tag k))
      { b.tag i with exp := (al.tag i).exp })
  putReg { r with laneRange := r.laneRange || out } c (iVD w) pm
    (lanes (fun l => if c.vl <= ix l then 0 else al.lane (ix l))) tags (fun _ => false)

/-- A comparison (R115). -/
def cmpCond (k : Nat) (a b : Int) : Bool :=
  match k with
  | 0 => a == b | 1 => a != b | 2 => decide (a < b) | 3 => decide (a <= b) | 4 => decide (b < a) | _ => decide (b <= a)

/-- STA: present lanes and the tag of every row that has one. In window mode lane l goes to pixel Y0, X0 + l of channel v
(R164): its own row word takes the tag. -/
def runSta (r : VRun) (c : VCtx) (e : VEnv) (w pm : Nat) : VRun :=
  let o := e.output (fld (iMod w) 0 1)
  let a := c.reg (iVA w)
  let act := Nat.land pm (belowVl c.vl)
  let sat := fun (r : VRun) i k => if (a.tag i).sat && !r.sats.contains k then { r with sats := r.sats ++ [k] } else r
  if o.fmt ≠ 4 ∨ (o.kind ≠ 1 ∧ o.kind ≠ 2) ∨ (o.kind = 2 ∧ r.d.refSubOk e.job e.lb o = false) then r.fail stField
  else if e.e.window ∧ o.kind = 1 then
    let tcols := ceilDiv e.e.v 64
    ((List.range 256).filter (fun l => bit act l)).foldl (fun (r : VRun) l =>
      let q := e.e.win.pixel l
      let t := a.tag (l / 64)
      let tile := q / 64 * tcols + c.v / 64
      let base := tile * tileBytes 4
      let d1 := r.d.refWrite e.job e.lb o (base + 4 * (q % 64)) (leBytes 4 (RowWord.enc ⟨t.exp, t.sat, false, t.void⟩).toNat)
      let d2 := d1.refWrite e.job e.lb o (base + 256 + 4 * (64 * (q % 64) + c.v % 64)) (leBytes 4 (toUns 32 (a.lane l)))
      sat { r with d := d2 } (l / 64) (2 * (o.off / 64 * 65536 + tile) + 1)) r
  else
    (List.range 4).foldl (fun (r : VRun) i =>
      if !rowIn act i then r
      else
        let q := 4 * c.v + i
        let d1 := storeRow e r.d o q (a.tag i) ((rangeFrom (64 * i) 64).map (fun l => (a.lane l, bit act l)))
        sat { r with d := d1 } i (outKey e r.d o q)) r

/-- STQ (R123, R124): holds the vector until its pair, or in window mode its wave, is complete. -/
def runStq (r : VRun) (c : VCtx) (e : VEnv) (pc w pm vLast : Nat) : VRun :=
  let m := iMod w
  let o := e.output (fld m 0 1)
  let a := c.reg (iVA w)
  let act := Nat.land pm (belowVl c.vl)
  let g := (e.par c.v (fld m 6 4)).1
  if o.kind ≠ 1 ∨ o.fmt ≠ fld m 1 2 then r.fail stField
  else if bit m 3 && decide (g < -64 ∨ 63 < g) then r.fail stScale
  else
    let r1 := { r with held := r.held ++ [(pc, c.v, (List.range 256).map (fun l => (a.q l, bit act l)))] }
    if e.e.window then (if c.v = vLast then flushWave r1 e pc (c.v / 8 * 8) m else r1)
    else if c.v % 2 = 1 ∨ c.v + 1 = e.e.v then flushPair r1 e pc (c.v / 2) m
    else r1

/-- STR (R128): present lanes as 32-bit codes at the parameter's exponent. -/
def runStr (r : VRun) (c : VCtx) (e : VEnv) (w pm : Nat) : VRun :=
  let m := iMod w
  let o := e.output (fld m 0 1)
  let a := c.reg (iVA w)
  let act := Nat.land pm (belowVl c.vl)
  let t := (e.par c.v (fld m 4 4)).1
  let off := fun l => 65536 * fld m 1 3 + 4 * (256 * c.v + l)
  let ls := (List.range 256).filter (fun l => bit act l)
  if o.kind ≠ 1 ∨ o.fmt ≠ 6 ∨ ls.any (fun l => decide ((r.d.job e.job).opb < o.off + off l + 4)) then r.fail stField
  else
    { r with d := r.d.forEach ls (fun d l =>
        let x := clampI (-laneMax) laneMax (shiftRHE (a.q l).num (t - (a.q l).e))
        d.refWrite e.job e.lb o (off l) (leBytes 4 (toUns 32 x))) }

/-- A load's source is of the right kind, else the descriptor is FIELD_RANGE (log 36). -/
def runLoad (r : VRun) (c : VCtx) (e : VEnv) (w pm kind : Nat) : VRun × VCtx :=
  let i := e.input (fld (iMod w) 0 2)
  let act := Nat.land pm (belowVl c.vl)
  let rowAct := fun i k => bit act (64 * i + k)
  if i.kind ≠ kind ∨ i.fmt = 6 ∨ (kind = 2 ∧ r.d.refSubOk e.job e.lb i = false) then (r.fail stField, c)
  else if kind = 2 then putRows r c (iVD w) pm ((List.range 4).map (fun t => loadAccRow e r.d i (4 * c.v + t) (rowAct t)))
  else putRows r c (iVD w) pm ((List.range 4).map (fun t => loadTileRow e r.d i (4 * c.v + t) (rowAct t)))

/-- Mask bits of an input (log 37): raw OPB bytes, 32 for each vector, lane l at bit l; from ACC, entries that are not 0. -/
def runLdm (r : VRun) (c : VCtx) (e : VEnv) (w pm : Nat) : VRun × VCtx :=
  let i := e.input (fld (iMod w) 0 2)
  if i.kind = 1 ∧ i.fmt = 6 then
    (r, putPred c (fld (iVD w) 0 2) pm (ofLe (r.d.refBytes e.job e.lb i (32 * c.v) 32)))
  else if i.kind = 2 ∧ r.d.refSubOk e.job e.lb i then
    let b := e.phys r.d
    (r, putPred c (fld (iVD w) 0 2) pm (maskOf (fun l => r.d.accRowGet b (accRow e r.d i (4 * c.v + l / 64)) (l % 64) != 0)))
  else (r.fail stField, c)

/-- LDW (R126): needs the window form and a tap inside the filter. -/
def runLdw (r : VRun) (c : VCtx) (e : VEnv) (w pm : Nat) : VRun × VCtx :=
  let m := iMod w
  let i := e.input (fld m 0 2)
  let act := Nat.land pm (belowVl c.vl)
  if !e.e.window ∨ i.kind ≠ 1 ∨ !isElemFmt i.fmt ∨ e.e.win.fw <= fld m 2 4 ∨ e.e.win.fh <= fld m 6 4 then (r.fail stField, c)
  else
    let (rows, inside) := loadWindow e r.d i c.v (fld m 2 4) (fld m 6 4) act
    let (r1, c1) := putRows r c (iVD w) pm rows
    (r1, if bit m 10 then putPred c1 (fld (iVD w) 0 2) pm inside else c1)

/-- One instruction for one context; `vLast` is the wave's last vector. -/
def runInstr (e : VEnv) (pc w vLast : Nat) (r : VRun) (c : VCtx) : VRun × VCtx :=
  let pm := c.pred (iPG w)
  let m := iMod w
  let a := c.reg (iVA w)
  let b := c.reg (iVB w)
  let no : Nat → Bool := fun _ => false
  let put := fun (x : List Int × List Tag) => putReg r c (iVD w) pm x.1 x.2 no
  match iOp w with
  | 0x00 => (r, c)
  | 0x01 => runLoad r c e w pm 2
  | 0x02 => runLoad r c e w pm 1
  | 0x03 => runLdw r c e w pm
  | 0x04 =>
    let p := e.par c.v (fld m 0 4)
    put (lanes (fun _ => p.1), List.replicate 4 ⟨p.2, false, false⟩)
  | 0x05 => put (lanes (fun _ => toSgn 12 m), List.replicate 4 Tag.zero)
  | 0x06 => runLdm r c e w pm
  | 0x07 =>
    let u := r.u.getD (fld m 0 2) VReg.zero
    put (lanes u.lane, (List.range 4).map u.tag)
  | 0x08 => (runSta r c e w pm, c)
  | 0x09 => (runStq r c e pc w pm vLast, c)
  | 0x0A => (runStr r c e w pm, c)
  | 0x0B => put (binOp a b (fun _ x y => x + y))
  | 0x0C => put (binOp a b (fun _ x y => x - y))
  | 0x0D => put (prodOp a b false)
  | 0x0E => put (prodOp a b true)
  | 0x0F =>
    let p := prodOp a b false
    let cl := p.1.map (clampI (-laneMax) laneMax)
    let s := binOp (c.reg (iVD w)) ⟨cl.toArray, p.2.toArray⟩ (fun _ x y => x + y)
    putReg r c (iVD w) pm s.1 s.2 (fun l => nth 0 cl l != nth 0 p.1 l)
  | 0x10 => runShift r c w pm false
  | 0x11 => runShift r c w pm true
  | 0x12 => put (binOp a b (fun _ x y => max x y))
  | 0x13 => put (binOp a b (fun _ x y => min x y))
  | 0x14 => runClamp r c e w pm
  | 0x15 =>
    let s := binOp a b (fun _ x y => if cmpCond (fld m 0 3) x y then 1 else 0)
    (r, putPred c (fld (iVD w) 0 2) pm (maskOf (fun l => nth 0 s.1 l != 0)))
  | 0x16 =>
    let s := binOp a b (fun l x y => if bit pm l then x else y)
    putReg r c (iVD w) allLanes s.1 s.2 no
  | 0x17 => runRed r c w pm
  | 0x18 => runPerm r c w pm
  | 0x19 => runLut r c w pm
  | 0x1A => runXsub r c w
  | 0x1B => (r, { c with vl := fld m 0 9 })
  | 0x1C => runBoxd r c e w pm
  | 0x1D => (runNms r e, c)
  | _ => (r, c)

/-! ### Waves (R112) -/

/-- One instruction for the contexts of a wave, in order. -/
def runAcross (e : VEnv) (pc w vLast : Nat) : List VCtx → VRun → VRun × List VCtx
  | [], r => (r, [])
  | c :: cs, r =>
    if r.stop.isSome then (r, c :: cs)
    else
      let (r1, c1) := runInstr e pc w vLast r c
      let (r2, cs2) := runAcross e pc w vLast cs r1
      (r2, c1 :: cs2)

/-- The words of a program over a wave. -/
def runWave (e : VEnv) (vLast : Nat) : List (Nat × Nat) → List VCtx → VRun → VRun
  | [], _, r => r
  | (pc, w) :: ws, cs, r =>
    let (r1, cs1) := runAcross e pc w vLast cs r
    runWave e vLast ws cs1 r1

/-- All waves of V vectors. -/
def runWaves (e : VEnv) (prog : List (Nat × Nat)) (vl : Nat) (r : VRun) : VRun :=
  (List.range (ceilDiv e.e.v 8)).foldl (fun r k =>
    let n := Nat.min 8 (e.e.v - 8 * k)
    runWave e (8 * k + n - 1) prog ((rangeFrom (8 * k) n).map (fun v => VCtx.start v vl)) r) r

/-! ### The descriptor -/

/-- The resident program of a descriptor: words with their numbers. -/
def progWords (d : Dev) (j lb program : Nat) : List (Nat × Nat) :=
  (List.range 32).map (fun w => (w, d.progGet (d.physOf j lb) ((d.place j lb).prog + program) w))

/-- The parameter block (R112). -/
def paramsOf (d : Dev) (j lb off : Nat) : Array (Int × Int) :=
  let bs := d.opbRead (d.physOf j lb) (d.opbAddr j lb off) 128
  ((List.range 16).map (fun k => (toSgn 32 (leAt bs (8 * k) 4), toSgn 16 (leAt bs (8 * k + 4) 2)))).toArray

/-- Parameter blocks a descriptor reads: one, or in the window form one for each vector of a wave (R112, R163). -/
def ElemD.parBlocks (t : ElemD) : Nat := if t.window then Nat.min 8 t.v else 1

def elemPars (d : Dev) (j lb : Nat) (t : ElemD) : Array (Array (Int × Int)) :=
  ((List.range t.parBlocks).map (fun u => paramsOf d j lb (t.param + 128 * u))).toArray

/-- References, widths and counts of an `elem` (R103, R107, R112, R125, R422, R423, R425); ROUND is no field of it. -/
def elemFieldsOk (x : Flight) (t : ElemD) : Bool :=
  let w := x.w
  let accOk := fun (r : Ref) (isIn : Bool) => r.kind != 2 ||
    ((r.fmt == 4 || (isIn && r.fmt == 5)) && !(r.fmt == 5 && r.slot % 2 == 1) && !(r.pack == 1 && decide (32 <= r.sub)) &&
      !(r.pack == 0 && decide (64 <= r.sub)))
  fld w 12 2 == 0 && fld w 72 8 == 0 && fld w 82 14 == 0 && fld w 459 53 == 0 && refOk w 128 && refOk w 176 && refOk w 224 && refOk w 320 &&
  (t.window || (refOk w 272 && refOk w 368)) && (!t.window || fld w 403 13 == 0) &&
  t.ins.all (fun r => r.kind != 3 && accOk r true) && t.outs.all (fun r => r.kind != 3 && accOk r false) &&
  decide (1 <= t.vl ∧ t.vl <= 256) && t.v != 65535 &&
  (!t.window || (decide (1 <= t.win.s ∧ t.win.s <= 16 ∧ 1 <= t.win.fh ∧ t.win.fh <= 16 ∧ 1 <= t.win.fw ∧ t.win.fw <= 16) &&
    t.win.w != 65535 && t.win.h != 65535))

/-- Bytes of an OPB reference over V vectors (log 37): whole engine tiles, 32 bytes of mask, 1 KiB of a raw array. -/
def elemBytes (t : ElemD) (r : Ref) (isIn : Bool) : Nat :=
  if r.fmt = 6 then (if isIn then 32 * t.v else 1024 * t.v)
  else if t.window then
    let rows := if isIn then t.win.w * t.win.h else t.win.pixel 0 + t.vl
    ceilDiv rows 64 * ceilDiv t.v 64 * tileBytes r.fmt
  else (if isIn || t.packRows == 0 then ceilDiv (4 * t.v) 64 else ceilDiv (4 * t.v) t.packRows) * tileBytes r.fmt

/-- Sub-slots an ACC reference covers over V vectors in a shape, and the slots they lie in. -/
def elemSubs (t : ElemD) (shape : Nat) : Nat := ceilDiv (4 * t.v) (shapeOf shape).mt
def elemSlots (t : ElemD) (r : Ref) (shape : Nat) : Nat := slotsFor (shapeOf shape).x (r.fmt == 5) r.sub (elemSubs t shape)

/-- A reference lies in the job's grants and off its recurrent state (R141, R170). -/
def elemRefFits (d : Dev) (x : Flight) (t : ElemD) (isIn : Bool) (r : Ref) : Bool :=
  match r.kind with
  | 1 => decide (r.off + elemBytes t r isIn <= (d.job x.job).opb)
  | 2 =>
    let n := elemSlots t r (d.refShape x.job x.target r)
    decide (r.slot + n <= (d.job x.job).slots) && decide (n <= slotsAvail (d.job x.job) x.target r.slot)
  | _ => true

/-- A load of the descriptor's program is still in flight on its block. -/
def loadAhead (d : Dev) (x : Flight) (program : Nat) : Bool :=
  d.sched.flights.any (fun y => decide (y.id < x.id) && y.job == x.job && y.opcode == 2 && bit y.w 80 && y.target == x.target &&
    fld y.w 416 4 == program && y.done.isNone)

/-- Taps inside the filter (R126). -/
def tapsOk (t : ElemD) (ws : List (Nat × Nat)) : Bool :=
  ws.all (fun p => iOp p.2 != 3 || (t.window && decide (fld p.2 2 4 < t.win.fw) && decide (fld p.2 6 4 < t.win.fh)))

/-- What NMS's parameters ask of the issue check (R129): `none` nothing, else the status. -/
def nmsCheck (par : Nat → Int × Int) (ws : List (Nat × Nat)) : Option Nat :=
  if ws.any (fun p => iOp p.2 == 0x1D) then
    let pn := fun i => toUns 32 (par i).1
    if 16384 < pn 0 ∨ 1024 < pn 1 ∨ 65536 < pn 2 then some stField else if pn 0 = 0 then some stOk else none
  else none

/-- The load form (R110): where its words are read and which program they fill. -/
def elemLoadOk (d : Dev) (x : Flight) (t : ElemD) : Bool :=
  let w := x.w
  let r := refAt w 128
  !t.window && fld w 12 2 == 0 && fld w 72 8 == 0 && fld w 82 14 == 0 && refOk w 128 && fld w 176 240 == 0 && fld w 420 92 == 0 &&
  (r.kind == 1 || r.kind == 3) && !r.tr && d.refFits x.job r 128 && decide (t.program < (d.job x.job).progs) &&
  (d.place x.job x.target).phys.isSome

/-- The plan of a command that runs on one logical block. -/
def onBlock (lb : Nat) : Plan := { (default : Plan) with blk := lb }

/-- The issue check of an `elem`. -/
def issueElem (d : Dev) (x : Flight) : Issue :=
  let t := elemD x.w
  if t.load then (if elemLoadOk d x t then .go [onBlock x.target] else .reject stField)
  else if !elemFieldsOk x t then .reject stField
  else if t.v = 0 then .finished stOk
  else if (d.place x.job x.target).phys.isNone ∨ (d.job x.job).progs <= t.program ∨
      (d.job x.job).opb < t.param + 128 * t.parBlocks ∨
      !t.ins.all (elemRefFits d x t true) ∨ !t.outs.all (elemRefFits d x t false) then .reject stField
  else if loadAhead d x t.program then .go [onBlock x.target]
  else
    let ws := progWords d x.job x.target t.program
    if !tapsOk t ws then .reject stField
    else
      match nmsCheck (fun i => (paramsOf d x.job x.target t.param).getD i (0, 0)) ws with
      | some st => if st = stOk then .finished stOk else .reject st
      | none => .go [onBlock x.target]

/-- Environment of a run. -/
def elemEnv (d : Dev) (x : Flight) : VEnv :=
  let t := elemD x.w
  { job := x.job, lb := x.target, e := t, pars := elemPars d x.job x.target t,
    rnd := { d.rnd x with stoch := false }, jobStoch := d.setting x 1 == 1, thr := d.setting x 4 }

def VRun.start (d : Dev) : VRun :=
  ⟨d, Array.replicate 4 VReg.zero, 0, 0, 0, 0, 0, none, false, [], [], none⟩

/-- The whole program over every vector. -/
def elemRunAll (d : Dev) (x : Flight) : VRun :=
  let t := elemD x.w
  let e := elemEnv d x
  let ws := progWords d x.job x.target t.program
  match nmsCheck (e.par 0) ws with
  | some st => if st = stOk then VRun.start d else (VRun.start d).fail stField
  | none => runWaves e ws t.vl (VRun.start d)

/-- Counters of a run (R71, R76): into the state `d`; LANE_RANGE goes to the descriptor's completion (R109). -/
def countRun (d : Dev) (x : Flight) (phys thr : Nat) (r : VRun) : Dev :=
  let add := fun (d : Dev) k n => if n = 0 then d else d.bumpN k n
  let d1 := d.countVoid x.job r.void
  let d2 := add (add (add (add d1 (O.DOMAIN_COUNT x.job) r.dom) (O.EMPTY_ROW x.job) r.empty) (O.CLIPPED_VALUES x.job) r.clipped)
    (O.CLIP_EVENTS x.job) r.clipEv
  let d3 := add d2 (O.SAT_TILES x.job) r.sats.length
  let d4 := if r.laneRange then d3.modFlight x.id (fun y => { y with laneRange := true }) else d3
  match r.clipFirst with
  | none => d4
  | some det =>
    if 64 <= thr ∨ (d4.job x.job).clipSteps.contains x.step then d4
    else (d4.modJob x.job (fun j => { j with clipSteps := j.clipSteps ++ [x.step] })).eventJ 0x0101 1 1 phys x.job x.step det

/-- Free values in the rows of an ACC output of V vectors (R54). -/
def freeOutRows (d : Dev) (e : VEnv) (o : Ref) : Dev :=
  d.forEach (List.range (4 * e.e.v)) (fun d q =>
    let no := d.freeNo
    { d.accRowPut (e.phys d) (accRow e d o q) (fun c => some (Config.freeWord (no + c))) with freeNo := no + 64 })

/-- Runs an `elem`: on a stop nothing is written but the unspecified ACC outputs of SCALE_RANGE, and nothing clipped. -/
def elemRun (d : Dev) (x : Flight) : Dev :=
  let t := elemD x.w
  let e := elemEnv d x
  let r := elemRunAll d x
  let phys := e.phys d
  match r.stop with
  | some st =>
    let d0 := if st = stScale then d.forEach (t.outs.filter (fun o => o.kind == 2)) (fun d o => freeOutRows d e o) else d
    let d1 := countRun d0 x phys e.thr { r with clipped := 0, clipEv := 0, clipFirst := none, sats := [] }
    closeFlight (d1.addConds x.id [st]) x.id
  | none =>
    let d1 := countRun r.d x phys e.thr r
    let d2 := if r.void = 0 then d1 else d1.addConds x.id [stVoid]
    let d3 := if !r.sats.isEmpty && d.setting x 3 == 1 then d2.addConds x.id [stSat] else d2
    closeFlight d3 x.id

/-- Loads a program (R110): every word checked, then the store and its copy in device memory. -/
def elemLoadRun (d : Dev) (x : Flight) : Dev :=
  let t := elemD x.w
  let r := refAt x.w 128
  let bs := d.refBytes x.job x.target r 0 128
  let ws := (List.range 32).map (fun k => leAt bs (4 * k) 4)
  let b := d.physOf x.job x.target
  let p := (d.place x.job x.target).prog + t.program
  if d.refStatus r ≠ 0 then closeFlight (d.addConds x.id [stPoison]) x.id
  else if ws.all wordOk then
    let vs := ws.map (fun w => BitVec.ofNat 32 w)
    let d1 := d.setMem (fun m => { m with prog := SMap.writeRun 0 m.prog (progKey b p 0) vs })
    let d2 := d1.setBlk (fun k =>
      { k with
        progCopy := SMap.writeRun 0 k.progCopy (progKey b p 0) vs,
        progReloaded := k.progReloaded.filter (fun q => q != (b, p)) })
    closeFlight d2 x.id
  else closeFlight (d.addConds x.id [stField]) x.id

/-- A parity error at the fetch of an instruction of a program on a logical block (R111): DISCARDED, the step stops; the store
is reloaded from the copy. `true`: the program had been reloaded before, so the block has failed (R22). -/
def fetchParity (d : Dev) (x : Flight) (lb prog : Nat) : Dev × Bool :=
  let b := d.physOf x.job lb
  let p := (d.place x.job lb).prog + prog
  let again := d.blk.progReloaded.contains (b, p)
  let vs := SMap.readRun 0 d.blk.progCopy (progKey b p 0) 32
  let d1 := d.setMem (fun m => { m with prog := SMap.writeRun 0 m.prog (progKey b p 0) vs })
  let d2 := d1.setBlk (fun k => { k with progReloaded := if again then k.progReloaded else k.progReloaded ++ [(b, p)] })
  (closeFlight (d2.addConds x.id [stDiscard, 0x100]) x.id, again)

/-- The ranges an `elem` names (R96). -/
def elemRanges (d : Dev) (x : Flight) : List Range :=
  let t := elemD x.w
  let lb := x.target
  let one := fun (isIn : Bool) (r : Ref) =>
    match r.kind with
    | 1 => [Range.whole lb 1 r.off (elemBytes t r isIn) (!isIn)]
    | 2 =>
      let sh := d.refShape x.job lb r
      subRanges lb sh (r.fmt == 5) r.slot r.sub (elemSubs t sh) (!isIn)
    | _ => []
  if t.load then
    [Range.whole lb 2 t.program 1 true] ++ (let r := refAt x.w 128; if r.kind = 1 then [Range.whole lb 1 r.off 128 false] else [])
  else
    [Range.whole lb 2 t.program 1 false, Range.whole lb 1 t.param (128 * t.parBlocks) false] ++ t.ins.flatMap (one true) ++
      t.outs.flatMap (one false)

end Sys2Proof.Machine
end

