-- ==== Sys2Proof/Machine/Scan.lean ====
section
/-! DEFINITION. Recurrent state (R168 to R190, R427, R445): one update rounded once, the step masks, the chunked scan, the
state audit. -/

namespace Sys2Proof.Machine

/-! ### Fields (R427) -/

/-- A coefficient reference: source, OPB byte offset, slot, sub-slot. -/
structure Coef where
  src : Nat
  off : Nat
  slot : Nat
  sub : Nat
  deriving DecidableEq, Repr, Inhabited

structure ScanD where
  replay : Bool
  x : Ref
  y : Ref
  co : List Coef
  mode : Nat
  m : Nat
  n : Nat
  t : Nat
  base : Nat
  shape : Nat
  fs : Int
  round : Nat
  init : Bool
  initAddr : Nat
  maskAddr : Nat
  deriving DecidableEq, Repr, Inhabited

def coefAt (w lo : Nat) : Coef :=
  let v := fld w lo 24
  ⟨fld v 0 2, fld v 2 19 * 4, fld v 2 7, fld v 9 6⟩

/-- Bits a coefficient reference leaves zero. -/
def coefOk (w lo : Nat) : Bool :=
  let v := fld w lo 24
  match fld v 0 2 with
  | 0 => v == 0
  | 1 => fld v 21 3 == 0
  | 2 => fld v 15 9 == 0
  | _ => false

def scanD (w : Nat) : ScanD :=
  { replay := bit w 80, x := refAt w 128, y := refAt w 176, co := [coefAt w 224, coefAt w 248, coefAt w 272, coefAt w 296],
    mode := fld w 320 2, m := fld w 322 16, n := fld w 338 16, t := fld w 354 24, base := fld w 378 7, shape := fld w 385 4,
    fs := sfld w 389 16, round := fld w 405 2, init := bit w 407, initAddr := fld w 408 21, maskAddr := fld w 429 21 }

def ScanD.avg (t : ScanD) : Bool := t.mode % 2 == 1
def ScanD.chunked (t : ScanD) : Bool := decide (2 <= t.mode)

/-- Packing that a state shape implies (R103). -/
def packOf (shape : Nat) : Nat := if shape = 5 then 1 else if shape = 6 then 2 else 0

/-- Field rules of R169, R172, R173, R180. -/
def scanFieldsOk (x : Flight) (t : ScanD) : Bool :=
  let w := x.w
  let accOk := fun (r : Ref) => r.fmt == 4 && (r.pack == 0 || r.pack == packOf t.shape)
  fld w 72 8 == 0 && fld w 81 15 == 0 && fld w 450 62 == 0 && refOk w 128 && refOk w 176 &&
  coefOk w 224 && coefOk w 248 && coefOk w 272 && coefOk w 296 && shapeLegal t.shape && decide (t.round < 2) && x.round != 3 &&
  decide (-32767 <= t.fs ∧ t.fs <= 32751) && (nth default t.co 0).src != 0 && (!t.avg || (nth default t.co 1).src == 0) &&
  (if t.x.kind = 2 then accOk t.x else t.x.kind == 1 && decide (t.x.fmt <= 5)) &&
  (if t.y.kind = 2 then accOk t.y else t.y.kind == 1 && decide (t.y.fmt <= 3)) &&
  t.m != 65535 && t.n != 65535 && t.t != 16777215 &&
  (if t.chunked then t.t % 64 == 0 && decide (64 <= t.t) else t.t == 1)

/-! ### Layout (R171, R184) -/

/-- Shape of x, the ACC coefficients and y: the state's in step mode, SHAPE 0 in chunked mode. -/
def ScanD.ioShape (t : ScanD) : Nat := if t.chunked then 0 else t.shape

/-- Rows of x and y per row of state. -/
def ScanD.perRow (t : ScanD) : Nat := if t.chunked then t.t else 1

/-- Tiles of a panel that covers `rows` x `n` in a shape. -/
def coverTiles (shape rows n : Nat) : Nat := ceilDiv rows (shapeOf shape).mt * ceilDiv n (shapeOf shape).nt

/-- Slots of such a panel from a sub-slot. -/
def coverSlots (shape sub rows n : Nat) : Nat := slotsFor (shapeOf shape).x false sub (coverTiles shape rows n)

/-- Physical slot, sub-slot, row and column within its tile of element (r, k) of such a panel at physical slot `base`. -/
def coverAt (shape base sub n r k : Nat) : Nat × Nat × Nat × Nat :=
  let h := shapeOf shape
  let p := linSlot h.x false base (sub + r / h.mt * ceilDiv n h.nt + k / h.nt)
  (p.1, p.2, r % h.mt, k % h.nt)

def Dev.coverGet (d : Dev) (b shape base sub n r k : Nat) : Int :=
  let p := coverAt shape base sub n r k
  d.subGet b (shapeOf shape) false p.1 p.2.1 p.2.2.1 p.2.2.2

def Dev.coverPut (d : Dev) (b shape base sub n r k : Nat) (v : Int) : Dev :=
  let p := coverAt shape base sub n r k
  d.subPut b (shapeOf shape) false p.1 p.2.1 p.2.2.1 p.2.2.2 v

/-- Row word of the tile that holds (r, k). -/
def Dev.coverRow (d : Dev) (b shape base sub n r k : Nat) : RowWord :=
  let p := coverAt shape base sub n r k
  d.subRowGet b (shapeOf shape) p.1 p.2.1 p.2.2.1

/-- Every row word of row r takes `w`. -/
def Dev.coverRowPut (d : Dev) (b shape base sub n r : Nat) (w : RowWord) : Dev :=
  let h := shapeOf shape
  d.forEach (List.range (ceilDiv n h.nt)) (fun d c =>
    let p := coverAt shape base sub n r (c * h.nt)
    d.subRowPut b h p.1 p.2.1 p.2.2.1 w)

/-! ### The issue check -/

/-- The audit of R189 runs for this descriptor. -/
def scanAudits (d : Dev) (x : Flight) (t : ScanD) : Bool := !t.chunked && !t.replay && d.setting x 27 == 1

/-- An ACC operand of the scan fits the grant; it may be a state slot, which a scan may name (R170). -/
def scanAccFits (d : Dev) (x : Flight) (t : ScanD) (slot sub rows : Nat) : Bool :=
  decide (sub < (shapeOf t.ioShape).x) && decide (slot + coverSlots t.ioShape sub (rows * t.perRow) t.n <= (d.job x.job).slots)

/-- Offset in the job's grant of the audit's shadow: the last A64 slot, a pair of entries 2k and 2k + 1, that ends within the
stage's state area (R58, R189; log 41). -/
def Stage.shadow (st : Stage) : Nat := (st.stateBase + st.stateLen) / 2 * 2 - 2

/-- Extents of a scan on one block of `rows` state rows: inside the state area, and off the shadow when the audit runs. -/
def scanBlockOk (d : Dev) (x : Flight) (t : ScanD) (st : Stage) (rows : Nat) : Bool :=
  let last := t.base + coverSlots t.shape 0 rows t.n
  decide (st.stateBase <= t.base) && decide (last <= st.stateBase + st.stateLen) &&
  (!scanAudits d x t || (decide (st.stateBase <= st.shadow) && (decide (last <= st.shadow) || decide (st.shadow + 2 <= t.base)))) &&
  (t.x.kind != 2 || scanAccFits d x t t.x.slot t.x.sub rows) && (t.y.kind != 2 || scanAccFits d x t t.y.slot t.y.sub rows) &&
  t.co.all (fun c => c.src != 2 || scanAccFits d x t c.slot c.sub rows)

/-- Extents in the OPB grant. -/
def scanOpbOk (d : Dev) (x : Flight) (t : ScanD) : Bool :=
  let g := (d.job x.job).opb
  let rows := t.m * t.perRow
  (t.x.kind != 1 || decide (t.x.off + gridBytes t.x.fmt rows t.n <= g)) &&
  (t.y.kind != 1 || decide (t.y.off + gridBytes t.y.fmt rows t.n <= g)) &&
  t.co.all (fun c => c.src != 1 || decide (c.off + 4 * t.n <= g)) &&
  (!t.init || decide (t.initAddr + 4 * t.n <= g)) && (t.replay || decide (t.maskAddr + ceilDiv rows 4 <= g))

/-- The issue check of a `scan`. Chunked sequences are dealt out by their state rows (log 40). -/
def issueScan (d : Dev) (x : Flight) : Issue :=
  let t := scanD x.w
  if !scanFieldsOk x t ∨ (t.replay ∧ !d.sched.issued.contains (x.job, x.step, 4, x.tag)) then .reject stField
  else if t.m = 0 ∨ t.n = 0 then .finished stOk
  else
    match (d.job x.job).stage x.target, d.stageBlocks x.job x.target with
    | some st, some bs =>
      let sh := (bs.zip (sharesOf (ceilDiv t.m 64) bs.length)).filter (fun p => decide (0 < p.2.2))
      let plans := sh.map (fun p =>
        { (default : Plan) with
          blk := p.1, row0 := 64 * p.2.1, rows := Nat.min t.m (64 * (p.2.1 + p.2.2)) - 64 * p.2.1, cols := t.n })
      if st.stateLen = 0 ∨ !scanOpbOk d x t ∨ !plans.all (fun p => scanBlockOk d x t st p.rows) then .reject stField
      else .go plans
    | _, _ => .reject stField

/-! ### One share -/

/-- Words of a table in the OPB, signed. -/
def opbTable (d : Dev) (j lb off n : Nat) : Array Int :=
  let bs := d.opbRead (d.physOf j lb) (d.opbAddr j lb off) (4 * n)
  ((List.range n).map (fun k => toSgn 32 (leAt bs (4 * k) 4))).toArray

/-- What a share of the scan reads. -/
structure ScanEnv where
  d : Dev
  x : Flight
  t : ScanD
  pl : Plan
  b : Nat
  /-- First physical slot of the job's grant on the block. -/
  slot0 : Nat
  tabs : List (Array Int)
  h0 : Array Int
  masks : Bytes
  seed : Nat
  yStoch : Bool

def scanEnv (d : Dev) (x : Flight) (pl : Plan) : ScanEnv :=
  let t := scanD x.w
  { d := d, x := x, t := t, pl := pl, b := d.physOf x.job pl.blk, slot0 := (d.place x.job pl.blk).slot,
    tabs := t.co.map (fun c => if c.src = 1 then opbTable d x.job pl.blk c.off t.n else #[]),
    h0 := if t.init then opbTable d x.job pl.blk t.initAddr t.n else #[],
    masks := if t.replay then [] else
      d.opbRead (d.physOf x.job pl.blk) (d.opbAddr x.job pl.blk t.maskAddr) (ceilDiv (t.m * t.perRow) 4),
    seed := d.setting x 2, yStoch := (d.rnd x).stoch }

/-- Mask of a logical row (R177). -/
def ScanEnv.mask (e : ScanEnv) (r : Nat) : Nat := ((nth 0 e.masks (r / 4)).toNat / 4 ^ (r % 4)) % 4

/-- Rounds v / 2^s with the coordinates of R174. -/
def ScanEnv.rnd (e : ScanEnv) (stoch : Bool) (step row col kb : Nat) (v : Int) (s : Nat) : Int :=
  if stoch then shrStoch v s (genWord e.seed (step % 2 ^ 32) e.x.tag row col kb) else shrRHE v s

/-- A value with the flags it carries; `bad`: its scale byte is a format error; `n`: events to count. -/
structure Got where
  v : Int
  sat : Bool
  void : Bool
  bad : Bool
  n : Nat
  deriving Repr, Inhabited

def alignRHE (v f g : Int) : Int := if f = zeroRow then 0 else shiftRHE v (g - f)

/-- x of state row m (within the share) at step s and channel k, aligned to F_s (R173). -/
def ScanEnv.xAt (e : ScanEnv) (tiles : Nat → Array Byte) (m s k : Nat) : Got :=
  let rel := m * e.t.perRow + s
  let row := (e.pl.row0 + m) * e.t.perRow + s
  if e.t.x.kind = 2 then
    let w := e.d.coverRow e.b e.t.ioShape (e.slot0 + e.t.x.slot) e.t.x.sub e.t.n rel k
    let c := e.d.coverGet e.b e.t.ioShape (e.slot0 + e.t.x.slot) e.t.x.sub e.t.n rel k
    ⟨alignRHE c w.exp e.t.fs, w.sat, w.void, false, 0⟩
  else
    let tl := tiles (k / 64)
    let i := row % 64
    let c := k % 64
    if 4 <= e.t.x.fmt then
      let w := accTileRow tl i
      ⟨alignRHE (accTileVal e.t.x.fmt tl i c) w.exp e.t.fs, w.sat, w.void, false, 0⟩
    else
      match scaleOf (scaleByte tl (i / 8) (c / 8)) with
      | .bad => ⟨0, false, false, true, 0⟩
      | .empty => ⟨0, false, false, false, 0⟩
      | .exp ex =>
        let v := elemVoid e.t.x.fmt tl i c
        ⟨shiftRHE (elemCode e.t.x.fmt tl i c) (e.t.fs - ex), false, v, false, bool01 v⟩

/-- Coefficient `i` (0 a, 1 b, 2 c, 3 d) as a Q16 code (R169). A clamped code counts each time a row and step uses it, also
one of a table (log 130). -/
def ScanEnv.coef (e : ScanEnv) (i m s k : Nat) : Got :=
  let c := nth (default : Coef) e.t.co i
  let lim : Int := if i = 0 then 65536 else laneMax
  let lo : Int := if i = 0 ∧ e.t.avg then 0 else -lim
  let clamp := fun (v : Int) (w : RowWord) =>
    Got.mk (clampI lo lim v) w.sat w.void false (bool01 (decide (clampI lo lim v ≠ v)))
  match c.src with
  | 0 => ⟨if i = 3 then 0 else 65536, false, false, false, 0⟩
  | 1 => clamp ((nth #[] e.tabs i).getD k 0) ⟨0, false, false, false⟩
  | _ =>
    let rel := m * e.t.perRow + s
    let w := e.d.coverRow e.b e.t.ioShape (e.slot0 + c.slot) c.sub e.t.n rel k
    clamp (alignRHE (e.d.coverGet e.b e.t.ioShape (e.slot0 + c.slot) c.sub e.t.n rel k) w.exp (-16)) w

/-- One channel's inputs at a step. -/
structure Chan where
  x : Int
  a : Int
  b : Int
  c : Int
  dd : Int
  sat : Bool
  void : Bool
  bad : Bool
  voids : Nat
  clamps : Nat
  deriving Repr, Inhabited

def ScanEnv.chan (e : ScanEnv) (tiles : Nat → Array Byte) (m s k : Nat) : Chan :=
  let x := e.xAt tiles m s k
  let g := (List.range 4).map (fun i => e.coef i m s k)
  let v := fun i => (nth default g i).v
  ⟨x.v, v 0, v 1, v 2, v 3, x.sat || g.any (·.sat), x.void || g.any (·.void), x.bad, x.n, sumNat (g.map (·.n))⟩

/-- The part of t that x contributes: B X, or (65,536 - A) X. -/
def Chan.bx (c : Chan) (avg : Bool) : Int := (if avg then 65536 - c.a else c.b) * c.x

/-- Clamps to A32 and tells. -/
def a32 (v : Int) : Int × Bool := (accClamp false v, accClamp false v != v)

/-- H' of R173 from state code h. -/
def ScanEnv.update (e : ScanEnv) (c : Chan) (h : Int) (step row k : Nat) : Int × Bool :=
  a32 (e.rnd (e.t.round == 0) step row k 0xFFFFFFFC (c.a * h + c.bx e.t.avg) 16)

/-- y of R173. -/
def ScanEnv.out (e : ScanEnv) (c : Chan) (h : Int) (step row k : Nat) : Int × Bool :=
  a32 (e.rnd e.yStoch step row k 0xFFFFFFFB (c.c * h + c.dd * c.x) 32)

/-- State code of row m, channel k. -/
def ScanEnv.state (e : ScanEnv) (m k : Nat) : Int := e.d.coverGet e.b e.t.shape (e.slot0 + e.t.base) 0 e.t.n m k

/-- SAT and VOID_SEEN of state row m. -/
def ScanEnv.flags (e : ScanEnv) (m : Nat) : Bool × Bool :=
  let h := shapeOf e.t.shape
  let ws := (List.range (ceilDiv e.t.n h.nt)).map (fun c => e.d.coverRow e.b e.t.shape (e.slot0 + e.t.base) 0 e.t.n m (c * h.nt))
  (ws.any (·.sat), ws.any (·.void))

/-- Result of one row at one step: the state it leaves (`none`: unchanged), y, y's flags, the state row's flags, what is
counted. -/
structure RowRes where
  h : Option (List Int)
  y : List Int
  sat : Bool
  void : Bool
  stSat : Bool
  stVoid : Bool
  satRow : Bool
  bad : Bool
  voids : Nat
  clamps : Nat
  deriving Repr, Inhabited

/-- The tiles of x that hold a logical row, by tile column. -/
def ScanEnv.xTiles (e : ScanEnv) (row : Nat) : Array (Array Byte) :=
  if e.t.x.kind = 2 then #[]
  else
    let tc := ceilDiv e.t.n 64
    ((List.range tc).map (fun j =>
      let a := e.d.opbAddr e.x.job e.pl.blk (e.t.x.off + (row / 64 * tc + j) * tileBytes e.t.x.fmt)
      if 4 <= e.t.x.fmt then (e.d.opbRead e.b a (tileBytes e.t.x.fmt)).toArray else (e.d.opbTile e.b a e.t.x.fmt).toArray)).toArray

/-- One row in step mode (R178, R445). `mk` 4: REPLAY. SAT and VOID_SEEN of the rows that x and the coefficients come from
reach the state row as well as y, because both are sums of them (R69, R72; log 129). -/
def ScanEnv.stepRow (e : ScanEnv) (m mk : Nat) : RowRes :=
  let n := e.t.n
  let row := e.pl.row0 + m
  let zeros := List.replicate n (0 : Int)
  if mk = 2 then ⟨none, zeros, false, false, false, false, false, false, 0, 0⟩
  else if mk = 3 then ⟨some zeros, zeros, false, false, false, false, false, false, 0, 0⟩
  else
    let tl := e.xTiles row
    let cs := (List.range n).map (fun k => e.chan (fun j => tl.getD j #[]) m 0 k)
    let hs := cs.zipIdx.map (fun p =>
      if mk = 4 then (e.state m p.2, false)
      else e.update p.1 (if mk = 1 then e.h0.getD p.2 0 else e.state m p.2) e.x.step row p.2)
    let ys := (cs.zip hs).zipIdx.map (fun p => e.out p.1.1 p.1.2.1 e.x.step row p.2)
    let fl := if mk = 1 then (false, false) else e.flags m
    let cl := hs.any (·.2) || ys.any (·.2)
    let sat := fl.1 || cl || cs.any (·.sat)
    let void := fl.2 || cs.any (·.void)
    ⟨if mk = 4 then none else some (hs.map (·.1)), ys.map (·.1), sat, void, sat, void, cl,
      cs.any (·.bad), sumNat (cs.map (·.voids)), sumNat (cs.map (·.clamps))⟩

/-! ### The chunked scan (R184 to R186) -/

/-- An element of the combination tree: alpha in Q30, beta a state code, whether it clamped. -/
structure Elt where
  al : Int
  be : Int
  clamp : Bool
  deriving DecidableEq, Repr, Inhabited

/-- (alpha_t, beta_t) after (alpha_p, beta_p) at level `l`. -/
def ScanEnv.combine (e : ScanEnv) (step row k l : Nat) (t p : Elt) : Elt :=
  let b := a32 (e.rnd (e.t.round == 0) step row k (0xFFFFFFF0 + l) (t.al * p.be + t.be * 2 ^ 30) 30)
  let a := a32 (shrRHE (t.al * p.al) 30)
  ⟨a.1, b.1, t.clamp || b.2 || a.2⟩

/-- Levels 1 to 6 over the 64 elements of a chunk that starts at step `t0`. -/
def ScanEnv.tree (e : ScanEnv) (row k t0 : Nat) (es : List Elt) : List Elt :=
  (rangeFrom 1 6).foldl (fun (l : List Elt) lev =>
    let dlt := 2 ^ (lev - 1)
    l.zipIdx.map (fun p =>
      if dlt <= p.2 then e.combine (e.x.step + t0 + p.2) row k lev p.1 (nth default l (p.2 - dlt)) else p.1)) es

/-- One chunk of one channel from carry `h`: (state, y, clamped) per step. `cs`: the channel's inputs, `mks` the masks. -/
def ScanEnv.chunk (e : ScanEnv) (row k t0 : Nat) (h : Int) (cs : List Chan) (mks : List Nat) : List (Int × Int × Bool) :=
  let es := ((cs.zip mks).zipIdx).map (fun p =>
    let c := p.1.1
    let st := e.x.step + t0 + p.2
    match p.1.2 with
    | 0 => let b := a32 (e.rnd (e.t.round == 0) st row k 0xFFFFFFFC (c.bx e.t.avg) 16); (⟨c.a * 2 ^ 14, b.1, b.2⟩ : Elt)
    | 1 => let b := e.update c (e.h0.getD k 0) st row k; ⟨0, b.1, b.2⟩
    | 2 => ⟨2 ^ 30, 0, false⟩
    | _ => ⟨0, 0, false⟩)
  ((e.tree row k t0 es).zip (cs.zip mks)).zipIdx.map (fun p =>
    let st := e.x.step + t0 + p.2
    let el := p.1.1
    let ht := a32 (e.rnd (e.t.round == 0) st row k 0xFFFFFFF7 (el.al * h + el.be * 2 ^ 30) 30)
    let y := if p.1.2.2 < 2 then e.out p.1.2.1 ht.1 st row k else (0, false)
    (ht.1, y.1, el.clamp || ht.2 || y.2))

/-- A sequence in chunked mode: its rows in order of steps; the last state is the carry it leaves. -/
def ScanEnv.sequence (e : ScanEnv) (m : Nat) : List RowRes :=
  let n := e.t.n
  let row := e.pl.row0 + m
  let mkAt := fun s => if e.t.replay then 4 else e.mask (row * e.t.t + s)
  let ins := (List.range e.t.t).map (fun s =>
    if mkAt s = 2 ∨ mkAt s = 3 then List.replicate n (default : Chan)
    else
      let tl := e.xTiles (row * e.t.t + s)
      (List.range n).map (fun k => e.chan (fun j => tl.getD j #[]) m s k))
  let cols := (List.range n).map (fun k =>
    let h := e.state m k
    if e.t.replay then
      ins.zipIdx.map (fun p => let y := e.out (nth default p.1 k) h (e.x.step + p.2) row k; (h, y.1, y.2))
    else
      ((List.range (e.t.t / 64)).foldl (fun (acc : List (Int × Int × Bool) × Int) c =>
        let o := e.chunk row k (64 * c) acc.2 ((rangeFrom (64 * c) 64).map (fun s => nth default (nth [] ins s) k))
          ((rangeFrom (64 * c) 64).map mkAt)
        (acc.1 ++ o, ((o.getLast?).map (·.1)).getD acc.2)) ([], h)).1)
  let start := e.flags m
  let rows := (List.range e.t.t).foldl (fun (acc : List RowRes × Bool × Bool) s =>
    let mk := mkAt s
    let cs := nth [] ins s
    let col := cols.map (fun c => nth (0, 0, false) c s)
    let cl := mk != 2 && mk != 3 && col.any (·.2.2)
    let sat := if mk = 3 then false else if mk = 2 then acc.2.1
      else (if mk = 1 then false else acc.2.1) || cl || cs.any (·.sat)
    let void := if mk = 3 then false else if mk = 2 then acc.2.2 else (if mk = 1 then false else acc.2.2) || cs.any (·.void)
    let hold := mk = 2 ∨ mk = 3
    (acc.1 ++ [⟨some (col.map (·.1)), col.map (·.2.1), if hold then false else sat, if hold then false else void, sat, void, cl,
      cs.any (·.bad), sumNat (cs.map (·.voids)), sumNat (cs.map (·.clamps))⟩], sat, void)) ([], start.1, start.2)
  rows.1

/-! ### Writing a share -/

/-- All rows of a share in order: (state row, step, mask, result). -/
def ScanEnv.rows (e : ScanEnv) : List (Nat × Nat × Nat × RowRes) :=
  (List.range e.pl.rows).flatMap (fun m =>
    if e.t.chunked then
      (e.sequence m).zipIdx.map (fun p =>
        (m, p.2, if e.t.replay then 4 else e.mask ((e.pl.row0 + m) * e.t.t + p.2), p.1))
    else
      let mk := if e.t.replay then 4 else e.mask (e.pl.row0 + m)
      [(m, 0, mk, e.stepRow m mk)])

/-- The state a row leaves, and its row word (R171, R175, R178). -/
def ScanEnv.putState (e : ScanEnv) (d : Dev) (m : Nat) (r : RowRes) : Dev :=
  match r.h with
  | none => d
  | some hs =>
    let d1 := d.forEach hs.zipIdx (fun d p => d.coverPut e.b e.t.shape (e.slot0 + e.t.base) 0 e.t.n m p.2 p.1)
    d1.coverRowPut e.b e.t.shape (e.slot0 + e.t.base) 0 e.t.n m ⟨e.t.fs, r.stSat, false, r.stVoid⟩

/-- y into ACC. -/
def ScanEnv.putYAcc (e : ScanEnv) (d : Dev) (rs : List (Nat × Nat × Nat × RowRes)) : Dev :=
  d.forEach rs (fun d q =>
    let rel := q.1 * e.t.perRow + q.2.1
    let r := q.2.2.2
    let d1 := d.forEach r.y.zipIdx (fun d p => d.coverPut e.b e.t.ioShape (e.slot0 + e.t.y.slot) e.t.y.sub e.t.n rel p.2 p.1)
    d1.coverRowPut e.b e.t.ioShape (e.slot0 + e.t.y.slot) e.t.y.sub e.t.n rel ⟨e.t.fs + 16, r.sat, false, r.void⟩)

/-- y into OPB tiles through the quantiser: fit mode, half-even (R180; log 39). -/
def ScanEnv.putYOpb (e : ScanEnv) (r : VRun) (rs : List (Nat × Nat × Nat × RowRes)) : VRun :=
  let tab := (rs.map (fun q => ((e.pl.row0 + q.1) * e.t.perRow + q.2.1, q.2.2.2.y.toArray)))
  let lo := e.pl.row0 * e.t.perRow
  let hi := (e.pl.row0 + e.pl.rows) * e.t.perRow
  let ys := (tab.map (·.2)).toArray
  let env : VEnv := { job := e.x.job, lb := e.pl.blk, e := default, pars := #[], rnd := ⟨false, e.seed, e.x.step, e.x.tag⟩,
                      jobStoch := false, thr := e.d.setting e.x 4 }
  (rangeFrom (lo / 8) (ceilDiv hi 8 - lo / 8)).foldl (fun r bi =>
    (List.range (ceilDiv e.t.n 8)).foldl (fun r bj =>
      storeBlock r env e.t.y 0x10 (ceilDiv e.t.n 64) bi bj 0 ((List.range 64).map (fun i =>
        let row := 8 * bi + i / 8
        let k := 8 * bj + i % 8
        if lo <= row ∧ row < hi ∧ k < e.t.n then (⟨(ys.getD (row - lo) #[]).getD k 0, e.t.fs + 16⟩, true)
        else (⟨0, 0⟩, false)))) r) r

/-! ### The state audit (R189) -/

/-- The physical slot of the shadow. -/
def shadowSlot (d : Dev) (x : Flight) (pl : Plan) : Nat :=
  match (d.job x.job).stage x.target with
  | some st => (d.place x.job pl.blk).slot + st.shadow
  | none => 0

/-- Channel k of the shadow (channels 0 to 4,095; log 41). -/
def shadowGet (d : Dev) (b slot k : Nat) : Int := d.subGet b (shapeOf 0) true slot 0 (k / 64) (k % 64)

/-- One row of the audited scan: sampling, the shadow's own update, the differences. -/
def ScanEnv.auditRow (e : ScanEnv) (d : Dev) (slot : Nat) (q : Nat × Nat × Nat × RowRes) : Dev :=
  let row := e.pl.row0 + q.1
  let mk := q.2.2.1
  let key := fun (p : Nat × Nat × Nat × Nat) => p.1 == e.x.job && p.2.1 == e.b && p.2.2.1 == slot
  let cur := (d.blk.sampled.find? key).map (·.2.2.2)
  let chans := List.range (Nat.min e.t.n 4096)
  let put := fun (d : Dev) (f : Nat → Int) => d.forEach chans (fun d k => d.subPut e.b (shapeOf 0) true slot 0 (k / 64) (k % 64) (f k))
  if mk = 3 ∧ cur = some row then d.setBlk (fun k => { k with sampled := k.sampled.filter (fun p => !key p) })
  else
    let begin_ := mk = 1 ∧ (cur = none ∨ cur = some row)
    let d1 := if begin_ then
        (put d (fun k => e.h0.getD k 0 * 2 ^ 32)).setBlk (fun k =>
          { k with sampled := k.sampled.filter (fun p => !key p) ++ [(e.x.job, e.b, slot, row)] })
      else d
    if (begin_ ∨ cur = some row) ∧ mk < 2 then
      let tl := e.xTiles row
      let news := chans.map (fun k =>
        let c := e.chan (fun j => tl.getD j #[]) q.1 0 k
        accClamp true (shrRHE (c.a * shadowGet d1 e.b slot k + c.bx e.t.avg * 2 ^ 32) 16))
      let d2 := put d1 (fun k => nth 0 news k)
      let hs := q.2.2.2.h.getD []
      let ds := news.zipIdx.map (fun p => shrRHE p.1 32 - nth 0 hs p.2)
      d2.modJob e.x.job (fun j => { j with stateAudit := { ds.foldl Stats.add j.stateAudit with tiles := j.stateAudit.tiles + 1 } })
    else d1

/-! ### The descriptor -/

/-- Output tiles of y with a row that carries SAT: in ACC tiles of the shape, in the OPB engine tiles (R68). -/
def ScanEnv.satTiles (e : ScanEnv) (rs : List (Nat × Nat × Nat × RowRes)) : Nat :=
  let h := if e.t.y.kind = 2 then shapeOf e.t.ioShape else shapeOf 0
  let first := if e.t.y.kind = 2 then 0 else e.pl.row0 * e.t.perRow
  (((rs.filter (fun q => q.2.2.2.sat)).map (fun q => (first + q.1 * e.t.perRow + q.2.1) / h.mt)).dedup).length * ceilDiv e.t.n h.nt

/-- One share written: state, audit, y, counts. -/
def scanShare (x : Flight) (d : Dev) (pl : Plan) (e : ScanEnv) (rs : List (Nat × Nat × Nat × RowRes)) : Dev :=
  let t := e.t
  let last := if t.replay then [] else if t.chunked then rs.filter (fun q => q.2.1 + 1 == t.t) else rs
  let d1 := if scanAudits e.d x t then d.forEach rs (fun d q => e.auditRow d (shadowSlot e.d x pl) q) else d
  let d2 := d1.forEach last (fun d q => e.putState d q.1 q.2.2.2)
  let d3 := if t.y.kind = 2 then e.putYAcc d2 rs
    else
      let r := e.putYOpb (VRun.start d2) rs
      countRun r.d x e.b (e.d.setting x 4) { r with void := 0 }
  let add := fun (d : Dev) k n => if n = 0 then d else d.bumpN k n
  add (add (add (d3.countVoid x.job (sumNat (rs.map (fun q => q.2.2.2.voids)))) (O.STATE_SAT_ROWS x.job)
    ((rs.filter (fun q => q.2.2.2.satRow)).length)) (O.COEF_CLAMPED x.job) (sumNat (rs.map (fun q => q.2.2.2.clamps))))
    (O.SAT_TILES x.job) (e.satTiles rs)

/-- The panel a scan lays its state out in (R171). -/
def notePanel (d : Dev) (x : Flight) (t : ScanD) : Dev :=
  d.modJob x.job (fun j => { j with
    panels := j.panels.filter (fun p => !(p.1 == x.target && p.2.1 == t.base)) ++ [(x.target, t.base, t.shape, t.m, t.n)] })

/-- Runs a `scan`: every share is computed before anything is written. -/
def scanRun (d : Dev) (x : Flight) : Dev :=
  let t := scanD x.w
  let shares := x.plans.map (fun pl => let e := scanEnv d x pl; (pl, e, e.rows))
  let all := shares.flatMap (fun s => s.2.2)
  if all.any (fun q => q.2.2.2.bad) then
    let d1 := if t.y.kind = 2 then
        d.forEach x.plans (fun d pl =>
          freePanel d x.job { pl with shape := t.ioShape, pm := coverTiles t.ioShape (pl.rows * t.perRow) t.n, pn := 1 } false
            t.y.slot t.y.sub)
      else d
    closeFlight (d1.addConds x.id [stScale]) x.id
  else
    let d1 := d.forEach shares (fun d s => scanShare x d s.1 s.2.1 s.2.2)
    let d2 := (if t.replay then d1 else notePanel d1 x t).modFlight x.id (fun y => { y with
      stateWritten := !t.replay, lasting := !t.replay })
    let void : Bool := all.any (fun q => decide (0 < q.2.2.2.voids))
    let sat : Bool := all.any (fun q => q.2.2.2.sat) && d.setting x 3 == 1
    closeFlight (d2.addConds x.id ((if void then [stVoid] else []) ++ (if sat then [stSat] else []))) x.id

/-- The ranges a `scan` names: state rows, x, coefficients and y in ACC by sub-slots, the shadow, OPB bytes (R96, R182). -/
def scanRanges (d : Dev) (x : Flight) : List Range :=
  let t := scanD x.w
  x.plans.flatMap (fun pl =>
    let rows := t.m * t.perRow
    let acc := fun slot sub w => subRanges pl.blk t.ioShape false slot sub (coverTiles t.ioShape (pl.rows * t.perRow) t.n) w
    let opb := fun off n w => [Range.whole pl.blk 1 off n w]
    subRanges pl.blk t.shape false t.base 0 (coverTiles t.shape pl.rows t.n) (!t.replay) ++
    (match scanAudits d x t, (d.job x.job).stage x.target with
     | true, some st => [Range.whole pl.blk 0 st.shadow 2 true]
     | _, _ => []) ++
    (if t.x.kind = 2 then acc t.x.slot t.x.sub false else opb t.x.off (gridBytes t.x.fmt rows t.n) false) ++
    (if t.y.kind = 2 then acc t.y.slot t.y.sub true else opb t.y.off (gridBytes t.y.fmt rows t.n) true) ++
    t.co.flatMap (fun c => if c.src = 2 then acc c.slot c.sub false else if c.src = 1 then opb c.off (4 * t.n) false else []) ++
    (if t.init then opb t.initAddr (4 * t.n) false else []) ++
    (if t.replay then [] else opb t.maskAddr (ceilDiv rows 4) false))

end Sys2Proof.Machine
end

