-- ==== Sys2Proof/Machine/Serve.lean ====
section
/-! DEFINITION. Streams, their directories and forks (R224 to R227, R237 to R240, R247 to R249, R432): what a serving loop
owns, reserving a fork, taking a snapshot of a stream and making a child of it. -/

namespace Sys2Proof.Machine

/-! ### Streams, loops, vane entries -/

def Dev.stream (d : Dev) (n : Nat) : Stream := SMap.get Stream.free d.srv.streams n

def Dev.setStream (d : Dev) (n : Nat) (s : Stream) : Dev :=
  d.setSrv (fun v => { v with streams := SMap.put Stream.free v.streams n s })

def Dev.modStream (d : Dev) (n : Nat) (f : Stream → Stream) : Dev := d.setStream n (f (d.stream n))

def Dev.vaneAt (d : Dev) (n : Nat) : Vane := SMap.get Vane.empty d.srv.vane n

def Dev.setVane (d : Dev) (n : Nat) (e : Vane) : Dev := d.setSrv (fun v => { v with vane := SMap.put Vane.empty v.vane n e })

def Dev.loopOf (d : Dev) (j : Nat) : Option Loop := d.srv.loops.find? (fun l => l.job == j)

def Dev.setLoop (d : Dev) (l : Loop) : Dev :=
  d.setSrv (fun v => { v with loops := updFirst (fun m => m.job == l.job) (fun _ => l) v.loops })

def Dev.modLoop (d : Dev) (j : Nat) (f : Loop → Loop) : Dev :=
  d.setSrv (fun v => { v with loops := updFirst (fun m => m.job == j) f v.loops })

/-- Streams of a job's loop, in rising number. -/
def Dev.streamsOf (d : Dev) (j : Nat) : List (Nat × Stream) :=
  d.srv.streams.filter (fun p => p.2.st != 0 && p.2.job == j)

/-- The 128 bits of a stream-table entry (R226). -/
def Stream.word (s : Stream) : Nat :=
  at' 0 3 s.st + at' 3 1 (bool01 s.plan) + at' 4 6 s.job + at' 10 6 s.loop + at' 16 4 s.prio + at' 20 16 s.row +
  at' 36 16 s.parent + at' 52 1 (bool01 s.hasParent) + at' 53 11 s.heldFor + at' 64 19 s.dirList + at' 96 32 s.step

/-- The 512 bits of a vane entry, with its CRC (R247). -/
def Vane.word (v : Vane) : Nat :=
  if v = Vane.empty then 0
  else
  let lo := v.answer.toNat + at' 384 32 v.step + at' 416 16 v.stale + at' 432 6 v.job + at' 440 1 (bool01 v.valid) +
    at' 441 1 (bool01 v.held) + at' 442 1 (bool01 v.fallback) + at' 443 1 (bool01 v.plan) + at' 444 1 (bool01 v.sat) +
    at' 445 1 (bool01 v.ended) + at' 448 32 v.seq
  lo + at' 480 32 (crc32c (leBytes 60 lo))

/-- The creating write of a vane entry: everything but SEQ starts anew (R249). -/
def vaneCreate (d : Dev) (n j : Nat) : Dev :=
  d.setVane n { Vane.empty with job := j, seq := ((d.vaneAt n).seq + 1) % 2 ^ 32 }

/-- Lowest index from `i` up that a table does not list, below `top`. -/
def lowestIdx {α : Type} (top : Nat) : Nat → SMap α → Option Nat
  | i, [] => if i < top then some i else none
  | i, (k, _) :: m => if k < i then lowestIdx top i m else if k = i then lowestIdx top (i + 1) m else some i

/-- Lowest free stream number (R227). -/
def Dev.freeStream (d : Dev) : Option Nat := lowestIdx 65536 0 d.srv.streams

/-- A stream occupies a row: it runs, is held or leaves, or a fork has reserved it. -/
def Stream.hasRow (s : Stream) : Bool := decide (2 <= s.st) || (s.st == 1 && s.hasParent)

/-- Free rows of a loop in rising order, `taken` apart. -/
def freeRows (d : Dev) (l : Loop) (taken : List Nat) : List Nat :=
  let used := ((d.streamsOf l.job).filter (fun p => p.2.hasRow)).map (·.2.row)
  (List.range l.rows).filter (fun r => !used.contains r && !taken.contains r)

/-! ### Directories of a stream -/

/-- Dt of a loop's caches. -/
def Loop.dt (l : Loop) : Nat := l.dim + 1

/-- Lengths in units of 64 bytes of a directory, a directory list and a page group. -/
def Loop.dirLen (l : Loop) : Nat := Nat.max 1024 (ceilDiv (dirBytes l.qmax l.pagesM1) 64)
def Loop.listLen (l : Loop) : Nat := Nat.max 1024 (ceilDiv (4 * l.ncache) 64)
def Loop.groupLen (l : Loop) : Nat := groupBytes l.hkv l.dt / 64

/-- Allocates segments of a job in the fast tier, each (length, format, kind): all or none. -/
def allocAll (j : Nat) : List (Nat × Nat × Nat) → Dev → Option (Dev × List Nat)
  | [], d => some (d, [])
  | (len, fmt, kind) :: rest, d =>
    let a := d.alloc j 0 15 len fmt kind
    if a.2.1 ≠ stOk then none else (allocAll j rest a.1).map (fun r => (r.1, a.2.2 :: r.2))

/-- A directory list written: one 4-byte entry per cache. -/
def writeDirList (d : Dev) (list : Nat) (dirs : List Nat) : Dev := d.segWrite list 0 (dirs.flatMap (fun e => leBytes 4 e))

/-- A fresh directory of a loop's geometry (R194, R195, R218). -/
def initDir (d : Dev) (l : Loop) (dir : Nat) (len ve : Nat) : Dev :=
  newDir d dir { len := len, hkv := l.hkv, dim := l.dim, qMax := l.qmax, veMax := ve, pagesM1 := l.pagesM1, gen := 0 }

/-- The segments a new stream of a loop asks for: directory list, then a directory per cache, then `groups` per cache. -/
def streamAsk (l : Loop) (groups : Nat) : List (Nat × Nat × Nat) :=
  (l.listLen, 6, 0) :: (List.replicate l.ncache (l.dirLen, 6, 0) ++ List.replicate (groups * l.ncache) (l.groupLen, 2, 1))

/-! ### The issue check and the reservation of a fork (R237) -/

structure ForkD where
  parent : Nat
  n : Nat
  deriving DecidableEq, Repr, Inhabited

def forkD (w : Nat) : ForkD := ⟨fld w 128 16, fld w 144 13⟩

def forkList (x : Flight) : Ref := refAt x.w 160

/-- The parent runs or is held in the job's own loop. -/
def forkLoop (d : Dev) (x : Flight) : Option Loop :=
  let s := d.stream (forkD x.w).parent
  if s.job = x.job ∧ (s.st = 2 ∨ s.st = 3) then d.loopOf x.job else none

/-- The issue check of a `fork`. -/
def issueFork (d : Dev) (x : Flight) : Issue :=
  let t := forkD x.w
  if fld x.w 157 3 ≠ 0 ∨ fld x.w 208 304 ≠ 0 ∨ x.flags ≠ 0 ∨ fld x.w 72 8 ≠ 0 ∨ x.round ≠ 0 ∨ !listRefOk x 160 ∨ !targetOk d x ∨
     4096 < t.n ∨ !d.refFits x.job (forkList x) (2 * t.n) then .reject stField
  else if t.n = 0 then .finished stOk
  else
    match forkLoop d x with
    | none => .reject stField
    | some l => if (freeRows d l []).length < t.n then .reject stField else .go []

/-- A child reserved: stream number, row, directory list and directories, and the tail groups asked for. -/
structure Child where
  stream : Nat
  tails : List (Nat × Nat)
  deriving DecidableEq, Repr, Inhabited

/-- Caches of a snapshot whose last group is not full. -/
def Snap.tailCaches (s : Snap) : List Nat := (s.lens.zipIdx.filter (fun p => p.1 % 256 != 0)).map (·.2)

/-- Reserves one child of a parent. -/
def reserveChild (d : Dev) (l : Loop) (parent : Nat) (tails : List Nat) : Option (Dev × Child) :=
  match d.freeStream, (freeRows d l []).head? with
  | some n, some r =>
    let ask := streamAsk l 0 ++ List.replicate tails.length (l.groupLen, 2, 1)
    (allocAll l.job ask d).map (fun p =>
      let list := nth 0 p.2 0
      let dirs := (p.2.drop 1).take l.ncache
      let d1 := (writeDirList p.1 list dirs).setStream n
        { Stream.free with st := 1, job := l.job, loop := l.job, row := r, parent := parent, hasParent := true, dirList := list }
      (d1, ⟨n, tails.zip (p.2.drop (1 + l.ncache))⟩))
  | _, _ => none

/-- Reserves `n` children: all or none. -/
def reserveChildren (l : Loop) (parent : Nat) (tails : List Nat) : Nat → Dev → Option (Dev × List Child)
  | 0, d => some (d, [])
  | n + 1, d =>
    match reserveChild d l parent tails with
    | none => none
    | some (d1, c) => (reserveChildren l parent tails n d1).map (fun r => (r.1, c :: r.2))

/-- Gives a reserved child back. -/
def releaseChild (d : Dev) (l : Loop) (c : Child) : Dev :=
  let s := d.stream c.stream
  let segs := (List.range l.ncache).map (dirOf d s) ++ [s.dirList] ++ c.tails.map (·.2)
  (d.forEach segs Dev.freeSeg).setStream c.stream Stream.free

/-! ### Recurrent state of a row (R171, R239) -/

/-- Where a panel holds row r: physical block, first slot, row within the share. -/
def panelRow (d : Dev) (j : Nat) (p : Nat × Nat × Nat × Nat × Nat) (r : Nat) : Option (Nat × Nat × Nat) :=
  match (d.job j).stage p.1 with
  | none => none
  | some st =>
    ((st.blocks.zip (sharesOf (ceilDiv p.2.2.2.1 64) st.blocks.length)).find? (fun q =>
      decide (64 * q.2.1 <= r ∧ r < 64 * (q.2.1 + q.2.2) ∧ r < p.2.2.2.1))).bind (fun q =>
        (d.place j q.1).phys.map (fun b => (b, (d.place j q.1).slot + p.2.1, r - 64 * q.2.1)))

/-- State entries and row words of row r of a panel; zeros where the panel does not hold the row. -/
def stateRow (d : Dev) (j r : Nat) (p : Nat × Nat × Nat × Nat × Nat) : List (BitVec 32) × List (BitVec 32) :=
  let shape := p.2.2.1
  let n := p.2.2.2.2
  let h := shapeOf shape
  match panelRow d j p r with
  | none => ([], [])
  | some (b, slot, m) =>
    ((List.range n).map (fun k => BitVec.ofInt 32 (d.coverGet b shape slot 0 n m k)),
     (List.range (ceilDiv n h.nt)).map (fun c => (d.coverRow b shape slot 0 n m (c * h.nt)).enc))

/-- Writes them into row r of the panel. -/
def putStateRow (d : Dev) (j r : Nat) (p : Nat × Nat × Nat × Nat × Nat) (v : List (BitVec 32) × List (BitVec 32)) : Dev :=
  let shape := p.2.2.1
  let n := p.2.2.2.2
  let h := shapeOf shape
  match panelRow d j p r with
  | none => d
  | some (b, slot, m) =>
    let d1 := d.forEach v.1.zipIdx (fun d q => d.coverPut b shape slot 0 n m q.2 (s32 q.1))
    d1.forEach v.2.zipIdx (fun d q =>
      let a := coverAt shape slot 0 n m (q.2 * h.nt)
      d.subRowPut b h a.1 a.2.1 a.2.2.1 (RowWord.dec q.1.toNat))

/-! ### Snapshots and children (R238, R239) -/

/-- A stream as a fork sees it. -/
def snapOf (d : Dev) (l : Loop) (n : Nat) : Snap :=
  let s := d.stream n
  let hs := (List.range l.ncache).map (fun c => (dirOf d s c, d.dirHdr (dirOf d s c)))
  { step := s.step, prio := s.prio, lens := hs.map (·.2.len), ves := hs.map (·.2.veMax),
    tails := hs.map (fun p =>
      if p.2.len % 256 = 0 then []
      else d.segRead (d.dirEnt p.1 (p.2.len / 256)).seg 0 (groupBytes l.hkv l.dt)),
    rows := (d.job l.job).panels.map (stateRow d l.job s.row) }

/-- Cache c of a child: full groups shared, the tail copied, masks and LEN taken over. -/
def childCache (d : Dev) (l : Loop) (sn : Snap) (parent child : Stream) (tail : Option Nat) (c : Nat) : Dev :=
  let p := dirOf d parent c
  let q := dirOf d child c
  let len := nth 0 sn.lens c
  let d1 := initDir d l q len (nth 0x80 sn.ves c)
  let h := d1.dirHdr q
  let d2 := d1.segWrite q (maskOff h 0 0) (d1.segRead p (maskOff h 0 0) (32 * l.qmax * (l.pagesM1 + 1)))
  let full := (List.range (len / 256)).filter (fun j => (d2.dirEnt p j).valid)
  let d3 := d2.forEach full (fun d j =>
    let e := { d.dirEnt p j with shared := true }
    ((d.putDirEnt p j e).putDirEnt q j e).addRef e.seg)
  match tail with
  | none => d3
  | some g =>
    let j := len / 256
    ((d3.segWrite g 0 (nth [] sn.tails c)).putDirEnt q j ⟨g, true, false, (d3.dirEnt p j).masked⟩).addRef g

/-- Makes a reserved child of a parent from a snapshot of it; a child of a held parent is held until it is served, at the
next boundary (R240). -/
def makeChild (d : Dev) (l : Loop) (sn : Snap) (parent : Nat) (plan : Bool) (c : Child) : Dev :=
  let d1 := d.modStream c.stream (fun s => { s with st := if (d.stream parent).st = 3 then 3 else 2, plan := plan, prio := sn.prio, step := sn.step, heldFor := 0 })
  let d2 := vaneCreate d1 c.stream l.job
  let d3 := d2.forEach (List.range l.ncache) (fun d k =>
    childCache d l sn (d.stream parent) (d.stream c.stream) ((c.tails.find? (fun p => p.1 == k)).map (·.2)) k)
  let row := (d3.stream c.stream).row
  let d4 := d3.forEach ((d3.job l.job).panels.zip sn.rows) (fun d p => putStateRow d l.job row p.1 p.2)
  if c.tails.isEmpty then d4 else d4.bumpN (O.TAIL_GROUPS l.job) c.tails.length

/-! ### FORK -/

/-- Children a flight has reserved. -/
def forkChildren (x : Flight) : List Child :=
  x.reserved.map (fun n => ⟨n, (x.results.filter (fun r => r.1 == n)).map (fun r => (r.2.1, r.2.2))⟩)

/-- Issue of a `fork`: it reserves everything for its children, all or none (R237). -/
def reserveFork (d : Dev) (x : Flight) : Dev :=
  match forkLoop d x with
  | none => d.finish x.id stField
  | some l =>
    let t := forkD x.w
    match reserveChildren l t.parent (snapOf d l t.parent).tailCaches t.n d with
    | none => d.finish x.id stNoPages
    | some (d1, cs) => d1.modFlight x.id (fun y => { y with
        reserved := cs.map (·.stream), results := cs.flatMap (fun c => c.tails.map (fun t => (c.stream, t.1, t.2))) })

/-- A fork has nothing reserved any more. -/
def unreserve (d : Dev) (f : Nat) : Dev := d.modFlight f (fun y => { y with reserved := [] })

/-- A fork that will not be applied gives back what it reserved. -/
def releaseFork (d : Dev) (x : Flight) : Dev :=
  match d.loopOf x.job with
  | none => d
  | some l =>
    (unreserve (d.forEach (forkChildren x) (fun d c => releaseChild d l c)) x.id).modLoop x.job (fun l =>
      { l with forks := l.forks.filter (· != x.id) })

/-- FORK: the fork joins those that its loop applies at the next boundary, in order of acceptance (R233, R237). -/
def acceptFork (f : Nat) (d : Dev) : Dev :=
  match d.flight f with
  | none => d
  | some x =>
    if x.opcode ≠ 9 ∨ x.live = false ∨ x.started then d
    else if (d.loopOf x.job).isNone then d.finish f stDiscard
    else (d.start f).modLoop x.job (fun l => { l with forks := l.forks ++ [f] })

/-- Tail groups of the children as the boundary needs them: missing ones are allocated, spare ones freed. -/
def fixTails (d : Dev) (l : Loop) (need : List Nat) (c : Child) : Option (Dev × Child) :=
  let spare := c.tails.filter (fun t => !need.contains t.1)
  let lack := need.filter (fun k => !c.tails.any (fun t => t.1 == k))
  (allocAll l.job (lack.map (fun _ => (l.groupLen, 2, 1))) (d.forEach spare (fun d t => d.freeSeg t.2))).map (fun p =>
    (p.1, ⟨c.stream, c.tails.filter (fun t => need.contains t.1) ++ lack.zip p.2⟩))

def fixAllTails (l : Loop) (need : List Nat) : List Child → Dev → Option (Dev × List Child)
  | [], d => some (d, [])
  | c :: cs, d =>
    match fixTails d l need c with
    | none => none
    | some (d1, c1) => (fixAllTails l need cs d1).map (fun r => (r.1, c1 :: r.2))

/-- Writes the list of children and completes; a segment that moves keeps the write back until its commit (R267, R432). -/
def forkDone (d : Dev) (x : Flight) : Dev :=
  let r := forkList x
  let wst := if r.kind = 3 then d.segWriteStatus r.seg else 0
  if wst ≠ 0 then (unreserve d x.id).finish x.id wst
  else if d.refReady r true then ((unreserve d x.id).refWrite x.job x.target r 0 (x.reserved.flatMap (leBytes 2))).finish x.id stOk
  else d

/-- A fork that has been applied and whose list is still to write. -/
def forkMade (d : Dev) (x : Flight) : Bool :=
  x.opcode == 9 && x.live && x.started && !(d.loopOf x.job).any (fun l => l.forks.contains x.id)

/-- Ends the applied forks whose lists can be written now; a fork that ended before it was applied gives back what it reserved. -/
def closeForks (d : Dev) : Dev :=
  let d1 := d.forEach (d.sched.flights.filter (fun x => x.opcode == 9 && x.done.isSome && !x.reserved.isEmpty)) releaseFork
  d1.forEach (d1.sched.flights.filter (forkMade d1)) forkDone

/-- A fork waits for the scans that reserve one of its rows, and for the walks of its parent's caches (R182, R219, R220). -/
def forkWaits (d : Dev) (l : Loop) (x : Flight) : Bool :=
  let p := d.stream (forkD x.w).parent
  let rows := p.row :: x.reserved.map (fun n => (d.stream n).row)
  let dirs := (List.range l.ncache).map (dirOf d p)
  d.sched.flights.any (fun y => y.job == x.job && y.live &&
    ((y.opcode == 4 && rows.any (fun r => decide (r < (scanD y.w).m))) ||
     (y.opcode == 5 && dirs.contains (fld y.w 128 19))))

/-- Applies a fork at its loop's boundary, or leaves it for the next (R238, R239). -/
def applyFork (d : Dev) (f : Nat) : Dev :=
  match d.flight f with
  | none => d
  | some x =>
    match d.loopOf x.job with
    | none => d
    | some l =>
      let t := forkD x.w
      let p := d.stream t.parent
      if x.done.isSome then d
      else if p.job ≠ x.job ∨ p.st < 2 then (releaseFork d x).finish f stDiscard
      else if forkWaits d l x then d
      else
        let sn := snapOf d l t.parent
        match fixAllTails l sn.tailCaches (forkChildren x) d with
        | none => (releaseFork d x).finish f stNoPages
        | some (d1, cs) =>
          let d2 := d1.forEach cs (fun d c => makeChild d l sn t.parent false c)
          forkDone ((d2.bump (O.FORKS_APPLIED x.job)).modLoop x.job (fun l => { l with forks := l.forks.filter (· != f) })) x

end Sys2Proof.Machine
end

