-- ==== Sys2Proof/Machine/Sync.lean ====
section
/-! DEFINITION. `sync` (R378, R379, R400 to R403, R434): device semaphores with their grace, barriers and their tokens. -/

namespace Sys2Proof.Machine

structure SyncD where
  sop : Nat
  tag : Nat
  id : Nat
  epoch : Nat
  n : Nat
  subtree : Nat
  parentPort : Nat
  parentId : Nat
  root : Bool
  sem : Nat
  deriving DecidableEq, Repr, Inhabited

def syncD (w : Nat) : SyncD :=
  { sop := fld w 128 2, tag := fld w 130 16, id := fld w 146 16, epoch := fld w 162 32, n := fld w 194 32,
    subtree := fld w 226 32, parentPort := fld w 258 4, parentId := fld w 262 15, root := bit w 277, sem := fld w 278 10 }

/-! ### Semaphores (R400 to R402) -/

def Dev.sem (d : Dev) (n : Nat) : Sem := SMap.get Sem.free d.sched.sems n

def Dev.setSem (d : Dev) (n : Nat) (v : Sem) : Dev := d.setSched (fun s => { s with sems := SMap.put Sem.free s.sems n v })

/-- The state word (R401). -/
def Sem.word (s : Sem) : Nat :=
  at' 0 1 (bool01 s.held) + at' 1 1 (bool01 s.broken) + at' 2 6 s.owner + at' 16 32 s.step + at' 48 7 s.waiters.length +
    at' 55 1 (bool01 s.grace)

/-- A job is displaced (R398): on some block, or SUSPENDED. -/
def Dev.isDisplaced (d : Dev) (j : Nat) : Bool :=
  d.blk.displaced.any (fun p => p.1 == j) || d.dget (O.JOB_STATE j) == 2

/-- The grace timer runs while the holder is displaced and another job waits (R402). -/
def Dev.regrace (d : Dev) (n : Nat) : Dev :=
  let s := d.sem n
  d.setSem n { s with grace := s.held && d.isDisplaced s.owner && s.waiters.any (fun w => w.2 != s.owner) }

/-- The same for every semaphore. -/
def Dev.regraceAll (d : Dev) : Dev := d.forEach (d.sched.sems.map (·.1)) Dev.regrace

/-- A job may not use the semaphore, or already holds it or waits on it (R400). -/
def semAcquireBad (d : Dev) (x : Flight) : Bool :=
  let t := syncD x.w
  let s := d.sem t.sem
  !bit s.jobs x.job || (s.held && s.owner == x.job) || s.waiters.any (fun w => w.2 == x.job)

def semReleaseBad (d : Dev) (x : Flight) : Bool :=
  let s := d.sem (syncD x.w).sem
  !bit s.jobs x.job || !s.held || s.owner != x.job

/-- Grants a free semaphore to a flight. -/
def grantSem (d : Dev) (n f : Nat) : Dev :=
  match d.flight f with
  | none => d
  | some x =>
    let s := d.sem n
    let d1 := d.setSem n { s with
      held := true, broken := false, owner := x.job, step := x.step, grace := false, waiters := s.waiters.filter (fun w => w.1 != f) }
    ((d1.modFlight f (fun y => { y with broken := s.broken })).finish f stOk).regrace n

/-- Serves the first waiter of a free semaphore; `held`: a displaced waiter waits for its next tenancy (R403). -/
def serveSem (d : Dev) (n : Nat) (held : Bool) : Dev :=
  let s := d.sem n
  match s.waiters with
  | [] => d
  | w :: _ => if s.held || (held && d.isDisplaced w.2) then d else grantSem d n w.1

/-- SEM_ACQUIRE on its descriptor. -/
def semAcquire (f : Nat) (d : Dev) : Dev :=
  match d.flight f with
  | none => d
  | some x =>
    let t := syncD x.w
    if x.opcode ≠ 11 ∨ t.sop ≠ 1 ∨ x.live = false ∨ x.started then d
    else if semAcquireBad d x then d.finish f stField
    else
      let s := d.sem t.sem
      let d1 := d.start f
      if s.held ∨ s.waiters ≠ [] then (d1.setSem t.sem { s with waiters := s.waiters ++ [(f, x.job)] }).regrace t.sem
      else grantSem d1 t.sem f

/-- SEM_RELEASE on its descriptor: it runs on the hub, without a tenancy (R403). -/
def semRelease (f : Nat) (d : Dev) : Dev :=
  match d.flight f with
  | none => d
  | some x =>
    let t := syncD x.w
    if x.opcode ≠ 11 ∨ t.sop ≠ 2 ∨ x.live = false ∨ x.started then d
    else if semReleaseBad d x then d.finish f stField
    else
      let s := d.sem t.sem
      let d1 := (d.start f).setSem t.sem { s with held := false, owner := 0, step := 0, grace := false }
      (serveSem d1 t.sem false).finish f stOk

def execSemAcquire (f : Nat) (s : State) : Host.Outcome State Fault Refusal := .next { s with dev := semAcquire f s.dev }
def execSemRelease (f : Nat) (s : State) : Host.Outcome State Fault Refusal := .next { s with dev := semRelease f s.dev }

/-- Displaced pairs (job, block): a job with a ready step on a block that another job holds, and one displaced before that
has a ready step there still and no tenancy of it (R398). -/
def Dev.displacedNow (d : Dev) : List (Nat × Nat) :=
  ((d.sched.flights.flatMap d.flightPhys).dedup).flatMap (fun b => ((d.readyJobs b).filter (fun j =>
    match d.tenant b with
    | some t => t.1 != j
    | none => d.blk.displaced.contains (j, b))).map (fun j => (j, b)))

/-- Freeing segments without a pin go, and a context that waited for them becomes FREE (R280, R389). -/
def sweepFreeing (d : Dev) : Dev :=
  let d1 := d.forEach ((d.store.res.filter (fun p => p.2.st == 4 && d.pinsOn p.1 == 0)).map (·.1)) Dev.freeSeg
  d1.forEach (List.range 64) (fun d j =>
    if d.dget (O.JOB_STATE j) = 3 ∧ !d.store.res.any (fun p => p.2.owner == j && p.2.st == 4) then d.dset (O.JOB_STATE j) 0 else d)

/-- Brings displacement up to date, and with it the grace timers, the grants that waited for a displaced waiter, the lists
and remote accesses that waited for a move (R267, R398, R402, R403, R420). -/
def settle (d : Dev) : Dev :=
  let now := d.displacedNow
  let fresh := now.filter (fun p => !d.blk.displaced.contains p)
  let d1 := (d.forEach fresh (fun d p => d.bump (O.DISPLACEMENTS p.1))).setBlk (fun k => { k with displaced := now })
  let d2 := d1.regraceAll
  redeliver (closeForks (closeMoves (sweepFreeing (d2.forEach (d2.sched.sems.map (·.1)) (fun d n => serveSem d n true)))))

/-- MOVE_COMMIT (R265): what waited for the commit goes on, at the new home. -/
def execMoveCommit (seg : Nat) (s : State) : Host.Outcome State Fault Refusal :=
  .next { s with dev := settle (moveCommit seg s.dev) }

/-- A semaphore is taken from its holder: BROKEN (R402). -/
def breakSem (d : Dev) (n : Nat) : Dev :=
  let s := d.sem n
  d.setSem n { s with held := false, broken := true, owner := 0, step := 0, grace := false }

/-- A discarded acquire no longer waits. -/
def unwaitSem (d : Dev) (n f : Nat) : Dev :=
  let s := d.sem n
  (d.setSem n { s with waiters := s.waiters.filter (fun w => w.1 != f) }).regrace n

/-! ### Barriers (R378, R379) -/

/-- The issue check of a `sync`. -/
def issueSync (d : Dev) (x : Flight) : Issue :=
  let t := syncD x.w
  let w := x.w
  if fld w 288 224 ≠ 0 ∨ x.flags ≠ 0 ∨ x.round ≠ 0 ∨ fld w 64 16 ≠ 0 ∨ t.sop = 3 then .reject stField
  else if t.sop = 0 then
    if t.sem ≠ 0 ∨ t.n = 0 ∨ t.subtree = 0 ∨ t.n = 0xFFFFFFFF ∨ t.subtree = 0xFFFFFFFF ∨ t.n < t.subtree ∨ (t.root ∧ t.subtree ≠ t.n) ∨
        d.sched.barriers.any (fun b => b.tag == t.tag && b.id == t.id && b.epoch == t.epoch &&
          (b.n != t.n || b.subtree != t.subtree || b.root != t.root || b.job != x.job || b.parentPort != t.parentPort || b.parentId != t.parentId)) then
      .reject stField
    else .go []
  else if fld w 130 148 ≠ 0 ∨ (t.sop = 1 ∧ semAcquireBad d x) ∨ (t.sop = 2 ∧ semReleaseBad d x) then .reject stField
  else .go []

def Dev.barrierOf (d : Dev) (tag id epoch : Nat) : Option Barrier :=
  d.sched.barriers.find? (fun b => b.tag == tag && b.id == id && b.epoch == epoch)

def Barrier.sameAs (b c : Barrier) : Bool := b.tag == c.tag && b.id == c.id && b.epoch == c.epoch

def Dev.setBarrier (d : Dev) (b : Barrier) : Dev :=
  d.setSched (fun s => { s with barriers := updFirst (b.sameAs) (fun _ => b) s.barriers })

def Dev.dropBarrier (d : Dev) (b : Barrier) : Dev :=
  d.setSched (fun s => { s with barriers := s.barriers.filter (fun c => !b.sameAs c) })

/-- Body of a token. -/
def tokenBody (b : Barrier) (cnt : Nat) : Bytes :=
  leBytes 16 (at' 0 16 b.tag + at' 16 16 b.id + at' 32 32 b.epoch + at' 64 32 cnt + at' 96 32 b.n)

/-- Sends a token to a neighbour. -/
def sendToken (d : Dev) (b : Barrier) (kind port dst cnt : Nat) : Dev :=
  d.sendOn port (some b.job) ⟨6, ⟨kind, 0, dst, false, d.srcId, false, b.job, 0, 0⟩, tokenBody b cnt⟩

/-- Device ID that stands behind a port: as announced since, else as in HELLO (R357, R371). -/
def Dev.peerOf (d : Dev) (port : Nat) : Nat :=
  match d.lnk.census.anns.find? (fun a => a.1 == port) with
  | some a => a.2.1
  | none => d.dget (O.PEER_ID port) % 2 ^ 15

/-- Completes every descriptor of a barrier and closes it. -/
def closeBarrier (d : Dev) (b : Barrier) (st : Nat) : Dev := (d.forEach b.flights (fun d f => d.finish f st)).dropBarrier b

/-- Passes a release on and completes. -/
def releaseBarrier (d : Dev) (b : Barrier) : Dev :=
  closeBarrier (d.forEach b.kids.dedup (fun d p => sendToken d b 2 p (d.peerOf p) b.n)) b stOk

/-- What the count allows: the arrival goes up, or the root releases. -/
def barrierProgress (d : Dev) (b : Barrier) : Dev :=
  if b.root then if b.n <= b.count then releaseBarrier d b else d
  else if b.subtree <= b.count ∧ !b.sent then
    sendToken (d.setBarrier { b with sent := true }) b 1 b.parentPort b.parentId b.subtree
  else d

/-- Aborts a barrier: the other neighbours hear of it, its descriptors complete DISCARDED. `skip`: the port the abort came
by. -/
def abortBarrier (d : Dev) (b : Barrier) (skip : Option Nat) : Dev :=
  let ports := ((if b.root then [] else [(b.parentPort, b.parentId)]) ++ b.kids.dedup.map (fun p => (p, d.peerOf p))).filter
    (fun p => skip != some p.1)
  let d1 := d.forEach ports (fun d p => sendToken d b 3 p.1 p.2 0)
  let step := ((b.flights.filterMap d.flight).head?.map (·.step)).getD 0
  (closeBarrier d1 b stDiscard).eventJ 0x0607 2 6 0 b.job step (leBytes 2 b.tag ++ leBytes 2 b.id ++ leBytes 4 b.epoch)

/-- Fields of a token's body. -/
def tokenTag (m : Msg) : Nat := leAt m.body 0 2
def tokenId (m : Msg) : Nat := leAt m.body 2 2
def tokenEpoch (m : Msg) : Nat := leAt m.body 4 4
def tokenCnt (m : Msg) : Nat := leAt m.body 8 4

/-- A token that meets its open barrier. -/
def takeToken (d : Dev) (port : Nat) (m : Msg) (b : Barrier) : Dev :=
  match m.hdr.kind with
  | 1 =>
    let b' := { b with count := b.count + tokenCnt m, kids := b.kids ++ [port] }
    barrierProgress (d.setBarrier b') b'
  | 2 => if b.root ∨ !b.sent ∨ port ≠ b.parentPort then d else releaseBarrier d b
  | 3 => abortBarrier d b (some port)
  | _ => d

/-- A token of the right layout is received (R379): taken, stale, or waiting in the receive buffers. -/
def token (port : Nat) (m : Msg) (d : Dev) : Dev :=
    match d.barrierOf (tokenTag m) (tokenId m) (tokenEpoch m) with
    | some b => takeToken d port m b
    | none =>
      if d.sched.barriers.any (fun b => b.tag == tokenTag m && b.id == tokenId m && decide (tokenEpoch m < b.epoch)) then
        d.bump O.SYNC_STALE
      else d.setSched (fun s => { s with heldTokens := s.heldTokens ++ [(port, m)] })

/-- The tokens that waited for a barrier are taken, those it makes stale are discarded; their credits return. -/
def drainTokens (d : Dev) (tag id epoch : Nat) : Dev :=
  let mine := d.sched.heldTokens.filter (fun t => tokenTag t.2 == tag && tokenId t.2 == id && decide (tokenEpoch t.2 <= epoch))
  let d1 := d.setSched (fun s => { s with heldTokens := s.heldTokens.filter (fun t =>
    !(tokenTag t.2 == tag && tokenId t.2 == id && decide (tokenEpoch t.2 <= epoch))) })
  d1.forEach mine (fun d t => token t.1 t.2 d)

/-- BARRIER on its descriptor: one local arrival. -/
def barrierArrive (f : Nat) (d : Dev) : Dev :=
  match d.flight f with
  | none => d
  | some x =>
    let t := syncD x.w
    if x.opcode ≠ 11 ∨ t.sop ≠ 0 ∨ x.live = false ∨ x.started then d
    else
      match d.barrierOf t.tag t.id t.epoch with
      | some b =>
        let b' := { b with count := b.count + 1, flights := b.flights ++ [f] }
        barrierProgress ((d.start f).setBarrier b') b'
      | none =>
        let b : Barrier := { tag := t.tag, id := t.id, epoch := t.epoch, job := x.job, n := t.n, subtree := t.subtree,
                             parentPort := t.parentPort, parentId := t.parentId, root := t.root, flights := [f], count := 1,
                             kids := [], sent := false }
        let d1 := (d.start f).setSched (fun s => { s with barriers := s.barriers ++ [b] })
        drainTokens (barrierProgress d1 b) t.tag t.id t.epoch

def execBarrier (f : Nat) (s : State) : Host.Outcome State Fault Refusal := .next { s with dev := barrierArrive f s.dev }

/-- BARRIER_TIMEOUT (R379). -/
def barrierTimeout (tag id epoch : Nat) (d : Dev) : Dev :=
  match d.barrierOf tag id epoch with
  | some b => abortBarrier d b none
  | none => d

def execBarrierTimeout (tag id epoch : Nat) (s : State) : Host.Outcome State Fault Refusal :=
  .next { s with dev := barrierTimeout tag id epoch s.dev }

end Sys2Proof.Machine
end

