-- ==== Sys2Proof/Machine/Reduce.lean ====
section
/-! DEFINITION. `reduce` (R302 to R319, R430): reduce contexts, the three waves of records, the commit, aborts. -/

namespace Sys2Proof.Machine

structure ReduceD where
  tag : Nat
  id : Nat
  epoch : Nat
  updStep : Nat
  nC : Nat
  isLocal : Bool
  rank : Nat
  srcBlock : Nat
  srcAddr : Nat
  subtree : Nat
  root : Bool
  parentPort : Nat
  parentId : Nat
  tiles : Nat
  tileBase : Nat
  paramTc : Nat
  deriving DecidableEq, Repr, Inhabited

def reduceD (w : Nat) : ReduceD :=
  { tag := fld w 128 16, id := fld w 144 16, epoch := fld w 160 8, updStep := fld w 168 32, nC := fld w 200 17,
    isLocal := bit w 217, rank := fld w 218 16, srcBlock := fld w 234 8, srcAddr := fld w 242 21, subtree := fld w 263 17,
    root := bit w 280, parentPort := fld w 281 4, parentId := fld w 285 15, tiles := fld w 300 7, tileBase := fld w 307 24,
    paramTc := fld w 331 11 }

/-! ### Contexts -/

def Dev.setRed (d : Dev) (f : Red → Red) : Dev := { d with red := f d.red }

def Dev.ctxOf (d : Dev) (tag id epoch : Nat) : Option RCtx :=
  d.red.ctxs.find? (fun c => c.tag == tag && c.id == id && c.epoch == epoch)

def RCtx.sameAs (a b : RCtx) : Bool := a.tag == b.tag && a.id == b.id && a.epoch == b.epoch

def Dev.setCtx (d : Dev) (c : RCtx) : Dev := d.setRed (fun r => { r with ctxs := updFirst c.sameAs (fun _ => c) r.ctxs })

/-- Closes a context: its entries are released and read zero. -/
def Dev.dropCtx (d : Dev) (c : RCtx) : Dev :=
  d.setRed (fun r => { r with
    ctxs := r.ctxs.filter (fun b => !c.sameAs b), store := SMap.erase r.store (c.base * 64) (c.tiles * 4096) })

/-- Does a descriptor agree with the open context of its name (R305). -/
def ctxAgrees (c : RCtx) (x : Flight) (t : ReduceD) : Bool :=
  c.job == x.job && c.updStep == t.updStep && c.nC == t.nC && c.subtree == t.subtree && c.root == t.root &&
  (c.root || (c.parentPort == t.parentPort && c.parentId == t.parentId)) && c.tiles == t.tiles && c.tileBase == t.tileBase &&
  c.paramTc == t.paramTc && c.round == x.round && !c.committed

/-- The issue check of a `reduce` (R304, R305, R307). -/
def issueReduce (d : Dev) (x : Flight) : Issue :=
  let t := reduceD x.w
  if fld x.w 342 170 ≠ 0 ∨ x.flags ≠ 0 ∨ fld x.w 64 16 ≠ 0 ∨ x.round = 3 then .reject stField
  else if 64 < t.tiles ∨ t.updStep = 0 ∨ t.nC = 0 ∨ 65536 < t.nC ∨ t.nC <= t.rank ∨ t.subtree = 0 ∨ t.nC < t.subtree ∨
      (t.root ∧ t.subtree ≠ t.nC) ∨ t.paramTc = 0 ∨ 1024 < t.paramTc then .reject stField
  else if t.tiles = 0 then .finished stOk
  else if (t.isLocal ∧ ((d.place x.job t.srcBlock).phys = none ∨ t.srcAddr % 64 ≠ 0 ∨ (d.job x.job).opb < t.srcAddr + t.tiles * 8256)) ∨
      d.dget (O.REDUCE_GRANT x.job) < t.tiles * 64 then .reject stField
  else
    match d.ctxOf t.tag t.id t.epoch with
    | some c => if ctxAgrees c x t then .go [] else .reject stField
    | none => .go []

/-! ### Records (R316, R317) -/

/-- A record of a context: header with its CRC, then the body. -/
def mkRecord (d : Dev) (c : RCtx) (kind tile : Nat) (void : Bool) (cnt sat : Nat) (body : Bytes) : Bytes :=
  let h := leBytes 28 (at' 0 8 kind + at' 8 8 c.epoch + at' 16 16 c.id + at' 32 16 c.tag + at' 48 6 tile + at' 56 7 c.tiles +
    at' 63 1 (bool01 void) + at' 64 32 c.updStep + at' 96 32 cnt + at' 128 64 sat + at' 192 15 d.srcId)
  h ++ leBytes 4 (crc32c (h ++ body)) ++ body

/-- Fields of a record as received. -/
structure Rcd where
  kind : Nat
  epoch : Nat
  id : Nat
  tag : Nat
  tile : Nat
  tiles : Nat
  void : Bool
  step : Nat
  cnt : Nat
  sat : Nat
  src : Nat
  body : Bytes
  deriving DecidableEq, Repr

def rcdOf (bs : Bytes) : Rcd :=
  let w := leAt bs 0 28
  { kind := fld w 0 8, epoch := fld w 8 8, id := fld w 16 16, tag := fld w 32 16, tile := fld w 48 6, tiles := fld w 56 7,
    void := bit w 63, step := fld w 64 32, cnt := fld w 96 32, sat := fld w 128 64, src := fld w 192 15, body := bs.drop 32 }

/-- Body bytes of a record by its header (R317). -/
def rcdBodyLen (r : Rcd) : Nat := match r.kind with | 1 => 64 * r.tiles | 2 => 64 * r.tiles | 3 => 16384 | _ => 0

/-- A record's layout and CRC hold (R316, R318). -/
def rcdGood (bs : Bytes) : Bool :=
  let r := rcdOf bs
  decide (32 <= bs.length) && decide (1 <= r.kind ∧ r.kind <= 4) && decide (1 <= r.tiles ∧ r.tiles <= 64) &&
  bs.length == 32 + rcdBodyLen r && crc32c (bs.take 28 ++ bs.drop 32) == leAt bs 28 4

/-- Sends a record. -/
def sendRcd (d : Dev) (c : RCtx) (port : Nat) (bs : Bytes) : Dev := d.emit port 3 (some c.job) bs

/-! ### The fold, the agreement and the sums (R309 to R315) -/

/-- The larger of two scale bytes, 0x80 below every exponent. -/
def foldScale (a b : Nat) : Nat := if a = 0x80 then b else if b = 0x80 then a else if toSgn 8 a < toSgn 8 b then b else a

/-- Scale bytes of a rank gradient, from the scale shadow of its block. -/
def localScales (d : Dev) (j blk addr tiles : Nat) : List Nat :=
  (List.range tiles).flatMap (fun i => (d.shadowRead (d.physOf j blk) (d.opbAddr j blk (addr + i * 8256))).map BitVec.toNat)

/-- Agreed exponent of a block (R310). -/
def agreedF (tb nC : Nat) : Int := if tb = 0x80 then zeroRow else toSgn 8 tb + 15 + clog2 nC - 31

/-- Parameter coordinates of element (r, c) of bucket tile i (R302). -/
def paramRow (tileBase tc i r : Nat) : Nat := 64 * ((tileBase + i) / tc) + r
def paramCol (tileBase tc i c : Nat) : Nat := 64 * ((tileBase + i) % tc) + c

/-- Adds 64 codes to entry e of the store; whether one clamped. -/
def addEntry (d : Dev) (e : Nat) (vs : List Int) : Dev × Bool :=
  let old := SMap.readRun 0 d.red.store (e * 64) 64
  let rs := (old.zip vs).map (fun p => accAdd false (s32 p.1) p.2)
  (d.setRed (fun r => { r with store := SMap.writeRun 0 r.store (e * 64) (rs.map (fun p => BitVec.ofInt 32 p.1)) }),
   rs.any (·.2))

/-- The aligned codes of block b of a local tile (R312); an empty block adds nothing. -/
def localBlock (rn : Rnd) (c : RCtx) (rank : Nat) (t : Array Byte) (i b : Nat) (f : Int) : List Int :=
  match scaleOf (tb t b) with
  | .exp e =>
    (List.range 64).map (fun n =>
      let r := 8 * (b / 8) + n / 8
      let cc := 8 * (b % 8) + n % 8
      alignTo { rn with step := c.updStep, tag := c.id } (paramRow c.tileBase c.paramTc i r) (paramCol c.tileBase c.paramTc i cc)
        rank f e (elemCode 3 t r cc))
  | _ => List.replicate 64 0

/-- Reserved codes of an O16 tile. -/
def tileVoids (t : Array Byte) : Nat :=
  ((List.range 64).flatMap (fun r => (List.range 64).filter (fun c => elemVoid 3 t r c))).length

def orBit (m b : Nat) : Nat := if bit m b then m else m + 2 ^ b

/-- Adds tile i of a local rank gradient to the store. -/
def addLocalTile (c0 : RCtx) (x : Flight) (l : LocalRank) (p : Dev × RCtx) (i : Nat) : Dev × RCtx :=
  let d := p.1
  let t := (d.opbTile (d.physOf x.job l.blk) (d.opbAddr x.job l.blk (l.addr + i * 8256)) 3).toArray
  let tbs := c0.tb.getD []
  let v := tileVoids t
  let q := (List.range 64).foldl (fun (q : Dev × Nat) b =>
    let f := agreedF (nth 0x80 tbs (64 * i + b)) c0.nC
    if f = zeroRow ∨ tb t b = 0x80 then q
    else
      let a := addEntry q.1 (c0.base + 64 * i + b) (localBlock (d.rnd x) c0 l.rank t i b f)
      (a.1, if a.2 then orBit q.2 b else q.2)) (d, nth 0 p.2.sat i)
  let c1 := { p.2 with
    tileCnt := setNth p.2.tileCnt i (nth 0 p.2.tileCnt i + 1), sat := setNth p.2.sat i q.2,
    void := if v = 0 then p.2.void else (if p.2.void.contains i then p.2.void else p.2.void ++ [i]) }
  let d1 := q.1.countVoid x.job v
  (if v = 0 then d1 else d1.addConds x.id [stVoid], c1)

/-- Aligns and adds one local rank gradient. -/
def addLocal (p : Dev × RCtx) (l : LocalRank) : Dev × RCtx :=
  match p.1.flight l.f with
  | none => p
  | some x => (List.range p.2.tiles).foldl (addLocalTile p.2 x l) p

/-- Aligns and adds every local rank gradient, once SCALE_DOWN is held (R311, R312). -/
def addLocals (d : Dev) (c : RCtx) : Dev × RCtx := c.locals.foldl addLocal (d, c)

/-- Descriptors of a context. -/
def RCtx.flights (c : RCtx) : List Nat := c.relays ++ c.locals.map (·.f)

/-- Completes the descriptors of a context. -/
def finishCtx (d : Dev) (c : RCtx) : Dev := d.forEach c.flights closeFlight

/-- Neighbours of a context: parent and children. -/
def RCtx.neighbours (c : RCtx) : List Nat := ((if c.root then [] else [c.parentPort]) ++ c.kids.map (·.1)).dedup

/-- ABORT to the neighbours but `skip`; the context closes and its descriptors complete DISCARDED (R312). -/
def abortCtx (d : Dev) (c : RCtx) (skip : Option Nat) : Dev :=
  let d1 := d.forEach (c.neighbours.filter (fun p => skip != some p)) (fun d p => sendRcd d c p (mkRecord d c 4 0 false 0 0 []))
  (d1.forEach c.flights (fun d f => d.finish f stDiscard)).dropCtx c

/-- REDUCE_ABORT event: cause 1 timeout, 2 scale. -/
def abortEvent (d : Dev) (c : RCtx) (cause : Nat) : Dev :=
  let step := ((c.flights.filterMap d.flight).head?.map (·.step)).getD 0
  d.eventJ 0x0606 2 6 0 c.job step (leBytes 2 c.tag ++ leBytes 2 c.id ++ leBytes 1 c.epoch ++ leBytes 1 cause)

/-- Body of the DATA_UP of tile i. -/
def tileBody (d : Dev) (c : RCtx) (i : Nat) : Bytes :=
  (SMap.readRun 0 d.red.store ((c.base + 64 * i) * 64) 4096).flatMap (fun w => leBytes 4 w.toNat)

/-- Sends the tiles whose count is reached; closes, or commits at the root (R312, R313). -/
def dataProgress (d : Dev) (c : RCtx) : Dev :=
  if c.tb = none ∨ c.committed then d.setCtx c
  else if c.root then
    if (List.range c.tiles).all (fun i => decide (c.nC <= nth 0 c.tileCnt i)) then
      let n := sumNat (c.sat.map (fun m => (bitsOf 64 m).length))
      let d1 := if n = 0 then d else d.bumpN (O.REDUCE_SAT_BLOCKS c.job) n
      (finishCtx d1 c).setCtx { c with committed := true }
    else d.setCtx c
  else
    let go := (List.range c.tiles).filter (fun i => decide (c.subtree <= nth 0 c.tileCnt i) && !c.sent.contains i)
    let d1 := d.forEach go (fun d i =>
      sendRcd d c c.parentPort (mkRecord d c 3 i (c.void.contains i) c.subtree (nth 0 c.sat i) (tileBody d c i)))
    let c1 := { c with sent := c.sent ++ go }
    if c1.sent.length = c1.tiles then (finishCtx d1 c1).dropCtx c1 else d1.setCtx c1

/-- The agreed exponents are known: they go to the children, and the local rank gradients are added. -/
def agree (d : Dev) (c : RCtx) (tbs : List Nat) : Dev :=
  let c1 := { c with tb := some tbs }
  let body := tbs.map (fun b => BitVec.ofNat 8 b)
  let d1 := d.forEach (c1.kids.map (·.1)) (fun d p => sendRcd d c1 p (mkRecord d c1 2 0 false c1.nC 0 body))
  let p := addLocals d1 c1
  dataProgress p.1 p.2

/-- SCALE_UP goes to the parent once the count is reached (R309). -/
def scaleUpSend (d : Dev) (c : RCtx) : Dev × RCtx :=
  if !c.root ∧ c.subtree <= c.count ∧ !c.upSent then
    (sendRcd d c c.parentPort (mkRecord d c 1 0 false c.subtree 0 (c.fold.map (fun b => BitVec.ofNat 8 b))), { c with upSent := true })
  else (d, c)

/-- What the scale wave's count allows (R309, R310). -/
def scaleProgress (d : Dev) (c : RCtx) : Dev :=
  let p := scaleUpSend d c
  if c.tb.isSome then dataProgress p.1 p.2
  else if c.root then if c.nC <= c.count then agree d c c.fold else d.setCtx c
  else p.1.setCtx p.2

/-! ### Receiving records (R308, R318) -/

/-- A record meets its open context. -/
def takeRcd (d : Dev) (port : Nat) (r : Rcd) (c : RCtx) : Dev :=
  let stale := d.bump (O.REDUCE_STALE_RECORDS c.job)
  if r.kind = 4 then abortCtx d c (some port)
  else if r.tiles ≠ c.tiles ∨ r.step ≠ c.updStep then abortCtx d c none
  else
    match r.kind with
    | 1 =>
      if c.subtree < c.count + r.cnt then stale
      else
        let fd := (c.fold.zip (r.body.map BitVec.toNat)).map (fun p => foldScale p.1 p.2)
        scaleProgress d { c with fold := fd, count := c.count + r.cnt, kids := c.kids ++ [(port, r.src)] }
    | 2 =>
      if c.root ∨ c.tb.isSome ∨ port ≠ c.parentPort then stale
      else agree d c (r.body.map BitVec.toNat)
    | _ =>
      if c.tiles <= r.tile ∨ !c.kids.contains (port, r.src) ∨ c.tb = none ∨ c.subtree < nth 0 c.tileCnt r.tile + r.cnt then stale
      else
        let q := (List.range 64).foldl (fun (q : Dev × Nat) b =>
          let vs := (List.range 64).map (fun n => s32 (BitVec.ofNat 32 (leAt r.body (256 * b + 4 * n) 4)))
          let a := addEntry q.1 (c.base + 64 * r.tile + b) vs
          (a.1, if a.2 ∨ bit r.sat b then orBit q.2 b else q.2)) (d, nth 0 c.sat r.tile)
        let c1 := { c with
          tileCnt := setNth c.tileCnt r.tile (nth 0 c.tileCnt r.tile + r.cnt), sat := setNth c.sat r.tile q.2,
          void := if r.void && !c.void.contains r.tile then c.void ++ [r.tile] else c.void }
        dataProgress q.1 c1

/-- A good record is received: taken, stale, or waiting for its context. -/
def takeRecord (port : Nat) (bs : Bytes) (d : Dev) : Dev :=
  let r := rcdOf bs
  match d.ctxOf r.tag r.id r.epoch with
  | some c => takeRcd d port r c
  | none =>
    match d.red.ctxs.find? (fun c => c.tag == r.tag && c.id == r.id) with
    | some c => d.bump (O.REDUCE_STALE_RECORDS c.job)
    | none => d.setRed (fun q => { q with held := q.held ++ [(port, bs)] })

/-- Frames whose credits a waiting record holds. -/
def rcdFrames (bs : Bytes) : Nat := ceilDiv bs.length 256

/-- The records that waited for a context are taken, and their credits return. -/
def drainRecords (d : Dev) (tag id : Nat) : Dev :=
  let mine := fun (h : Nat × Bytes) => (rcdOf h.2).tag == tag && (rcdOf h.2).id == id
  let hs := d.red.held.filter mine
  (d.setRed (fun r => { r with held := r.held.filter (fun h => !mine h) })).forEach hs (fun d h =>
    takeRecord h.1 h.2 d)

/-! ### Opening and joining (R304, R307, R309) -/

/-- Entries that a job's open contexts hold. -/
def grantUsed (d : Dev) (j : Nat) : Nat := sumNat ((d.red.ctxs.filter (fun c => c.job == j)).map (fun c => 64 * c.tiles))

/-- The entries after the last run in use (the model's own placing, log 106). -/
def freeBase (d : Dev) : Nat :=
  let used := sortBy (fun a b => decide (a.1 <= b.1)) (d.red.ctxs.map (fun c => (c.base, 64 * c.tiles)))
  used.foldl (fun n u => Nat.max n (u.1 + u.2)) 0

/-- A context has room: in the table and in the job's grant. -/
def ctxRoom (d : Dev) (j tiles : Nat) : Bool :=
  decide (d.red.ctxs.length < 1024) && decide (grantUsed d j + 64 * tiles <= d.dget (O.REDUCE_GRANT j))

/-- Opens the context of a descriptor. -/
def openCtx (d : Dev) (x : Flight) (t : ReduceD) : Dev :=
  let n := 64 * t.tiles
  let c : RCtx :=
    { tag := t.tag, id := t.id, epoch := t.epoch, job := x.job, updStep := t.updStep, nC := t.nC, subtree := t.subtree,
      root := t.root, parentPort := t.parentPort, parentId := t.parentId, tiles := t.tiles, tileBase := t.tileBase,
      paramTc := t.paramTc, round := x.round, base := freeBase d, relays := [], locals := [], kids := [],
      fold := List.replicate n 0x80, count := 0, upSent := false, tb := none, tileCnt := List.replicate t.tiles 0, sent := [],
      void := [], sat := List.replicate t.tiles 0, committed := false }
  d.setRed (fun r => { r with ctxs := r.ctxs ++ [c] })

/-- A `reduce` descriptor that may run. -/
def reduceFlight (d : Dev) (f : Nat) : Option Flight :=
  match d.flight f with
  | some x => if x.opcode = 7 ∧ x.live ∧ !x.started then some x else none
  | none => none

/-- REDUCE_CONTEXT_OPEN: the first descriptor of a context reserves its entries; the records that waited for it are
taken. -/
def reduceOpen (f : Nat) (d : Dev) : Dev :=
  match reduceFlight d f with
  | none => d
  | some x =>
    let t := reduceD x.w
    if (d.ctxOf t.tag t.id t.epoch).isSome ∨ !ctxRoom d x.job t.tiles then d
    else drainRecords (openCtx d x t) t.tag t.id

/-- The descriptor joins its open context. One that disagrees, or whose rank gradient would take the count beyond
SUBTREE_C, completes FIELD_RANGE (log 53). Where SCALE_DOWN came first (R332) its rank gradient is added at once. -/
def joinCtx (d : Dev) (x : Flight) (t : ReduceD) (c : RCtx) : Dev :=
  if !ctxAgrees c x t ∨ (t.isLocal ∧ c.subtree <= c.count) then d.finish x.id stField
  else if !t.isLocal then scaleProgress (d.start x.id) { c with relays := c.relays ++ [x.id] }
  else
    let sc := localScales d x.job t.srcBlock t.srcAddr t.tiles
    if sc.any (fun b => scaleOf b == .bad) then
      abortCtx (abortEvent (closeFlight ((d.start x.id).addConds x.id [stScale]) x.id) { c with relays := x.id :: c.relays } 2) c none
    else
      let l : LocalRank := ⟨x.id, t.rank, t.srcBlock, t.srcAddr⟩
      let c1 := { c with
        locals := c.locals ++ [l], count := c.count + 1, fold := (c.fold.zip sc).map (fun p => foldScale p.1 p.2) }
      let p := if c1.tb.isSome then addLocal (d.start x.id, c1) l else (d.start x.id, c1)
      scaleProgress p.1 p.2

/-- REDUCE: the descriptor opens its context if it is the first and there is room, and joins it. -/
def reduceRun (f : Nat) (d0 : Dev) : Dev :=
  let d := reduceOpen f d0
  match reduceFlight d f with
  | none => d
  | some x =>
    let t := reduceD x.w
    match d.ctxOf t.tag t.id t.epoch with
    | some c => joinCtx d x t c
    | none => d

/-- REDUCE_TIMEOUT (R319). -/
def reduceTimeout (tag id epoch : Nat) (d : Dev) : Dev :=
  match d.ctxOf tag id epoch with
  | some c => if c.committed then d else abortEvent (abortCtx d c none) c 1
  | none => d

def execReduceTimeout (tag id epoch : Nat) (s : State) : Host.Outcome State Fault Refusal :=
  .next { s with dev := reduceTimeout tag id epoch s.dev }

end Sys2Proof.Machine
end

