-- ==== Sys2Proof/Machine/Update.lean ====
section
/-! DEFINITION. `update` (R320 to R334, R431): parameter groups, curves, the checks of an APPLY, the optimiser update of a
bucket, and the shard counters. -/

namespace Sys2Proof.Machine

structure UpdateD where
  apply : Bool
  group : Nat
  image : Nat
  tag : Nat
  id : Nat
  epoch : Nat
  wSeg : Nat
  mSeg : Nat
  vSeg : Nat
  wcSeg : Nat
  segTile : Nat
  tiles : Nat
  close : Bool
  deriving DecidableEq, Repr, Inhabited

def updateD (w : Nat) : UpdateD :=
  { apply := bit w 128, group := fld w 129 12, image := fld w 141 21, tag := fld w 162 16, id := fld w 178 16,
    epoch := fld w 194 8, wSeg := fld w 202 19, mSeg := fld w 221 19, vSeg := fld w 240 19, wcSeg := fld w 259 19,
    segTile := fld w 278 16, tiles := fld w 294 7, close := bit w 301 }

/-! ### The group table (R320, R324) -/

def Dev.group (d : Dev) (g : Nat) : Group := SMap.get Group.empty d.red.groups g
def Dev.setGroup (d : Dev) (g : Nat) (v : Group) : Dev := d.setRed (fun r => { r with groups := SMap.put Group.empty r.groups g v })
def Dev.count (d : Dev) (g stack : Nat) : Nat := SMap.get 0 d.red.counts (g * 12 + stack)
def Dev.setCount (d : Dev) (g stack v : Nat) : Dev := d.setRed (fun r => { r with counts := SMap.put 0 r.counts (g * 12 + stack) v })
def Dev.setCounts (d : Dev) (g v : Nat) : Dev := d.forEach (List.range 12) (fun d s => d.setCount g s v)

/-- A group entry read from its 64 bytes. -/
def groupOf (w job : Nat) : Group :=
  { valid := bit w 0, frozen := bit w 1, inconsistent := bit w 2, updRound := fld w 3 1, workFmt := fld w 4 2, job := job,
    curveLr := fld w 16 16, curveB1 := fld w 32 16, curveB2 := fld w 48 16, curveWd := fld w 64 16, eps := fld w 80 16,
    epsExp := sfld w 96 8, bcTable := fld w 104 4, curveSeg := fld w 112 19, bcSeg := fld w 131 19 }

/-- GROUP_STATE (R334). -/
def Group.stateBits (g : Group) : Nat := bool01 g.valid + 2 * bool01 g.frozen + 4 * bool01 g.inconsistent

/-! ### Curves and bias correction (R321 to R323) -/

structure Curve where
  npts : Nat
  exp : Int
  xs : List Nat
  ys : List Int
  deriving DecidableEq, Repr, Inhabited

def Dev.curve (d : Dev) (seg n : Nat) : Curve :=
  let bs := d.segRead seg (528 * n) 528
  let np := leAt bs 0 1
  { npts := np, exp := toSgn 8 (leAt bs 1 1), xs := (List.range (Nat.min np 64)).map (fun p => leAt bs (16 + 8 * p) 4),
    ys := (List.range (Nat.min np 64)).map (fun p => toSgn 32 (leAt bs (20 + 8 * p) 4)) }

def rising : List Nat → Bool
  | a :: b :: l => decide (a < b) && rising (b :: l)
  | _ => true

/-- The rules of a curve (R321); `beta`: one of CURVE_B1 and CURVE_B2. -/
def Curve.ok (c : Curve) (beta : Bool) : Bool :=
  decide (1 <= c.npts ∧ c.npts <= 64) && rising c.xs && c.ys.all (fun y => decide (0 <= y)) &&
  (!beta || (c.exp == -30 && c.ys.all (fun y => decide (y <= 2 ^ 30))))

/-- The code of a curve at update number t (R322). -/
def Curve.at (c : Curve) (t : Nat) : Int :=
  if t <= nth 0 c.xs 0 then nth 0 c.ys 0
  else if nth 0 c.xs (c.npts - 1) <= t then nth 0 c.ys (c.npts - 1)
  else
    let i := ((List.range c.npts).filter (fun p => decide (nth 0 c.xs p <= t))).length - 1
    let y0 := nth 0 c.ys i
    y0 + divRHE ((nth 0 c.ys (i + 1) - y0) * ((t : Int) - nth 0 c.xs i)) (nth 0 c.xs (i + 1) - nth 0 c.xs i)

/-- The four curves of a group hold. -/
def curvesOk (d : Dev) (g : Group) : Bool :=
  let fits := fun n => decide (528 * n + 528 <= (d.res g.curveSeg).len)
  [g.curveLr, g.curveB1, g.curveB2, g.curveWd].all fits && (d.curve g.curveSeg g.curveLr).ok false &&
  (d.curve g.curveSeg g.curveB1).ok true && (d.curve g.curveSeg g.curveB2).ok true && (d.curve g.curveSeg g.curveWd).ok false

/-- Bias corrections C1 and C2 at t, in Q16. -/
def biasAt (d : Dev) (g : Group) (t : Nat) : Nat × Nat :=
  if 65536 < t then (65536, 65536)
  else
    let bs := d.segRead g.bcSeg (524288 * g.bcTable + 8 * (t - 1)) 8
    (leAt bs 0 4, leAt bs 4 4)

/-! ### The issue check (R325) -/

/-- The image of a CONFIG. -/
def configImage (d : Dev) (x : Flight) : Group :=
  groupOf (leAt (d.opbRead (d.physOf x.job x.target) (d.opbAddr x.job x.target (updateD x.w).image) 64) 0 64) x.job

def configOk (d : Dev) (x : Flight) : Bool :=
  let t := updateD x.w
  let g := configImage d x
  let old := d.group t.group
  let owned := fun s => (d.res s).st != 0 && (d.res s).owner == x.job
  decide (t.image + 64 <= (d.job x.job).opb) && g.valid && !g.inconsistent && g.workFmt != 3 && (!old.valid || old.job == x.job) &&
  owned g.curveSeg && owned g.bcSeg && curvesOk d g && decide (524288 * (g.bcTable + 1) <= (d.res g.bcSeg).len)

/-- A parameter segment of an APPLY: of the job, resident in the given stack, long enough. -/
def paramSegOk (d : Dev) (j stack fmt need seg : Nat) : Bool :=
  let r := d.res seg
  decide (1 ≤ r.st ∧ r.st ≤ 3) && r.owner == j && r.tier == 0 && r.home == stack && r.fmt == fmt && decide (need <= r.len)

/-- Format and bytes of a working-copy tile (R320). -/
def workFmt (g : Group) : Nat := if g.workFmt = 1 then 1 else 0

def applyOk (d : Dev) (x : Flight) : Bool :=
  let t := updateD x.w
  let g := d.group t.group
  let stack := (d.res t.wSeg).home
  let n := t.segTile + t.tiles
  g.valid && g.job == x.job && decide (t.tiles <= 64) && paramSegOk d x.job stack 3 (n * 8256) t.wSeg &&
  paramSegOk d x.job stack 3 (n * 8256) t.mSeg && paramSegOk d x.job stack 6 (n * 8256) t.vSeg &&
  (if g.workFmt = 0 then t.wcSeg == 0 else paramSegOk d x.job stack (workFmt g) (n * tileBytes (workFmt g)) t.wcSeg) &&
  (match d.ctxOf t.tag t.id t.epoch with | some c => c.tiles == t.tiles && c.job == x.job | none => true)

/-- The issue check of an `update`. -/
def issueUpdate (d : Dev) (x : Flight) : Issue :=
  let t := updateD x.w
  if fld x.w 302 210 ≠ 0 ∨ x.flags ≠ 0 ∨ fld x.w 72 8 ≠ 0 ∨ x.round ≠ 0 ∨ !targetOk d x then .reject stField
  else if t.apply then
    if t.image ≠ 0 then .reject stField
    else if t.tiles = 0 then .finished stOk
    else if applyOk d x then .go [] else .reject stField
  else if fld x.w 162 140 = 0 ∧ configOk d x then .go [] else .reject stField

/-- An `update` descriptor of an operation that may run. -/
def updateFlight (d : Dev) (f : Nat) (apply : Bool) : Option Flight :=
  match d.flight f with
  | some x => if x.opcode = 8 ∧ x.live ∧ (updateD x.w).apply = apply then some x else none
  | none => none

/-- The FROZEN of a group that a step's APPLYs see: as at the step's boundary (R79, R326); that of a group configured since is
its entry's. -/
def Dev.frozenFor (d : Dev) (x : Flight) (g : Nat) : Bool :=
  match ((d.job x.job).eff.find? (fun p => p.1 == x.step)).bind (fun p => p.2.find? (fun q => q.1 == 512 + g)) with
  | some q => q.2 == 1
  | none => (d.group g).frozen

/-- What earlier step boundaries kept of a group's FROZEN is forgotten. -/
def Dev.forgetFrozen (d : Dev) (j g : Nat) : Dev :=
  d.modJob j (fun x => { x with eff := x.eff.map (fun p => (p.1, p.2.filter (fun q => q.1 != 512 + g))) })

/-- UPDATE_CONFIG: waits until no APPLY of the group is in flight; sets every COUNT to 0. -/
def updateConfig (f : Nat) (d : Dev) : Dev :=
  match updateFlight d f false with
  | none => d
  | some x =>
    let g := (updateD x.w).group
    if d.red.applies.any (fun a => a.group == g && !a.finished) then d
    else if configOk d x then
      ((((d.setGroup g (configImage d x)).setCounts g 0).forgetFrozen x.job g).start f).finish f stOk
    else d.finish f stField

/-- Segments an APPLY writes. -/
def UpdateD.segs (t : UpdateD) : List Nat := ([t.wSeg, t.mSeg, t.vSeg] ++ (if t.wcSeg = 0 then [] else [t.wcSeg])).dedup

/-- The write pins of an APPLY (R325). -/
def applyPins (x : Flight) : List (Nat × Bool) := (updateD x.w).segs.map (fun s => (s, true))

/-- An APPLY is in flight from its issue, in the order of issue, and takes its write pins then, or waits for them (R260, R325,
R327). -/
def issueApply (d : Dev) (x : Flight) : Dev :=
  let t := updateD x.w
  if x.opcode = 8 ∧ t.apply then
    let d1 := d.setRed (fun r => { r with applies := r.applies ++ [⟨x.id, t.group, (d.res t.wSeg).home, t.close, false, 0⟩] })
    if x.pinsReady d1 (applyPins x) then d1.grantPins x.id (applyPins x) else d1
  else d

/-- The APPLY in flight of a descriptor. -/
def Dev.applyOf (d : Dev) (f : Nat) : Option Apply := d.red.applies.find? (fun a => a.f == f && !a.finished)

def Dev.modApply (d : Dev) (f : Nat) (g : Apply → Apply) : Dev :=
  d.setRed (fun r => { r with applies := updFirst (fun a => a.f == f) g r.applies })

/-- Advances a shard: COUNT rises once the closing APPLY and every earlier one of the shard have completed. -/
def closeShard : Nat → Nat → Nat → Dev → Dev
  | 0, _, _, d => d
  | n + 1, g, st, d =>
    match d.red.applies.find? (fun a => a.group == g && a.stack == st) with
    | some a =>
      if a.finished then
        closeShard n g st ((d.setCount g st ((d.count g st + 1) % 2 ^ 32)).setRed (fun r => { r with applies := r.applies.erase a }))
      else d
    | none => d

/-- GROUP_STEP_SET: every COUNT of the group takes the value, INCONSISTENT is cleared (R326). -/
def setSteps (d : Dev) (g v : Nat) : Dev := (d.setGroup g { d.group g with inconsistent := false }).setCounts g (v % 2 ^ 32)

/-- An APPLY of the group is writing. -/
def groupWriting (d : Dev) (g : Nat) : Bool := d.red.applies.any (fun a => a.group == g && !a.finished && a.written != 0)

/-- The GROUP_STEP_SET writes that waited for an APPLY of the group to complete. -/
def stepSetsDue (d : Dev) (g : Nat) : Dev :=
  if groupWriting d g then d
  else
    (d.setRed (fun r => { r with stepSets := r.stepSets.filter (fun p => p.1 != g) })).forEach
      (d.red.stepSets.filter (fun p => p.1 == g)) (fun d p => setSteps d g p.2)

/-- An APPLY ends (its pins go with its completion): an applied closing one stays pending, any other leaves the list. -/
def endApply (d : Dev) (x : Flight) (applied : Bool) : Dev :=
  match d.applyOf x.id with
  | none => d
  | some a =>
    let keep := fun (l : List Apply) =>
      if a.close && applied then updFirst (fun b => b.f == x.id) (fun b => { b with finished := true }) l
      else l.filter (fun b => b.f != x.id)
    let d2 := d.setRed (fun r => { r with applies := keep r.applies })
    stepSetsDue (closeShard d2.red.applies.length a.group a.stack d2) a.group

/-- A discarded APPLY: one that has written leaves its group INCONSISTENT (R331). -/
def discardApply (d : Dev) (x : Flight) : Dev :=
  match d.applyOf x.id with
  | none => d.finish x.id stDiscard
  | some a =>
    let d1 := if a.written = 0 then d
      else (d.setGroup a.group { d.group a.group with inconsistent := true }).eventJ 0x0702 3 6 0 x.job x.step
        (leBytes 2 a.group ++ leBytes 1 a.stack)
    (endApply d1 x false).finish x.id stDiscard

/-- UPDATE_APPLY: the APPLY binds to its bucket, with its write pins, on the update unit of the stack that holds W now. -/
def updateApply (f : Nat) (d : Dev) : Dev :=
  match updateFlight d f true with
  | none => d
  | some x =>
    if x.started ∨ !x.pinsReady d (applyPins x) then d
    else if !applyOk d x then (endApply d x false).finish f stField
    else ((d.grantPins f (applyPins x)).modApply f (fun a => { a with stack := (d.res (updateD x.w).wSeg).home })).start f

def execUpdateApply (f : Nat) (s : State) : Host.Outcome State Fault Refusal := .next { s with dev := updateApply f s.dev }

/-! ### Arithmetic of the update (R328, R329) -/

/-- Exponent of the top bit of num * 2^e. -/
def topBit (v : QVal) : Int := v.e + bitLen v.num.natAbs - 1

/-- A sum formed exactly, with at most 96 bits kept below the top bit of the largest term. -/
def sum96 (vs : List QVal) : QVal :=
  let live := vs.filter (fun v => v.num != 0)
  match live with
  | [] => ⟨0, 0⟩
  | v0 :: rest =>
    let cut := rest.foldl (fun m v => max m (topBit v)) (topBit v0) - 96
    let cutv := fun (v : QVal) => if cut <= v.e then v else ⟨shrRHE v.num (cut - v.e).toNat, cut⟩
    let ws := live.map cutv
    let e0 := ws.foldl (fun m v => min m v.e) (cutv v0).e
    ⟨sumInt (ws.map (fun v => v.num * 2 ^ (v.e - e0).toNat)), e0⟩

def mulQ (a b : QVal) : QVal := ⟨a.num * b.num, a.e + b.e⟩

/-- Rounded half-even to 32 significant bits. -/
def sig32 (v : QVal) : QVal :=
  let n := bitLen v.num.natAbs
  if n <= 32 then v else ⟨shrRHE v.num (n - 32), v.e + ((n - 32 : Nat) : Int)⟩

/-- 1 / sqrt of a positive value; of zero the largest lane value at exponent 0 (log 56). -/
def rsqOf (v : QVal) : QVal :=
  if v.num <= 0 then ⟨laneMax, 0⟩ else let r := rsqLane v.num v.e; ⟨r.1, r.2⟩

/-- Rounding of the update for element (row, col) of quantity q. -/
def updRnd (stoch : Bool) (seed t g q row col : Nat) (v : Int) (s : Nat) : Int :=
  if stoch then shrStoch v s (philox seed t (0xFFF00000 + q * 4096 + g) row col).1 else shrRHE v s

/-- Fit rule for a block with largest code `mx`: scale byte, codes, clipped. -/
def fitBlock (mx : Int) (rnd : Nat → Int → Nat → Int) (vs : List QVal) : Nat × List Int × Nat :=
  if vs.all (fun v => v.num == 0) then (0x80, vs.map (fun _ => 0), 0)
  else quantBlock.quantAt mx rnd (fitExp rnd mx vs 128 (-64)) vs

/-- One block of a parameter segment: scale byte and raw 16-bit codes. -/
def segBlock (d : Dev) (seg tile b : Nat) : Nat × List Nat :=
  let o := tile * 8256
  let cs := d.segRead seg (o + 64 + 128 * b) 128
  (leAt (d.segRead seg (o + b) 1) 0 1, (List.range 64).map (fun n => leAt cs (2 * n) 2))

/-- Value of an O16 code; of a UO16 code. -/
def o16Val (sc raw : Nat) : QVal :=
  match scaleOf sc with
  | .exp e => ⟨if raw = 0x8000 then 0 else toSgn 16 raw, e⟩
  | _ => ⟨0, 0⟩
def uo16Val (sc raw : Nat) : QVal :=
  match scaleOf sc with
  | .exp e => ⟨(raw : Int), e⟩
  | _ => ⟨0, 0⟩

/-- What an update needs at t. -/
structure UpdIn where
  t : Nat
  g : Nat
  seed : Nat
  stoch : Bool
  lr : QVal
  b1 : Int
  b2 : Int
  wd : QVal
  c1 : Nat
  c2 : Nat
  eps : QVal
  fmtW : Option Nat
  deriving DecidableEq, Repr, Inhabited

def updIn (d : Dev) (x : Flight) (g : Nat) (t : Nat) : UpdIn :=
  let e := d.group g
  let cv := fun n => d.curve e.curveSeg n
  let c := biasAt d e t
  { t := t, g := g, seed := d.setting x 2, stoch := e.updRound == 1, lr := ⟨(cv e.curveLr).at t, (cv e.curveLr).exp⟩,
    b1 := (cv e.curveB1).at t, b2 := (cv e.curveB2).at t, wd := ⟨(cv e.curveWd).at t, (cv e.curveWd).exp⟩, c1 := c.1,
    c2 := c.2, eps := ⟨e.eps, e.epsExp⟩, fmtW := if e.workFmt = 0 then none else some (workFmt e) }

/-- A block after the update: the three blocks and the working copy, their clips, and the roots of zero. -/
structure BlockOut where
  w : Nat × List Int × Nat
  m : Nat × List Int × Nat
  v : Nat × List Int × Nat
  wc : Nat × List Int × Nat
  zeros : Nat
  deriving Repr, Inhabited

/-- The update of one block (R328). -/
def updBlock (u : UpdIn) (row col : Nat → Nat) (gs ws ms vs : List QVal) : BlockOut :=
  let rnd := fun q n => updRnd u.stoch u.seed u.t u.g q (row n) (col n)
  let m' := (ms.zip gs).map (fun p => sum96 [⟨u.b1 * p.1.num, p.1.e - 30⟩, ⟨(2 ^ 30 - u.b1) * p.2.num, p.2.e - 30⟩])
  let v' := (vs.zip gs).map (fun p =>
    sum96 [⟨u.b2 * p.1.num, p.1.e - 30⟩, ⟨(2 ^ 30 - u.b2) * (p.2.num * p.2.num), 2 * p.2.e - 30⟩])
  let mq := fitBlock 32767 (rnd 0) m'
  let vq := fitBlock 65535 (rnd 1) v'
  let val := fun (q : Nat × List Int × Nat) (n : Nat) =>
    if q.1 = 0x80 then (⟨0, 0⟩ : QVal) else ⟨nth 0 q.2.1 n, toSgn 8 q.1⟩
  let vh := (List.range 64).map (fun n => sum96 [mulQ (val vq n) ⟨u.c2, -16⟩, u.eps])
  let w' := (List.range 64).map (fun n =>
    let us := sig32 (mulQ (mulQ (val mq n) ⟨u.c1, -16⟩) (rsqOf (nth ⟨0, 0⟩ vh n)))
    let w0 := nth (⟨0, 0⟩ : QVal) ws n
    sum96 [w0, mulQ ⟨-u.lr.num, u.lr.e⟩ us, mulQ ⟨-u.lr.num, u.lr.e⟩ (mulQ u.wd w0)])
  let wq := fitBlock 32767 (rnd 2) w'
  let wc := match u.fmtW with
    | none => (0x80, [], 0)
    | some f => fitBlock (fmtMax f) (rnd 3) ((List.range 64).map (val wq))
  ⟨wq, mq, vq, wc, (vh.filter (fun v => decide (v.num <= 0))).length⟩

/-- Writes one block of codes of `bits` bits into a tile. -/
def putSegBlock (d : Dev) (seg tile f b : Nat) (q : Nat × List Int × Nat) : Dev :=
  let o := tile * tileBytes f
  let bb := fmtBits f * 8
  (d.segWrite seg (o + b) [BitVec.ofNat 8 q.1]).segWrite seg (o + 64 + bb * b) (packCodes f (q.2.1.map (toUns (fmtBits f))))

/-- Clips of one written block (R71). -/
def clipUpd (d : Dev) (x : Flight) (bi bj n : Nat) : Dev :=
  if n = 0 then d
  else
    let d1 := d.bumpN (O.CLIPPED_VALUES x.job) n
    let thr := d.setting x 4
    if n <= thr then d1
    else
      let d2 := d1.bump (O.CLIP_EVENTS x.job)
      if (d2.job x.job).clipSteps.contains x.step then d2
      else (d2.modJob x.job (fun j => { j with clipSteps := j.clipSteps ++ [x.step] })).eventJ 0x0101 1 1 0 x.job x.step
        (leBytes 2 x.tag ++ leBytes 4 bi ++ leBytes 4 bj ++ leBytes 1 n)

/-- Applies block b of bucket tile i. -/
def applyBlock (x : Flight) (c : RCtx) (u : UpdIn) (d : Dev) (ib : Nat × Nat) : Dev :=
  let t := updateD x.w
  let i := ib.1
  let b := ib.2
  let tile := t.segTile + i
  let f := agreedF (nth 0x80 (c.tb.getD []) (64 * i + b)) c.nC
  let codes := SMap.readRun 0 d.red.store ((c.base + 64 * i + b) * 64) 64
  let gs := codes.map (fun g => if f = zeroRow then (⟨0, 0⟩ : QVal) else ⟨s32 g, f⟩)
  let wb := segBlock d t.wSeg tile b
  let mb := segBlock d t.mSeg tile b
  let vb := segBlock d t.vSeg tile b
  let row := fun n => paramRow c.tileBase c.paramTc i (8 * (b / 8) + n / 8)
  let col := fun n => paramCol c.tileBase c.paramTc i (8 * (b % 8) + n % 8)
  let o := updBlock u row col gs (wb.2.map (o16Val wb.1)) (mb.2.map (o16Val mb.1)) (vb.2.map (uo16Val vb.1))
  let d1 := putSegBlock (putSegBlock (putSegBlock d t.wSeg tile 3 b o.w) t.mSeg tile 3 b o.m) t.vSeg tile 3 b o.v
  let d2 := match u.fmtW with
    | some fw => putSegBlock d1 t.wcSeg tile fw b o.wc
    | none => d1
  let d3 := clipUpd (clipUpd (clipUpd (clipUpd d2 x (row 0 / 8) (col 0 / 8) o.w.2.2) x (row 0 / 8) (col 0 / 8) o.m.2.2) x
    (row 0 / 8) (col 0 / 8) o.v.2.2) x (row 0 / 8) (col 0 / 8) o.wc.2.2
  if o.zeros = 0 then d3 else d3.bumpN (O.DOMAIN_COUNT x.job) o.zeros

/-- Every (tile, block) of a bucket. -/
def bucketBlocks (tiles : Nat) : List (Nat × Nat) := (List.range tiles).flatMap (fun i => (List.range 64).map (fun b => (i, b)))

/-! ### The checks of an APPLY (R326, R327) -/

/-- A closing APPLY of the shard has completed and its advance is pending. -/
def closePending (d : Dev) (g st : Nat) : Bool := d.red.applies.any (fun a => a.group == g && a.stack == st && a.finished)

/-- An APPLY is refused with STEP_MISMATCH. -/
def applyMismatch (d : Dev) (x : Flight) : Dev :=
  closeFlight ((endApply (d.bump (O.STEP_MISMATCHES x.job)) x false).addConds x.id [stMismatch]) x.id

/-- Some scale byte of the blocks an APPLY reads is a format error (R54). -/
def applyScaleBad (d : Dev) (t : UpdateD) : Bool :=
  [t.wSeg, t.mSeg, t.vSeg].any (fun s => (List.range t.tiles).any (fun i =>
    (d.segRead s ((t.segTile + i) * 8256) 64).any (fun b => scaleOf b.toNat == .bad)))

/-- Reserved codes that an APPLY reads in blocks of W and m. -/
def applyVoids (d : Dev) (t : UpdateD) (bs : List (Nat × Nat)) : Nat :=
  sumNat ([t.wSeg, t.mSeg].flatMap (fun s => bs.map (fun p =>
    let b := segBlock d s (t.segTile + p.1) p.2
    if b.1 = 0x80 then 0 else (b.2.filter (· == 0x8000)).length)))

/-- Blocks of the bucket are written up to number `upTo`; with the last one BUCKETS_APPLIED counts and the store entries are
released. -/
def applyBucket (d : Dev) (x : Flight) (c : RCtx) (done : Nat) (upTo : Option Nat) : Dev :=
  let t := updateD x.w
  let u := updIn d x t.group c.updStep
  let stop := Nat.min (64 * t.tiles) (upTo.getD (64 * t.tiles))
  let bs := ((bucketBlocks t.tiles).take stop).drop done
  let n := applyVoids d t bs
  let d1 := d.forEach bs (applyBlock x c u)
  let d2 := if n = 0 then d1 else (d1.countVoid x.job n).addConds x.id [stVoid]
  if bs = [] ∧ stop < 64 * t.tiles then d
  else
    let d3 := (d2.modFlight x.id (fun y => { y with lasting := true })).modApply x.id (fun a => { a with written := stop })
    if stop < 64 * t.tiles then d3
    else
      let d4 := (d3.bump (O.BUCKETS_APPLIED x.job)).dropCtx c
      closeFlight (endApply (if c.void.isEmpty then d4 else d4.addConds x.id [stVoid]) x true) x.id

/-- Why an APPLY may write nothing: the status of the first of its segments that refuses a write (R198, R269, R278), or
POISON where its curves or bias table are poisoned. -/
def applyRefused (d : Dev) (t : UpdateD) : Option Nat :=
  let g := d.group t.group
  if [g.curveSeg, g.bcSeg].any (fun s => (d.res s).st == 3) then some stPoison
  else (t.segs.map d.segWriteStatus).find? (· != 0)

/-- The curves and the bias table of the group are read under read pins (R325). -/
def curvesReady (d : Dev) (g : Group) : Bool := [g.curveSeg, g.bcSeg].all (fun s => (d.res s).st == 3 || d.pinFree s false)

/-- The checks of R326 on the curves and the bucket of an APPLY whose step is the next, then the bucket is applied. -/
def applyFresh (d : Dev) (x : Flight) (c : RCtx) (upTo : Option Nat) : Dev :=
  let t := updateD x.w
  let ends := fun st => closeFlight ((endApply d x false).addConds x.id [st]) x.id
  if !curvesOk d (d.group t.group) then ends stField
  else if c.sat.any (· != 0) ∧ d.setting x 3 = 1 then ends stSat
  else if applyScaleBad d t then ends stScale
  else applyBucket d x c 0 upTo

/-- The checks of R326 in order; one that reaches its curves waits for their read pins (R260, R325). -/
def applyChecked (d : Dev) (x : Flight) (c : RCtx) (upTo : Option Nat) : Dev :=
  let t := updateD x.w
  let g := d.group t.group
  let st := (d.res t.wSeg).home
  let n := d.count t.group st
  if d.frozenFor x t.group then closeFlight (endApply ((d.dropCtx c).bump (O.FROZEN_SKIPS x.job)) x false) x.id
  else if g.inconsistent then applyMismatch d x
  else if c.updStep = n + 2 ∧ closePending d t.group st then d
  else if c.updStep ≠ n + 1 then
    (applyMismatch (d.setGroup t.group { g with inconsistent := true }) x).eventJ 0x0701 3 6 0 x.job x.step
      (leBytes 2 t.group ++ leBytes 1 st ++ leBytes 4 n ++ leBytes 4 c.updStep)
  else if !curvesReady d g then d
  else
    match applyRefused d t with
    | some st => closeFlight ((endApply d x false).addConds x.id [st]) x.id
    | none => applyFresh (d.forEach [g.curveSeg, g.bcSeg] Dev.touch) x c upTo

/-- APPLY_EXECUTE: once its bucket has committed. One that has begun to write goes on. -/
def applyExecute (run : ApplyRun) (d : Dev) : Dev :=
  match updateFlight d run.f true with
  | none => d
  | some x =>
    let t := updateD x.w
    if !x.started then d
    else
      match d.ctxOf t.tag t.id t.epoch with
      | none => d
      | some c =>
        let done := ((d.applyOf x.id).map (·.written)).getD 0
        if !c.committed ∨ c.job ≠ x.job then d
        else if 0 < done then applyBucket d x c done run.upTo
        else if c.tiles ≠ t.tiles then closeFlight ((endApply d x false).addConds x.id [stField]) x.id
        else applyChecked d x c run.upTo

def execApplyExecute (run : ApplyRun) (s : State) : Host.Outcome State Fault Refusal := .next { s with dev := applyExecute run s.dev }

/-- GROUP_STEP_SET (R326, R332) of the group that GROUP_SELECT names: it waits for an APPLY that is writing. -/
def groupStepSet (j v : Nat) (d : Dev) : Dev :=
  let g := d.dget (O.GROUP_SELECT j)
  let e := d.group g
  if ¬ (e.valid ∧ e.job = j) then d
  else if groupWriting d g then d.setRed (fun r => { r with stepSets := r.stepSets ++ [(g, v)] })
  else setSteps d g v

def execGroupStepSet (j v : Nat) (s : State) : Host.Outcome State Fault Refusal := .next { s with dev := groupStepSet j v s.dev }

/-- GROUP_FROZEN values take effect at the job's step boundary (R79, R334). -/
def takeFrozen (d : Dev) (j : Nat) : Dev :=
  let mine := d.red.frozenNext.filter (fun p => (d.group p.1).job == j)
  let d1 := d.forEach mine (fun d p => d.setGroup p.1 { d.group p.1 with frozen := p.2 })
  d1.setRed (fun r => { r with frozenNext := r.frozenNext.filter (fun p => !mine.contains p) })

end Sys2Proof.Machine
end

