-- ==== Sys2Proof/Machine/Discard.lean ====
section
/-! DEFINITION. Discarding work (R23, R30, R34, R40, R73, R278 to R280, R398, R402, R444): what a discard does to a
descriptor of each command, to a step, and to everything that was in flight on a block. -/

namespace Sys2Proof.Machine

/-- Operations of a `move` that have neither a result nor a move of their own. -/
def moveOpsLeft (d : Dev) (x : Flight) : List Nat :=
  (List.range (moveCount x)).filter (fun k =>
    !x.results.any (fun r => r.1 == k) && !d.store.moves.any (fun m => m.of == some (x.id, k)))

/-- A move that has not committed ends DISCARDED: a waiting one without starting, an active one abandoned. -/
def discardOneMove (d : Dev) (m : Move) : Dev :=
  if m.active then abandonMove d m.seg 1 stDiscard else endMove ((d.takeMove m).unqueue m) m stDiscard

/-- A `move` descriptor is discarded: its committed operations stand and RESULT shows them; a batch already accepted runs
to its end and then reports DISCARDED (R444). -/
def discardMove (d : Dev) (x : Flight) : Dev :=
  if !x.started then d.finish x.id stDiscard
  else
    let d1 := d.addConds x.id [stDiscard]
    if moveBatch x then d1
    else
      let mine := d.store.moves.filter (fun m => match m.of with | some (f, _) => f == x.id | none => false)
      let d2 := d1.forEach mine discardOneMove
      d2.forEach (moveOpsLeft d x) (fun d k => addResult d x.id k stDiscard (moveOp (listRec d x k)).seg)

/-- A `reduce` descriptor is discarded: its context, unless committed, is aborted (R312, R444). -/
def discardReduce (d : Dev) (x : Flight) : Dev :=
  match d.red.ctxs.find? (fun c => c.flights.contains x.id && !c.committed) with
  | some c => (abortCtx d c none).finish x.id stDiscard
  | none => d.finish x.id stDiscard

/-- A `sync` descriptor is discarded: a waiting acquire no longer waits, a barrier is aborted. -/
def discardSync (d : Dev) (x : Flight) : Dev :=
  let t := syncD x.w
  if t.sop = 1 then (unwaitSem d t.sem x.id).finish x.id stDiscard
  else
    match d.sched.barriers.find? (fun b => b.flights.contains x.id) with
    | some b => (abortBarrier d b none).finish x.id stDiscard
    | none => d.finish x.id stDiscard

/-- Discards one descriptor that has no completion status yet. -/
def discardFlight (d : Dev) (f : Nat) : Dev :=
  match d.flight f with
  | none => d
  | some x =>
    if x.done.isSome then d
    else
      match x.opcode with
      | 6 => discardMove d x
      | 7 => discardReduce d x
      | 8 => discardApply d x
      | 9 => (if forkMade d x then unreserve d f else releaseFork d x).finish f stDiscard
      | 10 => (d.setSrv (fun s => { s with edits := s.edits.filter (fun e => e.f != f) })).finish f stDiscard
      | 11 => discardSync d x
      | _ => d.finish f stDiscard

/-- Discards every descriptor of a list. -/
def discardAll (d : Dev) (fs : List Nat) : Dev := settle (d.forEach fs discardFlight)

/-- A step is stopped (R520): every issued and not yet started descriptor of the job's step completes DISCARDED. -/
def Dev.stopStep (d : Dev) (x : Flight) : Dev :=
  d.forEach ((d.sched.flights.filter (fun y => y.job == x.job && y.step == x.step && y.id != x.id && y.live && !y.started)).map
    (·.id)) discardFlight

/-- Descriptors of a job's step without a status. -/
def Dev.stepFlights (d : Dev) (j step : Nat) : List Nat :=
  (d.sched.flights.filter (fun x => x.job == j && x.step == step && x.done.isNone)).map (·.id)

/-- Discards a whole step, on every block (R398, R40). -/
def discardStep (d : Dev) (j step : Nat) : Dev := discardAll d (d.stepFlights j step)

/-- Logical blocks whose OPB a command of the hub reads or writes: lists, results, images, rank gradients, mask rows. -/
def hubBlocks (d : Dev) (x : Flight) : List Nat :=
  match x.opcode with
  | 6 => if (listRef x).kind = 1 ∨ (resultRef x).kind = 1 then [x.target] else []
  | 7 => if (reduceD x.w).isLocal then [(reduceD x.w).srcBlock] else []
  | 8 => if (updateD x.w).apply then [] else [x.target]
  | 9 => if (forkList x).kind = 1 then [x.target] else []
  | 10 => if (listRef x).kind = 1 ∨ (List.range (editCount x)).any (fun k => fld (listRec d x k) 0 4 == 5) then [x.target] else []
  | _ => []

/-- Physical blocks that a descriptor runs on or whose OPB it accesses. -/
def Dev.touches (d : Dev) (x : Flight) : List Nat :=
  d.flightPhys x ++ (hubBlocks d x).filterMap (fun lb => (d.place x.job lb).phys)

/-- Steps with a descriptor in flight on a physical block. -/
def Dev.stepsOn (d : Dev) (b : Nat) : List (Nat × Nat) :=
  ((d.sched.flights.filter (fun x => x.live && (d.touches x).contains b)).map (fun x => (x.job, x.step))).dedup

/-- A job keeps recurrent state of batch row `r` on physical block `b` (R171). -/
def Dev.stateOn (d : Dev) (j r b : Nat) : Bool := (d.job j).panels.any (fun p => (panelRow d j p r).map (·.1) == some b)

/-- Pending forks whose parent's state lies on a physical block (R240). -/
def Dev.forksOn (d : Dev) (b : Nat) : List Nat :=
  (d.sched.flights.filter (fun x => x.opcode == 9 && x.done.isNone && !forkMade d x &&
    d.stateOn x.job (d.stream (forkD x.w).parent).row b)).map (·.id)

/-- Streams of the loops whose state lay on the blocks `bs`: their next step takes mask 01 (R24, R182). -/
def loseState (d : Dev) (bs : List Nat) : Dev :=
  d.forEach d.srv.loops (fun d l =>
    let gone := ((d.streamsOf l.job).filter (fun p => p.2.hasRow && bs.any (d.stateOn l.job p.2.row))).map (·.1)
    d.modLoop l.job (fun l => { l with lost := (l.lost ++ gone).dedup }))

/-- Everything in flight on some blocks is discarded, and every dependent step elsewhere; recurrent state there is lost (R23,
R24, R30, R40, R240). -/
def discardBlocks (d : Dev) (bs : List Nat) : Dev :=
  let steps := (bs.flatMap d.stepsOn).dedup
  let d1 := d.forEach steps (fun d s => discardStep d s.1 s.2)
  let d2 := discardAll d1 (bs.flatMap d1.forksOn)
  (loseState d2 bs).forEach bs (fun d b => d.setTenant b none)

/-- A descriptor read a poisoned datum: it reports POISON and its step is discarded (R21, R278, R73). -/
def poisonReader (d : Dev) (f : Nat) : Dev :=
  match d.flight f with
  | none => d
  | some x =>
    if x.done.isSome then d
    else discardStep ((discardFlight (d.addConds f [stPoison]) f).modFlight f (fun y => { y with done := some stPoison })) x.job x.step

/-! ### Grace (R402) -/

/-- What a force-release leaves on record. -/
def semBrokenEvent (d : Dev) (n : Nat) (s : Sem) : Dev :=
  (d.bump (O.SEM_BROKEN s.owner)).eventJ 0x0703 2 6 0 s.owner s.step
    (leBytes 2 n ++ leBytes 1 ((s.waiters.head?.map (·.2)).getD 0))

/-- The grace timer of a semaphore runs out: the owner's steps from OWNER_STEP on that have not completed are discarded,
the semaphore breaks and the first waiter is granted; a displaced waiter waits for its next tenancy (R402, R403). -/
def semGrace (n : Nat) (d : Dev) : Dev :=
  let s := d.sem n
  if !s.grace then d
  else
    let fs := (d.sched.flights.filter (fun x => x.job == s.owner && decide (s.step <= x.step) && x.done.isNone)).map (·.id)
    let d1 := semBrokenEvent (discardAll d fs) n s
    serveSem (breakSem d1 n) n true

/-- SEM_GRACE_EXPIRY (R402). -/
def execSemGraceExpiry (sem : Nat) (s : State) : Host.Outcome State Fault Refusal := .next { s with dev := semGrace sem s.dev }

end Sys2Proof.Machine
end

