-- ==== Sys2Proof/Machine/Partition.lean ====
section
/-! DEFINITION. Partitions (R390 to R393, R521): where the device manager places logical blocks and their runs of slots,
OPB bytes and programs, what a job's stages bind together, zeroing and restoring. -/

namespace Sys2Proof.Machine

/-! ### Block state (R9, R41) -/

/-- Physical block address: region times 13 plus physical index (R9). -/
def regionOf (b : Nat) : Nat := b / 13
def physIdx (b : Nat) : Nat := b % 13

/-- The block holds an active slot of a region that is not fenced. -/
def Dev.blockActive (d : Dev) (b : Nat) : Bool :=
  let w := d.dget (O.REGION_BLOCK_STATE (regionOf b))
  bit w (physIdx b) && !bit w 30

/-- Job contexts that hold a partition. -/
def Dev.heldJobs (d : Dev) : List (Nat × Job) := d.sched.jobs.filter (fun p => !p.2.places.isEmpty)

/-- What a job asks for on each block. -/
structure Ask where
  shared : Bool
  slots : Nat
  opb : Nat
  progs : Nat
  deriving DecidableEq, Repr, Inhabited

/-- What a job in force asks for on each block, and what a pending REFORM does. -/
def Job.ask (jb : Job) : Ask := ⟨jb.shared, jb.slots, jb.opb, jb.progs⟩
def Part.ask (p : Part) : Ask := ⟨p.shared, p.slots, p.opb, p.progs⟩

/-- Places of jobs other than `j` on block `b`, with what they ask for; a pending REFORM holds its places too. -/
def Dev.onBlock (d : Dev) (j b : Nat) : List (Ask × Place) :=
  (d.heldJobs.filter (fun p => p.1 != j)).flatMap (fun p =>
    ((p.2.places.filter (fun q => q.phys == some b)).map (fun q => (p.2.ask, q))) ++
    match p.2.reform with
    | some r => (r.places.filter (fun q => q.phys == some b)).map (fun q => (r.ask, q))
    | none => [])

/-! ### Room on a block (R390, R391) -/

/-- First start, a multiple of `al`, of a free run of `n` units below `cap`, given the runs in use. -/
def firstFit (al cap n : Nat) (used : List (Nat × Nat)) : Option Nat :=
  let up := fun x => ceilDiv x al * al
  let rs := sortBy (fun a b => decide (a.1 <= b.1)) (used.filter (fun u => decide (0 < u.2)))
  let s := rs.foldl (fun (acc : Nat × Option Nat) u =>
    match acc.2 with
    | some _ => acc
    | none => if acc.1 + n <= u.1 then (acc.1, some acc.1) else (Nat.max acc.1 (up (u.1 + u.2)), none)) (0, none)
  match s.2 with
  | some a => some a
  | none => if s.1 + n <= cap then some s.1 else none

/-- The old start of a run where it still fits, else the first free one. -/
def fitAt (al cap n : Nat) (used : List (Nat × Nat)) (old : Option Nat) : Option Nat :=
  match old with
  | some s =>
    if s + n <= cap ∧ used.all (fun u => decide (u.2 = 0 ∨ u.1 + u.2 <= s ∨ s + n <= u.1)) = true then some s
    else firstFit al cap n used
  | none => firstFit al cap n used

/-- Where a job's runs would lie on block `b`, its old runs there kept if they can be; none when the block has no room. Slots
start at an even entry, so that the job's A64 slots are those of the block (R58, R92; log 24). -/
def roomAt (d : Dev) (j b : Nat) (a : Ask) (old : Option Place) : Option Place :=
  let os := d.onBlock j b
  if d.blockActive b = false then none
  else if a.shared = false ∧ os ≠ [] then none
  else if os.any (fun o => !o.1.shared) then none
  else
    match fitAt 2 128 a.slots (os.map (fun o => (o.2.slot, o.1.slots))) (old.map (·.slot)),
        fitAt 1 2097152 a.opb (os.map (fun o => (o.2.opb, o.1.opb))) (old.map (·.opb)),
        fitAt 1 16 a.progs (os.map (fun o => (o.2.prog, o.1.progs))) (old.map (·.prog)) with
    | some s, some o, some p => some ⟨some b, s, o, p⟩
    | _, _, _ => none

def blockRoom (d : Dev) (j b : Nat) (a : Ask) : Option Place := roomAt d j b a none

/-- Active blocks of a region that nobody but `j` holds, `taken` apart. -/
def regionFree (d : Dev) (j : Nat) (taken : List Nat) (r : Nat) : Nat :=
  ((rangeFrom (13 * r) 13).filter (fun b => d.blockActive b && (d.onBlock j b).isEmpty && !taken.contains b)).length

/-- Allowed regions, the one with the fewest free blocks first, then the lower number. -/
def regionOrder (d : Dev) (j regions : Nat) (taken : List Nat) : List Nat :=
  sortBy (fun a b => decide (regionFree d j taken a < regionFree d j taken b) ||
    (regionFree d j taken a == regionFree d j taken b && decide (a <= b))) (bitsOf 12 regions)

/-- Places for `n` blocks in one region, lowest addresses first. -/
def placeIn (d : Dev) (j : Nat) (a : Ask) (taken : List Nat) (n r : Nat) : Option (List Place) :=
  let ps := (rangeFrom (13 * r) 13).filterMap (fun b => if taken.contains b then none else blockRoom d j b a)
  if ps.length < n then none else some (ps.take n)

/-- Places for `n` blocks that must share a region. -/
def placeGroup (d : Dev) (j : Nat) (a : Ask) (regions : Nat) (taken : List Nat) (n : Nat) : Option (List Place) :=
  (regionOrder d j regions taken).findSome? (placeIn d j a taken n)

/-! ### Stages bind blocks to one region (R148, R521) -/

/-- Merges a set of logical blocks into a list of disjoint sets. -/
def mergeGroup (gs : List (List Nat)) (g : List Nat) : List (List Nat) :=
  let hit := gs.filter (fun h => h.any (fun b => g.contains b))
  gs.filter (fun h => !h.any (fun b => g.contains b)) ++ [(g ++ hit.flatten).dedup]

/-- Sets of logical blocks 0 to n - 1 that stages bind to one region, by lowest member. -/
def blockGroups (n : Nat) (pipes : List (Nat × List Stage)) : List (List Nat) :=
  let gs := (pipes.flatMap (·.2)).foldl (fun gs s => mergeGroup gs s.blocks) ((List.range n).map (fun b => [b]))
  sortBy (fun a b => decide (a.foldl Nat.min 256 <= b.foldl Nat.min 256)) (gs.map (sortBy (fun a b => decide (a <= b))))

/-- Places every group in turn: pairs (logical block, place). -/
def placeGroups (d : Dev) (j : Nat) (a : Ask) (regions : Nat) : List (List Nat) → List Nat → Option (List (Nat × Place))
  | [], _ => some []
  | g :: gs, taken =>
    match placeGroup d j a regions taken g.length with
    | none => none
    | some ps =>
      (placeGroups d j a regions gs (taken ++ ps.filterMap (·.phys))).map (fun rest => g.zip ps ++ rest)

/-- Places of logical blocks 0 to n - 1. -/
def placeAll (d : Dev) (j : Nat) (a : Ask) (regions n : Nat) (pipes : List (Nat × List Stage)) : Option (List Place) :=
  (placeGroups d j a regions (blockGroups n pipes) []).map (fun ps =>
    (List.range n).map (fun lb => ((ps.find? (fun p => p.1 == lb)).map (·.2)).getD ⟨none, 0, 0, 0⟩))

/-- PART_RESULT of a partition that cannot be formed: 1 no blocks, 2 slots, 3 OPB, 4 programs (R387). -/
def placeFault (d : Dev) (j : Nat) (a : Ask) (regions n : Nat) (pipes : List (Nat × List Stage)) : Nat :=
  if (placeAll d j { a with slots := 0, opb := 0, progs := 0 } regions n pipes).isNone then 1
  else if (placeAll d j { a with opb := 0, progs := 0 } regions n pipes).isNone then 2
  else if (placeAll d j { a with progs := 0 } regions n pipes).isNone then 3
  else 4

/-! ### Zeroing and restoring (R23, R392, R393) -/

/-- Slots [s, s + n) of a block read zero, with their row words. -/
def zeroSlots (d : Dev) (b s n : Nat) : Dev :=
  d.setMem (fun m => { m with
    acc := SMap.erase m.acc (accKey b s 0 0) (n * 4160), rows := SMap.erase m.rows (rowKey b s 0 0) (n * 256) })

/-- OPB bytes [o, o + n) of a block read zero, with the shadow entries of that run. -/
def zeroOpb (d : Dev) (b o n : Nat) : Dev :=
  d.setMem (fun m => { m with
    opb := SMap.erase m.opb (opbKey b o) n, shadow := SMap.erase m.shadow (shadowKey b o) (n / 1024 * 64) })

/-- Programs [p, p + n) of a block read NOP. -/
def zeroProgs (d : Dev) (b p n : Nat) : Dev :=
  (d.setMem (fun m => { m with prog := SMap.erase m.prog (progKey b p 0) (n * 32) })).setBlk (fun k =>
    { k with progCopy := SMap.erase k.progCopy (progKey b p 0) (n * 32),
             progReloaded := k.progReloaded.filter (fun q => !(q.1 == b && decide (p <= q.2 ∧ q.2 < p + n))) })

/-- A job's runs at a place are zeroed as they leave it. -/
def zeroPlace (d : Dev) (jb : Job) (p : Place) : Dev :=
  match p.phys with
  | none => d
  | some b => zeroProgs (zeroOpb (zeroSlots d b p.slot jb.slots) b p.opb jb.opb) b p.prog jb.progs

/-- The element programs of a lost logical block are loaded from their copy in device memory. -/
def restoreProgs (d : Dev) (n : Nat) (b0 p0 b1 p1 : Nat) : Dev :=
  let ws := SMap.readRun 0 d.blk.progCopy (progKey b0 p0 0) (n * 32)
  (d.setMem (fun m => { m with prog := SMap.writeRun 0 m.prog (progKey b1 p1 0) ws })).setBlk (fun k =>
    { k with progCopy := SMap.writeRun 0 k.progCopy (progKey b1 p1 0) ws })

/-- The resident operands of the stages of a lost logical block, with their scale shadow (log 64). -/
def restoreOperands (d : Dev) (jb : Job) (lb b0 o0 b1 o1 : Nat) : Dev :=
  d.forEach ((jb.pipes.flatMap (·.2)).filter (fun s => s.blocks.contains lb && decide (0 < s.resLen))) (fun d s =>
    let d1 := d.opbWrite b1 (o1 + s.resBase) (d.opbRead b0 (o0 + s.resBase) s.resLen)
    let e0 := (o0 + s.resBase) / 1024
    let n := (o0 + s.resBase + s.resLen + 1023) / 1024 - e0
    let sh := SMap.readRun 0 d1.mem.shadow ((b0 * 2048 + e0) * 64) (n * 64)
    d1.setMem (fun m => { m with shadow := SMap.writeRun 0 m.shadow ((b1 * 2048 + (o1 + s.resBase) / 1024) * 64) sh }))

/-- A logical block of job `j` moves from a failed place to another: stage configuration, programs and operands. -/
def movePlace (d : Dev) (j lb : Nat) (p : Place) : Dev :=
  let jb := d.job j
  let old := d.place j lb
  match old.phys, p.phys with
  | some b0, some b1 =>
    let d1 := restoreOperands (restoreProgs d jb.progs b0 old.prog b1 p.prog) jb lb b0 old.opb b1 p.opb
    d1.modJob j (fun x => { x with places := setNth x.places lb p })
  | _, _ => d

/-- A logical block that cannot be placed is lost (R393). -/
def losePlace (d : Dev) (j lb : Nat) : Dev :=
  (d.modJob j (fun x => { x with places := setNth x.places lb ⟨none, 0, 0, 0⟩ })).bump (O.PART_LOST j)

/-- Re-places the lost blocks `lbs` of one group of a job, in the region of its blocks that remain, if any (R393). -/
def replaceGroup (d : Dev) (j : Nat) (g lbs : List Nat) : Dev :=
  let jb := d.job j
  let alive := (g.filter (fun lb => !lbs.contains lb)).filterMap (fun lb => (d.place j lb).phys)
  let regions := match alive with | [] => jb.regions | b :: _ => if bit jb.regions (regionOf b) then 2 ^ regionOf b else 0
  let taken := jb.places.filterMap (·.phys)
  match placeGroup d j jb.ask regions taken lbs.length with
  | some ps => d.forEach (lbs.zip ps) (fun d q => movePlace d j q.1 q.2)
  | none => d.forEach lbs (fun d lb => losePlace d j lb)

/-- Re-places every logical block of a job that lies on one of the physical blocks `bs`. -/
def replaceJob (d : Dev) (bs : List Nat) (j : Nat) : Dev :=
  let jb := d.job j
  let lost := (List.range jb.places.length).filter (fun lb =>
    match (d.place j lb).phys with | some b => bs.contains b | none => false)
  d.forEach (blockGroups jb.places.length jb.pipes) (fun d g =>
    let l := g.filter (fun lb => lost.contains lb)
    if l = [] then d else replaceGroup d j g l)

/-- Re-places what every job has on some physical blocks, job by job. -/
def replaceAll (d : Dev) (bs : List Nat) : Dev := d.forEach (d.heldJobs.map (·.1)) (fun d j => replaceJob d bs j)

end Sys2Proof.Machine
end

