-- ==== Sys2Proof/Machine/Faults.lean ====
section
/-! DEFINITION. Faults above the cell (R21 to R31, R36 to R40, R279): uncorrectable SRAM errors, block retirement, region
fences and the evacuation of a fenced stack. -/

namespace Sys2Proof.Machine

/-! ### Block retirement (R22 to R25) -/

/-- SPARE_INDEX of a region; 15 none. -/
def Dev.spareIndex (d : Dev) (r : Nat) : Nat := fld (d.dget (O.REGION_BLOCK_STATE r)) 26 4

/-- REGION_BLOCK_STATE once block p is retired and spare s, if any, takes its slot (R41). -/
def retireWord (w p : Nat) (spare : Option Nat) : Nat :=
  let w1 := setFld (setFld w p 1 0) (13 + p) 1 1
  match spare with
  | some s => setFld (setFld w1 s 1 1) 26 4 15
  | none => if fld w 26 4 = p then setFld w1 26 4 15 else w1

/-- Every job's logical block on `b` moves to the standing spare, run for run (R23). -/
def toSpare (d : Dev) (b s : Nat) : Dev :=
  d.forEach d.heldJobs (fun d jb =>
    d.forEach jb.2.places.zipIdx (fun d q =>
      if q.1.phys = some b then movePlace d jb.1 q.2 { q.1 with phys := some s } else d))

/-- Fields of the page descriptor that a block's sequencer works on, for the event record of its fault (R206): the 22 bytes of
its bits 175 to 0, from byte 2 of DETAIL (log 133). -/
def pageDetail (d : Dev) (b : Nat) : Bytes :=
  match d.blk.pages.find? (fun p => p.1 == b) with
  | some p => leBytes 22 p.2.toNat
  | none => []

/-- Retires a block, unless a device fence covers it (R36): its work is discarded, the standing spare takes its place; without a spare its logical blocks are
re-placed in the region or lost (R25, R393; log 63). The standing spare itself is retired without replacement. -/
def retireBlock (d : Dev) (b cause : Nat) : Dev :=
  let r := regionOf b
  let p := physIdx b
  let w := d.dget (O.REGION_BLOCK_STATE r)
  if 156 <= b ∨ bit w (13 + p) ∨ bit w 30 ∨ d.pow.deviceFenced then d
  else
    let s := fld w 26 4
    let pd := pageDetail d b
    let d1 := discardBlocks d [b]
    if s = p then
      ((d1.dset (O.REGION_BLOCK_STATE r) (retireWord w p none)).bump O.BLOCK_OUTAGES).event 0x0201 3 1 b (leBytes 1 cause ++ [15] ++ pd)
    else if s < 13 then
      ((toSpare (d1.dset (O.REGION_BLOCK_STATE r) (retireWord w p (some s))) b (13 * r + s)).bump O.BLOCK_OUTAGES).event
        0x0201 3 1 b (leBytes 1 cause ++ leBytes 1 s ++ pd)
    else
      ((replaceAll (d1.dset (O.REGION_BLOCK_STATE r) (retireWord w p none)) [b]).bump O.BLOCK_OUTAGES).event 0x0202 3 1 b (leBytes 1 cause ++ [0] ++ pd)

/-- BLOCK_RETIRE (R23). -/
def execBlockRetire (blk cause : Nat) (s : State) : Host.Outcome State Fault Refusal :=
  .next { s with dev := retireBlock s.dev blk cause }

/-- UNCORRECTABLE_SRAM (R21, R85): the step that read the datum is discarded and its reader reports POISON; a second error
of the ACC or the OPB at one address is a block fault (R22). A corrected error is counted, in a count of the block's memory
that the dictionary has no object for (log 131). -/
def sramError (d : Dev) (b mem addr : Nat) : SramRead → Dev
  | .corrected =>
    d.setBlk (fun k => { k with corrected := SMap.put 0 k.corrected (b * 3 + mem) (SMap.get 0 k.corrected (b * 3 + mem) + 1) })
  | .uncorrectable reader =>
    let d1 := match reader with | some f => poisonReader d f | none => d
    if mem < 2 ∧ d.blk.failedOnce.contains (b, mem, addr) then retireBlock d1 b 2
    else if mem < 2 then d1.setBlk (fun k => { k with failedOnce := k.failedOnce ++ [(b, mem, addr)] })
    else d1

def execUncorrectableSram (blk mem addr : Nat) (read : SramRead) (s : State) : Host.Outcome State Fault Refusal :=
  .next { s with dev := sramError s.dev blk mem addr read }

/-! ### Region fence (R29 to R31, R279, R393) -/

/-- Segments homed in a stack. -/
def Dev.segsIn (d : Dev) (stack : Nat) : List Nat :=
  (d.store.res.filter (fun p => p.2.st != 0 && p.2.tier == 0 && p.2.home == stack)).map (·.1)

/-- Moves, active and waiting, whose source or destination is a stack. -/
def Dev.movesAt (d : Dev) (stack : Nat) : List Move :=
  d.store.moves.filter (fun m =>
    let r := d.res m.seg
    (r.tier == 0 && r.home == stack) || (m.active && m.destTier == 0 && m.destHome == stack) ||
    (!m.active && (m.op == 3 || m.op == 5) && m.home == stack))

/-- Steps that take data from a stack or move data to or from it, and those of APPLYs of its update unit. -/
def Dev.readersOf (d : Dev) (stack : Nat) : List (Nat × Nat) :=
  let movers := (d.movesAt stack).filterMap (fun m => m.of.map (·.1))
  ((d.sched.flights.filter (fun x => x.live &&
    (x.holds.any (fun e => (d.res e).tier == 0 && (d.res e).home == stack) || movers.contains x.id ||
     (x.opcode == 8 && d.red.applies.any (fun a => a.f == x.id && a.stack == stack))))).map (fun x => (x.job, x.step))).dedup

/-- The stack's own content after a fence: it waits for evacuation, or is poisoned (R31). -/
def fenceStack (d : Dev) (r : Nat) (sound : Bool) : Dev :=
  let d1 := d.forEach (d.movesAt r) discardOneMove
  let es := d1.segsIn r
  if sound then d1.setStore (fun s => { s with evacuating := s.evacuating ++ es.filter (fun e => !s.evacuating.contains e) })
  else d1.forEach es (fun d e => poisonSeg d e (d.res e).frame)

/-- The four of R31 are sound: no fault of the crossbar, the stack or the uplink (R29 items 1, 5 and 6). -/
def stackSound (cause : Nat) (sound : Bool) : Bool := sound && cause != 1 && cause != 5 && cause != 6

/-- A second fault of a region that still recovers: its stack's evacuation goes to the device, which gives it up where the
fault leaves the stack or its path unsound (R31, R37; log 137). -/
def refence (d : Dev) (r cause : Nat) (sound : Bool) : Dev :=
  if stackSound cause sound then d
  else
    let es := d.store.evacuating.filter (fun e => (d.res e).tier == 0 && (d.res e).home == r)
    (d.forEach es (fun d e => poisonSeg d e (d.res e).frame)).setStore (fun s =>
      { s with evacuating := s.evacuating.filter (fun e => !es.contains e) })

/-- Fences a region (R30): every step that involves it is discarded, it leaves every partition, the lost logical blocks are
re-placed, and its stack is evacuated or poisoned. A device fence covers it (R36). -/
def fenceRegion (d : Dev) (r cause : Nat) (sound : Bool) : Dev :=
  if 12 <= r ∨ d.pow.deviceFenced then d
  else if d.regionFenced r then refence d r cause sound
  else
    let ok := stackSound cause sound
    let bs := rangeFrom (13 * r) 13
    let d1 := discardBlocks (d.forEach (d.readersOf r) (fun d s => discardStep d s.1 s.2)) bs
    let d2 := d1.dset (O.REGION_BLOCK_STATE r) (setFld (d1.dget (O.REGION_BLOCK_STATE r)) 30 1 1)
    let d3 := fenceStack (replaceAll d2 bs) r ok
    (d3.bump O.REGION_OUTAGES).event 0x0301 4 2 r (leBytes 1 cause ++ leBytes 1 (bool01 ok))

/-- REGION_FENCE (R30). -/
def execRegionFence (r cause : Nat) (sound : Bool) (s : State) : Host.Outcome State Fault Refusal :=
  .next { s with dev := fenceRegion s.dev r cause sound }

/-- REGION_WATCHDOG_EXPIRY: the third region fault of R29; it says nothing against the stack. -/
def execRegionWatchdogExpiry (r : Nat) (s : State) : Host.Outcome State Fault Refusal :=
  .next { s with dev := fenceRegion s.dev r 3 true }

/-- One segment of a fenced stack reaches the slow tier, beyond quota if need be; where the slow tier has not the free frames
it is poisoned (R31, R279). Where they make no run, even after relocation, it waits. -/
def evacuate (d : Dev) (e : Nat) : Dev :=
  let r := d.res e
  let off := fun (d : Dev) => d.setStore (fun s => { s with evacuating := s.evacuating.filter (· != e) })
  if !d.store.evacuating.contains e ∨ r.st = 0 then d
  else if r.st = 3 then off d
  else
    match d.takeRun 12 r.frames (r.frames * 4096) with
    | some p => off (((p.1.switchFrames e 12 p.2 r.frames).setCharge 0 e r.owner 0).setCharge 1 e r.owner r.len)
    | none => if d.freeBytes 12 < r.frames * 4096 then off (poisonSeg d e r.frame) else d

/-- SEGMENT_EVACUATED (R31). -/
def execSegmentEvacuated (seg : Nat) (s : State) : Host.Outcome State Fault Refusal := .next { s with dev := settle (evacuate s.dev seg) }

end Sys2Proof.Machine
end

