-- ==== Sys2Proof/Machine/Attend.lean ====
section
/-! DEFINITION. `attend` (R199 to R217, R428, R445): the append, the two-pass walk over the pages of a cache, the exact
soft maximum and the output. -/

namespace Sys2Proof.Machine

structure AttD where
  rewalk : Bool
  dir : Nat
  q : Nat
  g : Nat
  qAddr : Nat
  kNew : Nat
  vNew : Nat
  causal : Bool
  prog : Nat
  param : Nat
  scoreSlots : Nat
  c : Nat
  split : Nat
  opbBase : Nat
  opbLen : Nat
  accBase : Nat
  outFmt : Nat
  out : Ref
  deriving DecidableEq, Repr, Inhabited

def attD (w : Nat) : AttD :=
  { rewalk := bit w 80, dir := fld w 128 19, q := fld w 147 7, g := fld w 154 7, qAddr := fld w 161 21, kNew := fld w 182 21,
    vNew := fld w 203 21, causal := bit w 224, prog := fld w 225 5, param := fld w 230 14 * 128, scoreSlots := fld w 244 7,
    c := 2 ^ fld w 251 2, split := fld w 253 4, opbBase := fld w 257 11, opbLen := fld w 268 12, accBase := fld w 280 7,
    outFmt := fld w 287 2, out := refAt w 296 }

def AttD.m (t : AttD) : Nat := t.g * t.q

/-! ### The issue check (R140, R199) -/

/-- Fields. An ACC output without PACK starts at a whole slot (log 48). -/
def attFieldsOk (x : Flight) (t : AttD) : Bool :=
  let w := x.w
  fld w 72 8 == 0 && fld w 81 15 == 0 && fld w 289 7 == 0 && fld w 344 168 == 0 && refOk w 296 && x.round != 3 &&
  decide (t.outFmt < 3) && t.out.fmt == 0 && (if t.outFmt = 2 then t.out.kind == 2 && (t.out.pack != 0 || t.out.sub == 0) else t.out.kind == 1) &&
  decide (1 <= t.g ∧ t.g <= 64 ∧ t.g * t.q <= 512 ∧ t.prog <= 16 ∧ 1 <= t.split ∧ t.split <= 12) &&
  (t.split == 1 || t.c == 1) && t.opbLen != 4095

/-- Output format of the tiles: D8, O16 or A32. -/
def AttD.fmtOut (t : AttD) : Nat := if t.outFmt = 0 then 2 else if t.outFmt = 1 then 3 else 4

/-- Columns of the output matrix. -/
def attCols (h : DirHdr) (t : AttD) : Nat := h.hkv * t.g * (64 * h.dt)

/-- Slot and sub-slot of output tile column `ct` (log 48). -/
def attOutSlot (t : AttD) (base ct : Nat) : Nat × Nat :=
  let x := if t.out.pack = 1 then 32 else if t.out.pack = 2 then 64 else 1
  linSlot x false base (t.out.sub + ct)

/-- Shape of an ACC output. -/
def attOutShape (t : AttD) : Nat := if t.out.pack = 1 then 5 else if t.out.pack = 2 then 6 else 0

/-- L as the directory has it: LEN before the append (R201). -/
def attLen (h : DirHdr) (t : AttD) : Nat := if t.rewalk then h.len - t.q else h.len

/-- Sub-slots and slots of an ACC output, from its first slot. -/
def attOutSubs (h : DirHdr) (t : AttD) : Nat := attCols h t / 64
def attOutSlots (h : DirHdr) (t : AttD) : Nat := slotsFor (shapeOf (attOutShape t)).x false t.out.sub (attOutSubs h t)

/-- Ranges against the directory, the grants and the stage. -/
def attFits (d : Dev) (x : Flight) (t : AttD) (nb : Nat) : Bool :=
  let j := d.job x.job
  let h := d.dirHdr t.dir
  let dd := 64 * h.dt
  let heads := Nat.min t.c h.hkv
  d.isDir t.dir && decide (t.q <= h.qMax) && (if t.rewalk then decide (t.q <= h.len) else decide (h.len + t.q <= 16777216)) &&
  decide (2 * pageBytes h.dt + 64 * h.qMax + 4160 <= t.opbLen * 1024) && decide ((t.opbBase + t.opbLen) * 1024 <= j.opb) &&
  decide (t.qAddr + heads * gridBytes 2 t.m dd <= j.opb) && decide (t.kNew + heads * gridBytes 2 t.q dd <= j.opb) &&
  decide (t.vNew + heads * gridBytes 2 t.q dd <= j.opb) && (t.prog == 16 || (decide (t.prog < j.progs) && decide (t.param + 128 <= j.opb))) &&
  decide (t.accBase + t.scoreSlots <= j.slots) && decide (t.accBase < j.slots) &&
  (if t.outFmt = 2 then decide (t.out.slot + attOutSlots h t <= j.slots) && decide (t.out.pack == 0 || t.q <= 64 / (shapeOf (attOutShape t)).x)
   else decide (t.out.off + gridBytes t.fmtOut t.q (attCols h t) <= j.opb)) &&
  decide (ceilDiv h.hkv t.c * t.split <= nb)

/-- The issue check of an `attend`. -/
def issueAttend (d : Dev) (x : Flight) : Issue :=
  let t := attD x.w
  if !attFieldsOk x t ∨ (t.rewalk ∧ !d.sched.issued.contains (x.job, x.step, 5, x.tag)) then .reject stField
  else if t.q = 0 then .finished stOk
  else
    match d.stageBlocks x.job x.target with
    | none => .reject stField
    | some bs =>
      if !attFits d x t bs.length then .reject stField
      else
        let n := ceilDiv (d.dirHdr t.dir).hkv t.c * t.split
        let used := bs.take n
        if used.any (fun lb => decide (slotsAvail (d.job x.job) lb t.accBase < t.scoreSlots) ||
            (t.outFmt == 2 && decide (slotsAvail (d.job x.job) lb t.out.slot < attOutSlots (d.dirHdr t.dir) t))) then .reject stField
        else .go (used.map onBlock)

/-! ### Who holds what (R200) -/

/-- Logical block of head h and page split u. -/
def attBlock (x : Flight) (t : AttD) (h u : Nat) : Nat := nth 0 x.blocks (h / t.c * t.split + u)

/-- A D8 operand of head h on logical block lb: engine tile (i, j) of a `rows` x D matrix at the head's offset. -/
def headTile (d : Dev) (x : Flight) (t : AttD) (lb off rows dt h i j : Nat) : Array Byte :=
  (d.opbTile (d.physOf x.job lb) (d.opbAddr x.job lb (off + h % t.c * gridBytes 2 rows (64 * dt) + (i * dt + j) * 4160)) 2).toArray

/-! ### Appending (R201 to R203) -/

/-- What one scale block takes when new rows arrive: its scale byte, its 64 codes as stored, whether it was rescaled, and the
reserved codes that the rescaling read. -/
structure BlockApp where
  scale : Nat
  codes : List Nat
  rescaled : Bool
  voids : Nat
  deriving Repr, Inhabited

/-- New values at places of a block, over the codes that it holds (R202). Rows already present are read and rewritten only
where the block takes a new exponent: a reserved code then reads as zero (R51). -/
def appendBlock (oldScale : Nat) (old : List Nat) (new : List (Nat × QVal)) : BlockApp :=
  let rhe := fun (_ : Nat) (t : Int) (s : Nat) => shrRHE t s
  let fit := quantBlock 2 rhe none (new.map (·.2))
  let place := fun (base : List Nat) (cs : List Int) =>
    (List.range 64).map (fun i =>
      match ((new.map (·.1)).zip cs).find? (fun p => p.1 == i) with
      | some p => toUns 8 p.2
      | none => nth 0 base i)
  match scaleOf oldScale with
  | .exp eo =>
    if fit.1 = 0x80 ∨ toSgn 8 fit.1 <= eo then ⟨oldScale, place old (quantBlock 2 rhe (some eo) (new.map (·.2))).2.1, false, 0⟩
    else
      let s := (toSgn 8 fit.1 - eo).toNat
      let kept := old.zipIdx.filter (fun p => !(new.map (·.1)).contains p.2)
      ⟨fit.1, place (old.map (fun w => if isReserved 2 w then 0 else toUns 8 (shrRHE (toSgn 8 w) s))) fit.2.1, true,
        (kept.filter (fun p => isReserved 2 p.1)).length⟩
  | _ => ⟨fit.1, place (List.replicate 64 0) fit.2.1, false, 0⟩

/-- One new row element: value, reserved, format error. -/
def headElem (tile : Array Byte) (r c : Nat) : QVal × Bool × Bool :=
  match scaleOf (scaleByte tile (r / 8) (c / 8)) with
  | .exp e => (⟨elemCode 2 tile r c, e⟩, elemVoid 2 tile r c, false)
  | .empty => (⟨0, 0⟩, false, false)
  | .bad => (⟨0, 0⟩, false, true)

/-- What an append of rows did so far: the state, blocks rescaled, reserved codes read, largest exponent written. -/
structure Appended where
  d : Dev
  rescaled : Nat
  voids : Nat
  top : Option Int

/-- Writes rows of the new keys or values into one tile row of a page group. `rows`: (new row index, key row in the page);
`off q`: tile offset of tile column q. -/
def appendTiles (a : Appended) (src : Nat → Array Byte) (seg : Nat) (off : Nat → Nat → Nat) (dt : Nat) (rows : List (Nat × Nat)) :
    Appended :=
  let blocks := (rows.map (fun p => p.2 / 8)).dedup
  blocks.foldl (fun (a : Appended) bi =>
    (List.range (8 * dt)).foldl (fun (a : Appended) bj =>
      let base := off (bi / 8) (bj / 8)
      let tl := (a.d.segRead seg base 4160).toArray
      let ib := bi % 8
      let jb := bj % 8
      let new := ((rows.filter (fun p => p.2 / 8 == bi)).flatMap (fun p => (List.range 8).map (fun k =>
        (8 * (p.2 % 8) + k, (headElem (src (bj / 8)) (p.1 % 64) (8 * jb + k)).1))))
      let o := appendBlock (scaleByte tl ib jb) ((List.range 64).map (fun i => rawCode 2 tl (8 * ib + i / 8) (8 * jb + i % 8))) new
      { d := (a.d.segWrite seg (base + 64 + 64 * (8 * ib + jb)) (o.codes.map (BitVec.ofNat 8))).segWrite seg
          (base + 8 * ib + jb) [BitVec.ofNat 8 o.scale]
        rescaled := a.rescaled + bool01 o.rescaled, voids := a.voids + o.voids,
        top := maxOpt a.top (match scaleOf o.scale with | .exp v => some v | _ => none) }) a) a

/-- The new rows by page group: (group, rows as (new row, key row in the page)). -/
def newRows (t : AttD) (h : DirHdr) : List (Nat × List (Nat × Nat)) :=
  let rows := (List.range t.q).map (fun i => (i, h.len + i))
  ((rows.map (fun p => p.2 / 256)).dedup).map (fun jg =>
    (jg, (rows.filter (fun p => p.2 / 256 == jg)).map (fun p => (p.1, p.2 % 256))))

/-- The append of every head; new rows stand in the OPB of the block that holds their group (R201). -/
def attAppend (d : Dev) (x : Flight) (t : AttD) (h : DirHdr) : Dev :=
  let r := (newRows t h).foldl (fun (a : Appended) g =>
    let seg := (d.dirEnt t.dir g.1).seg
    (List.range h.hkv).foldl (fun (a : Appended) hd =>
      let lb := attBlock x t hd (g.1 % t.split)
      let k := appendTiles { a with top := none } (fun q => headTile d x t lb t.kNew t.q h.dt hd 0 q) seg (keyTileOff h.dt hd) h.dt g.2
      let v := appendTiles { k with top := a.top } (fun q => headTile d x t lb t.vNew t.q h.dt hd 0 q) seg (valTileOff h.dt hd) h.dt g.2
      { v with d := v.d.touch seg }) a) ⟨d, 0, 0, none⟩
  let d1 := if r.rescaled = 0 then r.d else r.d.bumpN (O.KV_RESCALED x.job) r.rescaled
  let d2 := if r.voids = 0 then d1 else (d1.countVoid x.job r.voids).addConds x.id [stVoid]
  let h1 := { d2.dirHdr t.dir with len := h.len + t.q }
  (d2.putDirHdr t.dir (match r.top with | some e => h1.raise e | none => h1)).touch t.dir

/-- A scale block that the new rows open has a scale byte that is a format error (R54). -/
def attOpenBad (d : Dev) (t : AttD) (h : DirHdr) : Bool :=
  (newRows t h).any (fun g =>
    let seg := (d.dirEnt t.dir g.1).seg
    ((g.2.map (fun p => p.2 / 8)).dedup).any (fun bi => (List.range h.hkv).any (fun hd => (List.range (8 * h.dt)).any (fun bj =>
      [keyTileOff h.dt hd (bi / 8) (bj / 8), valTileOff h.dt hd (bi / 8) (bj / 8)].any (fun o =>
        scaleOf (leAt (d.segRead seg (o + 8 * (bi % 8) + bj % 8) 1) 0 1) == .bad)))))

/-- Reserved codes and format errors among the new rows. -/
def attNewCheck (d : Dev) (x : Flight) (t : AttD) (h : DirHdr) : Nat × Bool :=
  let es := (List.range h.hkv).flatMap (fun hd => (List.range t.q).flatMap (fun r =>
    let lb := attBlock x t hd ((h.len + r) / 256 % t.split)
    (List.range (64 * h.dt)).flatMap (fun c =>
      [headElem (headTile d x t lb t.kNew t.q h.dt hd 0 (c / 64)) r (c % 64),
       headElem (headTile d x t lb t.vNew t.q h.dt hd 0 (c / 64)) r (c % 64)])))
  ((es.filter (fun e => e.2.1)).length, es.any (fun e => e.2.2))

/-! ### Visibility (R204) -/

/-- Key k is visible to query q: `len` after the append, `l` before it. -/
def attVisible (d : Dev) (t : AttD) (h : DirHdr) (len l : Nat) (ent : DirEnt) (q k : Nat) : Bool :=
  decide (k < len) && (!t.causal || decide (k <= l + q)) &&
  (!ent.masked || bit (nth 0 (d.segRead t.dir (maskOff h (k / 256) q + k % 256 / 8) 1) 0).toNat (k % 8))

/-! ### Scores (R208, R209) -/

def Mat.transpose (a : Mat) (r c : Nat) : Mat :=
  { codes := ((List.range c).map (fun i => ((List.range r).map (fun k => a.code k i)).toArray)).toArray,
    exps := ((List.range (ceilDiv c 8)).map (fun i => ((List.range (ceilDiv r 8)).map (fun k => a.exp k i)).toArray)).toArray,
    vs := a.vs.map (fun v => (v.2, v.1)), bad := a.bad }

/-- Shapes of the K-loops of a page: the scores', chosen under R136, and by the same choice that of P x [V | ONES] (R208). -/
def AttD.scoreShape (t : AttD) (dt : Nat) : Shape := shapeOf (bestShape ⟨2, false, t.m, 256, 64 * dt, false, false, 0, 0, 0⟩)
def AttD.sumShape (t : AttD) (dt : Nat) : Shape := shapeOf (bestShape ⟨2, true, t.m, 64 * dt + 64, 256, false, false, 0, 0, 0⟩)

/-- Score slots a block's pages of a head need (R208). -/
def scoreSlotsFor (t : AttD) (dt pages : Nat) : Nat :=
  let h := t.scoreShape dt
  ceilDiv (pages * 4 * ceilDiv t.m h.mt) h.x

/-- Page groups of the walk that hold keys (log 47). -/
def walkGroups (d : Dev) (t : AttD) (len : Nat) : List Nat := (List.range (ceilDiv len 256)).filter (fun j => (d.dirEnt t.dir j).valid)

/-- Those of block u of a head, and whether it keeps their scores. -/
def walkOf (d : Dev) (t : AttD) (len u : Nat) : List Nat := (walkGroups d t len).filter (fun j => j % t.split == u)

def AttD.keeps (t : AttD) (dt pages : Nat) : Bool := decide (scoreSlotsFor t dt pages <= t.scoreSlots)

/-- One page of a head: its group, the visible entry, keys below LEN, scores by 64-key tile. -/
structure PageS where
  j : Nat
  ent : DirEnt
  keys : Nat
  /-- Codes and tags of every row of each 64-key tile; score tiles with SAT in a row word. -/
  tiles : Array (Array (Array Int × Tag))
  sats : Nat
  voids : Nat
  bad : Bool
  deriving Repr, Inhabited

/-- SCORE_PROG over one score tile of m rows, on a scratch copy of the block: the tile is input 0 and output 0 (log 49). -/
def scoreProg (d : Dev) (x : Flight) (t : AttD) (lb m : Nat) (rows : Array (Array Int × Tag)) : Array (Array Int × Tag) × VRun :=
  let b := d.physOf x.job lb
  let base := (d.place x.job lb).slot
  let ref : Ref := ⟨2, 4, false, 0, 0, 0, 0, 0⟩
  let e : VEnv :=
    { job := x.job, lb := lb,
      e := { (default : ElemD) with ins := [ref], outs := [ref], program := t.prog, v := ceilDiv m 4, vl := 256, param := t.param },
      pars := #[paramsOf d x.job lb t.param], rnd := { d.rnd x with stoch := false }, jobStoch := d.setting x 1 == 1,
      thr := d.setting x 4 }
  let d0 := d.forEach (List.range m) (fun d r =>
    let v := rows.getD r default
    (d.writeRow b (base + r / 64) (r % 64) (fun c => some (BitVec.ofNat 32 (toUns 32 (v.1.getD c 0))))).rowPut b (base + r / 64) 0 (r % 64)
      ⟨v.2.exp, v.2.sat, false, v.2.void⟩)
  let run := runWaves e (progWords d x.job lb t.prog) 256 (VRun.start d0)
  let out := (List.range m).map (fun r =>
    let w := run.d.rowGet b (base + r / 64) 0 (r % 64)
    (((List.range 64).map (fun c => s32 (run.d.accGet b (base + r / 64) (r % 64) c))).toArray, (⟨w.exp, w.sat, w.void⟩ : Tag)))
  (out.toArray, run)

/-- The scores of page group j for head hd on logical block lb, which reads the keys `reads` times (R205, R209). Reserved codes
count for each K-loop that reads them (R51; log 28). -/
def pageScores (d : Dev) (x : Flight) (t : AttD) (h : DirHdr) (len lb hd j reads : Nat) (qm : Mat) (runs : List VRun) : PageS × List VRun :=
  let ent := d.dirEnt t.dir j
  let keys := Nat.min 256 (len - 256 * j)
  let dd := 64 * h.dt
  let sh := t.scoreShape h.dt
  let km := loadMat 2 (fun p q => (d.segRead ent.seg (keyTileOff h.dt hd p q) 4160).toArray) keys 0 dd 0 keys 0 dd false
  let rn := d.rnd x
  let p : Prod :=
    { a := qm, b := km.transpose keys dd, mag := 14, wide := false, m := t.m, n := keys, nb := ceilDiv dd 8, kb0 := 0,
      kb1 := ceilDiv dd 8, grp := groupBlocks 2 sh.x, fix := [], countA := true, row0 := hd * 65536, col0 := 256 * j,
      kbOff := j / 256 * 256, rnd := rn, hasInit := false, init := fun _ _ => 0, initRow := fun _ _ => ⟨zeroRow, false, false, false⟩ }
  let raw := (List.range (ceilDiv keys 64)).map (fun tn =>
    let vrows := (List.range t.m).map (fun r =>
      let f := p.rowF r (64 * tn)
      let vs := (List.range 64).map (fun c => if 64 * tn + c < keys then p.elem f r (64 * tn + c) else (0, false))
      let void := qm.vs.any (fun v => v.1 == r) || km.vs.any (fun v => v.1 / 64 == tn)
      ((vs.map (·.1)).toArray, (⟨f, vs.any (·.2), void⟩ : Tag)))
    vrows.toArray)
  let sats := (raw.filter (fun tl => tl.any (fun r => r.2.sat))).length
  let done := if t.prog = 16 then raw.map (fun tl => (tl, (none : Option VRun)))
    else raw.map (fun tl => let o := scoreProg d x t lb t.m tl; (o.1, some o.2))
  (⟨j, ent, keys, (done.map (·.1)).toArray, sats,
    reads * (qm.vs.length * ceilDiv keys sh.nt + km.vs.length * ceilDiv t.m sh.mt), km.bad || qm.bad⟩, runs ++ done.filterMap (·.2))

/-! ### Row maxima and weights (R210, R211) -/

/-- What pass 1 folds for one row. -/
structure RowMax where
  inf : Nat
  best : Option (Int × Int)
  fMax : Int
  sat : Bool
  void : Bool
  deriving Repr, Inhabited

/-- a.1 * 2^a.2 < b.1 * 2^b.2. -/
def exactLt (a b : Int × Int) : Bool :=
  let e := min a.2 b.2
  decide (a.1 * 2 ^ (a.2 - e).toNat < b.1 * 2 ^ (b.2 - e).toNat)

/-- Score of row r at key i of a page: code and its row's tag. -/
def PageS.score (p : PageS) (r i : Nat) : Int × Tag :=
  let row := (p.tiles.getD (i / 64) #[]).getD r default
  (row.1.getD (i % 64) 0, row.2)

/-- The score counts as infinite (R122). -/
def isInf (s : Int × Tag) : Bool := s.1 == laneMax && s.2.sat

/-- Folds the pages of a head into a row's record; `vis` tells whether key k is visible. -/
def foldRow (pages : List PageS) (r : Nat) (vis : DirEnt → Nat → Bool) : RowMax :=
  pages.foldl (fun a p =>
    (List.range p.keys).foldl (fun (a : RowMax) i =>
      if vis p.ent (256 * p.j + i) then
        let s := p.score r i
        let a := { a with sat := a.sat || s.2.sat, void := a.void || s.2.void }
        if isInf s then { a with inf := a.inf + 1 }
        else
          let v := if s.2.exp = zeroRow then (0, 0) else (s.1, s.2.exp)
          { a with
            best := (match a.best with
              | none => some v
              | some b => if exactLt b v then some v else some b),
            fMax := max a.fMax s.2.exp }
      else a) a) ⟨0, none, zeroRow, false, false⟩

/-- The maximum rounded once at F_max. -/
def RowMax.m (a : RowMax) : Int :=
  match a.best with
  | none => 0
  | some v => if a.fMax = zeroRow then 0 else shiftRHE v.1 (a.fMax - v.2)

/-- Weight of a key at exponent -16. -/
def weight (a : RowMax) (visible : Bool) (s : Int × Tag) : Int :=
  if !visible then 0
  else if 0 < a.inf then (if isInf s then 65536 else 0)
  else (expLane (toExp s.1 s.2.exp a.fMax - a.m) (if a.fMax = zeroRow then 0 else a.fMax)).1

/-! ### The weighted sum (R212) -/

/-- F of O. -/
def attF (h : DirHdr) (len : Nat) : Int :=
  -6 + (match h.ve with | some v => max v 0 | none => 0) + 17 + clog2 (ceilDiv len 8) - 63

/-- Quantised weights of one block of 8 rows by 8 keys: exponent (none: empty) and codes. -/
def quantWeights (ws : List (Int × Bool)) : Option Int × List Int :=
  let here := ws.filter (·.2)
  let q := quantBlock 2 (fun _ t s => shrRHE t s) none (here.map (fun w => ⟨w.1, -16⟩))
  let codes := (ws.foldl (fun (a : List Int × List Int) w =>
    if w.2 then (a.1 ++ [a.2.headD 0], a.2.drop 1) else (a.1 ++ [0], a.2)) ([], q.2.1)).1
  (if q.1 = 0x80 then none else some (toSgn 8 q.1), codes)

/-- O and the denominator of one page, added to the sums: columns 0 to D - 1, then 64 ones-tile columns. -/
def pageSum (d : Dev) (x : Flight) (t : AttD) (h : DirHdr) (hd : Nat) (f : Int) (maxes : Array RowMax)
    (vis : DirEnt → Nat → Nat → Bool) (p : PageS) (o : Array (Array Int)) : Array (Array Int) :=
  let dd := 64 * h.dt
  let rn := d.rnd x
  let vm := loadMat 2 (fun a b => (d.segRead p.ent.seg (valTileOff h.dt hd a b) 4160).toArray) p.keys 0 dd 0 p.keys 0 dd false
  let blocks := (List.range (ceilDiv t.m 8)).map (fun rb => ((List.range (ceilDiv p.keys 8)).map (fun kb =>
    quantWeights ((List.range 64).map (fun i =>
      let r := 8 * rb + i / 8
      let k := 8 * kb + i % 8
      if r < t.m then
        (if k < p.keys then weight (maxes.getD r default) (vis p.ent (r / t.g) (256 * p.j + k)) (p.score r k) else 0, true)
      else (0, false))))).toArray)
  let ba := blocks.toArray
  ((List.range t.m).map (fun r =>
    ((List.range (dd + 64)).map (fun c =>
      let start := (o.getD r #[]).getD c 0
      (List.range (ceilDiv p.keys 8)).foldl (fun acc kb =>
        let w := (ba.getD (r / 8) #[]).getD kb (none, [])
        match w.1 with
        | none => acc
        | some ep =>
          let pc := fun i => nth 0 w.2 (8 * (r % 8) + i)
          let add := fun (e tv : Int) (col : Nat) =>
            (accAdd true acc (alignTo rn (hd * 65536 + r) col (32 * p.j + kb) f e tv)).1
          if c < dd then
            match vm.exp kb (c / 8) with
            | none => acc
            | some ev => add (ep + ev) (sumInt ((List.range 8).map (fun i => pc i * vm.code (8 * kb + i) c))) c
          else add ep (sumInt ((List.range 8).map pc)) (256 + (c - dd))) start)).toArray)).toArray

/-- Reserved codes, by the K-loops that read them, and format errors of a page's values. -/
def valueCheck (d : Dev) (t : AttD) (h : DirHdr) (hd : Nat) (p : PageS) : Nat × Bool :=
  let dd := 64 * h.dt
  let vm := loadMat 2 (fun a b => (d.segRead p.ent.seg (valTileOff h.dt hd a b) 4160).toArray) p.keys 0 dd 0 p.keys 0 dd false
  (vm.vs.length * ceilDiv t.m (t.sumShape h.dt).mt, vm.bad)

/-! ### One head and the output (R214) -/

/-- Output row r of a head: D codes with their exponent per 64-column tile; a zero denominator gives zero. -/
def outRow (f : Int) (dt : Nat) (o : Array Int) : List (List Int × Int) × Bool :=
  let den := (List.range 64).map (fun c => o.getD (64 * dt + c) 0)
  if den.all (· == 0) then ((List.range dt).map (fun _ => (List.replicate 64 0, zeroRow)), true)
  else
    let nd := narrowRow den f (fun _ => true)
    let rc := lutRow 1 (nd.1.map (fun c => (c, true))) nd.2
    ((List.range dt).map (fun q =>
      let n := narrowRow ((List.range 64).map (fun c => o.getD (64 * q + c) 0)) f (fun _ => true)
      ((n.1.zip rc.codes).map (fun p => shrRHE (p.1 * p.2) 32), n.2 + rc.exp + 32)), false)

/-- Everything a walk of one head yields. -/
structure HeadOut where
  hd : Nat
  rows : Array (List (List Int × Int) × RowMax)
  pages : Nat
  refetch : Nat
  infRows : Nat
  emptyRows : Nat
  sats : Nat
  voids : Nat
  bad : Bool
  runs : List VRun

/-- The walk of one head (R205). -/
def walkHead (d : Dev) (x : Flight) (t : AttD) (h : DirHdr) (len l hd : Nat) : HeadOut :=
  let dd := 64 * h.dt
  let gs := walkGroups d t len
  let cnt := fun u => (walkOf d t len u).length
  let qms := ((List.range t.split).map (fun u =>
    loadMat 2 (fun i j => headTile d x t (attBlock x t hd u) t.qAddr t.m h.dt hd i j) t.m 0 dd 0 t.m 0 dd false)).toArray
  let ps := gs.foldl (fun (a : List PageS × List VRun) j =>
    let u := j % t.split
    let o := pageScores d x t h len (attBlock x t hd u) hd j (if t.keeps h.dt (cnt u) then 1 else 2) (qms.getD u default) a.2
    (a.1 ++ [o.1], o.2)) ([], [])
  let vis := fun (e : DirEnt) (q k : Nat) => attVisible d t h len l e q k
  let maxes := ((List.range t.m).map (fun r => foldRow ps.1 r (fun e k => vis e (r / t.g) k))).toArray
  let f := attF h len
  let zero := ((List.range t.m).map (fun _ => Array.replicate (dd + 64) (0 : Int))).toArray
  let o := ps.1.foldl (fun o p => pageSum d x t h hd f maxes vis p o) zero
  let outs := (List.range t.m).map (fun r => outRow f h.dt (o.getD r #[]))
  let vc := ps.1.map (valueCheck d t h hd)
  { hd := hd, rows := ((outs.zip maxes.toList).map (fun p => (p.1.1, p.2))).toArray, pages := gs.length,
    refetch := sumNat ((List.range t.split).map (fun u => if t.keeps h.dt (cnt u) then 0 else cnt u)),
    infRows := (maxes.toList.filter (fun m => decide (0 < m.inf))).length, emptyRows := (outs.filter (·.2)).length,
    sats := sumNat (ps.1.map (·.sats)), voids := sumNat (ps.1.map (·.voids)) + sumNat (vc.map (·.1)),
    bad := ps.1.any (·.bad) || vc.any (·.2), runs := ps.2 }

/-- Writes a head's rows into OPB tiles of the lead block through the quantiser. -/
def putHeadOpb (d : Dev) (x : Flight) (t : AttD) (h : DirHdr) (o : HeadOut) : VRun :=
  let lead := attBlock x t o.hd 0
  let rn := d.rnd x
  let cols := attCols h t
  let env : VEnv := { job := x.job, lb := lead, e := default, pars := #[], rnd := rn, jobStoch := rn.stoch, thr := d.setting x 4 }
  let out : Ref := { t.out with fmt := t.fmtOut }
  let c0 := o.hd * t.g * (64 * h.dt)
  (List.range (ceilDiv t.q 8)).foldl (fun r bi =>
    (List.range (8 * t.g * h.dt)).foldl (fun r bj =>
      storeBlock r env out 0 (ceilDiv cols 64) bi (c0 / 8 + bj) 0 ((List.range 64).map (fun i =>
        let q := 8 * bi + i / 8
        let c := 8 * bj + i % 8
        if q < t.q then
          let row := (o.rows.getD (q * t.g + c / (64 * h.dt)) default).1
          let tl := nth ([], 0) row (c % (64 * h.dt) / 64)
          (if tl.2 = zeroRow then ⟨0, 0⟩ else ⟨nth 0 tl.1 (c % 64), tl.2⟩, true)
        else (⟨0, 0⟩, false)))) r) (VRun.start d)

/-- Writes a head's rows into A32 slots of the lead block. -/
def putHeadAcc (d : Dev) (x : Flight) (t : AttD) (h : DirHdr) (o : HeadOut) : Dev :=
  let lead := attBlock x t o.hd 0
  let b := d.physOf x.job lead
  let sh := shapeOf (attOutShape t)
  let base := (d.place x.job lead).slot + t.out.slot
  d.forEach (List.range t.q) (fun d q => d.forEach (List.range t.g) (fun d g => d.forEach (List.range h.dt) (fun d c =>
    let v := o.rows.getD (q * t.g + g) default
    let tl := nth ([], 0) v.1 c
    let p := attOutSlot t base ((o.hd * t.g + g) * h.dt + c)
    let pos := subPos sh p.2 q 0
    (d.writeRow b p.1 pos.1 (fun k => some (BitVec.ofNat 32 (toUns 32 (nth 0 tl.1 k))))).subRowPut b sh p.1 p.2 q
      ⟨tl.2, v.2.sat, false, v.2.void⟩)))

/-! ### The descriptor -/

/-- The directory as an `attend` finds it, LEN being L of its issue (R201). -/
def attHdr (d : Dev) (x : Flight) : DirHdr := { d.dirHdr (attD x.w).dir with len := x.cacheLen }

/-- What stops an `attend` before it writes: a poisoned directory or group, a hole, a shared group (R201, R207). -/
def attStop (d : Dev) (t : AttD) (h : DirHdr) : Option Nat :=
  if !d.segOk t.dir then some stPoison
  else if t.rewalk then none
  else
    let js := (newRows t h).map (·.1)
    if js.any (fun j => !(d.dirEnt t.dir j).valid) then some stDirHole
    else if js.any (fun j => (d.dirEnt t.dir j).shared) then some stPageLocked
    else if js.any (fun j => !d.segOk (d.dirEnt t.dir j).seg) then some stPoison
    else none

/-- Ends an `attend` with a status. -/
def attEnd (d : Dev) (x : Flight) (st : Nat) : Dev :=
  closeFlight ((if st = stDirHole then d.bump (O.DIR_HOLES x.job) else d).addConds x.id [st]) x.id

/-- The first part: every check that precedes a write, then the append. Answers whether the walk follows. -/
def attBegin (d : Dev) (x : Flight) : Dev × Bool :=
  let t := attD x.w
  let h := attHdr d x
  if x.appended then (d, true)
  else
    match attStop d t h with
    | some st => (attEnd d x st, false)
    | none =>
      if t.rewalk then (d, true)
      else
        let nc := attNewCheck d x t h
        let d1 := if nc.1 = 0 then d else (d.countVoid x.job nc.1).addConds x.id [stVoid]
        if nc.2 || attOpenBad d t h then (attEnd d1 x stScale, false)
        else ((attAppend d1 x t h).modFlight x.id (fun y => { y with appended := true, lasting := true }), true)

/-- Counters and outputs of the heads walked. -/
def attWrite (d : Dev) (x : Flight) (t : AttD) (h : DirHdr) (os : List HeadOut) : Dev :=
  let thr := d.setting x 4
  let add := fun (d : Dev) k n => if n = 0 then d else d.bumpN k n
  d.forEach os (fun d o =>
    let phys := d.physOf x.job (attBlock x t o.hd 0)
    let d1 := if t.outFmt = 2 then putHeadAcc d x t h o
      else let r := putHeadOpb d x t h o; countRun r.d x phys thr r
    let d2 := d1.forEach o.runs (fun d r => countRun d x phys thr { r with sats := [] })
    add (add (add (add (add d2 (O.ATTN_PAGES x.job) o.pages) (O.ATTN_REFETCH_PAGES x.job) o.refetch) (O.ATTN_INF_ROWS x.job) o.infRows)
      (O.EMPTY_ROW x.job) o.emptyRows) (O.SAT_TILES x.job) o.sats)

/-- Unspecified values in a whole slot: its entries and its row words. -/
def Dev.freeSlot (d : Dev) (b slot : Nat) : Dev :=
  let no := d.freeNo
  let d1 := d.subCells b (shapeOf 0) false slot 0 (fun m n => (Config.freeWord (no + 64 * m + n)).toNat)
  let ws := (List.range 256).map (fun i => Config.freeWord (no + 4096 + i))
  { d1.setMem (fun m => { m with rows := SMap.writeRun 0 m.rows (rowKey b slot 0 0) ws }) with freeNo := no + 4352 }

/-- Scratch score slots of every block hold unspecified values after the walk (log 46). -/
def attScratch (d : Dev) (x : Flight) (t : AttD) : Dev :=
  d.forEach x.blocks (fun d lb => d.forEach (rangeFrom ((d.place x.job lb).slot + t.accBase) t.scoreSlots) (fun d s =>
    d.freeSlot (d.physOf x.job lb) s))

/-! ### Pages at the block sequencer (R206) -/

/-- The walk of an `attend` has the page: a head of the cache and a group that holds keys. -/
def pageOf (d : Dev) (x : Flight) (p : PageAt) : Bool :=
  let t := attD x.w
  let h := attHdr d x
  decide (p.head < h.hkv) && (walkGroups d t (h.len + t.q)).contains p.page

/-- Logical block that works on a page. -/
def pageBlock (x : Flight) (p : PageAt) : Nat := attBlock x (attD x.w) p.head (p.page % (attD x.w).split)

/-- The page descriptor of a page in a pass, and the state after drawing OUT_SLOT, which the manual leaves open (log 133). -/
def pageDesc (d : Dev) (x : Flight) (p : PageAt) : BitVec 256 × Dev :=
  let t := attD x.w
  let h := attHdr d x
  let len := h.len + t.q
  let e := d.dirEnt t.dir p.page
  let mine := walkOf d t len (p.page % t.split)
  let keep := t.keeps h.dt mine.length
  let sh := t.scoreShape h.dt
  let l := if keep then mine.findIdx (· == p.page) * (4 * ceilDiv t.m sh.mt) else 0
  (BitVec.ofNat 256 (at' 0 16 p.page + at' 16 19 e.seg + at' 35 1 (bool01 p.second) + at' 36 1 (bool01 keep) +
    at' 37 1 (bool01 (mine.getLast? == some p.page)) + at' 38 1 (bool01 e.masked) + at' 39 9 (Nat.min 256 (len - 256 * p.page)) +
    at' 48 6 p.head + at' 64 7 (t.accBase + l / sh.x) + at' 71 6 (l % sh.x) +
    at' 77 7 (2 * ((Config.freeWord d.freeNo).toNat % 64)) + at' 96 32 h.gen + at' 128 32 x.step + at' 160 16 x.tag),
   { d with freeNo := d.freeNo + 1 })

/-- The walk issues the page descriptor of a page to the sequencer of its block. -/
def issuePage (d : Dev) (x : Flight) (p : PageAt) : Dev :=
  let b := d.physOf x.job (pageBlock x p)
  let w := pageDesc d x p
  w.2.setBlk (fun k => { k with pages := k.pages.filter (fun q => q.1 != b) ++ [(b, w.1)] })

/-- The walk comes to where a page loads: the group is pinned, once it may be, until the load completes, which is when the walk
goes on (R205, R207). -/
def attLoad (d : Dev) (x : Flight) (p : PageAt) : Dev :=
  let d1 := d.dropPins x.id (fun q => q.1 != (attD x.w).dir)
  let e := (d.dirEnt (attD x.w).dir p.page).seg
  if pageOf d x p && d1.pinFree e false then (issuePage d1 x p).grantPins x.id [(e, false)] else d1

/-- The rest of an `attend`: the walk of every head, and the output. -/
def attWalk (d : Dev) (x : Flight) : Dev :=
  let t := attD x.w
  let l := x.cacheLen
  let len := l + t.q
  let h := { d.dirHdr t.dir with len := len }
  let gs := walkGroups d t len
  let d2 := d.forEach gs (fun d j => d.touch (d.dirEnt t.dir j).seg)
  if gs.any (fun j => !d2.segOk (d2.dirEnt t.dir j).seg) then attEnd d2 x stPoison
  else
    let os := (List.range h.hkv).map (walkHead d2 x t h len l)
    let voids := sumNat (os.map (·.voids))
    let runs := os.flatMap (·.runs)
    if os.any (·.bad) then attEnd (attScratch (d2.countVoid x.job voids) x t) x stScale
    else
      match runs.findSome? (·.stop) with
      | some st => attEnd (attScratch (d2.countVoid x.job voids) x t) x st
      | none =>
        let d3 := attWrite ((attScratch d2 x t).countVoid x.job voids) x t h os
        let void : Bool := decide (0 < voids) || runs.any (fun r => decide (0 < r.void))
        let sat : Bool := (os.any (fun o => decide (0 < o.sats)) || runs.any (fun r => !r.sats.isEmpty)) && d.setting x 3 == 1
        closeFlight (d3.addConds x.id ((if void then [stVoid] else []) ++ (if sat then [stSat] else []))) x.id

/-- Runs an `attend` whose K-loops and fetches meet no error. -/
def attRun (d : Dev) (x : Flight) : Dev :=
  let b := attBegin d x
  if b.2 then attWalk b.1 x else b.1

/-- The ranges an `attend` names on its blocks (R96). -/
def attRanges (d : Dev) (x : Flight) : List Range :=
  let t := attD x.w
  let h := d.dirHdr t.dir
  let dd := 64 * h.dt
  x.blocks.flatMap (fun lb =>
    [Range.whole lb 0 t.accBase t.scoreSlots true, Range.whole lb 1 t.qAddr (t.c * gridBytes 2 t.m dd) false,
     Range.whole lb 1 t.kNew (t.c * gridBytes 2 t.q dd) false, Range.whole lb 1 t.vNew (t.c * gridBytes 2 t.q dd) false,
     Range.whole lb 1 (t.opbBase * 1024) (t.opbLen * 1024) true] ++
    (if t.outFmt = 2 then subRanges lb (attOutShape t) false t.out.slot t.out.sub (attOutSubs h t) true
     else [Range.whole lb 1 t.out.off (gridBytes t.fmtOut t.q (attCols h t)) true]) ++
    (if t.prog = 16 then [] else [Range.whole lb 2 t.prog 1 false, Range.whole lb 1 t.param 128 false]))

end Sys2Proof.Machine
end

