-- ==== Sys2Proof/Machine/Conv.lean ====
section
/-! DEFINITION. Convolution and pooling (R151 to R167, R426): geometry, the choice of path, the expansion copy, the plain
and expanded products, the window path. -/

namespace Sys2Proof.Machine

/-! ### Fields and geometry -/

structure ConvD where
  pm : Nat
  pn : Nat
  inp : Ref
  wt : Ref
  bias : Ref
  out : Ref
  m : Nat
  n : Nat
  h : Nat
  w : Nat
  cin : Nat
  groups : Nat
  fh : Nat
  fw : Nat
  s : Nat
  p : Nat
  pool : Nat
  expBase : Nat
  expLen : Nat
  opbBase : Nat
  opbLen : Nat
  accBase : Nat
  auto : Bool
  shape : Nat
  subslot : Nat
  deriving DecidableEq, Repr, Inhabited

def convD (v : Nat) : ConvD :=
  { pm := fld v 80 8, pn := fld v 88 8, inp := refAt v 128, wt := refAt v 176, bias := refAt v 224, out := refAt v 272,
    m := fld v 320 16, n := fld v 336 16, h := fld v 352 16, w := fld v 368 16, cin := fld v 384 16, groups := fld v 400 16,
    fh := fld v 416 5, fw := fld v 421 5, s := fld v 426 5, p := fld v 431 4, pool := fld v 435 2, expBase := fld v 437 11,
    expLen := fld v 448 12, opbBase := fld v 460 11, opbLen := fld v 471 12, accBase := fld v 483 7, auto := bit v 490,
    shape := fld v 491 4, subslot := fld v 495 6 }

/-- Output height and width (R152). -/
def ConvD.oh (t : ConvD) : Int := ((t.h : Int) + 2 * t.p - t.fh) / (t.s : Int) + 1
def ConvD.ow (t : ConvD) : Int := ((t.w : Int) + 2 * t.p - t.fw) / (t.s : Int) + 1

def ConvD.empty (t : ConvD) : Bool := t.h == 0 || t.w == 0 || decide (t.oh <= 0) || decide (t.ow <= 0)

/-- Output pixels of the batch. -/
def ConvD.rows (t : ConvD) : Nat := t.m * t.oh.toNat * t.ow.toNat

/-- Input channels and output channels of a group. -/
def ConvD.cg (t : ConvD) : Nat := t.cin / t.groups
def ConvD.ng (t : ConvD) : Nat := t.n / t.groups

/-- Reduction length. -/
def ConvD.k (t : ConvD) : Nat := t.fh * t.fw * t.cg

/-- The path: 0 window, 1 plain, 2 expanded (R154). -/
def ConvD.path (t : ConvD) : Nat :=
  if t.pool ≠ 0 ∨ 1 < t.groups then 0 else if t.fh = 1 ∧ t.fw = 1 ∧ t.s = 1 ∧ t.p = 0 then 1 else 2

def ConvD.wide (t : ConvD) : Bool := t.out.fmt == 5

def ConvD.matJob (t : ConvD) : MatJob := ⟨t.wide, t.accBase, t.subslot, t.bias, t.out, t.n, 0, ceilDiv t.k 8⟩

/-- Row tiles of a band (R157). -/
def ConvD.bt (t : ConvD) : Nat := t.expLen * 1024 / (2 * ceilDiv t.k 64 * tileBytes t.inp.fmt)

/-- Fields, formats and geometry, the expansion area inside the grant of `opb` bytes (R140, R151, R154, R426; log 43 for OUT
on the array paths). The window path names no panel, so it takes neither OUT nor a bias in ACC (log 126). -/
def convFieldsOk (x : Flight) (t : ConvD) (opb : Nat) : Bool :=
  let v := x.w
  let elemIn := fun (r : Ref) => (r.kind == 1 || r.kind == 3) && isElemFmt r.fmt
  fld v 72 8 == 0 && fld v 501 11 == 0 && refOk v 128 && refOk v 176 && refOk v 224 && refOk v 272 && x.round != 3 &&
  shapeLegal t.shape && decide (t.subslot < (shapeOf t.shape).x) &&
  t.m != 65535 && t.n != 65535 && t.h != 65535 && t.w != 65535 && t.pm != 255 && t.pn != 255 && t.opbLen != 4095 && t.expLen != 4095 &&
  decide (1 <= t.cin ∧ t.cin <= 65534 ∧ 1 <= t.fh ∧ t.fh <= 16 ∧ 1 <= t.fw ∧ t.fw <= 16 ∧ 1 <= t.s ∧ t.s <= 16 ∧
    t.p < Nat.min t.fh t.fw ∧ 1 <= t.groups ∧ t.groups <= t.cin) && t.cin % t.groups == 0 && t.n % t.groups == 0 &&
  (t.pool == 0 || (t.groups == t.cin && t.cin == t.n && t.wt.kind == 0 && t.bias.kind == 0)) &&
  elemIn t.inp && (t.pool != 0 || (elemIn t.wt && t.wt.fmt == t.inp.fmt)) && initOk t.bias t.wide &&
  (if t.path = 0 then (t.out.kind == 1 || t.out.kind == 3) && decide (t.out.fmt <= 4) && !t.out.tr && t.bias.kind != 2
   else outOk t.out t.wide && !(t.inp.fmt == 3 && !t.wide)) &&
  (t.path == 2 || (t.expBase == 0 && t.expLen == 0)) && decide ((t.expBase + t.expLen) * 1024 <= opb) && (t.path == 1 || t.inp.kind == 1 || t.wt.kind != 3) &&
  (!t.auto || (t.shape == 0 && t.subslot == 0 && t.pm == 0 && t.pn == 0)) && (t.auto || (t.pm != 0 && t.pn != 0))

/-- Two byte ranges have a byte in common. -/
def rangesMeet (a b : Nat × Nat) : Bool := decide (0 < a.2 ∧ 0 < b.2 ∧ a.1 < b.1 + b.2 ∧ b.1 < a.1 + a.2)

/-- No two ranges of a list overlap. -/
def disjointRanges : List (Nat × Nat) → Bool
  | [] => true
  | a :: as => as.all (fun b => !rangesMeet a b) && disjointRanges as

/-- Extents (R140) and the disjointness of R160. -/
def convFits (d : Dev) (x : Flight) (t : ConvD) : Bool :=
  let j := x.job
  let inB := gridBytes t.inp.fmt (t.m * t.h * t.w) t.cin
  let wtB := gridBytes t.wt.fmt t.k t.n
  let outB := gridBytes t.out.fmt t.rows t.n
  let opb := fun (r : Ref) n => if r.kind = 1 then [(r.off, n)] else []
  d.refFits j t.inp inB && d.refFits j t.wt wtB && (t.bias.kind == 2 || d.refFits j t.bias (gridBytes t.bias.fmt t.rows t.n)) &&
  (t.out.kind == 2 || d.refFits j t.out outB) &&
  decide ((t.opbBase + t.opbLen) * 1024 <= (d.job j).opb) &&
  (t.path == 0 || decide (t.accBase < (d.job j).slots)) && !(t.wide && t.accBase % 2 == 1) &&
  disjointRanges (opb t.inp inB ++ opb t.wt wtB ++ opb t.out outB ++ [(t.expBase * 1024, t.expLen * 1024)] ++
    [(t.opbBase * 1024, t.opbLen * 1024)])

/-! ### Pixels -/

/-- Image, row and column of an output pixel. -/
def ConvD.pixel (t : ConvD) (p : Nat) : Nat × Nat × Nat :=
  (p / (t.oh.toNat * t.ow.toNat), p / t.ow.toNat % t.oh.toNat, p % t.ow.toNat)

/-- Matrix row of the input pixel a tap reads, none outside the image (R155). -/
def ConvD.tapRow (t : ConvD) (p dy dx : Nat) : Option Nat :=
  let q := t.pixel p
  let y : Int := t.s * q.2.1 + dy - t.p
  let c : Int := t.s * q.2.2 + dx - t.p
  if 0 <= y ∧ y < t.h ∧ 0 <= c ∧ c < t.w then some ((q.1 * t.h + y.toNat) * t.w + c.toNat) else none

/-- Input rows (image, row) that output pixels p0 to p0 + n - 1 need (R150). -/
def ConvD.inRows (t : ConvD) (p0 n : Nat) : List (Nat × Nat) :=
  ((rangeFrom p0 n).flatMap (fun p =>
    let q := t.pixel p
    (List.range t.fh).filterMap (fun (dy : Nat) =>
      let y : Int := t.s * q.2.1 + dy - t.p
      if 0 <= y ∧ y < t.h then some (q.1, y.toNat) else none))).dedup

/-- The chunk area holds the input rows that two successive bands of a share need, a row of both counted once (R161). A row
takes the bytes of its codes: how scale bytes and padding count is not said (log 127). -/
def convBandsFit (t : ConvD) (row0 rows : Nat) : Bool :=
  let b := 64 * t.bt
  let bytes := ceilDiv (t.w * t.cin * fmtBits t.inp.fmt) 8
  let need := fun k => t.inRows (row0 + k * b) (Nat.min b (rows - k * b))
  (List.range (ceilDiv rows b)).all (fun k => decide ((need k ++ need (k + 1)).dedup.length * bytes <= t.opbLen * 1024))

/-! ### The issue check -/

def convShare (t : ConvD) (rows : Nat) : ShareIn :=
  { fmt := t.inp.fmt, wide := t.wide, m := rows, n := t.n, k := t.k, aLoaded := t.path == 1 && t.inp.kind == 3,
    bLoaded := t.wt.kind == 3, opbLen := t.opbLen * 1024, subslot := t.subslot, avail := 0 }

/-- Taps of one output channel on the window path. -/
def ConvD.taps (t : ConvD) : Nat := t.fh * t.fw * t.cg

/-- Slots that the passes of a window `conv` keep partials in (R163): eight vectors are in flight (R102), and a slot takes
sixteen; none where one pass does. -/
def ConvD.windowSlots (t : ConvD) : Nat := if t.taps <= 9 then 0 else 1

/-- The plan of a window share, which needs no more than the slots of its partials. -/
def windowPlan (d : Dev) (j lb : Nat) (t : ConvD) (row0 rows : Nat) : Plan ⊕ Nat :=
  if 0 < t.windowSlots ∧ (((d.job j).stateSlots lb).any (fun q => decide (q.1 ≤ t.accBase ∧ t.accBase < q.1 + q.2))) then .inr stField
  else if slotsAvail (d.job j) lb t.accBase < t.windowSlots then .inr stAccShort
  else .inl { (default : Plan) with blk := lb, row0 := row0, rows := rows, cols := t.n }

/-- The issue check of a `conv`. EMPTY counts where it is answered (R152); BT = 0, and a chunk area too small for the rows of
two bands, are met in the chunk step (R157, R161). -/
def issueConv (d : Dev) (x : Flight) : Issue :=
  let t := convD x.w
  if !convFieldsOk x t (d.job x.job).opb then .reject stField
  else if t.m = 0 ∨ t.n = 0 then .finished stOk
  else if t.empty then .finished stEmpty
  else if !convFits d x t then .reject stField
  else
    match d.stageBlocks x.job x.target with
    | none => .reject stField
    | some bs =>
      let sh := (bs.zip (sharesOf (ceilDiv t.rows 64) bs.length)).filter (fun p => decide (0 < p.2.2))
      let rowsOf := fun (p : Nat × Nat × Nat) => Nat.min t.rows (64 * (p.2.1 + p.2.2)) - 64 * p.2.1
      allPlans (sh.map (fun p =>
        let rows := rowsOf p
        if t.path = 0 then windowPlan d x.job p.1 t (64 * p.2.1) rows
        else
          let bt := if t.path = 2 then
              some (if t.inp.kind = 3 ∧ !convBandsFit t (64 * p.2.1) rows then 0 else t.bt) else none
          planBlock d x.job p.1 t.accBase 128 (convShare t rows) t.auto t.shape t.pm t.pn t.bias (64 * p.2.1) 0 bt))

/-! ### The expansion copy (R155, R156) -/

/-- Engine tile (i, j) of the input. -/
def convTile (d : Dev) (x : Flight) (lb : Nat) (t : ConvD) (i j : Nat) : Array Byte :=
  d.refTile x.job lb t.inp (ceilDiv (t.m * t.h * t.w) 64) (ceilDiv t.cin 64) i j

/-- Where element (p, k) of the expanded operand comes from: input tile and place, none for padding. -/
def convSrc (t : ConvD) (tile : Nat → Nat → Array Byte) (p k : Nat) : Option (Array Byte × Nat × Nat) :=
  if t.rows <= p ∨ t.k <= k then none
  else
    let tap := k / t.cin
    let c := k % t.cin
    (t.tapRow p (tap / t.fw) (tap % t.fw)).map (fun q => (tile (q / 64) (c / 64), q % 64, c % 64))

/-- An expanded block: exponent (none: empty), codes, whether an element was divided, places of reserved codes, error. -/
structure ExpBlock where
  exp : Option Int
  codes : List Int
  divided : Bool
  vs : List (Nat × Nat)
  bad : Bool
  deriving Repr, Inhabited

/-- Block (bi, bj) of the expanded operand. -/
def expBlock (t : ConvD) (tile : Nat → Nat → Array Byte) (bi bj : Nat) : ExpBlock :=
  let src := (List.range 64).map (fun i => convSrc t tile (8 * bi + i / 8) (8 * bj + i % 8))
  let sc := src.map (fun o => o.map (fun s => scaleOf (scaleByte s.1 (s.2.1 / 8) (s.2.2 / 8))))
  let es := sc.filterMap (fun o => match o with | some (.exp e) => some e | _ => none)
  let top := es.foldl (fun (m : Option Int) e => maxOpt m (some e)) none
  let div := fun (p : Option (Array Byte × Nat × Nat) × Option Scale) =>
    match p, top with
    | (some s, some (.exp e)), some f =>
      let c := elemCode t.inp.fmt s.1 s.2.1 s.2.2
      (shiftRHE c (f - e), decide (e < f))
    | _, _ => (0, false)
  let out := (src.zip sc).map div
  ⟨top, out.map (·.1), out.any (·.2),
    (src.zipIdx.filter (fun p => match p.1 with | some s => elemVoid t.inp.fmt s.1 s.2.1 s.2.2 | none => false)).map
      (fun p => (8 * bi + p.2 / 8, 8 * bj + p.2 % 8)),
    sc.any (fun o => o == some .bad)⟩

/-- Input elements with a reserved code that the windows of some output pixels cover: the expansion unit reads each once for
a band (R51, R155, R158; log 28). -/
def convVoids (t : ConvD) (tile : Nat → Nat → Array Byte) (row0 rows : Nat) : Nat :=
  let pix := ((rangeFrom row0 rows).flatMap (fun p =>
    (List.range t.fh).flatMap (fun dy => (List.range t.fw).filterMap (fun dx => t.tapRow p dy dx)))).dedup
  sumNat (pix.map (fun q => ((List.range t.cin).filter (fun c => elemVoid t.inp.fmt (tile (q / 64) (c / 64)) (q % 64) (c % 64))).length))

/-- The expanded blocks of a share, by row block then column block. -/
def expBlocks (d : Dev) (x : Flight) (pl : Plan) (t : ConvD) : Array (Array ExpBlock) :=
  let tile := convTile d x pl.blk t
  ((rangeFrom (pl.row0 / 8) (ceilDiv pl.rows 8)).map (fun bi =>
    ((List.range (ceilDiv t.k 8)).map (fun bj => expBlock t tile bi bj)).toArray)).toArray

/-- Operand A of the expanded path. -/
def expMat (d : Dev) (x : Flight) (pl : Plan) (t : ConvD) : Mat :=
  let bl := expBlocks d x pl t
  let at2 := fun i j => (bl.getD i #[]).getD j default
  { codes := ((List.range pl.rows).map (fun r =>
      ((List.range t.k).map (fun k => nth 0 (at2 (r / 8) (k / 8)).codes (8 * (r % 8) + k % 8))).toArray)).toArray,
    exps := bl.map (fun r => r.map (·.exp)),
    vs := (bl.toList.flatMap (fun r => r.toList.flatMap (·.vs))).map (fun p => (p.1 - pl.row0, p.2)),
    bad := bl.any (fun r => r.any (·.bad)) }

/-- One engine tile of an expanded operand from its blocks. -/
def expTile (f : Nat) (block : Nat → Nat → ExpBlock) (i j : Nat) : Bytes :=
  let scales := (List.range 64).map (fun s =>
    match (block (8 * i + s / 8) (8 * j + s % 8)).exp with
    | some e => toUns 8 e
    | none => 0x80)
  buildTile f scales (fun r c => nth 0 (block (8 * i + r / 8) (8 * j + c / 8)).codes (8 * (r % 8) + c % 8))

/-- Expands one band of a share into half `k mod 2` of the expansion area (R156 to R158; log 44): blocks with a divided element
and reserved codes are counted, and the array waits a free number of ARR cycles for it (log 83). -/
def writeBand (d : Dev) (x : Flight) (pl : Plan) (t : ConvD) (k : Nat) : Dev :=
  let tile := convTile d x pl.blk t
  let r0 := 64 * t.bt * k
  let rows := Nat.min (64 * t.bt) (pl.rows - r0)
  let bl := ((rangeFrom ((pl.row0 + r0) / 8) (ceilDiv rows 8)).map (fun bi =>
    ((List.range (ceilDiv t.k 8)).map (fun bj => expBlock t tile bi bj)).toArray)).toArray
  let block := fun i j => (bl.getD i #[]).getD j default
  let kt := ceilDiv t.k 64
  let sz := tileBytes t.inp.fmt
  let d1 := d.forEach (List.range (ceilDiv rows 64)) (fun d i =>
    d.forEach (List.range kt) (fun d j =>
      let off := t.expBase * 1024 + ((k % 2 * t.bt + i) * kt + j) * sz
      d.opbPutTile (d.physOf x.job pl.blk) (d.opbAddr x.job pl.blk off) (expTile t.inp.fmt block i j)))
  let n := sumNat (bl.toList.map (fun r => (r.toList.filter (·.divided)).length))
  let v := convVoids t tile (pl.row0 + r0) rows
  let d2 := (if n = 0 then d1 else d1.bumpN (O.EXPAND_ROUNDED x.job) n).countVoid x.job v
  let stall := d2.drawWord
  let d3 := stall.2.bumpN (O.EXPAND_STALLS x.job) stall.1.toNat
  if v = 0 then d3 else d3.addConds x.id [stVoid]

/-- The bands that are expanded when a K-loop starts: none but before the first of a band, which band j + 1 joins in the
other half; band 0 before the first of all (R157, R158). -/
def bandsDue (x : Flight) (pl : Plan) (t : Nat × Nat × Nat) : List Nat :=
  if pl.band = 0 then []
  else
    let j := t.2.1 / pl.band
    let ran := fun (c : Nat) => x.tiles.any (fun q => q.1 == pl.blk && q.2 / pl.nn % Nat.max 1 pl.nm / pl.band == c)
    if ran j then [] else ((if j = 0 then [0] else []) ++ [j + 1]).filter (fun k => decide (k * pl.band < pl.nm))

/-- One K-loop of an array `conv`: the bands that are due, then the loop. -/
def convLoop (d : Dev) (x : Flight) (pl : Plan) (m : MatJob) (p : Prod) (t : Nat × Nat × Nat) : Dev :=
  match d.flight x.id with
  | none => d
  | some y => matLoop (d.forEach (bandsDue y pl t) (fun d k => writeBand d x pl (convD x.w) k)) x pl m p t

def convLoops (x : Flight) (pl : Plan) (m : MatJob) (p : Prod) : List (Nat × Nat × Nat) → Dev → Dev
  | [], d => d
  | t :: ts, d => convLoops x pl m p ts (convLoop d x pl m p t)

/-! ### The products -/

/-- The product of one share on an array path. The array meets no reserved code in an expanded operand: the expansion unit
has read it as zero and counted it (R156). -/
def convProd (d : Dev) (x : Flight) (pl : Plan) : Prod :=
  let t := convD x.w
  let i := initOf d x.job pl t.bias t.n
  let a := if t.path = 2 then expMat d x pl t
    else loadMat t.inp.fmt (fun r c => convTile d x pl.blk t (r + pl.row0 / 64) c) pl.rows 0 t.k 0 pl.rows 0 t.k false
  { a := a, b := loadB d x.job pl.blk t.wt t.k t.n 0 t.n 0 (ceilDiv t.k 8) false, mag := 2 * fmtMag t.inp.fmt, wide := t.wide,
    m := pl.rows, n := t.n, nb := ceilDiv t.k 8, kb0 := 0, kb1 := ceilDiv t.k 8,
    grp := groupBlocks t.inp.fmt (shapeOf pl.shape).x, fix := [], countA := t.path != 2,
    row0 := pl.row0, col0 := 0, kbOff := 0, rnd := d.rnd x,
    hasInit := t.bias.kind != 0, init := i.val, initRow := i.row }

/-- Segments of a `conv` that cannot be read. -/
def convPoison (d : Dev) (t : ConvD) : Bool :=
  [t.inp, t.wt, t.bias].any (fun r => d.refStatus r != 0) || (t.out.kind == 3 && (d.res t.out.seg).st == 3)

/-- What stops an array `conv` before its first K-loop. -/
def convStop (d : Dev) (x : Flight) : Option Nat :=
  let t := convD x.w
  if convPoison d t then some stPoison
  else if outStatus d t.out ≠ 0 then some (outStatus d t.out)
  else if t.path ≠ 0 ∧ x.tiles.isEmpty ∧ x.plans.any (fun pl => (convProd d x pl).scaleBad) then some stScale
  else none

/-- Last part of an array `conv`: it names no master copy, so every tile chosen for the audit is counted (R74). -/
def convClose (d : Dev) (x : Flight) : Dev :=
  let t := convD x.w
  closeMat (countNoMaster d x false t.rows t.n t.k) x t.matJob

/-! ### The window path (R163 to R166) -/

/-- One 64-lane row of a window vector: codes, tag. -/
structure WRow where
  codes : List Int
  tag : Tag
  deriving Repr, Inhabited

/-- Adds (or takes the maximum of) two rows aligned to the larger exponent; `on`: lanes that take part. -/
def WRow.op (a b : WRow) (on : Nat → Bool) (fn : Int → Int → Int) : WRow :=
  let f := fmax a.tag.exp b.tag.exp
  let raw := (a.codes.zip b.codes).zipIdx.map (fun p =>
    let u := toExp p.1.1 a.tag.exp f
    if on p.2 then fn u (toExp p.1.2 b.tag.exp f) else u)
  let cl := raw.any (fun v => decide (clampI (-laneMax) laneMax v ≠ v))
  ⟨raw.map (clampI (-laneMax) laneMax),
    { exp := f, sat := a.tag.sat || b.tag.sat || cl, void := a.tag.void || b.tag.void }⟩

/-- The lanes of tap (dy, dx) of channel c at output pixels `ps`: LDW (R126); `present` lanes count their reserved codes. -/
def convTap (t : ConvD) (tile : Nat → Nat → Array Byte) (ps : List Nat) (present : Nat → Bool) (c dy dx : Nat) : WRow × Nat × Bool :=
  let r := gatherRow t.inp.fmt (ps.map (fun p => (t.tapRow p dy dx).map (fun q => (tile (q / 64) (c / 64), q % 64, c % 64)))) present
  (⟨r.codes, r.tag⟩, r.voids, r.bad)

/-- Weight of reduction index k and output channel n: code, exponent, reserved, error (log 43). -/
def convWeight (t : ConvD) (wt : Nat → Nat → Array Byte) (k n : Nat) : Int × Int × Bool × Bool :=
  let tl := wt (k / 64) (n / 64)
  match scaleOf (scaleByte tl (k % 64 / 8) (n % 64 / 8)) with
  | .exp e => (elemCode t.wt.fmt tl (k % 64) (n % 64), e, elemVoid t.wt.fmt tl (k % 64) (n % 64), false)
  | .empty => (0, zeroRow, false, false)
  | .bad => (0, zeroRow, false, true)

/-- Product of a row with a constant (MULL by an LDP entry). -/
def WRow.scale (a : WRow) (v e : Int) : WRow :=
  let live := a.tag.exp != zeroRow && e != zeroRow
  let raw := a.codes.map (fun c => if live then c * v else 0)
  let cl := raw.any (fun c => decide (clampI (-laneMax) laneMax c ≠ c))
  ⟨raw.map (clampI (-laneMax) laneMax),
    { a.tag with exp := if live then a.tag.exp + e else zeroRow, sat := a.tag.sat || cl }⟩

def WRow.zero (n : Nat) : WRow := ⟨List.replicate n 0, ⟨zeroRow, false, false⟩⟩

/-- Bias of pixels `ps` in channel n as one row (log 42). -/
def convBias (i : InitSrc) (row0 : Nat) (ps : List Nat) (n : Nat) : WRow :=
  let vs := ps.map (fun p => (i.val (p - row0) n, i.row (p - row0) n))
  let f := vs.foldl (fun m v => fmax m v.2.exp) zeroRow
  let vs' := vs.map (fun v => FitVal.mk v.1 v.2.exp (decide (v.2.exp ≠ zeroRow)))
  let fe := if vs.any (fun v => decide (laneMax < (v.1.natAbs : Int))) then (fitRowExp vs').getD f else f
  ⟨vs.map (fun v => if v.2.exp = zeroRow then 0 else clampI (-laneMax) laneMax (shiftRHE v.1 (fe - v.2.exp))),
    ⟨fe, vs.any (fun v => v.2.sat), vs.any (fun v => v.2.void)⟩⟩

/-- RCP of a row of counts and MULH by it (R166). -/
def WRow.over (a : WRow) (counts : List Int) : WRow :=
  let r := lutRow 1 (counts.map (fun c => (c, true))) 0
  let live := a.tag.exp != zeroRow
  ⟨(a.codes.zip r.codes).map (fun p => if live then shrRHE (p.1 * p.2) 32 else 0),
    { a.tag with exp := if live then a.tag.exp + r.exp + 32 else zeroRow }⟩

/-- One 64-lane row of the window path: the lanes, reserved codes read, and whether a format error was met. -/
structure WinOut where
  row : WRow
  voids : Nat
  bad : Bool
  deriving Repr, Inhabited

/-- One 64-lane row of the window path: output pixels `ps` of channel n. A max pool begins at its first in-image tap: the
exponent of the start value -(2^31 - 1) is not said (R166; log 128). -/
def windowRow (t : ConvD) (tile wt : Nat → Nat → Array Byte) (bias : Option (List Nat → Nat → WRow)) (ps : List Nat)
    (present : Nat → Bool) (n : Nat) : WinOut :=
  let taps := (List.range t.fh).flatMap (fun dy => (List.range t.fw).map (fun dx => (dy, dx)))
  let inside := fun dy dx l => (t.tapRow (nth 0 ps l) dy dx).isSome
  let z := WRow.zero ps.length
  if t.pool = 1 then
    let r := taps.foldl (fun (a : Option WRow × List Bool × Nat × Bool) q =>
      let w := convTap t tile ps present n q.1 q.2
      let on := (List.range ps.length).map (inside q.1 q.2)
      let vb := (a.2.2.1 + w.2.1, a.2.2.2 || w.2.2)
      match a.1 with
      | none => (some w.1, on, vb)
      | some m =>
        let f := fmax m.tag.exp w.1.tag.exp
        let codes := ((m.codes.zip w.1.codes).zip (a.2.1.zip on)).map (fun p =>
          let u := toExp p.1.1 m.tag.exp f
          let v := toExp p.1.2 w.1.tag.exp f
          if p.2.1 && p.2.2 then max u v else if p.2.2 then v else u)
        (some ⟨codes, { exp := f, sat := false, void := m.tag.void || w.1.tag.void }⟩,
          (a.2.1.zip on).map (fun p => p.1 || p.2), vb)) (none, [], 0, false)
    ⟨r.1.getD z, r.2.2.1, r.2.2.2⟩
  else if t.pool = 0 then
    let g := n / t.ng
    let ks := (List.range t.cg).flatMap (fun c => taps.map (fun q => (c, q.1, q.2)))
    let b0 := match bias with | some f => f ps n | none => z
    ks.foldl (fun (a : WinOut) q =>
      let w := convTap t tile ps present (g * t.cg + q.1) q.2.1 q.2.2
      let k := convWeight t wt ((q.2.1 * t.fw + q.2.2) * t.cg + q.1) n
      let pr := w.1.scale k.1 k.2.1
      let pr' := { pr with tag := { pr.tag with void := pr.tag.void || k.2.2.1 } }
      ⟨a.row.op pr' (fun _ => true) (· + ·), a.voids + w.2.1, a.bad || w.2.2 || k.2.2.2⟩) ⟨b0, 0, false⟩
  else
    let s := taps.foldl (fun (a : WinOut) q =>
      let w := convTap t tile ps present n q.1 q.2
      ⟨a.row.op w.1 (fun _ => true) (· + ·), a.voids + w.2.1, a.bad || w.2.2⟩) ⟨z, 0, false⟩
    let counts := (List.range ps.length).map (fun l =>
      ((if t.pool = 2 then (taps.filter (fun q => inside q.1 q.2 l)).length else t.fh * t.fw : Nat) : Int))
    { s with row := s.row.over counts }

/-- First output pixels of the vectors of a share (R163): image rows cut at multiples of 256 columns. -/
def windowVectors (t : ConvD) (pl : Plan) : List Nat :=
  let ow := t.ow.toNat
  ((rangeFrom pl.row0 pl.rows).map (fun p => p / ow * ow + p % ow / 256 * 256)).dedup

/-- Reserved weights that the vectors of channel n read: one parameter block for each vector (R51, R163). -/
def windowWeightVoids (t : ConvD) (wt : Nat → Nat → Array Byte) (n : Nat) : Nat :=
  if t.pool = 0 then ((List.range t.k).filter (fun k => (convWeight t wt k n).2.2.1)).length else 0

/-- Every output value of a share by pixel and channel: code and tag; reserved codes read; a format error was met. Rows of
at most 64 lanes cut from the vectors (R103, R163). -/
def windowShare (d : Dev) (x : Flight) (pl : Plan) (t : ConvD) : Array (Array (Int × Tag)) × Nat × Bool :=
  let tile := convTile d x pl.blk t
  let wt := fun i j => d.refTile x.job pl.blk t.wt (ceilDiv t.k 64) (ceilDiv t.n 64) i j
  let i := initOf d x.job pl t.bias t.n
  let bias := if t.bias.kind = 0 then none else some (convBias i pl.row0)
  let ow := t.ow.toNat
  let segs := ((rangeFrom pl.row0 pl.rows).map (fun p => p / ow * ow + p % ow / 64 * 64)).dedup
  let rows := segs.map (fun p0 =>
    let ps := rangeFrom p0 (Nat.min 64 (ow - p0 % ow))
    let here := fun l => decide (pl.row0 <= p0 + l ∧ p0 + l < pl.row0 + pl.rows)
    (p0, ps.length, ((List.range t.n).map (fun n => windowRow t tile wt bias ps here n)).toArray))
  let out := (rangeFrom pl.row0 pl.rows).map (fun p =>
    match rows.find? (fun r => decide (r.1 <= p ∧ p < r.1 + r.2.1)) with
    | some r => ((List.range t.n).map (fun n =>
        let w := (r.2.2.getD n default).row
        (nth 0 w.codes (p - r.1), w.tag))).toArray
    | none => #[])
  let wv := (windowVectors t pl).length * sumNat ((List.range t.n).map (windowWeightVoids t wt))
  (out.toArray, wv + sumNat (rows.map (fun r => sumNat (r.2.2.toList.map (·.voids)))), rows.any (fun r => r.2.2.any (·.bad)))

/-- The waves over channels (R163): eight channels from a multiple of 8, cut short at a group boundary and at N. Depthwise
filters and pools step through the input channels with their vectors, so no boundary cuts them. -/
def ConvD.chanWaves (t : ConvD) : List (Nat × Nat) :=
  let cut := t.pool == 0 && !(t.cg == 1 && t.ng == 1)
  (List.range (ceilDiv t.n 8)).flatMap (fun b =>
    let hi := Nat.min (8 * b + 8) t.n
    let starts := (rangeFrom (8 * b) (hi - 8 * b)).filter (fun n => n == 8 * b || (cut && n % t.ng == 0))
    starts.map (fun n => (n, (if cut then Nat.min hi (n / t.ng * t.ng + t.ng) else hi) - n)))

/-- Writes one scale block of an element tile of OUT: in the OPB with its shadow, or in a segment. -/
def putOutBlock (d : Dev) (x : Flight) (lb : Nat) (o : Ref) (off bi bj scale : Nat) (codes : List (Option Int)) : Dev :=
  if o.kind = 1 then putBlock d (d.physOf x.job lb) (d.opbAddr x.job lb (o.off + off)) o.fmt bi bj scale codes
  else
    let x0 := 64 * (8 * bi + bj)
    let nb := 64 * fmtBits o.fmt / 8
    let old := (d.segRead o.seg (o.off + off) (tileBytes o.fmt)).toArray
    (d.refWrite x.job lb o (off + 64 + x0 * nb / 64)
      (blockBytes o.fmt scale codes (fun i => rawCode o.fmt old (8 * bi + i / 8) (8 * bj + i % 8)))).refWrite x.job lb o
      (off + 8 * bi + bj) [BitVec.ofNat 8 scale]

/-- STQ of one wave of the window path: the scale blocks that its lanes and channels reach, every other lane absent (R123,
R164): `p0` the vectors' first pixel, channels n0 to n0 + k - 1. -/
def storeWave (x : Flight) (pl : Plan) (t : ConvD) (thr : Nat) (v : Array (Array (Int × Tag))) (p0 n0 k : Nat) (r : VRun) : VRun :=
  let ow := t.ow.toNat
  let p1 := Nat.min (pl.row0 + pl.rows) (p0 + Nat.min 256 (ow - p0 % ow))
  let lo := Nat.max pl.row0 p0
  let rn := r.d.rnd x
  let q := fun (p n : Nat) =>
    let e := (v.getD (p - pl.row0) #[]).getD n (0, Tag.zero)
    if e.2.exp = zeroRow then (⟨0, 0⟩ : QVal) else ⟨e.1, e.2.exp⟩
  let bj := n0 / 8
  (rangeFrom (lo / 8) (ceilDiv p1 8 - lo / 8)).foldl (fun (r : VRun) bi =>
    let vs : QBlock := (List.range 64).map (fun i =>
      let p := 8 * bi + i / 8
      let n := 8 * bj + i % 8
      if lo <= p ∧ p < p1 ∧ n0 <= n ∧ n < n0 + k then (q p n, true) else (⟨0, 0⟩, false))
    let o := quantPresent t.out.fmt (fun i => quantRnd rn rn.stoch (8 * bi + i / 8) (8 * bj + i % 8)) none vs
    let env : VEnv := ⟨x.job, pl.blk, default, #[], rn, false, thr⟩
    let off := (bi / 8 * ceilDiv t.n 64 + bj / 8) * tileBytes t.out.fmt
    ({ r with d := putOutBlock r.d x pl.blk t.out off (bi % 8) (bj % 8) o.1 o.2.1 }).clip env bi bj o.2.2) r

/-- Stores a window share into element tiles through the quantiser, wave by wave (R163, R164). -/
def storeWindowQ (d : Dev) (x : Flight) (pl : Plan) (t : ConvD) (v : Array (Array (Int × Tag))) : VRun :=
  (windowVectors t pl).foldl (fun r p0 =>
    t.chanWaves.foldl (fun r w => storeWave x pl t (d.setting x 4) v p0 w.1 w.2 r) r) (VRun.start d)

/-- Stores a window share into A32 tiles: a pixel's channels of one tile share the largest of their exponents (log 45). -/
def storeWindowA (d : Dev) (x : Flight) (pl : Plan) (t : ConvD) (v : Array (Array (Int × Tag))) : Dev :=
  let tc := ceilDiv t.n 64
  d.forEach (List.range pl.rows) (fun d r =>
    let p := pl.row0 + r
    d.forEach (List.range tc) (fun d j =>
      let es := (rangeFrom (64 * j) (Nat.min 64 (t.n - 64 * j))).map (fun n => (v.getD r #[]).getD n (0, Tag.zero))
      let f := es.foldl (fun m e => fmax m e.2.exp) zeroRow
      let base := (p / 64 * tc + j) * tileBytes 4
      let w : RowWord := ⟨f, es.any (·.2.sat), false, es.any (·.2.void)⟩
      (d.refWrite x.job pl.blk t.out (base + 4 * (p % 64)) (leBytes 4 w.enc.toNat)).refWrite x.job pl.blk t.out
        (base + 256 + 256 * (p % 64)) (es.flatMap (fun e => leBytes 4 (toUns 32 (toExp e.1 e.2.exp f))))))

/-- Engine tiles of a window share's A32 output with SAT in a row word (R68). -/
def windowSats (t : ConvD) (pl : Plan) (v : Array (Array (Int × Tag))) : Nat :=
  (((List.range pl.rows).flatMap (fun r => (List.range t.n).filterMap (fun n =>
    if ((v.getD r #[]).getD n (0, Tag.zero)).2.sat then some ((pl.row0 + r) / 64, n / 64) else none))).dedup).length

/-- Runs a window `conv`. The slots of its partials end with values that the manual does not give (log 126). -/
def windowRun (d : Dev) (x : Flight) : Dev :=
  let t := convD x.w
  let shares := x.plans.map (fun pl => (pl, windowShare d x pl t))
  let voids := sumNat (shares.map (fun s => s.2.2.1))
  let d0 := d.forEach x.plans (fun d pl =>
    if 0 < t.windowSlots then freePanel d x.job { pl with shape := 0, pm := 1, pn := 1 } false t.accBase 0 else d)
  let d1 := if voids = 0 then d0 else (d0.countVoid x.job voids).addConds x.id [stVoid]
  if shares.any (fun s => s.2.2.2) then closeFlight (d1.addConds x.id [stScale]) x.id
  else
    let d2 := d1.forEach shares (fun d s =>
      if t.out.fmt = 4 then
        let n := windowSats t s.1 s.2.1
        let d1 := storeWindowA d x s.1 t s.2.1
        if n = 0 then d1 else d1.bumpN (O.SAT_TILES x.job) n
      else
        let r := storeWindowQ d x s.1 t s.2.1
        countRun r.d x (d.physOf x.job s.1.blk) (d.setting x 4) r)
    let sat := t.out.fmt == 4 && shares.any (fun s => decide (0 < windowSats t s.1 s.2.1))
    closeFlight (if sat && d.setting x 3 == 1 then d2.addConds x.id [stSat] else d2) x.id

/-- Runs a `conv`. -/
def convRun (d : Dev) (x : Flight) : Dev :=
  let t := convD x.w
  match convStop d x with
  | some st => if t.path = 0 then closeFlight (d.addConds x.id [st]) x.id else stopWith d x t.matJob st
  | none =>
    if t.path = 0 then windowRun d x
    else convClose (d.forEach x.plans (fun d pl =>
      convLoops x pl t.matJob (convProd d x pl) (loopsLeft x pl t.matJob) d)) x

/-- The ranges a `conv` names (R96). -/
def convRanges (x : Flight) : List Range :=
  let t := convD x.w
  x.plans.flatMap (fun pl =>
    (if t.path = 0 then (if 0 < t.windowSlots then [Range.whole pl.blk 0 t.accBase t.windowSlots true] else [])
     else panelRanges pl t.matJob) ++
    opbRange pl.blk t.inp (gridBytes t.inp.fmt (t.m * t.h * t.w) t.cin) false ++
    opbRange pl.blk t.wt (gridBytes t.wt.fmt t.k t.n) false ++
    opbRange pl.blk t.bias (gridBytes t.bias.fmt t.rows t.n) false ++ opbRange pl.blk t.out (gridBytes t.out.fmt t.rows t.n) true ++
    [Range.whole pl.blk 1 (t.expBase * 1024) (t.expLen * 1024) true, Range.whole pl.blk 1 (t.opbBase * 1024) (t.opbLen * 1024) true])

end Sys2Proof.Machine
end

