-- ==== Sys2Proof/Machine/Stage.lean ====
section
/-! DEFINITION. Pipeline stages (R148 to R150, R177, R183, R521): which descriptors belong to a stage, what they leave in its
blocks' OPBs, what the blocks of a stage forward to one another and what a stage forwards to the next. -/

namespace Sys2Proof.Machine

/-- The stage after stage `s` in its pipeline. -/
def Job.nextStage (j : Job) (s : Nat) : Option Stage :=
  j.pipes.findSome? (fun p => ((p.2.zip (p.2.drop 1)).find? (fun e => e.1.stage == s)).map (·.2))

/-- The stage before it. -/
def Job.prevStage (j : Job) (s : Nat) : Option Stage :=
  j.pipes.findSome? (fun p => ((p.2.zip (p.2.drop 1)).find? (fun e => e.2.stage == s)).map (·.1))

/-- The stage takes or gives forwarded input. -/
def Job.pipelined (j : Job) (st : Stage) : Bool :=
  decide (0 < st.inLen) ||
  match j.nextStage st.stage with
  | some n => decide (0 < n.inLen)
  | none => false

/-- A pipelined stage runs a descriptor only of the step it has started. -/
def stageStarted (d : Dev) (x : Flight) : Bool :=
  let ss := stagesOf (d.job x.job) x
  !ss.all (fun s => (d.job x.job).pipelined s) || ss.isEmpty ||
    ss.any (fun s => d.blk.stageStep.contains (x.job, s.stage, x.step))

/-! ### What a descriptor names (R96) -/

/-- What a command of the hub reads and writes in the OPB of a block: lists, results, images, rank gradients, mask rows. -/
def hubRanges (d : Dev) (x : Flight) : List Range :=
  let w := x.w
  let lb := x.target
  match x.opcode with
  | 6 => opbRange lb (listRef x) (16 * moveCount x) false ++ opbRange lb (resultRef x) (8 * moveCount x) true
  | 7 =>
    let t := reduceD w
    if t.isLocal then [Range.whole t.srcBlock 1 t.srcAddr (8256 * t.tiles) false] else []
  | 8 => if (updateD w).apply then [] else [Range.whole lb 1 (updateD w).image 64 false]
  | 9 => opbRange lb (forkList x) (2 * (forkD w).n) true
  | 10 =>
    opbRange lb (listRef x) (16 * editCount x) false ++
    ((List.range (editCount x)).filter (fun k => fld (listRec d x k) 0 4 == 5)).map (fun k =>
      Range.whole lb 1 (fld (listRec d x k) 64 21) 2048 false)
  | _ => []

/-- What a descriptor names on its blocks. -/
def rangesOf (d : Dev) (x : Flight) : List Range :=
  match x.opcode with
  | 1 => mmaRanges x
  | 2 => elemRanges d x
  | 3 => convRanges x
  | 4 => scanRanges d x
  | 5 => attRanges d x
  | _ => hubRanges d x

/-- No earlier descriptor of the job still holds what `x` names. -/
def scoreFree (d : Dev) (x : Flight) : Bool :=
  let rs := rangesOf d x
  !(d.sched.flights.takeWhile (fun y => y.id != x.id)).any (fun y => y.job == x.job && y.live &&
    (rangesOf d y).any (fun a => rs.any (fun b => a.clash b)))

/-! ### Outputs in the OPB (R148, R183; log 65) -/

/-- Engine tiles [r, r + nr) x [c, c + nc) of a grid `tc` tiles wide, as runs of bytes from its start. -/
def tileRuns (f tc r nr c nc : Nat) : List (Nat × Nat) :=
  if nc = 0 then [] else (rangeFrom r nr).map (fun i => ((i * tc + c) * tileBytes f, nc * tileBytes f))

/-- What a compute descriptor writes into the OPBs of its blocks: logical block, first byte of the output, format, runs. -/
def outputsOf (d : Dev) (x : Flight) : List (Nat × Nat × Nat × List (Nat × Nat)) :=
  let w := x.w
  match x.opcode with
  | 1 =>
    let t := mmaD w
    if t.out.kind = 1 then x.plans.map (fun pl =>
      (pl.blk, t.out.off, t.out.fmt, tileRuns t.out.fmt (ceilDiv t.n 64) 0 (ceilDiv t.m 64) (pl.col0 / 64) (ceilDiv pl.cols 64)))
    else []
  | 2 =>
    let t := elemD w
    if t.load then [] else (t.outs.filter (fun r => r.kind == 1)).map (fun r =>
      (x.target, r.off, r.fmt, [(0, elemBytes t r false)]))
  | 3 =>
    let t := convD w
    if t.out.kind = 1 then x.plans.map (fun pl =>
      (pl.blk, t.out.off, t.out.fmt, tileRuns t.out.fmt (ceilDiv t.n 64) (pl.row0 / 64) (ceilDiv pl.rows 64) 0 (ceilDiv t.n 64)))
    else []
  | 4 =>
    let t := scanD w
    x.plans.map (fun pl => (pl.blk, t.y.off, t.y.fmt,
      if t.y.kind = 1 then
        tileRuns t.y.fmt (ceilDiv t.n 64) (pl.row0 * t.perRow / 64) (ceilDiv (pl.rows * t.perRow) 64) 0 (ceilDiv t.n 64)
      else []))
  | 5 =>
    let t := attD w
    let h := d.dirHdr t.dir
    if t.outFmt = 2 then [] else (List.range h.hkv).map (fun hd =>
      (attBlock x t hd 0, t.out.off, t.fmtOut,
        tileRuns t.fmtOut (ceilDiv (attCols h t) 64) 0 (ceilDiv t.q 64) (hd * t.g * h.dt) (t.g * h.dt)))
  | _ => []

/-- The step masks a descriptor reads on its blocks (R177). -/
def masksOf (x : Flight) : Option (Nat × Nat) :=
  let t := scanD x.w
  if x.opcode = 4 ∧ !t.replay then some (t.maskAddr, ceilDiv (t.m * t.perRow) 4) else none

/-- Runs of bytes in the grant. -/
def StageOut.spans (o : StageOut) : List (Nat × Nat) := o.runs.map (fun r => (o.base + r.1, r.2))

def spansMeet (a b : List (Nat × Nat)) : Bool :=
  a.any (fun p => b.any (fun q => decide (p.1 < q.1 + q.2 ∧ q.1 < p.1 + p.2)))

/-- A descriptor has ended with a status that lets its step go on: its outputs wait to be forwarded. What it wrote over, on
the same block, waits no more. -/
def recordOuts (d : Dev) (x : Flight) : Dev :=
  let new := (stagesOf (d.job x.job) x).flatMap (fun s => (outputsOf d x).map (fun q =>
    ({ job := x.job, stage := s.stage, step := x.step, lb := q.1, base := q.2.1, fmt := q.2.2.1, runs := q.2.2.2,
       masks := masksOf x } : StageOut)))
  let lost := fun (o : StageOut) => new.any (fun n =>
    o.job == n.job && o.stage == n.stage && o.step == n.step && o.lb == n.lb && spansMeet o.spans n.spans)
  d.setBlk (fun k => { k with outs := k.outs.filter (fun o => !lost o) ++ new })

/-- Pieces that are forwarded whole: engine tiles, or a run of raw bytes. -/
def StageOut.pieces (o : StageOut) : List (Nat × Nat) :=
  if tileBytes o.fmt = 0 then o.spans
  else o.spans.flatMap (fun s => (List.range (s.2 / tileBytes o.fmt)).map (fun i => (s.1 + i * tileBytes o.fmt, tileBytes o.fmt)))

/-- Forwards a piece of an output to byte `dst` of the grant on another block. An engine tile takes its scale bytes into the
shadow (R85). -/
def sendPiece (d : Dev) (o : StageOut) (p : Nat × Nat) (lb dst : Nat) : Dev :=
  match (d.place o.job o.lb).phys, (d.place o.job lb).phys with
  | some a, some b =>
    let bs := d.opbRead a (d.opbAddr o.job o.lb p.1) p.2
    if isElemFmt o.fmt then d.opbPutTile b (d.opbAddr o.job lb dst) bs else d.opbWrite b (d.opbAddr o.job lb dst) bs
  | _, _ => d

/-! ### Within a stage (R150, R183) -/

/-- Bytes of a block's grant that a stage's descriptor reads there; of a `conv` input, the rows that its share of the output
needs (R150). -/
def readSpans (d : Dev) (x : Flight) (pl : Plan) : List (Nat × Nat) :=
  let rs := ((rangesOf d x).filter (fun r => r.blk == pl.blk && r.kind == 1 && !r.write)).map (fun r => (r.lo, r.n))
  if x.opcode = 3 ∧ (convD x.w).inp.kind = 1 then
    let t := convD x.w
    let tc := ceilDiv t.cin 64
    let rows := (t.inRows pl.row0 pl.rows).flatMap (fun q => rangeFrom ((q.1 * t.h + q.2) * t.w) t.w)
    (rs.filter (fun r => r.1 != t.inp.off)) ++
      ((rows.map (· / 64)).dedup).map (fun i => (t.inp.off + i * tc * tileBytes t.inp.fmt, tc * tileBytes t.inp.fmt))
  else rs

/-- The outputs of other blocks of the stage that a descriptor reads reach its blocks, where the block has not written those
bytes itself in the step. A command on one block reads what lies there. -/
def takeOuts (d : Dev) (x : Flight) : Dev :=
  if x.opcode = 2 then d
  else
    let mine := d.blk.outs.filter (fun o => o.job == x.job && o.step == x.step &&
      (stagesOf (d.job x.job) x).any (fun s => s.stage == o.stage))
    d.forEach x.plans (fun d pl =>
      let own := (mine.filter (fun o => o.lb == pl.blk)).flatMap StageOut.spans
      let rs := readSpans d x pl
      d.forEach (mine.filter (fun o => o.lb != pl.blk)) (fun d o =>
        d.forEach (o.pieces.filter (fun p => spansMeet [p] rs && !spansMeet [p] own)) (fun d p => sendPiece d o p pl.blk p.1)))

/-! ### From stage to stage (R148, R149) -/

/-- The part of a stage in a step has finished: a descriptor of it has completed and none is in work. -/
def stageFinished (d : Dev) (j stage step : Nat) : Bool :=
  d.blk.stageDone.contains (j, stage, step) &&
    !d.sched.flights.any (fun x => x.step == step && x.done.isNone && d.onStage j stage x)

/-- The outputs of a stage in a step: what its last output is made of, on every block. -/
def stageOutput (d : Dev) (j stage step : Nat) : List StageOut :=
  let os := d.blk.outs.filter (fun o => o.job == j && o.stage == stage && o.step == step && !o.runs.isEmpty)
  match os.getLast? with
  | none => []
  | some l => os.filter (fun o => o.base == l.base && o.fmt == l.fmt)

/-- Step `step` of a stage arrives in the buffer it takes on every block of the next: the outputs in their place from the
start of the output, every other byte unspecified (log 65), and the step masks at their address. -/
def fillInput (d : Dev) (j stage : Nat) (n : Stage) (step : Nat) : Dev :=
  let os := stageOutput d j stage step
  let ms := ((d.blk.outs.filter (fun o => o.job == j && o.stage == stage && o.step == step)).filterMap (fun o =>
    o.masks.map (fun m => (o.lb, m)))).head?
  let buf := n.inBase + step % 2 * n.inLen
  d.forEach n.blocks (fun d lb =>
    match (d.place j lb).phys with
    | none => d
    | some b =>
      let r := freeRun d n.inLen
      let d1 := (r.2.opbWrite b (r.2.opbAddr j lb buf) r.1).forEach os (fun d o =>
        d.forEach (o.pieces.filter (fun p => decide (p.1 - o.base + p.2 ≤ n.inLen))) (fun d p => sendPiece d o p lb (buf + (p.1 - o.base))))
      match ms with
      | some (src, a, k) => sendPiece d1 ⟨j, stage, step, src, a, 6, [], none⟩ (a, k) lb a
      | none => d1)

/-- A stage has nothing left of a step. -/
def clearStage (d : Dev) (j stage step : Nat) : Dev :=
  d.setBlk (fun k => { k with
    stageStep := k.stageStep.filter (fun e => e != (j, stage, step))
    inputs := k.inputs.filter (fun e => e != (j, stage, step))
    stageDone := k.stageDone.filter (fun e => e != (j, stage, step))
    outs := k.outs.filter (fun o => !(o.job == j && o.stage == stage && o.step == step)) })

/-- A step is discarded: no stage has anything of it, and its re-issue starts afresh. -/
def clearStep (d : Dev) (j step : Nat) : Dev :=
  d.forEach (((d.job j).pipes.flatMap (·.2)).map (·.stage)) (fun d s => clearStage d j s step)

/-- A stage that has finished a step forwards its outputs when its successor has a buffer free; its own input frees. -/
def forwardStage (d : Dev) (j stage step : Nat) : Dev :=
  if !d.blk.stageStep.contains (j, stage, step) || !stageFinished d j stage step then d
  else
    match (d.job j).nextStage stage with
    | none => clearStage d j stage step
    | some n =>
      if n.inLen = 0 then clearStage d j stage step
      else if 2 <= (d.blk.inputs.filter (fun e => e.1 == j && e.2.1 == n.stage)).length then d
      else (clearStage (fillInput d j stage n step) j stage step).setBlk (fun k =>
        { k with inputs := k.inputs ++ [(j, n.stage, step)] })

/-- Forwards whatever a stage has finished. -/
def forwardAll (d : Dev) (j stage : Nat) : Dev :=
  d.forEach (d.blk.stageStep.filter (fun e => e.1 == j && e.2.1 == stage)) (fun d e => forwardStage d j stage e.2.2)

/-- A descriptor of a stage completes: its part of the step stands, or with the step's discard falls. -/
def notePart (d : Dev) (x : Flight) (st : Nat) : Dev :=
  let ss := (stagesOf (d.job x.job) x).map (fun s => (x.job, s.stage, x.step))
  if passes st then d.setBlk (fun k => { k with stageDone := k.stageDone ++ ss.filter (fun e => !k.stageDone.contains e) })
  else if st = stDiscard ∨ st = stPoison then clearStep d x.job x.step
  else d

/-- A new step of a job: what stages outside a forwarding pipeline hold of finished earlier steps is forgotten. -/
def dropStale (d : Dev) (j step : Nat) : Dev :=
  let live := (d.sched.flights.filter (fun x => x.job == j)).map (·.step)
  let piped := (((d.job j).pipes.flatMap (·.2)).filter (d.job j).pipelined).map (·.stage)
  let keep := fun (i s t : Nat) => i != j || piped.contains s || live.contains t || decide (step ≤ t)
  d.setBlk (fun k => { k with
    stageDone := k.stageDone.filter (fun e => keep e.1 e.2.1 e.2.2)
    outs := k.outs.filter (fun o => keep o.job o.stage o.step) })

/-- A stage starts a step: its whole input is there, and it has forwarded its step before. A stage that is fed by no other
has IN_LEN 0 (R521). -/
def stageStart (j stage step : Nat) (d : Dev) : Dev :=
  match (d.job j).stage stage with
  | none => d
  | some st =>
    let d0 := forwardAll d j stage
    let d1 := match (d.job j).prevStage stage with
      | some p => forwardAll d0 j p.stage
      | none => d0
    if d1.blk.stageStep.any (fun e => e.1 == j && e.2.1 == stage) then d1
    else if st.inLen = 0 ∨ d1.blk.inputs.contains (j, stage, step) then
      d1.setBlk (fun k => { k with stageStep := k.stageStep ++ [(j, stage, step)] })
    else d1

/-- STAGE_STEP_START (R148). -/
def execStageStepStart (job stage step : Nat) (s : State) : Host.Outcome State Fault Refusal :=
  .next { s with dev := stageStart job stage step s.dev }

end Sys2Proof.Machine
end

