-- ==== Sys2Proof/Machine/Run.lean ====
section
/-! DEFINITION. Running the commands of the compute blocks (R14, R89, R95, R96, R99, R111, R135, R139, R182, R206, R260, R265,
R395): when a descriptor may run, and MMA, ELEM, ELEM_LOAD, CONV, SCAN, ATTEND, K_LOOP_RUN and SHADOW_AUDIT. -/

namespace Sys2Proof.Machine

/-! ### Pins (R260, R265) -/

/-- Segments a compute descriptor reads. -/
def segsRead (d : Dev) (x : Flight) : List Nat :=
  let w := x.w
  match x.opcode with
  | 1 => (([128, 176, 224].filter (fun lo => fld w lo 2 == 3)).map (fun lo => fld w (lo + 8) 19)) ++
         (if bit w 82 then [fld w 320 19] else [])
  | 2 => if bit w 80 ∧ fld w 128 2 = 3 then [fld w 136 19] else []
  | 3 => ([128, 176, 224].filter (fun lo => fld w lo 2 == 3)).map (fun lo => fld w (lo + 8) 19)
  | 5 => (attD w).dir :: (walkGroups d (attD w) (x.cacheLen + (attD w).q)).map (fun j => (d.dirEnt (attD w).dir j).seg)
  | _ => []

/-- Segments it writes: OUT, or the groups that an append reaches. -/
def segsWritten (d : Dev) (x : Flight) : List Nat :=
  let w := x.w
  match x.opcode with
  | 1 => if fld w 272 2 = 3 then [fld w 280 19] else []
  | 3 => if fld w 272 2 = 3 then [fld w 280 19] else []
  | 5 =>
    let t := attD w
    if t.rewalk ∨ x.appended then []
    else (((newRows t (attHdr d x)).map (fun g => d.dirEnt t.dir g.1)).filter (·.valid)).map (·.seg)
  | _ => []

/-- Pins a descriptor holds while it runs. An `attend` holds its directory, for writing until the append is done; its groups it
pins as it loads them (R207). -/
def pinsOf (d : Dev) (x : Flight) : List (Nat × Bool) :=
  let ws := (segsWritten d x).dedup.map (fun e => (e, true))
  if x.opcode = 5 then ((attD x.w).dir, !((attD x.w).rewalk || x.appended)) :: ws
  else (segsRead d x).dedup.map (fun e => (e, false)) ++ ws

/-- A `conv` pins its input segment from issue, where the pin is granted (R161). -/
def issueInputPin (d : Dev) (x : Flight) : Dev :=
  let r := (convD x.w).inp
  if x.opcode = 3 ∧ r.kind = 3 ∧ x.pinsReady d [(r.seg, false)] then d.grantPins x.id [(r.seg, false)] else d

/-! ### When a descriptor may run -/

/-- No page edit that comes first is pending on the directory of an `attend` (R219). -/
def editsDone (d : Dev) (x : Flight) : Bool :=
  x.opcode != 5 || !d.srv.edits.any (fun e => e.dir == (attD x.w).dir &&
    (if d.editWhole e then decide (e.eff ≤ x.step) else decide (e.f < x.id)))

/-- A compute descriptor of command `opc` may run: issued, every share delivered (R439), the tenancies its own (R395), what it
names free (R96), its pins held or granted now (R260). -/
def canRun (d : Dev) (x : Flight) (opc : Nat) : Bool :=
  x.live && x.opcode == opc && !x.plans.isEmpty &&
  x.blocks.all (fun lb => (d.place x.job lb).phys.isSome && x.rung.contains lb) &&
  (d.flightPhys x).all (fun b => d.tenancyOk x b) &&
  (x.started || (scoreFree d x && stageStarted d x && editsDone d x)) && x.pinsReady d (pinsOf d x)

/-! ### The chunk area and the scale sweep (R135, R139) -/

/-- Bytes that the loads of a share take: the operands in one piece, or two chunks of them (R138). -/
def shareLoads (s : ShareIn) (pl : Plan) : Nat :=
  if pl.kc = 0 then (if s.aLoaded then bytesA s else 0) + (if s.bLoaded then bytesB s else 0)
  else
    let h := shapeOf pl.shape
    let a := if s.aLoaded then ceilDiv (pl.pm * h.mt) 64 else 0
    let b := if s.bLoaded then ceilDiv (pl.pn * h.nt) 64 else 0
    2 * (pl.kc / 8) * tileBytes s.fmt * (a + b)

/-- Bytes that a descriptor loads into its chunk area on a share's block: nothing for a product over no K-blocks (R147); input
rows of a `conv` stand for the whole area (R161), pages, mask rows and the ones tile for what R199 asks for. -/
def loadedBytes (d : Dev) (x : Flight) (pl : Plan) : Nat :=
  match x.opcode with
  | 1 =>
    let t := mmaD x.w
    if t.kbBase < t.kbEnd then
      shareLoads ⟨t.a.fmt, t.wide, t.m, pl.cols, 64 * (ceilDiv t.kbEnd 8 - t.kbBase / 8), t.a.kind == 3, t.b.kind == 3, 0, 0, 0⟩ pl
    else 0
  | 3 =>
    let t := convD x.w
    if t.inp.kind = 3 ∧ t.path ≠ 1 then t.opbLen * 1024 else shareLoads (convShare t pl.rows) pl
  | 5 =>
    let h := d.dirHdr (attD x.w).dir
    2 * pageBytes h.dt + 64 * h.qMax + 4160
  | _ => 0

/-- The chunk area of a descriptor: first byte and length in the grant. -/
def chunkArea (x : Flight) : Nat × Nat :=
  let w := x.w
  match x.opcode with
  | 1 => ((mmaD w).opbBase * 1024, (mmaD w).opbLen * 1024)
  | 3 => ((convD w).opbBase * 1024, (convD w).opbLen * 1024)
  | 5 => ((attD w).opbBase * 1024, (attD w).opbLen * 1024)
  | _ => (0, 0)

/-- A run of bytes without those of another. -/
def cutSpan (a c : Nat × Nat) : List (Nat × Nat) :=
  let e := Nat.max a.1 (c.1 + c.2)
  ([(a.1, Nat.min a.2 (c.1 - a.1)), (e, a.1 + a.2 - e)]).filter (fun p => decide (0 < p.2))

/-- Operands named by a segment are loaded into the chunk area, from its first byte on, around the operands of the descriptor
that lie resident in it (R135). Its bytes and shadow entries then hold what the layout of the loads leaves there, which the
manual does not give (log 26). -/
def loadChunks (d : Dev) (x : Flight) : Dev :=
  let c := chunkArea x
  d.forEach x.plans (fun d pl =>
    let own := readSpans d x pl
    let runs := own.foldl (fun rs s => rs.flatMap (fun r => cutSpan r s)) [(c.1, Nat.min c.2 (loadedBytes d x pl))]
    d.forEach (runs.filter (fun r => decide (0 < r.2))) (fun d r => d.freeOpb (d.physOf x.job pl.blk) (d.opbAddr x.job pl.blk r.1) r.2))

/-- Blocks whose chunked share runs a scale sweep; a `conv` sweeps its weights alone (R139, R162). -/
def sweepsOf (x : Flight) : Nat :=
  if x.opcode = 1 ∨ (x.opcode = 3 ∧ (convD x.w).wt.kind = 3) then (x.plans.filter (fun pl => pl.kc != 0)).length else 0

/-- Starts a descriptor: it takes the tenancy of its blocks (R395), its pins, the outputs of its stage that it reads, and its
chunk area; its scale sweep runs. -/
def beginRun (d : Dev) (x : Flight) : Dev :=
  let d1 := d.takeTenancy x
  if x.started then d1
  else
    let d2 := loadChunks (takeOuts ((d1.start x.id).grantPins x.id (pinsOf d x)) x) x
    let n := sweepsOf x
    if n = 0 ∨ (segsRead d x).any (fun e => !d.segOk e) then d2 else d2.bumpN (O.SCALE_SWEEPS x.job) n

/-- A descriptor has ended: with POISON a segment whose stored tiles fail their check is poisoned and the step is discarded
(R21, R273, R278); with a status that lets the step go on its outputs stand. -/
def endRun (d : Dev) (x : Flight) : Dev :=
  match (d.flight x.id).bind (·.done) with
  | none => d
  | some st =>
    if st = stPoison then
      let es := (segsRead d x).filter (fun e => ((d.res e).st == 1 || (d.res e).st == 2) && !d.segOk e)
      discardStep (d.forEach es (fun d e => poisonSeg d e (d.res e).frame)) x.job x.step
    else if passes st then recordOuts d x
    else d

/-- Runs a descriptor of a compute command by `go`, if it may run. -/
def runCmd (opc f : Nat) (ok : Flight → Bool) (go : Dev → Flight → Dev) (d : Dev) : Dev :=
  match d.flight f with
  | none => d
  | some x =>
    if canRun d x opc && ok x then settle (endRun (go (beginRun d x) { x with started := true }) x) else d

/-! ### The commands -/

/-- MMA (R424): every K-loop that has not run. -/
def execMma (f : Nat) (s : State) : Host.Outcome State Fault Refusal :=
  .next { s with dev := runCmd 1 f (fun _ => true) mmaRun s.dev }

/-- A parity error at the fetch of a program on a logical block; one that recurs fails the block (R22, R111). -/
def parityError (d : Dev) (x : Flight) (lb prog : Nat) : Dev :=
  let p := fetchParity d x lb prog
  if p.2 then retireBlock p.1 (d.physOf x.job lb) 4 else p.1

/-- An `elem` whose instruction fetch meets a parity error at a program word, or none (R111). -/
def elemGo (parity : Option Nat) (d : Dev) (x : Flight) : Dev :=
  match parity with
  | some w => if w < 32 then parityError d x x.target (elemD x.w).program else elemRun d x
  | none => elemRun d x

/-- ELEM (R112). -/
def execElem (f : Nat) (parity : Option Nat) (s : State) : Host.Outcome State Fault Refusal :=
  .next { s with dev := runCmd 2 f (fun x => !bit x.w 80) (elemGo parity) s.dev }

/-- ELEM_LOAD (R110). -/
def execElemLoad (f : Nat) (s : State) : Host.Outcome State Fault Refusal :=
  .next { s with dev := runCmd 2 f (fun x => bit x.w 80) elemLoadRun s.dev }

/-- CONV (R154). -/
def execConv (f : Nat) (s : State) : Host.Outcome State Fault Refusal :=
  .next { s with dev := runCmd 3 f (fun _ => true) convRun s.dev }

/-- SCAN (R173). -/
def execScan (f : Nat) (s : State) : Host.Outcome State Fault Refusal :=
  .next { s with dev := runCmd 4 f (fun _ => true) scanRun s.dev }

/-- Once the append is done, an `attend` holds its directory for reading only (R260). -/
def walkPins (d : Dev) (x : Flight) : Dev := (d.dropPins x.id (·.2)).grantPins x.id [((attD x.w).dir, false)]

/-- Every group of the walk may be pinned now. -/
def walkReady (d : Dev) (x : Flight) : Bool :=
  let held := ((d.flight x.id).map (·.pins)).getD []
  (walkGroups d (attD x.w) (x.cacheLen + (attD x.w).q)).all (fun j =>
    let e := (d.dirEnt (attD x.w).dir j).seg
    held.contains (e, false) || d.pinFree e false)

/-- K-loops of pages with their residue schedules (R97, R99, R205): `true` when one ends in a block fault. -/
def pageLoops (x : Flight) : List (PageAt × List (List Nat)) → Dev → Dev × Bool
  | [], d => (d, false)
  | q :: qs, d =>
    if !pageOf d x q.1 then pageLoops x qs d
    else
      let b := d.physOf x.job (pageBlock x q.1)
      let dt := (attHdr d x).dt
      let sh := if q.1.second then (attD x.w).sumShape dt else (attD x.w).scoreShape dt
      let r := residueLoop (issuePage d x q.1) x b sh q.2
      if r.2 then (retireBlock r.1 b 1, true) else pageLoops x qs r.1

/-- An `attend`: the append, then the walk as far as a page's load, or to its end; on the way the K-loops that fail the residue
check and the fetch of SCORE_PROG that meets a parity error. -/
def attGo (run : AttendRun) (d : Dev) (x : Flight) : Dev :=
  let b := attBegin d x
  if !b.2 then b.1
  else
    let d1 := walkPins b.1 x
    match run.load with
    | some p => attLoad d1 x p
    | none =>
      if !walkReady d1 x then d1
      else
        let r := pageLoops x run.loops d1
        if r.2 then r.1
        else
          match run.parity with
          | some (p, w) =>
            if w < 32 ∧ (attD x.w).prog ≠ 16 ∧ pageOf r.1 x p then parityError (issuePage r.1 x p) x (pageBlock x p) (attD x.w).prog
            else attWalk r.1 x
          | none => attWalk r.1 x

/-- ATTEND (R205). -/
def execAttend (run : AttendRun) (s : State) : Host.Outcome State Fault Refusal :=
  .next { s with dev := runCmd 5 run.f (fun _ => true) (attGo run) s.dev }

/-! ### One K-loop (R89, R95, R97 to R100) -/

/-- A product descriptor on the array: an `mma`, or a `conv` on an array path. -/
def onArray (x : Flight) : Bool := x.opcode == 1 || (x.opcode == 3 && (convD x.w).path != 0)

def arrayJob (x : Flight) : MatJob := if x.opcode = 1 then (mmaD x.w).matJob else (convD x.w).matJob

def arrayStop (d : Dev) (x : Flight) : Option Nat := if x.opcode = 1 then mmaStop d x else convStop d x

def arrayLoop (d : Dev) (x : Flight) (pl : Plan) (t : Nat × Nat × Nat) : Dev :=
  if x.opcode = 1 then matLoop d x pl (arrayJob x) (mmaProd d x pl) t else convLoop d x pl (arrayJob x) (convProd d x pl) t

/-- Every K-loop of every share has run: the descriptor ends. -/
def arrayClose (d : Dev) (x : Flight) : Dev :=
  if x.plans.all (fun pl => (loopsLeft x pl (arrayJob x)).isEmpty) then
    if x.opcode = 1 then mmaClose d x else convClose d x
  else d

/-- The next K-loop of a share, with its residue schedule. -/
def kLoop (f blk no : Nat) (runs : List (List Nat)) (d : Dev) : Dev :=
  match d.flight f with
  | none => d
  | some x =>
    match x.plans.find? (fun pl => pl.blk == blk) with
    | none => d
    | some pl =>
      match loopsLeft x pl (arrayJob x) with
      | [] => d
      | t :: _ =>
        if !onArray x || !canRun d x x.opcode || pl.loopNo t != no then d
        else
          let d1 := beginRun d x
          match arrayStop d1 x with
          | some st => settle (endRun (stopWith d1 x (arrayJob x) st) x)
          | none =>
            let b := d.physOf x.job blk
            let r := residueLoop d1 x b (shapeOf pl.shape) runs
            if r.2 then settle (retireBlock r.1 b 1)
            else
              let d2 := arrayLoop r.1 x pl t
              match d2.flight f with
              | some y => settle (endRun (arrayClose d2 y) y)
              | none => d2

/-- K_LOOP_RUN (R89). -/
def execKLoopRun (f blk tile : Nat) (runs : List (List Nat)) (s : State) : Host.Outcome State Fault Refusal :=
  .next { s with dev := kLoop f blk tile runs s.dev }

/-- SHADOW_AUDIT (R75): of a drained tile of an `mma` that has not been stopped. -/
def shadowAudit (f tr tc retries : Nat) (d : Dev) : Dev :=
  match d.flight f with
  | none => d
  | some x =>
    let fine : Bool := match x.done with
      | none => true
      | some st => passes st || st == stSat
    if x.opcode = 1 ∧ x.started ∧ fine then auditTile d x tr tc retries else d

def execShadowAudit (f tr tc retries : Nat) (s : State) : Host.Outcome State Fault Refusal :=
  .next { s with dev := shadowAudit f tr tc retries s.dev }

end Sys2Proof.Machine
end

