-- ==== Sys2Proof/Machine/Hub.lean ====
section
/-! DEFINITION. The commands of `move`, `page-edit`, `fork`, `reduce` and `update` that read or write an operand buffer: each
waits, as every descriptor does, for the earlier descriptors that hold what it names (R96). -/

namespace Sys2Proof.Machine

/-- A step of a hub command's descriptor: once it has started, or when nothing it names is held. -/
def hubCmd (f : Nat) (go : Dev → Dev) (d : Dev) : Dev :=
  match d.flight f with
  | none => d
  | some x => if x.started || scoreFree d x then go d else d

/-- ALLOC (R276), FREE, PROMOTE, DEMOTE, REHOME, RELOCATE, PIN, UNPIN (R262): operation k of move descriptor f. -/
def execAlloc (f k : Nat) (s : State) : Host.Outcome State Fault Refusal := .next { s with dev := hubCmd f (acceptMove 1 f k) s.dev }
def execFree (f k : Nat) (s : State) : Host.Outcome State Fault Refusal := .next { s with dev := hubCmd f (acceptMove 2 f k) s.dev }
def execPromote (f k : Nat) (s : State) : Host.Outcome State Fault Refusal := .next { s with dev := hubCmd f (acceptMove 3 f k) s.dev }
def execDemote (f k : Nat) (s : State) : Host.Outcome State Fault Refusal := .next { s with dev := hubCmd f (acceptMove 4 f k) s.dev }
def execRehome (f k : Nat) (s : State) : Host.Outcome State Fault Refusal := .next { s with dev := hubCmd f (acceptMove 5 f k) s.dev }
def execRelocate (f k : Nat) (s : State) : Host.Outcome State Fault Refusal := .next { s with dev := hubCmd f (acceptMove 6 f k) s.dev }
def execPin (f k : Nat) (s : State) : Host.Outcome State Fault Refusal := .next { s with dev := hubCmd f (acceptMove 7 f k) s.dev }
def execUnpin (f k : Nat) (s : State) : Host.Outcome State Fault Refusal := .next { s with dev := hubCmd f (acceptMove 8 f k) s.dev }

/-- PAGE_EDIT_INIT, PAGE_EDIT_MAP, PAGE_EDIT_UNMAP, PAGE_EDIT_SET_LEN, PAGE_EDIT_SET_MASK, PAGE_EDIT_CLEAR_MASK (R218). A
record with a reserved OP breaks the command at whichever row is offered it. -/
def execPageEditInit (f k : Nat) (s : State) : Host.Outcome State Fault Refusal := .next { s with dev := hubCmd f (acceptEdit 1 f k) s.dev }
def execPageEditMap (f k : Nat) (s : State) : Host.Outcome State Fault Refusal := .next { s with dev := hubCmd f (acceptEdit 2 f k) s.dev }
def execPageEditUnmap (f k : Nat) (s : State) : Host.Outcome State Fault Refusal := .next { s with dev := hubCmd f (acceptEdit 3 f k) s.dev }
def execPageEditSetLen (f k : Nat) (s : State) : Host.Outcome State Fault Refusal := .next { s with dev := hubCmd f (acceptEdit 4 f k) s.dev }
def execPageEditSetMask (f k : Nat) (s : State) : Host.Outcome State Fault Refusal := .next { s with dev := hubCmd f (acceptEdit 5 f k) s.dev }
def execPageEditClearMask (f k : Nat) (s : State) : Host.Outcome State Fault Refusal := .next { s with dev := hubCmd f (acceptEdit 6 f k) s.dev }

/-- FORK (R237). -/
def execFork (f : Nat) (s : State) : Host.Outcome State Fault Refusal := .next { s with dev := hubCmd f (acceptFork f) s.dev }

/-- REDUCE_CONTEXT_OPEN and REDUCE (R303, R305). -/
def execReduceContextOpen (f : Nat) (s : State) : Host.Outcome State Fault Refusal := .next { s with dev := hubCmd f (reduceOpen f) s.dev }
def execReduce (f : Nat) (s : State) : Host.Outcome State Fault Refusal := .next { s with dev := hubCmd f (reduceRun f) s.dev }

/-- UPDATE_CONFIG (R325). -/
def execUpdateConfig (f : Nat) (s : State) : Host.Outcome State Fault Refusal := .next { s with dev := hubCmd f (updateConfig f) s.dev }

end Sys2Proof.Machine
end

