-- ==== Sys2Proof/Machine/Queues.lean ====
section
/-! DEFINITION. Descriptor queues (R416, R417, R435, R439), the issue of a descriptor (R140, R394, R395, R445), steps and
their boundaries (R79, R394, R409, R410, R520): DESCRIPTOR_FETCH, DESCRIPTOR_COMPLETE and BLOCK_DOORBELL. -/

namespace Sys2Proof.Machine

/-! ### Step boundaries (R79, R394, R410) -/

/-- The slowdown values are published (R410). -/
def publishSlow (d : Dev) (j : Nat) : Dev :=
  d.forEach (d.job j).slow (fun d p => d.dset (O.SLOWDOWN j p.1) p.2)

/-- The first descriptor of a step that was not seen before is accepted: the job's step boundary. -/
def acceptStep (d : Dev) (j step cls : Nat) : Dev :=
  if (d.job j).classes.any (fun p => p.1 == step) then d
  else
    let d1 := dropStale ((takeFrozen (publishSlow (publishAudit d j) j) j).snapSettings j step) j step
    d1.modJob j (fun x => { x with
      classes := x.classes ++ [(step, cls)]
      step := some (Nat.max step (x.step.getD 0)) })

/-- Steps of different jobs in flight together are not solo (R409). -/
def markSolo (d : Dev) (j step : Nat) : Dev :=
  let others := (d.sched.flights.filter (fun x => x.job != j)).map (fun x => (x.job, x.step))
  let all := if others.isEmpty then [] else ((j, step) :: others).dedup
  d.forEach all (fun d p => d.modJob p.1 (fun x =>
    if x.notSolo.contains p.2 then x else { x with notSolo := x.notSolo ++ [p.2] }))

/-! ### Issue (R140) -/

/-- The issue check of a descriptor, by its command; every other opcode is reserved (R422). -/
def issueCheck (d : Dev) (x : Flight) : Issue :=
  match x.opcode with
  | 1 => issueMma d x
  | 2 => issueElem d x
  | 3 => issueConv d x
  | 4 => issueScan d x
  | 5 => issueAttend d x
  | 6 => issueMove d x
  | 7 => issueReduce d x
  | 8 => issueUpdate d x
  | 9 => issueFork d x
  | 10 => issuePageEdit d x
  | 11 => issueSync d x
  | _ => .reject stField

/-- The descriptor's CLASS is that of its step's first descriptor (R394). -/
def classOk (d : Dev) (x : Flight) : Bool :=
  match (d.job x.job).classes.find? (fun p => p.1 == x.step) with
  | some p => p.2 == x.cls
  | none => true

/-- A `scan` or `attend` that may later be replayed or rewalked in its own step (R445). -/
def replayable (x : Flight) : Bool := (x.opcode == 4 || x.opcode == 5) && !bit x.w 80

/-- L of an `attend`, and the stage that owns its cache, as its issue finds them (R201, R219). -/
def noteCache (d : Dev) (x : Flight) : Dev :=
  let t := attD x.w
  if x.opcode = 5 then
    (d.modFlight x.id (fun y => { y with cacheLen := attLen (d.dirHdr t.dir) t })).setSrv (fun s =>
      { s with caches := s.caches.filter (fun c => c.1 != t.dir) ++ [(t.dir, x.job, x.target)] })
  else d

/-- A descriptor passes its issue check with the plans of its blocks: its plan is on record, its `scan` or `attend` too; a fork
makes its reservation, and the pins that a descriptor holds from issue are taken. -/
def takeIn (d : Dev) (x : Flight) (plans : List Plan) : Dev :=
  let d1 := d.modFlight x.id (fun y => { y with plans := plans })
  let d2 := if x.opcode = 1 ∨ x.opcode = 3 then reportPlans d1 x plans else d1
  let d3 := noteCache (issueApply (issueInputPin d2 x) x) x
  let d4 := if x.opcode = 9 then reserveFork d3 x else d3
  let key := (x.job, x.step, x.opcode, x.tag)
  if replayable x && !d.sched.issued.contains key then
    d4.setSched (fun s => { s with issued := s.issued ++ [key] })
  else d4

/-- Issues a descriptor: it goes behind those issued before it, and is admitted, rejected or finished at once. -/
def issue (d : Dev) (f : Nat) : Dev :=
  match d.flight f with
  | none => d
  | some x0 =>
    let x := { x0 with waiting := false, afterReform := false }
    let d1 := d.setSched (fun s => { s with flights := s.flights.filter (fun y => y.id != f) ++ [x] })
    if x.done.isSome then d1
    else if !classOk d1 x then d1.finish f stField
    else
      match issueCheck d1 x with
      | .reject st => (if st = stAccShort then d1.bump (O.ACC_SHORT_REJECTS x.job) else d1).finish f st
      | .finished st => (if st = stEmpty then d1.bump (O.CONV_EMPTY x.job) else d1).finish f st
      | .go plans => takeIn d1 x plans

/-- A descriptor that waits may be issued: no REFORM holds it, and with FENCE every earlier one of its queue has
completed. -/
def mayIssue (d : Dev) (x : Flight) : Bool :=
  !(x.afterReform && (d.job x.job).reform.isSome) &&
  (!x.fence || !d.sched.flights.any (fun y => y.job == x.job && y.queue == x.queue && decide (y.id < x.id)))

/-- Issues the waiting descriptors of a queue in index order, as far as they may be. -/
def releaseQueue (j q : Nat) : Nat → Dev → Dev
  | 0, d => d
  | n + 1, d =>
    match d.sched.flights.find? (fun x => x.waiting && x.job == j && x.queue == q) with
    | none => d
    | some x => if mayIssue d x then releaseQueue j q n (issue d x.id) else d

def releaseQueues (d : Dev) (j : Nat) : Dev :=
  d.forEach [0, 1, 2, 3, 4] (fun d q => releaseQueue j q (d.sched.flights.length + 1) d)

/-! ### DESCRIPTOR_FETCH (R417) -/

/-- The next descriptor of a queue may be fetched. -/
def mayFetch (d : Dev) (j q : Nat) : Bool :=
  let depth := nth 0 (d.job j).depths q
  let head := d.dget (O.QUEUE_HEAD j q)
  decide (j < 64 ∧ q < 4) && (d.dget (O.JOB_STATE j) == 1 || d.dget (O.JOB_STATE j) == 2) && decide (0 < depth) &&
  head != d.dget (O.QUEUE_TAIL j q) && decide ((head + 2 ^ 32 - d.dget (O.COMPL_HEAD j q)) % 2 ^ 32 < depth) &&
  !d.pow.deviceFenced

/-- A descriptor of the job is accepted into a queue, or without one (queue 4): its step opens, and it is issued unless it
must wait. `sound`: its ring could be read. -/
def takeDescriptor (j q index : Nat) (w : Word512) (sound : Bool) (d : Dev) : Dev :=
  let id := d.sched.nextFlight
  let behind := d.sched.flights.any (fun x => x.waiting && x.job == j && x.queue == q)
  let d1 := d.addFlight j q index w true
  match d1.flight id with
  | none => d1
  | some x =>
    let d2 := markSolo (acceptStep d1 j x.step x.cls) j x.step
    let held := (d2.job j).reform.isSome && !(d2.job j).begun.any (fun p => p.1 == x.step)
    let d3 := d2.modFlight id (fun y => { y with afterReform := held })
    if !sound then (d3.modFlight id (fun y => { y with waiting := false })).finish id stPoison
    else if behind then d3
    else releaseQueue j q 1 d3

def fetch (j q : Nat) (d : Dev) : Dev :=
  if !mayFetch d j q then d
  else
    let depth := nth 0 (d.job j).depths q
    let head := d.dget (O.QUEUE_HEAD j q)
    let seg := d.dget (O.QUEUE_SEG j q)
    let w : Word512 := BitVec.ofNat 512 (leAt (d.segRead seg (head % depth * 64) 64) 0 64)
    takeDescriptor j q head w (d.segOk seg) (d.dset (O.QUEUE_HEAD j q) ((head + 1) % 2 ^ 32))

/-- DESCRIPTOR_FETCH (R417). -/
def execDescriptorFetch (job queue : Nat) (s : State) : Host.Outcome State Fault Refusal :=
  .next { s with dev := fetch job queue s.dev }

/-! ### BLOCK_DOORBELL (R439) -/

/-- A job that enters ready on a block is raised to the least VTIME of the other ready jobs (R395). -/
def raiseVtime (d : Dev) (b j : Nat) : Dev :=
  match ((d.readyJobs b).filter (fun i => i != j)).map (d.vtime b) with
  | [] => d
  | v :: vs => d.setVtime b j (Nat.max (d.vtime b j) (vs.foldl Nat.min v))

/-- The region firmware writes a block's share into its inbound queue and rings. -/
def ringBlock (f lb : Nat) (d : Dev) : Dev :=
  match d.flight f with
  | none => d
  | some x =>
    match (d.place x.job lb).phys with
    | none => d
    | some b =>
      if !x.live || !x.blocks.contains lb || x.rung.contains lb then d
      else
        let was := (d.readyJobs b).contains x.job
        let d1 := d.modFlight f (fun y => { y with rung := y.rung ++ [lb] })
        settle (if !was && (d1.readyJobs b).contains x.job then raiseVtime d1 b x.job else d1)

/-- BLOCK_DOORBELL (R439). -/
def execBlockDoorbell (f blk : Nat) (s : State) : Host.Outcome State Fault Refusal := .next { s with dev := ringBlock f blk s.dev }

/-! ### DESCRIPTOR_COMPLETE (R435, R409, R410, R520) -/

/-- Learned baseline of a class: the mean of its last 64 solo steps, or of those seen (R409). -/
def learned (h : List Nat) : Nat := if h.isEmpty then 0 else (divRHE (sumNat h : Nat) h.length).toNat

/-- Slowdown and baseline after a step of class `c` that took `ns` (R409, R410): compared with the baseline as it stood. -/
def slowUpdate (d : Dev) (j step c ns : Nat) : Dev :=
  let base := d.dget (O.BASELINE j c)
  let ratio : Nat := Nat.min 65535 (divRHE ((256 * ns : Nat) : Int) (Nat.max base 1)).toNat
  let d1 := if base = 0 then d else d.modJob j (fun x =>
    let v : Nat := match x.slow.find? (fun p => p.1 == c) with
      | some p => ((p.2 : Int) + divRHE ((ratio : Int) - p.2) 16).toNat
      | none => ratio
    { x with slow := x.slow.filter (fun p => p.1 != c) ++ [(c, v)] })
  if (d.job j).notSolo.contains step then d1
  else
    let h := (ns :: ((d.job j).hist.find? (fun p => p.1 == c)).elim [] (·.2)).take 64
    let d2 := d1.modJob j (fun x => { x with hist := x.hist.filter (fun p => p.1 != c) ++ [(c, h)] })
    if (d.job j).baseSet.contains c then d2 else d2.dset (O.BASELINE j c) (Nat.min (learned h) (2 ^ 32 - 1))

/-- Bookkeeping of a step whose last descriptor in flight completes. -/
def stepEnd (d : Dev) (x : Flight) (ns : Nat) : Dev :=
  if d.sched.flights.any (fun y => y.job == x.job && y.step == x.step) then d
  else slowUpdate d x.job x.step (((d.job x.job).classes.find? (fun p => p.1 == x.step)).elim x.cls (·.2)) ns

/-- Writes the completion record of a decided descriptor. -/
def complete (f ns : Nat) (d : Dev) : Dev :=
  match d.flight f with
  | none => d
  | some x =>
    match x.done with
    | none => d
    | some st =>
      let d0 := if st = stPoison then discardStep d x.job x.step else d
      let d1 := notePart (if x.stops then d0.stopStep x else d0) x st
      let d1 := if x.laneRange then d1.bump (O.LANE_RANGE_COUNT x.job) else d1
      let d2 := if x.lasting then d1.markLasting x.job x.step else d1
      let d3 := (if x.queue < 4 then d2.ringRecord x st else d2).dropFlight f
      settle (releaseQueues (stepEnd d3 x ns) x.job)

/-- DESCRIPTOR_COMPLETE (R435). -/
def execDescriptorComplete (f stepNs : Nat) (s : State) : Host.Outcome State Fault Refusal :=
  .next { s with dev := complete f stepNs s.dev }

end Sys2Proof.Machine
end

