-- ==== Sys2Proof/Machine/Jobs.lean ====
section
/-! DEFINITION. Job contexts (R386 to R393, R413, R416, R418, R521), tenancies (R395, R398) and baselines (R409): FORM,
SUSPEND, RESUME, DESTROY, REFORM, REFORM_TAKE_EFFECT, TENANCY_SWITCH and BASELINE_WRITE. -/

namespace Sys2Proof.Machine

/-! ### Pipeline records (R148, R521) -/

/-- A stage entry. -/
def stageOf (e : Bytes) : Stage :=
  { stage := leAt e 0 1, blocks := ((e.drop 2).take (leAt e 1 1)).map (·.toNat), stateLen := leAt e 15 1,
    stateBase := leAt e 16 1, inBase := leAt e 18 4, inLen := leAt e 22 4, resBase := leAt e 26 4, resLen := leAt e 30 4 }

/-- Strictly increasing. -/
def increasing : List Nat → Bool
  | a :: b :: l => decide (a < b) && increasing (b :: l)
  | _ => true

/-- The rules of the table, for a job of `n` blocks and grants of `slots` slots and `opb` bytes. -/
def stageOk (e : Bytes) (n slots opb : Nat) : Bool :=
  let s := stageOf e
  let k := leAt e 1 1
  decide (s.stage <= 254 ∧ 1 <= k ∧ k <= 13) && increasing s.blocks && s.blocks.all (fun b => decide (b < n)) &&
  ((e.drop (2 + k)).take (13 - k)).all (fun b => b == 0xFF) && leAt e 17 1 == 0 && (e.drop 34).all (fun b => b == 0) &&
  (s.stateLen == 0 || decide (s.stateBase + s.stateLen <= slots)) && s.inBase % 64 == 0 && s.resBase % 64 == 0 &&
  (s.inLen == 0 || decide (s.inBase + 2 * s.inLen <= opb)) && (s.resLen == 0 || decide (s.resBase + s.resLen <= opb))

/-- No block stands in two stages of a pipeline. -/
def stagesDisjoint (ss : List Stage) : Bool :=
  let bs := ss.flatMap (·.blocks)
  bs.dedup.length == bs.length

/-- Pipeline `p` of a job, from its record; `none` when the record breaks a rule. The first stage is fed by no other: each entry
forwards to the next. -/
def readPipe (d : Dev) (j n slots opb p : Nat) : Option (Nat × List Stage) :=
  let e := fld (d.dget (O.PIPELINE_REC j p)) 0 19
  let r := d.res e
  let hdr := d.segRead e 0 64
  let ns := leAt hdr 0 1
  let es := (List.range ns).map (fun k => d.segRead e (64 * (k + 1)) 64)
  let ss := es.map stageOf
  if (r.st = 1 ∨ r.st = 2) ∧ r.owner = j ∧ r.fmt = 6 ∧ d.segOk e = true ∧ 1 <= ns ∧ ns <= 64 ∧
      (hdr.drop 1).all (fun b => b == 0) = true ∧ 64 * (ns + 1) <= r.len ∧
      es.all (fun e => stageOk e n slots opb) = true ∧ (ss.take 1).all (fun s => s.inLen == 0) = true ∧
      stagesDisjoint ss = true then some (p, ss)
  else none

/-- Every VALID record of a job; stage numbers are unique among them all. -/
def readPipes (d : Dev) (j n slots opb : Nat) : Option (List (Nat × List Stage)) :=
  let ps := (List.range 8).filter (fun p => bit (d.dget (O.PIPELINE_REC j p)) 19)
  let rs := ps.filterMap (readPipe d j n slots opb)
  let nums := (rs.flatMap (·.2)).map (·.stage)
  if rs.length = ps.length ∧ nums.dedup.length = nums.length then some rs else none

/-! ### Requests (R387, R390, R413) -/

/-- What the request objects ask for on each block. -/
def reqAsk (d : Dev) (j : Nat) : Ask :=
  ⟨d.dget (O.PART_SHARED j) != 0, d.dget (O.SLOT_GRANT j), d.dget (O.OPB_GRANT j), d.dget (O.PROG_GRANT j)⟩

/-- Reduce-store entries granted to other jobs. -/
def reduceElse (d : Dev) (j : Nat) : Nat :=
  sumNat (((List.range 64).filter (fun i => i != j)).map (fun i => d.dget (O.REDUCE_GRANT i)))

/-- Block groups that can stay where they are, with their new runs; the others have none. -/
def keepGroup (d : Dev) (j : Nat) (a : Ask) (regions : Nat) (g : List Nat) : Option (List Place) :=
  let ps := g.filterMap (fun lb =>
    match (d.place j lb).phys with
    | some b => if bit regions (regionOf b) then roomAt d j b a (some (d.place j lb)) else none
    | none => none)
  let rs := (ps.filterMap (·.phys)).map regionOf
  if ps.length = g.length ∧ rs.dedup.length <= 1 then some ps else none

/-- Places under a REFORM: groups that can stay do, the others are placed anew. -/
def placeReform (d : Dev) (j : Nat) (a : Ask) (regions n : Nat) (pipes : List (Nat × List Stage)) : Option (List Place) :=
  let gs := blockGroups n pipes
  let kept := gs.filterMap (fun g => (keepGroup d j a regions g).map (fun ps => (g, ps)))
  let rest := gs.filter (fun g => !kept.any (fun k => k.1 == g))
  let taken := kept.flatMap (fun k => k.2.filterMap (·.phys))
  (placeGroups d j a regions rest taken).map (fun ps =>
    let all := kept.flatMap (fun k => k.1.zip k.2) ++ ps
    (List.range n).map (fun lb => ((all.find? (fun p => p.1 == lb)).map (·.2)).getD ⟨none, 0, 0, 0⟩))

/-- The partition the request objects describe, or the PART_RESULT that says why there is none. -/
def reqPart (d : Dev) (j : Nat) : Part ⊕ Nat :=
  let a := reqAsk d j
  let n := d.dget (O.PART_BLOCKS j)
  let regions := d.dget (O.PART_REGIONS j)
  match readPipes d j n a.slots a.opb with
  | none => .inr 7
  | some pipes =>
    match placeReform d j a regions n pipes with
    | none => .inr (placeFault d j a regions n pipes)
    | some places =>
      if 65536 < reduceElse d j + d.dget (O.REDUCE_REQ j) then .inr 5
      else .inl {
        places := places, slots := a.slots, opb := a.opb, progs := a.progs, reduce := d.dget (O.REDUCE_REQ j),
        shared := a.shared, regions := regions, prio := d.dget (O.PRIORITY j), weight := d.dget (O.WEIGHT j),
        preempt := d.dget (O.PREEMPT_MODE j), pipes := pipes }

/-- A partition put in force. -/
def Job.withPart (x : Job) (p : Part) : Job :=
  { x with
    places := p.places, slots := p.slots, opb := p.opb, progs := p.progs, shared := p.shared, regions := p.regions,
    prio := p.prio, weight := p.weight, preempt := p.preempt, pipes := p.pipes, reform := none }

/-! ### FORM (R387, R416, R418) -/

/-- Per-job counters, that start at zero when the context is created (R76): read-only objects of the job's tables but the
charges, the pins and what shows the group selected. -/
def jobCounters (j : Nat) : List Nat :=
  objTable.flatMap (fun o =>
    if o.n = 64 ∧ o.acc = 0 ∧ ([0x4100, 0x5200, 0x5300, 0x5410, 0x8100].contains o.base) = true ∧
        !(o.base = 0x4100 ∧ o.lo <= 7) ∧ !(o.base = 0x8100 ∧ 0x2E <= o.lo) then
      (rangeFrom o.lo (o.hi + 1 - o.lo)).map (fun s => (o.base + j) * 256 + s)
    else [])

/-- Allocates and pins the rings of the queues of a context, in order; none when one does not fit. -/
def formRings (j : Nat) : List (Nat × Nat) → Dev → Option Dev
  | [], d => some d
  | (q, depth) :: qs, d =>
    if depth = 0 then formRings j qs d
    else
      let a := d.alloc j 0 15 (Nat.max 1024 depth) 6 0
      let b := a.1.alloc j 0 15 (Nat.max 1024 (depth / 2)) 6 0
      if a.2.1 = stOk ∧ b.2.1 = stOk then
        formRings j qs ((((b.1.pinSeg a.2.2).pinSeg b.2.2).dset (O.QUEUE_SEG j q) a.2.2).dset (O.COMPL_SEG j q) b.2.2)
      else none

/-- No FORM is accepted while an update or an unlock runs (R491, R496). -/
def noForm (d : Dev) : Bool :=
  d.sec.unlocking || decide (1 ≤ d.dget O.FW_UPDATE_STATE ∧ d.dget O.FW_UPDATE_STATE ≤ 3)

/-- Forms a partition: the state after it, and whether the command was accepted. -/
def formJob (d : Dev) (j : Nat) : Dev × Bool :=
  if 64 <= j ∨ d.dget (O.JOB_STATE j) ≠ 0 ∨ noForm d then (d, false)
  else
    match reqPart d j with
    | .inr r => (d.dset (O.PART_RESULT j) r, false)
    | .inl p =>
      let depths := (List.range 4).map (fun q => d.dget (O.QUEUE_DEPTH j q))
      let old := d.job j
      let base := d.forEach (jobCounters j ++ [O.PART_LOST j]) Dev.ddef
      let d1 := base.forEach ((List.range 16).filter (fun c => !old.baseSet.contains c)) (fun d c => d.dset (O.BASELINE j c) 0)
      let d2 := (d1.setJob j ({ Job.free with
        baseSet := old.baseSet, depths := depths, owner := d.dget (O.JOB_OWNER j) }.withPart p)).setSched (fun s =>
          { s with issued := s.issued.filter (fun e => e.1 != j) })
      match formRings j ((List.range 4).zip depths) d2 with
      | none => (d.dset (O.PART_RESULT j) 6, false)
      | some d3 => (((d3.dset (O.PART_RESULT j) 0).dset (O.REDUCE_GRANT j) p.reduce).dset (O.JOB_STATE j) 1, true)

/-- FORM (R387). -/
def execForm (j : Nat) (s : State) : Host.Outcome State Fault Refusal := .next { s with dev := (formJob s.dev j).1 }

/-! ### SUSPEND and RESUME (R386, R398) -/

def suspendJob (d : Dev) (j : Nat) : Dev × Bool :=
  if 64 <= j ∨ d.dget (O.JOB_STATE j) ≠ 1 then (d, false) else (settle (d.dset (O.JOB_STATE j) 2), true)

/-- SUSPEND (R386). -/
def execSuspend (j : Nat) (s : State) : Host.Outcome State Fault Refusal := .next { s with dev := (suspendJob s.dev j).1 }

/-- A resumed job enters ready on the blocks where its descriptors wait (R395). -/
def resumeJob (d : Dev) (j : Nat) : Dev × Bool :=
  if 64 <= j ∨ d.dget (O.JOB_STATE j) ≠ 2 then (d, false)
  else
    let d1 := d.dset (O.JOB_STATE j) 1
    let bs := ((d.job j).places.filterMap (·.phys)).filter (fun b => (d1.readyJobs b).contains j)
    (settle (d1.forEach bs (fun d b => raiseVtime d b j)), true)

/-- RESUME (R386). -/
def execResume (j : Nat) (s : State) : Host.Outcome State Fault Refusal := .next { s with dev := (resumeJob s.dev j).1 }

/-! ### DESTROY (R280, R389, R392) -/

/-- Step 1: every descriptor that has not completed completes DISCARDED. -/
def destroyWork (d : Dev) (j : Nat) : Dev :=
  let mine := d.sched.flights.filter (fun x => x.job == j)
  let ms := d.store.moves.filter (fun m => (d.res m.seg).owner == j)
  let d1 := discardAll (d.forEach ms discardOneMove) (mine.map (·.id))
  d1.forEach (mine.map (·.id)) (fun d f =>
    match d.flight f with
    | none => d
    | some x => (if x.queue < 4 then d.ringRecord x (x.done.getD stDiscard) else d).dropFlight f)

/-- Step 2: contexts and barriers still open send ABORT. -/
def destroyWaves (d : Dev) (j : Nat) : Dev :=
  let d1 := d.forEach (d.red.ctxs.filter (fun c => c.job == j)) (fun d c => if c.committed then d.dropCtx c else abortCtx d c none)
  d1.forEach (d1.sched.barriers.filter (fun b => b.job == j)) (fun d b => abortBarrier d b none)

/-- Step 3: its semaphores are force-released with BROKEN; R402 counts and records only the end of a grace (log 90). -/
def destroySems (d : Dev) (j : Nat) : Dev :=
  d.forEach (((d.sched.sems.filter (fun p => p.2.held && p.2.owner == j))).map (·.1)) (fun d n =>
    serveSem (breakSem d n) n true)

/-- Step 4: the loop stops; every vane entry of it takes ENDED. -/
def destroyLoop (d : Dev) (j : Nat) : Dev :=
  let ns := (d.streamsOf j).map (·.1)
  let d1 := d.forEach ns (fun d n => (d.setVane n { d.vaneAt n with ended := true }).setStream n Stream.free)
  d1.setSrv (fun v => { v with
    loops := v.loops.filter (fun l => l.job != j), edits := v.edits.filter (fun e => e.job != j)
    caches := v.caches.filter (fun c => c.2.1 != j) })

/-- Releases `n` pins of a segment; a freeing one goes when its last pin does (R280). -/
def Dev.unpinMany (d : Dev) (e n : Nat) : Dev :=
  let d1 := d.modRes e (fun r => { r with pin := r.pin - n })
  if (d1.res e).st = 4 ∧ (d1.res e).pin = 0 then d1.freeSeg e else d1

/-- Step 5: pins and segments. -/
def destroySegs (d : Dev) (j : Nat) : Dev :=
  let d1 := d.forEach (d.store.ledger.filter (fun p => p.1 == j)) (fun d p => d.unpinMany p.2.1 p.2.2)
  let d2 := (d1.setStore (fun s => { s with ledger := s.ledger.filter (fun p => p.1 != j) })).dset (O.PINS_HELD j) 0
  let rings := (List.range 4).flatMap (fun q =>
    if nth 0 (d.job j).depths q = 0 then [] else [d.dget (O.QUEUE_SEG j q), d.dget (O.COMPL_SEG j q)])
  let d3 := d2.forEach rings Dev.unpinSeg
  d3.forEach ((d3.store.res.filter (fun p => p.2.owner == j && p.2.st != 0)).map (·.1)) (fun d e =>
    if d.pinsOn e = 0 then d.freeSeg e else d.modRes e (fun r => { r with st := 4 }))

/-- What the blocks keep of a job beside its memories. -/
def forgetJob (d : Dev) (j : Nat) : Dev := d.setBlk (fun k => { k with
  tenants := k.tenants.filter (fun t => t.2.1 != j)
  vtime := k.vtime.filter (fun p => p.1 % 64 != j)
  displaced := k.displaced.filter (fun p => p.1 != j)
  sampled := k.sampled.filter (fun p => p.1 != j)
  inputs := k.inputs.filter (fun p => p.1 != j)
  stageStep := k.stageStep.filter (fun p => p.1 != j)
  stageDone := k.stageDone.filter (fun p => p.1 != j)
  outs := k.outs.filter (fun o => o.job != j) })

/-- Step 6: grants, state areas, parameter groups and credit reserves return, zeroed. -/
def destroyGrants (d : Dev) (j : Nat) : Dev :=
  let jb := d.job j
  let d1 := d.forEach jb.places (fun d p => zeroPlace d jb p)
  let d2 := d1.setRed (fun r =>
    let mine := (r.groups.filter (fun p => p.2.job == j)).map (·.1)
    { r with
      groups := r.groups.filter (fun p => p.2.job != j)
      counts := r.counts.filter (fun p => !mine.contains (p.1 / 12))
      frozenNext := r.frozenNext.filter (fun p => !mine.contains p.1)
      stepSets := r.stepSets.filter (fun p => !mine.contains p.1) })
  let qs := (List.range 4).flatMap (fun q => [O.QUEUE_SEG j q, O.COMPL_SEG j q, O.QUEUE_TAIL j q, O.QUEUE_HEAD j q,
    O.COMPL_TAIL j q, O.COMPL_HEAD j q])
  let d3 := d2.forEach (qs ++ [O.REDUCE_GRANT j] ++ (List.range 8).map (fun c => O.LINK_RESERVE j c)) Dev.ddef
  (forgetJob d3 j).setJob j { Job.free with baseSet := jb.baseSet }

/-- Destroys a job: FREE at once, or DESTROYING while segments carry pins of other work. -/
def destroyJob (d : Dev) (j : Nat) : Dev × Bool :=
  let st := d.dget (O.JOB_STATE j)
  if 64 <= j ∨ (st ≠ 1 ∧ st ≠ 2) then (d, false)
  else
    let d1 := destroySems (destroyWaves (destroyWork d j) j) j
    (settle ((destroyGrants (destroySegs (destroyLoop d1 j) j) j).dset (O.JOB_STATE j) 3), true)

/-- DESTROY (R389). -/
def execDestroy (j : Nat) (s : State) : Host.Outcome State Fault Refusal := .next { s with dev := (destroyJob s.dev j).1 }

/-! ### REFORM (R388) -/

/-- Descriptors of steps that have not started wait for the REFORM. -/
def holdUnstarted (d : Dev) (j : Nat) : Dev :=
  let begun := (d.job j).begun.map (·.1)
  d.setSched (fun s => { s with flights := s.flights.map (fun x =>
    if x.job == j && x.done.isNone && !x.started && !begun.contains x.step then
      { x with waiting := true, afterReform := true, plans := [], rung := [] }
    else x) })

/-- Accepts a REFORM. -/
def reformJob (d : Dev) (j : Nat) : Dev × Bool :=
  let st := d.dget (O.JOB_STATE j)
  if 64 <= j ∨ (st ≠ 1 ∧ st ≠ 2) then (d, false)
  else
    match reqPart d j with
    | .inr r => (d.dset (O.PART_RESULT j) r, false)
    | .inl p => (settle (holdUnstarted ((d.dset (O.PART_RESULT j) 0).modJob j (fun x => { x with reform := some p })) j), true)

/-- REFORM (R388). -/
def execReform (j : Nat) (s : State) : Host.Outcome State Fault Refusal := .next { s with dev := (reformJob s.dev j).1 }

/-- What leaves the grants of a job on the block of an old place is zeroed (R392). -/
def zeroLeft (d : Dev) (old : Job) (p : Part) (q : Place) : Dev :=
  match q.phys with
  | none => d
  | some b =>
    let nw := p.places.find? (fun r => r.phys == some b)
    let out := fun (lo n lo' n' : Nat) => (rangeFrom lo n).filter (fun i => nw.isNone || decide (i < lo' ∨ lo' + n' <= i))
    let r := nw.getD ⟨none, 0, 0, 0⟩
    let d1 := d.forEach (out q.slot old.slots r.slot p.slots) (fun d s => zeroSlots d b s 1)
    let d2 := d1.forEach (out (q.opb / 65536) (old.opb / 65536) (r.opb / 65536) (p.opb / 65536)) (fun d u =>
      zeroOpb d b (u * 65536) 65536)
    d2.forEach (out q.prog old.progs r.prog p.progs) (fun d k => zeroProgs d b k 1)

/-- The new grants, placement and pipelines take effect once every started step has ended. -/
def reformTake (j : Nat) (d : Dev) : Dev :=
  match (d.job j).reform with
  | none => d
  | some p =>
    if d.sched.flights.any (fun x => x.job == j && !x.waiting && x.done.isNone) then d
    else
      let old := d.job j
      let d1 := d.forEach old.places (fun d q => zeroLeft d old p q)
      let nums := (p.pipes.flatMap (·.2)).map (·.stage)
      let d2 := (d1.modJob j (fun x => { x.withPart p with panels := x.panels.filter (fun q => nums.contains q.1) })).setBlk (fun k => { k with
        inputs := k.inputs.filter (fun e => e.1 != j || nums.contains e.2.1)
        stageStep := k.stageStep.filter (fun e => e.1 != j || nums.contains e.2.1)
        stageDone := k.stageDone.filter (fun e => e.1 != j || nums.contains e.2.1)
        outs := k.outs.filter (fun o => o.job != j || nums.contains o.stage) })
      let gone := (p.places.filterMap (·.phys)).filter (fun b => !d2.blockActive b)
      let d3 := replaceJob (d2.dset (O.REDUCE_GRANT j) p.reduce) gone j
      settle (releaseQueues d3 j)

/-- REFORM_TAKE_EFFECT (R388). -/
def execReformTakeEffect (j : Nat) (s : State) : Host.Outcome State Fault Refusal := .next { s with dev := reformTake j s.dev }

/-! ### TENANCY_SWITCH (R395) -/

/-- The step of a block's tenant still has work there. -/
def tenantBusy (d : Dev) (b : Nat) (t : Nat × Nat) : Bool :=
  d.sched.flights.any (fun x => x.job == t.1 && x.step == t.2 && x.live && (d.flightPhys x).contains b)

/-- VTIME after a tenancy of `cycles` ARR cycles. -/
def chargeVtime (d : Dev) (b j cycles : Nat) : Dev :=
  d.setVtime b j (d.vtime b j + cycles * 256 / Nat.max 1 (d.job j).weight)

/-- The control core's choice at a boundary of a block. -/
def giveTenancy (d : Dev) (b : Nat) : Dev :=
  match d.pickJob b with
  | none => d
  | some j =>
    match d.nextStepOn b j with
    | some st => d.setTenant b (some (j, st))
    | none => d

def tenancySwitch (b cycles : Nat) (d : Dev) : Dev :=
  match d.tenant b with
  | none => settle (giveTenancy d b)
  | some t =>
    if tenantBusy d b t then d
    else settle (giveTenancy ((chargeVtime d b t.1 cycles).setTenant b none) b)

/-- TENANCY_SWITCH (R395). -/
def execTenancySwitch (blk cycles : Nat) (s : State) : Host.Outcome State Fault Refusal :=
  .next { s with dev := tenancySwitch blk cycles s.dev }

/-! ### BASELINE_WRITE (R409, R410) -/

/-- A write of BASELINE clears the class's history; 0 makes the module learn again, and SLOWDOWN reads 0. -/
def baselineWrite (j c v : Nat) (d : Dev) : Dev :=
  if 64 <= j ∨ 16 <= c ∨ 2 ^ 32 <= v then d
  else
    let d1 := (d.dset (O.BASELINE j c) v).modJob j (fun x => { x with
      hist := x.hist.filter (fun p => p.1 != c)
      baseSet := if v = 0 then x.baseSet.filter (fun k => k != c) else (x.baseSet.filter (fun k => k != c)) ++ [c]
      slow := if v = 0 then x.slow.filter (fun p => p.1 != c) else x.slow })
    if v = 0 then d1.dset (O.SLOWDOWN j c) 0 else d1

/-- BASELINE_WRITE (R409). -/
def execBaselineWrite (j cls v : Nat) (s : State) : Host.Outcome State Fault Refusal :=
  .next { s with dev := baselineWrite j cls v s.dev }

end Sys2Proof.Machine
end

