-- ==== Sys2Proof/Machine/Rs.lean ====
section
/-! DEFINITION. The Reed–Solomon codes of the memories and the links (R286, R287, R339): arithmetic in GF(2^m), systematic
encoding, and a decoder of errors and erasures. The order of a codeword's symbols as coefficients, and the memory code's
generator roots, are the model's (log 138). -/

namespace Sys2Proof.Machine

/-- A code RS(n, k) over GF(2^bits) with generator roots α^0 to α^(n-k-1), α = 2; its decoder corrects up to `t` errors. -/
structure RsCode where
  bits : Nat
  poly : Nat
  n : Nat
  k : Nat
  t : Nat
  deriving DecidableEq, Repr

/-- RS(36,32) of an HBM burst (R286). -/
def RsCode.hbm : RsCode := ⟨8, 0x11D, 36, 32, 1⟩

/-- RS(68,64) of a slow-tier burst (R287). -/
def RsCode.slow : RsCode := ⟨8, 0x11D, 68, 64, 1⟩

/-- RS(544,514) of a superframe (R339). -/
def RsCode.link : RsCode := ⟨10, 0x409, 544, 514, 15⟩

/-! ### The field -/

/-- A product with α. -/
def RsCode.double (c : RsCode) (a : Nat) : Nat := if a * 2 < 2 ^ c.bits then a * 2 else Nat.xor (a * 2) c.poly

def RsCode.mulAux (c : RsCode) : Nat → Nat → Nat → Nat → Nat
  | 0, _, _, acc => acc
  | i + 1, a, b, acc => c.mulAux i (c.double a) (b / 2) (if b % 2 = 1 then Nat.xor acc a else acc)

def RsCode.mul (c : RsCode) (a b : Nat) : Nat := c.mulAux c.bits a b 0

/-- α^e. -/
def RsCode.alpha (c : RsCode) : Nat → Nat
  | 0 => 1
  | e + 1 => c.double (c.alpha e)

/-- The inverse a^(2^bits - 2): the product of the squares a^2, a^4, … -/
def RsCode.invAux (c : RsCode) : Nat → Nat → Nat → Nat
  | 0, _, acc => acc
  | i + 1, a, acc => c.invAux i (c.mul a a) (c.mul acc (c.mul a a))

def RsCode.inv (c : RsCode) (a : Nat) : Nat := c.invAux (c.bits - 1) a 1

/-! ### Polynomials, the constant coefficient first -/

def polyAdd : List Nat → List Nat → List Nat
  | [], q => q
  | p, [] => p
  | a :: p, b :: q => Nat.xor a b :: polyAdd p q

def RsCode.scale (c : RsCode) (a : Nat) (p : List Nat) : List Nat := p.map (c.mul a)

def RsCode.polyMul (c : RsCode) : List Nat → List Nat → List Nat
  | [], _ => []
  | a :: p, q => polyAdd (c.scale a q) (0 :: c.polyMul p q)

def RsCode.eval (c : RsCode) (p : List Nat) (x : Nat) : Nat := p.foldr (fun a acc => Nat.xor a (c.mul x acc)) 0

/-! ### Encoding -/

/-- Check symbols of a codeword. -/
def RsCode.checks (c : RsCode) : Nat := c.n - c.k

/-- The generator polynomial, without its leading 1. -/
def RsCode.gen (c : RsCode) : List Nat :=
  ((List.range c.checks).foldl (fun g i => c.polyMul [c.alpha i, 1] g) [1]).take c.checks

/-- Symbols side by side in one number. -/
def RsCode.pack (c : RsCode) (xs : List Nat) : Nat := xs.foldr (fun a acc => a + acc * 2 ^ c.bits) 0

def RsCode.unpack (c : RsCode) (w : Nat) : List Nat := (List.range c.checks).map (fun i => fld w (c.bits * i) c.bits)

/-- The generator times α^0 to α^(bits-1). -/
def RsCode.rows (c : RsCode) : List Nat := (List.range c.bits).map (fun j => c.pack (c.scale (c.alpha j) c.gen))

/-- Sum of the rows that the bits of `b` pick. -/
def pickRows : List Nat → Nat → Nat → Nat
  | [], _, acc => acc
  | r :: rs, b, acc => pickRows rs (b / 2) (if b % 2 = 1 then Nat.xor acc r else acc)

/-- The remainder of the data by the generator, the first symbol leading. -/
def RsCode.divide (c : RsCode) (rows : List Nat) : List Nat → Nat → Nat
  | [], w => w
  | s :: ss, w =>
    let top := Nat.xor (w / 2 ^ (c.bits * (c.checks - 1))) s
    c.divide rows ss (Nat.xor (w * 2 ^ c.bits % 2 ^ (c.bits * c.checks)) (pickRows rows top 0))

/-- The check symbols of `k` data symbols. -/
def RsCode.checkOf (c : RsCode) (data : List Nat) : List Nat := (c.unpack (c.divide c.rows data 0)).reverse

/-- A codeword: data symbols, then check symbols. -/
def RsCode.encode (c : RsCode) (data : List Nat) : List Nat := data ++ c.checkOf data

/-! ### Decoding -/

/-- The syndromes of a received word, from its remainder. -/
def RsCode.syndromes (c : RsCode) (word : List Nat) : List Nat :=
  let r := polyAdd (c.checkOf (word.take c.k)).reverse (word.drop c.k).reverse
  (List.range c.checks).map (fun j => c.eval r (c.alpha j))

/-- The locator α^(n-1-i) of symbol `i`. -/
def RsCode.locator (c : RsCode) (i : Nat) : Nat := c.alpha (c.n - 1 - i)

/-- State of the search for the error locator polynomial. -/
structure Search where
  cur : List Nat
  old : List Nat
  len : Nat
  deriving DecidableEq, Repr

/-- One step of the search, on syndrome number `i`, with `f` symbols erased. -/
def RsCode.searchStep (c : RsCode) (syn : List Nat) (f : Nat) (x : Search) (i : Nat) : Search :=
  let d := ((List.range (i + 1)).map (fun k => c.mul (nth 0 x.cur k) (nth 0 syn (i - k)))).foldl Nat.xor 0
  let old := 0 :: x.old
  if d = 0 then { x with old := old }
  else
    let cur := polyAdd x.cur (c.scale d old)
    if 2 * x.len ≤ i + f then ⟨cur, c.scale (c.inv d) x.cur, i + 1 + f - x.len⟩ else ⟨cur, old, x.len⟩

/-- The locator polynomial of errors and erasures, and its length. -/
def RsCode.search (c : RsCode) (syn erased : List Nat) : Search :=
  let g := erased.foldl (fun g i => c.polyMul [1, c.locator i] g) [1]
  let f := erased.length
  ((List.range c.checks).drop f).foldl (c.searchStep syn f) ⟨g, g, f⟩

/-- Values at the symbols located. -/
def RsCode.values (c : RsCode) (syn : List Nat) (x : Search) (at_ : List Nat) : List (Nat × Nat) :=
  let om := (c.polyMul syn x.cur).take c.checks
  let dx := (x.cur.drop 1).zipIdx.map (fun p => if p.2 % 2 = 0 then p.1 else 0)
  at_.map (fun i =>
    let l := c.locator i
    let y := c.inv l
    (i, c.mul l (c.mul (c.eval om y) (c.inv (c.eval dx y)))))

/-- The correction of a received word, as the symbols it changes with the differences; none: uncorrectable. Symbols `erased`
are known to be bad; beside them at most `t` errors are corrected. -/
def RsCode.decode (c : RsCode) (erased word : List Nat) : Option (List (Nat × Nat)) :=
  let syn := c.syndromes word
  if syn.all (· == 0) then some []
  else
    let x := c.search syn erased
    let ys := (List.range c.n).filter (fun i => c.eval x.cur (c.inv (c.locator i)) == 0)
    let vs := c.values syn x ys
    let back := (List.range c.checks).map (fun j =>
      (vs.map (fun v => c.mul v.2 (c.alpha (j * (c.n - 1 - v.1) % (2 ^ c.bits - 1))))).foldl Nat.xor 0)
    if ys.length = x.len ∧ x.len ≤ c.t + erased.length ∧ back = syn then some (vs.filter (fun v => v.2 != 0)) else none

/-- A word with the symbols of `errs` changed by their differences. -/
def addErrors (word : List Nat) (errs : List (Nat × Nat)) : List Nat :=
  errs.foldl (fun w e => setNth w e.1 (Nat.xor (nth 0 w e.1) e.2)) word

end Sys2Proof.Machine
end

