-- ==== Sys2Proof/Machine/MemCtl.lean ====
section
/-! DEFINITION. The memory controllers (R284 to R295, R297, R301): the burst code, BURST_ERROR, CA_PARITY_ERROR, PATROL_SCRUB,
REFRESH_INTERVAL and SLOW_TEMP_POLL, with the remapping of rows and the retirement of frames, pseudo-channels, stacks and
packages. A unit 0 to 11 is a stack, 12 to 43 is package `unit - 12`. -/

namespace Sys2Proof.Machine

/-! ### Addresses (R284, R285) -/

/-- Where a burst lies: pseudo-channel, bank, row. -/
structure RowAt where
  pc : Nat
  bank : Nat
  row : Nat
  deriving DecidableEq, Repr, Inhabited

/-- Row of a byte address of a stack, or of a data address of a package. -/
def rowAt (unit addr : Nat) : RowAt :=
  if unit < 12 then
    let i := addr / 1024 / 32
    ⟨addr / 1024 % 32, Nat.xor (i % 64) (i / 64 % 64), i / 64⟩
  else
    let r := addr / 7680
    ⟨0, r % 16, r / 16⟩

/-- Frames that hold data of a logical row: the one of a stack's row, all that a package's row meets (log 66). -/
def rowFrames (unit : Nat) (r : RowAt) : List Nat :=
  if unit < 12 then [((r.row * 64 + Nat.xor r.bank (r.row % 64)) * 32 + r.pc) / 4]
  else
    let lo := (r.row * 16 + r.bank) * 7680
    ((rangeFrom (lo / 4096) ((lo + 7679) / 4096 + 1 - lo / 4096)).map (fun f => f * 32 + (unit - 12))).filter
      (fun f => decide (f < 500000000))

/-- Frame of an address of a unit. -/
def frameAt (unit addr : Nat) : Nat := if unit < 12 then addr / 4096 else addr / 4096 * 32 + (unit - 12)

/-- Home number of a unit: a stack's own, 12 for the slow tier. -/
def unitHome (unit : Nat) : Nat := if unit < 12 then unit else 12

/-- Key of the unit's object `sub` (R301). -/
def mcKey (unit sub : Nat) : Nat := ((if unit < 12 then 0x4201 + unit else 0x4220 + (unit - 12)) * 256) + sub

/-- LOCATION of an event at level 4 (R474). -/
def mcLoc (unit pc : Nat) : Nat := if unit < 12 then unit + pc * 64 else (unit - 12) + 32

/-! ### The tables -/

def Dev.setMc (d : Dev) (f : Mc → Mc) : Dev := { d with mc := f d.mc }

/-- The ledger records every change (R295). -/
def ledger (d : Dev) : Dev := d.setMc (fun m => { m with
  ledgerRemaps := m.remaps
  ledgerDead := m.dead
  ledgerRetired := m.retired
  ledgerPcs := m.retiredPcs })

/-- REMAPS_ACTIVE and DEAD_SPARES follow the tables. -/
def showTables (d : Dev) (unit : Nat) : Dev :=
  (d.dset (mcKey unit 6) ((d.mc.remaps.filter (fun r => r.unit == unit)).length)).dset (mcKey unit 7)
    ((d.mc.dead.filter (fun r => r.1 == unit)).length)

/-- The 64 bits of a soft-remap entry (R294). -/
def Remap.word (r : Remap) : Nat :=
  at' 0 5 r.pc + at' 5 6 r.bank + at' 11 20 r.row + at' 31 20 r.spare + at' 51 2 r.fails + at' 53 1 (bool01 r.hardPending) + at' 54 1 1

/-- Entries of the table of a unit, and its spare rows. -/
def remapCap (unit : Nat) : Nat := if unit < 12 then 4096 else 1024
def spareLo (unit : Nat) : Nat := if unit < 12 then 22889 else 520834
def spareCount (unit : Nat) : Nat := if unit < 12 then 1687 else 3454

/-- The lowest free, live spare row of a bank. -/
def freeSpare (d : Dev) (unit pc bank : Nat) : Option Nat :=
  (rangeFrom (spareLo unit) (spareCount unit)).find? (fun s =>
    !d.mc.remaps.any (fun r => r.unit == unit && r.pc == pc && r.bank == bank && r.spare == s) && !d.mc.dead.contains (unit, pc, bank, s))

/-- Segment that occupies a frame of a home. -/
def segAt (d : Dev) (home frame : Nat) : Option Nat :=
  (d.store.res.find? (fun p => p.2.st != 0 && p.2.homeNo == home && decide (p.2.frame <= frame ∧ frame < p.2.frame + p.2.frames))).map (·.1)

/-! ### Frames (R292) -/

/-- A relocation that the controllers order: behind the segment's other moves, if there are any (R266, R278). A segment with
fifteen moves waiting takes no further one (log 140). -/
def ownRelocate (d : Dev) (e : Nat) : Dev :=
  let r := d.res e
  let m : Move := { (default : Move) with seg := e, op := 6, home := 15 }
  if r.st = 3 ∨ r.st = 0 ∨ r.st = 4 then d
  else if 15 ≤ r.queued then d
  else if r.st = 2 ∨ 0 < r.queued then d.queueMove m
  else
    match judgeMove d m with
    | .done d1 _ => d1
    | .copy d1 => d1
    | .wait => d.queueMove m

/-- A stack is lost: a region fault (R29, R293). -/
def stackLost (d : Dev) (s cond : Nat) : Dev :=
  if d.mc.lost.contains s then d
  else
    let d1 := (d.setMc (fun m => { m with lost := m.lost ++ [s] })).event 0x0506 4 4 (mcLoc s 0) (leBytes 1 cond)
    fenceRegion d1 s 5 false

/-- Retires one frame (R292). A reserved frame goes to a spare reserved one; with none left the stack is lost (log 67). -/
def retireFrame (d : Dev) (unit frame : Nat) : Dev :=
  let home := unitHome unit
  if d.mc.retired.contains (home, frame) then d
  else if unit < 12 ∧ frame < 65536 ∧ 1024 <= SMap.get 0 d.mc.spareUsed unit then stackLost d unit 0
  else
    let seg := segAt d home frame
    let dest := (d.store.moves.filter (fun m => m.active && (if m.destTier = 0 then m.destHome else 12) == home &&
      decide (m.destFrame <= frame ∧ frame < m.destFrame + m.destFrames))).map (·.seg)
    let d1 := d.setMc (fun m => { m with
      retired := m.retired ++ [(home, frame)]
      spareUsed := if unit < 12 ∧ frame < 65536 then SMap.put 0 m.spareUsed unit (SMap.get 0 m.spareUsed unit + 1) else m.spareUsed })
    let d2 := (ledger (d1.bump (mcKey unit 8))).event 0x0503 2 4 (mcLoc unit 0) (leBytes 4 frame ++ leBytes 3 (seg.getD 0x7FFFF))
    d2.forEach ((seg.toList ++ dest).dedup) ownRelocate

/-! ### The escalation of a row (R291) -/

/-- Gives a row up: its entry is freed and its frame retired. -/
def giveUpRow (d : Dev) (unit : Nat) (r : RowAt) : Dev :=
  let d1 := d.setMc (fun m => { m with
    remaps := m.remaps.filter (fun e => !(e.unit == unit && e.pc == r.pc && e.bank == r.bank && e.row == r.row)) })
  (showTables (ledger d1) unit).forEach (rowFrames unit r) (fun d f => retireFrame d unit f)

/-- One lasting failure of a logical row. A bank without a free spare counts as a full table (log 66). -/
def escalate (d : Dev) (unit : Nat) (r : RowAt) : Dev :=
  let same := fun (e : Remap) => e.unit == unit && e.pc == r.pc && e.bank == r.bank && e.row == r.row
  match d.mc.remaps.find? same with
  | none =>
    match freeSpare d unit r.pc r.bank with
    | none => giveUpRow d unit r
    | some s =>
      if remapCap unit <= (d.mc.remaps.filter (fun e => e.unit == unit)).length then giveUpRow d unit r
      else
        let e : Remap := ⟨unit, r.pc, r.bank, r.row, s, 1, true⟩
        let d1 := d.setMc (fun m => { m with remaps := m.remaps ++ [e] })
        (showTables (ledger d1) unit).event 0x0501 1 4 (mcLoc unit r.pc) (leBytes 8 e.word)
  | some e =>
    if e.fails = 1 then
      let d0 := d.setMc (fun m => { m with dead := m.dead ++ [(unit, r.pc, r.bank, e.spare)] })
      match freeSpare d0 unit r.pc r.bank with
      | none => giveUpRow d0 unit r
      | some s =>
        let e' := { e with spare := s, fails := 2 }
        let d1 := d0.setMc (fun m => { m with remaps := updFirst same (fun _ => e') m.remaps })
        (showTables (ledger d1) unit).event 0x0502 2 4 (mcLoc unit r.pc) (leBytes 8 e'.word)
    else giveUpRow d unit r

/-! ### Pins, pseudo-channels, packages (R290, R293) -/

/-- A segment with a frame of class `c` in a home. -/
def hitsClass (home per c : Nat) (r : Res) : Bool :=
  r.st != 0 && r.homeNo == home && decide (0 < countClass r.frame (r.frame + r.frames) per c)

/-- Segments of moves whose reserved destination has a frame of class `c` in a home. -/
def destsIn (d : Dev) (home per c : Nat) : List Nat :=
  (d.store.moves.filter (fun m => m.active && (if m.destTier = 0 then m.destHome else 12) == home &&
    decide (0 < countClass m.destFrame (m.destFrame + m.destFrames) per c))).map (·.seg)

/-- Retires a pseudo-channel: one frame in eight; the reserved frames keep their tables (log 67). -/
def retirePc (d : Dev) (s pc : Nat) : Dev :=
  if d.mc.retiredPcs.contains (s, pc) then d
  else
    let had := d.mc.retiredPcs.any (fun p => p.1 == s && p.2 / 4 == pc / 4)
    let segs := ((d.store.res.filter (fun p => hitsClass s 8 (pc / 4) p.2)).map (·.1) ++ destsIn d s 8 (pc / 4)).dedup
    let d1 := ledger (d.setMc (fun m => { m with retiredPcs := m.retiredPcs ++ [(s, pc)] }))
    let n := (d1.mc.retiredPcs.filter (fun p => p.1 == s)).length
    let d2 := (d1.dset (O.STACK_PC_RETIRED s) (setFld (d1.dget (O.STACK_PC_RETIRED s)) pc 1 1)).bumpN (mcKey s 8)
      (if had then 0 else countClass 65536 11718750 8 (pc / 4))
    let d3 := d2.event 0x0505 3 4 (mcLoc s pc) []
    if 4 < n then stackLost d3 s 1 else d3.forEach segs ownRelocate

/-- The steps that read a segment are discarded, and their readers report POISON (R278). -/
def stopReaders (d : Dev) (e : Nat) : Dev :=
  d.forEach ((d.sched.flights.filter (fun x => x.holds.contains e)).map (·.id)) poisonReader

/-- A package is lost: its frames are retired, every segment on one of them is poisoned (log 67). -/
def losePackage (d : Dev) (p cause : Nat) : Dev :=
  if d.mc.lost.contains (12 + p) then d
  else
    let segs := ((d.store.res.filter (fun q => hitsClass 12 32 p q.2)).map (·.1) ++ destsIn d 12 32 p).dedup
    let d1 := d.setMc (fun m => { m with lost := m.lost ++ [12 + p] })
    let d2 := ((d1.dset (O.PKG_LOST p) 1).bumpN (mcKey (12 + p) 8) 15625000).event 0x0507 3 4 (mcLoc (12 + p) 0) (leBytes 1 cause)
    let d3 := d2.forEach segs (fun d e => poisonSeg d e (d.res e).frame)
    d3.forEach segs stopReaders

/-- A pin becomes known bad; the second of a pseudo-channel retires it, the second of a package loses that. -/
def badPin (d : Dev) (unit pc pin : Nat) : Dev :=
  if d.mc.badPins.contains (unit, pc, pin) then d
  else
    let d1 := d.setMc (fun m => { m with badPins := m.badPins ++ [(unit, pc, pin)] })
    let d2 := (d1.dset (mcKey unit 4) (setFld (d1.dget (mcKey unit 4)) (if unit < 12 then pc else pin) 1 1)).event
      0x0504 2 4 (mcLoc unit pc) (leBytes 1 pin)
    if 2 <= (d2.mc.badPins.filter (fun b => b.1 == unit && b.2.1 == pc)).length then
      if unit < 12 then retirePc d2 unit pc else losePackage d2 (unit - 12) 1
    else d2

/-- A lasting error confined to one pin: three different rows make the pin known bad. -/
def notePin (d : Dev) (unit : Nat) (r : RowAt) (pin : Nat) : Dev :=
  let key := (unit, r.pc, pin, r.bank * 2 ^ 20 + r.row)
  let d1 := if d.mc.pinRows.contains key then d else d.setMc (fun m => { m with pinRows := m.pinRows ++ [key] })
  if 3 <= (d1.mc.pinRows.filter (fun k => k.1 == unit && k.2.1 == r.pc && k.2.2.1 == pin)).length then badPin d1 unit r.pc pin
  else d1

/-! ### The burst code (R286, R287) -/

/-- The code of a unit, and the bytes of a beat. -/
def burstCode (unit : Nat) : RsCode := if unit < 12 then .hbm else .slow
def beatBytes (unit : Nat) : Nat := if unit < 12 then 4 else 8

/-- First byte of the burst that holds an address. -/
def burstBase (unit addr : Nat) : Nat := addr / burstLen unit * burstLen unit

/-- Place of an address in the unit's home: frame, and byte within it (R258). -/
def homeByte (unit addr : Nat) : Nat × Nat := (frameAt unit addr, addr % 4096)

/-- Data bytes of a burst. -/
def burstData (d : Dev) (unit addr : Nat) : Bytes :=
  let p := homeByte unit (burstBase unit addr)
  d.frameRead (unitHome unit) p.1 p.2 (burstLen unit)

/-- Data symbols of codeword `k`: 8 beats of each pin, beat by beat; beat t of pin i is bit i of the bytes of that beat. -/
def dataSymbols (unit : Nat) (bs : Bytes) (k : Nat) : List Nat :=
  let w := beatBytes unit
  (List.range (8 * w)).map (fun i =>
    sumNat ((List.range 8).map (fun t => bool01 (bit (leAt bs ((8 * k + t) * w + i / 8) 1) (i % 8)) * 2 ^ t)))

/-- The bytes that the data symbols of the codewords carry. -/
def symbolBytes (unit : Nat) (words : List (List Nat)) : Bytes :=
  let w := beatBytes unit
  words.flatMap (fun word => (List.range 8).flatMap (fun t => (List.range w).map (fun b =>
    BitVec.ofNat 8 (sumNat ((List.range 8).map (fun i => bool01 (bit (nth 0 word (8 * b + i)) t) * 2 ^ i))))))

/-- Codewords of a burst. -/
def codewords (unit : Nat) : Nat := if unit < 12 then 1 else 4

/-- A poisoned burst has every check symbol inverted (R289). -/
def invertChecks (c : RsCode) (word : List Nat) : List Nat :=
  word.take c.k ++ (word.drop c.k).map (fun s => Nat.xor s (2 ^ c.bits - 1))

/-- The key of a burst in the list of those that hold poison. -/
def burstKey (unit addr : Nat) : Nat × Nat :=
  let p := homeByte unit (burstBase unit addr)
  (unitHome unit, p.1 * 4096 + p.2)

/-- The codewords of a burst as they are stored. -/
def burstWords (d : Dev) (unit addr : Nat) : List (List Nat) :=
  let c := burstCode unit
  let bs := burstData d unit addr
  let ws := (List.range (codewords unit)).map (fun k => c.encode (dataSymbols unit bs k))
  if d.mc.poisoned.contains (burstKey unit addr) then ws.map (invertChecks c) else ws

/-- The check bytes of burst `b` of an open row of a package, 4 of each codeword, in the tail buffer (R287). -/
def tailGroup (d : Dev) (unit row b : Nat) : Bytes :=
  (burstWords d unit (row * 7680 + b * 256)).flatMap (fun w => (w.drop 64).map (BitVec.ofNat 8))

/-- The check bursts 30 and 31 of a row of a package: 16 bytes of each data burst, in order (R287). Opening the row brings
them into the tail buffer. -/
def tailOf (d : Dev) (unit row : Nat) : Bytes := fitBytes 512 ((List.range 30).flatMap (tailGroup d unit row))

/-- The tail buffer is written back before the row is closed: a burst whose check bytes stand inverted in it holds poison. -/
def closeRow (d : Dev) (unit row : Nat) (tail : Bytes) : Dev :=
  let key := fun b => burstKey unit (row * 7680 + b * 256)
  let bad := (List.range 30).filter (fun b =>
    let c := (List.range 4).flatMap (fun k => (burstCode unit).checkOf (dataSymbols unit (burstData d unit (row * 7680 + b * 256)) k))
    (tail.drop (16 * b)).take 16 == c.map (fun s => BitVec.ofNat 8 (Nat.xor s 255)))
  d.setMc (fun m => { m with
    poisoned := m.poisoned.filter (fun p => !((List.range 30).map key).contains p) ++ bad.map key })

/-- Writes a burst's data back with every check symbol inverted (R289); in a package by way of the tail buffer. -/
def poisonWrite (d : Dev) (unit addr : Nat) : Dev :=
  if unit < 12 then d.setMc (fun m => { m with
    poisoned := m.poisoned.filter (· != burstKey unit addr) ++ [burstKey unit addr] })
  else
    let row := addr / 7680
    let b := addr % 7680 / 256
    let tail := tailOf d unit row
    let good := (List.range 4).flatMap (fun k => (burstCode unit).checkOf (dataSymbols unit (burstData d unit addr) k))
    closeRow d unit row (tail.take (16 * b) ++ good.map (fun s => BitVec.ofNat 8 (Nat.xor s 255)) ++ tail.drop (16 * b + 16))

/-- What the decoder says of a burst. -/
inductive BurstRead where
  | sound
  | poison
  /-- The correction of each codeword. -/
  | corrected (fix : List (List (Nat × Nat)))
  | uncorrectable
  deriving DecidableEq, Repr

/-- The decoder of a unit (R286, R287, R289): known-bad pins are erasures. -/
def readBurst (d : Dev) (unit addr : Nat) (errs : List (Nat × Nat)) : BurstRead :=
  let c := burstCode unit
  let ws := (burstWords d unit addr).zipIdx.map (fun w =>
    addErrors w.1 ((errs.filter (fun e => e.1 / c.n == w.2)).map (fun e => (e.1 % c.n, e.2 % 256))))
  let pc := (rowAt unit addr).pc
  let pins := (d.mc.badPins.filter (fun b => b.1 == unit && b.2.1 == pc)).map (·.2.2)
  if ws.all (fun w => w.drop c.k == (c.checkOf (w.take c.k)).map (fun s => Nat.xor s 255)) then .poison
  else
    let fs := ws.map (c.decode pins)
    if fs.any (·.isNone) then .uncorrectable
    else if fs.all (fun f => f == some []) then .sound
    else .corrected (fs.map (fun f => f.getD []))

/-- Writes a corrected burst back. -/
def writeBack (d : Dev) (unit addr : Nat) (errs : List (Nat × Nat)) (fix : List (List (Nat × Nat))) : Dev :=
  let c := burstCode unit
  let ws := ((burstWords d unit addr).zipIdx.map (fun w =>
    addErrors (addErrors w.1 ((errs.filter (fun e => e.1 / c.n == w.2)).map (fun e => (e.1 % c.n, e.2 % 256)))) (nth [] fix w.2)))
  let bs := symbolBytes unit (ws.map (fun w => w.take c.k))
  let p := homeByte unit (burstBase unit addr)
  if bs = burstData d unit addr then d else d.frameWrite (unitHome unit) p.1 p.2 bs

/-! ### BURST_ERROR (R289, R290) -/

/-- A frame is neither free nor out: a segment, a move's destination, or module tables hold it. -/
def frameHeld (d : Dev) (unit frame : Nat) : Bool :=
  let home := unitHome unit
  (segAt d home frame).isSome || (decide (unit < 12) && decide (frame < 65536)) ||
    d.store.moves.any (fun m => m.active && (if m.destTier = 0 then m.destHome else 12) == home &&
      decide (m.destFrame <= frame ∧ frame < m.destFrame + m.destFrames))

/-- An uncorrectable burst is poisoned: its segment follows R278. One in a free frame poisons nothing. -/
def poisonBurst (d : Dev) (unit addr : Nat) : Dev :=
  let f := frameAt unit addr
  if !frameHeld d unit f then d
  else
    let d1 := poisonWrite (d.bump (mcKey unit 3)) unit addr
    match segAt d (unitHome unit) f with
    | none => d1
    | some e => stopReaders (poisonSeg d1 e f) e

/-- A burst that holds poison is read: POISON, and no new error (R289). -/
def poisonRead (d : Dev) (unit addr : Nat) : Dev :=
  match segAt d (unitHome unit) (frameAt unit addr) with
  | none => d
  | some e => stopReaders d e

/-- An address of the unit's store. -/
def burstAddrOk (unit addr : Nat) : Bool :=
  (decide (unit < 12) && decide (addr < 48000000000)) || (decide (12 <= unit ∧ unit < 44) && decide (addr < 64000000000))

/-- The one symbol position that a correction is confined to. -/
def onePin (fix : List (List (Nat × Nat))) : Option Nat :=
  match (fix.flatMap (fun f => f.map (·.1))).dedup with
  | [p] => some p
  | _ => none

/-- A transient error: CORRECTED counts the burst where a reading was corrected (log 139). -/
def transient (d : Dev) (unit : Nat) (fixed : Bool) : Dev :=
  (if fixed then d.bump (mcKey unit 1) else d).bump (mcKey unit 2)

/-- The third reading, after the write-back of corrected data. -/
def lastRead (d : Dev) (e : BurstErr) : Dev :=
  let r := rowAt e.unit e.addr
  match readBurst d e.unit e.addr e.after with
  | .sound => transient d e.unit true
  | .poison => d
  | .corrected fix =>
    let d1 := escalate (d.bump (mcKey e.unit 1)) e.unit r
    match onePin fix with
    | some p => notePin d1 e.unit r p
    | none => d1
  | .uncorrectable => escalate (poisonBurst d e.unit e.addr) e.unit r

/-- One burst error, retried and classified (R290). The poison of a burst that could not be corrected stands for the
write-back; an error that survives it is lasting too. In a free frame nothing is written back, and the burst counts against its
row (R289). -/
def burst (d : Dev) (e : BurstErr) : Dev :=
  if !burstAddrOk e.unit e.addr then d
  else
    match readBurst d e.unit e.addr e.first with
    | .sound => d
    | .poison => poisonRead d e.unit e.addr
    | a =>
      let fixed := fun (x : BurstRead) => match x with | .corrected f => some f | _ => none
      match readBurst d e.unit e.addr e.again with
      | .sound => transient d e.unit (fixed a).isSome
      | .poison => poisonRead (transient d e.unit (fixed a).isSome) e.unit e.addr
      | b =>
        match fixed b, fixed a with
        | some f, _ => lastRead (writeBack d e.unit e.addr e.again f) e
        | none, some f => lastRead (writeBack d e.unit e.addr e.first f) e
        | none, none =>
          let d1 := poisonBurst d e.unit e.addr
          if e.after = [] ∧ frameHeld d e.unit (frameAt e.unit e.addr) = true then d1 else escalate d1 e.unit (rowAt e.unit e.addr)

/-- BURST_ERROR (R290). -/
def execBurstError (e : BurstErr) (s : State) : Host.Outcome State Fault Refusal := .next { s with dev := settle (burst s.dev e) }

/-- CA_PARITY_ERROR (R293): a retraining that discards no work; a recurrence loses the stack. -/
def caParity (stack : Nat) (again : Bool) (d : Dev) : Dev :=
  if 12 <= stack ∨ d.mc.lost.contains stack then d
  else if again then stackLost d stack 3
  else d.event 0x0509 1 4 (mcLoc stack 0) []

def execCaParityError (stack : Nat) (again : Bool) (s : State) : Host.Outcome State Fault Refusal :=
  .next { s with dev := caParity stack again s.dev }

/-- PATROL_SCRUB (R297): the errors that the daily patrol of a unit meets follow R290. -/
def execPatrolScrub (unit : Nat) (errs : List BurstErr) (s : State) : Host.Outcome State Fault Refusal :=
  .next { s with dev := settle (s.dev.forEach (errs.filter (fun e => e.unit == unit)) burst) }

/-! ### Refresh (R297) -/

/-- Refresh halves above 85 degrees and returns below 82. -/
def refreshState (was : Nat) (deciC : Int) : Nat := if 850 < deciC then 1 else if deciC < 820 then 0 else was

/-- REFRESH_INTERVAL (R297): the stack's sensor is sensor 13 + stack of DIE_TEMP_C (R519). -/
def refreshInterval (d : Dev) (stack : Nat) (deciC : Int) : Dev :=
  if 12 ≤ stack then d
  else (d.dset (O.DIE_TEMP_C (13 + stack)) (toUns 32 deciC)).dset (O.STACK_HOT_REFRESH stack)
    (refreshState (d.dget (O.STACK_HOT_REFRESH stack)) deciC)

def execRefreshInterval (stack : Nat) (deciC : Int) (s : State) : Host.Outcome State Fault Refusal :=
  .next { s with dev := refreshInterval s.dev stack deciC }

/-- SLOW_TEMP_POLL (R297). -/
def execSlowTempPoll (pkg : Nat) (deciC : Int) (s : State) : Host.Outcome State Fault Refusal :=
  .next { s with dev :=
    if pkg < 32 then s.dev.dset (O.PKG_HOT_REFRESH pkg) (refreshState (s.dev.dget (O.PKG_HOT_REFRESH pkg)) deciC) else s.dev }

end Sys2Proof.Machine
end

