-- ==== Sys2Proof/Machine/Routes.lean ====
section
/-! DEFINITION. What a bridge and the root of a census compute and send (R365 to R375): reports, shortest paths, member,
group and backup tables, the waves. The receiving side stands in Census.lean. -/

namespace Sys2Proof.Machine

def Dev.modLnk (d : Dev) (f : Lnk → Lnk) : Dev := { d with lnk := f d.lnk }

def Dev.modCensus (d : Dev) (f : Census → Census) : Dev := d.modLnk (fun l => { l with census := f l.census })

/-- The module's serial number, 16 characters (R2). -/
def ownSerial : Bytes := fitBytes 16 Config.serialNumber

/-- The module is its group's bridge: it holds a host port (R367). -/
def Dev.isBridge (d : Dev) : Bool := decide (d.dget O.HOST_PORT < 16)

def Dev.groupNo (d : Dev) : Nat := d.dget O.GROUP_NUMBER % 512

/-! ### Reports (R371) -/

/-- The module's own report: serial, SID, and of each port its state, role and peer serial. -/
def ownReport (d : Dev) : Report :=
  ownSerial ++ leBytes 1 (d.dget O.MEMBER_SID) ++
  (List.range 16).flatMap (fun p =>
    leBytes 1 (d.dget (O.PORT_STATE p)) ++ leBytes 1 (d.dget (O.PORT_ROLE p)) ++ fitBytes 16 (d.port p).peerSerial) ++
  List.replicate 15 0

def repSerial (r : Report) : Bytes := r.take 16
def repSid (r : Report) : Nat := leAt r 16 1 % 64

/-- A port of a report that is up: state byte 2 or 3. -/
def repUp (r : Report) (p : Nat) : Bool := leAt r (17 + 18 * p) 1 == 2 || leAt r (17 + 18 * p) 1 == 3
def repRole (r : Report) (p : Nat) : Nat := leAt r (18 + 18 * p) 1
def repPeer (r : Report) (p : Nat) : Bytes := (r.drop (19 + 18 * p)).take 16

/-- Serials compared as character strings. -/
def serialNo (s : Bytes) : Nat := s.foldl (fun n b => n * 256 + b.toNat) 0

/-! ### Shortest paths (R372, R373) -/

/-- A graph: each node with its edges (label, far node). -/
abbrev Graph := List (Nat × List (Nat × Nat))

def farAway : Nat := 1000000

def distOf (t : List (Nat × Nat)) (n : Nat) : Nat := ((t.find? (fun p => p.1 == n)).map (·.2)).getD farAway

def relaxDist (g : Graph) : Nat → List (Nat × Nat) → List (Nat × Nat)
  | 0, t => t
  | n + 1, t =>
    relaxDist g n (g.map (fun v => (v.1, v.2.foldl (fun m e => Nat.min m (distOf t e.2 + 1)) (distOf t v.1))))

/-- Hop counts to node `dst`. -/
def dists (g : Graph) (dst : Nat) : List (Nat × Nat) :=
  relaxDist g g.length (g.map (fun v => (v.1, if v.1 = dst then 0 else farAway)))

/-- First label of a shortest path from `src`, the lowest among equals, by the hop counts to the destination. -/
def nextLabel (g : Graph) (t : List (Nat × Nat)) (src : Nat) : Option Nat :=
  let es := ((g.find? (fun v => v.1 == src)).map (·.2)).getD []
  let good := es.filter (fun e => decide (distOf t src < farAway) && distOf t e.2 + 1 == distOf t src)
  good.foldl (fun m e => match m with | none => some e.1 | some x => some (Nat.min x e.1)) none

/-- The group's members by SID, joined over group ports that are up, without member `skip`. -/
def groupGraph (rs : List Report) (skip : Option Nat) : Graph :=
  let nodes := rs.filter (fun r => skip != some (repSid r))
  nodes.map (fun r => (repSid r, (List.range 16).filterMap (fun p =>
    if repUp r p && repRole r p == 0 then
      (nodes.find? (fun q => repSerial q == repPeer r p && repSid q != repSid r)).map (fun q => (p, repSid q))
    else none)))

/-- A table byte: port and VALID (R369). -/
def tableByte : Option Nat → Byte
  | some p => BitVec.ofNat 8 (p % 16 + 16)
  | none => 0

/-- The 64 bytes of a member table of member `src`. -/
def memberTable (g : Graph) (src : Nat) : Bytes :=
  (List.range 64).map (fun m => if m = src then 0 else tableByte (nextLabel g (dists g m) src))

/-- Trunks of the group in rising order of member and port: the numbering that MROUTES uses (log 68). -/
def groupTrunks (rs : List Report) : List (Nat × Nat) :=
  (sortBy (fun a b => decide (repSid a <= repSid b)) rs).flatMap (fun r =>
    ((List.range 16).filter (fun p => repUp r p && repRole r p == 1)).map (fun p => (repSid r, p)))

/-- The 512 bytes of a group table of member `src`: toward the next-hop trunk of each group (R373). -/
def groupTable (g : Graph) (skip : Option Nat) (trunks : List (Nat × Nat)) (hops : Bytes) (src : Nat) : Bytes :=
  (List.range 512).map (fun k =>
    match trunks[(nth 0xFF hops k).toNat]? with
    | none => 0
    | some t =>
      if skip = some t.1 then 0
      else if t.1 = src then tableByte (some t.2)
      else tableByte (nextLabel g (dists g t.1) src))

/-- Body of the ROUTE_SET of one member (R371); `hops`: the group's MROUTES, empty before the machine census. -/
def routeSetBody (rs : List Report) (serial : Bytes) (devId gen : Nat) (hops : Bytes) : Bytes :=
  let src := idMember devId
  let tr := groupTrunks rs
  let tables := fun skip => let g := groupGraph rs skip; memberTable g src ++ groupTable g skip tr hops src
  fitBytes 16 serial ++ leBytes 2 devId ++ leBytes 2 gen ++ tables none ++
  (List.range 64).flatMap (fun x =>
    if x ≠ src ∧ rs.any (fun r => repSid r == x) then tables (some x) else List.replicate 576 0)

/-- Largest member-to-member hop count. -/
def diameter (g : Graph) : Nat :=
  maxNat (g.flatMap (fun v => ((dists g v.1).map (·.2)).filter (fun n => decide (n < farAway))))

/-! ### Sending -/

/-- The module names itself on every port (R371). -/
def announce (d : Dev) : Dev :=
  match d.ownId with
  | none => d
  | some n => d.forEach d.upModulePorts (fun d p =>
      d.sendOn p none (syncMsg 0x13 0 (leBytes 4 (at' 0 15 n + at' 16 16 (d.dget O.CENSUS_GEN)) ++ ownSerial)))

/-- A conflict of the census (R374): the row of its table, the port, the other module's serial. -/
def censusConflict (d : Dev) (row port : Nat) (serial : Bytes) : Dev :=
  let d1 := d.event 0x0605 3 5 (port % 16 + 15 * 16) (leBytes 1 row ++ fitBytes 16 serial)
  d1.setRec { d1.recd with alert := true }

/-- Entries of a table that are VALID. -/
def validCount (bs : Bytes) : Nat := (bs.filter (fun b => b.getLsbD 4)).length

/-- Installs a ROUTE_SET addressed to this module: the first of a generation makes it group ready, the second machine
ready. A fence of this module ends with it, a planned restart too, and service time runs from the first (R369, R372, R373,
R469, R470). -/
def installRoutes (d : Dev) (b : Bytes) : Dev :=
  let gen := leAt b 18 2
  if d.lnk.census.gen ≠ some gen then d
  else
    let second := d.dget O.CENSUS_GEN == gen && (d.dget O.CENSUS_STATE == 2 || d.dget O.CENSUS_STATE == 3)
    let mt := (b.drop 20).take 64
    let gt := (b.drop 84).take 512
    let d1 := d.modLnk (fun l => { l with
      member := SMap.writeRun 0 l.member 0 mt, group := SMap.writeRun 0 l.group 0 gt,
      backup := SMap.writeRun 0 l.backup 0 (fitBytes 36864 (b.drop 596)), fencedIds := [] })
    let d2 := ((d1.dset O.DEVICE_ID (leAt b 16 2 % 2 ^ 15)).dset O.CENSUS_GEN gen).dset O.GROUP_MEMBERS (validCount mt + 1)
    let d3 := if second then
        let d3 := { ((d2.dset O.CENSUS_STATE 3).dset O.MACHINE_GROUPS (validCount gt + 1)).dset O.MACHINE_ROOT d.lnk.census.mroot with
            pow := { d2.pow with deviceFenced := false } }
        d3.modAvail (fun a => { a with ready := true, restart := false })
      else (d2.dset O.CENSUS_STATE 2).bump O.CENSUS_RUNS
    announce d3

/-- Sends each member its ROUTE_SET, and installs the bridge's own. -/
def sendRoutes (d : Dev) (rs : List Report) (hops : Bytes) : Dev :=
  let gen := d.lnk.census.gen.getD 0
  let d1 := d.forEach d.lnk.census.members (fun d m =>
    if m.2.2 < 16 then d.sendOn m.2.2 none (syncMsg 0x12 0 (routeSetBody rs m.1 m.2.1 gen hops)) else d)
  match d.lnk.census.members.find? (fun m => m.2.2 == 16) with
  | some m => installRoutes d1 (routeSetBody rs m.1 m.2.1 gen hops)
  | none => d1

/-- Reports of the members that have an ID, the bridge's own included. -/
def memberReports (d : Dev) : List Report :=
  (ownReport d :: d.lnk.census.kept).filter (fun r => d.lnk.census.members.any (fun m => m.1 == repSerial r))

/-! ### The group census at the bridge (R372) -/

/-- A report of a module with the same SID and a lower serial exists. -/
def sidLoser (rs : List Report) (r : Report) : Bool :=
  rs.any (fun q => repSid q == repSid r && decide (serialNo (repSerial q) < serialNo (repSerial r)))

/-- All replies are in: IDs, tables, ROUTE_SETs (R372, R374). -/
def groupDone (d : Dev) : Dev :=
  let c := d.lnk.census
  let rs := ownReport d :: c.kept
  let d1 := d.forEach (rs.filter (sidLoser rs)) (fun d r => censusConflict d 1 15 (repSerial r))
  let ms := (rs.filter (fun r => !sidLoser rs r)).map (fun r =>
    (repSerial r, d.groupNo * 64 + repSid r,
     if repSerial r = ownSerial then 16 else ((c.via.find? (fun v => v.1 == repSerial r)).map (·.2)).getD 17))
  let d2 := d1.modCensus (fun c => { c with members := ms })
  let good := memberReports d2
  let d3 := sendRoutes d2 good []
  (d3.dset O.GROUP_DIAMETER (diameter (groupGraph good none))).dset O.GROUP_MEMBERS ms.length

/-- A wave of the next generation on every group port. -/
def groupWave (d : Dev) : Dev :=
  let gen := (d.lnk.census.gen.getD (d.dget O.CENSUS_GEN) + 1) % 65536
  let ps := d.upGroupPorts
  let d1 := (d.modCensus (fun c => { c with
    gen := some gen, parent := none, hop := 0, pend := ps, kept := [], bridge := ownSerial, again := false, mrun := false, via := [],
    members := [], hostId := none })).dset O.CENSUS_STATE 1
  d1.forEach ps (fun d p =>
    d.sendOn p none (syncMsg 0x10 0 (leBytes 4 (at' 0 9 d.groupNo + at' 16 16 gen) ++ ownSerial)))

/-- Completes a census that no port still answers; a port change in between starts the next one (R375). -/
def groupProgress (d : Dev) : Dev :=
  if d.lnk.census.pend ≠ [] then d
  else
    let d1 := groupDone d
    if !d1.lnk.census.again then d1
    else
      let d2 := groupWave d1
      if d2.lnk.census.pend = [] then groupDone d2 else d2

def replyBody (acc : Bool) (gen : Nat) (rs : List Report) : Bytes :=
  leBytes 6 (at' 0 1 (bool01 acc) + at' 16 16 gen + at' 32 16 rs.length) ++ rs.flatten

/-- What follows when no answer is missing: the bridge computes, any other module answers its parent (R372). -/
def groupAnswer (d : Dev) : Dev :=
  let c := d.lnk.census
  match c.parent with
  | none => groupProgress d
  | some p =>
    if c.pend ≠ [] then d
    else d.sendOn p none (syncMsg 0x11 0 (replyBody true (c.gen.getD 0) (ownReport d :: c.kept)))

/-- The bridge starts its census. -/
def groupStart (d : Dev) : Dev := groupProgress (groupWave d)

/-! ### The machine census (R373) -/

/-- A trunk record: owner, port, peer group and member. -/
def trunkRec (owner port peer : Nat) : Nat := at' 0 15 owner + at' 15 4 port + at' 19 9 (idGroup peer) + at' 28 6 (idMember peer)

/-- The trunks of this module, as its ANNOUNCEs show them (log 69). -/
def ownTrunks (d : Dev) : List Nat :=
  match d.ownId with
  | none => []
  | some n => ((d.lnk.census.anns.filter (fun a => d.portUp a.1 && d.dget (O.PORT_ROLE a.1) == 1)).map (fun a =>
      trunkRec n a.1 a.2.1))

def trOwner (r : Nat) : Nat := fld r 0 15
def trPort (r : Nat) : Nat := fld r 15 4
def trGroup (r : Nat) : Nat := fld r 19 9

/-- Groups of which two modules report the same trunk: two bridges hold one GROUP_NUMBER (R374, log 70). -/
def doubleGroups (rs : List Nat) : List Nat :=
  ((rs.filter (fun r => decide (2 <= (rs.filter (fun q => fld q 0 19 == fld r 0 19)).length))).map
    (fun r => idGroup (trOwner r))).dedup

/-- Trunks of a group by rising member and port: their places are the numbers in MROUTES (log 68). -/
def trunkList (rs : List Nat) (g : Nat) : List Nat :=
  sortBy (fun a b => decide (idMember (trOwner a) * 16 + trPort a <= idMember (trOwner b) * 16 + trPort b))
    (rs.filter (fun r => idGroup (trOwner r) == g))

/-- The groups as a graph; the edge label orders by peer group, then member, then port. -/
def machineGraph (rs : List Nat) (gs : List Nat) : Graph :=
  gs.map (fun g => (g, (trunkList rs g).filterMap (fun r =>
    if trGroup r ≠ g ∧ gs.contains (trGroup r) then
      some ((trGroup r * 64 + idMember (trOwner r)) * 16 + trPort r, trGroup r)
    else none)))

/-- The 512 next-hop bytes of group `a`. -/
def mroutes (rs : List Nat) (gr : Graph) (a : Nat) : Bytes :=
  (List.range 512).map (fun b =>
    if a = b then 0xFF
    else
      match nextLabel gr (dists gr b) a with
      | none => 0xFF
      | some l => BitVec.ofNat 8 (Nat.min ((trunkList rs a).findIdx (fun r =>
          trGroup r * 1024 + idMember (trOwner r) * 16 + trPort r == l)) 0xFF))

/-- A bridge turns its MROUTES into group tables and sends every member the second ROUTE_SET: its census is complete, and a
port that changed meanwhile starts the next (R375). -/
def applyMroutes (d : Dev) (hops : Bytes) : Dev :=
  let d1 := (sendRoutes d (memberReports d) hops).modCensus (fun c => { c with mrun := false })
  if d.lnk.census.mrun && d.lnk.census.again then groupStart d1 else d1

/-- The root has every reply: it routes between the groups. -/
def machineDone (d : Dev) : Dev :=
  let rs := d.lnk.census.mkept ++ ownTrunks d
  let twice := doubleGroups rs
  let gs := ((d.groupNo :: rs.flatMap (fun r => [idGroup (trOwner r), trGroup r])).dedup).filter (fun g => !twice.contains g)
  let gr := machineGraph rs gs
  let mg := d.lnk.census.mgen.getD 0
  let d1 := d.forEach twice (fun d _ => censusConflict d 3 15 [])
  let d2 := d1.forEach (gs.filter (fun g => g != d.groupNo)) (fun d g =>
    d.forEach d.lnk.census.mkids (fun d p =>
      d.sendOn p none (syncMsg 0x16 0 (leBytes 4 (at' 0 9 g + at' 16 16 mg) ++ mroutes rs gr g))))
  if gs.contains d.groupNo then applyMroutes d2 (mroutes rs gr d.groupNo) else d2

def mwaveBody (g mg : Nat) : Bytes := leBytes 4 (at' 0 9 g + at' 16 16 mg)

def mreplyBody (acc : Bool) (mg : Nat) (rs : List Nat) : Bytes :=
  leBytes 6 (at' 0 1 (bool01 acc) + at' 16 16 mg + at' 32 16 rs.length) ++ rs.flatMap (leBytes 8)

/-- Every answer is in: the root routes, any other module answers its parent. -/
def machineProgress (d : Dev) : Dev :=
  let c := d.lnk.census
  if c.mpend ≠ [] then d
  else
    match c.mparent with
    | none => machineDone d
    | some p => d.sendOn p none (syncMsg 0x15 0 (mreplyBody true (c.mgen.getD 0) (c.mkept ++ ownTrunks d)))

/-- The module takes part in a machine census as the candidate of its own group. -/
def machineWave (d : Dev) (mg : Nat) : Dev :=
  let ps := d.upModulePorts
  let d1 := d.modCensus (fun c => { c with
    mgen := some mg, mroot := d.groupNo, mparent := none, mpend := ps, mkept := [], mkids := [], mrun := true })
  d1.forEach ps (fun d p => d.sendOn p none (syncMsg 0x14 0 (mwaveBody d.groupNo mg)))

/-- The bridge starts a machine census, in the generation after the last it saw (log 71). -/
def machineStart (d : Dev) : Dev :=
  machineProgress (machineWave d ((d.lnk.census.mgen.getD 0 + 1) % 65536))

/-- GROUP_CENSUS_START (R372, R375): at the bridge, once its own ports have completed bring-up. -/
def groupCensusStart (d : Dev) : Dev :=
  if !d.isBridge ∨ !d.sec.ready ∨ d.lnk.census.stopped then d
  else if d.dget O.CENSUS_STATE = 1 then d.modCensus (fun c => { c with again := true })
  else groupStart d

def execGroupCensusStart (s : State) : Host.Outcome State Fault Refusal := .next { s with dev := groupCensusStart s.dev }

/-- MACHINE_CENSUS_START (R373): the bridge's group census is complete. -/
def machineCensusStart (d : Dev) : Dev :=
  if !d.isBridge ∨ d.dget O.CENSUS_STATE < 2 ∨ d.dget O.CENSUS_STATE = 4 then d else machineStart d

def execMachineCensusStart (s : State) : Host.Outcome State Fault Refusal := .next { s with dev := machineCensusStart s.dev }

/-- A port that goes down answers no wave any more (log 73). -/
def censusLoss (d : Dev) (p : Nat) : Dev :=
  let c := d.lnk.census
  let d1 := if c.pend.contains p ∧ d.dget O.CENSUS_STATE = 1 then
      groupAnswer (d.modCensus (fun c => { c with pend := c.pend.filter (fun q => q != p) }))
    else d
  if c.mpend.contains p then
    machineProgress (d1.modCensus (fun c => { c with mpend := c.mpend.filter (fun q => q != p) }))
  else d1

/-- A port of a ready module came up, or went from up to retraining or failed (R375). The module's report to its bridge
has no message in the manual; at the bridge itself the next census starts (log 72). -/
def censusPort (d : Dev) (cameUp : Bool) : Dev :=
  if !d.isBridge then d
  else if d.lnk.census.stopped then
    if cameUp then groupStart (d.modCensus (fun c => { c with stopped := false })) else d
  else if d.dget O.CENSUS_STATE = 1 ∨ d.lnk.census.mrun then d.modCensus (fun c => { c with again := true })
  else if d.dget O.CENSUS_STATE = 2 ∨ d.dget O.CENSUS_STATE = 3 then groupStart d
  else d

end Sys2Proof.Machine
end

