-- ==== Sys2Proof/Machine/Port.lean ====
section
/-! DEFINITION. A port as the layers above see it: its state and what a change of it brings (R363, R375, R469), protocol
faults (R359), retraining (R345), fencing (R380, R381). -/

namespace Sys2Proof.Machine

/-- LOCATION of a link event without a lane, and with one (R474). -/
def linkLoc (p : Nat) : Nat := p % 16 + 15 * 16
def laneLoc (p lane : Nat) : Nat := p % 16 + lane % 16 * 16

def stUp (st : Nat) : Bool := st == 2 || st == 3

/-- The host port goes down: it counts, and is an outage of the module under the code of its retrain or its failure, unless that
event has begun it (R469). -/
def hostPortDown (d : Dev) (st : Nat) : Dev :=
  let code := if st = 4 then 0x0602 else 0x0603
  let d1 := d.bump O.HOST_PORT_OUTAGES
  if d.recd.avail.running.any (fun o => o.1 == code) then d1
  else d1.modAvail (fun a => { a with running := a.running ++ [(code, !d.planned)] })

/-- A port takes a new state: an outage of the host port is counted, the census hears of it. -/
def portChange (d : Dev) (p st : Nat) : Dev :=
  let old := d.dget (O.PORT_STATE p)
  if 16 ≤ p ∨ 5 < st ∨ old = st then d
  else
    let d1 := d.dset (O.PORT_STATE p) st
    let d2 := if stUp old && !stUp st && d.isHostPort p then hostPortDown d1 st else d1
    let d3 := if stUp st then d2 else censusLoss d2 p
    if (!stUp old && stUp st) || (stUp old && (st == 4 || st == 5)) then censusPort d3 (stUp st) else d3

/-- PORT_STATE_CHANGE (R375). -/
def execPortStateChange (port st : Nat) (s : State) : Host.Outcome State Fault Refusal :=
  .next { s with dev := portChange s.dev port st }

/-- Jobs with frames of a kind in the replay buffer or a transmit queue of a port. -/
def jobsOnPort (q : Port) (fk : Nat) : List Nat :=
  (((q.replay.flatMap (·.frames)) ++ q.txq).filterMap (fun f => if f.fkind = fk then f.payer else none)).dedup

/-- The work that a port's discarded frames belonged to completes DISCARDED (R345, R40): reductions and barriers of the
jobs whose records or tokens were queued, as far as their trees use the port. -/
def discardPortWork (d : Dev) (p : Nat) : Dev :=
  let rj := jobsOnPort (d.port p) 4
  let sj := jobsOnPort (d.port p) 7
  let cs := d.red.ctxs.filter (fun c => rj.contains c.job && !c.committed && c.neighbours.contains p)
  let bs := d.sched.barriers.filter (fun b => sj.contains b.job && ((!b.root && b.parentPort == p) || b.kids.contains p))
  settle ((d.forEach cs (fun d c => abortCtx d c none)).forEach bs (fun d b => abortBarrier d b none))

/-- A port with nothing queued, before bring-up: what is known of the peer and of the lanes goes with it. -/
def Port.cleared (q : Port) : Port := { Port.down with fenced := q.fenced, peerHost := q.peerHost, peerSerial := q.peerSerial,
                                                       peerPort := q.peerPort }

/-- Discards a port's queues (R345). -/
def clearPort (d : Dev) (p : Nat) : Dev := (discardPortWork d p).modPort p Port.cleared

/-- A retrain of a running port, for a reason of R357. `ask`: the peer is told by RETRAIN, the one frame that still goes out
with the old numbering (log 86). -/
def retrainPort (d : Dev) (p reason : Nat) (ask : Bool) : Dev :=
  if !d.portUp p then d
  else
    let q := d.port p
    let d1 := (clearPort d p).dset (O.SPARE_SERVES p) 255
    let d2 := if ask then
        (d1.modPort p (fun c => { c with linked := q.linked, txSseq := q.txSseq, rxGood := q.rxGood })).emitLc p
          (leBytes 1 5 ++ leBytes 1 reason)
      else d1
    portChange ((d2.bump (O.RETRAINS p)).event 0x0602 2 5 (linkLoc p) (leBytes 1 reason)) p 4

/-- A port fails: its queues are discarded. -/
def failPort (d : Dev) (p : Nat) : Dev :=
  if d.dget (O.PORT_STATE p) = 5 then d
  else portChange ((clearPort d p).event 0x0603 3 5 (linkLoc p) []) p 5

/-- A protocol fault: the sixteenth within 1 ms retrains the port (R359). -/
def protoFault (d : Dev) (p : Nat) : Dev :=
  let d1 := d.bump (O.PROTOCOL_FAULTS p)
  let ts := (d.calendar :: (d.port p).faultTimes).filter (fun t => decide (d.calendar < t + 33))
  let d2 := d1.modPort p (fun q => { q with faultTimes := ts })
  if 16 ≤ ts.length then retrainPort (d2.modPort p (fun q => { q with faultTimes := [] })) p 1 true else d2

/-! ### Fencing (R380, R381) -/

/-- A member is fenced: routes by the backup tables, the note goes to every group port but `skip`, the bridge tells its
host. -/
def fenceMember (d : Dev) (id port : Nat) : Dev :=
  if d.lnk.fencedIds.contains id then d
  else
    let d1 := (d.modLnk (fun l => { l with fencedIds := id :: l.fencedIds })).bump O.FENCES_SEEN
    let d2 := d1.event 0x0604 3 5 (linkLoc port) (leBytes 2 id)
    let d3 := d2.forEach (d2.upGroupPorts.filter (fun p => p != port)) (fun d p =>
      d.sendOn p none (syncMsg 0x18 0 (leBytes 8 (id % 2 ^ 15))))
    if d3.isBridge then
      match d3.ownId with
      | some own => d3.sendMsg 4 0x7E own true 0 0 none (leBytes 2 id ++ List.replicate 6 0)
      | none => d3
    else d3

/-- A neighbour fences the member behind port `p`: the port fails until the far end starts bring-up afresh. A peer that has
no ID is named to nobody. -/
def fencePeer (d : Dev) (p : Nat) : Dev :=
  let known := d.lnk.census.anns.any (fun a => a.1 == p) || decide (d.dget (O.PEER_ID p) < 0x8000)
  let d1 := (failPort d p).modPort p (fun q => { q with fenced := true })
  if known then fenceMember d1 (d.peerOf p) p else d1

/-- A fenced module disables every port of its own. -/
def disablePorts (d : Dev) : Dev :=
  d.forEach (List.range 16) (fun d p =>
    if d.dget (O.PORT_STATE p) = 0 then d
    else (clearPort d p).dset (O.PORT_STATE p) 5)

end Sys2Proof.Machine
end

