-- ==== Sys2Proof/Machine/Census.lean ====
section
/-! DEFINITION. The receiving side of the census and of fencing (R371 to R375, R380, R381): what a module does with each
message of its neighbours. -/

namespace Sys2Proof.Machine

/-- A neighbour message of SYNC is taken: the port is up, its peer and role are the message's, the body has the layout. A
message on a port of the wrong role, or of a wrong layout, is a protocol fault (R371, R359). -/
def censusRx (d : Dev) (port : Nat) (m : Msg) (kind : Nat) (groupOnly layout : Bool) (f : Dev → Dev) : Dev :=
  if !d.portUp port ∨ m.vc ≠ 6 ∨ m.hdr.kind ≠ kind then d
  else if (d.port port).peerHost || d.isHostPort port || (groupOnly && !d.groupPort port) || !layout then protoFault d port
  else f d

/-- Generation `a` is later than `b`, modulo 2^16. -/
def newerGen (a b : Nat) : Bool := decide (0 < (a + 65536 - b) % 65536 ∧ (a + 65536 - b) % 65536 < 32768)

def newerThan (a : Nat) : Option Nat → Bool
  | none => true
  | some b => newerGen a b

/-! ### The group census (R372) -/

/-- The module is in the midst of, or carries, another bridge's census (R374, log 75). -/
def foreignWave (d : Dev) (serial : Bytes) : Bool :=
  (d.isBridge && serial != ownSerial) ||
  (!d.isBridge && d.dget O.CENSUS_STATE == 1 && d.lnk.census.bridge != serial)

/-- A bridge that meets a second one stops; the wave is not answered. -/
def waveConflict (d : Dev) (port : Nat) (serial : Bytes) : Dev :=
  ((censusConflict d 2 port serial).dset O.CENSUS_STATE 4).modCensus (fun c =>
    { c with stopped := d.isBridge, pend := [], again := false })

/-- A wave of a later generation: the module joins the tree and passes it on. -/
def joinWave (d : Dev) (port hops group gen : Nat) (serial : Bytes) : Dev :=
  let ps := d.upGroupPorts.filter (fun p => p != port)
  let d1 := (d.modCensus (fun c => { c with
    gen := some gen, parent := some port, hop := hops, pend := ps, kept := [], bridge := serial, via := [] })).dset
      O.CENSUS_STATE 1
  groupAnswer (d1.forEach ps (fun d p =>
    d.sendOn p none (syncMsg 0x10 (hops + 1) (leBytes 4 (at' 0 9 group + at' 16 16 gen) ++ serial))))

def waveBody (d : Dev) (port : Nat) (m : Msg) : Dev :=
  let gen := leAt m.body 2 2
  let serial := (m.body.drop 4).take 16
  if foreignWave d serial then waveConflict d port serial
  else if newerThan gen d.lnk.census.gen then joinWave d port m.hdr.hops (fld (leAt m.body 0 4) 0 9) gen serial
  else d.sendOn port none (syncMsg 0x11 0 (replyBody false gen []))

/-- WAVE (R372). -/
def waveArrives (d : Dev) (port : Nat) (m : Msg) : Dev :=
  censusRx d port m 0x10 true (m.body.length == 20) (fun d => waveBody d port m)

def execWave (port : Nat) (m : Msg) (s : State) : Host.Outcome State Fault Refusal :=
  .next { s with dev := waveArrives s.dev port m }

/-- Cuts a run of bytes into reports. -/
def reportsOf : Nat → Bytes → List Report
  | 0, _ => []
  | n + 1, bs => bs.take 320 :: reportsOf n (bs.drop 320)

def replyTaken (d : Dev) (port : Nat) (m : Msg) : Dev :=
  let c := d.lnk.census
  if d.dget O.CENSUS_STATE ≠ 1 ∨ c.gen ≠ some (leAt m.body 2 2) ∨ !c.pend.contains port then d
  else
    let rs := reportsOf (leAt m.body 4 2) (m.body.drop 6)
    groupAnswer (d.modCensus (fun c => { c with
      pend := c.pend.filter (fun q => q != port), kept := c.kept ++ rs, via := c.via ++ rs.map (fun r => (repSerial r, port)) }))

/-- REPLY (R372). -/
def replyArrives (d : Dev) (port : Nat) (m : Msg) : Dev :=
  censusRx d port m 0x11 true (m.body.length == 6 + 320 * leAt m.body 4 2 && decide (6 ≤ m.body.length))
                          (fun d => replyTaken d port m)

def execReply (port : Nat) (m : Msg) (s : State) : Host.Outcome State Fault Refusal :=
  .next { s with dev := replyArrives s.dev port m }

/-- A ROUTE_SET is installed by its target and passed toward it by every other module. -/
def routeSetTaken (d : Dev) (m : Msg) : Dev :=
  let serial := m.body.take 16
  if serial = ownSerial then installRoutes d m.body
  else
    match d.lnk.census.via.find? (fun v => v.1 == serial) with
    | some v => d.sendOn v.2 none (syncMsg 0x12 (m.hdr.hops + 1) m.body)
    | none => d

/-- ROUTE_SET (R372, R373). -/
def routeSetArrives (d : Dev) (port : Nat) (m : Msg) : Dev :=
  censusRx d port m 0x12 true (m.body.length == 37460) (fun d => routeSetTaken d m)

def execRouteSet (port : Nat) (m : Msg) (s : State) : Host.Outcome State Fault Refusal :=
  .next { s with dev := routeSetArrives s.dev port m }

/-- A neighbour's ANNOUNCE: its ID, kept for the trunk records (R373), a reduction's routes (R304) and the host's ID. A
trunk to a module of the own group is a conflict (R374). -/
def announceTaken (d : Dev) (port : Nat) (m : Msg) : Dev :=
  let id := leAt m.body 0 2 % 2 ^ 15
  let serial := (m.body.drop 4).take 16
  let d1 := d.modCensus (fun c => { c with
    anns := (port, id, leAt m.body 2 2, serial) :: c.anns.filter (fun a => a.1 != port),
    hostId := if serial = c.bridge ∧ c.bridge ≠ ownSerial then some id else c.hostId })
  if d.dget (O.PORT_ROLE port) = 1 ∧ d.ownId.map idGroup = some (idGroup id) then censusConflict d1 5 port serial else d1

/-- ANNOUNCE (R371, R372). -/
def announceArrives (d : Dev) (port : Nat) (m : Msg) : Dev :=
  censusRx d port m 0x13 false (m.body.length == 20) (fun d => announceTaken d port m)

def execAnnounce (port : Nat) (m : Msg) (s : State) : Host.Outcome State Fault Refusal :=
  .next { s with dev := announceArrives s.dev port m }

/-! ### The machine census (R373) -/

/-- The module takes the candidate of the wave and passes it on. -/
def joinMwave (d : Dev) (port hops g mg : Nat) : Dev :=
  let ps := d.upModulePorts.filter (fun p => p != port)
  let d1 := d.modCensus (fun c => { c with
    mgen := some mg, mroot := g, mparent := some port, mpend := ps, mkept := [], mkids := [],
    mrun := d.isBridge && (d.dget O.CENSUS_STATE == 2 || d.dget O.CENSUS_STATE == 3) })
  machineProgress (d1.forEach ps (fun d p => d.sendOn p none (syncMsg 0x14 (hops + 1) (mwaveBody g mg))))

/-- A wave of a later generation, or of a lower group in the same one, is joined; a bridge of a lower group that has
completed its census answers a later generation with its own wave. A wave of a higher group than the lowest seen is not
answered: the lower one reaches its sender (log 71). -/
def mwaveTaken (d : Dev) (port : Nat) (m : Msg) : Dev :=
  let g := fld (leAt m.body 0 4) 0 9
  let mg := leAt m.body 2 2
  let c := d.lnk.census
  if newerThan mg c.mgen then
    if d.isBridge && decide (d.groupNo < g) && (d.dget O.CENSUS_STATE == 2 || d.dget O.CENSUS_STATE == 3) then
      machineProgress (machineWave d mg)
    else joinMwave d port m.hdr.hops g mg
  else if c.mgen ≠ some mg ∨ c.mroot < g then d
  else if g < c.mroot then joinMwave d port m.hdr.hops g mg
  else d.sendOn port none (syncMsg 0x15 0 (mreplyBody false mg []))

/-- MWAVE (R373). -/
def mwaveArrives (d : Dev) (port : Nat) (m : Msg) : Dev :=
  censusRx d port m 0x14 false (m.body.length == 4) (fun d => mwaveTaken d port m)

def execMwave (port : Nat) (m : Msg) (s : State) : Host.Outcome State Fault Refusal :=
  .next { s with dev := mwaveArrives s.dev port m }

def trunksOf : Nat → Bytes → List Nat
  | 0, _ => []
  | n + 1, bs => leAt bs 0 8 :: trunksOf n (bs.drop 8)

def mreplyTaken (d : Dev) (port : Nat) (m : Msg) : Dev :=
  let c := d.lnk.census
  if c.mgen ≠ some (leAt m.body 2 2) ∨ !c.mpend.contains port then d
  else
    machineProgress (d.modCensus (fun c => { c with
      mpend := c.mpend.filter (fun q => q != port),
      mkept := c.mkept ++ trunksOf (leAt m.body 4 2) (m.body.drop 6),
      mkids := if bit (leAt m.body 0 4) 0 then c.mkids ++ [port] else c.mkids }))

/-- MREPLY (R373). -/
def mreplyArrives (d : Dev) (port : Nat) (m : Msg) : Dev :=
  censusRx d port m 0x15 false (m.body.length == 6 + 8 * leAt m.body 4 2 && decide (6 ≤ m.body.length))
                          (fun d => mreplyTaken d port m)

def execMreply (port : Nat) (m : Msg) (s : State) : Host.Outcome State Fault Refusal :=
  .next { s with dev := mreplyArrives s.dev port m }

/-- MROUTES go down the tree to the bridge they name. -/
def mroutesTaken (d : Dev) (port : Nat) (m : Msg) : Dev :=
  let c := d.lnk.census
  if c.mgen ≠ some (leAt m.body 2 2) then d
  else if d.isBridge ∧ d.groupNo = fld (leAt m.body 0 4) 0 9 then applyMroutes d (m.body.drop 4)
  else d.forEach (c.mkids.filter (fun p => p != port)) (fun d p => d.sendOn p none (syncMsg 0x16 (m.hdr.hops + 1) m.body))

/-- MROUTES (R373). -/
def mroutesArrives (d : Dev) (port : Nat) (m : Msg) : Dev :=
  censusRx d port m 0x16 false (m.body.length == 516) (fun d => mroutesTaken d port m)

def execMroutes (port : Nat) (m : Msg) (s : State) : Host.Outcome State Fault Refusal :=
  .next { s with dev := mroutesArrives s.dev port m }

/-! ### Fencing (R380) -/

/-- FENCE_REQ travels on MGMT between neighbours, with no body. -/
def fenceReqTaken (d : Dev) (port : Nat) (m : Msg) : Dev :=
  if !d.portUp port ∨ m.vc ≠ 4 ∨ m.hdr.kind ≠ 0x7F then d
  else if (d.port port).peerHost || d.isHostPort port || decide (m.body ≠ []) then protoFault d port
  else fencePeer d port

def execFenceReq (port : Nat) (m : Msg) (s : State) : Host.Outcome State Fault Refusal :=
  .next { s with dev := fenceReqTaken s.dev port m }

/-- FENCE_NOTE (R380): a note that names this module fences it, and it disables its ports. -/
def fenceNoteTaken (d : Dev) (port : Nat) (m : Msg) : Dev :=
  let id := leAt m.body 0 2 % 2 ^ 15
  if d.ownId = some id then disablePorts d else fenceMember d id port

def fenceNoteArrives (d : Dev) (port : Nat) (m : Msg) : Dev :=
  censusRx d port m 0x18 true (m.body.length == 8) (fun d => fenceNoteTaken d port m)

def execFenceNote (port : Nat) (m : Msg) (s : State) : Host.Outcome State Fault Refusal :=
  .next { s with dev := fenceNoteArrives s.dev port m }

end Sys2Proof.Machine
end

