-- ==== Sys2Proof/Machine/Loop.lean ====
section
/-! DEFINITION. Serving loops (R228 to R253, R404 to R408): the loop and plan records, the mailbox messages, the step
boundary in its order, the plan service, answers and reads of the vane, the deadline monitor. The layout of the two
records and of the mailbox words is the model's (log 60, log 61). -/

namespace Sys2Proof.Machine

/-! ### Records in segments (R229, R242) -/

/-- A readable segment of a job, at least `n` bytes long. -/
def ownSegOk (d : Dev) (j seg n : Nat) : Bool :=
  (d.res seg).owner == j && d.segOk seg && decide (n ≤ (d.res seg).len)

/-- The loop a record describes, when it keeps every rule (R229). -/
def readLoop (d : Dev) (who : Sender) (j seg : Nat) : Option Loop :=
  let b := d.segRead seg 0 36
  let g := fun o n => leAt b o n
  let l : Loop :=
    { job := j, pipeline := g 0 1, rows := g 2 2, ncache := g 4 2, hkv := g 6 1, dim := g 7 1, qmax := g 8 1, q := g 9 1,
      pagesM1 := g 10 2, maskAddr := g 12 4, inSeg := g 16 4, inBytes := g 20 4, inputPolicy := g 24 1, ansBytes := g 25 1,
      scope := g 26 1, ansAddr := g 28 4, planRec := g 32 4, who := who, stopping := none, joins := [], leaves := [],
      forks := [], inSeq := [], written := [], active := [], step := 0, startUs := 0, fallbackLeft := 0, onFallback := false,
      missed := false, mon := [], planners := [], lost := [] }
  let geo := decide (1 ≤ l.hkv ∧ l.hkv ≤ 64 ∧ l.dim ≤ 3 ∧ 1 ≤ l.qmax ∧ l.qmax ≤ 64 ∧ l.hkv * pageBytes l.dt ≤ 8388608 ∧
    dirBytes l.qmax l.pagesM1 ≤ 8388608)
  if ownSegOk d j seg 36 && (d.job j).pipes.any (fun p => p.1 == l.pipeline) && decide (1 ≤ l.rows ∧ l.rows ≤ 65534) &&
     decide (l.ncache ≤ 256) && (geo || l.ncache == 0) && decide (1 ≤ l.q ∧ l.q ≤ l.qmax) &&
     decide (l.maskAddr + ceilDiv l.rows 4 ≤ (d.job j).opb) &&
     decide (64 ≤ l.inBytes ∧ l.inBytes ≤ 65536) && l.inBytes % 64 == 0 && ownSegOk d j l.inSeg (l.rows * l.inBytes) &&
     decide (l.inputPolicy ≤ 1) && decide (1 ≤ l.ansBytes ∧ l.ansBytes ≤ 48) && decide (l.scope ≤ 2) &&
     (l.planRec == 0 || ownSegOk d j l.planRec 160) then some l
  else none

/-- The plan record of a loop, when it has one and it keeps every rule (R242). -/
def readPlan (d : Dev) (l : Loop) : Option PlanRec :=
  let b := d.segRead l.planRec 0 160
  let g := fun o n => leAt b o n
  let s16 := fun o => toSgn 16 (leAt b o 2)
  let a := g 7 1
  let p : PlanRec :=
    { c := g 0 2, e := g 2 2, h := g 4 2, i := g 6 1, a := a, actExp := toSgn 8 (g 8 1), actAddr := g 12 4,
      actMin := (List.range a).map (fun d => s16 (64 + 2 * d)), actMax := (List.range a).map (fun d => s16 (112 + 2 * d)),
      sigInit := g 16 2, sigMin := g 18 2, sigMax := g 20 2, alpha := g 24 4, gamma := g 28 4, rewardOff := g 32 2 }
  let tiles := ceilDiv l.rows 64
  if l.planRec ≠ 0 && ownSegOk d l.job l.planRec 160 && decide (1 ≤ p.e ∧ p.e ≤ p.c ∧ p.c ≤ 4096 ∧ p.c ≤ l.rows) &&
     decide (1 ≤ p.h ∧ p.h ≤ 256 ∧ 1 ≤ p.i ∧ p.i ≤ 64 ∧ 1 ≤ p.a ∧ p.a ≤ 24) && decide (-64 ≤ p.actExp ∧ p.actExp ≤ 63) &&
     p.actAddr % 64 == 0 && decide (p.actAddr + tiles * 8256 ≤ (d.job l.job).opb) &&
     (p.actMin.zip p.actMax).all (fun q => decide (q.1 ≤ q.2)) &&
     decide (p.sigMin ≤ p.sigInit ∧ p.sigInit ≤ p.sigMax ∧ p.sigMax ≤ 32767) &&
     decide (p.alpha ≤ 65536 ∧ p.gamma ≤ 65536) && p.rewardOff % 2 == 0 && decide (p.rewardOff + 2 ≤ l.ansBytes) then some p
  else none

/-! ### Replies and notifications (R230, R235, R407, R440) -/

/-- An MBOX_WRITE with GO to a sender's channel, from the registers' word 0 up. -/
def mailTo (d : Dev) (who : Sender) (j : Nat) (ws : List Nat) : Dev :=
  d.sendMsg 0 0x30 who.src who.srcHost j 0 (some j)
    (leBytes 8 (at' 0 8 who.schan + at' 12 5 ws.length + at' 17 1 1) ++ ws.flatMap (leBytes 4))

/-- A reply: kind and status in word 0, then its data. -/
def loopReply (d : Dev) (who : Sender) (j kind st : Nat) (data : List Nat) : Dev := mailTo d who j ((kind + st * 256) :: data)

/-! ### Mailbox messages (R230) -/

def loopStart (who : Sender) (j seg : Nat) (d : Dev) : Dev :=
  if (d.loopOf j).isSome ∨ !(d.dget (O.JOB_STATE j) == 1 || d.dget (O.JOB_STATE j) == 2) then loopReply d who j 1 stField []
  else
    match readLoop d who j seg with
    | none => loopReply d who j 1 stField []
    | some l => loopReply (d.setSrv (fun v => { v with loops := v.loops ++ [l] })) who j 1 stOk []

/-- Joins still queued when the loop stops are refused; every stream leaves at the next boundary (log 62). -/
def loopStop (who : Sender) (j : Nat) (d : Dev) : Dev :=
  match d.loopOf j with
  | none => loopReply d who j 2 stField []
  | some l =>
    let d1 := d.forEach l.joins (fun d q =>
      (loopReply d q.who j 3 stNoPages []).setStream q.stream Stream.free |>.bump (O.JOINS_REFUSED j))
    let d2 := d1.forEach ((d1.streamsOf j).filter (fun p => p.2.st == 2 || p.2.st == 3)) (fun d p =>
      d.modStream p.1 (fun s => { s with st := 4 }))
    d2.modLoop j (fun l => { l with stopping := some who, joins := [] })

/-- JOIN: the lowest free stream number, whose vane entry starts anew (R227, R249), in STATE 1. -/
def loopJoin (who : Sender) (j prio : Nat) (planOn : Bool) (d : Dev) : Dev :=
  match d.loopOf j with
  | none => loopReply d who j 3 stField []
  | some l =>
    if planOn ∧ (readPlan d l).isNone then loopReply d who j 3 stField []
    else
      match (if l.joins.length < 1024 ∧ l.stopping.isNone then d.freeStream else none) with
      | none => (loopReply d who j 3 stNoPages []).bump (O.JOINS_REFUSED j)
      | some n =>
        (vaneCreate (d.setStream n { Stream.free with st := 1, job := j, loop := j, prio := prio % 16 }) n j).modLoop j (fun l =>
          { l with joins := l.joins ++ [⟨n, prio % 16, planOn, who⟩] })

/-- A stream of the job's loop that has been admitted or waits to be. -/
def loopStream (d : Dev) (j n : Nat) : Bool :=
  (d.loopOf j).isSome && (d.stream n).st != 0 && (d.stream n).job == j && !((d.stream n).st == 1 && (d.stream n).hasParent)

def loopLeave (who : Sender) (j n : Nat) (d : Dev) : Dev :=
  if !loopStream d j n then loopReply d who j 4 stField []
  else
    let d1 := if (d.stream n).st = 1 then d else d.modStream n (fun s => { s with st := 4 })
    d1.modLoop j (fun l => { l with leaves := l.leaves ++ [(n, who)] })

/-- STATUS: the four words of the stream-table entry. -/
def loopStatus (who : Sender) (j n : Nat) (d : Dev) : Dev :=
  let w := (d.stream n).word
  loopReply d who j 5 stOk [fld w 0 32, fld w 32 32, fld w 64 32, fld w 96 32]

/-- A planner as PLAN_ON makes it: mu 0 and sigma SIGMA_INIT (R243). -/
def newPlanner (n : Nat) (p : PlanRec) : Planner :=
  { root := n, record := p, snap := ⟨0, 0, [], [], [], []⟩, iter := 0, mu := List.replicate (p.h * p.a) 0,
    sigma := List.replicate (p.h * p.a) p.sigInit, cands := [], best := none }

def planOnNow (d : Dev) (j n : Nat) : Option Dev :=
  match d.loopOf j with
  | none => none
  | some l =>
    if l.planners.any (fun q => q.root == n) then some d
    else (readPlan d l).map (fun p => d.modLoop j (fun l => { l with planners := l.planners ++ [newPlanner n p] }))

def loopPlanOn (who : Sender) (j n : Nat) (d : Dev) : Dev :=
  if !loopStream d j n ∨ (d.stream n).plan ∨ !((d.stream n).st == 2 || (d.stream n).st == 3) then loopReply d who j 6 stField []
  else
    match planOnNow d j n with
    | some d1 => loopReply d1 who j 6 stOk []
    | none => loopReply d who j 6 stField []

/-- Candidates of a planner that have not left. A candidate that has run its H steps has left with H + 1 in their place. -/
def Planner.live (p : Planner) : List (Nat × Nat × Int × Int) := p.cands.filter (fun c => decide (c.2.1 ≤ p.record.h))

/-- The candidates of a planner leave at the next boundary. -/
def dropCands (d : Dev) (p : Planner) : Dev :=
  d.forEach p.live (fun d c => d.modStream c.1 (fun s => { s with st := 4 }))

def loopPlanOff (who : Sender) (j n : Nat) (d : Dev) : Dev :=
  match d.loopOf j with
  | none => loopReply d who j 6 stField []
  | some l =>
    let d1 := d.forEach (l.planners.filter (fun p => p.root == n)) dropCands
    loopReply (d1.modLoop j (fun l => { l with planners := l.planners.filter (fun p => p.root != n) })) who j 6 stOk []

def execStart (who : Sender) (job seg : Nat) (s : State) : Host.Outcome State Fault Refusal :=
  .next { s with dev := loopStart who job seg s.dev }
def execStop (who : Sender) (job : Nat) (s : State) : Host.Outcome State Fault Refusal :=
  .next { s with dev := loopStop who job s.dev }
def execJoin (who : Sender) (job prio : Nat) (planOn : Bool) (s : State) : Host.Outcome State Fault Refusal :=
  .next { s with dev := loopJoin who job prio planOn s.dev }
def execLeave (who : Sender) (job stream : Nat) (s : State) : Host.Outcome State Fault Refusal :=
  .next { s with dev := loopLeave who job stream s.dev }
def execStatus (who : Sender) (job stream : Nat) (s : State) : Host.Outcome State Fault Refusal :=
  .next { s with dev := loopStatus who job stream s.dev }
def execPlanOn (who : Sender) (job stream : Nat) (s : State) : Host.Outcome State Fault Refusal :=
  .next { s with dev := loopPlanOn who job stream s.dev }
def execPlanOff (who : Sender) (job stream : Nat) (s : State) : Host.Outcome State Fault Refusal :=
  .next { s with dev := loopPlanOff who job stream s.dev }

/-- The message in a channel's registers, handed to the receiving job's loop. Other kinds are the job's own. -/
def mboxDispatch (d : Dev) (who : Sender) (j : Nat) (w0 w1 : Nat) : Dev :=
  match fld w0 0 8 with
  | 1 => loopStart who j (fld w1 0 19) d
  | 2 => loopStop who j d
  | 3 => loopJoin who j (fld w1 0 4) (bit w1 4) d
  | 4 => loopLeave who j (fld w1 0 16) d
  | 5 => loopStatus who j (fld w1 0 16) d
  | 6 => if bit w1 16 then loopPlanOn who j (fld w1 0 16) d else loopPlanOff who j (fld w1 0 16) d
  | _ => d

/-- MBOX_CONSUME (R440): the bound job's firmware reads a pending channel, zeroes it and returns it to IDLE. -/
def mboxConsume (c : Nat) (d : Dev) : Dev :=
  let x := d.mbox1 c
  if !x.pending then d
  else
    let b := d.dget (O.MBOX_BIND c)
    mboxDispatch (d.setMbox c Mbox.idle) (bindSender b) (fld b 30 6) (SMap.get 0 x.regs 0).toNat (SMap.get 0 x.regs 1).toNat

def execMboxConsume (ch : Nat) (s : State) : Host.Outcome State Fault Refusal := .next { s with dev := mboxConsume ch s.dev }

/-! ### The vane (R247 to R251) -/

/-- The score of a candidate takes the reward of an answer row (R244). -/
def scoreRow (p : Planner) (n : Nat) (row : Bytes) : Planner :=
  { p with cands := p.cands.map (fun c =>
      if c.1 = n ∧ c.2.1 < p.record.h then
        (c.1, c.2.1 + 1, c.2.2.1 + (c.2.2.2 : Int) * toSgn 16 (leAt row p.record.rewardOff 2),
         (divRHE (c.2.2.2 * (p.record.gamma : Int)) 65536).toNat)
      else c) }

/-- One write of an entry: STALE 0, SEQ up (R248). -/
def vaneWrite (d : Dev) (n : Nat) (e : Vane) : Dev :=
  let d1 := d.setVane n { e with stale := 0, valid := true, ended := false, seq := (e.seq + 1) % 2 ^ 32 }
  d1.modLoop e.job (fun l => { l with written := l.written ++ [n] })

/-- An answer row of a stream that takes part in the step now running. A candidate's row goes to its score, a root's
entry is written by the plan service alone (R246, R248). -/
def vaneAnswer (n : Nat) (row : Bytes) (sat : Bool) (d : Dev) : Dev :=
  let s := d.stream n
  match d.loopOf s.job with
  | none => d
  | some l =>
    if s.st = 0 ∨ !l.active.contains n then d
    else if s.plan then d.modLoop s.job (fun l => { l with planners := l.planners.map (fun p => scoreRow p n row) })
    else if l.planners.any (fun p => p.root == n) then d
    else
      vaneWrite d n { d.vaneAt n with
        answer := BitVec.ofNat 384 (ofLe (fitBytes 48 (row.take l.ansBytes))), step := s.step, job := s.job,
        fallback := l.onFallback, plan := false, sat := sat }

/-- VANE_ANSWER_WRITE (R248). -/
def execVaneAnswerWrite (n : Nat) (row : Bytes) (sat : Bool) (s : State) : Host.Outcome State Fault Refusal :=
  .next { s with dev := vaneAnswer n row sat s.dev }

/-- The status of a read (R250). -/
def vaneStatus (d : Dev) (n : Nat) (h : Hdr) : Nat :=
  let s := d.stream n
  if s.st = 0 then 1
  else
    let ok := match (d.loopOf s.job).map (·.scope) with
      | some 0 => h.sjob == s.job
      | some 1 => d.ownId.map idGroup == some (idGroup h.src)
      | some _ => true
      | none => false
    if ok then 0 else 2

/-- Answers a VANE_READ on the port it came by (R356). -/
def vaneRead (port : Nat) (m : Msg) (d : Dev) : Dev :=
  let n := leAt m.body 0 2
  let st := vaneStatus d n m.hdr
  let e := d.vaneAt n
  let e' := if st = 2 then { e with answer := 0 } else e
  let d1 := if st = 2 then d.bump (O.VANE_DENIED (d.stream n).job) else d
  d1.sendOn port none ⟨5, ⟨2, 0, m.hdr.src, m.hdr.srcHost, d.srcId, false, 0, 0, 0⟩,
    leBytes 8 (at' 0 16 n + at' 16 16 (leAt m.body 2 2) + at' 32 8 st) ++ leBytes 64 e'.word⟩

/-! ### The plan service (R241 to R246) -/

/-- The action of candidate c at step t in dimension k (R243). -/
def planAction (p : Planner) (seed c t k : Nat) : Int :=
  let w := philox seed p.snap.step (0xFFFE0000 + p.iter) c (t * 65536 + k)
  let s : Int := (w.1 / 65536 + w.2.1 / 65536 + w.2.2.1 / 65536 + w.2.2.2 / 65536 : Nat)
  let z := if c = 0 then 0 else divRHE ((s - 131072) * 113512) 65536
  clampI (nth 0 p.record.actMin k) (nth 0 p.record.actMax k)
    (nth 0 p.mu (t * p.record.a + k) + divRHE (nth 0 p.sigma (t * p.record.a + k) * z) 65536)

/-- Forks the candidates of an iteration from the snapshot; the iteration waits when they cannot be reserved (R241). -/
def planFork (d : Dev) (l : Loop) (p : Planner) : Dev × Planner :=
  let s := d.stream p.root
  if p.cands ≠ [] ∨ !(s.st == 2 || s.st == 3) ∨ l.stopping.isSome then (d, p)
  else
    let sn := if p.iter = 0 then snapOf d l p.root else p.snap
    match reserveChildren l p.root sn.tailCaches p.record.c d with
    | none => (d.bump (O.PLAN_DEFERRED l.job), p)
    | some (d1, cs) =>
      ((d1.forEach cs (fun d c => makeChild d l sn p.root true c)).bump (O.FORKS_APPLIED l.job),
       { p with snap := sn, cands := cs.map (fun c => (c.stream, 0, 0, 65536)) })

/-- The integer nearest to the square root. -/
def nearRoot (v : Nat) : Nat := if Nat.sqrt v < v - Nat.sqrt v * Nat.sqrt v then Nat.sqrt v + 1 else Nat.sqrt v

/-- Candidates by falling score, ties to the lower number: (number, score). -/
def ranked (p : Planner) : List (Nat × Int) :=
  sortBy (fun a b => decide (b.2 < a.2 ∨ (b.2 = a.2 ∧ a.1 ≤ b.1))) (p.cands.zipIdx.map (fun q => (q.2, q.1.2.2.1)))

/-- Mean and spread after an iteration (R245). -/
def refit (p : Planner) (seed : Nat) : List (Int × Int) :=
  let el := ((ranked p).take p.record.e).map (·.1)
  (List.range (p.record.h * p.record.a)).map (fun i =>
    let as := el.map (fun c => planAction p seed c (i / p.record.a) (i % p.record.a))
    let m1 := divRHE (sumInt as) p.record.e
    let var := divRHE (sumInt (as.map (fun a => (a - m1) * (a - m1)))) p.record.e
    let s1 := clampI p.record.sigMin p.record.sigMax (nearRoot var.toNat)
    let mix := fun (new old : Int) => divRHE (p.record.alpha * new + (65536 - p.record.alpha) * old) 65536
    (mix m1 (nth 0 p.mu i), mix s1 (nth 0 p.sigma i)))

/-- The best candidate so far, the earlier iteration and then the lower number on a tie (R246). -/
def bestSoFar (p : Planner) (seed : Nat) : Option (Int × List Int) :=
  match (ranked p).head?, p.best with
  | some b, some q =>
    if q.1 < b.2 then some (b.2, (List.range p.record.a).map (planAction p seed b.1 0)) else some q
  | some b, none => some (b.2, (List.range p.record.a).map (planAction p seed b.1 0))
  | none, q => q

/-- A candidate that has run its H steps leaves at the boundary after its last step (R241). -/
def leaveCands (d : Dev) (p : Planner) : Dev × Planner :=
  (d.forEach (p.cands.filter (fun c => c.2.1 == p.record.h)) (fun d c => d.modStream c.1 (fun s => { s with st := 4 })),
   { p with cands := p.cands.map (fun c => if c.2.1 = p.record.h then (c.1, p.record.h + 1, c.2.2) else c) })

/-- Ends an iteration whose candidates have all run H steps: scores, refit, and at the plan's end the root's entry and the
shifted start of the next plan. -/
def planScore (d : Dev) (l : Loop) (p0 : Planner) : Dev × Planner :=
  let d1 := (leaveCands d p0).1
  let p := (leaveCands d p0).2
  if p.cands = [] ∨ p.live ≠ [] then (d1, p)
  else
    let seed := d.dget (O.JOB_SEED l.job)
    let rf := refit p seed
    let best := bestSoFar p seed
    let mu := rf.map (·.1)
    if p.iter + 1 < p.record.i then
      (d1, { p with mu := mu, sigma := rf.map (·.2), iter := p.iter + 1, cands := [], best := best })
    else
      let act := (best.map (·.2)).getD []
      let d2 := vaneWrite (d1.bump (O.PLANS_DONE l.job)) p.root { d1.vaneAt p.root with
        answer := BitVec.ofNat 384 (ofLe (fitBytes 48 (act.flatMap (fun a => leBytes 2 (toUns 16 a))))), step := p.snap.step,
        job := l.job, fallback := false, plan := true, sat := false }
      let sh := (List.range (p.record.h * p.record.a)).map (fun i =>
        if i + p.record.a < p.record.h * p.record.a then nth 0 mu (i + p.record.a) else nth 0 mu i)
      (d2, { p with mu := sh, sigma := List.replicate (p.record.h * p.record.a) p.record.sigInit, iter := 0, cands := [], best := none })

/-- Runs a part of the plan service over every planner of a loop. -/
def plansEach (f : Dev → Loop → Planner → Dev × Planner) (d : Dev) (j : Nat) : Dev :=
  match d.loopOf j with
  | none => d
  | some l =>
    let r := l.planners.foldl (fun (q : Dev × List Planner) p => let x := f q.1 l p; (x.1, q.2 ++ [x.2])) (d, [])
    r.1.modLoop j (fun l => { l with planners := r.2 })

/-! ### The boundary (R233) -/

/-- Elapsed time, deadline, STEP and STALE of the step that ends (R226, R249, R407). -/
def closeStep (d : Dev) (j us : Nat) : Dev :=
  match d.loopOf j with
  | none => d
  | some l =>
    let t := us - l.startUs
    let ran := l.active ≠ []
    let miss := ran && decide (0 < nth 0 l.mon 0 ∧ nth 0 l.mon 0 < t)
    let d1 := if ran then d.raiseMax (O.WORST_STEP_US j) t else d
    let d2 := if miss then d1.bump (O.DEADLINE_MISSES j) else d1
    let d3 := if miss && !l.missed then
        mailTo (d2.eventJ 0x0704 1 6 0 j l.step (leBytes 4 t)) l.who j [0x31, t % 2 ^ 32]
      else d2
    let d4 := d3.forEach l.active (fun d n => d.modStream n (fun s => { s with step := (s.step + 1) % 2 ^ 32 }))
    let d5 := d4.forEach ((d4.streamsOf j).filter (fun p => p.2.hasRow && !l.written.contains p.1)) (fun d p =>
      d.setVane p.1 { d.vaneAt p.1 with stale := Nat.min ((d.vaneAt p.1).stale + 1) 65535 })
    d5.modLoop j (fun l => { l with written := [], active := [], missed := if ran then miss else l.missed })

/-- Item 1: page edits and forks, in order of acceptance: an edit where it is due and heads its directory's list. -/
def applyOrders (d : Dev) (j : Nat) : Dev :=
  match d.loopOf j with
  | none => d
  | some l =>
    let items := (d.editsOf j).map (fun e => (e.f, some e)) ++ l.forks.map (fun f => (f, none))
    d.forEach (sortBy (fun a b => decide (a.1 ≤ b.1)) items) (fun d x =>
      match x.2 with
      | some e => if (dueEdits d e.dir).head? = some e then applyEdits d e.dir [e] else d
      | none => applyFork d x.1)

/-- GEN of a directory rises by one at a boundary, however many operations it applies (R219). -/
def onceGen (d0 d : Dev) : Dev :=
  d.forEach (d.store.dirs.filter d0.isDir) (fun d dir =>
    let g := (d0.dirHdr dir).gen
    let h := d.dirHdr dir
    if g + 1 < h.gen then d.putDirHdr dir { h with gen := g + 1 } else d)

/-- Frees a segment of the loop's own, behind its moves and pins. -/
def freeOwn (d : Dev) (e : Nat) : Dev := if (d.res e).st = 0 then d else d.freeOwned e

/-- Item 2 for one stream: groups, directories, list, vane entry, table entry. -/
def endStream (d : Dev) (l : Loop) (n : Nat) : Dev :=
  let s := d.stream n
  let dirs := if s.st = 1 then [] else (List.range l.ncache).map (dirOf d s)
  let d1 := d.forEach dirs (fun d dir => freeOwn (dropDirRefs d dir) dir)
  let d2 := if s.st = 1 then d1 else (freeOwn d1 s.dirList).setVane n { d1.vaneAt n with ended := true, held := false }
  (d2.setStream n Stream.free).modLoop l.job (fun l => { l with inSeq := SMap.put 0 l.inSeq n 0 })

/-- Item 2: every leaving stream ends; answers the rows that end. -/
def endLeavers (d : Dev) (j : Nat) : Dev × List Nat :=
  match d.loopOf j with
  | none => (d, [])
  | some l0 =>
    let going := fun (s : Stream) => s.st == 4 || (l0.stopping.isSome && decide (2 ≤ s.st))
    let gone := fun n => going (d.stream n) || l0.leaves.any (fun q => q.1 == n)
    let d1 := (d.forEach (l0.planners.filter (fun p => gone p.root)) dropCands).modLoop j (fun l =>
      { l with planners := l.planners.filter (fun p => !gone p.root), joins := l.joins.filter (fun q => !gone q.stream) })
    let out := (d1.streamsOf j).filter (fun p => going p.2 || l0.leaves.any (fun q => q.1 == p.1))
    let rows := (out.filter (fun p => p.2.st != 1)).map (·.2.row)
    let d2 := d1.forEach out (fun d p => endStream d l0 p.1)
    let d3 := d2.forEach l0.leaves (fun d q => loopReply d q.2 j 4 stOk [])
    (d3.modLoop j (fun l => { l with leaves := [] }), rows)

/-! ### Item 3: page groups (R234, R235) -/

/-- Groups that the appends of a step reach. -/
def appendGroups (len q : Nat) : List Nat := rangeFrom (len / 256) ((len + q - 1) / 256 + 1 - len / 256)

/-- (cache, group) pairs a stream needs. -/
def streamNeeds (d : Dev) (l : Loop) (s : Stream) : List (Nat × Nat) :=
  (List.range l.ncache).flatMap (fun c =>
    let dir := dirOf d s c
    ((appendGroups (d.dirHdr dir).len l.q).filter (fun j => !(d.dirEnt dir j).valid)).map (fun j => (c, j)))

/-- Unshared groups of a stream in the fast tier, lower j first. -/
def ownGroups (d : Dev) (l : Loop) (n : Nat) : List Nat :=
  let s := d.stream n
  let dirs := (List.range l.ncache).map (dirOf d s)
  (List.range (maxNat (dirs.map d.dirTop))).flatMap (fun j => dirs.filterMap (fun dir =>
    let e := d.dirEnt dir j
    if e.valid && !e.shared && (d.res e.seg).tier == 0 && ((d.res e.seg).st == 1 || (d.res e.seg).st == 2) then some e.seg else none))

/-- Groups to demote for a stream, in the order of R234. -/
def victimGroups (d : Dev) (l : Loop) (n : Nat) : List Nat :=
  let me := d.stream n
  let others := sortBy (fun (a b : Nat × Stream) => decide (a.2.prio ≤ b.2.prio)) ((d.streamsOf l.job).filter (fun p => p.1 != n))
  ((others.filter (fun p => p.2.st == 3)) ++ (others.filter (fun p => p.2.st == 2 && decide (p.2.prio ≤ me.prio)))).flatMap
    (fun p => ownGroups d l p.1) ++ ownGroups d l n

/-- The first victims that cover a shortfall within the slow-tier quota left; none when they cannot. -/
def coverShort (d : Dev) : Nat → Nat → List Nat → Option (List Nat)
  | 0, _, _ => some []
  | _ + 1, _, [] => none
  | short + 1, room, e :: es =>
    let n := (d.res e).len
    if room < n then none else (coverShort d (short + 1 - n) (room - n) es).map (e :: ·)

/-- Demotes a group, uncompressed (R193). A group that is pinned or has moves refuses the batch (R263). -/
def demoteGroup (d : Dev) (e : Nat) : Option Dev :=
  let r := d.res e
  if !d.idleSeg e then none
  else
    (d.takeRun 12 r.frames r.len).map (fun p =>
      let d1 := ((p.1.switchFrames e 12 p.2 r.frames).setCharge 0 e r.owner 0).setCharge 1 e r.owner r.len
      (d1.bump (O.DEMOTIONS r.owner)).bump (O.MOVES_DONE r.owner))

def demoteAll : List Nat → Dev → Option Dev
  | [], d => some d
  | e :: es, d => (demoteGroup d e).bind (demoteAll es)

/-- MAPs new groups into the directories of a stream (R218, R234). -/
def mapGroups (d : Dev) (s : Stream) (needs : List (Nat × Nat)) (segs : List Nat) : Dev :=
  d.forEach ((needs.map (·.1)).dedup) (fun d c =>
    let dir := dirOf d s c
    applyOps d dir (((needs.zip segs).filter (fun x => x.1.1 == c)).map (fun x =>
      { (default : Edit) with job := s.job, op := 2, dir := dir, j := x.1.2, arg := x.2 })))

/-- Serves a stream: all of its groups or none. -/
def serveGroups (d : Dev) (l : Loop) (n : Nat) : Option Dev :=
  let s := d.stream n
  let needs := streamNeeds d l s
  if needs = [] then some d
  else if needs.any (fun x => decide (l.pagesM1 < x.2)) then none
  else
    let total := needs.length * (l.groupLen * 64)
    let short := d.dget (O.FAST_USED l.job) + total - d.dget (O.FAST_QUOTA l.job)
    let room := d.dget (O.SLOW_QUOTA l.job) - d.dget (O.SLOW_USED l.job)
    ((coverShort d short room (victimGroups d l n)).bind (fun vs => demoteAll vs d)).bind (fun d1 =>
      (allocAll l.job (needs.map (fun _ => (l.groupLen, 2, 1))) d1).map (fun a => mapGroups a.1 s needs a.2))

/-- A stream that is served runs; one that is not is held, and its hold is told once. -/
def serveStream (d : Dev) (l : Loop) (n : Nat) : Dev :=
  match serveGroups d l n with
  | some d1 => d1.modStream n (fun s => { s with st := 2, heldFor := 0 })
  | none =>
    let d1 := d.modStream n (fun s => { s with st := 3, heldFor := Nat.min (s.heldFor + 1) 2047 })
    if (d.stream n).heldFor = 0 then mailTo (d1.bump (O.HOLDS l.job)) l.who l.job [0x30, n] else d1

/-- Streams by falling PRIO, then by number. -/
def byPrio (l : List (Nat × Stream)) : List (Nat × Stream) := sortBy (fun a b => decide (b.2.prio ≤ a.2.prio)) l

/-- Item 3, but for the streams in `later`: children that this boundary made of held parents (R240). -/
def serveAll (d : Dev) (j : Nat) (later : List Nat) : Dev :=
  match d.loopOf j with
  | none => d
  | some l =>
    d.forEach (byPrio ((d.streamsOf j).filter (fun p => (p.2.st == 2 || p.2.st == 3) && !later.contains p.1)))
      (fun d p => serveStream d l p.1)

/-! ### Item 4: joins (R236) -/

/-- Admits one join at a row. -/
def admitJoin (d : Dev) (l : Loop) (q : Join) (row : Nat) : Option Dev :=
  (allocAll l.job (streamAsk l 1) d).map (fun a =>
    let list := nth 0 a.2 0
    let dirs := (a.2.drop 1).take l.ncache
    let d1 := (writeDirList a.1 list dirs).modStream q.stream (fun s => { s with st := 2, row := row, dirList := list, step := 0 })
    let d2 := d1.forEach dirs (fun d dir => initDir d l dir 0 0x80)
    let d3 := mapGroups d2 (d2.stream q.stream) ((List.range l.ncache).map (fun c => (c, 0))) (a.2.drop (1 + l.ncache))
    let d4 := if q.planOn then (planOnNow d3 l.job q.stream).getD d3 else d3
    loopReply d4 q.who l.job 3 stOk [q.stream])

/-- Joins in order until one lacks a row or its reservation fails. -/
def admitJoins (j : Nat) (ended : List Nat) : List Join → Dev → Dev
  | [], d => d
  | q :: qs, d =>
    match d.loopOf j with
    | none => d
    | some l =>
      match (freeRows d l ended).head? with
      | none => d
      | some row =>
        let off := fun (d : Dev) => d.modLoop j (fun l => { l with joins := l.joins.filter (fun x => x.stream != q.stream) })
        match admitJoin d l q row with
        | some d1 => admitJoins j ended qs (off d1)
        | none => off (((loopReply d q.who j 3 stNoPages []).setStream q.stream Stream.free).bump (O.JOINS_REFUSED j))

/-! ### Item 5: masks and the step (R177, R231, R405) -/

def inSeqOf (d : Dev) (l : Loop) (row : Nat) : Nat :=
  leAt (d.segRead l.inSeg (row * l.inBytes + l.inBytes - 4) 4) 0 4

/-- A stream takes part in the step: it runs, and under INPUT_POLICY 1 its input is fresh. A candidate takes its input
from the plan. -/
def takesPart (d : Dev) (l : Loop) (n : Nat) (s : Stream) : Bool :=
  s.st == 2 && (l.inputPolicy == 0 || s.plan || SMap.get 0 l.inSeq n != inSeqOf d l s.row + 1)

def pipeStages (d : Dev) (j p : Nat) : List Stage := (((d.job j).pipes.find? (fun q => q.1 == p)).map (·.2)).getD []

/-- The pipeline a step runs on. -/
def Loop.running (l : Loop) : Nat := if l.onFallback then nth 255 l.mon 1 else l.pipeline

/-- Writes the step masks into every block of the running pipeline; a row that `ms` does not name is held. -/
def writeMasks (d : Dev) (l : Loop) (ms : List (Nat × Nat)) : Dev :=
  let mk := fun r => ((ms.find? (fun p => p.1 == r)).map (·.2)).getD 2
  let bs := (List.range (ceilDiv l.rows 4)).map (fun i =>
    BitVec.ofNat 8 (mk (4 * i) + mk (4 * i + 1) * 4 + mk (4 * i + 2) * 16 + mk (4 * i + 3) * 64))
  d.forEach (((pipeStages d l.job l.running).flatMap (·.blocks)).dedup) (fun d b =>
    if (d.place l.job b).phys.isNone then d else d.opbWrite (d.physOf l.job b) (d.opbAddr l.job b l.maskAddr) bs)

/-- Writes the action tiles of a planner's candidates into the first stage's blocks (R242, R243). -/
def writeActions (d : Dev) (l : Loop) (p : Planner) : Dev :=
  let seed := d.dget (O.JOB_SEED l.job)
  let rows := (p.cands.zipIdx.filter (fun q => decide (q.1.2.1 < p.record.h))).map (fun q => ((d.stream q.1.1).row, q.2, q.1.2.1))
  let sc := List.replicate 64 (toUns 8 p.record.actExp)
  let blocks := match pipeStages d l.job l.running with
    | st :: _ => st.blocks
    | [] => []
  d.forEach ((rows.map (fun r => r.1 / 64)).dedup) (fun d t =>
    let tile := buildTile 3 sc (fun r c =>
      match rows.find? (fun q => q.1 == 64 * t + r) with
      | some q => if c < p.record.a then planAction p seed q.2.1 q.2.2 c else 0
      | none => 0)
    d.forEach blocks (fun d b =>
      if (d.place l.job b).phys.isNone then d
      else d.opbPutTile (d.physOf l.job b) (d.opbAddr l.job b (p.record.actAddr + t * 8256)) tile))

/-- The monitor's settings (R414). -/
def monOf (d : Dev) (j : Nat) : List Nat :=
  [d.dget (O.STEP_DEADLINE j), d.dget (O.FALLBACK_PIPELINE j), d.dget (O.FALLBACK_MODE j), d.dget (O.FALLBACK_HOLD j),
   d.dget (O.MARK_COUNT j)] ++ (List.range 16).map (fun k => d.dget (O.MARK j k))

/-- Masks of the rows of a loop's streams: 01 on a stream's first step, and where its state was lost (R24, R179, R182). -/
def rowMasks (d : Dev) (l : Loop) (ended : List Nat) : List (Nat × Nat) :=
  ended.map (fun r => (r, 3)) ++
  ((d.streamsOf l.job).filter (fun p => l.active.contains p.1)).map (fun p =>
    (p.2.row, if p.2.step = 0 ∨ l.lost.contains p.1 then 1 else 0))

/-- Masks written, step issued, counters and HELD bits brought up to date. -/
def issueStep (d : Dev) (j us : Nat) (ended : List Nat) : Dev :=
  match d.loopOf j with
  | none => d
  | some l0 =>
    let ss := d.streamsOf j
    let act := (ss.filter (fun p => takesPart d l0 p.1 p.2)).map (·.1)
    let fb := decide (0 < l0.fallbackLeft)
    let l : Loop := { l0 with
      active := act, step := if act = [] then l0.step else (l0.step + 1) % 2 ^ 32, startUs := us, mon := monOf d j, onFallback := fb,
      fallbackLeft := if act = [] then l0.fallbackLeft else l0.fallbackLeft - 1,
      inSeq := act.foldl (fun m n => SMap.put 0 m n (inSeqOf d l0 (d.stream n).row + 1)) l0.inSeq }
    let d1 := d.setLoop l
    let d2 := writeMasks d1 l (rowMasks d1 l ended)
    let d3 := d2.forEach l.planners (fun d p => writeActions d l p)
    let d4 := d3.forEach ss (fun d p => if p.2.hasRow then d.setVane p.1 { d.vaneAt p.1 with held := p.2.st == 3 } else d)
    let d5 := (d4.dset (O.STREAMS_RUNNING j) (ss.filter (fun p => p.2.st == 2)).length).dset (O.STREAMS_HELD j)
      (ss.filter (fun p => p.2.st == 3)).length
    let d6 := d5.modLoop j (fun l => { l with lost := l.lost.filter (fun n => !act.contains n) })
    if fb && decide (act ≠ []) then d6.bump (O.FALLBACK_STEPS j) else d6

/-- The home core issues a descriptor without a queue (R417); none, for an `attend` on a cache of a stream that takes no part
in the step (R235). -/
def loopIssue (j : Nat) (d : Dev) (w : Word512) : Dev :=
  match d.loopOf j with
  | none => d
  | some l =>
    let dir := fld w.toNat 128 19
    let idle := (d.streamsOf j).any (fun p => p.2.hasRow && !l.active.contains p.1 &&
      (List.range l.ncache).any (fun c => dirOf d p.2 c == dir))
    if d.pow.deviceFenced ∨ (fld w.toNat 0 8 = 5 ∧ idle) then d else takeDescriptor j 4 0 w true d

/-- The loop's own descriptors have all completed: the step is over. -/
def stepOver (d : Dev) (j : Nat) : Bool := !d.sched.flights.any (fun x => x.job == j && x.queue == 4)

/-- A loop that is to stop and has no stream left answers and goes. -/
def stopNow (d : Dev) (j : Nat) (ended : List Nat) : Option Dev :=
  match d.loopOf j with
  | none => none
  | some l =>
    match l.stopping with
    | none => none
    | some who =>
      if d.streamsOf j ≠ [] then none
      else
        let d1 := writeMasks d l (ended.map (fun r => (r, 3)))
        let d2 := loopReply d1 who j 2 stOk []
        some (((d2.setSrv (fun v => { v with loops := v.loops.filter (fun l => l.job != j) })).dset (O.STREAMS_RUNNING j) 0).dset
          (O.STREAMS_HELD j) 0)

/-- The boundary, in the order of R233, once the loop's own descriptors have completed. `descs`: the descriptors that the home
core issues for the step (log 134). -/
def boundary (j us : Nat) (descs : List Word512) (d : Dev) : Dev :=
  if (d.loopOf j).isNone ∨ !stepOver d j then d
  else
    let d1 := applyOrders (closeStep d j us) j
    let d2 := plansEach planScore (plansEach planFork d1 j) j
    let e := endLeavers d2 j
    match stopNow e.1 j e.2 with
    | some d3 => settle (onceGen d d3)
    | none =>
      let later := ((e.1.streamsOf j).filter (fun p => p.2.st == 3 && decide ((d.stream p.1).st < 2))).map (·.1)
      let d3 := serveAll e.1 j later
      let js := ((d3.loopOf j).map (·.joins)).getD []
      let d4 := admitJoins j e.2 (sortBy (fun a b => decide (b.prio ≤ a.prio)) js) d3
      settle ((issueStep (onceGen d d4) j us e.2).forEach descs (loopIssue j))

/-- SERVING_STEP_BOUNDARY (R233). -/
def execServingStepBoundary (job : Nat) (issue : StepIssue) (s : State) : Host.Outcome State Fault Refusal :=
  .next { s with dev := boundary job issue.us issue.descs s.dev }

/-! ### The deadline monitor (R404, R405) -/

/-- Stages of the running pipeline after a mark's stage. -/
def stagesAfter (st : Nat) : List Stage → List Stage
  | [] => []
  | x :: xs => if x.stage = st then xs else stagesAfter st xs

/-- A step that has made no write that outlives it (R397). -/
def discardable (d : Dev) (j step : Nat) : Bool :=
  !d.sched.flights.any (fun x => x.job == j && x.step == step && x.lasting) && !(d.job j).begun.contains (step, true)

/-- Pre-emption by discard on one block for job `j` (R397, R398). The victim's tenancy is charged for cycles that the
model does not count (log 74). -/
def preemptBlock (j step : Nat) (d : Dev) (b : Nat) : Dev :=
  match d.tenant b with
  | none => d
  | some t =>
    if t.1 = j ∨ (d.job j).preempt ≠ 1 ∨ (d.job j).prio ≤ (d.job t.1).prio ∨ !discardable d t.1 t.2 then d
    else
      let fresh := d.stepFlights t.1 t.2
      let d0 := if fresh = [] then d else d.bump (O.DISCARDED_BY_PREEMPT t.1)
      let w := d0.drawWord
      let d1 := chargeVtime w.2 b t.1 w.1.toNat
      settle ((discardStep d1 t.1 t.2).setTenant b (some (j, step)))

/-- The loop's own descriptors of the present step on stages that have not started are not issued (R405, mode 1). -/
def withdraw (d : Dev) (j step : Nat) (stages : List Stage) : Dev :=
  d.forEach ((d.sched.flights.filter (fun x => x.job == j && x.queue == 4 && x.step == step && x.live && !x.started &&
    stages.any (fun s => d.onStage j s.stage x))).map (·.id)) (fun d f => (d.releasePins f).dropFlight f)

/-- The loop runs its fallback model (R405): in mode 1 from the present step on, of which `later` are the stages after the mark
and `descs` what the home core issues. -/
def fallbackNow (d : Dev) (j : Nat) (later : List Stage) (descs : List Word512) : Dev :=
  match d.loopOf j with
  | none => d
  | some l =>
    let fp := nth 255 l.mon 1
    if !(d.job j).pipes.any (fun p => p.1 == fp) then d
    else if nth 0 l.mon 2 = 0 ∨ l.onFallback then d.modLoop j (fun l => { l with fallbackLeft := nth 0 l.mon 3 })
    else
      let l1 := { l with onFallback := true, fallbackLeft := nth 0 l.mon 3 - 1 }
      let d1 := (withdraw (d.setLoop l1) j l.step later).bump (O.FALLBACK_STEPS j)
      (writeMasks d1 l1 (rowMasks d1 l1 [])).forEach descs (loopIssue j)

/-- A check mark is reached. -/
def deadlineMark (j k us : Nat) (descs : List Word512) (d : Dev) : Dev :=
  match d.loopOf j with
  | none => d
  | some l =>
    let w := nth 0 l.mon (5 + k)
    let ex := fld w 8 12
    let dl := nth 0 l.mon 0
    if dl = 0 ∨ l.active = [] ∨ nth 0 l.mon 4 ≤ k ∨ ex = 0 then d
    else
      let e := us - l.startUs + 1
      let p := e + ceilDiv (fld w 20 12 * Nat.max ex e) ex
      if p ≤ dl then d
      else
        let d1 := d.bump (O.OVERRUNS_PREDICTED j)
        let later := stagesAfter (fld w 0 8) (pipeStages d1 j l.running)
        let bs := later.flatMap (·.blocks)
        let d2 := d1.forEach ((bs.filterMap (fun b => (d1.place j b).phys)).dedup) (preemptBlock j l.step)
        settle (fallbackNow d2 j later descs)

/-- DEADLINE_MARK (R404). -/
def execDeadlineMark (job k : Nat) (issue : StepIssue) (s : State) : Host.Outcome State Fault Refusal :=
  .next { s with dev := deadlineMark job k issue.us issue.descs s.dev }

end Sys2Proof.Machine
end

