-- ==== Sys2Proof/Machine/Power.lean ====
section
/-! DEFINITION. Power and reset (R33, R34, R499 to R504, R512, R514, R518, R519): what a reset and a loss of power keep, the
device fence, the input, the rails, the cap and the temperatures. -/

namespace Sys2Proof.Machine

def Dev.setSec (d : Dev) (f : Sec → Sec) : Dev := { d with sec := f d.sec }

def Dev.setPow (d : Dev) (f : Pow → Pow) : Dev := { d with pow := f d.pow }

/-! ### What survives (R448, R459, R471, R476, R504; log 76) -/

/-- Objects kept across power-off beside the RWP values, which the boot loads (R459): availability (R482), OP_HOURS,
POWER_CYCLES, PERSIST_WRITES. -/
def keptOff (k : Nat) : Bool :=
  k / 256 == 0x6001 || k == O.OP_HOURS || k == O.POWER_CYCLES || k == O.PERSIST_WRITES

/-- What MOD_RST_N leaves beside: the SID sampled at power-good, debug access, what the sensors measured, and the columns that
the spares serve (R100). -/
def keptReset (k : Nat) : Bool :=
  keptOff k || k == O.MEMBER_SID || k == O.MGMT_PLCA_ID || k == O.DEBUG_STATE || k == O.INPUT_MV || k == O.INPUT_MA ||
  k == O.INPUT_W || k == O.COOLANT_IN_C || k == O.COOLANT_OUT_C || k / 256 == 0x2003 || k / 256 == 0x8003

/-- Objects of the parts that run on the standby rail: management, power, recorder, security. -/
def keptStandby (k : Nat) : Bool :=
  keptReset k || (decide (k / 256 < 0x3000) && k / 256 != 0x1001 && k / 256 != 0x1101) ||
  (decide (0x6000 ≤ k / 256) && decide (k / 256 < 0x8000)) ||
  (match objFind (k / 256) (k % 256) with | some o => o.acc == 3 | none => false)

def keepDict (p : Nat → Bool) (m : SMap Nat) : SMap Nat := m.filter (fun e => p e.1)

/-- The next SEQ: one after the highest whose record is good (R477). -/
def lastSeq (slots : SMap Word512) : Option Nat :=
  slots.foldl (fun m e => if slotGood e.2 then
      some (match m with | none => fld e.2.toNat 0 32 | some n => Nat.max n (fld e.2.toNat 0 32)) else m) none

/-- The recorder starts again: what stands in flash stays, what stood in RAM is lost (R477, R479). -/
def restartRecorder (r : Recorder) (early : List EventIn) : Recorder :=
  { Recorder.start with
    slots := r.slots, nextSeq := (match lastSeq r.slots with | some n => (n + 1) % 2 ^ 32 | none => 0),
    nextNo := r.nextNo, early := early, avail := r.avail }

/-- The repair ledger (R295). -/
def Mc.ledgerOnly (m : Mc) : Mc :=
  ⟨[], [], [], [], [], [], [], [], m.ledgerRemaps, m.ledgerDead, m.ledgerRetired, m.ledgerPcs, []⟩

def seqObject (d : Dev) : Dev :=
  d.dset O.NEWEST_SEQ (match lastSeq d.recd.slots with | some n => n | none => 0xFFFFFFFF)

/-- Everything is held in reset or without power; what `keep` names and what stands in flash survives. -/
def fromStart (d : Dev) (keep : Nat → Bool) : Dev :=
  { Dev.reset with
    dict := keepDict keep d.dict
    mc := d.mc.ledgerOnly
    mgmt := { Dev.reset.mgmt with copyA := d.mgmt.copyA, copyB := d.mgmt.copyB, wornA := d.mgmt.wornA, wornB := d.mgmt.wornB }
    recd := restartRecorder d.recd []
    sec := { Sec.start with image := d.sec.image }
    pow := { Pow.start with deviceFenced := d.pow.deviceFenced }
    freeNo := d.freeNo }

/-- Loss of power: the calendar starts again at 0, debug access closes, the identity key is usable again (R469, R495). -/
def powerOff (d : Dev) : Dev :=
  (seqObject (fromStart d keptOff)).modAvail (fun a => { a with part := false, restart := false, running := [] })

/-- Reset of every core (R504): the rails, the calendar and open debug access stay; an erase in progress leaves it closed. -/
def resetCores (d0 : Dev) (cause : Nat) : Dev :=
  let d := d0.planStarts
  let d1 := fromStart d keptReset
  let d2 : Dev := { d1 with
    recd := restartRecorder d.recd d.recd.early
    sec := { d1.sec with
      installed := d.sec.installed, oldVersion := d.sec.oldVersion, identity := d.sec.identity,
      session := d.sec.session, debugOpen := d.sec.debugOpen, bootCause := cause }
    pow := { d1.pow with
      pwrOk := d.pow.pwrOk, rstN := d.pow.rstN, wakeN := d.pow.wakeN, rails := d.pow.rails, latched := d.pow.latched,
      inLow := d.pow.inLow, inHigh := d.pow.inHigh }
    calendar := d.calendar, timeSet := d.timeSet, opSecs := d.opSecs }
  let d3 := d2.modAvail (fun a => { a with restart := a.restart || cause == 2 || !d.pow.deviceFenced })
  seqObject (if d3.dget O.DEBUG_STATE = 1 then d3.dset O.DEBUG_STATE 0 else d3)

/-- What the security core had under way fails with the memories and the ports it worked on: an unlock at its step 5 (R495), an
update at its fetch (R491). Lull ends. -/
def standbyFails (d : Dev) : Dev :=
  let d1 := if d.sec.unlocking then (d.dset O.DEBUG_STATE 3).event 0x0A07 2 7 0 (leBytes 1 5) else d
  let d2 := if 1 ≤ d1.dget O.FW_UPDATE_STATE ∧ d1.dget O.FW_UPDATE_STATE ≤ 3 then
      (d1.dset O.FW_UPDATE_STATE 4).event 0x0A04 2 7 0 (leBytes 1 0)
    else d1
  d2.dset O.LULL_STATE 0

/-- Every rail but standby goes: the management core, the recorder and the security core run on, the rest is lost (R500). -/
def railsDown (d0 : Dev) : Dev :=
  let d := standbyFails d0
  { Dev.reset with
    dict := keepDict keptStandby d.dict
    blobs := d.blobs
    mc := d.mc.ledgerOnly
    mgmt := d.mgmt, recd := d.recd
    sec := { d.sec with ready := false, fetch := none, unlocking := false, recovery := false, retryWait := false }
    pow := { Pow.start with
      pwrOk := d.pow.pwrOk, rstN := d.pow.rstN, wakeN := d.pow.wakeN, rails := 1, latched := true,
      inLow := d.pow.inLow, inHigh := d.pow.inHigh, deviceFenced := true }
    calendar := d.calendar, timeSet := d.timeSet, opSecs := d.opSecs, freeNo := d.freeNo }

/-! ### The device fence (R33, R34, R380) -/

/-- The event, the count, the alert (R34). -/
def fenceNoted (d : Dev) (cause : Nat) : Dev :=
  let d1 := ((d.bump O.DEVICE_OUTAGES).event 0x0401 4 3 0 (leBytes 1 cause)).setPow (fun p => { p with deviceFenced := true })
  d1.setRec { d1.recd with alert := true }

/-- What lower levels had under way is given up (R36): moves end, and what an evacuation has not reached is poisoned. -/
def abandonLower (d : Dev) : Dev :=
  let d1 := d.forEach d.store.moves discardOneMove
  (d1.forEach d1.store.evacuating (fun d e => poisonSeg d e (d.res e).frame)).setStore (fun s => { s with evacuating := [] })

/-- The module asks its neighbours to fence it and closes its ports once their queues are sent; where no link works it
only closes them. Everything it held is discarded. -/
def deviceFence (d : Dev) (cause : Nat) : Dev :=
  if d.pow.deviceFenced ∨ d.pow.latched ∨ cause < 1 ∨ 4 < cause then d
  else
    let d1 := fenceNoted d cause
    if cause = 4 then { railsDown d1 with pow := { (railsDown d1).pow with latched := false } }
    else
      let d2 := if cause = 3 then d1
        else d1.forEach d1.upModulePorts (fun d p => d.sendOn p none ⟨4, ⟨0x7F, 0, 0, false, 0, false, 0, 0, 0⟩, []⟩)
      let d3 := abandonLower (discardAll d2 ((d2.sched.flights.filter (fun x => x.done.isNone)).map (·.id)))
      let d4 := if cause = 3 then disablePorts d3
        else d3.forEach ((List.range 16).filter d3.portUp) (fun d p => d.modPort p (fun q => { q with closing := true }))
      d4.setSec (fun x => { x with ready := false })

/-- DEVICE_FENCE (R34). -/
def execDeviceFence (cause : Nat) (s : State) : Host.Outcome State Fault Refusal :=
  .next { s with dev := deviceFence s.dev cause }

/-- DM_WATCHDOG_EXPIRY: the second device fault of R33. -/
def execDmWatchdogExpiry (s : State) : Host.Outcome State Fault Refusal := .next { s with dev := deviceFence s.dev 2 }

/-- Power is removed for a fault: its event, the device fault of R33 item 4, the rails (R500). -/
def trip (d : Dev) (code : Nat) (detail : Bytes) : Dev :=
  if !d.pow.pwrOk ∨ d.pow.latched then d
  else
    let d1 := d.event code 4 7 0 detail
    railsDown (if d1.pow.deviceFenced then d1 else fenceNoted d1 4)

/-! ### PWR_OK, MOD_RST_N, the rails (R502 to R504, R366) -/

/-- PWR_OK_ASSERT: power-good. The SID is sampled, the rails come up, the power-up is counted; BOOT follows. -/
def pwrOkAssert (d : Dev) (sid : Nat) : Dev :=
  if d.pow.pwrOk then d
  else
    let d1 := d.setPow (fun p => { p with pwrOk := true, rails := 5, latched := false })
    let d2 := ((d1.dset O.MEMBER_SID (sid % 64)).dset O.MGMT_PLCA_ID (sid % 64 + 1)).bump O.POWER_CYCLES
    d2.setSec (fun x => { x with bootCause := 0 })

def execPwrOkAssert (sid : Nat) (s : State) : Host.Outcome State Fault Refusal :=
  .next { s with dev := pwrOkAssert s.dev sid }

/-- PWR_OK_DEASSERT: power goes. It is no fault. The pins that the tray drives stay as they are. -/
def pwrOkDeassert (d : Dev) : Dev :=
  if !d.pow.pwrOk then d
  else (powerOff d).setPow (fun p => { p with rstN := d.pow.rstN, wakeN := d.pow.wakeN })

def execPwrOkDeassert (s : State) : Host.Outcome State Fault Refusal := .next { s with dev := pwrOkDeassert s.dev }

/-- MOD_RST_N: low, every core is held in reset; on its release BOOT follows with cause 1. -/
def modRstN (d : Dev) (level : Bool) : Dev :=
  if level = d.pow.rstN then d
  else
    let d1 := d.setPow (fun p => { p with rstN := level })
    if level ∨ !d.pow.pwrOk ∨ d.pow.latched then d1 else resetCores d1 1

def execModRstN (level : Bool) (s : State) : Host.Outcome State Fault Refusal := .next { s with dev := modRstN s.dev level }

/-- RAIL_FAULT (R503). -/
def execRailFault (step : Nat) (s : State) : Host.Outcome State Fault Refusal :=
  .next { s with dev := if 1 ≤ step ∧ step ≤ 5 then trip s.dev 0x0A85 (leBytes 1 step) else s.dev }

/-! ### The input (R500, R501, R519) -/

/-- INPUT_SAMPLE: measured every 100 us; INPUT_LOW and INPUT_HIGH once per entry into their bands, and once per excursion
above 60 V. -/
def inputSample (d : Dev) (mv ma : Nat) (excursion : Option Nat) : Dev :=
  if !d.pow.pwrOk ∨ !d.sec.running then d
  else
    let low := decide (42000 ≤ mv ∧ mv < 44000)
    let high := decide (58000 < mv ∧ mv ≤ 60000)
    let d1 := ((d.dset O.INPUT_MV (mv % 2 ^ 32)).dset O.INPUT_MA (ma % 2 ^ 32)).dset O.INPUT_W (Config.inputWatts mv ma % 2 ^ 32)
    let d2 := if low && !d.pow.inLow then d1.event 0x0A83 2 7 0 (leBytes 2 mv) else d1
    let d3 := if high && !d.pow.inHigh then d2.event 0x0A88 2 7 0 (leBytes 1 1 ++ leBytes 2 mv) else d2
    let d4 := match excursion with
      | some v => d3.event 0x0A88 2 7 0 (leBytes 1 2 ++ leBytes 2 (Nat.min v 65535))
      | none => d3
    d4.setPow (fun p => { p with inLow := low, inHigh := high })

def execInputSample (mv ma : Nat) (excursion : Option Nat) (s : State) : Host.Outcome State Fault Refusal :=
  .next { s with dev := inputSample s.dev mv ma excursion }

/-- INPUT_FAULT (R500). -/
def execInputFault (isOver : Bool) (mv : Nat) (s : State) : Host.Outcome State Fault Refusal :=
  .next { s with dev := trip s.dev 0x0A84 (leBytes 1 (if isOver then 2 else 1) ++ leBytes 2 (Nat.min mv 65535)) }

/-- POWER_CAP_ADJUST (R501): a demand above the cap holds issue back for the next 1 ms; the hold is counted whole. -/
def powerCapAdjust (d : Dev) (demandW : Nat) : Dev :=
  if d.pow.pwrOk && decide (d.dget O.POWER_CAP_W < demandW) then d.bumpN O.CAP_THROTTLE_NS 1000000 else d

def execPowerCapAdjust (demandW : Nat) (s : State) : Host.Outcome State Fault Refusal :=
  .next { s with dev := powerCapAdjust s.dev demandW }

/-! ### Temperatures (R512) -/

/-- A sensor's reading in whole degrees, one byte. -/
def degC (deciC : Int) : Bytes := leBytes 1 (clampI 0 255 (deciC / 10)).toNat

/-- A die sensor reads a value. -/
def sensed (d : Dev) (sensor : Nat) (deciC : Int) : Dev := d.dset (O.DIE_TEMP_C sensor) (toUns 32 deciC)

/-- THERMAL_HOLD: a die at 95 degrees; the event once per entry. -/
def thermalHold (d : Dev) (sensor : Nat) (deciC : Int) : Dev :=
  if 25 ≤ sensor ∨ deciC < 950 ∨ !d.pow.pwrOk ∨ d.pow.latched then d
  else
    let d1 := sensed d sensor deciC
    if d.pow.hold then d1
    else (d1.setPow (fun p => { p with hold := true })).event 0x0A86 2 7 0 (leBytes 1 sensor ++ degC deciC)

def execThermalHold (sensor : Nat) (deciC : Int) (s : State) : Host.Outcome State Fault Refusal :=
  .next { s with dev := thermalHold s.dev sensor deciC }

/-- A sensor known to read below 92 degrees and nothing more: a free value below that bound (log 77). -/
def cooled (d : Dev) (sensor : Nat) : Dev :=
  if toSgn 32 (d.dget (O.DIE_TEMP_C sensor)) < 920 then d
  else
    let w := d.drawWord
    w.2.dset (O.DIE_TEMP_C sensor) (toUns 32 (919 - ((w.1.toNat % (2 ^ 31 + 920) : Nat) : Int)))

/-- THERMAL_HOLD_END: every die is below 92 degrees. -/
def thermalHoldEnd (d : Dev) (heldNs : Nat) : Dev :=
  if !d.pow.hold then d
  else (((d.setPow (fun p => { p with hold := false })).bumpN O.THERMAL_HOLD_NS heldNs).forEach (List.range 25) cooled)

def execThermalHoldEnd (heldNs : Nat) (s : State) : Host.Outcome State Fault Refusal :=
  .next { s with dev := thermalHoldEnd s.dev heldNs }

/-- THERMAL_TRIP: a die at 110 degrees removes power as in R500. -/
def thermalTrip (d : Dev) (sensor : Nat) (deciC : Int) : Dev :=
  if 25 ≤ sensor ∨ deciC < 1100 then d
  else trip (sensed d sensor deciC) 0x0A87 (leBytes 1 sensor ++ degC deciC)

def execThermalTrip (sensor : Nat) (deciC : Int) (s : State) : Host.Outcome State Fault Refusal :=
  .next { s with dev := thermalTrip s.dev sensor deciC }

end Sys2Proof.Machine
end

