-- ==== Sys2Proof/Machine/Security.lean ====
section
/-! DEFINITION. Boot, images, updates, attestation and debug access (R295, R370, R483 to R497): BOOT, DEVICE_READY, the
image transfer and the security core's own steps. -/

namespace Sys2Proof.Machine

/-! ### Images (R485, R486) -/

def imageSize : Nat := 16777216

/-- Bytes of the image area of the flash; what is not listed is erased. -/
def flashImage (d : Dev) (o n : Nat) : Bytes := SMap.readRun 0xFF d.sec.image o n

def bufferImage (d : Dev) (o n : Nat) : Bytes := SMap.readRun 0 d.sec.buffer o n

/-- A header as a number, and its fields. -/
def imBodyLen (h : Nat) : Nat := fld h 64 32
def imVersion (h : Nat) : Nat := fld h 96 32
def imSvn (h : Nat) : Nat := fld h 128 32
def imFloor (h : Nat) : Nat := fld h 160 32
def imKey (h : Nat) : Nat := fld h 192 2
def imRevoke (h : Nat) : Nat := fld h 194 4

/-- BODY_LEN of an image that fits the area. -/
def imLenOk (h : Nat) : Bool := decide (65536 ≤ imBodyLen h ∧ imBodyLen h ≤ 16776704)

/-- The digest of header bytes 0 to 415 and the body. -/
def imDigest (hdr body : Bytes) : BitVec 384 := Config.sha384 (hdr.take 416 ++ body)

/-- The first failing condition of R486, counted from 1; none when the image is valid. -/
def imageFault (o : Otp) (hdr body : Bytes) : Option Nat :=
  let h := leAt hdr 0 512
  if fld h 0 32 ≠ 0x4F5A3237 ∨ fld h 32 32 ≠ 1 then some 1
  else if imLenOk h = false then some 2
  else if fld h 198 3130 ≠ 0 then some 3
  else if imSvn h < imFloor h ∨ 64 < imFloor h ∨ bit (imRevoke h) (imKey h) then some 4
  else if o.revoked.getLsbD (imKey h) then some 5
  else if imSvn h < o.minSvn then some 6
  else if Config.fwSigOk (imKey h) (imDigest hdr body) ((hdr.drop 416).take 96) then none
  else some 7

/-- The body that a header announces, read only where its length is in range. -/
def bodyOf (hdr : Bytes) (rd : Nat → Nat → Bytes) : Bytes :=
  if imLenOk (leAt hdr 0 512) then rd 512 (imBodyLen (leAt hdr 0 512)) else []

/-! ### Boot (R487) -/

/-- One-time storage after the boot of an image: bits are only ever blown (R484, R486). -/
def burn (o : Otp) (h : Nat) : Otp :=
  { o with revoked := o.revoked ||| BitVec.ofNat 4 (imRevoke h), minSvn := Nat.max o.minSvn (imFloor h) }

/-- The persisted copy in force: of those that are good the one of the higher generation (R459). -/
def persistedVals (m : Mgmt) : SMap Nat :=
  if m.copyA.kind = 1 ∧ (m.copyB.kind ≠ 1 ∨ m.copyB.gen < m.copyA.gen) then m.copyA.vals
  else if m.copyB.kind = 1 then m.copyB.vals
  else []

/-- RWP values come from the persisted area; the other copy is erased in the background unless it is (R459). -/
def loadPersisted (d : Dev) : Dev :=
  let d1 := d.forEach (persistedVals d.mgmt) (fun d p => d.dset p.1 p.2)
  let m := d.mgmt
  { d1 with mgmt := { m with
      erasing := if m.copyA.kind = 1 ∧ (m.copyB.kind ≠ 1 ∨ m.copyB.gen < m.copyA.gen) then decide (m.copyB.kind ≠ 0)
                 else decide (m.copyA.kind ≠ 0) } }

/-- The cores run: objects of the image, the persisted values, the events in the order they came. -/
def released (d : Dev) (cause h : Nat) (digest : Bytes) : Dev :=
  let d1 := loadPersisted ((d.dset O.FW_VERSION (imVersion h)).dset O.FW_SVN (imSvn h))
  let d2 := { d1 with blobs := SMap.put [] d1.blobs O.FW_DIGEST digest }
  let d3 := (d2.setSec (fun x => { x with running := true, recovery := false, oldVersion := none })).dset
    O.ATTEST_STATE (if d.sec.identity then 0 else 3)
  let d4 := (flushEarly d3).event 0x0001 1 7 0 (leBytes 1 cause)
  match d.sec.oldVersion with
  | some v => d4.event 0x0A03 1 7 0 (leBytes 4 v ++ leBytes 4 (imVersion h))
  | none => d4

/-- Every port starts to train (R358, R370, R488). -/
def startPorts (d : Dev) : Dev := d.forEach (List.range 16) (fun d p => d.dset (O.PORT_STATE p) 1)

/-- The boot ROM's work on the flash image. -/
def boot (s : State) (cause : Nat) : State :=
  let d := s.dev
  if !d.pow.pwrOk ∨ d.pow.latched ∨ !d.pow.rstN ∨ d.sec.running ∨ d.sec.recovery ∨ cause ≠ d.sec.bootCause then s
  else
    let hdr := flashImage d 0 512
    let body := bodyOf hdr (flashImage d)
    match imageFault s.otp hdr body with
    | some c =>
      { s with dev := (startPorts (d.event 0x0A01 3 7 0 (leBytes 1 c))).setSec (fun x => { x with recovery := true }) }
    | none =>
      let h := leAt hdr 0 512
      let o := burn s.otp h
      let d1 := if o.revoked = s.otp.revoked then d else d.event 0x0A05 2 7 0 (leBytes 1 o.revoked.toNat)
      { s with otp := o, dev := released d1 cause h (leBytes 48 (imDigest hdr body).toNat) }

/-- BOOT (R487). -/
def execBoot (cause : Nat) (s : State) : Host.Outcome State Fault Refusal := .next (boot s cause)

/-! ### Device-ready (R295, R370) -/

/-- Frames retired in a unit, as the ledger has them (R292, R293). -/
def framesRetired (d : Dev) (unit : Nat) : Nat :=
  if unit < 12 then
    (d.mc.retired.filter (fun r => r.1 == unit)).length +
    sumNat ((((d.mc.retiredPcs.filter (fun p => p.1 == unit)).map (fun p => p.2 / 4)).dedup).map (countClass 65536 11718750 8))
  else (d.mc.retired.filter (fun r => r.1 == 12 && r.2 % 32 == unit - 12)).length

/-- The controllers take the ledger's entries and show them. -/
def restoreLedger (d : Dev) : Dev :=
  let d1 := d.setMc (fun m => { m with
    remaps := m.ledgerRemaps
    dead := m.ledgerDead
    retired := m.ledgerRetired
    retiredPcs := m.ledgerPcs
    spareUsed := (List.range 12).foldl (fun u s =>
      SMap.put 0 u s ((m.ledgerRetired.filter (fun r => r.1 == s && decide (r.2 < 65536))).length)) [] })
  let d2 := d1.forEach (List.range 44) (fun d u => (showTables d u).dset (mcKey u 8) (framesRetired d u))
  d2.forEach d2.mc.retiredPcs (fun d p => d.dset (O.STACK_PC_RETIRED p.1) (setFld (d.dget (O.STACK_PC_RETIRED p.1)) p.2 1 1))

/-- Entries of a unit whose hard repair is asked for: the first 16 that wait, by place in the table. -/
def repairAsks (d : Dev) (unit : Nat) : List Nat :=
  ((d.mc.remaps.zipIdx.filter (fun e => e.1.unit == unit && e.1.hardPending)).map (·.2)).take 16

/-- Hard repair of the rows that wait; those of `fails` are refused or do not verify, and stay soft. -/
def hardRepair (d : Dev) (fails : List Nat) : Dev :=
  let done := ((List.range 44).flatMap (repairAsks d)).filter (fun i => !fails.contains i)
  let d1 := d.forEach done (fun d i => match d.mc.remaps[i]? with | some e => d.bump (mcKey e.unit 9) | none => d)
  let d2 := ledger (d1.setMc (fun m => { m with remaps := (m.remaps.zipIdx.filter (fun e => !done.contains e.2)).map (·.1) }))
  d2.forEach (List.range 44) showTables

/-- A block fails its self-test (R22 item 5); a stack or a package its training (R293). -/
def selfTest (d : Dev) (badBlocks badStacks badPkgs : List Nat) : Dev :=
  let d1 := d.forEach badBlocks (fun d b => retireBlock d b 5)
  let d2 := d1.forEach badStacks (fun d s => if s < 12 then stackLost d s 2 else d)
  let many := (List.range 12).filter (fun s => decide (4 < (d2.mc.retiredPcs.filter (fun p => p.1 == s)).length))
  let d3 := d2.forEach many (fun d s => stackLost d s 1)
  d3.forEach badPkgs (fun d p => if p < 32 then losePackage d p 2 else d)

/-- DEVICE_READY: the firmware runs and phase 1 ends; the ports start to train. -/
def deviceReady (d : Dev) (badBlocks badStacks badPkgs repairFails : List Nat) : Dev :=
  if !d.sec.running ∨ d.sec.ready ∨ d.pow.rails < 5 then d
  else
    let d1 := selfTest (hardRepair (restoreLedger d) repairFails) badBlocks badStacks badPkgs
    startPorts (d1.setSec (fun x => { x with ready := true }))

def execDeviceReady (badBlocks badStacks badPkgs repairFails : List Nat) (s : State) : Host.Outcome State Fault Refusal :=
  .next { s with dev := deviceReady s.dev badBlocks badStacks badPkgs repairFails }

/-! ### Image transfer, the requester's side (R488 to R491, R496) -/

/-- The outstanding IMAGE_REQ: the header first, then the rest in order (log 78). -/
def nextPart (f : Fetch) : Nat × Nat :=
  match f.total with
  | none => (0, 512)
  | some n => (f.got, Nat.min 65472 ((n - f.got + 63) / 64 * 64))

def askImage (d : Dev) (o : Otp) (f : Fetch) : Dev :=
  let p := nextPart f
  (d.setSec (fun x => { x with fetch := some f })).sendOn f.port none
    ⟨4, ⟨0x40, 0, 0, false, 0, false, 0, 0, 0⟩, leBytes 16 (at' 0 32 p.1 + at' 32 16 p.2 + at' 64 32 o.minSvn)⟩

/-- Ports to ask, the host port first, then the module ports in rising order. -/
def imagePorts (d : Dev) : List Nat :=
  (List.range 16).filter (fun p => d.portUp p && d.isHostPort p) ++ (List.range 16).filter (fun p => d.portUp p && !d.isHostPort p)

/-- One attempt of the recovery, over the ports that are up. -/
def tryPorts (d : Dev) (o : Otp) : List Nat → Dev
  | [] =>
    let d1 := d.setSec (fun x => { x with fetch := none, retryWait := true })
    d1.setRec { d1.recd with alert := true }
  | p :: ps => askImage d o ⟨false, p, ps, 0, none⟩

/-- A port has come up: the request outstanding on it is repeated (R496); in recovery the first port to come up is asked at once
(log 78). -/
def recoveryPump (d : Dev) (o : Otp) (p : Nat) : Dev :=
  match d.sec.fetch with
  | some f => if f.port = p then askImage d o f else d
  | none => if d.sec.recovery ∧ !d.sec.retryWait ∧ imagePorts d ≠ [] then tryPorts d o (imagePorts d) else d

/-- RECOVERY_RETRY (R488). -/
def recoveryRetry (d : Dev) (o : Otp) : Dev :=
  if d.sec.recovery ∧ d.sec.retryWait then tryPorts (d.setSec (fun x => { x with retryWait := false })) o (imagePorts d) else d

def execRecoveryRetry (s : State) : Host.Outcome State Fault Refusal := .next { s with dev := recoveryRetry s.dev s.otp }

/-- An update fails before writing. -/
def updateFailed (d : Dev) (cond : Nat) : Dev :=
  ((d.setSec (fun x => { x with fetch := none })).dset O.FW_UPDATE_STATE 4).event 0x0A04 2 7 0 (leBytes 1 cond)

/-- The port asked gives no image: an update fails, a recovery asks the next port. -/
def portGivesNone (d : Dev) (o : Otp) (f : Fetch) : Dev :=
  if f.update then updateFailed d 0 else tryPorts d o f.left

/-- IMAGE_FETCH_TIMEOUT (R496): no answer for 1 s. -/
def imageFetchTimeout (d : Dev) (o : Otp) : Dev :=
  match d.sec.fetch with
  | none => d
  | some f => portGivesNone d o f

def execImageFetchTimeout (s : State) : Host.Outcome State Fault Refusal :=
  .next { s with dev := imageFetchTimeout s.dev s.otp }

/-- The verified image goes to flash and the module restarts as at MOD_RST_N, POWER_UP cause 2 (R490, R491). -/
def installImage (d : Dev) (f : Fetch) (n h : Nat) : Dev :=
  let d1 := d.setSec (fun x => { x with
    image := SMap.runOf 0xFF 0 (bufferImage d 0 n)
    installed := true
    oldVersion := if f.update then some (d.dget O.FW_VERSION) else none })
  let d2 := if f.update then d1
    else d1.event 0x0A02 2 7 0 (leBytes 1 f.port ++ leBytes 4 (imVersion h) ++ leBytes 4 (imSvn h))
  resetCores d2 2

/-- The whole image stands in the buffer: it is checked under R486. -/
def imageWhole (d : Dev) (o : Otp) (f : Fetch) : Dev :=
  let d0 := if f.update then d.dset O.FW_UPDATE_STATE 2 else d
  let hdr := bufferImage d 0 512
  match imageFault o hdr (bodyOf hdr (bufferImage d)) with
  | some c => if f.update then updateFailed d0 c else tryPorts d0 o f.left
  | none => installImage (if f.update then d0.dset O.FW_UPDATE_STATE 3 else d0) f (512 + imBodyLen (leAt hdr 0 512)) (leAt hdr 0 512)

/-- A part of the image arrives: it is stored, and the next part is asked for. A header whose BODY_LEN is out of range ends
the fetch: the image is invalid. -/
def imagePart (d : Dev) (o : Otp) (f : Fetch) (data : Bytes) : Dev :=
  let d1 := d.setSec (fun x => { x with buffer := SMap.writeRun 0 x.buffer f.got data })
  match f.total with
  | none =>
    let h := leAt data 0 512
    let f1 := { f with got := 512, total := some (512 + imBodyLen h) }
    if imLenOk h then askImage d1 o f1 else imageWhole d1 o f1
  | some n =>
    let f1 := { f with got := f.got + data.length }
    if n ≤ f1.got then imageWhole d1 o f1 else askImage d1 o f1

/-- Layout of IMAGE_DATA. -/
def imageDataOk (m : Msg) : Bool :=
  let w := leAt m.body 0 16
  decide (16 ≤ m.body.length) && m.body.length == 16 + fld w 32 16

/-- A neighbour message of MGMT on a port that is up. -/
def mgmtRx (d : Dev) (port : Nat) (m : Msg) (kind : Nat) (layout : Bool) (f : Dev → Dev) : Dev :=
  if !d.portUp port ∨ m.vc ≠ 4 ∨ m.hdr.kind ≠ kind then d else if !layout then protoFault d port else f d

/-- IMAGE_DATA that answers the outstanding request; any other is not wanted. -/
def imageData (d : Dev) (o : Otp) (port : Nat) (m : Msg) : Dev :=
  match d.sec.fetch with
  | none => d
  | some f =>
    let w := leAt m.body 0 16
    if f.port ≠ port ∨ fld w 0 32 ≠ (nextPart f).1 then d
    else if fld w 48 8 ≠ 0 ∨ fld w 32 16 ≠ (nextPart f).2 then portGivesNone d o f
    else imagePart d o f (m.body.drop 16)

/-- IMAGE_DATA (R489, R490). -/
def imageDataArrives (d : Dev) (o : Otp) (port : Nat) (m : Msg) : Dev :=
  mgmtRx d port m 0x41 (imageDataOk m) (fun d => imageData d o port m)

def execImageData (port : Nat) (m : Msg) (s : State) : Host.Outcome State Fault Refusal :=
  .next { s with dev := imageDataArrives s.dev s.otp port m }

/-! ### Image transfer, the holder's side (R489, R496) -/

def imageReqOk (m : Msg) : Bool :=
  let n := fld (leAt m.body 0 16) 32 16
  m.body.length == 16 && n % 64 == 0 && decide (64 ≤ n ∧ n ≤ 65472)

/-- A device-ready module answers from its own flash; one in recovery, or not yet ready, has no image (1); one whose image
has too low an SVN answers 2. -/
def imageReq (d : Dev) (port : Nat) (m : Msg) : Dev :=
  let w := leAt m.body 0 16
  let st := if !d.sec.ready then 1 else if d.dget O.FW_SVN < fld w 64 32 then 2 else 0
  let n := if st = 0 then fld w 32 16 else 0
  d.sendOn port none ⟨4, ⟨0x41, 0, 0, false, 0, false, 0, 0, 0⟩,
    leBytes 16 (at' 0 32 (fld w 0 32) + at' 32 16 n + at' 48 8 st) ++ flashImage d (fld w 0 32) n⟩

/-- IMAGE_REQ (R489). -/
def imageReqArrives (d : Dev) (port : Nat) (m : Msg) : Dev :=
  mgmtRx d port m 0x40 (imageReqOk m) (fun d => imageReq d port m)

def execImageReq (port : Nat) (m : Msg) (s : State) : Host.Outcome State Fault Refusal :=
  .next { s with dev := imageReqArrives s.dev port m }

/-! ### Updates (R491) -/

/-- Every job context is FREE. -/
def allJobsFree (d : Dev) : Bool := (List.range 64).all (fun j => d.dget (O.JOB_STATE j) == 0)

def updateRuns (d : Dev) : Bool := decide (1 ≤ d.dget O.FW_UPDATE_STATE ∧ d.dget O.FW_UPDATE_STATE ≤ 3)

/-- A write of 1 to FW_UPDATE_CMD; false when it is refused with STATE. A source that is no port that is up gives no image. -/
def fwUpdate (d : Dev) (o : Otp) : Bool × Dev :=
  if !allJobsFree d ∨ updateRuns d ∨ d.sec.unlocking then (false, d)
  else
    let p := d.dget O.FW_UPDATE_SOURCE
    let d1 := d.planStarts.dset O.FW_UPDATE_STATE 1
    (true, if d1.portUp p then askImage d1 o ⟨true, p, [], 0, none⟩ else updateFailed d1 0)

/-- FW_UPDATE_CMD (R491). -/
def execFwUpdateCmd (s : State) : Host.Outcome State Fault Refusal := .next { s with dev := (fwUpdate s.dev s.otp).2 }

/-! ### Attestation (R492, R493) -/

/-- A write of ATTEST_NONCE; false when it is refused with STATE. -/
def attestNonce (d : Dev) (nonce : Bytes) : Bool × Dev :=
  if d.dget O.ATTEST_STATE = 1 ∨ d.dget O.ATTEST_STATE = 3 ∨ !d.sec.identity ∨ d.sec.unlocking then (false, d)
  else (true, (d.setSec (fun x => { x with nonce := fitBytes 32 nonce })).dset O.ATTEST_STATE 1)

/-- ATTEST_NONCE: a nonce is 32 bytes. -/
def execAttestNonce (nonce : Bytes) (s : State) : Host.Outcome State Fault Refusal :=
  .next { s with dev := if nonce.length = 32 then (attestNonce s.dev nonce).2 else s.dev }

/-- Bytes 0 to 159 of a report. -/
def reportHead (d : Dev) (o : Otp) : Bytes :=
  leBytes 2 1 ++ leBytes 2 256 ++ ownSerial ++ fitBytes 8 (ascii "OZ-2760") ++ ascii "B0" ++ leBytes 2 0 ++
  fitBytes 32 d.sec.nonce ++ fitBytes 48 (SMap.get [] d.blobs O.FW_DIGEST) ++ leBytes 4 (d.dget O.FW_VERSION) ++
  leBytes 4 (d.dget O.FW_SVN) ++ leBytes 4 o.minSvn ++ leBytes 4 o.debugOpened ++ leBytes 4 (d.dget O.POWER_CYCLES) ++
  leBytes 4 (bool01 d.sec.installed + o.revoked.toNat * 2) ++ leBytes 8 d.calendar ++ leBytes 2 (d.dget O.DEVICE_ID) ++
  leBytes 14 0

/-- ATTEST_SIGN_DONE. -/
def attestSigned (d : Dev) (o : Otp) : Dev :=
  if d.dget O.ATTEST_STATE ≠ 1 then d
  else
    let h := reportHead d o
    { d.dset O.ATTEST_STATE 2 with
      blobs := SMap.put [] d.blobs O.ATTEST_REPORT (h ++ fitBytes 96 (Config.identitySign h)) }

def execAttestSignDone (s : State) : Host.Outcome State Fault Refusal := .next { s with dev := attestSigned s.dev s.otp }

/-! ### Debug access (R494, R495) -/

/-- A read of UNLOCK_CHALLENGE: fresh random bytes that replace the earlier challenge. -/
def newChallenge (d : Dev) : Dev := d.drawBytes.2.setSec (fun x => { x with challenge := some d.drawBytes.1 })

def execUnlockChallenge (s : State) : Host.Outcome State Fault Refusal := .next { s with dev := newChallenge s.dev }

/-- What is wrong with a token: 1 format, 2 serial, 3 challenge, 4 signature; 0 nothing. Bytes 50 to 63 belong to the
format. -/
def tokenFault (d : Dev) (t : Bytes) : Nat :=
  if leAt t 0 2 ≠ 1 ∨ leAt t 50 14 ≠ 0 ∨ t.length ≠ 160 then 1
  else if (t.drop 2).take 16 ≠ ownSerial then 2
  else if d.sec.challenge ≠ some ((t.drop 18).take 32) then 3
  else if Config.debugSigOk (t.take 64) (t.drop 64) then 0 else 4

/-- A token is refused with STATE. -/
def tokenRefused (s : State) : Bool :=
  !allJobsFree s.dev || updateRuns s.dev || s.dev.sec.unlocking || decide (255 ≤ s.otp.debugOpened) || s.dev.sec.debugOpen

/-- Steps 3 to 5: session keys and identity key go, every SRAM and memory is zeroed (log 79). -/
def eraseAll (d : Dev) : Dev :=
  { d with
    mem := Mem.zero
    store := Dev.reset.store
    red := Dev.reset.red
    srv := Dev.reset.srv
    blk := { d.blk with progCopy := [] }
    sched := { d.sched with sems := [], barriers := [], heldTokens := [] }
    mbox := []
    sec := { d.sec with
      identity := false, session := false, buffer := [], unlocking := true, challenge := none } }

/-- A write of UNLOCK_TOKEN; false when it is refused with STATE. The challenge is consumed by the first token accepted. -/
def tokenWrite (s : State) (t : Bytes) : Bool × State :=
  if tokenRefused s then (false, s)
  else
    let d1 := s.dev.setSec (fun x => { x with challenge := none })
    let f := tokenFault s.dev t
    if f ≠ 0 then (true, { s with dev := (d1.dset O.DEBUG_STATE 3).event 0x0A07 2 7 0 (leBytes 1 f) })
    else
      (true, { s with
        otp := { s.otp with debugOpened := s.otp.debugOpened + 1 }
        dev := ((eraseAll d1).dset O.DEBUG_STATE 1).dset O.ATTEST_STATE 3 })

/-- UNLOCK_TOKEN (R495). -/
def execUnlockToken (token : Bytes) (s : State) : Host.Outcome State Fault Refusal := .next (tokenWrite s token).2

/-- UNLOCK_ERASE_DONE: step 6, or the failure of step 5. -/
def unlockErased (d : Dev) (o : Otp) (ok : Bool) : Dev :=
  if !d.sec.unlocking then d
  else
    let d1 := (if ok then d.planStarts else d).setSec (fun x => { x with unlocking := false, debugOpen := ok })
    if ok then (d1.dset O.DEBUG_STATE 2).event 0x0A06 3 7 0 (leBytes 1 o.debugOpened)
    else (d1.dset O.DEBUG_STATE 3).event 0x0A07 2 7 0 (leBytes 1 5)

def execUnlockEraseDone (ok : Bool) (s : State) : Host.Outcome State Fault Refusal :=
  .next { s with dev := unlockErased s.dev s.otp ok }

end Sys2Proof.Machine
end

