-- ==== Sys2Proof/Machine/Lull.lean ====
section
/-! DEFINITION. Entering Lull (R505, R506, R509, R510) and what a neighbour does about it. -/

namespace Sys2Proof.Machine

/-- Entry is refused with STATE (R505, R509). -/
def lullRefused (d : Dev) : Bool :=
  (List.range 64).any (fun j => d.dget (O.JOB_STATE j) == 1 || d.dget (O.JOB_STATE j) == 3) ||
  !d.sched.flights.isEmpty || !d.store.moves.isEmpty || !d.store.held.isEmpty || !d.red.ctxs.isEmpty ||
  !d.sched.barriers.isEmpty || updateRuns d || d.sec.unlocking || d.dget O.RECORDER_STATE == 1 ||
  d.dget O.RECORDER_STATE == 3 || !d.pow.wakeN || d.dget O.LULL_STATE != 0 || !d.sec.running

/-- LULL_NOTE to every neighbour that is awake, the host adapter included (R510): 0 entering, 1 awake. -/
def lullNotes (d : Dev) (v : Nat) : Dev :=
  d.forEach ((List.range 16).filter (fun p => d.portUp p && !(d.port p).peerLull)) (fun d p =>
    d.sendOn p none ⟨4, ⟨0x50, 0, 0, false, 0, false, 0, 0, 0⟩, leBytes 1 v⟩)

/-- A port has nothing to send and nothing unacknowledged. -/
def Port.quiet (q : Port) : Bool := q.lcq.isEmpty && q.txq.isEmpty && q.replay.isEmpty && q.resend.isEmpty

/-- Steps 4 to 7 of R506, once every port is quiet: the compute dies are power-gated, what they held is saved. -/
def lullProgress (d : Dev) : Dev :=
  if d.dget O.LULL_STATE ≠ 1 ∨ !((List.range 16).filter d.portUp).all (fun p => (d.port p).quiet) then d
  else
    let d0 := d.setPow (fun p => { p with saved := some ⟨d.mem.acc, d.mem.rows, d.mem.opb, d.mem.shadow, d.mem.prog⟩ })
    let d1 := d0.setMem (fun m => { m with acc := [], rows := [], opb := [], shadow := [], prog := [] })
    ((d1.dset O.LULL_STATE 2).bump O.LULL_ENTRIES).event 0x0A81 0 7 0 []

/-- Steps 1 to 3 of R506. -/
def lullEnter (d : Dev) : Dev :=
  lullProgress (lullNotes (d.planStarts.dset O.LULL_STATE 1) 0)

/-- LULL_ENTER: LULL_CMD 1. -/
def execLullEnter (s : State) : Host.Outcome State Fault Refusal :=
  .next { s with dev := if lullRefused s.dev then s.dev else lullEnter s.dev }

/-- Credits that a module advertises (R348). -/
def advertised : List Nat := [512, 512, 2816, 2816, 64, 128, 64, 1280]

/-- HELLO of this module for a port (R357). -/
def helloFrame (d : Dev) (p : Nat) : Bytes :=
  leBytes 2 1 ++ leBytes 2 (d.dget O.DEVICE_ID) ++ ownSerial ++ leBytes 1 p ++ leBytes 1 1

/-- CREDIT_INIT of this module (R348, R357). -/
def creditFrame : Bytes := leBytes 2 2 ++ advertised.flatMap (leBytes 2)

/-- Steps 3 and 4 of R358: numbering starts at SSEQ 0, HELLO and CREDIT_INIT go out; queued frames stay queued. -/
def relink (d : Dev) (p : Nat) : Dev :=
  let q := d.port p
  let d1 := d.setPort p { q with
    helloIn := false, creditIn := false, txSseq := 0, rxGood := 4095, nak := false, replay := [], resend := [],
    attempts := 0, lcq := [], credits := [0, 0, 0, 0, 0, 0, 0, 0], spent := [], granted := advertised,
    rxPart := [[], [], [], [], [], [], [], []] }
  (d1.emitLc p (helloFrame d1 p)).emitLc p creditFrame

/-- LULL_NOTE of a neighbour: 0 it enters, 1 it is awake. PORT_STATE and the routes stay. -/
def lullNote (d : Dev) (port v : Nat) : Dev :=
  d.modPort port (fun q => { q with peerLull := v == 0 })

/-- LULL_NOTE (R510). -/
def lullNoteArrives (d : Dev) (port : Nat) (m : Msg) : Dev :=
  mgmtRx d port m 0x50 (m.body.length == 1 && decide (leAt m.body 0 1 ≤ 1))
                          (fun d => lullNote d port (leAt m.body 0 1))

def execLullNote (port : Nat) (m : Msg) (s : State) : Host.Outcome State Fault Refusal :=
  .next { s with dev := lullNoteArrives s.dev port m }

end Sys2Proof.Machine
end

