-- ==== Sys2Proof/Machine/Chodal.lean ====
section
/-! DEFINITION. The Chodal protocol and the dictionary as its objects behave (R77, R446 to R465): reading and writing an
object, packets, the persisted area, the reply cache, and the port's own protocols. -/

namespace Sys2Proof.Machine

/-! ### Item statuses (R457) -/

def ckOk : Nat := 0
def ckRange : Nat := 0x10
def ckDenied : Nat := 0x1F
def ckNoObject : Nat := 0x21
def ckAccess : Nat := 0x22
def ckType : Nat := 0x23
def ckLocked : Nat := 0x24
def ckState : Nat := 0x25
def ckTooBig : Nat := 0x26
def ckNotApplied : Nat := 0x27
def ckPersistFail : Nat := 0x28

/-! ### Objects (R446 to R450) -/

/-- Rows that hold an index. -/
def rowsAt (i : Nat) : List Obj := (objsOf i).filter (fun o => decide (o.base ≤ i ∧ i < o.base + o.n))

/-- Highest sub-index in use at an index that holds objects. -/
def highestSub (i : Nat) : Option Nat := if rowsAt i = [] then none else some (maxNat ((rowsAt i).map (·.hi)))

/-- The vendor test range. -/
def vendorRange (i : Nat) : Bool := decide (0x9000 ≤ i ∧ i ≤ 0x9FFF)

/-- Sub-indices above 0 that hold an object at an index of the vendor range. -/
def vendorSubs (i : Nat) : List Nat := (rangeFrom 1 255).filter (fun s => (Config.vendorObject i s).isSome)

/-- Type of a vendor object: U8 at sub-index 0, U32 above it (log 6); 0 where no object lies. -/
def vendorType (i sub : Nat) : Nat :=
  if sub = 0 then if vendorSubs i = [] then 0 else 1 else if (vendorSubs i).contains sub then 3 else 0

/-- Present value of a vendor object: the value written since power-up, else the one it holds then. -/
def vendorValue (d : Dev) (i sub : Nat) : Nat :=
  if sub = 0 then maxNat (vendorSubs i)
  else if d.dget (i * 256 + sub) = 0 then (Config.vendorObject i sub).getD 0 else d.dget (i * 256 + sub) - 1

/-- The group that GROUP_SELECT of a job names, when the job owns it (R334). -/
def selectedGroup (d : Dev) (j : Nat) : Option Nat :=
  let g := d.dget (O.GROUP_SELECT j)
  if (d.group g).valid ∧ (d.group g).job = j then some g else none

/-- GROUP_STATE, GROUP_FROZEN and SHARD_STEP of the group selected; 0 of a group the job does not own (log 82). -/
def groupObject (d : Dev) (j sub : Nat) : Nat :=
  match selectedGroup d j with
  | none => 0
  | some g =>
    let e := d.group g
    if sub = 0x30 then bool01 e.valid + 2 * bool01 e.frozen + 4 * bool01 e.inconsistent
    else if sub = 0x31 then bool01 (((d.red.frozenNext.find? (fun p => p.1 == g)).map (·.2)).getD e.frozen)
    else d.count g (sub - 0x33)

/-- Good records, as pairs of SEQ and slot content. -/
def goodRecords (d : Dev) : List (Nat × Word512) :=
  d.recd.slots.filterMap (fun e => if slotGood e.2 then some (fld e.2.toNat 0 32, e.2) else none)

/-- SEQ of the oldest record in the ring (R481). -/
def oldestSeq (d : Dev) : Nat :=
  (d.recd.slots.filter (fun e => decide (8192 ≤ e.1) && slotGood e.2)).foldl (fun m e => Nat.min m (fld e.2.toNat 0 32)) 0xFFFFFFFF

/-- RECORDER_READ: up to 15 records in SEQ order from RECORDER_READ_SEQ (R480). -/
def recorderRead (d : Dev) : Bytes :=
  ((sortBy (fun a b => decide (a.1 ≤ b.1)) ((goodRecords d).filter (fun r => decide (d.dget O.RECORDER_READ_SEQ ≤ r.1)))).take 15).flatMap
    (fun r => wordBytes r.2)

/-- Counters of times and of traffic that no command measures (log 83). -/
def unmeasured (k : Nat) : Bool :=
  let i := k / 256
  let s := k % 256
  (decide (0x5300 ≤ i ∧ i < 0x5340) && [0x21, 0x24, 0x26].contains s) ||
  (decide (0x4201 ≤ i ∧ i < 0x4240) && [0x0B, 0x0C].contains s)

/-- Such a counter may have risen: its job has had a descriptor or a loop, its memory is in use. Until then it stands as R76
leaves it. -/
def mayRise (d : Dev) (k : Nat) : Bool :=
  let i := k / 256
  if 0x5300 ≤ i then
    let j := i - 0x5300
    d.sched.flights.any (fun x => x.job == j) || (d.loopOf j).isSome || (List.range 4).any (fun q => d.dget (O.QUEUE_HEAD j q) != 0)
  else d.sec.ready

/-- A counter that no command measures has risen by a free amount since it was last read. -/
def unmeasuredRise (d : Dev) (k : Nat) : Dev :=
  if !mayRise d k then d
  else
    let a := d.drawWord
    let b := a.2.drawWord
    b.2.bumpN k (a.1.toNat + 2 ^ 32 * b.1.toNat)

/-- Present value of a numeric object that is not free. -/
def numValue (s : State) (k : Nat) : Nat :=
  let d := s.dev
  if k = O.CALENDAR_TIME then d.calendar
  else if k = O.MGMT_MAC then Config.mgmtMac.toNat
  else if k = O.SLOW_FREE then d.freeBytes 12
  else if k / 256 = 0x4001 then d.freeBytes (k % 256 - 1)
  else if k = O.SEM_STATE then (d.sem (d.dget O.SEM_SELECT)).word
  else if k = O.SEM_JOBS then (d.sem (d.dget O.SEM_SELECT)).jobs
  else if k = O.FREEZE_HELD then d.recd.holding.length
  else if k = O.OLDEST_SEQ then oldestSeq d
  else if k = O.MIN_SVN then s.otp.minSvn
  else if k = O.KEYS_REVOKED then s.otp.revoked.toNat
  else if k = O.DEBUG_OPENED then s.otp.debugOpened
  else if 0x8100 ≤ k / 256 ∧ k / 256 < 0x8140 ∧ 0x30 ≤ k % 256 ∧ k % 256 ≠ 0x32 then groupObject d (k / 256 - 0x8100) (k % 256)
  else d.dget k

/-- Content of a STR or BLOB. -/
def bytesValue (s : State) (k : Nat) : Bytes :=
  let d := s.dev
  if k = O.VENDOR_NAME then ascii "Hardilis"
  else if k = O.FAMILY_NAME then ascii "Ovsizon"
  else if k = O.PART_NUMBER then ascii "OZ-2760"
  else if k = O.STEPPING then ascii "B0"
  else if k = O.SERIAL_NUMBER then ownSerial
  else if k = O.ATTEST_CERT then Config.attestCert
  else if k = O.RECORDER_READ then recorderRead d
  else if 0x5100 ≤ k / 256 ∧ k / 256 < 0x5140 then
    (d.job (k / 256 - 0x5100)).places.map (fun p => BitVec.ofNat 8 (p.phys.getD 0xFF))
  else SMap.get [] d.blobs k

/-- What a read of an object gives: status, type, value, and the state after it (a challenge or a free value is drawn). -/
structure Reading where
  st : Nat
  ty : Nat
  val : Bytes
  after : State

def readObject (s : State) (i sub : Nat) : Reading :=
  let k := i * 256 + sub
  if vendorRange i then
    if !s.dev.sec.debugOpen then ⟨ckLocked, 0, [], s⟩
    else
      let ty := vendorType i sub
      if ty = 0 then ⟨ckNoObject, 0, [], s⟩ else ⟨ckOk, ty, leBytes (tyBytes ty) (vendorValue s.dev i sub), s⟩
  else if sub = 0 then
    match highestSub i with
    | some h => ⟨ckOk, 1, leBytes 1 h, s⟩
    | none => ⟨ckNoObject, 0, [], s⟩
  else
    match objFind i sub with
    | none => ⟨ckNoObject, 0, [], s⟩
    | some o =>
      if o.acc = 2 then ⟨ckAccess, o.ty, [], s⟩
      else if k = O.ATTEST_REPORT ∧ s.dev.dget O.ATTEST_STATE ≠ 2 then ⟨ckState, o.ty, [], s⟩
      else if k = O.UNLOCK_CHALLENGE then
        let s1 := { s with dev := newChallenge s.dev }
        ⟨ckOk, o.ty, (s1.dev.sec.challenge).getD [], s1⟩
      else if unmeasured k then
        let d1 := unmeasuredRise s.dev k
        ⟨ckOk, o.ty, leBytes (tyBytes o.ty) (d1.dget k), { s with dev := d1 }⟩
      else if o.ty = 7 ∨ o.ty = 8 then ⟨ckOk, o.ty, bytesValue s k, s⟩
      else ⟨ckOk, o.ty, leBytes (tyBytes o.ty) (numValue s k), s⟩

/-! ### Writes (R77, R275, R351, R441, R449) -/

/-- Sum of an object over the 64 contexts, `k` written with `v`. -/
def sumWith (d : Dev) (key : Nat → Nat) (k v : Nat) : Nat :=
  sumNat ((List.range 64).map (fun j => if key j = k then v else d.dget (key j)))

/-- Depth 0 or a power of two from 64 to 65,536. -/
def depthOk (v : Nat) : Bool := v == 0 || (decide (64 ≤ v ∧ v ≤ 65536) && v == 2 ^ log2 v)

/-- A binding that repeats the identity of another VALID channel (R441). -/
def bindTaken (d : Dev) (c v : Nat) : Bool :=
  bit v 36 && (List.range 256).any (fun n => n != c && bit (d.dget (O.MBOX_BIND n)) 36 && fld (d.dget (O.MBOX_BIND n)) 0 30 == fld v 0 30)

/-- Channel of an MBOX_BIND object. -/
def bindChannel (i sub : Nat) : Nat := if i = 0x5600 then sub - 1 else sub + 127

/-- The value is one the object's rule defines (R449): identity, power and link objects. -/
def rangeLow (d : Dev) (i sub v : Nat) : Bool :=
  match i, sub with
  | 0x1001, 0x03 => decide (v ≤ 511)
  | 0x1200, 0x05 => decide (v ≤ 2)
  | 0x1200, 0x06 => decide (v ≤ 3)
  | 0x1200, 0x07 => decide (v ≤ 4)
  | 0x2000, 0x04 => decide (1000 ≤ v ∧ v ≤ 2700)
  | 0x2001, 0x01 => decide (v = 1 ∨ v = 2)
  | _, _ =>
    if i = 0x1201 then decide (v < 2 ^ 48)
    else if i = 0x3020 then decide (v < 2 ^ 15)
    else if i = 0x3030 then decide (v ≤ 1)
    else if 0x3100 ≤ i ∧ i < 0x3140 then
      decide (sumWith d (fun j => O.LINK_RESERVE j (sub - 1)) (i * 256 + sub) v + 16 ≤ nth 0 advertised (sub - 1))
    else true

/-- Objects of a job's partition (R413). -/
def rangePart (sub v : Nat) : Bool :=
  match sub with
  | 0x02 => decide (1 ≤ v ∧ v ≤ 5)
  | 0x04 => decide (1 ≤ v ∧ v ≤ 144)
  | 0x05 => decide (v < 4096)
  | 0x07 => decide (v ≤ 128)
  | 0x08 => v % 65536 == 0 && decide (v ≤ 2097152)
  | 0x09 => decide (v ≤ 16)
  | 0x0A => decide (v ≤ 65536)
  | 0x0B => decide (v ≤ 15)
  | 0x0C => decide (1 ≤ v)
  | 0x0D => decide (v ≤ 1)
  | _ => if 0x10 ≤ sub then decide (v < 2 ^ 20) else true

/-- Deadline objects (R404, R405, R408, R414). -/
def rangeDeadline (sub v : Nat) : Bool :=
  match sub with
  | 0x02 => decide (v ≤ 7 ∨ v = 255)
  | 0x03 => decide (v ≤ 1)
  | 0x04 => decide (1 ≤ v)
  | 0x05 => decide (v ≤ 16)
  | _ => if 0x10 ≤ sub then fld v 8 12 != 0 else true

/-- Arithmetic and update settings (R77, R190, R334). -/
def rangeArith (d : Dev) (j sub v : Nat) : Bool :=
  match sub with
  | 0x01 => decide (v ≤ 1)
  | 0x03 => decide (v ≤ 1)
  | 0x04 => decide (v ≤ 64)
  | 0x05 => decide (v = 0 ∨ (4 ≤ v ∧ v ≤ 20))
  | 0x1B => decide (v ≤ 1)
  | 0x2D => decide (10 ≤ v ∧ v ≤ 1000000)
  | 0x2F => decide (v < 4096) && (d.group v).valid && (d.group v).job == j
  | 0x31 => (selectedGroup d j).isSome
  | 0x32 => (selectedGroup d j).isSome
  | _ => true

/-- Every object's rule. -/
def rangeOk (d : Dev) (i sub v : Nat) : Bool :=
  let j := i % 64
  if i < 0x4000 then rangeLow d i sub v
  else if 0x4100 ≤ i ∧ i < 0x4140 then
    if sub = 0x02 then decide (sumWith d O.FAST_GUARANTEE (O.FAST_GUARANTEE j) v ≤ 572778774528)
    else if sub = 0x05 then decide (sumWith d O.SLOW_GUARANTEE (O.SLOW_GUARANTEE j) v ≤ 2048000000000)
    else true
  else if i = 0x5001 then sub != 0x01 || decide (v < 1024)
  else if 0x5100 ≤ i ∧ i < 0x5140 then rangePart sub v
  else if 0x5200 ≤ i ∧ i < 0x5240 then rangeDeadline sub v
  else if 0x5500 ≤ i ∧ i < 0x5540 then if sub = 0x01 then decide (v < 2 ^ 23) else depthOk v
  else if i = 0x5600 ∨ i = 0x5601 then decide (v < 2 ^ 37) && !bindTaken d (bindChannel i sub) v
  else if i = 0x6000 then
    match sub with
    | 0x01 => decide (v = 1 ∨ v = 2)
    | 0x0A => decide (10 ≤ v ∧ v ≤ 86400)
    | 0x0D => decide (v ≤ 4)
    | _ => true
  else if i = 0x7000 then
    match sub with
    | 0x06 => decide (v ≤ 15 ∨ v = 255)
    | 0x07 => decide (v = 1)
    | _ => true
  else if 0x8100 ≤ i ∧ i < 0x8140 then rangeArith d j sub v
  else true

/-- A command object's outcome as item status and state. -/
def accepted (s : State) (r : Dev × Bool) : Nat × State := (if r.2 then ckOk else ckState, { s with dev := r.1 })

/-- JOB_CMD (R386). -/
def jobCommand (s : State) (j v : Nat) : Nat × State :=
  match v with
  | 1 => accepted s (formJob s.dev j)
  | 2 => accepted s (suspendJob s.dev j)
  | 3 => accepted s (resumeJob s.dev j)
  | 4 => accepted s (destroyJob s.dev j)
  | 5 => accepted s (reformJob s.dev j)
  | _ => (ckRange, s)

/-- LULL_CMD: 1 enters; 2 begins the wake that LULL_CMD_WAKE completes, and does nothing while the module is awake. -/
def lullCommand (s : State) (v : Nat) : Nat × State :=
  let d := s.dev
  if v = 1 then if lullRefused d then (ckState, s) else (ckOk, { s with dev := lullEnter d })
  else if d.dget O.LULL_STATE = 1 ∨ d.dget O.LULL_STATE = 2 then (ckOk, { s with dev := d.dset O.LULL_STATE 3 })
  else (ckOk, s)

/-- RECORDER_CMD (R478, R479). -/
def recorderCommand (s : State) (v : Nat) : Nat × State :=
  let st := s.dev.dget O.RECORDER_STATE
  if v = 1 then if st = 0 then (ckOk, { s with dev := freezeStart s.dev }) else (ckState, s)
  else if st = 2 then (ckOk, { s with dev := thawStart s.dev })
  else (ckState, s)

/-- What a write of a value in range does, by object; an object with no rule of its own takes the value. -/
def applyNum (s : State) (i sub v : Nat) : Nat × State :=
  let d := s.dev
  let k := i * 256 + sub
  let j := i % 64
  let put := fun (x : Dev) => (ckOk, ({ s with dev := x } : State))
  if k = O.CALENDAR_TIME then put { d with calendar := v, timeSet := true }
  else if k = O.LULL_CMD then lullCommand s v
  else if k = O.RECORDER_CMD then recorderCommand s v
  else if k = O.ALERT_CLEAR then put (if v = 1 then alertCleared d else d)
  else if k = O.FW_UPDATE_CMD then ((if (fwUpdate d s.otp).1 then ckOk else ckState), { s with dev := (fwUpdate d s.otp).2 })
  else if k = O.SEM_JOBS then put (d.setSem (d.dget O.SEM_SELECT) { d.sem (d.dget O.SEM_SELECT) with jobs := v })
  else if i = 0x5600 ∨ i = 0x5601 then
    if (d.mbox1 (bindChannel i sub)).pending then (ckState, s) else put (d.dset k v)
  else if 0x5100 ≤ i ∧ i < 0x5140 ∧ sub = 0x02 then jobCommand s j v
  else if 0x5300 ≤ i ∧ i < 0x5340 ∧ sub ≤ 0x10 then put (baselineWrite j (sub - 1) v d)
  else if 0x8100 ≤ i ∧ i < 0x8140 ∧ sub = 0x31 then
    match selectedGroup d j with
    | some g => put (d.setRed (fun r => { r with frozenNext := r.frozenNext.filter (fun p => p.1 != g) ++ [(g, v == 1)] }))
    | none => (ckRange, s)
  else if 0x8100 ≤ i ∧ i < 0x8140 ∧ sub = 0x32 then put (groupStepSet j v d)
  else put (d.dset k v)

/-- Objects of parts that Lull powers down. -/
def powersDown (i : Nat) : Bool := decide (0x3000 ≤ i ∧ i < 0x6000) || decide (0x8000 ≤ i)

/-- A numeric write: its range, then its effect; in Lull one that acts on a powered-down part waits for the wake (R464). A
persisted object takes its value at once. -/
def setNum (s : State) (o : Obj) (i sub v : Nat) : Nat × State :=
  if !rangeOk s.dev i sub v then (ckRange, s)
  else if s.dev.dget O.LULL_STATE ≠ 0 ∧ powersDown i ∧ o.acc ≠ 3 then
    (ckOk, { s with dev := s.dev.setPow (fun p => { p with deferredSets := p.deferredSets ++ [(i * 256 + sub, v)] }) })
  else applyNum s i sub v

/-- A write of a BLOB. -/
def setBlob (s : State) (k : Nat) (v : Bytes) : Nat × State :=
  if k = O.ATTEST_NONCE then
    if v.length ≠ 32 then (ckRange, s)
    else ((if (attestNonce s.dev v).1 then ckOk else ckState), { s with dev := (attestNonce s.dev v).2 })
  else if k = O.UNLOCK_TOKEN then
    if v.length ≠ 160 then (ckRange, s)
    else ((if (tokenWrite s v).1 then ckOk else ckState), (tokenWrite s v).2)
  else (ckAccess, s)

/-- A write of a vendor object while debug access is open: a later read returns the value (R449). It is kept one higher, so that
0 stands for no write. -/
def setVendor (s : State) (it : CkItem) : Nat × State :=
  let ty := vendorType it.index it.sub
  if ty = 0 then (ckNoObject, s)
  else if it.sub = 0 then (ckAccess, s)
  else if (it.ty ≠ 0 ∧ it.ty ≠ ty) ∨ it.value.length ≠ tyBytes ty then (ckType, s)
  else (ckOk, { s with dev := s.dev.dset (it.index * 256 + it.sub) (leAt it.value 0 4 + 1) })

/-- One item of a SET: status and state. TYPE 0 does not state the type (R447). -/
def setItem (s : State) (it : CkItem) : Nat × State :=
  if vendorRange it.index then if !s.dev.sec.debugOpen then (ckLocked, s) else setVendor s it
  else if it.sub = 0 ∧ highestSub it.index ≠ none then (ckAccess, s)
  else
    match objFind it.index it.sub with
    | none => (ckNoObject, s)
    | some o =>
      if o.acc = 0 then (ckAccess, s)
      else if it.ty ≠ 0 ∧ it.ty ≠ o.ty then (ckType, s)
      else if o.ty = 7 ∨ o.ty = 8 then setBlob s (it.index * 256 + it.sub) it.value
      else if it.value.length ≠ tyBytes o.ty then (ckType, s)
      else if o.ty = 6 ∧ 1 < leAt it.value 0 1 then (ckRange, s)
      else setNum s o it.index it.sub (leAt it.value 0 8)

/-- Type of an item's object, for replies; of a locked one nothing is revealed (R450). -/
def itemType (it : CkItem) (st : Nat) : Nat :=
  if vendorRange it.index then if st = ckLocked ∨ st = ckDenied then 0 else vendorType it.index it.sub
  else if it.sub = 0 ∧ highestSub it.index ≠ none then 1 else ((objFind it.index it.sub).map (·.ty)).getD 0

/-! ### The persisted area (R459) -/

/-- Keys of RWP objects. -/
def isRwp (k : Nat) : Bool := match objFind (k / 256) (k % 256) with | some o => o.acc == 3 | none => false

/-- An item that stores a persisted object. -/
def itemRwp (it : CkItem) : Bool := isRwp (it.index * 256 + it.sub)

/-- The complete set of RWP values into the erased copy, one generation up; the other copy's erase begins. -/
def persist (d : Dev) : Dev :=
  let m := d.mgmt
  let vals := keepDict isRwp d.dict
  let m1 := if m.copyA.kind = 0 then { m with copyA := ⟨1, m.copyB.gen + 1, vals⟩, erasing := decide (m.copyB.kind ≠ 0) }
    else { m with copyB := ⟨1, m.copyA.gen + 1, vals⟩, erasing := true }
  ({ d with mgmt := m1 }).bump O.PERSIST_WRITES

/-- The copy that a SET writes fails its check. -/
def copyWorn (d : Dev) : Bool := if d.mgmt.copyA.kind = 0 then d.mgmt.wornA else d.mgmt.wornB

/-- A copy that fails its check, and once more after its erase: nothing is stored, and its sector is erased again. -/
def persistFails (d : Dev) : Dev :=
  let m := d.mgmt
  let m1 := if m.copyA.kind = 0 then { m with copyA := ⟨2, 0, []⟩, erasing := true } else { m with copyB := ⟨2, 0, []⟩, erasing := true }
  ({ d with mgmt := m1 }).bumpN O.PERSIST_WRITES 2

/-- The older copy is erased; where neither is good, both are. -/
def copiesErased (m : Mgmt) : Mgmt :=
  if m.copyA.kind = 1 ∧ (m.copyB.kind ≠ 1 ∨ m.copyB.gen < m.copyA.gen) then { m with copyB := Copy.erased, erasing := false }
  else if m.copyB.kind = 1 then { m with copyA := Copy.erased, erasing := false }
  else { m with copyA := Copy.erased, copyB := Copy.erased, erasing := false }

/-! ### Packets (R452 to R458) -/

/-- Who sent a packet, as the reply cache keys it: the stamped identity, or MAC and port. -/
def ckKey : ChodalSrc → ChodalSrc
  | .t1s m p => .t1s m p
  | .inband _ h => .inband 0 ⟨0, 0, 0, false, h.src, h.srcHost, h.sjob, h.schan, 0⟩

/-- The own group's host; the own group; level 0 to 3 of a scope from host to machine. -/
def inScope (d : Dev) (h : Hdr) (level : Nat) : Bool :=
  let own := d.ownId.map idGroup == some (idGroup h.src)
  match level with
  | 0 => own && h.srcHost
  | 1 => own
  | _ => true

/-- A permitted sender of writes. -/
def mayWrite (d : Dev) : ChodalSrc → Bool
  | .t1s m _ =>
    let ps := (List.range 8).map (fun k => d.dget (O.MGMT_PEERS k))
    ps.all (· == 0) || (m != 0 && ps.contains m)
  | .inband _ h => decide (0 < d.dget O.MGMT_INBAND_WRITE) && inScope d h (d.dget O.MGMT_INBAND_WRITE - 1)

def mayRead (d : Dev) : ChodalSrc → Bool
  | .t1s _ _ => true
  | .inband _ h => inScope d h (d.dget O.MGMT_INBAND_READ)

/-- A reply header: OP, TXN and ATOMIC echoed. -/
def replyHdr (pkt : Bytes) (count st : Nat) : Bytes :=
  leBytes 8 (at' 0 8 1 + at' 8 8 (leAt pkt 1 1) + at' 16 16 (leAt pkt 2 2) + at' 32 16 count + at' 48 8 st + at' 56 1 1 +
    at' 57 1 (fld (leAt pkt 7 1) 1 1))

/-- Sends a reply to where the request came from (R452, R453). -/
def sendReply (d : Dev) (src : ChodalSrc) (bs : Bytes) : Dev :=
  match src with
  | .t1s m p => d.t1s ⟨0, m, p, bs⟩
  | .inband _ h => d.sendMsg 4 1 h.src h.srcHost 0 0 none bs

/-- Keeps a reply for 1 s, the last 16 (R462), and sends it. -/
def reply (d : Dev) (src : ChodalSrc) (pkt bs : Bytes) : Dev :=
  let c := ((ckKey src, leAt pkt 2 2, bs, d.calendar) :: d.mgmt.cache.filter (fun e => decide (d.calendar < e.2.2.2 + 32768))).take 16
  sendReply { d with mgmt := { d.mgmt with cache := c } } src bs

/-- The cached reply of a retransmitted request. -/
def cached (d : Dev) (src : ChodalSrc) (pkt : Bytes) : Option Bytes :=
  (d.mgmt.cache.find? (fun e => e.1 == ckKey src && e.2.1 == leAt pkt 2 2 && decide (d.calendar < e.2.2.2 + 32768))).map (·.2.2.1)

/-- Item results gathered: bytes so far with the header, first status that is not OK, state. -/
structure Gather where
  out : Bytes
  st : Nat
  s : State

def Gather.add (g : Gather) (it : CkItem) (ty st : Nat) (v : Bytes) (s : State) : Gather :=
  let fits := decide (16 + g.out.length + v.length + (4 - v.length % 4) % 4 ≤ 1024)
  let st' := if fits then st else ckTooBig
  ⟨g.out ++ ckItem it.index it.sub ty st' (if fits then v else []), if g.st = ckOk then st' else g.st, s⟩

/-- One item of a GET. -/
def getItem (g : Gather) (it : CkItem) : Gather :=
  let r := readObject g.s it.index it.sub
  if r.st = ckOk ∧ it.value ≠ [] then g.add it r.ty ckRange [] g.s
  else g.add it r.ty r.st r.val r.after

/-- One item of a GET_PART: a STR or BLOB only. -/
def partItem (g : Gather) (it : CkItem) : Gather :=
  let r := readObject g.s it.index it.sub
  let off := leAt it.value 0 4
  if r.st ≠ ckOk then g.add it r.ty r.st [] g.s
  else if (r.ty ≠ 7 ∧ r.ty ≠ 8) ∨ it.value.length ≠ 8 ∨ leAt it.value 6 2 ≠ 0 ∨ r.val.length < off then g.add it r.ty ckRange [] g.s
  else g.add it r.ty ckOk (leBytes 4 r.val.length ++ (r.val.drop off).take (leAt it.value 4 2)) r.after

/-- Indices that hold objects, rising. -/
def allIndices : List Nat := sortBy (fun a b => decide (a ≤ b)) ((objTable.flatMap (fun o => rangeFrom o.base o.n)).dedup)

/-- A descriptor of a run of sub-indices (R461). -/
def listDesc (i first last ty acc : Nat) (name : String) : Bytes :=
  leBytes 8 (at' 0 16 i + at' 16 8 first + at' 24 8 last + at' 32 8 ty + at' 40 8 acc) ++ fitBytes 32 (ascii name)

/-- Descriptors of an index from sub-index `from` on. -/
def listIndex (i lo : Nat) : List Bytes :=
  (if lo = 0 then [listDesc i 0 0 1 0 "HIGHEST_SUB"] else []) ++
  (((rowsAt i).filter (fun o => decide (lo ≤ o.hi))).map (fun o => listDesc i (Nat.max lo o.lo) o.hi o.ty o.acc o.name))

/-- Descriptors of the vendor objects at an index, one for each (log 6). -/
def listVendor (i lo : Nat) : List Bytes :=
  if vendorSubs i = [] then []
  else
    (if lo = 0 then [listDesc i 0 0 1 0 "HIGHEST_SUB"] else []) ++
    ((vendorSubs i).filter (fun s => decide (lo ≤ s))).map (fun s =>
      leBytes 8 (at' 0 16 i + at' 16 8 s + at' 24 8 s + at' 32 8 3 + at' 40 8 4) ++ fitBytes 32 (Config.vendorName i s))

/-- Up to 24 descriptors from an index and sub-index on; the vendor range while debug access is open. -/
def listFrom (d : Dev) (i sub : Nat) : Bytes :=
  let one := fun (f : Nat → Nat → List Bytes) (x : Nat) => f x (if x = i then sub else 0)
  (((allIndices.filter (fun x => decide (i ≤ x))).flatMap (one listIndex) ++
    if d.sec.debugOpen then ((rangeFrom 0x9000 4096).filter (fun x => decide (i ≤ x))).flatMap (one listVendor) else []).take 24).flatten

/-- One item of a LIST. -/
def listItem (g : Gather) (it : CkItem) : Gather :=
  if it.value ≠ [] then g.add it 8 ckRange [] g.s else g.add it 8 ckOk (listFrom g.s.dev it.index it.sub) g.s

/-- Items applied in order, each seeing the effects of those before it. -/
def setItems : List CkItem → State → List Nat × State
  | [], s => ([], s)
  | it :: its, s => ((setItem s it).1 :: (setItems its (setItem s it).2).1, (setItems its (setItem s it).2).2)

/-- The items of a SET that stores nothing: a persisted object keeps its old value. -/
def setVolatile (its : List CkItem) (s : State) : State :=
  its.foldl (fun s it => if itemRwp it then s else (setItem s it).2) s

/-- A SET whose persisted values cannot be stored: PERSIST_FAIL for them; with ATOMIC nothing else is applied either. -/
def setUnstored (s : State) (its : List CkItem) (sts : List Nat) (atomic : Bool) : List Nat × State :=
  let s1 := if atomic then s else setVolatile its s
  ((its.zip sts).map (fun p =>
    if itemRwp p.1 && p.2 == ckOk then ckPersistFail else if atomic then ckNotApplied else p.2),
   { s1 with dev := persistFails s1.dev })

/-- A SET: statuses and state; with ATOMIC all items or none (R458), and one new persisted copy if need be (R459). -/
def setAll (s : State) (its : List CkItem) (atomic : Bool) : List Nat × State :=
  let r := setItems its s
  if atomic && r.1.any (· != ckOk) then (r.1.map (fun st => if st = ckOk then ckNotApplied else st), s)
  else if (its.zip r.1).any (fun p => itemRwp p.1 && p.2 == ckOk) then
    if copyWorn s.dev then setUnstored s its r.1 atomic else (r.1, { r.2 with dev := persist r.2.dev })
  else r

/-- The items of a SET reply. -/
def setReply (pkt : Bytes) (its : List CkItem) (sts : List Nat) : Bytes :=
  replyHdr pkt its.length ((sts.find? (· != ckOk)).getD ckOk) ++
    (its.zip sts).flatMap (fun p => ckItem p.1.index p.1.sub (itemType p.1 p.2) p.2 [])

/-- A SET that stores persisted objects waits while the older copy is under erase (R459). -/
def mustWait (d : Dev) (its : List CkItem) : Bool := d.mgmt.erasing && its.any itemRwp

def waitPacket (s : State) (src : ChodalSrc) (pkt : Bytes) : State :=
  { s with dev := { s.dev with mgmt := { s.dev.mgmt with waiting := s.dev.mgmt.waiting ++ [(src, pkt)] } } }

/-- A SET packet. -/
def setPacket (s : State) (src : ChodalSrc) (pkt : Bytes) (its : List CkItem) : State :=
  if !mayWrite s.dev src then
    { s with dev := reply (s.dev.bump O.WRITES_DENIED) src pkt (setReply pkt its (its.map (fun _ => ckDenied))) }
  else if mustWait s.dev its then waitPacket s src pkt
  else
    let r := setAll s its (bit (leAt pkt 7 1) 1)
    { r.2 with dev := reply r.2.dev src pkt (setReply pkt its r.1) }

/-- A packet that reads. -/
def readPacket (s : State) (src : ChodalSrc) (pkt : Bytes) (its : List CkItem) (f : Gather → CkItem → Gather) : State :=
  if !mayRead s.dev src then { s with dev := s.dev.bump O.WRITES_DENIED }
  else
    let g := its.foldl f ⟨[], ckOk, s⟩
    { g.s with dev := reply g.s.dev src pkt (replyHdr pkt its.length g.st ++ g.out) }

/-- One packet processed (R458): a retransmission, a malformed one, or by its OP. -/
def handle (s : State) (src : ChodalSrc) (pkt : Bytes) : State :=
  match cached s.dev src pkt with
  | some bs => { s with dev := sendReply (s.dev.bump O.REPLIES_CACHED) src bs }
  | none =>
    let its := if leAt pkt 0 1 = 1 then ckItems (leAt pkt 4 2) (pkt.drop 8) else none
    match its with
    | none => { s with dev := reply (s.dev.bump O.PKTS_MALFORMED) src pkt (replyHdr pkt 0 ckRange) }
    | some its =>
      match leAt pkt 1 1 with
      | 1 => readPacket s src pkt its getItem
      | 2 => setPacket s src pkt its
      | 3 => readPacket s src pkt its partItem
      | 4 => readPacket s src pkt its listItem
      | _ => { s with dev := reply s.dev src pkt (replyHdr pkt 0 ckRange) }

/-- A packet arrives from either path: one at a time, behind those that wait. -/
def packet (s : State) (src : ChodalSrc) (pkt : Bytes) : State :=
  if !s.dev.sec.running then s
  else if 1024 < pkt.length then { s with dev := s.dev.bump O.PKTS_MALFORMED }
  else if pkt.length < 8 then s
  else
    let s1 := { s with dev := s.dev.bump O.PKTS_RX }
    if s.dev.mgmt.waiting ≠ [] then waitPacket s1 src pkt else handle s1 src pkt

/-- The packet is well-formed and of an operation (R455, R456). -/
def isOp (pkt : Bytes) (op : Nat) : Bool :=
  decide (8 ≤ pkt.length ∧ pkt.length ≤ 1024) && leAt pkt 0 1 == 1 && (ckItems (leAt pkt 4 2) (pkt.drop 8)).isSome && leAt pkt 1 1 == op

def packetIf (c : Bool) (src : ChodalSrc) (pkt : Bytes) (s : State) : State := if c then packet s src pkt else s

/-- CHODAL_GET (R455). -/
def execChodalGet (src : ChodalSrc) (pkt : Bytes) (s : State) : Host.Outcome State Fault Refusal :=
  .next (packetIf (isOp pkt 1) src pkt s)

/-- CHODAL_SET (R458). -/
def execChodalSet (src : ChodalSrc) (pkt : Bytes) (s : State) : Host.Outcome State Fault Refusal :=
  .next (packetIf (isOp pkt 2) src pkt s)

/-- CHODAL_GET_PART (R455). -/
def execChodalGetPart (src : ChodalSrc) (pkt : Bytes) (s : State) : Host.Outcome State Fault Refusal :=
  .next (packetIf (isOp pkt 3) src pkt s)

/-- CHODAL_LIST (R461). -/
def execChodalList (src : ChodalSrc) (pkt : Bytes) (s : State) : Host.Outcome State Fault Refusal :=
  .next (packetIf (isOp pkt 4) src pkt s)

/-- MALFORMED_PACKET (R452, R455, R456): too large, too short, of a bad VERSION, overrun by its items or of another OP. -/
def execMalformedPacket (src : ChodalSrc) (pkt : Bytes) (s : State) : Host.Outcome State Fault Refusal :=
  .next (packetIf (!(isOp pkt 1 || isOp pkt 2 || isOp pkt 3 || isOp pkt 4)) src pkt s)

/-- PERSIST_ERASE_DONE (R459): what waited proceeds, in order, until a SET must wait again. -/
def persistErased (s : State) : State :=
  if !s.dev.mgmt.erasing then s
  else
    let w := s.dev.mgmt.waiting
    let s1 := { s with dev := { s.dev with mgmt := { copiesErased s.dev.mgmt with waiting := [] } } }
    w.foldl (fun s p => if s.dev.mgmt.waiting ≠ [] then waitPacket s p.1 p.2 else handle s p.1 p.2) s1

def execPersistEraseDone (s : State) : Host.Outcome State Fault Refusal := .next (persistErased s)

/-! ### The port's own protocols (R451, R452; log 80) -/

/-- The link-local address: FE80::/64 with the modified EUI-64 of MGMT_MAC, as bytes in network order. -/
def linkLocal : Bytes :=
  let m := (leBytes 6 Config.mgmtMac.toNat).reverse
  leBytes 2 0x80FE ++ leBytes 6 0 ++ ((nth 0 m 0 ^^^ 0x02#8) :: (m.drop 1).take 2) ++ leBytes 2 0xFEFF ++ m.drop 3

/-- PLCA_BEACON_TIMEOUT (R451). -/
def execPlcaBeaconTimeout (s : State) : Host.Outcome State Fault Refusal :=
  .next { s with dev := if s.dev.sec.running then s.dev.dset O.MGMT_PLCA_STATUS 1 else s.dev }

/-- NEIGHBOUR_SOLICITATION (R452): answered when its target, bytes 8 to 23, is the module's address. -/
def neighbour (d : Dev) (mac : Nat) (pkt : Bytes) : Dev :=
  if d.sec.running ∧ (pkt.drop 8).take 16 = linkLocal then d.t1s ⟨1, mac, 0, linkLocal ++ (leBytes 6 Config.mgmtMac.toNat).reverse⟩ else d

def execNeighbourSolicitation (mac : Nat) (pkt : Bytes) (s : State) : Host.Outcome State Fault Refusal :=
  .next { s with dev := neighbour s.dev mac pkt }

/-- ECHO_REQUEST (R452): the reply returns the identifier, the sequence number and the data. -/
def execEchoRequest (mac : Nat) (pkt : Bytes) (s : State) : Host.Outcome State Fault Refusal :=
  .next { s with dev := if s.dev.sec.running then s.dev.t1s ⟨2, mac, 0, pkt.drop 4⟩ else s.dev }

/-- ARP_REQUEST (R452): answered when MGMT_IPV4 is not 0 and is the target, bytes 24 to 27 in network order. -/
def arp (d : Dev) (mac : Nat) (pkt : Bytes) : Dev :=
  let ip := d.dget O.MGMT_IPV4
  if d.sec.running ∧ ip ≠ 0 ∧ (pkt.drop 24).take 4 = (leBytes 4 ip).reverse then
    d.t1s ⟨3, mac, 0, (leBytes 6 Config.mgmtMac.toNat).reverse ++ (leBytes 4 ip).reverse⟩
  else d

def execArpRequest (mac : Nat) (pkt : Bytes) (s : State) : Host.Outcome State Fault Refusal :=
  .next { s with dev := arp s.dev mac pkt }

/-! ### Waking (R506 to R509) -/

/-- Writes accepted in Lull take effect, in order. -/
def applyDeferred (s : State) : State :=
  let w := s.dev.pow.deferredSets
  w.foldl (fun s p => if rangeOk s.dev (p.1 / 256) (p.1 % 256) p.2 then (applyNum s (p.1 / 256) (p.1 % 256) p.2).2 else s)
    { s with dev := s.dev.setPow (fun p => { p with deferredSets := [] }) }

/-- What Lull saved comes back, bit for bit. -/
def restoreSaved (d : Dev) : Dev :=
  match d.pow.saved with
  | none => d
  | some v =>
    (d.setMem (fun m => { m with
      acc := v.acc, rows := v.rows, opb := v.opb, shadow := v.shadow, prog := v.prog })).setPow (fun p => { p with saved := none })

/-- Ports leave low-power idle and start again with steps 3 and 4 of R358; every awake neighbour is told. A wake that met
the entry before it was complete finds its ports as they were. -/
def wakePorts (d : Dev) (slept : Bool) : Dev :=
  lullNotes (if slept then d.forEach ((List.range 16).filter d.portUp) (fun d p =>
    (relink d p).modPort p (fun q => { q with peerLull := false })) else d) 1

/-- A wake to its end: restore, ports, what was deferred, LULL_WAKE. -/
def wake (s : State) (cause port ns : Nat) : State :=
  let d := s.dev
  let slept := d.pow.saved.isSome
  let d1 := wakePorts ((restoreSaved d).dset O.LULL_STATE 0) slept
  let bells := d1.pow.deferred
  let d2 := (d1.setPow (fun p => { p with deferred := [] })).forEach bells doorbellNow
  let s1 := applyDeferred { s with dev := d2 }
  { s1 with dev := s1.dev.event 0x0A82 0 7 0 (leBytes 1 cause ++ leBytes 1 port ++ leBytes 4 (Nat.min ns (2 ^ 32 - 1))) }

/-- A wake event: in Lull or during its entry; a second one during a wake has no effect (R509). -/
def wakeEvent (s : State) (cause port ns : Nat) : State :=
  if s.dev.dget O.LULL_STATE = 1 ∨ s.dev.dget O.LULL_STATE = 2 then wake s cause port ns else s

/-- LULL_CMD_WAKE: the wake that LULL_CMD 2 began, or one from Lull. -/
def execLullCmdWake (ns : Nat) (s : State) : Host.Outcome State Fault Refusal :=
  .next (if s.dev.dget O.LULL_STATE = 0 then s else wake s 2 0 ns)

/-- WAKE_N: a falling edge, as a pulse: the pin is high again after it (log 84). -/
def execWakeN (ns : Nat) (s : State) : Host.Outcome State Fault Refusal :=
  .next (wakeEvent { s with dev := s.dev.setPow (fun p => { p with wakeN := true }) } 1 0 ns)

/-- LULL_TIMER: the calendar has reached the timer. -/
def execLullTimer (ns : Nat) (s : State) : Host.Outcome State Fault Refusal :=
  .next (if s.dev.dget O.LULL_TIMER ≠ 0 ∧ s.dev.dget O.LULL_TIMER ≤ s.dev.calendar then wakeEvent s 4 0 ns else s)

/-- LANE_LIGHT_DETECT: light on lane 0 of a port. -/
def execLaneLightDetect (port ns : Nat) (s : State) : Host.Outcome State Fault Refusal :=
  .next (if port < 16 then wakeEvent s 3 port ns else s)

end Sys2Proof.Machine
end

