-- ==== Sys2Proof/Machine/Deliver.lean ====
section
/-! DEFINITION. What happens to a message that arrives at a port or originates in the module (R348, R352 to R356, R359,
R360, R369, R376, R377): layout, the stamp of the host bridge, routing, order, and the sink it is delivered to. -/

namespace Sys2Proof.Machine

/-! ### Layouts (R352, R353, R356, R359, R419, R453) -/

/-- The body of a message has the layout of its KIND. A KIND that the manual does not give is reserved; DATA and BULK have no
KINDs of their own in the manual, so any passes (log 87). -/
def layoutOk (m : Msg) : Bool :=
  let n := m.body.length
  match m.vc, m.hdr.kind with
  | 0, _ => reqLayoutOk m
  | 1, 0x11 => decide (8 ≤ n) && (n - 8) % 64 == 0
  | 1, 0x21 => n == 32
  | 1, 0x31 => n == 8
  | 2, k => k != 0
  | 4, 0x01 => decide (8 ≤ n ∧ n ≤ 1024)
  | 4, 0x7E => n == 8
  | 5, 1 => n == 8
  | 5, 2 => n == 72
  | 7, k => k != 0
  | _, _ => false

/-- MGMT messages that pass between neighbours only (R380, R488, R510). -/
def neighbourKind (k : Nat) : Bool := k == 0x40 || k == 0x41 || k == 0x50 || k == 0x7F

/-! ### Delivery -/

/-- Which message kinds the module takes in as its own. Replies, completions and notes to a host have no sink in the module. -/
def deliver (s : State) (port : Nat) (m : Msg) : State :=
  let d := if m.hdr.srcHost && decide ((s.dev.ownId.map idGroup) = some (idGroup m.hdr.src)) then
      s.dev.modCensus (fun c => { c with hostId := some m.hdr.src })
    else s.dev
  let s1 := { s with dev := d }
  match m.vc, m.hdr.kind with
  | 0, _ => { s1 with dev := takeReq port m d }
  | 4, 0x01 => packet s1 (.inband port m.hdr) m.body
  | 5, 0x01 => if port < 16 then { s1 with dev := vaneRead port m d } else s1
  | _, _ => s1

/-! ### Order (R377) -/

/-- Channels whose messages are numbered (R376). -/
def orderedVc (v : Nat) : Bool := v == 0 || v == 1 || v == 2 || v == 4 || v == 7

/-- The source and channel a number belongs to. -/
def seqKey (h : Hdr) (vc : Nat) : Nat := (h.src + 0x8000 * bool01 h.srcHost) * 8 + vc

def msgKey (m : Msg) : Nat := seqKey m.hdr m.vc

/-- The number after `n`. -/
def seqNext (n : Nat) : Nat := if n + 1 = 2 ^ 32 then 1 else n + 1

/-- How far `n` lies after `e`, modulo 2^32. -/
def seqDist (e n : Nat) : Nat := (n + 2 ^ 32 - e) % 2 ^ 32

def setExpected (s : State) (k e : Nat) : State :=
  { s with dev := s.dev.modLnk (fun l => { l with rxSeq := SMap.put 0 l.rxSeq k (e + 1) }) }

/-- Expected number, when synchronised. -/
def expected (d : Dev) (k : Nat) : Option Nat := match SMap.get 0 d.lnk.rxSeq k with | 0 => none | e + 1 => some e

def dropHeld (s : State) (p : Nat × Msg → Bool) : State :=
  { s with dev := s.dev.modLnk (fun l => { l with reorder := l.reorder.filter (fun x => !p x) }) }

/-- Delivers held messages while they are in order. -/
def drainHeld (k : Nat) : Nat → State → State
  | 0, s => s
  | n + 1, s =>
    match expected s.dev k with
    | none => s
    | some e =>
      match s.dev.lnk.reorder.find? (fun x => msgKey x.2 == k && x.2.hdr.seq == e) with
      | none => s
      | some x =>
        let s1 := setExpected (dropHeld s (fun y => msgKey y.2 == k && y.2.hdr.seq == e)) k (seqNext e)
        drainHeld k n (deliver s1 x.1 x.2)

def drainAll (s : State) (k : Nat) : State := drainHeld k s.dev.lnk.reorder.length s

/-- The expected number skips to the oldest held number of a source and channel; the held messages now in order follow. -/
def skipTo (s : State) (k : Nat) : State :=
  match expected s.dev k, s.dev.lnk.reorder.filter (fun x => msgKey x.2 == k) with
  | some e, x :: xs =>
    let o := xs.foldl (fun b y => if seqDist e y.2.hdr.seq < seqDist e b then y.2.hdr.seq else b) x.2.hdr.seq
    drainAll (setExpected { s with dev := s.dev.bump O.SEQ_GAPS } k o) k
  | _, _ => s

def holdMsg (s : State) (port : Nat) (m : Msg) : State :=
  { s with dev := s.dev.modLnk (fun l => { l with reorder := l.reorder ++ [(port, m)] }) }

/-- A numbered message arrives: the table of R377. A second copy of a held number is a duplicate on arrival (DEDUCED). -/
def orderMsg (s : State) (port : Nat) (m : Msg) : State :=
  let k := msgKey m
  let n := m.hdr.seq
  if n = 0 then deliver (setExpected (dropHeld s (fun x => msgKey x.2 == k)) k 1) port m
  else
    match expected s.dev k with
    | none => deliver (setExpected s k (seqNext n)) port m
    | some e =>
      if n = e then drainAll (deliver (setExpected s k (seqNext e)) port m) k
      else if seqDist e n < 2 ^ 31 then
        if s.dev.lnk.reorder.any (fun x => msgKey x.2 == k && x.2.hdr.seq == n) then
          { s with dev := s.dev.bump O.SEQ_DUPLICATES }
        else
          let s1 := holdMsg s port m
          if 512 ≤ s1.dev.lnk.reorder.length then skipTo s1 k else s1
      else { s with dev := s.dev.bump O.SEQ_DUPLICATES }

/-- A message for this module. -/
def here (s : State) (port : Nat) (m : Msg) : State := if orderedVc m.vc then orderMsg s port m else deliver s port m

/-- Skips until the message that has waited longest is delivered. -/
def expireHeld (k n : Nat) : Nat → State → State
  | 0, s => s
  | f + 1, s =>
    if s.dev.lnk.reorder.any (fun x => msgKey x.2 == k && x.2.hdr.seq == n) then expireHeld k n f (skipTo s k) else s

/-- REORDER_TIMEOUT: `src` is the 15-bit device ID, plus 2^15 for a message that entered at a host adapter. -/
def reorderTimeout (s : State) (src vc : Nat) : State :=
  match s.dev.lnk.reorder.find? (fun x => msgKey x.2 == src * 8 + vc) with
  | none => s
  | some x => expireHeld (src * 8 + vc) x.2.hdr.seq s.dev.lnk.reorder.length s

def execReorderTimeout (src vc : Nat) (s : State) : Host.Outcome State Fault Refusal := .next (reorderTimeout s src vc)

/-! ### Arrival -/

/-- A neighbour message of SYNC. -/
def syncArrives (d : Dev) (port : Nat) (m : Msg) : Dev :=
  let k := m.hdr.kind
  if 1 ≤ k ∧ k ≤ 3 then
    if d.isHostPort port || (d.port port).peerHost || m.body.length != 16 then protoFault d port else token port m d
  else
    match k with
    | 0x10 => waveArrives d port m
    | 0x11 => replyArrives d port m
    | 0x12 => routeSetArrives d port m
    | 0x13 => announceArrives d port m
    | 0x14 => mwaveArrives d port m
    | 0x15 => mreplyArrives d port m
    | 0x16 => mroutesArrives d port m
    | 0x18 => fenceNoteArrives d port m
    | _ => protoFault d port

/-- A neighbour message of MGMT. -/
def mgmtArrives (s : State) (port : Nat) (m : Msg) : Dev :=
  match m.hdr.kind with
  | 0x40 => imageReqArrives s.dev port m
  | 0x41 => imageDataArrives s.dev s.otp port m
  | 0x50 => lullNoteArrives s.dev port m
  | _ => fenceReqTaken s.dev port m

/-- What the bridge stamps on a message from its host adapter (R360); none: unmapped. -/
def hostStamp (d : Dev) (m : Msg) : Option Msg :=
  let e := d.dget (O.HOST_CHANNEL m.hdr.schan)
  if 127 < m.hdr.schan ∨ !bit e 14 then none
  else some { m with hdr := { m.hdr with src := d.srcId, srcHost := true, sjob := fld e 0 6, schan := fld e 6 8 } }

/-- A whole message has arrived at an up port. -/
def arrive (s : State) (port : Nat) (m : Msg) : State :=
  let d := s.dev
  let fault := { s with dev := protoFault d port }
  if !d.portUp port then s
  else if m.vc = 6 then if d.isHostPort port then fault else { s with dev := syncArrives d port m }
  else if m.vc = 4 ∧ neighbourKind m.hdr.kind then { s with dev := mgmtArrives s port m }
  else if !layoutOk m then fault
  else
    match (if d.isHostPort port then hostStamp d m else some m) with
    | none => { s with dev := d.bump (O.HOST_UNMAPPED port) }
    | some m1 =>
      match d.destOf m1.hdr.dst m1.hdr.dstHost with
      | .here => here s port m1
      | _ => { s with dev := d.transit port none m1 }

/-- A message that a job of this module originates: stamped, numbered, and sent on its way, or delivered here (R354, R376). -/
def originate (s : State) (m : Msg) : State :=
  let h := m.hdr
  if m.vc = 3 ∨ m.vc = 6 ∨ 7 < m.vc then s
  else
    match s.dev.destOf h.dst h.dstHost with
    | .here =>
      let q := s.dev.nextSeq h.dst m.vc
      here { s with dev := q.2 } 16 { m with hdr := { h with hops := 0, src := s.dev.srcId, srcHost := false, seq := q.1 } }
    | _ => { s with dev := s.dev.sendMsg m.vc h.kind h.dst h.dstHost h.sjob h.schan (some h.sjob) m.body }

/-- MESSAGE_ROUTE (R369). -/
def execMessageRoute (port : Nat) (m : Msg) (s : State) : Host.Outcome State Fault Refusal :=
  .next (if port < 16 then arrive s port m else originate s m)

/-! ### Messages handed to their sinks, as commands of their own -/

/-- A delivered message of a channel and KIND: taken by its sink, or a protocol fault where its layout is broken. -/
def delivered (s : State) (port : Nat) (m : Msg) (vc kind : Nat) (f : Dev → Dev) : State :=
  if m.vc ≠ vc ∨ m.hdr.kind ≠ kind ∨ (port < 16 ∧ !s.dev.portUp port) then s
  else if !layoutOk m then { s with dev := protoFault s.dev port }
  else { s with dev := f s.dev }

/-- SEG_WRITE (R420). -/
def execSegWrite (port : Nat) (m : Msg) (s : State) : Host.Outcome State Fault Refusal :=
  .next (delivered s port m 0 0x10 (takeReq port m))

/-- SEG_READ (R420). -/
def execSegRead (port : Nat) (m : Msg) (s : State) : Host.Outcome State Fault Refusal :=
  .next (delivered s port m 0 0x12 (takeReq port m))

/-- DOORBELL (R421). -/
def execDoorbell (port : Nat) (m : Msg) (s : State) : Host.Outcome State Fault Refusal :=
  .next (delivered s port m 0 0x20 (takeReq port m))

/-- MBOX_WRITE (R440). -/
def execMboxWrite (port : Nat) (m : Msg) (s : State) : Host.Outcome State Fault Refusal :=
  .next (delivered s port m 0 0x30 (takeReq port m))

/-- VANE_READ (R251). -/
def execVaneRead (port : Nat) (m : Msg) (s : State) : Host.Outcome State Fault Refusal :=
  .next (if port < 16 then delivered s port m 5 0x01 (vaneRead port m) else s)

/-- A barrier token received on a port (R378, R379). -/
def syncTaken (s : State) (port : Nat) (m : Msg) (kind : Nat) : State :=
  if !s.dev.portUp port ∨ m.vc ≠ 6 ∨ m.hdr.kind ≠ kind then s
  else if s.dev.isHostPort port then { s with dev := protoFault s.dev port }
  else { s with dev := syncArrives s.dev port m }

def execSyncArrive (port : Nat) (m : Msg) (s : State) : Host.Outcome State Fault Refusal := .next (syncTaken s port m 1)

def execSyncRelease (port : Nat) (m : Msg) (s : State) : Host.Outcome State Fault Refusal := .next (syncTaken s port m 2)

def execSyncAbort (port : Nat) (m : Msg) (s : State) : Host.Outcome State Fault Refusal := .next (syncTaken s port m 3)

/-! ### Reduce records (R316 to R318) -/

/-- A whole record has arrived: a failed check is a protocol fault of the sending port. -/
def recordArrives (d : Dev) (port : Nat) (bs : Bytes) : Dev :=
  if d.isHostPort port || (d.port port).peerHost || !rcdGood bs then protoFault d port else takeRecord port bs d

def recordTaken (s : State) (port : Nat) (bs : Bytes) (kind : Nat) : State :=
  if !s.dev.portUp port ∨ (rcdOf bs).kind ≠ kind then s else { s with dev := recordArrives s.dev port bs }

def execScaleUp (port : Nat) (bs : Bytes) (s : State) : Host.Outcome State Fault Refusal := .next (recordTaken s port bs 1)

def execScaleDown (port : Nat) (bs : Bytes) (s : State) : Host.Outcome State Fault Refusal := .next (recordTaken s port bs 2)

def execDataUp (port : Nat) (bs : Bytes) (s : State) : Host.Outcome State Fault Refusal := .next (recordTaken s port bs 3)

def execAbort (port : Nat) (bs : Bytes) (s : State) : Host.Outcome State Fault Refusal := .next (recordTaken s port bs 4)

end Sys2Proof.Machine
end

