-- ==== Sys2Proof/Machine/Link.lean ====
section
/-! DEFINITION. The link layer of a port (R335 to R349, R351, R352, R357 to R360): training and bring-up, link control,
lane swaps, credits, the superframe that goes out and the superframe that comes in, replay. -/

namespace Sys2Proof.Machine

/-- A superframe number, modulo 4,096. -/
def sseqNext (n : Nat) : Nat := (n + 1) % 4096

/-! ### Bring-up (R336, R357, R358, R360) -/

/-- The port is up once HELLO and CREDIT_INIT have both arrived. A boot ROM that waits for a port goes on. -/
def upCheck (d : Dev) (o : Otp) (p : Nat) : Dev :=
  let q := d.port p
  let st := d.dget (O.PORT_STATE p)
  if q.helloIn && q.creditIn && (st == 1 || st == 4) then recoveryPump (portChange d p (if q.rxSpareOk then 2 else 3)) o p else d

/-- PORT_TRAINING: lock, lane mapping, deskew, codeword lock; then HELLO and CREDIT_INIT go out. A port that a fence left
failed trains because its far end has started afresh (R380). -/
def portTraining (d : Dev) (p : Nat) (failed : List Nat) : Dev :=
  let st := d.dget (O.PORT_STATE p)
  let bad := (failed.filter (fun l => decide (l < 9))).dedup
  if 16 ≤ p ∨ ¬ (st = 1 ∨ st = 4 ∨ (st = 5 ∧ (d.port p).fenced)) then d
  else if 2 ≤ bad.length then failPort d p
  else
    let d1 := if st = 5 then portChange d p 1 else d
    let d2 := (d1.modPort p (fun q => { q with
      fenced := false, linked := true, rxSpareOk := bad.isEmpty, txSpare := 255, swap := none, swapWait := none,
      peerLull := false })).dset (O.SPARE_SERVES p) 255
    relink d2 p

def execPortTraining (port : Nat) (failed : List Nat) (s : State) : Host.Outcome State Fault Refusal :=
  .next { s with dev := portTraining s.dev port failed }

/-- HELLO. A second host adapter is held in training; a role or version that the manual does not give is a protocol fault. -/
def helloTaken (d : Dev) (o : Otp) (p role devId : Nat) (serial : Bytes) (peerPort version : Nat) : Dev :=
  let hp := d.dget O.HOST_PORT
  if 16 ≤ p ∨ !(d.port p).linked then d
  else if 1 < role ∨ version ≠ 1 then protoFault d p
  else if role = 1 ∧ hp < 16 ∧ hp ≠ p then protoFault d p
  else
    let d1 := if role = 1 then d.dset O.HOST_PORT p else if hp = p then d.dset O.HOST_PORT 255 else d
    let d2 := d1.dset (O.PEER_ID p) (if role = 1 ∨ 0x8000 ≤ devId then 0x8000 else devId)
    upCheck (d2.modPort p (fun q => { q with
      peerHost := role == 1, peerSerial := fitBytes 16 serial, peerPort := peerPort, helloIn := true })) o p

def execHello (port role devId : Nat) (serial : Bytes) (peerPort version : Nat) (s : State) : Host.Outcome State Fault Refusal :=
  .next { s with dev := helloTaken s.dev s.otp port role devId serial peerPort version }

/-- CREDIT_INIT: the sender counts its credits from here (R349). -/
def creditTaken (d : Dev) (o : Otp) (p : Nat) (credits : List Nat) : Dev :=
  if 16 ≤ p ∨ !(d.port p).linked then d
  else
    upCheck (d.modPort p (fun q => { q with
      credits := (List.range 8).map (fun v => nth 0 credits v % 2 ^ 16), spent := [], creditIn := true })) o p

def execCreditInit (port : Nat) (credits : List Nat) (s : State) : Host.Outcome State Fault Refusal :=
  .next { s with dev := creditTaken s.dev s.otp port credits }

/-- RETRAIN of the peer (R345, R357). -/
def retrainTaken (d : Dev) (p reason : Nat) : Dev :=
  if !d.portUp p then d else if 2 < reason then protoFault d p else retrainPort d p reason false

def execRetrain (port reason : Nat) (s : State) : Host.Outcome State Fault Refusal :=
  .next { s with dev := retrainTaken s.dev port reason }

/-! ### Lane swaps (R343, R344, R346, R347) -/

/-- The receive direction can no longer be mended by its spare: it is used, gone, or the port runs without one. -/
def spareGone (d : Dev) (p : Nat) : Bool := d.dget (O.SPARE_SERVES p) != 255 || !(d.port p).rxSpareOk

/-- The receiver asks for a swap of a logical lane. A lasting fault that finds no spare is a lasting port fault; a
pre-emptive swap waits for a running one and is dropped where there is no spare. -/
def requestSwap (d : Dev) (p lane : Nat) (pre : Bool) : Dev :=
  let q := d.port p
  if q.swap.isSome then
    if pre then d.modPort p (fun q => { q with swapWait := some lane })
    else if q.swap = some lane then d
    else retrainPort d p 0 true
  else if spareGone d p then if pre then d else retrainPort d p 0 true
  else
    let d1 := (d.modPort p (fun q => { q with swap := some lane })).emitLc p (leBytes 1 3 ++ leBytes 1 lane)
    (d1.bump (O.LANE_SWAPS p)).event 0x0601 1 5 (laneLoc p lane) (leBytes 1 (bool01 pre) ++ leBytes 1 0)

/-- SWAP_REQ: the transmitter moves the lane to its spare from its next superframe and says from which. -/
def swapReqTaken (d : Dev) (p lane : Nat) : Dev :=
  let q := d.port p
  let ack := fun (d : Dev) => d.emitLc p (leBytes 1 4 ++ leBytes 1 lane ++ leBytes 2 (d.port p).txSseq)
  if !d.portUp p then d
  else if 8 ≤ lane then protoFault d p
  else if q.txSpare = lane then ack d
  else if q.txSpare ≠ 255 then retrainPort d p 0 true
  else
    ack (((d.modPort p (fun q => { q with txSpare := lane })).bump (O.LANE_SWAPS p)).event 0x0601 1 5 (laneLoc p lane)
      (leBytes 1 0 ++ leBytes 1 1))

def execSwapReq (port lane : Nat) (s : State) : Host.Outcome State Fault Refusal :=
  .next { s with dev := swapReqTaken s.dev port lane }

/-- SWAP_ACK: from the named superframe on the receiver reads the lane from the spare. -/
def swapAckTaken (d : Dev) (p lane : Nat) : Dev :=
  let q := d.port p
  if !d.portUp p ∨ q.swap ≠ some lane then d
  else
    let d1 := (d.modPort p (fun q => { q with swap := none, swapWait := none })).dset (O.SPARE_SERVES p) lane
    match q.swapWait with
    | some l => requestSwap d1 p l true
    | none => d1

def execSwapAck (port lane sseq : Nat) (s : State) : Host.Outcome State Fault Refusal :=
  .next (if sseq < 4096 then { s with dev := swapAckTaken s.dev port lane } else { s with dev := protoFault s.dev port })

/-- One lane is lost: the spare itself, idle or carrying a lane, or a logical lane. -/
def laneLost (d : Dev) (p lane : Nat) : Dev :=
  let q := d.port p
  if lane = 8 then
    if q.swap.isSome ∨ d.dget (O.SPARE_SERVES p) ≠ 255 then retrainPort d p 0 true
    else portChange (d.modPort p (fun q => { q with rxSpareOk := false })) p 3
  else if d.dget (O.SPARE_SERVES p) = lane then d
  else requestSwap d p lane false

/-- LOSS_OF_SIGNAL: a swap, a retrain, or, when a module falls silent on all nine lanes, its fence (R380). The silence of a
neighbour in Lull is no fault (R510). -/
def lossOfSignal (d : Dev) (p : Nat) (lanes : List Nat) : Dev :=
  let ls := (lanes.filter (fun l => decide (l < 9))).dedup
  if !d.portUp p ∨ (d.port p).peerLull ∨ d.dget O.LULL_STATE = 2 then d
  else
    match ls with
    | [] => d
    | [l] => laneLost d p l
    | _ => if ls.length = 9 ∧ !(d.port p).peerHost then fencePeer d p else retrainPort d p 0 true

def execLossOfSignal (port : Nat) (lanes : List Nat) (s : State) : Host.Outcome State Fault Refusal :=
  .next { s with dev := lossOfSignal s.dev port lanes }

/-- LANE_CORRECTED_LIMIT: a lane's corrected symbols of 1 ms exceed the limit; a pre-emptive swap is asked for. -/
def laneCorrectedLimit (d : Dev) (p lane corrected : Nat) : Dev :=
  if !d.portUp p ∨ 8 ≤ lane ∨ corrected ≤ d.dget O.LANE_SWAP_CORRECTED ∨ d.dget (O.SPARE_SERVES p) = lane ∨
      (d.port p).swap = some lane then d
  else requestSwap d p lane true

def execLaneCorrectedLimit (port lane corrected : Nat) (s : State) : Host.Outcome State Fault Refusal :=
  .next { s with dev := laneCorrectedLimit s.dev port lane corrected }

/-! ### Credits (R349, R351) -/

/-- Frames of job `j` on channel `v` paid from its reserve and not yet returned. -/
def usedReserve (q : Port) (j v : Nat) : Nat := (q.spent.filter (fun x => x.1 == v && x.2 == some j)).length

/-- Credits of channel `v` that the jobs' reserves keep back. -/
def keptBack (d : Dev) (q : Port) (v : Nat) : Nat := sumNat ((List.range 64).map (fun j => d.linkReserve j v - usedReserve q j v))

/-- Who pays for a frame: `some (some j)` the reserve of job `j`, `some none` the shared pool, `none` nobody can. -/
def payer (d : Dev) (q : Port) (v : Nat) (who : Option Nat) : Option (Option Nat) :=
  let c := nth 0 q.credits v
  let shared := if keptBack d q v < c then some none else none
  if c = 0 then none
  else
    match who with
    | some j => if usedReserve q j v < d.linkReserve j v then some (some j) else shared
    | none => shared

/-- Credits come back in the order their frames were sent. -/
def creditsBack (q : Port) (r : Nat × Nat) : Port :=
  { q with
    credits := setNth q.credits r.1 (nth 0 q.credits r.1 + r.2)
    spent := ((List.range r.2).foldl (fun l _ => l.eraseP (fun x => x.1 == r.1)) q.spent) }

/-- Frames of channel `v` whose credits this receiver has to return: all but those of records and tokens that wait (R350). -/
def dueCredits (d : Dev) (p v : Nat) : Nat :=
  let waiting :=
    if v = 3 then sumNat ((d.red.held.filter (fun x => x.1 == p)).map (fun x => rcdFrames x.2))
    else if v = 6 then (d.sched.heldTokens.filter (fun x => x.1 == p)).length
    else 0
  nth 0 advertised v - nth 0 (d.port p).granted v - waiting

/-- The two channels with the most credits to return, the lower first among equals, at most 255 each (log 88). -/
def creditReturns (d : Dev) (p : Nat) : List (Nat × Nat) :=
  let due := ((List.range 8).map (fun v => (v, dueCredits d p v))).filter (fun x => x.2 != 0)
  ((sortBy (fun a b => decide (b.2 ≤ a.2)) due).take 2).map (fun x => (x.1, Nat.min 255 x.2))

/-! ### The superframe that goes out (R337, R338, R341, R342, R348) -/

/-- The weighted round of REQ, RSP, DATA, REDUCE and BULK: 2, 4, 4, 4 and 1 frames of every 15. -/
def weightRound : List Nat := [0, 0, 1, 1, 1, 1, 2, 2, 2, 2, 3, 3, 3, 3, 7]

/-- The first frame of a channel, if its channel has a credit for it. -/
def readyFrame (d : Dev) (q : Port) (v : Nat) : Option (Frame × Option Nat) :=
  match q.txq.find? (fun f => f.fkind == v + 1) with
  | none => none
  | some f => (payer d q v f.payer).map (fun w => (f, w))

/-- Takes the first frame of a channel out, and spends its credit. -/
def takeFrame (q : Port) (v : Nat) (w : Option Nat) : Port :=
  { q with
    txq := q.txq.eraseP (fun f => f.fkind == v + 1)
    credits := setNth q.credits v (nth 0 q.credits v - 1)
    spent := q.spent ++ [(v, w)] }

/-- The channel of the weighted round that sends next, with the place after it. -/
def roundPick (d : Dev) (q : Port) : Option (Nat × Nat × Frame × Option Nat) :=
  (List.range 15).findSome? (fun k =>
    let i := (q.wrr + k) % 15
    (readyFrame d q (nth 0 weightRound i)).map (fun r => (nth 0 weightRound i, (i + 1) % 15, r.1, r.2)))

/-- The next frame in the transmit order of R348; none: the rest of the superframe is idle. -/
def nextFrame (d : Dev) (up : Bool) (q : Port) : Option (Frame × Port) :=
  match q.lcq with
  | f :: r => some (f, { q with lcq := r })
  | [] =>
    if !up || !q.creditIn then none
    else
      match ([5, 6, 4].findSome? (fun v => (readyFrame d q v).map (fun r => (v, r)))) with
      | some (v, f, w) => some (f, takeFrame q v w)
      | none =>
        match roundPick d q with
        | some (v, i, f, w) => some (f, { takeFrame q v w with wrr := i })
        | none => none

/-- Up to `n` frames. -/
def pickFrames (d : Dev) (up : Bool) : Nat → Port → List Frame × Port
  | 0, q => ([], q)
  | n + 1, q =>
    match nextFrame d up q with
    | none => ([], q)
    | some (f, q1) => let r := pickFrames d up n q1; (f :: r.1, r.2)

/-- Bits [127:0] of a trailer. -/
def trailerWord (sseq ack : Nat) (nak unnum : Bool) (frames : List Frame) (cret : List (Nat × Nat)) : Nat :=
  let c := fun i => nth (0, 0) cret i
  at' 0 12 sseq + at' 12 12 ack + at' 24 1 (bool01 nak) + at' 25 1 (bool01 unnum) +
  sumNat ((List.range 20).map (fun i => at' (26 + 4 * i) 4 (((frames[i]?).map (·.fkind)).getD 0))) +
  at' 106 3 (c 0).1 + at' 109 8 (c 0).2 + at' 117 3 (c 1).1 + at' 120 8 (c 1).2

/-- The 5,140 bytes of a superframe. -/
def superframe (sseq ack : Nat) (nak unnum : Bool) (frames : List Frame) (cret : List (Nat × Nat)) : Bytes :=
  let b := fitBytes 5120 (frames.flatMap (fun f => fitBytes 256 f.bytes)) ++
    leBytes 16 (trailerWord sseq ack nak unnum frames cret)
  b ++ leBytes 4 (crc32c b)

/-! The code of a superframe (R339) -/

/-- The 10-bit symbols of a number, the lowest first. -/
def cutSymbols : Nat → Nat → List Nat
  | 0, _ => []
  | n + 1, w => w % 1024 :: cutSymbols n (w / 1024)

/-- The 8 codewords of a superframe: its symbol n is data symbol n div 8 of codeword n mod 8. -/
def superWords (bs : Bytes) : List (List Nat) :=
  let xs := (cutSymbols 4112 (ofLe bs)).toArray
  (List.range 8).map (fun c => RsCode.link.encode ((List.range 514).map (fun k => xs.getD (8 * k + c) 0)))

/-- Lane of symbol q of codeword c. -/
def laneOf (c q : Nat) : Nat := (q + c) % 8

/-- PAM4 with Gray coding: the bit pairs 00, 01, 11 and 10 are levels 0 to 3 (R335); the same map leads back. -/
def grayLevel (x : Nat) : Nat := Nat.xor x (x / 2)

/-- A symbol goes out as 5 unit intervals, bits [1:0] first. -/
def symbolLevels (x : Nat) : List Nat := (List.range 5).map (fun i => grayLevel (x / 4 ^ i % 4))

/-- The symbols of a lane's levels. -/
def levelSymbols (ls : List Nat) : List Nat :=
  let xs := ls.toArray
  (List.range 544).map (fun n => sumNat ((List.range 5).map (fun i => grayLevel (xs.getD (5 * n + i) 0) * 4 ^ i)))

/-- The symbols of each logical lane, in the order they go out. -/
def toLanes (ws : List (List Nat)) : List (List Nat) :=
  let xs := (ws.map List.toArray).toArray
  (List.range 8).map (fun l => (List.range 544).map (fun q => (xs.getD ((l + 8 - q % 8) % 8) #[]).getD q 0))

/-- The codewords that the lanes carry. -/
def fromLanes (ls : List (List Nat)) : List (List Nat) :=
  let xs := (ls.map List.toArray).toArray
  (List.range 8).map (fun c => (List.range 544).map (fun q => (xs.getD (laneOf c q) #[]).getD q 0))

/-- The bytes of a superframe whose codewords are corrected. -/
def superBytes (ws : List (List Nat)) : Bytes :=
  let xs := (ws.map List.toArray).toArray
  leBytes 5140 (((List.range 4112).map (fun n => (xs.getD (n % 8) #[]).getD (n / 8) 0)).foldr (fun x acc => x + acc * 1024) 0)

/-- Puts a superframe on the fibres, with the current ACK and NAK; frames sent are counted, idle ones excluded. -/
def sendSuper (d : Dev) (p : Nat) (h : Held) (unnum : Bool) : Dev :=
  let q := d.port p
  let bs := superframe h.sseq q.rxGood q.nak unnum h.frames h.cret
  (d.modPort p (fun x => { x with line := bs, lanes := (toLanes (superWords bs)).map (·.flatMap symbolLevels) })).bumpN (O.TX_FRAMES p) h.frames.length

/-- An unnumbered superframe: all frames idle. -/
def sendIdle (d : Dev) (p : Nat) : Dev := sendSuper d p ⟨(d.port p).txSseq, [], []⟩ true

/-- The next new superframe: numbered when it carries a frame or a credit return. -/
def sendNew (d : Dev) (p : Nat) : Dev :=
  let cret := creditReturns d p
  let r := pickFrames d (d.portUp p) 20 (d.port p)
  if r.1 = [] ∧ cret = [] then sendIdle d p
  else
    let q := r.2
    let h : Held := ⟨q.txSseq, r.1, cret⟩
    let q1 := { q with
      replay := q.replay ++ [h], txSseq := sseqNext q.txSseq,
      granted := cret.foldl (fun g c => setNth g c.1 (nth 0 g c.1 + c.2)) q.granted }
    sendSuper (d.setPort p q1) p h false

/-- What follows once a port may have become quiet: a fenced module's port closes (R380), an entry to Lull goes on (R506). -/
def settlePort (d : Dev) (p : Nat) : Dev :=
  let q := d.port p
  let d1 := if q.closing && q.lcq.isEmpty && q.txq.isEmpty && d.portUp p then
      (clearPort d p).dset (O.PORT_STATE p) 5
    else d
  lullProgress d1

/-- A port toward a sleeping neighbour is silent: nothing is unacknowledged or to be sent, and its last ACK is out (R510). -/
def Port.silent (q : Port) : Bool := q.peerLull && q.quiet && fld (leAt q.line 5120 16) 12 12 == q.rxGood

/-- SUPERFRAME_TX. A full replay buffer leaves unnumbered superframes only. Toward a sleeping neighbour nothing goes out
until a frame is there for it; then the link starts again with steps 3 and 4 of R358 (R507, log 81). -/
def superframeTx (d : Dev) (p : Nat) : Dev :=
  let q := d.port p
  if 16 ≤ p ∨ !q.linked ∨ d.dget O.LULL_STATE = 2 ∨ q.silent then d
  else
    let d1 := if q.peerLull ∧ q.txq ≠ [] ∧ q.replay = [] then relink (d.modPort p (fun x => { x with peerLull := false })) p
      else d
    let d2 :=
      match (d1.port p).resend with
      | h :: r => sendSuper (d1.modPort p (fun x => { x with resend := r })) p h false
      | [] => if 128 ≤ (d1.port p).replay.length then sendIdle d1 p else sendNew d1 p
    settlePort d2 p

def execSuperframeTx (port : Nat) (s : State) : Host.Outcome State Fault Refusal :=
  .next { s with dev := superframeTx s.dev port }

/-- REPLAY_TIMEOUT: the sender replays from the oldest superframe not acknowledged (R342). -/
def replayTimeout (d : Dev) (p : Nat) : Dev :=
  let q := d.port p
  if 16 ≤ p ∨ !q.linked ∨ q.replay = [] then d
  else (d.modPort p (fun x => { x with resend := x.replay })).bump (O.REPLAYS p)

def execReplayTimeout (port : Nat) (s : State) : Host.Outcome State Fault Refusal :=
  .next { s with dev := replayTimeout s.dev port }

/-! ### The superframe that comes in -/

/-- A superframe fails: NAK, and the retry test (R343). -/
def superFailed (d : Dev) (p : Nat) (lane : Option Nat) : Dev :=
  let q := d.port p
  let n := if q.swap.isSome then q.attempts else q.attempts + 1
  let d1 := (d.bump (O.SF_FAILED p)).modPort p (fun x => { x with nak := true, attempts := n })
  if q.swap.isSome then d1
  else if 3 ≤ n then retrainPort d1 p 0 true
  else if n = 2 then
    match lane with
    | some l => if l < 8 then requestSwap d1 p l false else d1
    | none => d1
  else d1

/-- ACK: what it names and everything before it leaves the replay buffer. -/
def ackTaken (q : Port) (ack : Nat) : Port :=
  if q.replay.any (fun h => h.sseq == ack) then
    let r := (q.replay.dropWhile (fun h => h.sseq != ack)).drop 1
    { q with replay := r, resend := q.resend.filter (fun h => r.any (fun g => g.sseq == h.sseq)) }
  else q

/-- NAK: replay from ACK + 1. One that names no new ACK leaves a running replay as it is (log 85). -/
def nakTaken (d : Dev) (p ack : Nat) (nak : Bool) : Dev :=
  let q := d.port p
  let q1 := ackTaken q ack
  let moved := q1.replay.length != q.replay.length
  let d1 := d.setPort p q1
  if nak && !q1.replay.isEmpty && (moved || q1.resend.isEmpty) then
    (d1.modPort p (fun x => { x with resend := x.replay })).bump (O.REPLAYS p)
  else d1

/-- What one frame's bytes complete on a channel: whole messages and records, the bytes still to come, and whether the
stream was broken. -/
inductive Piece where
  | msg (m : Msg)
  | rcd (bs : Bytes)
  | broken
  deriving DecidableEq, Repr

/-- Bytes of the message or record that starts here, padded to its 8-byte boundary; none: its header is not whole, or its
length is none (`some 0`). -/
def pieceLen (vc : Nat) (bs : Bytes) : Option Nat :=
  if vc = 3 then
    if 4 < leAt bs 0 1 then some 0
    else if bs.length < 32 then none
    else some (32 + rcdBodyLen (rcdOf bs))
  else if bs.length < 16 then none
  else if 65528 < hdrLen bs then some 0
  else some (16 + hdrLen bs)

/-- Reads the stream of one channel (R352). -/
def pieces (vc : Nat) : Nat → Bytes → List Piece × Bytes
  | 0, bs => ([], bs)
  | f + 1, bs =>
    if bs = [] ∨ leAt bs 0 1 = 0 then ([], [])
    else
      match pieceLen vc bs with
      | none => if vc = 5 then ([.broken], []) else ([], bs)
      | some 0 => ([.broken], [])
      | some n =>
        if bs.length < n then if vc = 5 then ([.broken], []) else ([], bs)
        else
          let x := if vc = 3 then Piece.rcd (bs.take n) else .msg ⟨vc, hdrOf bs, (bs.drop 16).take (n - 16)⟩
          let r := pieces vc f (bs.drop (ceilDiv n 8 * 8))
          (x :: r.1, r.2)

def takePiece (p : Nat) (s : State) : Piece → State
  | .msg m => arrive s p m
  | .rcd bs => if s.dev.portUp p then { s with dev := recordArrives s.dev p bs } else s
  | .broken => { s with dev := protoFault s.dev p }

/-- A link control frame (R357). -/
def linkControl (d : Dev) (o : Otp) (p : Nat) (bs : Bytes) : Dev :=
  let b := fun i => leAt bs i 1
  match b 0 with
  | 1 => helloTaken d o p (b 1) (leAt bs 2 2) ((bs.drop 4).take 16) (b 20) (b 21)
  | 2 => creditTaken d o p ((List.range 8).map (fun v => leAt bs (2 + 2 * v) 2))
  | 3 => swapReqTaken d p (b 1)
  | 4 => swapAckTaken d p (b 1)
  | 5 => retrainTaken d p (b 1)
  | _ => protoFault d p

/-- A frame of a channel: its credit is spent and, once the frame is taken in, due for return. -/
def channelFrame (s : State) (p vc : Nat) (bs : Bytes) : State :=
  let q := s.dev.port p
  if !s.dev.portUp p then s
  else if nth 0 q.granted vc = 0 then { s with dev := protoFault s.dev p }
  else
    let buf := nth [] q.rxPart vc ++ bs
    let r := pieces vc (buf.length + 1) buf
    let q1 := { q with granted := setNth q.granted vc (nth 0 q.granted vc - 1), rxPart := setNth q.rxPart vc r.2 }
    r.1.foldl (takePiece p) { s with dev := s.dev.setPort p q1 }

/-- One frame of an accepted superframe. -/
def frameTaken (p : Nat) (bytes : Bytes) (trailer : Nat) (s : State) (i : Nat) : State :=
  let k := fld trailer (26 + 4 * i) 4
  let bs := (bytes.drop (256 * i)).take 256
  if k = 0 ∨ !(s.dev.port p).linked then s
  else
    let s1 := { s with dev := s.dev.bump (O.RX_FRAMES p) }
    if k = 9 then { s1 with dev := linkControl s1.dev s1.otp p bs }
    else if k < 9 then channelFrame s1 p (k - 1) bs
    else { s1 with dev := protoFault s1.dev p }

/-- A superframe accepted in order: NAK falls, credits come back, frames are handed over. -/
def superAccepted (s : State) (p : Nat) (bytes : Bytes) (t : Nat) : State :=
  let q := s.dev.port p
  let d1 := if q.nak && q.attempts == 1 then s.dev.bump (O.LINK_TRANSIENT p) else s.dev
  let cret := [(fld t 106 3, fld t 109 8), (fld t 117 3, fld t 120 8)]
  let d2 := d1.modPort p (fun x => cret.foldl creditsBack { x with rxGood := fld t 0 12, nak := false, attempts := 0 })
  (List.range 20).foldl (frameTaken p bytes t) { s with dev := d2 }

/-- A superframe whose codewords decode and whose CRC matches. While a replay is awaited only the one after ACK is taken;
an older number brings its ACK and NAK and nothing else, a number too far on is one that was lost (log 85). -/
def superGood (s : State) (p : Nat) (bytes : Bytes) : State :=
  let q := s.dev.port p
  let t := leAt bytes 5120 16
  let n := fld t 0 12
  let signals := fun (d : Dev) => nakTaken d p (fld t 12 12) (bit t 24)
  if bit t 25 then if q.nak then s else { s with dev := signals s.dev }
  else if n = sseqNext q.rxGood then superAccepted { s with dev := signals s.dev } p bytes t
  else if q.nak then s
  else if (n + 4096 - sseqNext q.rxGood) % 4096 < 2048 then
    { s with dev := s.dev.modPort p (fun x => { x with nak := true }) }
  else { s with dev := signals s.dev }

/-- A neighbour that slept starts the link again: its HELLO comes in superframe 0 (R507, log 81). -/
def startsAgain (q : Port) (bytes : Bytes) : Bool :=
  let t := leAt bytes 5120 16
  q.peerLull && !bit t 25 && fld t 0 12 == 0 && fld t 26 4 == 9 && leAt bytes 0 1 == 1

/-- The lanes as the receiver reads them: the one that the spare serves comes from the spare (R346). -/
def readLanes (d : Dev) (p : Nat) (lanes : List (List Nat)) (spare : List Nat) : List (List Nat) :=
  (List.range 8).map (fun l => if d.dget (O.SPARE_SERVES p) = l then spare else nth [] lanes l)

/-- Decodes the codewords of a superframe: its bytes, and the corrected symbols of each lane; none: one does not decode. -/
def decodeSuper (lanes : List (List Nat)) : Option (Bytes × List Nat) :=
  let ws := fromLanes (lanes.map levelSymbols)
  let fs := ws.map (RsCode.link.decode [])
  if fs.any (·.isNone) then none
  else
    let fix := fun c => (nth none fs c).getD []
    let hit := (List.range 8).flatMap (fun c => (fix c).map (fun e => laneOf c e.1))
    some (superBytes (ws.zipIdx.map (fun w => addErrors w.1 (fix w.2))),
      (List.range 8).map (fun l => (hit.filter (· == l)).length))

/-- A superframe that is accepted: its codewords decode and its CRC matches (R340). -/
def received (lanes : List (List Nat)) : Option (Bytes × List Nat) :=
  (decodeSuper lanes).filter (fun r => crc32c (r.1.take 5136) == leAt r.1 5136 4)

/-- The attributable lane (R344): its eye margin lies below the trained minimum, or it carries more than half of the corrected
symbols of the last 64 accepted superframes. The lowest, where there are several (log 141). -/
def badLane (q : Port) (margins minima : List Nat) : Option Nat :=
  let carried := fun l => sumNat (q.fixed.map (fun f => nth 0 f l))
  let all := sumNat ((List.range 8).map carried)
  (List.range 8).find? (fun l => decide (nth 0 margins l < nth 0 minima l) || decide (all < 2 * carried l))

/-- Corrected symbols are counted, and kept for 64 accepted superframes. -/
def noteFixed (d : Dev) (p : Nat) (corr : List Nat) : Dev :=
  (d.bumpN (O.FEC_CORRECTED p) (sumNat corr)).modPort p (fun q =>
    { q with fixed := (q.fixed ++ [corr]).drop (q.fixed.length + 1 - 64) })

/-- SUPERFRAME_RX. -/
def superframeRx (s : State) (p : Nat) (lanes : List (List Nat)) (spare margins minima : List Nat) : State :=
  if 16 ≤ p ∨ !(s.dev.port p).linked ∨ s.dev.dget O.LULL_STATE = 2 then s
  else
    let s1 :=
      match received (readLanes s.dev p lanes spare) with
      | some (bytes, corr) =>
        let d1 := if startsAgain (s.dev.port p) bytes then
            relink (s.dev.modPort p (fun q => { q with peerLull := false })) p
          else s.dev
        superGood { s with dev := noteFixed d1 p corr } p bytes
      | none => { s with dev := superFailed s.dev p (badLane (s.dev.port p) margins minima) }
    { s1 with dev := settlePort s1.dev p }

def execSuperframeRx (port : Nat) (lanes : List (List Nat)) (spare margins minima : List Nat) (s : State) :
    Host.Outcome State Fault Refusal :=
  .next (superframeRx s port lanes spare margins minima)

end Sys2Proof.Machine
end

