-- ==== Sys2Proof/Machine/Dispatch.lean ====
section
/-! DEFINITION. What every command does: one arm per constructor, one direct call of its meaning. -/

namespace Sys2Proof.Machine

/-- The effect of a command on everything but the queue of waiting commands. -/
def exec (i : Instr) (s : State) : Host.Outcome State Fault Refusal :=
  match i with
  | .mma f => Sys2Proof.Machine.execMma f s
  | .elem f parity => Sys2Proof.Machine.execElem f parity s
  | .elemLoad f => Sys2Proof.Machine.execElemLoad f s
  | .conv f => Sys2Proof.Machine.execConv f s
  | .scan f => Sys2Proof.Machine.execScan f s
  | .attend run => Sys2Proof.Machine.execAttend run s
  | .alloc f k => Sys2Proof.Machine.execAlloc f k s
  | .free f k => Sys2Proof.Machine.execFree f k s
  | .promote f k => Sys2Proof.Machine.execPromote f k s
  | .demote f k => Sys2Proof.Machine.execDemote f k s
  | .rehome f k => Sys2Proof.Machine.execRehome f k s
  | .relocate f k => Sys2Proof.Machine.execRelocate f k s
  | .pin f k => Sys2Proof.Machine.execPin f k s
  | .unpin f k => Sys2Proof.Machine.execUnpin f k s
  | .moveQueueHead seg => Sys2Proof.Machine.execMoveQueueHead seg s
  | .moveCommit seg => Sys2Proof.Machine.execMoveCommit seg s
  | .reduce f => Sys2Proof.Machine.execReduce f s
  | .reduceContextOpen f => Sys2Proof.Machine.execReduceContextOpen f s
  | .scaleUp port rec => Sys2Proof.Machine.execScaleUp port rec s
  | .scaleDown port rec => Sys2Proof.Machine.execScaleDown port rec s
  | .dataUp port rec => Sys2Proof.Machine.execDataUp port rec s
  | .abort port rec => Sys2Proof.Machine.execAbort port rec s
  | .reduceTimeout tag id epoch => Sys2Proof.Machine.execReduceTimeout tag id epoch s
  | .updateConfig f => Sys2Proof.Machine.execUpdateConfig f s
  | .updateApply f => Sys2Proof.Machine.execUpdateApply f s
  | .applyExecute run => Sys2Proof.Machine.execApplyExecute run s
  | .fork f => Sys2Proof.Machine.execFork f s
  | .pageEditInit f k => Sys2Proof.Machine.execPageEditInit f k s
  | .pageEditMap f k => Sys2Proof.Machine.execPageEditMap f k s
  | .pageEditUnmap f k => Sys2Proof.Machine.execPageEditUnmap f k s
  | .pageEditSetLen f k => Sys2Proof.Machine.execPageEditSetLen f k s
  | .pageEditSetMask f k => Sys2Proof.Machine.execPageEditSetMask f k s
  | .pageEditClearMask f k => Sys2Proof.Machine.execPageEditClearMask f k s
  | .pageEditApply dir => Sys2Proof.Machine.execPageEditApply dir s
  | .barrier f => Sys2Proof.Machine.execBarrier f s
  | .semAcquire f => Sys2Proof.Machine.execSemAcquire f s
  | .semRelease f => Sys2Proof.Machine.execSemRelease f s
  | .syncArrive port m => Sys2Proof.Machine.execSyncArrive port m s
  | .syncRelease port m => Sys2Proof.Machine.execSyncRelease port m s
  | .syncAbort port m => Sys2Proof.Machine.execSyncAbort port m s
  | .barrierTimeout tag id epoch => Sys2Proof.Machine.execBarrierTimeout tag id epoch s
  | .semGraceExpiry sem => Sys2Proof.Machine.execSemGraceExpiry sem s
  | .descriptorFetch job queue => Sys2Proof.Machine.execDescriptorFetch job queue s
  | .descriptorComplete f stepNs => Sys2Proof.Machine.execDescriptorComplete f stepNs s
  | .blockDoorbell f blk => Sys2Proof.Machine.execBlockDoorbell f blk s
  | .kLoopRun f blk tile runs => Sys2Proof.Machine.execKLoopRun f blk tile runs s
  | .shadowAudit f tr tc retries => Sys2Proof.Machine.execShadowAudit f tr tc retries s
  | .stageStepStart job stage step => Sys2Proof.Machine.execStageStepStart job stage step s
  | .uncorrectableSram blk mem addr read => Sys2Proof.Machine.execUncorrectableSram blk mem addr read s
  | .blockRetire blk cause => Sys2Proof.Machine.execBlockRetire blk cause s
  | .regionWatchdogExpiry r => Sys2Proof.Machine.execRegionWatchdogExpiry r s
  | .regionFence r cause sound => Sys2Proof.Machine.execRegionFence r cause sound s
  | .segmentEvacuated seg => Sys2Proof.Machine.execSegmentEvacuated seg s
  | .dmWatchdogExpiry => Sys2Proof.Machine.execDmWatchdogExpiry s
  | .deviceFence cause => Sys2Proof.Machine.execDeviceFence cause s
  | .burstError e => Sys2Proof.Machine.execBurstError e s
  | .caParityError stack again => Sys2Proof.Machine.execCaParityError stack again s
  | .patrolScrub unit errs => Sys2Proof.Machine.execPatrolScrub unit errs s
  | .refreshInterval stack deciC => Sys2Proof.Machine.execRefreshInterval stack deciC s
  | .slowTempPoll pkg deciC => Sys2Proof.Machine.execSlowTempPoll pkg deciC s
  | .servingStepBoundary job issue => Sys2Proof.Machine.execServingStepBoundary job issue s
  | .vaneAnswerWrite n row sat => Sys2Proof.Machine.execVaneAnswerWrite n row sat s
  | .start who job seg => Sys2Proof.Machine.execStart who job seg s
  | .stop who job => Sys2Proof.Machine.execStop who job s
  | .join who job prio planOn => Sys2Proof.Machine.execJoin who job prio planOn s
  | .leave who job stream => Sys2Proof.Machine.execLeave who job stream s
  | .status who job stream => Sys2Proof.Machine.execStatus who job stream s
  | .planOn who job stream => Sys2Proof.Machine.execPlanOn who job stream s
  | .planOff who job stream => Sys2Proof.Machine.execPlanOff who job stream s
  | .vaneRead port m => Sys2Proof.Machine.execVaneRead port m s
  | .segWrite port m => Sys2Proof.Machine.execSegWrite port m s
  | .segRead port m => Sys2Proof.Machine.execSegRead port m s
  | .doorbell port m => Sys2Proof.Machine.execDoorbell port m s
  | .mboxWrite port m => Sys2Proof.Machine.execMboxWrite port m s
  | .mboxConsume ch => Sys2Proof.Machine.execMboxConsume ch s
  | .messageRoute port m => Sys2Proof.Machine.execMessageRoute port m s
  | .reorderTimeout src vc => Sys2Proof.Machine.execReorderTimeout src vc s
  | .superframeRx port lanes spare margins minima => Sys2Proof.Machine.execSuperframeRx port lanes spare margins minima s
  | .replayTimeout port => Sys2Proof.Machine.execReplayTimeout port s
  | .lossOfSignal port lanes => Sys2Proof.Machine.execLossOfSignal port lanes s
  | .laneCorrectedLimit port lane corrected => Sys2Proof.Machine.execLaneCorrectedLimit port lane corrected s
  | .swapReq port lane => Sys2Proof.Machine.execSwapReq port lane s
  | .swapAck port lane sseq => Sys2Proof.Machine.execSwapAck port lane sseq s
  | .retrain port reason => Sys2Proof.Machine.execRetrain port reason s
  | .hello port role devId serial peerPort version => Sys2Proof.Machine.execHello port role devId serial peerPort version s
  | .creditInit port credits => Sys2Proof.Machine.execCreditInit port credits s
  | .portTraining port failed => Sys2Proof.Machine.execPortTraining port failed s
  | .portStateChange port st => Sys2Proof.Machine.execPortStateChange port st s
  | .groupCensusStart => Sys2Proof.Machine.execGroupCensusStart s
  | .wave port m => Sys2Proof.Machine.execWave port m s
  | .reply port m => Sys2Proof.Machine.execReply port m s
  | .routeSet port m => Sys2Proof.Machine.execRouteSet port m s
  | .announce port m => Sys2Proof.Machine.execAnnounce port m s
  | .machineCensusStart => Sys2Proof.Machine.execMachineCensusStart s
  | .mwave port m => Sys2Proof.Machine.execMwave port m s
  | .mreply port m => Sys2Proof.Machine.execMreply port m s
  | .mroutes port m => Sys2Proof.Machine.execMroutes port m s
  | .fenceReq port m => Sys2Proof.Machine.execFenceReq port m s
  | .fenceNote port m => Sys2Proof.Machine.execFenceNote port m s
  | .imageReq port m => Sys2Proof.Machine.execImageReq port m s
  | .imageData port m => Sys2Proof.Machine.execImageData port m s
  | .recoveryRetry => Sys2Proof.Machine.execRecoveryRetry s
  | .imageFetchTimeout => Sys2Proof.Machine.execImageFetchTimeout s
  | .lullNote port m => Sys2Proof.Machine.execLullNote port m s
  | .chodalGet src pkt => Sys2Proof.Machine.execChodalGet src pkt s
  | .chodalSet src pkt => Sys2Proof.Machine.execChodalSet src pkt s
  | .chodalGetPart src pkt => Sys2Proof.Machine.execChodalGetPart src pkt s
  | .chodalList src pkt => Sys2Proof.Machine.execChodalList src pkt s
  | .persistEraseDone => Sys2Proof.Machine.execPersistEraseDone s
  | .form j => Sys2Proof.Machine.execForm j s
  | .suspend j => Sys2Proof.Machine.execSuspend j s
  | .resume j => Sys2Proof.Machine.execResume j s
  | .destroy j => Sys2Proof.Machine.execDestroy j s
  | .reform j => Sys2Proof.Machine.execReform j s
  | .reformTakeEffect j => Sys2Proof.Machine.execReformTakeEffect j s
  | .groupStepSet j v => Sys2Proof.Machine.execGroupStepSet j v s
  | .baselineWrite j cls v => Sys2Proof.Machine.execBaselineWrite j cls v s
  | .recorderFreeze => Sys2Proof.Machine.execRecorderFreeze s
  | .freezeDrainDone => Sys2Proof.Machine.execFreezeDrainDone s
  | .recorderThaw => Sys2Proof.Machine.execRecorderThaw s
  | .freezeTimeout secs => Sys2Proof.Machine.execFreezeTimeout secs s
  | .alertClear => Sys2Proof.Machine.execAlertClear s
  | .eventAccept ev => Sys2Proof.Machine.execEventAccept ev s
  | .recordProgram => Sys2Proof.Machine.execRecordProgram s
  | .ringSectorEraseDone => Sys2Proof.Machine.execRingSectorEraseDone s
  | .hourlyUpdate serviceS degradedS opS => Sys2Proof.Machine.execHourlyUpdate serviceS degradedS opS s
  | .outageEnd code ns countNs boundNs cut => Sys2Proof.Machine.execOutageEnd code ns countNs boundNs cut s
  | .fwUpdateCmd => Sys2Proof.Machine.execFwUpdateCmd s
  | .attestNonce nonce => Sys2Proof.Machine.execAttestNonce nonce s
  | .attestSignDone => Sys2Proof.Machine.execAttestSignDone s
  | .unlockChallenge => Sys2Proof.Machine.execUnlockChallenge s
  | .unlockToken token => Sys2Proof.Machine.execUnlockToken token s
  | .boot cause => Sys2Proof.Machine.execBoot cause s
  | .deviceReady badBlocks badStacks badPkgs repairFails => Sys2Proof.Machine.execDeviceReady badBlocks badStacks badPkgs repairFails s
  | .pwrOkAssert sid => Sys2Proof.Machine.execPwrOkAssert sid s
  | .pwrOkDeassert => Sys2Proof.Machine.execPwrOkDeassert s
  | .modRstN level => Sys2Proof.Machine.execModRstN level s
  | .railFault step => Sys2Proof.Machine.execRailFault step s
  | .inputSample mv ma excursion => Sys2Proof.Machine.execInputSample mv ma excursion s
  | .inputFault isOver mv => Sys2Proof.Machine.execInputFault isOver mv s
  | .powerCapAdjust demandW => Sys2Proof.Machine.execPowerCapAdjust demandW s
  | .thermalHold sensor deciC => Sys2Proof.Machine.execThermalHold sensor deciC s
  | .thermalTrip sensor deciC => Sys2Proof.Machine.execThermalTrip sensor deciC s
  | .lullEnter => Sys2Proof.Machine.execLullEnter s
  | .lullCmdWake ns => Sys2Proof.Machine.execLullCmdWake ns s
  | .wakeN ns => Sys2Proof.Machine.execWakeN ns s
  | .lullTimer ns => Sys2Proof.Machine.execLullTimer ns s
  | .laneLightDetect port ns => Sys2Proof.Machine.execLaneLightDetect port ns s
  | .tenancySwitch blk cycles => Sys2Proof.Machine.execTenancySwitch blk cycles s
  | .deadlineMark job k issue => Sys2Proof.Machine.execDeadlineMark job k issue s
  | .superframeTx port => Sys2Proof.Machine.execSuperframeTx port s
  | .plcaBeaconTimeout => Sys2Proof.Machine.execPlcaBeaconTimeout s
  | .neighbourSolicitation mac pkt => Sys2Proof.Machine.execNeighbourSolicitation mac pkt s
  | .echoRequest mac pkt => Sys2Proof.Machine.execEchoRequest mac pkt s
  | .arpRequest mac pkt => Sys2Proof.Machine.execArpRequest mac pkt s
  | .malformedPacket src pkt => Sys2Proof.Machine.execMalformedPacket src pkt s
  | .thermalHoldEnd heldNs => Sys2Proof.Machine.execThermalHoldEnd heldNs s
  | .unlockEraseDone ok => Sys2Proof.Machine.execUnlockEraseDone ok s

end Sys2Proof.Machine
end

