-- ==== Sys2Proof/Machine/Step.lean ====
section
/-! DEFINITION. One step: the command at the front of the queue; on an empty queue one tick of the calendar (log 12). -/

namespace Sys2Proof.Machine

/-- One tick of the real-time clock (R383): the 64-bit calendar counter advances by one count (log 12). -/
def tick (s : State) : State :=
  { s with dev := { s.dev with calendar := (s.dev.calendar + 1) % 2 ^ 64 } }

/-- Takes the command at the front of the queue and runs it with the queue's rest. -/
def step (s : State) : Host.Outcome State Fault Refusal :=
  match s.pending with
  | [] => .next (tick s)
  | c :: rest => exec c { s with pending := rest }

/-- `s` with the command that the word spells put at the front of its queue; `s` where the word spells none. -/
def State.withFetchWord (s : State) (nbits w : Nat) : State :=
  match decodeTableWord nbits w with
  | none => s
  | some c => { s with pending := c :: s.pending }

end Sys2Proof.Machine
end

