-- ==== Sys2Proof/Safety.lean ====
section
/-! DEFINITION. What claims say of a safe run: a command completes, one-time storage only grows (R484), memories keep their
canonical form, no command touches the queue. -/

namespace Sys2Proof.Safety

open Sys2Proof.Machine

/-- The command completes: it answers this next state. -/
def Completes (c : Instr) (s t : State) : Prop := exec c s = .next t

/-- One-time storage `b` lies at or after `a`: no revocation bit is taken back and no count of blown fuses falls (R484). -/
def OtpGrows (a b : Otp) : Prop :=
  (∀ i, i < 4 → a.revoked.getLsbD i = true → b.revoked.getLsbD i = true) ∧ a.minSvn ≤ b.minSvn ∧ a.debugOpened ≤ b.debugOpened

/-- The counts stay within their fuses: 64 of MIN_SVN, 255 of DEBUG_OPENED (R484). -/
def OtpInRange (o : Otp) : Prop := o.minSvn ≤ 64 ∧ o.debugOpened ≤ 255

/-- Every memory of the module is in its canonical form. -/
def MemoriesWf (d : Dev) : Prop :=
  Memory.wf d.mem.fast = true ∧ Memory.wf d.mem.slow = true ∧ Memory.wf d.mem.opb = true ∧ Memory.wf d.mem.shadow = true ∧
  SMap.wf (fun _ => (0 : BitVec 32)) d.mem.acc = true ∧ SMap.wf (fun _ => (0 : BitVec 32)) d.mem.rows = true ∧
  SMap.wf (fun _ => (0 : BitVec 32)) d.mem.prog = true

/-- The dictionary is in its canonical form: no object is listed at its default. -/
def DictWf (d : Dev) : Prop := SMap.wf dictDefault d.dict = true

/-- Dictionary keys in which recording, notifying and sending count (R363, R385, R465, R481). -/
def tellKey (k : Nat) : Bool :=
  [O.NOTIFY_SENT, O.NOTIFY_DROPPED, O.UNREACHABLE_DROPS, O.HOP_DROPS 0, O.NEWEST_SEQ, O.RECORDS_LOST, O.FREEZE_OVERFLOW,
    O.ALERT_CAUSE].contains k || decide (O.RECORDS_BY_SEVERITY 0 ≤ k ∧ k < O.RECORDS_BY_SEVERITY 8)

/-- `e` is `d` after no more than telling the outside: events taken by the recorder, notifications and messages queued.
Everything else of the module stands as it stood. -/
structure Told (d e : Dev) : Prop where
  rest : e = { d with dict := e.dict, lnk := e.lnk, mgmt := e.mgmt, recd := e.recd }
  keys : ∀ k, tellKey k = false → e.dget k = d.dget k
  lnk : e.lnk = { d.lnk with ports := e.lnk.ports, txSeq := e.lnk.txSeq }
  ports : ∀ p, ∃ l, e.port p = { d.port p with txq := (d.port p).txq ++ l }
  mgmt : e.mgmt = { d.mgmt with
    notifySeq := e.mgmt.notifySeq, notifyTimes := e.mgmt.notifyTimes, t1sOut := e.mgmt.t1sOut }

end Sys2Proof.Safety
end

