-- ==== Sys2Proof/Certificates/Slice0/Obligations.lean ====
section
/-! DEFINITION. The statements for the provers, in the order of the manual's chapters. -/

open Sys2Proof Sys2Proof.Machine Sys2Proof.Safety

/-- For every command c and state s, a step of s with c at the front of its queue is exec of c on s with the queue's rest; the queue is served first in, first out. On an empty queue a step answers the same state with the 64-bit calendar counter advanced by one, wrapping at 2^64. That the calendar's tick is what an empty queue does is the model's choice (log 12). -/
def Obligations.StepRunsFront : Prop :=
  (
  ∀ (c : Instr) (rest : List Instr) (s : State),
    step { s with pending := c :: rest } = exec c { s with pending := rest }) ∧
  (
  ∀ s : State, s.pending = [] →
    step s = .next { s with dev := { s.dev with calendar := (s.dev.calendar + 1) % 2 ^ 64 } })

/-- For every command and every state exec answers a next state: the block never stops (log 2). -/
def Obligations.EveryCommandAnswersNext : Prop :=
  ∀ (c : Instr) (s : State), ∃ t, exec c s = .next t

/-- Whatever a command does, also to one-time storage, messages, packets and the links, the list of commands that wait is what it was. -/
def Obligations.ExecKeepsTheQueue : Prop :=
  ∀ (c : Instr) (s t : State), exec c s = .next t → t.pending = s.pending

/-- For every state s, whatever command is in front: if a step answers t, every revocation bit set in s is set in t, and MIN_SVN and DEBUG_OPENED are not lower in t than in s. -/
def Obligations.OneTimeStorageOnlyGrows : Prop :=
  ∀ s t : State, step s = .next t → OtpGrows s.otp t.otp

/-- For every state s in which MIN_SVN is at most 64 and DEBUG_OPENED at most 255: if a step answers t, both hold in t. A boot never blows a floor above 64 (an image that asks for one is invalid), and no unlock is accepted once DEBUG_OPENED is 255. -/
def Obligations.OneTimeStorageStaysInRange : Prop :=
  ∀ s t : State, OtpInRange s.otp → step s = .next t → OtpInRange t.otp

/-- For every integer t and shift s, the value t / 2^s rounded half-even by the model differs from t / 2^s by at most half a unit, and when it lies exactly half a unit away it is even. -/
def Obligations.HalfEvenRoundingIsNearestEven : Prop :=
  ∀ (t : Int) (s : Nat),
    2 * (t - shrRHE t s * 2 ^ s) ≤ 2 ^ s ∧ -(2 ^ s : Int) ≤ 2 * (t - shrRHE t s * 2 ^ s) ∧
    ((2 * (t - shrRHE t s * 2 ^ s) = 2 ^ s ∨ 2 * (t - shrRHE t s * 2 ^ s) = -(2 ^ s : Int)) → shrRHE t s % 2 = 0)

/-- For every list of conditions a descriptor met while it ran, all of them among the six of R73, its status is the first of POISON, DISCARDED, SCALE_RANGE, ACC_SAT, FORMAT_VOID in the list, and OK if none is in it. -/
def Obligations.StatusTakesTheFirstOfItsPrecedence : Prop :=
  ∀ conds : List Nat, (∀ c ∈ conds, c ∈ [stPoison, stDiscard, stScale, stSat, stVoid, stOk]) →
    statusOf conds = ([stPoison, stDiscard, stScale, stSat, stVoid].find? (fun c => conds.contains c)).getD stOk

/-- For every row word whose exponent lies in -32,768 to 32,767: its 32 bits hold OUT_EXP at [15:0], SAT at [16], WIDE at [17], VOID_SEEN at [18] and zeros above, and reading the bits gives the row word again. -/
def Obligations.RowWordRoundTrip : Prop :=
  ∀ w : RowWord, -32768 ≤ w.exp ∧ w.exp ≤ 32767 →
    RowWord.dec w.enc.toNat = w ∧ (w.enc.extractLsb' 0 16).toInt = w.exp ∧ w.enc.getLsbD 16 = w.sat ∧ w.enc.getLsbD 17 = w.wide ∧
    w.enc.getLsbD 18 = w.void ∧ w.enc.toNat < 2 ^ 19

/-- For a descriptor in flight whose shares are delivered, whose blocks are its tenancies, whose ranges are free and whose pins are held or granted (canRun), each of the six commands answers the next state in which the descriptor has taken its tenancies, its pins, the outputs of its stage that it reads and its chunk area, and has run under its own rules; a step whose read was poisoned has been discarded, the outputs of a step let go are recorded, and displacements and waiting work have been brought up to date. ELEM with a parity error at a fetched word reloads the program and lets the step stop, and retires the block where the error recurs. ATTEND appends, then walks: as far as a page's load where one is named, else, its groups pinned, through its K-loops with their residue runs to a parity error of SCORE_PROG or the end. Nothing else of the state changes. For any other flight the commands change nothing. -/
def Obligations.ComputeCommandsRun : Prop :=
  (∀ (s : State) (f : Nat) (x : Flight), s.dev.flight f = some x →
    let go := fun (d : Dev) => settle (endRun d x)
    let d0 := beginRun s.dev x
    let x1 := { x with started := true }
    (canRun s.dev x 1 = true → exec (.mma f) s = .next { s with dev := go (mmaRun d0 x1) }) ∧
    (canRun s.dev x 2 = true → bit x.w 80 = false → exec (.elem f none) s = .next { s with dev := go (elemRun d0 x1) }) ∧
    (∀ w, w < 32 → canRun s.dev x 2 = true → bit x.w 80 = false → exec (.elem f (some w)) s =
      .next { s with dev := go (let p := fetchParity d0 x1 x.target (elemD x.w).program
        if p.2 then retireBlock p.1 (d0.physOf x.job x.target) 4 else p.1) }) ∧
    (∀ w, 32 ≤ w → canRun s.dev x 2 = true → bit x.w 80 = false → exec (.elem f (some w)) s =
      .next { s with dev := go (elemRun d0 x1) }) ∧
    (canRun s.dev x 2 = true → bit x.w 80 = true → exec (.elemLoad f) s = .next { s with dev := go (elemLoadRun d0 x1) }) ∧
    (canRun s.dev x 3 = true → exec (.conv f) s = .next { s with dev := go (convRun d0 x1) }) ∧
    (canRun s.dev x 4 = true → exec (.scan f) s = .next { s with dev := go (scanRun d0 x1) }) ∧
    (∀ run : AttendRun, run.f = f → canRun s.dev x 5 = true →
      exec (.attend run) s = .next { s with dev := go (
        let b := attBegin d0 x1
        let d1 := walkPins b.1 x1
        if !b.2 then b.1
        else match run.load with
          | some p => attLoad d1 x1 p
          | none =>
            if !walkReady d1 x1 then d1
            else
              let r := pageLoops x1 run.loops d1
              if r.2 then r.1
              else match run.parity with
                | some (p, w) =>
                  if w < 32 ∧ (attD x.w).prog ≠ 16 ∧ pageOf r.1 x1 p then
                    parityError (issuePage r.1 x1 p) x1 (pageBlock x1 p) (attD x.w).prog
                  else attWalk r.1 x1
                | none => attWalk r.1 x1) })) ∧
  (∀ (s : State) (f opc : Nat) (image : Option Bool) (i : Instr), (opc, image, i) ∈ [
      (1, none, Instr.mma f), (2, some false, .elem f none), (2, some true, .elemLoad f), (3, none, .conv f), (4, none, .scan f)] ∨
      (∃ w, (opc, image, i) = (2, some false, Instr.elem f (some w))) ∨ (∃ run : AttendRun, run.f = f ∧ (opc, image, i) = (5, none, Instr.attend run)) →
    (∀ x, s.dev.flight f = some x → canRun s.dev x opc = true → ∃ b, image = some b ∧ bit x.w 80 ≠ b) → exec i s = .next s)

/-- For every legal instruction shape, sub-slot, slot, block, spare-column setting, A32 or A64 width and every values that fit the accumulator: after the tile is written, every element and every row word of the sub-slot reads back as written, and every entry of another block, of another slot (but the high slot of an A64 pair) or outside the sub-slot's rows and columns reads as before. -/
def Obligations.AccTileReadsBack : Prop :=
  ∀ (d : Dev) (b k slot s : Nat) (wide : Bool) (val : Nat → Nat → Int) (rows : Nat → RowWord),
    shapeLegal k = true → s < (shapeOf k).x → slot + 1 < 128 →
    (∀ m n, if wide then -(2 ^ 63) ≤ val m n ∧ val m n < 2 ^ 63 else -(2 ^ 31) ≤ val m n ∧ val m n < 2 ^ 31) →
    let sh := shapeOf k
    let e := d.subWrite b sh wide slot s val rows
    (∀ m n, m < sh.mt → n < sh.nt → e.subGet b sh wide slot s m n = val m n) ∧
    (∀ m, m < sh.mt → e.subRowGet b sh slot s m = RowWord.dec (rows m).enc.toNat) ∧
    (∀ b' slot' r c, slot' < 128 → r < 64 → c < 64 →
      (b' ≠ b ∨ (slot' ≠ slot ∧ (wide = false ∨ slot' ≠ slot + 1)) ∨
        (∀ m n, m < sh.mt → n < sh.nt → subPos sh s m n ≠ (r, c))) → e.accGet b' slot' r c = d.accGet b' slot' r c)

/-- For a product descriptor on the array that is ready and meets no stop, the next K-loop of a share, and a residue schedule whose first run passes: the command answers a next state; the loop has been summed from the operands as they stand and drained (arrayLoop), and the descriptor's list of loops run has grown by exactly that one, except where the F agreed for a row block it is the first to need cannot be held in OUT_EXP: then SCALE_RANGE is among the descriptor's conditions and the list is as it was. When no loop is left the descriptor closes. A descriptor that meets a stop ends with it; a schedule whose runs convict the block retires it; one that asks for re-runs counts them and the loop runs. In every other case nothing happens. -/
def Obligations.KLoopRunsOneTile : Prop :=
  (∀ (s : State) (f blk no : Nat) (runs : List (List Nat)) (x : Flight) (pl : Plan) (t : Nat × Nat × Nat) (ts : List (Nat × Nat × Nat)),
    s.dev.flight f = some x → x.plans.find? (fun p => p.blk == blk) = some pl → loopsLeft x pl (arrayJob x) = t :: ts →
    onArray x = true → canRun s.dev x x.opcode = true → arrayStop (beginRun s.dev x) x = none → pl.loopNo t = no →
    (runs = [] ∨ runs.head? = some []) →
    let d1 := arrayLoop (beginRun s.dev x) x pl t
    ∃ y, d1.flight f = some y ∧ y.d = x.d ∧
      (y.tiles = x.tiles ++ [(blk, no)] ∨ (y.tiles = x.tiles ∧ y.conds.contains stScale = true)) ∧
      exec (.kLoopRun f blk no runs) s = .next { s with dev := settle (endRun (arrayClose d1 y) y) }) ∧
  (∀ (s : State) (f blk no : Nat) (runs : List (List Nat)),
    let may := fun (x : Flight) (pl : Plan) (t : Nat × Nat × Nat) => s.dev.flight f = some x ∧
      x.plans.find? (fun p => p.blk == blk) = some pl ∧ (loopsLeft x pl (arrayJob x)).head? = some t ∧
      onArray x = true ∧ canRun s.dev x x.opcode = true ∧ pl.loopNo t = no
    (∀ x pl t, may x pl t →
      let d0 := beginRun s.dev x
      let b := s.dev.physOf x.job blk
      let r := residueLoop d0 x b (shapeOf pl.shape) runs
      (∀ st, arrayStop d0 x = some st → exec (.kLoopRun f blk no runs) s = .next {
        s with dev := settle (endRun (stopWith d0 x (arrayJob x) st) x) }) ∧
      (arrayStop d0 x = none → r.2 = true → exec (.kLoopRun f blk no runs) s = .next { s with dev := settle (retireBlock r.1 b 1) }) ∧
      (arrayStop d0 x = none → r.2 = false →
        let d1 := arrayLoop r.1 x pl t
        ∀ y, d1.flight f = some y → exec (.kLoopRun f blk no runs) s = .next { s with dev := settle (endRun (arrayClose d1 y) y) })) ∧
    ((¬∃ x pl t, may x pl t) → exec (.kLoopRun f blk no runs) s = .next s))

/-- For a block whose spare column is unused, after the switch of a logical column every entry (row, logical column) of every slot of every block reads what it read before, the map names the column, COLUMN_SWITCHES has counted (up to its largest value), and the event names the column. -/
def Obligations.ColumnSwitchCarriesValues : Prop :=
  ∀ (d : Dev) (x : Flight) (b c : Nat) (fourth : Bool), d.dget (O.SPARE_COLUMN_MAP b) = 255 → c < 64 → b < 156 →
    (∀ b' slot row col, b' < 156 → slot < 128 → row < 64 → col < 64 →
      (columnSwitch d x b c fourth).accGet b' slot row col = d.accGet b' slot row col) ∧
    (columnSwitch d x b c fourth).dget (O.SPARE_COLUMN_MAP b) = c ∧
    (columnSwitch d x b c fourth).dget O.COLUMN_SWITCHES = Nat.min (d.dget O.COLUMN_SWITCHES + 1) (dictMax O.COLUMN_SWITCHES)

/-- SHADOW_AUDIT answers a next state in every state. Every memory of the module, every completion status and every other field of the descriptors but the list of audited tiles, and everything else but the job's audit sums and AUDIT_RETRIES, is as before. Where the tile of a product that has not been stopped is drained, was chosen as its K-loops ran, is not yet audited and its master and other operand can be read, the tile counts once and the retries are added to AUDIT_RETRIES (up to its largest value). -/
def Obligations.ShadowAuditChangesNoResult : Prop :=
  ∀ (s : State) (f tr tc retries : Nat), ∃ t, exec (.shadowAudit f tr tc retries) s = .next t ∧
    t.otp = s.otp ∧ t.pending = s.pending ∧ t.dev.mem = s.dev.mem ∧
    t.dev = { s.dev with dict := t.dev.dict, sched := t.dev.sched } ∧
    t.dev.sched = { s.dev.sched with jobs := t.dev.sched.jobs, flights := t.dev.sched.flights } ∧
    (∀ k, k ≠ O.AUDIT_RETRIES → t.dev.dget k = s.dev.dget k) ∧
    (∀ j, t.dev.job j = { s.dev.job j with audit := (t.dev.job j).audit }) ∧
    (∀ g, (t.dev.flight g).map (fun x => { x with results := [] }) = (s.dev.flight g).map (fun x => { x with results := [] })) ∧
    (∀ x pl, s.dev.flight f = some x → x.opcode = 1 → x.started = true →
      (x.done = none ∨ ∃ st, x.done = some st ∧ (passes st = true ∨ st = stSat)) →
      x.plans.find? (fun pl => decide (pl.col0 ≤ 64 * tc ∧ 64 * tc < pl.col0 + pl.cols)) = some pl →
      (mmaD x.w).masterValid = true → 0 < (mmaD x.w).k → 64 * tr < (mmaD x.w).m → tileDrained x pl (mmaD x.w).matJob tr tc = true →
      ∀ parts, parts = x.audits.filter (fun a => a.tr == tr && a.tc == tc) → parts.isEmpty = false → (auditProd s.dev x pl parts).a.bad = false → (auditProd s.dev x pl parts).b.bad = false → s.dev.segOk (mmaD x.w).masterSeg = true →
      x.results.contains (tr, tc, 0) = false →
      (t.dev.job x.job).audit.tiles = (s.dev.job x.job).audit.tiles + 1 ∧
      (0 < retries → t.dev.dget O.AUDIT_RETRIES = Nat.min (s.dev.dget O.AUDIT_RETRIES + retries) (dictMax O.AUDIT_RETRIES)))

/-- BLOCK_DOORBELL of a placed block on which a live descriptor has a share not yet delivered delivers it; a job that thereby enters ready on the block has its VTIME raised to the least of the others there; any other doorbell changes nothing. DESCRIPTOR_COMPLETE of any decided descriptor: POISON discards its step, a stopping status stops it, its stage's part stands or falls, LANE_RANGE_COUNT and a lasting write are noted, its record goes into its queue's ring (a descriptor without a queue has none), it leaves the module, and the step's accounts, the descriptors that waited for it and displacements follow; without a decided descriptor nothing changes. STAGE_STEP_START first forwards what the stage and its predecessor have finished; then a stage that runs no step, and has the whole input of this step or takes none, starts the step; where nothing is to be forwarded, that is all that changes. -/
def Obligations.QueueCommandsComplete : Prop :=
  (∀ (s : State) (f lb : Nat) (x : Flight), s.dev.flight f = some x →
      (∀ b, (s.dev.place x.job lb).phys = some b → x.live = true → x.blocks.contains lb = true → x.rung.contains lb = false →
        let d := s.dev.modFlight f (fun y => { y with rung := y.rung ++ [lb] })
        exec (.blockDoorbell f lb) s = .next {
          s with dev := settle (if !(s.dev.readyJobs b).contains x.job && (d.readyJobs b).contains x.job then raiseVtime d b x.job else d) }) ∧
      ((s.dev.place x.job lb).phys = none ∨ x.live = false ∨ x.blocks.contains lb = false ∨ x.rung.contains lb = true →
        exec (.blockDoorbell f lb) s = .next s)) ∧
  (∀ (s : State) (f ns st : Nat) (x : Flight), s.dev.flight f = some x → x.done = some st →
      let d0 := if st = stPoison then discardStep s.dev x.job x.step else s.dev
      let d1 := notePart (if x.stops then d0.stopStep x else d0) x st
      let d2 := if x.laneRange then d1.bump (O.LANE_RANGE_COUNT x.job) else d1
      let d3 := if x.lasting then d2.markLasting x.job x.step else d2
      let d4 := if x.queue < 4 then d3.ringRecord x st else d3
      exec (.descriptorComplete f ns) s = .next {
        s with dev := settle (releaseQueues (stepEnd (d4.dropFlight f) x ns) x.job) }) ∧
  (∀ (s : State) (f ns : Nat), (∀ x, s.dev.flight f = some x → x.done = none) →
      exec (.descriptorComplete f ns) s = .next s) ∧
  (∀ (s : State) (j stage step : Nat) (st : Stage), (s.dev.job j).stage stage = some st →
      let d0 := forwardAll s.dev j stage
      let d := match (s.dev.job j).prevStage stage with
        | some p => forwardAll d0 j p.stage
        | none => d0
      (d.blk.stageStep.any (fun e => e.1 == j && e.2.1 == stage) = false → (st.inLen = 0 ∨ d.blk.inputs.contains (j, stage, step) = true) →
        exec (.stageStepStart j stage step) s = .next {
          s with dev := d.setBlk (fun k => { k with stageStep := k.stageStep ++ [(j, stage, step)] }) }) ∧
      (d.blk.stageStep.any (fun e => e.1 == j && e.2.1 == stage) = true ∨ (0 < st.inLen ∧ d.blk.inputs.contains (j, stage, step) = false) →
        exec (.stageStepStart j stage step) s = .next { s with dev := d }) ∧
      ((∀ e ∈ s.dev.blk.stageStep, e.1 ≠ j) → d = s.dev)) ∧
  (∀ (s : State) (f lb j stage step : Nat),
    (s.dev.flight f = none → exec (.blockDoorbell f lb) s = .next s) ∧
    ((s.dev.job j).stage stage = none → exec (.stageStepStart j stage step) s = .next s))

/-- Where a queue may be fetched from, the command answers the next state in which QUEUE_HEAD has advanced by one modulo 2^32 and the 64 bytes at slot QUEUE_HEAD mod QUEUE_DEPTH of the ring's segment have been taken in; where it may not, the state as it was. Of any descriptor but a fork, whose children are reserved at its issue: when the next flight number is free, that number has risen by one and a flight of it holds the bytes, its job, its queue and its index; no memory, link, mailbox, one-time storage or waiting command has changed, and unless the descriptor is a conv, an attend or an update, which take pins or note their cache at issue, no residence entry and nothing of the serving loops. (The premise on the slow-step list holds of every job: a CLASS is four bits.) -/
def Obligations.FetchTakesTheNextDescriptor : Prop :=
  ∀ (s : State) (j q : Nat),
    let head := s.dev.dget (O.QUEUE_HEAD j q)
    let seg := s.dev.dget (O.QUEUE_SEG j q)
    let w : Word512 := BitVec.ofNat 512 (leAt (s.dev.segRead seg (head % nth 0 (s.dev.job j).depths q * 64) 64) 0 64)
    (mayFetch s.dev j q = false → exec (.descriptorFetch j q) s = .next s) ∧
    (mayFetch s.dev j q = true → exec (.descriptorFetch j q) s = .next {
      s with dev := takeDescriptor j q head w (s.dev.segOk seg) (s.dev.dset (O.QUEUE_HEAD j q) ((head + 1) % 2 ^ 32)) }) ∧
    (mayFetch s.dev j q = true → s.dev.flight s.dev.sched.nextFlight = none → (∀ p ∈ (s.dev.job j).slow, p.1 < 16) → fld w.toNat 0 8 ≠ 9 →
      ∃ t x, exec (.descriptorFetch j q) s = .next t ∧ t.otp = s.otp ∧ t.pending = s.pending ∧
        t.dev.flight s.dev.sched.nextFlight = some x ∧ x.job = j ∧ x.queue = q ∧ x.index = head ∧ x.d = w ∧
        t.dev.sched.nextFlight = s.dev.sched.nextFlight + 1 ∧
        t.dev.dget (O.QUEUE_HEAD j q) = (head + 1) % 2 ^ 32 ∧
        t.dev.mem = s.dev.mem ∧ t.dev.lnk = s.dev.lnk ∧ t.dev.mbox = s.dev.mbox ∧
        (x.opcode ≠ 3 ∧ x.opcode ≠ 5 ∧ x.opcode ≠ 8 → t.dev.store = s.dev.store ∧ t.dev.srv = s.dev.srv))

/-- For a queue with a ring in a segment that may be written, writing a decided descriptor's record leaves the 32 bytes of the record at slot CTAIL mod QUEUE_DEPTH of the completion ring, every other byte of that segment's tier outside the slot as it was, CTAIL advanced by one modulo 2^32, and with NOTIFY the same bytes handed to the owner as message kind 0x21 of RSP; without NOTIFY nothing is sent. In a segment that may not be written (poisoned, a directory, compressed) no byte changes, and the rest happens. -/
def Obligations.CompletionRecordLandsInItsSlot : Prop :=
  ∀ (d : Dev) (x : Flight) (st : Nat),
    let depth := nth 0 (d.job x.job).depths x.queue
    let t := d.dget (O.COMPL_TAIL x.job x.queue)
    let seg := d.dget (O.COMPL_SEG x.job x.queue)
    let r := d.res seg
    let bs := leBytes 32 (completionWord x st)
    0 < depth →
    (d.segWriteStatus seg ≠ 0 → d.ringRecord x st = (let e := d.dset (O.COMPL_TAIL x.job x.queue) ((t + 1) % 2 ^ 32)
      if bit x.w 14 then e.sendOwner x.job 1 0x21 bs else e)) ∧
    (d.segWriteStatus seg = 0 → ∃ e : Dev, e.mem = (d.segWrite seg (t % depth * 32) bs).mem ∧
      e.segRead seg (t % depth * 32) 32 = bs ∧
      (∀ a, a < cellKey r.homeNo r.frame (t % depth * 32) ∨ cellKey r.homeNo r.frame (t % depth * 32) + 32 ≤ a →
        SMap.get 0 (e.tierMem r.homeNo) a = SMap.get 0 (d.tierMem r.homeNo) a) ∧
      e.dget (O.COMPL_TAIL x.job x.queue) = (t + 1) % 2 ^ 32 ∧
      (∀ k, k ≠ O.COMPL_TAIL x.job x.queue → e.dget k = d.dget k) ∧
      e = { d with dict := e.dict, mem := e.mem, mc := e.mc } ∧
      d.ringRecord x st = if bit x.w 14 then e.sendOwner x.job 1 0x21 bs else e)

/-- The command of move operation code `op`, for operation `k` of descriptor `f`. -/
def moveCmd (op f k : Nat) : Instr :=
  match op with
  | 1 => .alloc f k
  | 2 => .free f k
  | 3 => .promote f k
  | 4 => .demote f k
  | 5 => .rehome f k
  | 6 => .relocate f k
  | 7 => .pin f k
  | _ => .unpin f k

/-- Move descriptor `f`, which `x` holds, is ready and takes operation `k` next: a record of code `op`. -/
def MoveTakes (d : Dev) (f k op : Nat) (x : Flight) : Prop :=
  d.flight f = some x ∧ x.id = f ∧ x.opcode = 6 ∧ x.live = true ∧ (x.started || scoreFree d x) = true ∧ acceptedOps d x = k ∧
  k < moveCount x ∧ d.refReady (listRef x) false = true ∧ d.refStatus (listRef x) = 0 ∧ (moveOp (listRec d x k)).op = op

/-- The same, of its own and legal. -/
def MoveLegal (d : Dev) (f k op : Nat) (x : Flight) : Prop :=
  MoveTakes d f k op x ∧ moveBatch x = false ∧ moveOpOk (d.start f) x.job (listRec d x k) = true

/-- The move that operation `k` of descriptor `f` orders. -/
def moveOf (d : Dev) (f k : Nat) (x : Flight) : Move :=
  let o := moveOp (listRec d x k)
  { (default : Move) with
    seg := o.seg, of := some (f, k), op := o.op, compress := o.compress, transpose := o.transpose, home := o.home,
    tr := o.tr, tc := o.tc }

/-- No move runs or waits on segment `e`, and its entry is in use. -/
def Unmoved (d : Dev) (e : Nat) : Prop := (d.res e).st ≠ 0 ∧ (d.res e).st ≠ 2 ∧ d.waitingMoves e = []

/-- For a ready move descriptor whose list can be read, the command of its next operation answers a next state: a batch is taken whole; an operation that breaks its own rules records FIELD_RANGE; on a segment that moves or has moves waiting it queues, or records QUEUE_FULL behind 15. Of its own and legal, on a segment without moves: ALLOC allocates and records status and entry; FREE without pins or references frees frames, charges and entry and records OK, with references PAGE_LOCKED, pinned BUSY_PINNED; PROMOTE, DEMOTE, REHOME and RELOCATE whose destination can be reserved leave the entry moving with the destination held, PROMOTE with its own pin taken, and at their home already complete OK without a copy (RELOCATE always copies). A list that cannot be read completes POISON and poisons its segment. -/
def Obligations.MoveOperationsTakeEffect : Prop :=
  ∀ (s : State) (f k : Nat) (x : Flight),
    let d := s.dev.start f
    let y := { x with started := true }
    let m := moveOf s.dev f k x
    let o := moveOp (listRec s.dev x k)
    let r := d.res o.seg
    (∀ op, 1 ≤ op ∧ op ≤ 8 → MoveTakes s.dev f k op x →
      (moveBatch x = true → exec (moveCmd op f k) s = .next { s with dev := acceptBatch d y }) ∧
      (moveBatch x = false → moveOpOk d x.job (listRec s.dev x k) = false →
        exec (moveCmd op f k) s = .next { s with dev := addResult d f k stField (if op = 1 then 0 else o.seg) })) ∧
    (∀ op, 2 ≤ op ∧ op ≤ 8 → MoveLegal s.dev f k op x → r.st = 2 ∨ d.waitingMoves o.seg ≠ [] →
      exec (moveCmd op f k) s = .next { s with dev := if 15 ≤ r.queued then addResult d f k stQueueFull o.seg else d.queueMove m }) ∧
    (∀ op, s.dev.flight f = some x → x.opcode = 6 → x.live = true → (x.started || scoreFree s.dev x) = true → acceptedOps s.dev x = k →
      k < moveCount x → s.dev.refReady (listRef x) false = true → s.dev.refStatus (listRef x) ≠ 0 → 1 ≤ op ∧ op ≤ 8 →
      exec (moveCmd op f k) s = .next {
        s with dev := (poisonSeg s.dev (listRef x).seg (s.dev.res (listRef x).seg).frame).finish f stPoison }) ∧
    (MoveLegal s.dev f k 1 x → exec (.alloc f k) s = .next {
      s with dev := let a := d.alloc x.job o.tier o.home o.len64 o.fmt o.kind
                    addResult a.1 f k a.2.1 a.2.2 }) ∧
    (MoveLegal s.dev f k 2 x → Unmoved d o.seg →
      (d.pinsOn o.seg = 0 → r.refs = 0 →
        exec (.free f k) s = .next { s with dev := addResult ((dropWaiting d o.seg stField).freeSeg o.seg) f k stOk o.seg }) ∧
      (d.pinsOn o.seg = 0 → 0 < r.refs → exec (.free f k) s = .next { s with dev := addResult d f k stPageLocked o.seg }) ∧
      (0 < d.pinsOn o.seg → exec (.free f k) s = .next { s with dev := addResult d f k stBusyPinned o.seg })) ∧
    (∀ h c, moveDest d m = (some h, c) → Unmoved d o.seg → r.st = 1 → d.pinsOn o.seg = 0 →
      (h = r.homeNo → m.transpose = false → c = r.comp →
        (MoveLegal s.dev f k 4 x → exec (.demote f k) s = .next { s with dev := addResult d f k stOk o.seg }) ∧
        (MoveLegal s.dev f k 5 x → r.tier = 0 →
          exec (.rehome f k) s = .next { s with dev := addResult d f k stOk o.seg })) ∧
      (¬(h = r.homeNo ∧ m.transpose = false ∧ c = r.comp) → ∀ e, startCopy d m h c = .copy e →
        (MoveLegal s.dev f k 4 x → exec (.demote f k) s = .next { s with dev := e }) ∧
        (MoveLegal s.dev f k 5 x → r.tier = 0 → exec (.rehome f k) s = .next { s with dev := e }))) ∧
    (MoveLegal s.dev f k 6 x → Unmoved d o.seg → r.st = 1 → ∀ e, startCopy d m r.homeNo r.comp = .copy e →
      exec (.relocate f k) s = .next { s with dev := e }) ∧
    (MoveLegal s.dev f k 3 x → Unmoved d o.seg → r.st = 1 → d.dget (O.PINS_HELD r.owner) < 4096 → d.pinFree o.seg false = true →
      let p := d.ledgerPin r.owner o.seg
      ∀ h c, moveDest p m = (some h, c) →
      (h = (p.res o.seg).homeNo → m.transpose = false → c = (p.res o.seg).comp →
        exec (.promote f k) s = .next { s with dev := addResult p f k stOk o.seg }) ∧
      (¬(h = (p.res o.seg).homeNo ∧ m.transpose = false ∧ c = (p.res o.seg).comp) →
        ∀ e, startCopy p m h c = .copy e → exec (.promote f k) s = .next { s with dev := e }))

/-- For a ready move descriptor that is no batch and names an unmoved segment of its job: PIN and PROMOTE of a job that holds 4,096 explicit pins record QUOTA_EXCEEDED and take no pin; PIN of a job that holds fewer takes a pin, one more in the job's ledger for that segment and in PINS_HELD, and records OK, or waits where the entry can grant none now (its counter at the maximum, a drain, an evacuation); UNPIN of a segment on which the job holds a pin releases it: one fewer in the ledger, in PINS_HELD and on the entry, OK; UNPIN of a segment on which it holds none records FIELD_RANGE and changes nothing else. (PROMOTE is taken of an unpoisoned segment.) -/
def Obligations.PinLedger : Prop :=
  ∀ (s : State) (f k : Nat) (x : Flight),
    let d := s.dev.start f
    let e := (moveOp (listRec s.dev x k)).seg
    let j := (d.res e).owner
    Unmoved d e → j < 64 →
    (MoveLegal s.dev f k 7 x → 4096 ≤ d.dget (O.PINS_HELD j) →
      exec (.pin f k) s = .next { s with dev := addResult d f k stQuota e }) ∧
    (MoveLegal s.dev f k 3 x → 4096 ≤ d.dget (O.PINS_HELD j) → (d.res e).st = 1 →
      exec (.promote f k) s = .next { s with dev := addResult d f k stQuota e }) ∧
    (MoveLegal s.dev f k 7 x → d.dget (O.PINS_HELD j) < 4096 → d.pinFree e false = true →
      ∃ p : Dev, exec (.pin f k) s = .next { s with dev := addResult p f k stOk e } ∧
        p = { d with dict := p.dict, store := p.store } ∧
        p.ledgerCount j e = d.ledgerCount j e + 1 ∧ (p.res e).pin = (d.res e).pin + 1 ∧
        p.dget (O.PINS_HELD j) = d.dget (O.PINS_HELD j) + 1) ∧
    (MoveLegal s.dev f k 7 x → d.dget (O.PINS_HELD j) < 4096 → d.pinFree e false = false →
      exec (.pin f k) s = .next { s with dev := d.queueMove (moveOf s.dev f k x) }) ∧
    (MoveLegal s.dev f k 8 x → 0 < d.ledgerCount j e →
      ∃ p : Dev, exec (.unpin f k) s = .next { s with dev := addResult p f k stOk e } ∧
        p.ledgerCount j e = d.ledgerCount j e - 1 ∧ (p.res e).pin = (d.res e).pin - 1 ∧
        p.dget (O.PINS_HELD j) = d.dget (O.PINS_HELD j) - 1) ∧
    (MoveLegal s.dev f k 8 x → d.ledgerCount j e = 0 →
      exec (.unpin f k) s = .next { s with dev := addResult d f k stField e })

/-- With no active move on a segment, MOVE_QUEUE_HEAD takes the first waiting move that is no RELOCATE (else the first), which leaves the waiting moves and QUEUED one fewer, and ends it with the status its judgement gives or starts its copy; one that must wait for its pin stays. Where a move is active, or none waits, nothing changes. MOVE_COMMIT of an active move on which no pin is held and whose segment reads well commits it, and what waited for it is tried again; a write pin holds it back; a failed check poisons the segment; read pins leave the move draining. The landing of a move that neither transposes nor changes the compression leaves tier, stack and frame as the move says, and the segment's bytes read as before, provided the destination's run does not meet the source's. -/
def Obligations.MoveQueueHeadAndCommit : Prop :=
  (∀ (s : State) (e : Nat), (s.dev.activeMove e).isSome = true ∨ s.dev.waitingMoves e = [] → exec (.moveQueueHead e) s = .next s) ∧
  (∀ (s : State) (e : Nat) (m : Move), s.dev.activeMove e = none →
    (s.dev.waitingMoves e).find? (fun m => m.op != 6) = some m ∨
      ((s.dev.waitingMoves e).find? (fun m => m.op != 6) = none ∧ (s.dev.waitingMoves e).head? = some m) →
    let d := (s.dev.takeMove m).unqueue m
    (∀ d' st, judgeMove d m = .done d' st → exec (.moveQueueHead e) s = .next { s with dev := endMove d' m st }) ∧
    (∀ d', judgeMove d m = .copy d' → exec (.moveQueueHead e) s = .next { s with dev := d' }) ∧
    (judgeMove d m = .wait → exec (.moveQueueHead e) s = .next s)) ∧
  (∀ (s : State) (e : Nat) (m : Move), s.dev.activeMove e = some m →
    (0 < (s.dev.res e).wpin → exec (.moveCommit e) s = .next { s with dev := settle s.dev }) ∧
    ((s.dev.res e).wpin = 0 → s.dev.segOk e = false →
      exec (.moveCommit e) s = .next { s with dev := settle (poisonSeg s.dev e (s.dev.res e).frame) }) ∧
    ((s.dev.res e).wpin = 0 → s.dev.segOk e = true → 0 < commitPins s.dev m →
      exec (.moveCommit e) s = .next { s with dev := settle (s.dev.setStore (fun s => { s with moves := updFirst (fun n => n == m) (fun n => { n with drain := true }) s.moves })) }) ∧
    ((s.dev.res e).wpin = 0 → s.dev.segOk e = true → commitPins s.dev m = 0 →
      exec (.moveCommit e) s = .next { s with dev := settle (commitMove s.dev m) })) ∧
  (∀ (d : Dev) (m : Move),
    let r := d.res m.seg
    let home := if m.destTier = 0 then m.destHome else 12
    let src := cellKey r.homeNo r.frame 0
    let dst := cellKey home m.destFrame 0
    m.transpose = false → m.compress = r.comp → (m.destTier = 0 → m.destHome < 12) → r.len ≤ r.frames * 4096 →
    (r.tier = 0 → r.home < 12) →
    ((r.homeNo < 12 ↔ home < 12) → src + r.frames * 4096 ≤ dst ∨ dst + r.frames * 4096 ≤ src) →
    let e := (landMove d m r).1
    (e.res m.seg).homeNo = home ∧ (e.res m.seg).frame = m.destFrame ∧ (e.res m.seg).len = r.len ∧
    (∀ off n, off + n ≤ r.len → e.segRead m.seg off n = d.segRead m.seg off n))

/-- The command that carries a reduce record of KIND `k`. -/
def recordCmd (k port : Nat) (bs : Bytes) : Instr :=
  if k = 1 then .scaleUp port bs else if k = 2 then .scaleDown port bs else if k = 3 then .dataUp port bs else .abort port bs

/-- A record of KIND 1 to 4 that arrives on an up port of a module, whole and with a good check. -/
def GoodRecord (d : Dev) (port : Nat) (bs : Bytes) : Prop :=
  d.portUp port = true ∧ d.isHostPort port = false ∧ (d.port port).peerHost = false ∧ rcdGood bs = true

/-- REDUCE_CONTEXT_OPEN of a live, unstarted reduce descriptor that may read its gradient, whose context is not open and has room, opens it with count 0 and no scale folded, and takes the records that waited for it; without room nothing changes. REDUCE of a descriptor that agrees with its open context joins it: a relay adds its name only; a local rank gradient whose count stays within SUBTREE_C and whose scale bytes are good adds one to the count and folds its scale bytes, and where SCALE_DOWN has come already its tiles are added at once; the wave then goes on. One with a bad scale byte completes SCALE_RANGE and stops the reduction with ABORT. One that disagrees, or takes the count beyond SUBTREE_C, completes FIELD_RANGE (log 53). A descriptor whose gradient is held by an earlier one waits. -/
def Obligations.ReduceDescriptorsJoin : Prop :=
  (∀ (s : State) (f : Nat) (x : Flight), reduceFlight s.dev f = some x → scoreFree s.dev x = true →
    let t := reduceD x.w
    s.dev.ctxOf t.tag t.id t.epoch = none →
      (ctxRoom s.dev x.job t.tiles = true →
        exec (.reduceContextOpen f) s = .next { s with dev := drainRecords (openCtx s.dev x t) t.tag t.id } ∧
        ∃ c, (openCtx s.dev x t).ctxOf t.tag t.id t.epoch = some c ∧ c.count = 0 ∧ c.fold = List.replicate (64 * t.tiles) 0x80 ∧
          c.flights = [] ∧ c.job = x.job ∧ c.nC = t.nC ∧ c.subtree = t.subtree ∧ c.tiles = t.tiles) ∧
      (ctxRoom s.dev x.job t.tiles = false → exec (.reduceContextOpen f) s = .next s ∧ exec (.reduce f) s = .next s)) ∧
  (∀ (s : State) (f : Nat) (x : Flight), reduceFlight s.dev f = some x → scoreFree s.dev x = false →
    exec (.reduceContextOpen f) s = .next s ∧ exec (.reduce f) s = .next s) ∧
  (∀ (s : State) (f : Nat) (x : Flight) (c : RCtx), reduceFlight s.dev f = some x → scoreFree s.dev x = true →
    let t := reduceD x.w
    let l : LocalRank := ⟨x.id, t.rank, t.srcBlock, t.srcAddr⟩
    s.dev.ctxOf t.tag t.id t.epoch = some c →
      (ctxAgrees c x t = false ∨ (t.isLocal = true ∧ c.subtree ≤ c.count) →
        exec (.reduce f) s = .next { s with dev := s.dev.finish x.id stField }) ∧
      (ctxAgrees c x t = true → t.isLocal = false → exec (.reduce f) s = .next {
        s with dev := scaleProgress (s.dev.start x.id) { c with relays := c.relays ++ [x.id] } }) ∧
      (ctxAgrees c x t = true → t.isLocal = true → c.count < c.subtree →
        let sc := localScales s.dev x.job t.srcBlock t.srcAddr t.tiles
        let c1 := { c with locals := c.locals ++ [l], count := c.count + 1, fold := (c.fold.zip sc).map (fun p => foldScale p.1 p.2) }
        ((∀ b ∈ sc, scaleOf b ≠ .bad) → c.tb = none → exec (.reduce f) s = .next { s with dev := scaleProgress (s.dev.start x.id) c1 }) ∧
        ((∀ b ∈ sc, scaleOf b ≠ .bad) → c.tb ≠ none → exec (.reduce f) s = .next {
          s with dev := let p := addLocal (s.dev.start x.id, c1) l
                        scaleProgress p.1 p.2 }) ∧
        ((∃ b ∈ sc, scaleOf b = .bad) → exec (.reduce f) s = .next {
          s with dev := abortCtx (abortEvent (closeFlight ((s.dev.start x.id).addConds x.id [stScale]) x.id)
            { c with relays := x.id :: c.relays } 2) c none })))

/-- A good record on an up port that is no host port, with the TILES and STEP of its open context: SCALE_UP within SUBTREE_C folds its scale bytes, adds its CNT to the context's count and remembers its sender; SCALE_DOWN from the parent, the first to come, gives the agreed bytes; DATA_UP of a tile within the context, from a module that sent SCALE_UP, within SUBTREE_C, adds its tile; ABORT closes the context, its descriptors discarded, the other neighbours told. A record of a name that has no open context waits. REDUCE_TIMEOUT of an open context that has not committed sends ABORT to its neighbours, completes each of its undecided descriptors DISCARDED, closes the context and reports the abort; afterwards no context of that name is open. -/
def Obligations.ReduceRecordsAreTaken : Prop :=
  (
  ∀ (s : State) (port : Nat) (bs : Bytes), GoodRecord s.dev port bs →
    let r := rcdOf bs
    let d := s.dev
    (d.red.ctxs.find? (fun c => c.tag == r.tag && c.id == r.id) = none →
      exec (recordCmd r.kind port bs) s = .next {
        s with dev := d.setRed (fun q => { q with held := q.held ++ [(port, bs)] }) }) ∧
    (∀ c, d.ctxOf r.tag r.id r.epoch = some c →
      (r.kind = 4 → exec (.abort port bs) s = .next { s with dev := abortCtx d c (some port) }) ∧
      (r.tiles = c.tiles → r.step = c.updStep →
        (r.kind = 1 → c.count + r.cnt ≤ c.subtree → exec (.scaleUp port bs) s = .next {
          s with dev := scaleProgress d { c with
            fold := (c.fold.zip (r.body.map BitVec.toNat)).map (fun p => foldScale p.1 p.2), count := c.count + r.cnt,
            kids := c.kids ++ [(port, r.src)] } }) ∧
        (r.kind = 2 → c.root = false → c.tb = none → port = c.parentPort →
          exec (.scaleDown port bs) s = .next { s with dev := agree d c (r.body.map BitVec.toNat) }) ∧
        (r.kind = 3 → r.tile < c.tiles → c.kids.contains (port, r.src) = true → c.tb ≠ none →
          nth 0 c.tileCnt r.tile + r.cnt ≤ c.subtree →
          c.tileCnt.length = c.tiles →
          ∃ e c', exec (.dataUp port bs) s = .next { s with dev := dataProgress e c' } ∧
            nth 0 c'.tileCnt r.tile = nth 0 c.tileCnt r.tile + r.cnt ∧ c'.kids = c.kids ∧ c'.base = c.base ∧ c'.tb = c.tb ∧
            c'.void.contains r.tile = (r.void || c.void.contains r.tile) ∧ e = { d with red := e.red } ∧
            e.red = { d.red with store := e.red.store } ∧
            (∀ b n, b < 64 → n < 64 →
              s32 (SMap.get 0 e.red.store ((c.base + 64 * r.tile + b) * 64 + n)) =
                accClamp false (s32 (SMap.get 0 d.red.store ((c.base + 64 * r.tile + b) * 64 + n)) +
                  s32 (BitVec.ofNat 32 (leAt r.body (256 * b + 4 * n) 4)))))))) ∧
  (
  ∀ (s : State) (tag id epoch : Nat) (c : RCtx), s.dev.ctxOf tag id epoch = some c → c.committed = false →
    ∃ t, exec (.reduceTimeout tag id epoch) s = .next t ∧
      t.dev = abortEvent (abortCtx s.dev c none) c 1 ∧
      t.dev.ctxOf tag id epoch = none ∧
      (∀ f ∈ c.flights, ∀ x, s.dev.flight f = some x → x.done = none →
        ∃ y, t.dev.flight f = some y ∧ y.done = some stDiscard))

/-- Of a record that arrives on an up port of a module: one whose CRC fails is discarded as a protocol fault of the sending port; one whose EPOCH differs from the open context's is discarded and counted in REDUCE_STALE_RECORDS; so is a DATA_UP from a module that sent no SCALE_UP, and a record whose count would take the context beyond SUBTREE_C; one (other than ABORT) whose TILES or STEP differs from the open context's closes the context with ABORT. -/
def Obligations.FaultyReduceRecordsAreRefused : Prop :=
  ∀ (s : State) (port : Nat) (bs : Bytes),
    let r := rcdOf bs
    let d := s.dev
    let stale := fun (c : RCtx) => (.next { s with dev := d.bump (O.REDUCE_STALE_RECORDS c.job) } : Host.Outcome State Fault Refusal)
    (d.portUp port = true → 1 ≤ r.kind ∧ r.kind ≤ 4 → crc32c (bs.take 28 ++ bs.drop 32) ≠ leAt bs 28 4 →
      exec (recordCmd r.kind port bs) s = .next { s with dev := protoFault d port }) ∧
    (GoodRecord d port bs →
      (∀ c, d.ctxOf r.tag r.id r.epoch = none → d.red.ctxs.find? (fun c => c.tag == r.tag && c.id == r.id) = some c →
        exec (recordCmd r.kind port bs) s = stale c) ∧
      (∀ c, d.ctxOf r.tag r.id r.epoch = some c →
        (r.kind = 3 → r.tiles = c.tiles → r.step = c.updStep → c.kids.contains (port, r.src) = false →
          exec (.dataUp port bs) s = stale c) ∧
        (r.kind = 1 → r.tiles = c.tiles → r.step = c.updStep → c.subtree < c.count + r.cnt →
          exec (.scaleUp port bs) s = stale c) ∧
        (r.kind = 3 → r.tiles = c.tiles → r.step = c.updStep → c.subtree < nth 0 c.tileCnt r.tile + r.cnt →
          exec (.dataUp port bs) s = stale c) ∧
        (r.kind ≠ 4 → (r.tiles ≠ c.tiles ∨ r.step ≠ c.updStep) →
          exec (recordCmd r.kind port bs) s = .next { s with dev := abortCtx d c none })))

/-- Folding scale bytes one after another from 0x80 gives 0x80 exactly when every byte is 0x80, and otherwise the byte of the largest exponent among the others; so the fold of any rearrangement is the same. The agreed exponent is Tb + 15 + ceil_log2(N_C) - 31, or -32768 when Tb is 0x80, where ceil_log2 is the least c with N_C at most 2^c. -/
def Obligations.FoldedScaleIsTheLargest : Prop :=
  (∀ bs : List Nat, (∀ b ∈ bs, b < 256) →
    let t := bs.foldl foldScale 0x80
    (t = 0x80 ↔ ∀ b ∈ bs, b = 0x80) ∧
    (t ≠ 0x80 → t ∈ bs ∧ ∀ b ∈ bs, b ≠ 0x80 → toSgn 8 b ≤ toSgn 8 t)) ∧
  (∀ bs cs : List Nat, (∀ b ∈ bs, b < 256) → bs.Perm cs → bs.foldl foldScale 0x80 = cs.foldl foldScale 0x80) ∧
  (∀ tb n : Nat, 1 ≤ n →
    agreedF tb n = (if tb = 0x80 then -32768 else toSgn 8 tb + 15 + clog2 n - 31) ∧
    n ≤ 2 ^ clog2 n ∧ ∀ c, n ≤ 2 ^ c → clog2 n ≤ c)

/-- For N_C from 1 to 65,536, an element code of magnitude at most 32,767 at an exponent E not above the block's largest exponent Tb, aligned to the agreed exponent of the block in either rounding (the generator's word being 32 bits), has magnitude at most 2^(31 - ceil(log2 N_C)). -/
def Obligations.AlignedContributionIsBounded : Prop :=
  ∀ (rn : Rnd) (row col kb tb nC : Nat) (e t : Int), 1 ≤ nC → nC ≤ 65536 → tb ≠ 0x80 → e ≤ toSgn 8 tb →
    -32767 ≤ t ∧ t ≤ 32767 → (rn.stoch = true → genWord rn.seed rn.step rn.tag row col kb < 2 ^ 32) →
    let v := alignTo rn row col kb (agreedF tb nC) e t
    v ≤ 2 ^ (31 - clog2 nC) ∧ -(2 ^ (31 - clog2 nC) : Int) ≤ v

/-- Where 64 codes are added twice to an entry of the reduce store and no partial sum, in either order, leaves 32 bits, the entry holds the exact sums, neither addition reports a clamp, the module's state is the same for either order, and every other code of the store is as it was. -/
def Obligations.StoreSumIsOrderFree : Prop :=
  ∀ (d : Dev) (e : Nat) (us vs : List Int), us.length = 64 → vs.length = 64 →
    let old := fun i => s32 (SMap.get 0 d.red.store (e * 64 + i))
    let fits := fun (v : Int) => -(2 ^ 31) ≤ v ∧ v < 2 ^ 31
    (∀ i, i < 64 → fits (old i + nth 0 us i) ∧ fits (old i + nth 0 vs i) ∧ fits (old i + nth 0 us i + nth 0 vs i)) →
    let a := addEntry d e us
    let b := addEntry a.1 e vs
    a.2 = false ∧ b.2 = false ∧ b.1 = (addEntry (addEntry d e vs).1 e us).1 ∧
    (∀ i, i < 64 → s32 (SMap.get 0 b.1.red.store (e * 64 + i)) = old i + nth 0 us i + nth 0 vs i) ∧
    (∀ k, k < e * 64 ∨ e * 64 + 64 ≤ k → SMap.get 0 b.1.red.store k = SMap.get 0 d.red.store k)

/-- UPDATE_CONFIG waits while an earlier descriptor holds its operand or an APPLY of the group is in flight; then an image that breaks a rule completes FIELD_RANGE, and one that holds completes OK and is the group's entry, with 0 in its count of every stack. GROUP_STEP_SET on the VALID group that GROUP_SELECT names and the job owns sets every count and clears INCONSISTENT, or waits behind an APPLY that is writing; on another group it changes nothing. Other groups' entries and counts stay. UPDATE_APPLY of an unstarted APPLY whose write pins can be granted takes them and starts it on the stack that holds W, or completes FIELD_RANGE where a segment is no longer right; else it waits. APPLY_EXECUTE does nothing before its bucket has committed; an APPLY that has begun to write goes on; other TILES: FIELD_RANGE; a frozen group's bucket is dropped and FROZEN_SKIPS counted; an inconsistent group: STEP_MISMATCH; a STEP behind a pending close waits; a STEP not COUNT + 1: STEP_MISMATCH, group marked and reported; the next STEP waits for its curves' read pins; a segment that refuses: its status; a bad curve: FIELD_RANGE; a saturated block under SAT_ABORT: SAT_ABORT; a bad scale byte: SCALE_RANGE; else the bucket is applied. -/
def Obligations.UpdateConfigSetsTheGroup : Prop :=
  (
  (∀ (s : State) (f : Nat), updateFlight s.dev f false = none → exec (.updateConfig f) s = .next s) ∧
  (∀ (s : State) (f : Nat) (x : Flight), updateFlight s.dev f false = some x →
    let g := (updateD x.w).group
    let held := s.dev.red.applies.any (fun a => a.group == g && !a.finished)
    (x.started = false → scoreFree s.dev x = false → exec (.updateConfig f) s = .next s) ∧
    (held = true → exec (.updateConfig f) s = .next s) ∧
    (x.started = true ∨ scoreFree s.dev x = true → held = false →
      (configOk s.dev x = false → exec (.updateConfig f) s = .next { s with dev := s.dev.finish f stField }) ∧
      (configOk s.dev x = true → ∃ t y, exec (.updateConfig f) s = .next t ∧ t.dev.flight f = some y ∧ y.done = some stOk ∧
        t.dev.group g = configImage s.dev x ∧ (∀ st, st < 12 → t.dev.count g st = 0) ∧
        (∀ h, h ≠ g → t.dev.group h = s.dev.group h ∧ ∀ st, st < 12 → t.dev.count h st = s.dev.count h st) ∧
        (x.pins = [] → t.dev.mem = s.dev.mem ∧ t.dev.dict = s.dev.dict)))) ∧
  (∀ (s : State) (j v : Nat),
    let g := s.dev.dget (O.GROUP_SELECT j)
    (¬((s.dev.group g).valid = true ∧ (s.dev.group g).job = j) → exec (.groupStepSet j v) s = .next s) ∧
    ((s.dev.group g).valid = true → (s.dev.group g).job = j →
      (groupWriting s.dev g = true → exec (.groupStepSet j v) s = .next {
        s with dev := s.dev.setRed (fun r => { r with stepSets := r.stepSets ++ [(g, v)] }) }) ∧
      (groupWriting s.dev g = false →
        ∃ t, exec (.groupStepSet j v) s = .next t ∧ t.dev = { s.dev with red := t.dev.red } ∧
        t.dev.group g = { s.dev.group g with inconsistent := false } ∧ (∀ st, st < 12 → t.dev.count g st = v % 2 ^ 32) ∧
        (∀ h, h ≠ g → t.dev.group h = s.dev.group h ∧ ∀ st, st < 12 → t.dev.count h st = s.dev.count h st))))) ∧
  (
  (∀ (s : State) (f : Nat), updateFlight s.dev f true = none → exec (.updateApply f) s = .next s ∧ ∀ n, exec (.applyExecute ⟨f, n⟩) s = .next s) ∧
  (∀ (s : State) (f : Nat) (x : Flight), updateFlight s.dev f true = some x →
    let t := updateD x.w
    (x.started = true ∨ x.pinsReady s.dev (applyPins x) = false → exec (.updateApply f) s = .next s) ∧
    (x.started = false → x.pinsReady s.dev (applyPins x) = true → applyOk s.dev x = false →
      exec (.updateApply f) s = .next { s with dev := (endApply s.dev x false).finish f stField }) ∧
    (x.started = false → x.pinsReady s.dev (applyPins x) = true → applyOk s.dev x = true →
      exec (.updateApply f) s = .next {
        s with dev := ((s.dev.grantPins f (applyPins x)).modApply f (fun a => { a with stack := (s.dev.res t.wSeg).home })).start f })) ∧
  (∀ (s : State) (f : Nat) (upTo : Option Nat) (x : Flight), updateFlight s.dev f true = some x →
    let t := updateD x.w
    x.started = false ∨ (∀ c, s.dev.ctxOf t.tag t.id t.epoch = some c → c.committed = false ∨ c.job ≠ x.job) →
    exec (.applyExecute ⟨f, upTo⟩) s = .next s) ∧
  (∀ (s : State) (f : Nat) (upTo : Option Nat) (x : Flight) (c : RCtx), updateFlight s.dev f true = some x → x.started = true →
    let t := updateD x.w
    let g := s.dev.group t.group
    s.dev.ctxOf t.tag t.id t.epoch = some c → c.committed = true → c.job = x.job →
    let done := ((s.dev.applyOf x.id).map (·.written)).getD 0
    (0 < done → exec (.applyExecute ⟨f, upTo⟩) s = .next { s with dev := applyBucket s.dev x c done upTo }) ∧
    (done = 0 → c.tiles ≠ t.tiles → exec (.applyExecute ⟨f, upTo⟩) s = .next {
      s with dev := closeFlight ((endApply s.dev x false).addConds x.id [stField]) x.id }) ∧
    (done = 0 → c.tiles = t.tiles →
      let st := (s.dev.res t.wSeg).home
      let n := s.dev.count t.group st
      let ends := fun (d : Dev) (e : Nat) => exec (.applyExecute ⟨f, upTo⟩) s = .next {
        s with dev := closeFlight ((endApply d x false).addConds x.id [e]) x.id }
      let frozen := s.dev.frozenFor x t.group
      (frozen = true → exec (.applyExecute ⟨f, upTo⟩) s = .next {
        s with dev := closeFlight (endApply ((s.dev.dropCtx c).bump (O.FROZEN_SKIPS x.job)) x false) x.id }) ∧
      (frozen = false → g.inconsistent = true → exec (.applyExecute ⟨f, upTo⟩) s = .next { s with dev := applyMismatch s.dev x }) ∧
      (frozen = false → g.inconsistent = false → c.updStep = n + 2 → closePending s.dev t.group st = true →
        exec (.applyExecute ⟨f, upTo⟩) s = .next s) ∧
      (frozen = false → g.inconsistent = false → c.updStep ≠ n + 1 → ¬(c.updStep = n + 2 ∧ closePending s.dev t.group st = true) →
        let pay := leBytes 2 t.group ++ leBytes 1 st ++ leBytes 4 n ++ leBytes 4 c.updStep
        let e := applyMismatch (s.dev.setGroup t.group { g with inconsistent := true }) x
        exec (.applyExecute ⟨f, upTo⟩) s = .next { s with dev := e.eventJ 0x0701 3 6 0 x.job x.step pay }) ∧
      (frozen = false → g.inconsistent = false → c.updStep = n + 1 →
        (curvesReady s.dev g = false → exec (.applyExecute ⟨f, upTo⟩) s = .next s) ∧
        (∀ e, curvesReady s.dev g = true → applyRefused s.dev t = some e → ends s.dev e) ∧
        (curvesReady s.dev g = true → applyRefused s.dev t = none →
          let d := s.dev.forEach [g.curveSeg, g.bcSeg] Dev.touch
          let sat := (∃ m ∈ c.sat, m ≠ 0) ∧ d.setting x 3 = 1
          (curvesOk d (d.group t.group) = false → ends d stField) ∧
          (curvesOk d (d.group t.group) = true → sat → ends d stSat) ∧
          (curvesOk d (d.group t.group) = true → ¬sat → applyScaleBad d t = true → ends d stScale) ∧
          (curvesOk d (d.group t.group) = true → ¬sat → applyScaleBad d t = false →
            exec (.applyExecute ⟨f, upTo⟩) s = .next { s with dev := applyBucket d x c 0 upTo }))))))

/-- For a curve with NPTS points of strictly increasing X: at or before X[0] its code is Y[0]; at or after X[NPTS-1] it is Y[NPTS-1]; between X[i] <= t < X[i+1] it is Y[i] plus (Y[i+1] - Y[i]) * (t - X[i]) / (X[i+1] - X[i]) rounded to the nearest integer, ties to the even one; and an update takes that code with the curve's exponent. -/
def Obligations.CurveValue : Prop :=
  (∀ (c : Curve) (t : Nat), 1 ≤ c.npts → c.xs.length = c.npts → c.ys.length = c.npts → rising c.xs = true →
    let x := fun i => nth 0 c.xs i
    let y := fun i => nth 0 c.ys i
    (t ≤ x 0 → c.at t = y 0) ∧ (x (c.npts - 1) ≤ t → c.at t = y (c.npts - 1)) ∧
    (∀ i, i + 1 < c.npts → x i ≤ t → t < x (i + 1) →
      let q := c.at t - y i
      let num := (y (i + 1) - y i) * ((t : Int) - x i)
      let den := ((x (i + 1) : Int) - x i)
      0 < den ∧ 2 * (num - q * den) ≤ den ∧ -den ≤ 2 * (num - q * den) ∧
      ((2 * (num - q * den) = den ∨ 2 * (num - q * den) = -den) → q % 2 = 0))) ∧
  (∀ (d : Dev) (x : Flight) (g t : Nat),
    (updIn d x g t).lr = ⟨(d.curve (d.group g).curveSeg (d.group g).curveLr).at t, (d.curve (d.group g).curveSeg (d.group g).curveLr).exp⟩ ∧
    (updIn d x g t).wd = ⟨(d.curve (d.group g).curveSeg (d.group g).curveWd).at t, (d.curve (d.group g).curveSeg (d.group g).curveWd).exp⟩ ∧
    (updIn d x g t).b1 = (d.curve (d.group g).curveSeg (d.group g).curveB1).at t ∧
    (updIn d x g t).b2 = (d.curve (d.group g).curveSeg (d.group g).curveB2).at t)

/-- Flight `f` is a live, unstarted `sync` descriptor of operation `sop`. -/
def SyncReady (d : Dev) (f sop : Nat) (x : Flight) : Prop :=
  d.flight f = some x ∧ x.opcode = 11 ∧ (syncD x.w).sop = sop ∧ x.live = true ∧ x.started = false

/-- A barrier token of KIND `kind` that a module gets on an up port, with its 16-byte body. -/
def TokenOk (d : Dev) (port : Nat) (m : Msg) (kind : Nat) : Prop :=
  d.portUp port = true ∧ m.vc = 6 ∧ m.hdr.kind = kind ∧ d.isHostPort port = false ∧ (d.port port).peerHost = false ∧
  m.body.length = 16

/-- The six operations of page-edit, by OP. -/
def editCmds (f k : Nat) : List (Nat × Instr) :=
  [(1, .pageEditInit f k), (2, .pageEditMap f k), (3, .pageEditUnmap f k), (4, .pageEditSetLen f k),
   (5, .pageEditSetMask f k), (6, .pageEditClearMask f k)]

/-- Flight `f` is a live page-edit that nothing holds back, `k` of its operations taken. -/
def EditReady (d : Dev) (f k : Nat) (x : Flight) : Prop :=
  d.flight f = some x ∧ x.opcode = 10 ∧ x.live = true ∧ (x.started = true ∨ scoreFree d x = true) ∧
  (d.srv.edits.filter (fun e => e.f == f)).length = k ∧ k < editCount x ∧ d.refReady (listRef x) false = true

/-- Flight `f` is a live, unstarted fork that nothing holds back. -/
def ForkReady (d : Dev) (f : Nat) (x : Flight) : Prop :=
  d.flight f = some x ∧ x.opcode = 9 ∧ x.live = true ∧ x.started = false ∧ scoreFree d x = true

/-- SEM_ACQUIRE of a free semaphore without waiters by a job that may use it grants it: HELD with the job as owner and its step, BROKEN cleared and handed to the descriptor, which completes OK. Where it is held or waited for, the descriptor waits behind the others, undecided. SEM_RELEASE by the owner completes OK; without waiters the semaphore is then free, with waiters it is held by the first one's job, which leaves the list and whose descriptor completes OK. Other semaphores stay as they were. An operation by a job outside SEM_JOBS, an acquire by a job that holds it or waits for it, and a release by another than the owner complete FIELD_RANGE and change nothing else; on a flight that is no live, unstarted descriptor of the operation nothing changes. SEM_GRACE_EXPIRY of a semaphore whose grace timer runs discards the owner's undecided descriptors of the holding step and later ones, reports SEM_BROKEN with the semaphore and the first waiter's job, breaks the semaphore (free, BROKEN set) and serves the first waiter that is not displaced. Without a running timer nothing changes. -/
def Obligations.SemaphoresAreGrantedAndReleased : Prop :=
  (
  (∀ (s : State) (f : Nat), (∀ x, ¬SyncReady s.dev f 1 x) → exec (.semAcquire f) s = .next s) ∧
  (∀ (s : State) (f : Nat), (∀ x, ¬SyncReady s.dev f 2 x) → exec (.semRelease f) s = .next s) ∧
  (∀ (s : State) (f : Nat) (x : Flight),
    let n := (syncD x.w).sem
    let m := s.dev.sem n
    (SyncReady s.dev f 1 x →
      (bit m.jobs x.job = false ∨ (m.held = true ∧ m.owner = x.job) ∨ (∃ w ∈ m.waiters, w.2 = x.job)) →
      exec (.semAcquire f) s = .next { s with dev := s.dev.finish f stField }) ∧
    (SyncReady s.dev f 2 x → (bit m.jobs x.job = false ∨ m.held = false ∨ m.owner ≠ x.job) →
      exec (.semRelease f) s = .next { s with dev := s.dev.finish f stField }) ∧
    (SyncReady s.dev f 1 x → bit m.jobs x.job = true → ¬(m.held = true ∧ m.owner = x.job) → (∀ w ∈ m.waiters, w.2 ≠ x.job) →
      (m.held = false → m.waiters = [] → ∃ t y, exec (.semAcquire f) s = .next t ∧
        t.dev.sem n = { m with held := true, broken := false, owner := x.job, step := x.step, grace := false } ∧
        t.dev.flight f = some y ∧ y.done = some stOk ∧ y.broken = m.broken ∧
        (∀ k, k ≠ n → t.dev.sem k = s.dev.sem k) ∧ (x.pins = [] → t.dev.mem = s.dev.mem ∧ t.dev.dict = s.dev.dict)) ∧
      (m.held = true ∨ m.waiters ≠ [] → ∃ t y, exec (.semAcquire f) s = .next t ∧
        t.dev.sem n = { m with
          waiters := m.waiters ++ [(f, x.job)]
          grace := m.held && t.dev.isDisplaced m.owner && (m.waiters ++ [(f, x.job)]).any (fun w => w.2 != m.owner) } ∧
        t.dev.flight f = some y ∧ y.done = none ∧ y.started = true ∧
        (∀ k, k ≠ n → t.dev.sem k = s.dev.sem k) ∧ t.dev.mem = s.dev.mem ∧ t.dev.dict = s.dev.dict)) ∧
    (SyncReady s.dev f 2 x → bit m.jobs x.job = true → m.held = true → m.owner = x.job →
      (m.waiters = [] → ∃ t y, exec (.semRelease f) s = .next t ∧
        t.dev.sem n = { m with held := false, owner := 0, step := 0, grace := false } ∧
        t.dev.flight f = some y ∧ y.done = some stOk ∧
        (∀ k, k ≠ n → t.dev.sem k = s.dev.sem k) ∧ (x.pins = [] → t.dev.mem = s.dev.mem ∧ t.dev.dict = s.dev.dict)) ∧
      (∀ w ws z, m.waiters = w :: ws → (∀ v ∈ ws, v.1 ≠ w.1) → w.1 ≠ f → s.dev.flight w.1 = some z → z.done = none →
        ∃ t y u, exec (.semRelease f) s = .next t ∧
        (t.dev.sem n).held = true ∧ (t.dev.sem n).owner = z.job ∧ (t.dev.sem n).step = z.step ∧ (t.dev.sem n).waiters = ws ∧
        t.dev.flight f = some y ∧ y.done = some stOk ∧ t.dev.flight w.1 = some u ∧ u.done = some stOk ∧
        (∀ k, k ≠ n → t.dev.sem k = s.dev.sem k) ∧
        (x.pins = [] → z.pins = [] → t.dev.mem = s.dev.mem ∧ t.dev.dict = s.dev.dict))))) ∧
  (
  ∀ (s : State) (n : Nat),
    let m := s.dev.sem n
    (m.grace = false → exec (.semGraceExpiry n) s = .next s) ∧
    (m.grace = true →
    let fs := (s.dev.sched.flights.filter (fun x => x.job == m.owner && decide (m.step ≤ x.step) && x.done.isNone)).map (·.id)
    let e := breakSem (semBrokenEvent (discardAll s.dev fs) n m) n
    exec (.semGraceExpiry n) s = .next { s with dev := serveSem e n true } ∧
    (e.sem n).held = false ∧ (e.sem n).broken = true ∧ (e.sem n).owner = 0 ∧ (e.sem n).grace = false))

/-- BARRIER opens its barrier with one arrival, or adds one to the open barrier, and the tree goes on as the count allows. On an up module port, SYNC_ARRIVE with a 16-byte body adds its CNT and remembers the port; SYNC_RELEASE from the parent, after the arrival went up, releases the barrier and passes the release to every child; SYNC_ABORT ends it, every descriptor discarded, the other neighbours told. A token for a barrier newer than any open waits; one older than the open barrier is counted in SYNC_STALE. BARRIER_TIMEOUT aborts the barrier, which is then no longer open. A token on a down port is dropped; one from a host, or of another length, is a protocol fault of its port; a release that is not the parent's, and a command without its descriptor or barrier, change nothing. -/
def Obligations.BarriersCountArrivals : Prop :=
  (∀ (s : State) (f : Nat), (∀ x, ¬SyncReady s.dev f 0 x) → exec (.barrier f) s = .next s) ∧
  (∀ (s : State) (tag id epoch : Nat), s.dev.barrierOf tag id epoch = none → exec (.barrierTimeout tag id epoch) s = .next s) ∧
  (∀ (s : State) (port : Nat) (m : Msg), ∀ c ∈ [(1, Instr.syncArrive port m), (2, .syncRelease port m), (3, .syncAbort port m)],
    (s.dev.portUp port = false ∨ m.vc ≠ 6 ∨ m.hdr.kind ≠ c.1 → exec c.2 s = .next s) ∧
    (s.dev.portUp port = true → m.vc = 6 → m.hdr.kind = c.1 →
      s.dev.isHostPort port = true ∨ (s.dev.port port).peerHost = true ∨ m.body.length ≠ 16 →
      exec c.2 s = .next { s with dev := protoFault s.dev port })) ∧
  (∀ (s : State) (f : Nat) (x : Flight), SyncReady s.dev f 0 x →
    let t := syncD x.w
    (∀ b, s.dev.barrierOf t.tag t.id t.epoch = some b →
      let b' := { b with count := b.count + 1, flights := b.flights ++ [f] }
      exec (.barrier f) s = .next { s with dev := barrierProgress ((s.dev.start f).setBarrier b') b' }) ∧
    (s.dev.barrierOf t.tag t.id t.epoch = none →
      let b : Barrier := { tag := t.tag, id := t.id, epoch := t.epoch, job := x.job, n := t.n, subtree := t.subtree,
                           parentPort := t.parentPort, parentId := t.parentId, root := t.root, flights := [f], count := 1,
                           kids := [], sent := false }
      let d1 := (s.dev.start f).setSched (fun s => { s with barriers := s.barriers ++ [b] })
      exec (.barrier f) s = .next { s with dev := drainTokens (barrierProgress d1 b) t.tag t.id t.epoch } ∧
      d1.barrierOf t.tag t.id t.epoch = some b)) ∧
  (∀ (s : State) (port : Nat) (m : Msg),
    let found := s.dev.barrierOf (tokenTag m) (tokenId m) (tokenEpoch m)
    let older := s.dev.sched.barriers.any (fun b => b.tag == tokenTag m && b.id == tokenId m && decide (tokenEpoch m < b.epoch))
    (∀ b, found = some b →
      let b' := { b with count := b.count + tokenCnt m, kids := b.kids ++ [port] }
      (TokenOk s.dev port m 1 → exec (.syncArrive port m) s = .next {
        s with dev := barrierProgress (s.dev.setBarrier b') b' }) ∧
      (TokenOk s.dev port m 2 → b.root = false → b.sent = true → port = b.parentPort →
        exec (.syncRelease port m) s = .next { s with dev := releaseBarrier s.dev b }) ∧
      (TokenOk s.dev port m 2 → b.root = true ∨ b.sent = false ∨ port ≠ b.parentPort →
        exec (.syncRelease port m) s = .next s) ∧
      (TokenOk s.dev port m 3 → exec (.syncAbort port m) s = .next { s with dev := abortBarrier s.dev b (some port) })) ∧
    (found = none → ∀ c ∈ [(1, Instr.syncArrive port m), (2, .syncRelease port m), (3, .syncAbort port m)],
      TokenOk s.dev port m c.1 →
      (older = true → exec c.2 s = .next { s with dev := s.dev.bump O.SYNC_STALE }) ∧
      (older = false → exec c.2 s = .next {
        s with dev := s.dev.setSched (fun s => { s with heldTokens := s.heldTokens ++ [(port, m)] }) }))) ∧
  (∀ (s : State) (tag id epoch : Nat) (b : Barrier), s.dev.barrierOf tag id epoch = some b →
    ∃ t, exec (.barrierTimeout tag id epoch) s = .next t ∧ t.dev = abortBarrier s.dev b none ∧
      t.dev.barrierOf tag id epoch = none)

/-- A page-edit command whose descriptor is live, held by nothing, with as many operations taken as the index says: a list that does not read poisons its segment and completes POISON; outside queue 4 one that names a loop's directory completes PAGE_LOCKED; an operation of another of the six kinds, or a command beyond 4,096 pending operations, waits; one with a reserved OP, a stray bit, a broken rule or a compressed directory ends the command with the status of R436; else it becomes pending, and the last completes the descriptor OK and gives all of them the step at which they take effect. PAGE_EDIT_APPLY applies the due operations of a directory in order, counts them, and raises GEN by one, modulo 2^32. At the issue of a fork that names a stream of a serving loop of its job, streams, rows and segments for every child are reserved and noted with the flight, or, where they cannot all be had, it completes NO_PAGES and nothing is taken; where the stream no longer runs, FIELD_RANGE. FORK of a live, unstarted fork descriptor that nothing holds back hands it to its loop, which applies its forks in that order; a descriptor whose loop has gone completes DISCARDED; else nothing changes. -/
def Obligations.PageEditsAreAccepted : Prop :=
  (
  (∀ (s : State) (f k : Nat), ∀ c ∈ editCmds f k, (∀ x, ¬EditReady s.dev f k x) → exec c.2 s = .next s) ∧
  (∀ (s : State) (f k : Nat) (x : Flight), ∀ c ∈ editCmds f k, EditReady s.dev f k x →
    let d := s.dev
    let v := listRec d x k
    let e := editOf d x k
    let mine := d.srv.edits.filter (fun e => e.f == f)
    let owned := x.queue < 4 ∧ ∃ i, i < editCount x ∧ d.loopOwned (fld (listRec d x i) 4 19) = true
    let full := k = 0 ∧ 4096 < (d.editsOf x.job).length + editCount x
    let bad := fld v 0 4 ≠ c.1 ∨ editBitsOk v = false ∨ editRule d.preview x e = false ∨ (d.preview.res e.dir).comp = true
    (d.refStatus (listRef x) ≠ 0 → exec c.2 s = .next { s with dev := editReject (poisonList d x) x 127 stPoison }) ∧
    (d.refStatus (listRef x) = 0 →
      (owned → exec c.2 s = .next { s with dev := editReject d x k stPageLocked }) ∧
      (¬owned → fld v 0 4 ≠ c.1 → 1 ≤ fld v 0 4 → fld v 0 4 ≤ 6 → exec c.2 s = .next s) ∧
      (¬owned → fld v 0 4 = c.1 ∨ fld v 0 4 < 1 ∨ 6 < fld v 0 4 →
        (full → exec c.2 s = .next s) ∧
        (¬full → bad → exec c.2 s = .next { s with dev := editReject d x k (editStatus d.preview e) }) ∧
        (¬full → ¬bad →
          let d1 := (d.start f).setSrv (fun s => { s with edits := s.edits ++ [e] })
          let dirs := ((mine ++ [e]).map (·.dir)).dedup
          let timed := fun (p : Edit) => if p.f = f then { p with eff := editEff d1 dirs } else p
          (k + 1 < editCount x → exec c.2 s = .next { s with dev := d1 }) ∧
          (k + 1 = editCount x → exec c.2 s = .next {
            s with dev := ((d1.setSrv (fun s => { s with edits := s.edits.map timed })).finish f stOk).forEach dirs applyDir }))))) ∧
  (∀ (s : State) (dir : Nat),
    let all := s.dev.srv.edits.filter (fun e => e.dir == dir)
    let es := dueEdits s.dev dir
    (es = [] → exec (.pageEditApply dir) s = .next s) ∧
    (es ≠ [] →
      let d1 := s.dev.setSrv (fun s => { s with edits := s.edits.filter (fun e => !es.contains e) })
      let d2 := d1.forEach es (fun d e => d.markLasting e.job e.step)
      let d3 := d2.forEach es (fun d e => (applyEdit d e).bump (O.DIR_EDITS_APPLIED e.job))
      exec (.pageEditApply dir) s = .next {
        s with dev := (d3.putDirHdr dir { d3.dirHdr dir with gen := ((d3.dirHdr dir).gen + 1) % 2 ^ 32 }).touch dir }) ∧
    (s.dev.pinFree dir true = false → es = []) ∧
    (s.dev.pinFree dir true = true → (∀ e ∈ all, s.dev.editDue e = true) → es = all))) ∧
  (
  (∀ (d : Dev) (x : Flight), forkLoop d x = none → reserveFork d x = d.finish x.id stField) ∧
  (∀ (d : Dev) (x : Flight) (l : Loop), forkLoop d x = some l →
    let t := forkD x.w
    let got := reserveChildren l t.parent (snapOf d l t.parent).tailCaches t.n d
    (got = none → reserveFork d x = d.finish x.id stNoPages) ∧
    (∀ e cs, got = some (e, cs) → cs.length = t.n ∧ reserveFork d x = e.modFlight x.id (fun y => { y with
      reserved := cs.map (·.stream), results := cs.flatMap (fun c => c.tails.map (fun t => (c.stream, t.1, t.2))) }))) ∧
  (∀ (s : State) (f : Nat), (∀ x, ¬ForkReady s.dev f x) → exec (.fork f) s = .next s) ∧
  (∀ (s : State) (f : Nat) (x : Flight), ForkReady s.dev f x →
    (s.dev.loopOf x.job = none → exec (.fork f) s = .next { s with dev := s.dev.finish f stDiscard }) ∧
    (s.dev.loopOf x.job ≠ none → exec (.fork f) s = .next {
      s with dev := (s.dev.start f).modLoop x.job (fun l => { l with forks := l.forks ++ [f] }) })))

/-- A corrected SRAM error is counted for its block and memory. An uncorrectable ACC or OPB error at an address not met before is noted, its reader, if any, reporting POISON; at an address met before it retires the block with cause 2; an error of another memory notes nothing. BLOCK_RETIRE of a sound block of an unfenced region of an unfenced device discards what was in flight on it and rewrites REGION_BLOCK_STATE: with a standing spare the spare takes the block's slots and the outage is counted and reported, the event ending in the page descriptor the block worked on; a retired spare leaves the region without one; without a spare the blocks the jobs lost are re-placed. Else it changes nothing. For a 31-bit region word with block p in place: after a retirement with standing spare s, p is not active and is marked retired, s is active, SPARE_INDEX is 15, and every other block's bits and the FENCED bit are as they were; without a spare only p's two bits change, and SPARE_INDEX becomes 15 if p was the spare itself. -/
def Obligations.BlockFaultsRetireTheBlock : Prop :=
  (
  (∀ (s : State) (b mem addr : Nat),
    let n := SMap.get 0 s.dev.blk.corrected (b * 3 + mem)
    exec (.uncorrectableSram b mem addr .corrected) s = .next {
      s with dev := s.dev.setBlk (fun k => { k with corrected := SMap.put 0 k.corrected (b * 3 + mem) (n + 1) }) }) ∧
  (∀ (s : State) (b mem addr : Nat) (reader : Option Nat),
    let d := match reader with | some f => poisonReader s.dev f | none => s.dev
    (mem < 2 → s.dev.blk.failedOnce.contains (b, mem, addr) = false →
      exec (.uncorrectableSram b mem addr (.uncorrectable reader)) s = .next {
        s with dev := d.setBlk (fun k => { k with failedOnce := k.failedOnce ++ [(b, mem, addr)] }) }) ∧
    (mem < 2 → s.dev.blk.failedOnce.contains (b, mem, addr) = true →
      exec (.uncorrectableSram b mem addr (.uncorrectable reader)) s = .next { s with dev := retireBlock d b 2 }) ∧
    (2 ≤ mem → exec (.uncorrectableSram b mem addr (.uncorrectable reader)) s = .next { s with dev := d })) ∧
  (∀ (s : State) (b cause : Nat),
    let r := regionOf b
    let p := physIdx b
    let w := s.dev.dget (O.REGION_BLOCK_STATE r)
    let sp := fld w 26 4
    (156 ≤ b ∨ bit w (13 + p) = true ∨ bit w 30 = true ∨ s.dev.pow.deviceFenced = true →
      exec (.blockRetire b cause) s = .next s) ∧
    (b < 156 → bit w (13 + p) = false → bit w 30 = false → s.dev.pow.deviceFenced = false →
      let d := discardBlocks s.dev [b]
      let put := fun (spare : Option Nat) => d.dset (O.REGION_BLOCK_STATE r) (retireWord w p spare)
      let page := pageDetail s.dev b
      (sp ≠ p → sp < 13 → exec (.blockRetire b cause) s = .next {
        s with dev := ((toSpare (put (some sp)) b (13 * r + sp)).bump O.BLOCK_OUTAGES).event 0x0201 3 1 b (leBytes 1 cause ++ leBytes 1 sp ++ page) }) ∧
      (sp = p → exec (.blockRetire b cause) s = .next {
        s with dev := ((put none).bump O.BLOCK_OUTAGES).event 0x0201 3 1 b (leBytes 1 cause ++ [15] ++ page) }) ∧
      (13 ≤ sp → sp ≠ p → exec (.blockRetire b cause) s = .next {
        s with dev := ((replaceAll (put none) [b]).bump O.BLOCK_OUTAGES).event 0x0202 3 1 b (leBytes 1 cause ++ [0] ++ page) })))) ∧
  (
  ∀ w p : Nat, w < 2 ^ 31 → p < 13 →
    (∀ s, s < 13 → s ≠ p →
      let v := retireWord w p (some s)
      bit v p = false ∧ bit v (13 + p) = true ∧ bit v s = true ∧ fld v 26 4 = 15 ∧
      (∀ i, i < 31 → i ≠ p → i ≠ 13 + p → i ≠ s → ¬(26 ≤ i ∧ i < 30) → bit v i = bit w i)) ∧
    (let v := retireWord w p none;
      bit v p = false ∧ bit v (13 + p) = true ∧ fld v 26 4 = (if fld w 26 4 = p then 15 else fld w 26 4) ∧
      (∀ i, i < 31 → i ≠ p → i ≠ 13 + p → ¬(26 ≤ i ∧ i < 30) → bit v i = bit w i)))

/-- REGION_FENCE of an unfenced region of an unfenced device discards every step that involves it, sets FENCED, re-places the lost logical blocks, evacuates or poisons the stack, counts the outage and reports it with the cause and whether the stack is sound: the crossbar's, the stack's and the uplink's faults never are. A second fault gives up the evacuation still under way where it leaves the stack unsound (log 137). Under a device fence nothing changes. REGION_WATCHDOG_EXPIRY is the fault of cause 3. SEGMENT_EVACUATED moves a segment that waits for it to a free run of the slow tier and its charge with it; without free frames it is poisoned; without a run it waits. Of a module neither fenced nor latched: DEVICE_FENCE with cause 1 notes the fault, sends FENCE_REQ to every up module port, discards every descriptor without a status, gives up the moves and evacuations under way, marks every up port as closing and leaves the module not machine-ready; with cause 3 (no link works) it disables the ports instead; with cause 4 the rails go down. DM_WATCHDOG_EXPIRY is the fault of cause 2. A module already fenced, or without power, is not fenced again. -/
def Obligations.RegionFaultsFenceTheRegion : Prop :=
  (
  (∀ (s : State) (r cause : Nat) (sound : Bool), 12 ≤ r ∨ s.dev.pow.deviceFenced = true →
    exec (.regionFence r cause sound) s = .next s) ∧
  (∀ (s : State) (r cause : Nat) (sound : Bool), r < 12 → s.dev.pow.deviceFenced = false →
    let ok := sound && cause != 1 && cause != 5 && cause != 6
    (s.dev.regionFenced r = true →
      (ok = true → exec (.regionFence r cause sound) s = .next s) ∧
      (ok = false →
        let es := s.dev.store.evacuating.filter (fun e => (s.dev.res e).tier == 0 && (s.dev.res e).home == r)
        exec (.regionFence r cause sound) s = .next {
          s with dev := (s.dev.forEach es (fun d e => poisonSeg d e (d.res e).frame)).setStore (fun s =>
            { s with evacuating := s.evacuating.filter (fun e => !es.contains e) }) })) ∧
    (s.dev.regionFenced r = false →
      let bs := rangeFrom (13 * r) 13
      let d1 := discardBlocks (s.dev.forEach (s.dev.readersOf r) (fun d s => discardStep d s.1 s.2)) bs
      let d2 := d1.dset (O.REGION_BLOCK_STATE r) (setFld (d1.dget (O.REGION_BLOCK_STATE r)) 30 1 1)
      d2.regionFenced r = true ∧
      exec (.regionFence r cause sound) s = .next {
        s with dev := ((fenceStack (replaceAll d2 bs) r ok).bump O.REGION_OUTAGES).event 0x0301 4 2 r (leBytes 1 cause ++ leBytes 1 (bool01 ok)) })) ∧
  (∀ (s : State) (r : Nat), exec (.regionWatchdogExpiry r) s = exec (.regionFence r 3 true) s) ∧
  (∀ (s : State) (e : Nat),
    let r := s.dev.res e
    let n := r.frames * 4096
    let off := fun (d : Dev) => d.setStore (fun s => { s with evacuating := s.evacuating.filter (· != e) })
    (s.dev.store.evacuating.contains e = false ∨ r.st = 0 → exec (.segmentEvacuated e) s = .next { s with dev := settle s.dev }) ∧
    (s.dev.store.evacuating.contains e = true → r.st = 3 → exec (.segmentEvacuated e) s = .next { s with dev := settle (off s.dev) }) ∧
    (s.dev.store.evacuating.contains e = true → r.st ≠ 0 → r.st ≠ 3 →
      (∀ d f, s.dev.takeRun 12 r.frames n = some (d, f) → exec (.segmentEvacuated e) s = .next {
        s with dev := settle (off (((d.switchFrames e 12 f r.frames).setCharge 0 e r.owner 0).setCharge 1 e r.owner r.len)) }) ∧
      (s.dev.takeRun 12 r.frames n = none → s.dev.freeBytes 12 < n → exec (.segmentEvacuated e) s = .next {
        s with dev := settle (off (poisonSeg s.dev e r.frame)) }) ∧
      (s.dev.takeRun 12 r.frames n = none → n ≤ s.dev.freeBytes 12 → exec (.segmentEvacuated e) s = .next {
        s with dev := settle s.dev })))) ∧
  (
  (∀ s : State, exec .dmWatchdogExpiry s = exec (.deviceFence 2) s) ∧
  (∀ (s : State) (cause : Nat), s.dev.pow.deviceFenced = true ∨ s.dev.pow.latched = true ∨ cause < 1 ∨ 4 < cause →
    exec (.deviceFence cause) s = .next s) ∧
  (∀ (s : State) (cause : Nat), s.dev.pow.deviceFenced = false → s.dev.pow.latched = false → 1 ≤ cause → cause ≤ 4 →
    let d1 := fenceNoted s.dev cause
    let req := fun (d : Dev) p => d.sendOn p none ⟨4, ⟨0x7F, 0, 0, false, 0, false, 0, 0, 0⟩, []⟩
    let drop := fun (d : Dev) => abandonLower (discardAll d ((d.sched.flights.filter (fun x => x.done.isNone)).map (·.id)))
    let unready := fun (d : Dev) => d.setSec (fun x => { x with ready := false })
    (cause < 3 → ∃ t, exec (.deviceFence cause) s = .next t ∧ t.dev.sec.ready = false ∧
      let d3 := drop (d1.forEach d1.upModulePorts req)
      t.dev = unready (d3.forEach ((List.range 16).filter d3.portUp) (fun d p => d.modPort p (fun q => { q with closing := true })))) ∧
    (cause = 3 → exec (.deviceFence cause) s = .next { s with dev := unready (disablePorts (drop d1)) }) ∧
    (cause = 4 → ∃ t, exec (.deviceFence cause) s = .next t ∧
      t.dev = { railsDown d1 with pow := { (railsDown d1).pow with latched := false } })))

/-- A burst error at an address of the unit's store is read three times by the unit's code: one that decodes sound counts nothing, one that holds poison stops its readers; sound on the retry it counts as retried, and as corrected if it was; a third reading that is sound, after the write-back, is a cell error; one still corrected is lasting, escalates its row and, confined to one pin, is noted against it; one never corrected poisons the burst and, surviving or in a free frame, where it poisons nothing, escalates the row. Without an error a burst reads as POISON where it holds poison, else as sound. PATROL_SCRUB takes its unit's errors one after another in the same way. A first CA_PARITY_ERROR of a stack that is not lost is only reported; one that recurs loses the stack. REFRESH_INTERVAL of a stack writes its temperature to its sensor's DIE_TEMP_C and sets STACK_HOT_REFRESH to 1 above 85.0 degrees, to 0 below 82.0, and leaves it between; SLOW_TEMP_POLL does the same with a package's PKG_HOT_REFRESH. No other object changes; of a stack or package that does not exist nothing does. -/
def Obligations.MemoryErrorsAreClassified : Prop :=
  (
  (∀ (s : State) (e : BurstErr), burstAddrOk e.unit e.addr = false →
    exec (.burstError e) s = .next { s with dev := settle s.dev }) ∧
  (∀ (s : State) (e : BurstErr), burstAddrOk e.unit e.addr = true →
    let u := e.unit
    let a := e.addr
    let d := s.dev
    let one := d.bump (mcKey u 1)
    let gives := fun (x : Dev) => exec (.burstError e) s = .next { s with dev := settle x }
    let first := readBurst d u a e.first
    let again := readBurst d u a e.again
    (first = .sound → gives d) ∧
    (first = .poison → gives (poisonRead d u a)) ∧
    (∀ f, first = .corrected f →
      (again = .sound → gives (one.bump (mcKey u 2))) ∧
      (again = .poison → gives (poisonRead (one.bump (mcKey u 2)) u a)) ∧
      (∀ g, again = .corrected g → gives (lastRead (writeBack d u a e.again g) e)) ∧
      (again = .uncorrectable → gives (lastRead (writeBack d u a e.first f) e))) ∧
    (first = .uncorrectable →
      (again = .sound → gives (d.bump (mcKey u 2))) ∧
      (again = .poison → gives (poisonRead (d.bump (mcKey u 2)) u a)) ∧
      (∀ g, again = .corrected g → gives (lastRead (writeBack d u a e.again g) e)) ∧
      (again = .uncorrectable →
        (e.after = [] → frameHeld d u (frameAt u a) = true → gives (poisonBurst d u a)) ∧
        ((e.after ≠ [] ∨ frameHeld d u (frameAt u a) = false) → gives (escalate (poisonBurst d u a) u (rowAt u a)))))) ∧
  (∀ (d : Dev) (e : BurstErr),
    let u := e.unit
    let r := rowAt u e.addr
    let third := readBurst d u e.addr e.after
    (third = .sound → lastRead d e = (d.bump (mcKey u 1)).bump (mcKey u 2)) ∧
    (third = .poison → lastRead d e = d) ∧
    (∀ f, third = .corrected f →
      (onePin f = none → lastRead d e = escalate (d.bump (mcKey u 1)) u r) ∧
      (∀ p, onePin f = some p → lastRead d e = notePin (escalate (d.bump (mcKey u 1)) u r) u r p)) ∧
    (third = .uncorrectable → lastRead d e = escalate (poisonBurst d u e.addr) u r)) ∧
  (∀ (d : Dev) (u a e : Nat), segAt d (unitHome u) (frameAt u a) = some e →
    poisonBurst d u a = stopReaders (poisonSeg (poisonWrite (d.bump (mcKey u 3)) u a) e (frameAt u a)) e ∧
    poisonRead d u a = stopReaders d e) ∧
  (∀ (d : Dev) (u a : Nat),
    (d.mc.poisoned.contains (burstKey u a) = true → readBurst d u a [] = .poison) ∧
    (d.mc.poisoned.contains (burstKey u a) = false → readBurst d u a [] = .sound)) ∧
  (∀ (s : State) (u : Nat) (es : List BurstErr),
    exec (.patrolScrub u es) s = .next { s with dev := settle (s.dev.forEach (es.filter (fun e => e.unit == u)) burst) }) ∧
  (∀ (s : State) (k : Nat) (again : Bool),
    (12 ≤ k ∨ s.dev.mc.lost.contains k = true → exec (.caParityError k again) s = .next s) ∧
    (k < 12 → s.dev.mc.lost.contains k = false →
      exec (.caParityError k false) s = .next { s with dev := s.dev.event 0x0509 1 4 (mcLoc k 0) [] } ∧
      exec (.caParityError k true) s = .next { s with dev := stackLost s.dev k 3 }))) ∧
  (
  (∀ (s : State) (k : Nat) (c : Int), (12 ≤ k → exec (.refreshInterval k c) s = .next s) ∧ (32 ≤ k → exec (.slowTempPoll k c) s = .next s)) ∧
  (∀ (s : State) (k : Nat) (c : Int), k < 12 → ∃ t, exec (.refreshInterval k c) s = .next t ∧
    t.dev = { s.dev with dict := t.dev.dict } ∧
    t.dev.dget (O.DIE_TEMP_C (13 + k)) = toUns 32 c ∧
    (850 < c → t.dev.dget (O.STACK_HOT_REFRESH k) = 1) ∧ (c < 820 → t.dev.dget (O.STACK_HOT_REFRESH k) = 0) ∧
    (820 ≤ c ∧ c ≤ 850 → t.dev.dget (O.STACK_HOT_REFRESH k) = s.dev.dget (O.STACK_HOT_REFRESH k)) ∧
    (∀ n, n ≠ O.DIE_TEMP_C (13 + k) → n ≠ O.STACK_HOT_REFRESH k → t.dev.dget n = s.dev.dget n)) ∧
  (∀ (s : State) (p : Nat) (c : Int), p < 32 → ∃ t, exec (.slowTempPoll p c) s = .next t ∧
    t.dev = { s.dev with dict := t.dev.dict } ∧
    (850 < c → t.dev.dget (O.PKG_HOT_REFRESH p) = 1) ∧ (c < 820 → t.dev.dget (O.PKG_HOT_REFRESH p) = 0) ∧
    (820 ≤ c ∧ c ≤ 850 → t.dev.dget (O.PKG_HOT_REFRESH p) = s.dev.dget (O.PKG_HOT_REFRESH p)) ∧
    (∀ n, n ≠ O.PKG_HOT_REFRESH p → t.dev.dget n = s.dev.dget n)))

/-- For a row with no soft-remap entry, with room in the unit's table and a free live spare s in its bank, a lasting failure adds the entry (s, FAILS 1) and nothing else to the remap tables, and s is the lowest free, live spare. For an entry with FAILS = 1, with another free spare, the old spare is marked dead and the entry takes the new spare with FAILS = 2. With FAILS = 2 the row is given up: its entry goes and its frames are retired; so it is when the table is full. For every byte address of a stack, the row found by the address map (pseudo-channel, bank after the hash, row) holds exactly the 4 KiB frame of the address; for every data address of a package within the slow tier's frames, its frame is among those the row meets. Banks are below 64 and 16, pseudo-channels below 32. -/
def Obligations.RowEscalation : Prop :=
  (
  ∀ (d : Dev) (u : Nat) (r : RowAt),
    let same := fun (e : Remap) => e.unit == u && e.pc == r.pc && e.bank == r.bank && e.row == r.row
    (d.mc.remaps.find? same = none → (d.mc.remaps.filter (fun e => e.unit == u)).length < remapCap u →
      ∀ s, freeSpare d u r.pc r.bank = some s →
        (escalate d u r).mc.remaps = d.mc.remaps ++ [⟨u, r.pc, r.bank, r.row, s, 1, true⟩] ∧
        (escalate d u r).mc.dead = d.mc.dead ∧ (escalate d u r).mem = d.mem ∧ (escalate d u r).store = d.store ∧
        spareLo u ≤ s ∧ s < spareLo u + spareCount u ∧ d.mc.dead.contains (u, r.pc, r.bank, s) = false ∧
        (∀ s', spareLo u ≤ s' → s' < s → d.mc.dead.contains (u, r.pc, r.bank, s') = true ∨
          ∃ e ∈ d.mc.remaps, e.unit = u ∧ e.pc = r.pc ∧ e.bank = r.bank ∧ e.spare = s')) ∧
    (d.mc.remaps.find? same = none → remapCap u ≤ (d.mc.remaps.filter (fun e => e.unit == u)).length →
      escalate d u r = giveUpRow d u r) ∧
    (∀ e, d.mc.remaps.find? same = some e →
      (e.fails = 1 →
        let d0 := d.setMc (fun m => { m with dead := m.dead ++ [(u, r.pc, r.bank, e.spare)] })
        ∀ s, freeSpare d0 u r.pc r.bank = some s →
          (escalate d u r).mc.remaps = updFirst same (fun _ => { e with spare := s, fails := 2 }) d.mc.remaps ∧
          (escalate d u r).mc.dead = d.mc.dead ++ [(u, r.pc, r.bank, e.spare)] ∧ s ≠ e.spare) ∧
      (e.fails = 2 → escalate d u r = giveUpRow d u r ∧
        ∃ d' : Dev, giveUpRow d u r = d'.forEach (rowFrames u r) (fun d f => retireFrame d u f) ∧
          d'.mc.remaps = d.mc.remaps.filter (fun e => !same e)))) ∧
  (
  (∀ u a : Nat, u < 12 → a < 48000000000 →
    rowFrames u (rowAt u a) = [frameAt u a] ∧ (rowAt u a).pc < 32 ∧ (rowAt u a).bank < 64) ∧
  (∀ u a : Nat, 12 ≤ u → u < 44 → a < 64000000000 → frameAt u a < 500000000 →
    frameAt u a ∈ rowFrames u (rowAt u a) ∧ (rowAt u a).bank < 16))

/-- A message of channel `vc` and KIND `k`, of its layout, that is handed to its sink: it came in on an up port or
originates here. -/
def Handed (d : Dev) (port : Nat) (m : Msg) (vc k : Nat) : Prop :=
  m.vc = vc ∧ m.hdr.kind = k ∧ layoutOk m = true ∧ (port < 16 → d.portUp port = true)

/-- The same, and no message of its source waits before it. -/
def InTurn (d : Dev) (port : Nat) (m : Msg) (k : Nat) : Prop :=
  Handed d port m 0 k ∧ d.store.held.any (fun h => sameSource h.2 m) = false

/-- START of a formed or suspended job without a loop, on a record that keeps its rules, opens the loop and answers OK, else FIELD_RANGE. STOP refuses the queued joins NO_PAGES, sends the streams away and notes who asked. JOIN, where a stream number is free, the queue has room and a plan asked for can be read, queues the join on that number and starts its vane entry anew; else it is refused. LEAVE of a stream of the loop marks it leaving and notes who asked. STATUS answers the entry's four words. PLAN_ON of a running or held stream that is no candidate makes its planner, once, PLAN_OFF drops it, its candidates leaving. Without a loop all are answered FIELD_RANGE. SERVING_STEP_BOUNDARY of a loop whose own descriptors have all completed closes the step, applies page edits and forks, scores and forks plans, ends the leavers, then stops if asked with no stream left, or else serves page groups, but for the children it made of held parents, admits joins by falling PRIO, issues the step and its descriptors; a directory's GEN rises once; before that, or without a loop, it changes nothing. DEADLINE_MARK of an armed mark within a step whose predicted end is past the deadline counts the prediction, pre-empts on the blocks of the later stages and falls back; else nothing changes. -/
def Obligations.LoopMessagesAreAnswered : Prop :=
  (
  (∀ (s : State) (who : Sender) (j seg : Nat),
    let formed := s.dev.dget (O.JOB_STATE j) = 1 ∨ s.dev.dget (O.JOB_STATE j) = 2
    (¬formed ∨ s.dev.loopOf j ≠ none ∨ readLoop s.dev who j seg = none →
      exec (.start who j seg) s = .next { s with dev := loopReply s.dev who j 1 stField [] }) ∧
    (∀ l, formed → s.dev.loopOf j = none → readLoop s.dev who j seg = some l →
      exec (.start who j seg) s = .next {
        s with dev := loopReply (s.dev.setSrv (fun v => { v with loops := v.loops ++ [l] })) who j 1 stOk [] } ∧
      l.job = j ∧ l.who = who)) ∧
  (∀ (s : State) (who : Sender) (j : Nat), s.dev.loopOf j = none →
    exec (.stop who j) s = .next { s with dev := loopReply s.dev who j 2 stField [] } ∧
    (∀ prio planOn, exec (.join who j prio planOn) s = .next { s with dev := loopReply s.dev who j 3 stField [] }) ∧
    (∀ n, exec (.planOff who j n) s = .next { s with dev := loopReply s.dev who j 6 stField [] })) ∧
  (∀ (s : State) (who : Sender) (j : Nat) (l : Loop), s.dev.loopOf j = some l →
    (let d1 := s.dev.forEach l.joins (fun d q =>
        ((loopReply d q.who j 3 stNoPages []).setStream q.stream Stream.free).bump (O.JOINS_REFUSED j))
     let d2 := d1.forEach ((d1.streamsOf j).filter (fun p => p.2.st == 2 || p.2.st == 3)) (fun d p =>
        d.modStream p.1 (fun s => { s with st := 4 }))
     exec (.stop who j) s = .next { s with dev := d2.modLoop j (fun l => { l with stopping := some who, joins := [] }) }) ∧
    (∀ prio,
      (readPlan s.dev l = none → exec (.join who j prio true) s = .next { s with dev := loopReply s.dev who j 3 stField [] }) ∧
      (∀ planOn, (planOn = true → readPlan s.dev l ≠ none) →
        (1024 ≤ l.joins.length ∨ l.stopping ≠ none ∨ s.dev.freeStream = none → exec (.join who j prio planOn) s = .next {
          s with dev := (loopReply s.dev who j 3 stNoPages []).bump (O.JOINS_REFUSED j) }) ∧
        (∀ n, l.joins.length < 1024 → l.stopping = none → s.dev.freeStream = some n →
          let d1 := vaneCreate (s.dev.setStream n { Stream.free with st := 1, job := j, loop := j, prio := prio % 16 }) n j
          exec (.join who j prio planOn) s = .next {
            s with dev := d1.modLoop j (fun l => { l with joins := l.joins ++ [⟨n, prio % 16, planOn, who⟩] }) }))) ∧
    (∀ n,
      let d1 := s.dev.forEach (l.planners.filter (fun p => p.root == n)) dropCands
      let d2 := d1.modLoop j (fun l => { l with planners := l.planners.filter (fun p => p.root != n) })
      exec (.planOff who j n) s = .next { s with dev := loopReply d2 who j 6 stOk [] })) ∧
  (∀ (s : State) (who : Sender) (j n : Nat),
    (loopStream s.dev j n = false → exec (.leave who j n) s = .next { s with dev := loopReply s.dev who j 4 stField [] }) ∧
    (loopStream s.dev j n = true →
      let d1 := if (s.dev.stream n).st = 1 then s.dev else s.dev.modStream n (fun s => { s with st := 4 })
      exec (.leave who j n) s = .next {
        s with dev := d1.modLoop j (fun l => { l with leaves := l.leaves ++ [(n, who)] }) }) ∧
    (let w := (s.dev.stream n).word
     let ws := [fld w 0 32, fld w 32 32, fld w 64 32, fld w 96 32]
     exec (.status who j n) s = .next { s with dev := loopReply s.dev who j 5 stOk ws }) ∧
    (let may := loopStream s.dev j n = true ∧ (s.dev.stream n).plan = false ∧ ((s.dev.stream n).st = 2 ∨ (s.dev.stream n).st = 3)
     let answers := fun (d : Dev) (st : Nat) => exec (.planOn who j n) s = .next { s with dev := loopReply d who j 6 st [] }
     (¬may → answers s.dev stField) ∧
     (∀ l, may → s.dev.loopOf j = some l →
       (l.planners.any (fun q => q.root == n) = true → answers s.dev stOk) ∧
       (l.planners.any (fun q => q.root == n) = false → readPlan s.dev l = none → answers s.dev stField) ∧
       (∀ p, l.planners.any (fun q => q.root == n) = false → readPlan s.dev l = some p →
         answers (s.dev.modLoop j (fun l => { l with planners := l.planners ++ [newPlanner n p] })) stOk))))) ∧
  (
  (∀ (s : State) (j : Nat) (i : StepIssue), s.dev.loopOf j = none ∨ stepOver s.dev j = false →
    exec (.servingStepBoundary j i) s = .next s) ∧
  (∀ (s : State) (j : Nat) (i : StepIssue), s.dev.loopOf j ≠ none → stepOver s.dev j = true →
    let d1 := applyOrders (closeStep s.dev j i.us) j
    let d2 := plansEach planScore (plansEach planFork d1 j) j
    let e := endLeavers d2 j
    (∀ d3, stopNow e.1 j e.2 = some d3 →
      exec (.servingStepBoundary j i) s = .next { s with dev := settle (onceGen s.dev d3) }) ∧
    (stopNow e.1 j e.2 = none →
      let later := ((e.1.streamsOf j).filter (fun p => p.2.st == 3 && decide ((s.dev.stream p.1).st < 2))).map (·.1)
      let d3 := serveAll e.1 j later
      let js := ((d3.loopOf j).map (·.joins)).getD []
      let d4 := admitJoins j e.2 (sortBy (fun a b => decide (b.prio ≤ a.prio)) js) d3
      exec (.servingStepBoundary j i) s = .next {
        s with dev := settle ((issueStep (onceGen s.dev d4) j i.us e.2).forEach i.descs (loopIssue j)) })) ∧
  (∀ (s : State) (j k : Nat) (i : StepIssue), s.dev.loopOf j = none → exec (.deadlineMark j k i) s = .next s) ∧
  (∀ (s : State) (j k : Nat) (i : StepIssue) (l : Loop), s.dev.loopOf j = some l →
    let w := nth 0 l.mon (5 + k)
    let ex := fld w 8 12
    let dl := nth 0 l.mon 0
    let e := i.us - l.startUs + 1
    let p := e + ceilDiv (fld w 20 12 * Nat.max ex e) ex
    (dl = 0 ∨ l.active = [] ∨ nth 0 l.mon 4 ≤ k ∨ ex = 0 ∨ p ≤ dl → exec (.deadlineMark j k i) s = .next s) ∧
    (dl ≠ 0 → l.active ≠ [] → k < nth 0 l.mon 4 → ex ≠ 0 → dl < p →
      let d1 := s.dev.bump (O.OVERRUNS_PREDICTED j)
      let later := stagesAfter (fld w 0 8) (pipeStages d1 j l.running)
      let bs := (later.flatMap (·.blocks)).filterMap (fun b => (d1.place j b).phys)
      exec (.deadlineMark j k i) s = .next {
        s with dev := settle (fallbackNow (d1.forEach bs.dedup (preemptBlock j l.step)) j later i.descs) })))

/-- An answer row of a stream that takes part in the running step, is no candidate and no planner's root, writes that stream's vane entry: the first ANSWER_BYTES of the row, the stream's step and job, whether the loop is on fallback, the saturation flag, VALID, STALE 0 and SEQ one up modulo 2^32; every other entry stays. A candidate's row writes no entry at all, and neither does a root's. Memory and dictionary do not change. A row of a stream without a loop, or that takes no part in the step, changes nothing. -/
def Obligations.VaneAnswersAreWritten : Prop :=
  (∀ (s : State) (n : Nat) (row : Bytes) (sat : Bool),
    (∀ l, s.dev.loopOf (s.dev.stream n).job = some l → (s.dev.stream n).st = 0 ∨ l.active.contains n = false) →
    exec (.vaneAnswerWrite n row sat) s = .next s) ∧
  (∀ (s : State) (n : Nat) (row : Bytes) (sat : Bool) (l : Loop),
    let st := s.dev.stream n
    s.dev.loopOf st.job = some l → st.st ≠ 0 → l.active.contains n = true →
    ∃ t, exec (.vaneAnswerWrite n row sat) s = .next t ∧ t.dev.mem = s.dev.mem ∧ t.dev.dict = s.dev.dict ∧
      (∀ k, k ≠ n → t.dev.vaneAt k = s.dev.vaneAt k) ∧
      (st.plan = true ∨ l.planners.any (fun p => p.root == n) = true → t.dev.vaneAt n = s.dev.vaneAt n) ∧
      (st.plan = false → l.planners.any (fun p => p.root == n) = false →
        t.dev.vaneAt n = { s.dev.vaneAt n with
          answer := BitVec.ofNat 384 (ofLe (fitBytes 48 (row.take l.ansBytes))), step := st.step, job := st.job,
          fallback := l.onFallback, plan := false, sat := sat, stale := 0, valid := true, ended := false,
          seq := ((s.dev.vaneAt n).seq + 1) % 2 ^ 32 }))

/-- A VANE_READ on an up port is answered on that port with the entry and a status: FREE when the entry belongs to no stream; otherwise DENIED, with ANSWER zeroed, when the requester's stamped identity lies outside the loop's VANE_SCOPE (0: requests carrying the owning job context; 1: any module of the same group; 2: any module of the machine), else OK. VANE_DENIED counts the denials. The reading changes no entry. A message of another channel or KIND, or on a down port, is not taken; one of another layout is a protocol fault. -/
def Obligations.VaneReadsCarryTheirStatus : Prop :=
  (∀ (s : State) (port : Nat) (m : Msg),
    (16 ≤ port ∨ m.vc ≠ 5 ∨ m.hdr.kind ≠ 1 ∨ s.dev.portUp port = false → exec (.vaneRead port m) s = .next s) ∧
    (port < 16 → m.vc = 5 → m.hdr.kind = 1 → s.dev.portUp port = true → layoutOk m = false →
      exec (.vaneRead port m) s = .next { s with dev := protoFault s.dev port })) ∧
  (∀ (s : State) (port : Nat) (m : Msg), port < 16 → Handed s.dev port m 5 0x01 →
    let d := s.dev
    let n := leAt m.body 0 2
    let j := (d.stream n).job
    let reply := fun (x : Dev) (st : Nat) (e : Vane) => x.sendOn port none
      ⟨5, ⟨2, 0, m.hdr.src, m.hdr.srcHost, d.srcId, false, 0, 0, 0⟩,
       leBytes 8 (at' 0 16 n + at' 16 16 (leAt m.body 2 2) + at' 32 8 st) ++ leBytes 64 e.word⟩
    ((d.stream n).st = 0 → exec (.vaneRead port m) s = .next { s with dev := reply d 1 (d.vaneAt n) }) ∧
    ((d.stream n).st ≠ 0 → ∀ l, d.loopOf j = some l →
      let admitted := (l.scope = 0 ∧ m.hdr.sjob = j) ∨ (l.scope = 1 ∧ d.ownId.map idGroup = some (idGroup m.hdr.src)) ∨ 2 ≤ l.scope
      (admitted → exec (.vaneRead port m) s = .next { s with dev := reply d 0 (d.vaneAt n) }) ∧
      (¬admitted → exec (.vaneRead port m) s = .next {
        s with dev := reply (d.bump (O.VANE_DENIED j)) 2 { d.vaneAt n with answer := 0 } })) ∧
    (∀ t, exec (.vaneRead port m) s = .next t → ∀ k, t.dev.vaneAt k = d.vaneAt k))

/-- A SEG_WRITE in its turn, of a segment whose owner's JOB_OWNER is VALID and equals its stamped identity, within the segment, which is neither poisoned, a directory nor compressed and whose write pin is free, is answered OK; the segment then reads its data at its offset, and every other byte of the tier reads as before. One of another identity is answered DENIED, counts in SEG_DENIED and changes no memory; one that another rule refuses is answered its status. A SEG_READ by the owner of a readable segment in range is answered OK with the bytes it asked for; one whose stored tiles fail their check poisons the segment. Either waits while its pin is not free, and behind a message of its source that waits. A REQ message of another channel or KIND, or on a down port, is not taken; one of another layout is a protocol fault. -/
def Obligations.RemoteWritesLandWhereTheySay : Prop :=
  (∀ (s : State) (port : Nat) (m : Msg),
    ∀ c ∈ [(0x10, Instr.segWrite port m), (0x12, .segRead port m), (0x20, .doorbell port m), (0x30, .mboxWrite port m)],
    (m.vc ≠ 0 ∨ m.hdr.kind ≠ c.1 ∨ (port < 16 ∧ s.dev.portUp port = false) → exec c.2 s = .next s) ∧
    (m.vc = 0 → m.hdr.kind = c.1 → (port < 16 → s.dev.portUp port = true) → layoutOk m = false →
      exec c.2 s = .next { s with dev := protoFault s.dev port }) ∧
    (Handed s.dev port m 0 c.1 → s.dev.store.held.any (fun h => sameSource h.2 m) = true →
      exec c.2 s = .next { s with dev := s.dev.setStore (fun s => { s with held := s.held ++ [(port, m)] }) })) ∧
  (∀ (s : State) (port : Nat) (m : Msg),
    let d := s.dev
    let e := segOf m
    let r := d.res e
    let data := m.body.drop 16
    let w := (d.job r.owner).owner
    let other := if r.homeNo < 12 then 12 else 0
    let waits := s.dev.setStore (fun s => { s with held := s.held ++ [(port, m)] })
    (InTurn d port m 0x10 → r.st ≠ 0 → r.st ≠ 3 → d.isDir e = false → r.comp = false → bit w 22 = true →
      ownerIs w m.hdr = true → 0 < data.length → segOff m + data.length ≤ r.len → d.pinFree e true = true →
      ∃ t d', exec (.segWrite port m) s = .next t ∧ t.dev = segReply d' m stOk [] ∧
        t.dev.segRead e (segOff m) data.length = data ∧
        (∀ a, a < cellKey r.homeNo r.frame (segOff m) ∨ cellKey r.homeNo r.frame (segOff m) + data.length ≤ a →
          SMap.get 0 (t.dev.tierMem r.homeNo) a = SMap.get 0 (d.tierMem r.homeNo) a) ∧
        (∀ a, SMap.get 0 (t.dev.tierMem other) a = SMap.get 0 (d.tierMem other) a)) ∧
    (∀ k ∈ [0x10, 0x12], InTurn d port m k → r.st ≠ 0 → (bit w 22 = false ∨ ownerIs w m.hdr = false) →
      let c := if k = 0x10 then Instr.segWrite port m else .segRead port m
      ∃ t, exec c s = .next t ∧ t.dev = segReply d m stDenied [] ∧ t.dev.mem = d.mem) ∧
    (InTurn d port m 0x10 →
      let st := segStatus d m data.length true
      let moving := r.st = 2 ∨ d.store.evacuating.contains e = true
      (st = stDenied ∨ st = stField ∨ st = stPoison ∨ (st ≠ stOk ∧ ¬moving) →
        exec (.segWrite port m) s = .next { s with dev := segReply d m st [] }) ∧
      ((st ≠ stOk ∧ st ≠ stDenied ∧ st ≠ stField ∧ st ≠ stPoison ∧ moving) ∨ (st = stOk ∧ d.pinFree e true = false) →
        exec (.segWrite port m) s = .next { s with dev := waits })) ∧
    (InTurn d port m 0x12 →
      let st := segStatus d m (segCount m) false
      (st ≠ stOk → exec (.segRead port m) s = .next { s with dev := segReply d m st [] }) ∧
      (st = stOk → d.pinFree e false = false → exec (.segRead port m) s = .next { s with dev := waits }) ∧
      (st = stOk → d.pinFree e false = true → d.segOk e = false →
        exec (.segRead port m) s = .next { s with dev := segReply (poisonSeg d e r.frame) m stPoison [] })) ∧
    (InTurn d port m 0x12 → r.st ≠ 0 → r.st ≠ 3 → d.segOk e = true → bit w 22 = true → ownerIs w m.hdr = true →
      0 < segCount m → segOff m + segCount m ≤ r.len → d.pinFree e false = true →
      ∃ t, exec (.segRead port m) s = .next t ∧ t.dev.mem = d.mem ∧
        t.dev = segReply (d.touch e) m stOk (d.segRead e (segOff m) (segCount m))))

/-- A DOORBELL, the module not in Lull: when its stamped identity equals the VALID JOB_OWNER of the job, the job is formed or suspended, the queue exists, TAIL lies from the current TAIL to HEAD + QUEUE_DEPTH inclusive, and CHEAD, when valid, lies from the current CHEAD to CTAIL, it sets TAIL, and CHEAD when CHEAD_VALID is 1, and nothing else; when it breaks any of these it counts in DOORBELL_REJECTS and changes nothing else. It has no reply. In Lull it is kept until the wake. -/
def Obligations.DoorbellsMoveTheTail : Prop :=
  (∀ (s : State) (port : Nat) (m : Msg), InTurn s.dev port m 0x20 → s.dev.dget O.LULL_STATE ≠ 0 →
    exec (.doorbell port m) s = .next {
      s with dev := { s.dev with pow := { s.dev.pow with deferred := s.dev.pow.deferred ++ [m] } } }) ∧
  (∀ (s : State) (port : Nat) (m : Msg), InTurn s.dev port m 0x20 → s.dev.dget O.LULL_STATE = 0 →
    let d := s.dev
    let w := leAt m.body 0 16
    let j := fld w 0 6
    let q := fld w 6 2
    let depth := nth 0 (d.job j).depths q
    let tail := fld w 32 32
    let chead := fld w 64 32
    let dist := fun a b => (b + 2 ^ 32 - a) % 2 ^ 32
    let ok := bit (d.job j).owner 22 = true ∧ ownerIs (d.job j).owner m.hdr = true ∧
      (d.dget (O.JOB_STATE j) = 1 ∨ d.dget (O.JOB_STATE j) = 2) ∧ depth ≠ 0 ∧
      dist (d.dget (O.QUEUE_TAIL j q)) tail ≤ dist (d.dget (O.QUEUE_TAIL j q)) ((d.dget (O.QUEUE_HEAD j q) + depth) % 2 ^ 32) ∧
      (bit w 8 = true → dist (d.dget (O.COMPL_HEAD j q)) chead ≤ dist (d.dget (O.COMPL_HEAD j q)) (d.dget (O.COMPL_TAIL j q)))
    let d1 := d.dset (O.QUEUE_TAIL j q) tail
    (ok → exec (.doorbell port m) s = .next {
      s with dev := if bit w 8 then d1.dset (O.COMPL_HEAD j q) chead else d1 }) ∧
    (¬ok → exec (.doorbell port m) s = .next { s with dev := d.bump O.DOORBELL_REJECTS }))

/-- An MBOX_WRITE whose stamped identity and channel equal the VALID binding: while the channel is PENDING it is answered MBOX_BUSY and writes nothing; otherwise it writes its words from FIRST up, leaves the channel's other registers, makes the channel PENDING when GO = 1, and is answered OK; other channels stay. Any other MBOX_WRITE is answered DENIED, writes nothing and counts in MBOX_DENIED. MBOX_CONSUME of a PENDING channel zeroes its registers, returns it to IDLE and hands the first two words with the sender to the bound job; of an idle one it changes nothing. -/
def Obligations.MailboxesTakeTheirSendersWords : Prop :=
  (∀ (s : State) (port : Nat) (m : Msg), InTurn s.dev port m 0x30 →
    let d := s.dev
    let w := leAt m.body 0 8
    let c := fld w 0 8
    let b := d.dget (O.MBOX_BIND c)
    let x := d.mbox1 c
    let ack := fun (d : Dev) (st : Nat) => d.sendMsg 1 0x31 m.hdr.src m.hdr.srcHost 0 0 none (leBytes 8 (at' 0 8 c + at' 8 8 st))
    let bound := bit b 36 = true ∧ ownerIs b m.hdr = true ∧ fld b 22 8 = m.hdr.schan
    (¬bound → exec (.mboxWrite port m) s = .next { s with dev := ack (d.bump O.MBOX_DENIED) stDenied }) ∧
    (bound → x.pending = true → exec (.mboxWrite port m) s = .next { s with dev := ack (d.bump O.MBOX_BUSY_COUNT) stMboxBusy }) ∧
    (bound → x.pending = false → ∃ t d', exec (.mboxWrite port m) s = .next t ∧ t.dev = ack d' stOk ∧
      (t.dev.mbox1 c).pending = bit w 17 ∧
      (∀ i, i < fld w 12 5 → SMap.get 0 (t.dev.mbox1 c).regs (fld w 8 4 + i) = BitVec.ofNat 32 (leAt m.body (8 + 4 * i) 4)) ∧
      (∀ k, k < fld w 8 4 ∨ fld w 8 4 + fld w 12 5 ≤ k → SMap.get 0 (t.dev.mbox1 c).regs k = SMap.get 0 x.regs k) ∧
      (∀ k, k ≠ c → t.dev.mbox1 k = d.mbox1 k))) ∧
  (∀ (s : State) (c : Nat),
    let x := s.dev.mbox1 c
    let b := s.dev.dget (O.MBOX_BIND c)
    let d := s.dev.setMbox c Mbox.idle
    (x.pending = false → exec (.mboxConsume c) s = .next s) ∧
    (x.pending = true →
    let w0 := (SMap.get 0 x.regs 0).toNat
    let w1 := (SMap.get 0 x.regs 1).toNat
    exec (.mboxConsume c) s = .next { s with dev := mboxDispatch d (bindSender b) (fld b 30 6) w0 w1 } ∧
    (d.mbox1 c).pending = false ∧ ∀ k, SMap.get 0 (d.mbox1 c).regs k = 0))

/-- Every field of a routed header fits its bits. -/
def HdrFits (h : Hdr) : Prop :=
  h.kind < 256 ∧ h.hops < 256 ∧ h.dst < 2 ^ 15 ∧ h.src < 2 ^ 15 ∧ h.sjob < 64 ∧ h.schan < 256 ∧ h.seq < 2 ^ 32

/-- For a header whose every field fits its bits and a LEN below 2^16, the 16 bytes written, followed by anything, read back as the same header with the same LEN; so a message's own bytes give back its header, its length and its body. -/
def Obligations.HeadersReadBack : Prop :=
  (∀ (h : Hdr) (n : Nat) (rest : Bytes), HdrFits h → n < 2 ^ 16 →
    (hdrBytes h n).length = 16 ∧ hdrOf (hdrBytes h n ++ rest) = h ∧ hdrLen (hdrBytes h n ++ rest) = n) ∧
  (∀ m : Msg, HdrFits m.hdr → m.body.length < 2 ^ 16 →
    hdrOf (msgBytes m) = m.hdr ∧ ((msgBytes m).drop 16).take (hdrLen (msgBytes m)) = m.body ∧ (msgBytes m).length % 8 = 0)

/-- For up to 20 frames of 256 bytes and FKIND below 16, with at most two credit returns of channels below 8 and counts below 256, and numbers below 4,096: the superframe has 5,140 bytes, its last four are the CRC-32C of the others, its trailer gives back SSEQ, ACK, NAK, UNNUM, the FKIND of each frame (0 beyond the last) and the credit returns, and frame i's bytes stand at offset 256 i. -/
def Obligations.SuperframesCarryTheirFrames : Prop :=
  ∀ (sseq ack : Nat) (nak unnum : Bool) (frames : List Frame) (cret : List (Nat × Nat)),
    sseq < 4096 → ack < 4096 → frames.length ≤ 20 → cret.length ≤ 2 →
    (∀ f ∈ frames, f.fkind < 16 ∧ f.bytes.length = 256) → (∀ c ∈ cret, c.1 < 8 ∧ c.2 < 256) →
    let b := superframe sseq ack nak unnum frames cret
    let t := leAt b 5120 16
    b.length = 5140 ∧ crc32c (b.take 5136) = leAt b 5136 4 ∧
    fld t 0 12 = sseq ∧ fld t 12 12 = ack ∧ bit t 24 = nak ∧ bit t 25 = unnum ∧
    (fld t 106 3, fld t 109 8) = nth (0, 0) cret 0 ∧ (fld t 117 3, fld t 120 8) = nth (0, 0) cret 1 ∧
    (∀ i, i < 20 → fld t (26 + 4 * i) 4 = ((frames[i]?).map (·.fkind)).getD 0) ∧
    (∀ i f, frames[i]? = some f → (b.drop (256 * i)).take 256 = f.bytes)

/-- MESSAGE_ROUTE always completes. On a port that is not up nothing happens. On an up port a SYNC message is a token or a neighbour message, from the host port a protocol fault; the MGMT neighbour kinds are taken by the neighbour layer; a broken layout is a protocol fault; from the host port a source channel without an entry is dropped and HOST_UNMAPPED counted, any other is stamped. The message then passes in transit, or is taken here. One that originates here (port 16 and up) on a routed channel is stamped and numbered and sent, or taken here; on another channel nothing happens. In transit a message whose destination leaves by a port p with HOPS below 127 joins p's queue with HOPS one up; at 127 it is dropped and HOP_DROPS counted; for a module without a host port HOP_DROPS is counted (the model's choice, log 17); one that no table entry carries is dropped and UNREACHABLE_DROPS counted. -/
def Obligations.MessagesAreRouted : Prop :=
  (∀ (s : State) (port : Nat) (m : Msg), port < 16 →
    (s.dev.portUp port = false → exec (.messageRoute port m) s = .next s) ∧
    (s.dev.portUp port = true → m.vc = 6 →
      exec (.messageRoute port m) s = .next { s with
        dev := if s.dev.isHostPort port then protoFault s.dev port else syncArrives s.dev port m }) ∧
    (s.dev.portUp port = true → m.vc = 4 → neighbourKind m.hdr.kind = true →
      exec (.messageRoute port m) s = .next { s with dev := mgmtArrives s port m }) ∧
    (s.dev.portUp port = true → m.vc ≠ 6 → ¬(m.vc = 4 ∧ neighbourKind m.hdr.kind = true) →
      (layoutOk m = false → exec (.messageRoute port m) s = .next { s with dev := protoFault s.dev port }) ∧
      (layoutOk m = true → s.dev.isHostPort port = true → hostStamp s.dev m = none →
        exec (.messageRoute port m) s = .next { s with dev := s.dev.bump (O.HOST_UNMAPPED port) }) ∧
      (∀ m1, layoutOk m = true → (if s.dev.isHostPort port then hostStamp s.dev m else some m) = some m1 →
        (s.dev.destOf m1.hdr.dst m1.hdr.dstHost ≠ .here →
          exec (.messageRoute port m) s = .next { s with dev := s.dev.transit port none m1 }) ∧
        (s.dev.destOf m1.hdr.dst m1.hdr.dstHost = .here → exec (.messageRoute port m) s = .next (here s port m1))))) ∧
  (∀ (s : State) (port : Nat) (m : Msg), 16 ≤ port →
    let h := m.hdr
    (m.vc = 3 ∨ m.vc = 6 ∨ 7 < m.vc → exec (.messageRoute port m) s = .next s) ∧
    (m.vc < 8 → m.vc ≠ 3 → m.vc ≠ 6 → s.dev.destOf h.dst h.dstHost ≠ .here →
      exec (.messageRoute port m) s = .next {
        s with dev := s.dev.sendMsg m.vc h.kind h.dst h.dstHost h.sjob h.schan (some h.sjob) m.body }) ∧
    (m.vc < 8 → m.vc ≠ 3 → m.vc ≠ 6 → s.dev.destOf h.dst h.dstHost = .here →
      let q := s.dev.nextSeq h.dst m.vc
      exec (.messageRoute port m) s = .next (here { s with dev := q.2 } 16
        { m with hdr := { h with hops := 0, src := s.dev.srcId, srcHost := false, seq := q.1 } }))) ∧
  (∀ (d : Dev) (rx : Nat) (m : Msg), rx < 16 →
    let out := { m with hdr := { m.hdr with hops := m.hdr.hops + 1 } }
    (∀ p, d.destOf m.hdr.dst m.hdr.dstHost = .out p ∨ d.destOf m.hdr.dst m.hdr.dstHost = .host p →
      (m.hdr.hops < 127 → d.transit rx none m = d.sendOn p none out) ∧
      (127 ≤ m.hdr.hops → d.transit rx none m = d.bump (O.HOP_DROPS rx))) ∧
    (d.destOf m.hdr.dst m.hdr.dstHost = .noHost → d.transit rx none m = d.bump (O.HOP_DROPS rx)) ∧
    (d.destOf m.hdr.dst m.hdr.dstHost = .unreachable → d.transit rx none m = d.bump O.UNREACHABLE_DROPS)) ∧
  (∀ (d : Dev) (dst : Nat), d.ownId ≠ some dst → d.lnk.fencedIds = [] →
    let e := if d.ownId.map idGroup = some (idGroup dst) then SMap.get 0 d.lnk.member (idMember dst) else SMap.get 0 d.lnk.group (idGroup dst)
    d.destOf dst false = if bit e.toNat 4 && d.portUp (fld e.toNat 0 4) then .out (fld e.toNat 0 4) else .unreachable)

/-- A sender's number for a destination and an ordered channel is its counter, which then goes to the next number, from 2^32 - 1 to 1, and touches no other counter; VANE, SYNC and REDUCE carry 0. A receiver takes a message of number 0 and expects 1, held ones of that source and channel dropped; unsynchronised it delivers and expects the number after; the expected number is delivered and the held ones in order follow; a later one within 2^31 is held while the buffer has room; one that leaves 512 held skips to the oldest held; an earlier one, and a second copy of a held one (the model's choice), is discarded and counted. REORDER_TIMEOUT goes on past the missing number, and does nothing where none is held. -/
def Obligations.MessagesOfASourceAreOrdered : Prop :=
  (∀ (d : Dev) (dst vc : Nat), vc < 8 →
    let num := fun (d : Dev) (k : Nat) => SMap.get 0 d.lnk.txSeq k
    let k := dst * 8 + vc
    (vc = 3 ∨ vc = 5 ∨ vc = 6 → d.nextSeq dst vc = (0, d)) ∧
    (vc ≠ 3 → vc ≠ 5 → vc ≠ 6 →
      (d.nextSeq dst vc).1 = num d k ∧
      num (d.nextSeq dst vc).2 k = (if num d k = 2 ^ 32 - 1 then 1 else num d k + 1) ∧
      ∀ dst' vc', vc' < 8 → (dst' ≠ dst ∨ vc' ≠ vc) → num (d.nextSeq dst vc).2 (dst' * 8 + vc') = num d (dst' * 8 + vc'))) ∧
  (∀ (s : State) (port : Nat) (m : Msg),
    let k := msgKey m
    let n := m.hdr.seq
    (n = 0 → orderMsg s port m = deliver (setExpected (dropHeld s (fun x => msgKey x.2 == k)) k 1) port m) ∧
    (n ≠ 0 → expected s.dev k = none →
      orderMsg s port m = deliver (setExpected s k (if n = 2 ^ 32 - 1 then 1 else n + 1)) port m) ∧
    (n ≠ 0 → ∀ e, expected s.dev k = some e →
      (n = e → orderMsg s port m = drainAll (deliver (setExpected s k (if n = 2 ^ 32 - 1 then 1 else n + 1)) port m) k) ∧
      (n ≠ e → (n + 2 ^ 32 - e) % 2 ^ 32 < 2 ^ 31 →
        (∀ x ∈ s.dev.lnk.reorder, msgKey x.2 ≠ k ∨ x.2.hdr.seq ≠ n) → s.dev.lnk.reorder.length < 511 →
        orderMsg s port m = holdMsg s port m) ∧
      (n ≠ e → (n + 2 ^ 32 - e) % 2 ^ 32 < 2 ^ 31 →
        (∀ x ∈ s.dev.lnk.reorder, msgKey x.2 ≠ k ∨ x.2.hdr.seq ≠ n) → 511 ≤ s.dev.lnk.reorder.length →
        orderMsg s port m = skipTo (holdMsg s port m) k) ∧
      (n ≠ e → (n + 2 ^ 32 - e) % 2 ^ 32 < 2 ^ 31 → (∃ x ∈ s.dev.lnk.reorder, msgKey x.2 = k ∧ x.2.hdr.seq = n) →
        orderMsg s port m = { s with dev := s.dev.bump O.SEQ_DUPLICATES }) ∧
      (n ≠ e → 2 ^ 31 ≤ (n + 2 ^ 32 - e) % 2 ^ 32 → orderMsg s port m = { s with dev := s.dev.bump O.SEQ_DUPLICATES })) ∧
    (∀ e, expected (setExpected s k e).dev k = some e)) ∧
  (∀ (s : State) (src vc : Nat),
    (∀ x, s.dev.lnk.reorder.find? (fun x => msgKey x.2 == src * 8 + vc) = some x →
      exec (.reorderTimeout src vc) s = .next (expireHeld (src * 8 + vc) x.2.hdr.seq s.dev.lnk.reorder.length s)) ∧
    ((∀ x ∈ s.dev.lnk.reorder, msgKey x.2 ≠ src * 8 + vc) → exec (.reorderTimeout src vc) s = .next s))

/-- Each of the seven always completes. A port in training, or failed by a fence, with at most one bad lane is linked, its spare in place if none is bad, and sends HELLO and CREDIT_INIT; two bad lanes fail it. HELLO of a linked port notes the peer's role, ID (8000H for an adapter or no ID), serial and port, HOST_PORT following; CREDIT_INIT sets the credits of the eight channels; each brings the port up once both are in. A role above 1, a version other than 1, a second adapter, a RETRAIN reason above 2, a lane above 7 in SWAP_REQ and an SSEQ above 4,095 are protocol faults. RETRAIN retrains an up port. SWAP_REQ of a lane, with the spare free, moves it and acknowledges with the next SSEQ; repeated it acknowledges again; with the spare in use it retrains. SWAP_ACK of the lane asked for reads it from the spare and starts a swap that waits. PORT_STATE_CHANGE gives the port its state. On any other port nothing happens. -/
def Obligations.LinkControlIsTaken : Prop :=
  (∀ (s : State) (p : Nat) (bad : List Nat),
    let st := s.dev.dget (O.PORT_STATE p)
    let fs := (bad.filter (fun l => decide (l < 9))).dedup
    let open' := p < 16 ∧ (st = 1 ∨ st = 4 ∨ (st = 5 ∧ (s.dev.port p).fenced = true))
    let d := (if st = 5 then portChange s.dev p 1 else s.dev).modPort p (fun q => { q with
      fenced := false, linked := true, rxSpareOk := fs.isEmpty, txSpare := 255, swap := none, swapWait := none, peerLull := false })
    (open' → fs.length < 2 → exec (.portTraining p bad) s = .next { s with dev := relink (d.dset (O.SPARE_SERVES p) 255) p }) ∧
    (open' → 2 ≤ fs.length → exec (.portTraining p bad) s = .next { s with dev := failPort s.dev p }) ∧
    (¬open' → exec (.portTraining p bad) s = .next s)) ∧
  (∀ (s : State) (p role id : Nat) (serial : Bytes) (pp version : Nat) (cs : List Nat),
    let linked := p < 16 ∧ (s.dev.port p).linked = true
    let hp := s.dev.dget O.HOST_PORT
    let bad := 1 < role ∨ version ≠ 1 ∨ (role = 1 ∧ hp < 16 ∧ hp ≠ p)
    let d1 := if role = 1 then s.dev.dset O.HOST_PORT p else if hp = p then s.dev.dset O.HOST_PORT 255 else s.dev
    let d2 := (d1.dset (O.PEER_ID p) (if role = 1 ∨ 0x8000 ≤ id then 0x8000 else id)).modPort p (fun q => { q with
      peerHost := role == 1, peerSerial := fitBytes 16 serial, peerPort := pp, helloIn := true })
    (¬linked → exec (.hello p role id serial pp version) s = .next s ∧ exec (.creditInit p cs) s = .next s) ∧
    (linked → bad → exec (.hello p role id serial pp version) s = .next { s with dev := protoFault s.dev p }) ∧
    (linked → ¬bad → exec (.hello p role id serial pp version) s = .next { s with dev := upCheck d2 s.otp p }) ∧
    (linked → exec (.creditInit p cs) s = .next { s with dev := upCheck (s.dev.modPort p (fun q => { q with
        credits := (List.range 8).map (fun v => nth 0 cs v % 2 ^ 16), spent := [], creditIn := true })) s.otp p })) ∧
  (∀ (s : State) (p r l n : Nat),
    let ack := fun (d : Dev) => d.emitLc p (leBytes 1 4 ++ leBytes 1 l ++ leBytes 2 (d.port p).txSseq)
    let moved := ((s.dev.modPort p (fun q => { q with txSpare := l })).bump (O.LANE_SWAPS p)).event 0x0601 1 5 (laneLoc p l) (leBytes 1 0 ++ leBytes 1 1)
    let read := (s.dev.modPort p (fun q => { q with swap := none, swapWait := none })).dset (O.SPARE_SERVES p) l
    (s.dev.portUp p = false → exec (.retrain p r) s = .next s ∧ exec (.swapReq p l) s = .next s ∧
      (n < 4096 → exec (.swapAck p l n) s = .next s)) ∧
    (s.dev.portUp p = true →
      exec (.retrain p r) s = .next { s with dev := if r ≤ 2 then retrainPort s.dev p r false else protoFault s.dev p } ∧
      exec (.swapReq p l) s = .next { s with
        dev := if 8 ≤ l then protoFault s.dev p else if (s.dev.port p).txSpare = l then ack s.dev
          else if (s.dev.port p).txSpare = 255 then ack moved else retrainPort s.dev p 0 true } ∧
      (n < 4096 → (s.dev.port p).swap ≠ some l → exec (.swapAck p l n) s = .next s) ∧
      (n < 4096 → (s.dev.port p).swap = some l → exec (.swapAck p l n) s = .next { s with
        dev := match (s.dev.port p).swapWait with
          | some w => requestSwap read p w true
          | none => read })) ∧
    (4096 ≤ n → exec (.swapAck p l n) s = .next { s with dev := protoFault s.dev p })) ∧
  (∀ (s : State) (p st : Nat), exec (.portStateChange p st) s = .next { s with dev := portChange s.dev p st }) ∧
  (∀ (d : Dev) (p : Nat), p < 16 → (d.port p).helloIn = true → (d.port p).creditIn = true →
    d.dget (O.PORT_STATE p) = 1 ∨ d.dget (O.PORT_STATE p) = 4 →
    ∀ o, upCheck d o p = recoveryPump (portChange d p (if (d.port p).rxSpareOk then 2 else 3)) o p)

/-- Each of the five always completes. SUPERFRAME_TX of a linked port, the module not asleep and the port not silent, sends the next of a running replay, else a new superframe, or an idle one while 128 are unacknowledged; toward a sleeping neighbour, with a frame for it, the link starts again first (the model's choice, log 81). SUPERFRAME_RX decodes the codewords its lanes carry, the spare read for the lane it serves; an accepted superframe, with its corrected symbols counted, is taken: the one after ACK gives its ACK, NAK, credits and frames; one that fails counts the failure and sets NAK. REPLAY_TIMEOUT with superframes unacknowledged starts the replay from the oldest. LOSS_OF_SIGNAL of one lane of an up port takes that lane as lost; of all nine toward a module fences the peer; of other numbers of lanes retrains. LANE_CORRECTED_LIMIT above its limit asks for a pre-emptive swap. In every other case nothing happens. -/
def Obligations.LinkTrafficAndItsFaults : Prop :=
  (∀ (s : State) (p : Nat),
    let q := s.dev.port p
    let awake := p < 16 ∧ q.linked = true ∧ s.dev.dget O.LULL_STATE ≠ 2
    let d1 := if q.peerLull = true ∧ q.txq ≠ [] ∧ q.replay = [] then
        relink (s.dev.modPort p (fun x => { x with peerLull := false })) p
      else s.dev
    (awake → q.silent = false →
      (∀ h r, (d1.port p).resend = h :: r → exec (.superframeTx p) s = .next {
        s with dev := settlePort (sendSuper (d1.modPort p (fun x => { x with resend := r })) p h false) p }) ∧
      ((d1.port p).resend = [] → exec (.superframeTx p) s = .next {
        s with dev := settlePort (if 128 ≤ (d1.port p).replay.length then sendIdle d1 p else sendNew d1 p) p })) ∧
    (¬awake ∨ q.silent = true → exec (.superframeTx p) s = .next s) ∧
    (p < 16 → q.linked = true → q.replay ≠ [] → exec (.replayTimeout p) s = .next {
      s with dev := (s.dev.modPort p (fun x => { x with resend := x.replay })).bump (O.REPLAYS p) }) ∧
    (16 ≤ p ∨ q.linked = false ∨ q.replay = [] → exec (.replayTimeout p) s = .next s) ∧
    (∀ (lanes : List (List Nat)) (spare margins minima : List Nat),
      (awake → ∀ b corr, received (readLanes s.dev p lanes spare) = some (b, corr) →
        let d := if startsAgain q b then relink (s.dev.modPort p (fun q => { q with peerLull := false })) p else s.dev
        let u := superGood { s with dev := noteFixed d p corr } p b
        exec (.superframeRx p lanes spare margins minima) s = .next { u with dev := settlePort u.dev p }) ∧
      (awake → received (readLanes s.dev p lanes spare) = none →
        exec (.superframeRx p lanes spare margins minima) s = .next {
          s with dev := settlePort (superFailed s.dev p (badLane q margins minima)) p }) ∧
      (¬awake → exec (.superframeRx p lanes spare margins minima) s = .next s))) ∧
  (∀ (s : State) (p : Nat) (b : Bytes),
    let t := leAt b 5120 16
    bit t 25 = false → fld t 0 12 = sseqNext (s.dev.port p).rxGood →
      superGood s p b = superAccepted { s with dev := nakTaken s.dev p (fld t 12 12) (bit t 24) } p b t) ∧
  (∀ (s : State) (p : Nat) (ls : List Nat) (l n : Nat),
    let lost := (ls.filter (fun l => decide (l < 9))).dedup
    let live := s.dev.portUp p = true ∧ (s.dev.port p).peerLull = false ∧ s.dev.dget O.LULL_STATE ≠ 2
    (live → lost = [l] → exec (.lossOfSignal p ls) s = .next { s with dev := laneLost s.dev p l }) ∧
    (live → lost.length = 9 → (s.dev.port p).peerHost = false → exec (.lossOfSignal p ls) s = .next { s with dev := fencePeer s.dev p }) ∧
    (live → 2 ≤ lost.length → lost.length < 9 ∨ (s.dev.port p).peerHost = true →
      exec (.lossOfSignal p ls) s = .next { s with dev := retrainPort s.dev p 0 true }) ∧
    (¬live ∨ lost = [] → exec (.lossOfSignal p ls) s = .next s) ∧
    (let asks := s.dev.portUp p = true ∧ l < 8 ∧ s.dev.dget O.LANE_SWAP_CORRECTED < n ∧ s.dev.dget (O.SPARE_SERVES p) ≠ l ∧
        (s.dev.port p).swap ≠ some l
     (asks → exec (.laneCorrectedLimit p l n) s = .next { s with dev := requestSwap s.dev p l true }) ∧
     (¬asks → exec (.laneCorrectedLimit p l n) s = .next s)))

/-- A neighbour message of SYNC of a kind, on a port that is up and carries no host. -/
def FromNeighbour (d : Dev) (p : Nat) (m : Msg) (kind : Nat) : Prop :=
  d.portUp p = true ∧ (d.port p).peerHost = false ∧ d.isHostPort p = false ∧ m.vc = 6 ∧ m.hdr.kind = kind

/-- A node that is joined to `dst` by at most `k` edges of the graph. -/
def WithinHops (g : Graph) (dst : Nat) : Nat → Nat → Prop
  | 0, v => v = dst
  | k + 1, v => WithinHops g dst k v ∨ ∃ es, (v, es) ∈ g ∧ ∃ e ∈ es, WithinHops g dst k e.2

/-- Each of the eleven always completes. A ready bridge that is not stopped starts its group census with the next GEN and a WAVE on every up group port; one whose census is done starts the machine census with an MWAVE of its own group; elsewhere nothing happens. A message of its layout on a proper port is taken: a WAVE of a second bridge is a conflict; a newer one makes its port the parent and goes out on the others with HOPS + 1, any other is answered with ACCEPT 0; an expected REPLY keeps its reports, and after the last the answer follows; a ROUTE_SET for this module is installed, another goes on toward its target; ANNOUNCE records the neighbour's ID and reports a trunk into the own group; an MWAVE of a later MGEN, or of a lower group in the same, is joined, and a complete bridge of a lower group answers with its own; an MREPLY keeps its trunks; MROUTES for this bridge become its tables, others go down the tree; FENCE_REQ fences the peer; a FENCE_NOTE of this module disables its ports, of another fences that member. Of the wrong layout, from a host, or on a port of the wrong role they are protocol faults; of another channel or KIND, or on a port not up, nothing happens. (Where the model chooses: logs 68, 70, 71, 75.) -/
def Obligations.CensusMessagesAreTaken : Prop :=
  (∀ s : State,
    let starts := s.dev.isBridge = true ∧ s.dev.sec.ready = true ∧ s.dev.lnk.census.stopped = false
    (starts → s.dev.dget O.CENSUS_STATE = 1 →
      exec .groupCensusStart s = .next { s with dev := s.dev.modCensus (fun c => { c with again := true }) }) ∧
    (starts → s.dev.dget O.CENSUS_STATE ≠ 1 → exec .groupCensusStart s = .next { s with dev := groupProgress (groupWave s.dev) }) ∧
    (¬starts → exec .groupCensusStart s = .next s) ∧
    (let done := s.dev.isBridge = true ∧ 2 ≤ s.dev.dget O.CENSUS_STATE ∧ s.dev.dget O.CENSUS_STATE ≠ 4
     (done → exec .machineCensusStart s = .next {
        s with dev := machineProgress (machineWave s.dev ((s.dev.lnk.census.mgen.getD 0 + 1) % 65536)) }) ∧
     (¬done → exec .machineCensusStart s = .next s))) ∧
  (∀ (s : State) (p : Nat) (m : Msg), FromNeighbour s.dev p m 0x10 → s.dev.groupPort p = true → m.body.length = 20 →
    let gen := leAt m.body 2 2
    let serial := (m.body.drop 4).take 16
    (foreignWave s.dev serial = true → exec (.wave p m) s = .next { s with dev := waveConflict s.dev p serial }) ∧
    (foreignWave s.dev serial = false → newerThan gen s.dev.lnk.census.gen = true →
      let ps := s.dev.upGroupPorts.filter (fun q => q != p)
      let d := (s.dev.modCensus (fun c => { c with
        gen := some gen, parent := some p, hop := m.hdr.hops, pend := ps, kept := [], bridge := serial, via := [] })).dset
          O.CENSUS_STATE 1
      let wave := syncMsg 0x10 (m.hdr.hops + 1) (leBytes 4 (at' 0 9 (fld (leAt m.body 0 4) 0 9) + at' 16 16 gen) ++ serial)
      exec (.wave p m) s = .next { s with dev := groupAnswer (d.forEach ps (fun d q => d.sendOn q none wave)) }) ∧
    (foreignWave s.dev serial = false → newerThan gen s.dev.lnk.census.gen = false →
      exec (.wave p m) s = .next { s with dev := s.dev.sendOn p none (syncMsg 0x11 0 (replyBody false gen [])) })) ∧
  (∀ (s : State) (p : Nat) (m : Msg), FromNeighbour s.dev p m 0x11 → s.dev.groupPort p = true →
    m.body.length = 6 + 320 * leAt m.body 4 2 →
    let asked := s.dev.dget O.CENSUS_STATE = 1 ∧ s.dev.lnk.census.gen = some (leAt m.body 2 2) ∧
      s.dev.lnk.census.pend.contains p = true
    let rs := reportsOf (leAt m.body 4 2) (m.body.drop 6)
    (asked → exec (.reply p m) s = .next {
      s with dev := groupAnswer (s.dev.modCensus (fun c => { c with
        pend := c.pend.filter (fun q => q != p), kept := c.kept ++ rs,
        via := c.via ++ rs.map (fun r => (repSerial r, p)) })) }) ∧
    (¬asked → exec (.reply p m) s = .next s)) ∧
  (∀ (s : State) (p : Nat) (m : Msg), FromNeighbour s.dev p m 0x12 → s.dev.groupPort p = true → m.body.length = 37460 →
    (m.body.take 16 = ownSerial → exec (.routeSet p m) s = .next { s with dev := installRoutes s.dev m.body }) ∧
    (m.body.take 16 ≠ ownSerial →
      (∀ v, s.dev.lnk.census.via.find? (fun v => v.1 == m.body.take 16) = some v →
        exec (.routeSet p m) s = .next {
          s with dev := s.dev.sendOn v.2 none (syncMsg 0x12 (m.hdr.hops + 1) m.body) }) ∧
      (s.dev.lnk.census.via.find? (fun v => v.1 == m.body.take 16) = none → exec (.routeSet p m) s = .next s))) ∧
  (∀ (s : State) (p : Nat) (m : Msg), FromNeighbour s.dev p m 0x13 → m.body.length = 20 →
    let id := leAt m.body 0 2 % 2 ^ 15
    let serial := (m.body.drop 4).take 16
    let d := s.dev.modCensus (fun c => { c with
      anns := (p, id, leAt m.body 2 2, serial) :: c.anns.filter (fun a => a.1 != p),
      hostId := if serial = c.bridge ∧ c.bridge ≠ ownSerial then some id else c.hostId })
    exec (.announce p m) s = .next { s with
      dev := if s.dev.dget (O.PORT_ROLE p) = 1 ∧ s.dev.ownId.map idGroup = some (idGroup id) then censusConflict d 5 p serial else d }) ∧
  (∀ (s : State) (p : Nat) (m : Msg), FromNeighbour s.dev p m 0x14 → m.body.length = 4 →
    let g := fld (leAt m.body 0 4) 0 9
    let mg := leAt m.body 2 2
    let c := s.dev.lnk.census
    let complete := s.dev.dget O.CENSUS_STATE = 2 ∨ s.dev.dget O.CENSUS_STATE = 3
    (newerThan mg c.mgen = true → s.dev.isBridge = true → s.dev.groupNo < g → complete →
      exec (.mwave p m) s = .next { s with dev := machineProgress (machineWave s.dev mg) }) ∧
    ((newerThan mg c.mgen = true ∧ ¬(s.dev.isBridge = true ∧ s.dev.groupNo < g ∧ complete)) ∨
        (c.mgen = some mg ∧ g < c.mroot) →
      exec (.mwave p m) s = .next { s with dev := joinMwave s.dev p m.hdr.hops g mg }) ∧
    (c.mgen = some mg → g = c.mroot →
      exec (.mwave p m) s = .next { s with dev := s.dev.sendOn p none (syncMsg 0x15 0 (mreplyBody false mg [])) }) ∧
    (newerThan mg c.mgen = false → c.mgen ≠ some mg ∨ c.mroot < g → exec (.mwave p m) s = .next s)) ∧
  (∀ (s : State) (p : Nat) (m : Msg), FromNeighbour s.dev p m 0x15 → m.body.length = 6 + 8 * leAt m.body 4 2 →
    let asked := s.dev.lnk.census.mgen = some (leAt m.body 2 2) ∧ s.dev.lnk.census.mpend.contains p = true
    (asked → exec (.mreply p m) s = .next {
      s with dev := machineProgress (s.dev.modCensus (fun c => { c with
        mpend := c.mpend.filter (fun q => q != p), mkept := c.mkept ++ trunksOf (leAt m.body 4 2) (m.body.drop 6),
        mkids := if bit (leAt m.body 0 4) 0 then c.mkids ++ [p] else c.mkids })) }) ∧
    (¬asked → exec (.mreply p m) s = .next s)) ∧
  (∀ (s : State) (p : Nat) (m : Msg), FromNeighbour s.dev p m 0x16 → m.body.length = 516 →
    let now := s.dev.lnk.census.mgen = some (leAt m.body 2 2)
    let mine := s.dev.isBridge = true ∧ s.dev.groupNo = fld (leAt m.body 0 4) 0 9
    let d := (sendRoutes s.dev (memberReports s.dev) (m.body.drop 4)).modCensus (fun c => { c with mrun := false })
    (now → mine → exec (.mroutes p m) s = .next {
      s with dev := if s.dev.lnk.census.mrun && s.dev.lnk.census.again then groupStart d else d }) ∧
    (now → ¬mine → exec (.mroutes p m) s = .next {
      s with dev := s.dev.forEach (s.dev.lnk.census.mkids.filter (fun q => q != p))
                      (fun d q => d.sendOn q none (syncMsg 0x16 (m.hdr.hops + 1) m.body)) }) ∧
    (¬now → exec (.mroutes p m) s = .next s)) ∧
  (∀ (s : State) (p : Nat) (m : Msg),
    let came := s.dev.portUp p = true ∧ m.vc = 4 ∧ m.hdr.kind = 0x7F
    let bad := (s.dev.port p).peerHost = true ∨ s.dev.isHostPort p = true ∨ m.body ≠ []
    (came → ¬bad → exec (.fenceReq p m) s = .next { s with dev := fencePeer s.dev p }) ∧
    (came → bad → exec (.fenceReq p m) s = .next { s with dev := protoFault s.dev p }) ∧
    (¬came → exec (.fenceReq p m) s = .next s)) ∧
  (∀ (s : State) (p : Nat) (m : Msg), FromNeighbour s.dev p m 0x18 → s.dev.groupPort p = true → m.body.length = 8 →
    let id := leAt m.body 0 2 % 2 ^ 15
    (s.dev.ownId = some id → exec (.fenceNote p m) s = .next { s with dev := disablePorts s.dev }) ∧
    (s.dev.ownId ≠ some id → exec (.fenceNote p m) s = .next { s with dev := fenceMember s.dev id p })) ∧
  (∀ (s : State) (p : Nat) (m : Msg) (kind : Nat) (groupOnly layout : Bool) (i : Instr),
    (kind, groupOnly, layout, i) ∈ [
      (0x10, true, m.body.length == 20, Instr.wave p m), (0x11, true, m.body.length == 6 + 320 * leAt m.body 4 2, .reply p m),
      (0x12, true, m.body.length == 37460, .routeSet p m), (0x13, false, m.body.length == 20, .announce p m),
      (0x14, false, m.body.length == 4, .mwave p m), (0x15, false, m.body.length == 6 + 8 * leAt m.body 4 2, .mreply p m),
      (0x16, false, m.body.length == 516, .mroutes p m), (0x18, true, m.body.length == 8, .fenceNote p m)] →
    let came := s.dev.portUp p = true ∧ m.vc = 6 ∧ m.hdr.kind = kind
    (came → (s.dev.port p).peerHost = true ∨ s.dev.isHostPort p = true ∨ (groupOnly = true ∧ s.dev.groupPort p = false) ∨ layout = false →
      exec i s = .next { s with dev := protoFault s.dev p }) ∧
    (¬came → exec i s = .next s))

/-- In a graph of fewer than 10^6 different nodes, the hop count computed to a destination is at most k (up to the number of nodes) exactly where at most k edges lead there; the edge chosen at a node leads one hop nearer and is the lowest-labelled that does; at the destination, or where none leads there, none is chosen. A ROUTE_SET of this module's GEN, installed, gives its ID, its member, group and backup tables byte for byte, and no fenced member; the first of a GEN makes it group-ready, the second machine-ready. -/
def Obligations.RoutesAreShortestPaths : Prop :=
  (∀ (g : Graph) (dst : Nat), (g.map (·.1)).Nodup → dst ∈ g.map (·.1) → g.length < 1000000 →
    let t := dists g dst
    (∀ v k, v ∈ g.map (·.1) → k ≤ g.length → (distOf t v ≤ k ↔ WithinHops g dst k v)) ∧
    (∀ v es, (v, es) ∈ g →
      (∀ l, nextLabel g t v = some l →
        (∃ n, (l, n) ∈ es ∧ distOf t n + 1 = distOf t v) ∧ ∀ e ∈ es, distOf t e.2 + 1 = distOf t v → l ≤ e.1) ∧
      (nextLabel g t v = none ↔ ¬∃ e ∈ es, distOf t v < 1000000 ∧ distOf t e.2 + 1 = distOf t v))) ∧
  (∀ (d : Dev) (b : Bytes), b.length = 37460 → d.lnk.census.gen = some (leAt b 18 2) →
    let u := installRoutes d b
    u.dget O.DEVICE_ID = leAt b 16 2 % 2 ^ 15 ∧ u.dget O.CENSUS_GEN = leAt b 18 2 ∧ u.lnk.fencedIds = [] ∧
    (∀ i, i < 64 → SMap.get 0 u.lnk.member i = nth 0 b (20 + i)) ∧
    (∀ i, i < 512 → SMap.get 0 u.lnk.group i = nth 0 b (84 + i)) ∧
    (∀ i, i < 36864 → SMap.get 0 u.lnk.backup i = nth 0 b (596 + i)) ∧
    (d.dget O.CENSUS_GEN ≠ leAt b 18 2 → u.dget O.CENSUS_STATE = 2) ∧
    (d.dget O.CENSUS_GEN = leAt b 18 2 → d.dget O.CENSUS_STATE = 2 →
      u.dget O.CENSUS_STATE = 3 ∧ u.pow.deviceFenced = false))

/-- A neighbour message of MGMT of a kind, on a port that is up. -/
def FromMgmt (d : Dev) (p : Nat) (m : Msg) (kind : Nat) : Prop := d.portUp p = true ∧ m.vc = 4 ∧ m.hdr.kind = kind

/-- The module has power, is in no reset and not latched off. -/
def Powered (d : Dev) : Prop := d.pow.pwrOk = true ∧ d.pow.latched = false ∧ d.pow.rstN = true

/-- Each of the nine always completes. An image is valid exactly when the seven conditions of R486 hold. BOOT of a powered module with a valid image ORs REVOKE into the revocation bits, raises MIN_SVN to SVN_FLOOR and runs; with another it changes no OTP, starts recovery and every port trains. DEVICE_READY of a running module, phase 1 ended, restores the ledger, repairs and self-tests, and makes it ready, its ports training. An IMAGE_REQ is answered with the flash bytes asked for where the module is ready and its SVN suffices, else STATUS 1 or 2. The IMAGE_DATA asked for is stored and the next part asked for, and the whole image checked (at once where BODY_LEN is out of range); another STATUS or length ends the attempt, as does IMAGE_FETCH_TIMEOUT: an update goes to state 4 with UPDATE_FAILED, a recovery asks the next port. RECOVERY_RETRY asks all ports again. FW_UPDATE_CMD with every job free and no update or unlock asks the source port, or fails where it is not up. LULL_NOTE marks the neighbour asleep or awake. A message of a wrong layout is a protocol fault; in every other case nothing happens. (Sizes of the requests: log 78, DESIGN CHOICE.) -/
def Obligations.ImagesBootAndUpdate : Prop :=
  (∀ (o : Otp) (hdr body : Bytes),
    let h := leAt hdr 0 512
    imageFault o hdr body = none ↔
      fld h 0 32 = 0x4F5A3237 ∧ fld h 32 32 = 1 ∧ (65536 ≤ fld h 64 32 ∧ fld h 64 32 ≤ 16776704) ∧ fld h 198 3130 = 0 ∧
      fld h 160 32 ≤ fld h 128 32 ∧ fld h 160 32 ≤ 64 ∧ bit (fld h 194 4) (fld h 192 2) = false ∧
      o.revoked.getLsbD (fld h 192 2) = false ∧ o.minSvn ≤ fld h 128 32 ∧
      Config.fwSigOk (fld h 192 2) (Config.sha384 (hdr.take 416 ++ body)) ((hdr.drop 416).take 96) = true) ∧
  (∀ (s : State) (c : Nat),
    let boots := Powered s.dev ∧ s.dev.sec.running = false ∧ s.dev.sec.recovery = false ∧ c = s.dev.sec.bootCause
    let hdr := flashImage s.dev 0 512
    let h := leAt hdr 0 512
    let body := bodyOf hdr (flashImage s.dev)
    let o := { s.otp with revoked := s.otp.revoked ||| BitVec.ofNat 4 (fld h 194 4), minSvn := Nat.max s.otp.minSvn (fld h 160 32) }
    (boots → imageFault s.otp hdr body = none → exec (.boot c) s = .next { s with
        otp := o
        dev := released (if o.revoked = s.otp.revoked then s.dev else s.dev.event 0x0A05 2 7 0 (leBytes 1 o.revoked.toNat))
          c h (leBytes 48 (Config.sha384 (hdr.take 416 ++ body)).toNat) }) ∧
    (∀ n, boots → imageFault s.otp hdr body = some n → ∃ d, exec (.boot c) s = .next { s with dev := d } ∧
      d = (startPorts (s.dev.event 0x0A01 3 7 0 (leBytes 1 n))).setSec (fun x => { x with recovery := true }) ∧
      ∀ p, p < 16 → d.dget (O.PORT_STATE p) = 1) ∧
    (¬boots → exec (.boot c) s = .next s)) ∧
  (∀ (d : Dev) (c h : Nat) (dg : Bytes), (released d c h dg).sec.running = true ∧ (released d c h dg).sec.recovery = false) ∧
  (∀ (s : State) (bb bs bp rf : List Nat),
    let comes := s.dev.sec.running = true ∧ s.dev.sec.ready = false ∧ 5 ≤ s.dev.pow.rails
    (comes → ∃ d, exec (.deviceReady bb bs bp rf) s = .next { s with dev := d } ∧
      d = startPorts ((selfTest (hardRepair (restoreLedger s.dev) rf) bb bs bp).setSec (fun x => { x with ready := true })) ∧
      d.sec.ready = true ∧ ∀ p, p < 16 → d.dget (O.PORT_STATE p) = 1) ∧
    (¬comes → exec (.deviceReady bb bs bp rf) s = .next s)) ∧
  (∀ (s : State) (p : Nat) (m : Msg), FromMgmt s.dev p m 0x40 →
    let w := leAt m.body 0 16
    let n := fld w 32 16
    let wrong := m.body.length ≠ 16 ∨ n % 64 ≠ 0 ∨ n < 64 ∨ 65472 < n
    let ans := fun st k : Nat => (⟨4, ⟨0x41, 0, 0, false, 0, false, 0, 0, 0⟩,
      leBytes 16 (at' 0 32 (fld w 0 32) + at' 32 16 k + at' 48 8 st) ++ SMap.readRun 0xFF s.dev.sec.image (fld w 0 32) k⟩ : Msg)
    let answer := if s.dev.sec.ready = false then ans 1 0 else if s.dev.dget O.FW_SVN < fld w 64 32 then ans 2 0 else ans 0 n
    (¬wrong → exec (.imageReq p m) s = .next { s with dev := s.dev.sendOn p none answer }) ∧
    (wrong → exec (.imageReq p m) s = .next { s with dev := protoFault s.dev p })) ∧
  (∀ (s : State) (p : Nat) (m : Msg), FromMgmt s.dev p m 0x41 →
    let w := leAt m.body 0 16
    let data := m.body.drop 16
    let whole := 16 ≤ m.body.length ∧ m.body.length = 16 + fld w 32 16
    (¬whole → exec (.imageData p m) s = .next { s with dev := protoFault s.dev p }) ∧
    (whole → s.dev.sec.fetch = none → exec (.imageData p m) s = .next s) ∧
    (∀ f, whole → s.dev.sec.fetch = some f →
      let d := s.dev.setSec (fun x => { x with buffer := SMap.writeRun 0 x.buffer f.got data })
      let wanted := f.port = p ∧ fld w 0 32 = (nextPart f).1
      (¬wanted → exec (.imageData p m) s = .next s) ∧
      (wanted → fld w 48 8 ≠ 0 ∨ fld w 32 16 ≠ (nextPart f).2 →
        exec (.imageData p m) s = .next { s with dev := portGivesNone s.dev s.otp f }) ∧
      (wanted → fld w 48 8 = 0 → fld w 32 16 = (nextPart f).2 →
        (∀ n, f.total = some n →
          let g := { f with got := f.got + data.length }
          exec (.imageData p m) s = .next { s with dev := if n ≤ g.got then imageWhole d s.otp g else askImage d s.otp g }) ∧
        (f.total = none →
          let len := fld (leAt data 0 512) 64 32
          let g := { f with got := 512, total := some (512 + len) }
          exec (.imageData p m) s = .next { s with
            dev := if 65536 ≤ len ∧ len ≤ 16776704 then askImage d s.otp g else imageWhole d s.otp g })))) ∧
  (∀ s : State,
    (∀ f, s.dev.sec.fetch = some f → exec .imageFetchTimeout s = .next { s with dev := portGivesNone s.dev s.otp f }) ∧
    (s.dev.sec.fetch = none → exec .imageFetchTimeout s = .next s) ∧
    (let waits := s.dev.sec.recovery = true ∧ s.dev.sec.retryWait = true
     let d := s.dev.setSec (fun x => { x with retryWait := false })
     (waits → exec .recoveryRetry s = .next { s with dev := tryPorts d s.otp (imagePorts s.dev) }) ∧
     (¬waits → exec .recoveryRetry s = .next s)) ∧
    (let taken := (∀ j, j < 64 → s.dev.dget (O.JOB_STATE j) = 0) ∧
       ¬(1 ≤ s.dev.dget O.FW_UPDATE_STATE ∧ s.dev.dget O.FW_UPDATE_STATE ≤ 3) ∧ s.dev.sec.unlocking = false
     let p := s.dev.dget O.FW_UPDATE_SOURCE
     let d := s.dev.planStarts.dset O.FW_UPDATE_STATE 1
     (taken → exec .fwUpdateCmd s = .next { s with
        dev := if d.portUp p then askImage d s.otp ⟨true, p, [], 0, none⟩ else updateFailed d 0 }) ∧
     (¬taken → exec .fwUpdateCmd s = .next s)) ∧
    (∀ (p : Nat) (m : Msg), FromMgmt s.dev p m 0x50 →
      let right := m.body.length = 1 ∧ leAt m.body 0 1 ≤ 1
      (right → exec (.lullNote p m) s = .next {
        s with dev := s.dev.modPort p (fun q => { q with peerLull := leAt m.body 0 1 == 0 }) }) ∧
      (¬right → exec (.lullNote p m) s = .next { s with dev := protoFault s.dev p }))) ∧
  (∀ (s : State) (p : Nat) (m : Msg),
    (¬FromMgmt s.dev p m 0x40 → exec (.imageReq p m) s = .next s) ∧
    (¬FromMgmt s.dev p m 0x41 → exec (.imageData p m) s = .next s) ∧
    (¬FromMgmt s.dev p m 0x50 → exec (.lullNote p m) s = .next s)) ∧
  (∀ (d : Dev) (o : Otp) (f : Fetch),
    (f.update = true → portGivesNone d o f =
      ((d.setSec (fun x => { x with fetch := none })).dset O.FW_UPDATE_STATE 4).event 0x0A04 2 7 0 (leBytes 1 0)) ∧
    (f.update = false → portGivesNone d o f = tryPorts d o f.left) ∧
    (∀ p ps, tryPorts d o (p :: ps) = askImage d o ⟨false, p, ps, 0, none⟩) ∧
    (tryPorts d o []).recd.alert = true ∧ (tryPorts d o []).sec.retryWait = true)

/-- Each of the five always completes. A 32-byte nonce with the identity key usable, no signing and no unlock running is kept and ATTEST_STATE is 1; the signed report then is the 160 bytes of R493 with their signature, 256 bytes, and ATTEST_STATE 2. UNLOCK_CHALLENGE draws 32 fresh bytes. A token not refused is checked in order for format, serial, challenge and signature; one that fails sets DEBUG_STATE 3 and raises UNLOCK_REFUSED; one that holds counts DEBUG_OPENED, ends identity and session keys and zeroes the memories; either consumes the challenge; a refused one changes nothing. UNLOCK_ERASE_DONE opens debug access with DEBUG_STATE 2, or on failure leaves it closed with 3; the count stands. In every other case nothing happens. -/
def Obligations.AttestationAndUnlock : Prop :=
  (∀ (s : State) (nonce : Bytes),
    let taken := nonce.length = 32 ∧ s.dev.dget O.ATTEST_STATE ≠ 1 ∧ s.dev.dget O.ATTEST_STATE ≠ 3 ∧
      s.dev.sec.identity = true ∧ s.dev.sec.unlocking = false
    (taken → exec (.attestNonce nonce) s = .next {
      s with dev := (s.dev.setSec (fun x => { x with nonce := nonce })).dset O.ATTEST_STATE 1 }) ∧
    (¬taken → exec (.attestNonce nonce) s = .next s)) ∧
  (∀ s : State, s.dev.dget O.ATTEST_STATE ≠ 1 → exec .attestSignDone s = .next s) ∧
  (∀ s : State, s.dev.dget O.ATTEST_STATE = 1 →
    let h := reportHead s.dev s.otp
    h.length = 160 ∧ leAt h 0 2 = 1 ∧ leAt h 2 2 = 256 ∧ (h.drop 4).take 16 = ownSerial ∧
    (h.drop 32).take 32 = fitBytes 32 s.dev.sec.nonce ∧ leAt h 120 4 = s.otp.minSvn % 2 ^ 32 ∧ leAt h 124 4 = s.otp.debugOpened % 2 ^ 32 ∧
    ∃ u, exec .attestSignDone s = .next u ∧ u.otp = s.otp ∧ u.dev.dget O.ATTEST_STATE = 2 ∧
      SMap.get [] u.dev.blobs O.ATTEST_REPORT = h ++ fitBytes 96 (Config.identitySign h) ∧
      (SMap.get [] u.dev.blobs O.ATTEST_REPORT).length = 256) ∧
  (∀ s : State, exec .unlockChallenge s = .next {
    s with dev := s.dev.drawBytes.2.setSec (fun x => { x with challenge := some s.dev.drawBytes.1 }) }) ∧
  (∀ (s : State) (t : Bytes),
    let d := s.dev.setSec (fun x => { x with challenge := none })
    let f := tokenFault s.dev t
    (tokenRefused s = true → exec (.unlockToken t) s = .next s) ∧
    (tokenRefused s = false → f ≠ 0 → exec (.unlockToken t) s = .next {
      s with dev := (d.dset O.DEBUG_STATE 3).event 0x0A07 2 7 0 (leBytes 1 f) }) ∧
    (tokenRefused s = false → f = 0 → ∃ u, exec (.unlockToken t) s = .next u ∧
      u.otp = { s.otp with debugOpened := s.otp.debugOpened + 1 } ∧ u.dev.mem = Mem.zero ∧ u.dev.sec.identity = false ∧
      u.dev.sec.session = false ∧ u.dev.sec.challenge = none ∧ u.dev.sec.unlocking = true ∧
      u.dev.dget O.DEBUG_STATE = 1 ∧ u.dev.dget O.ATTEST_STATE = 3) ∧
    (tokenRefused s = false ↔ (∀ j, j < 64 → s.dev.dget (O.JOB_STATE j) = 0) ∧
      (s.dev.dget O.FW_UPDATE_STATE < 1 ∨ 3 < s.dev.dget O.FW_UPDATE_STATE) ∧ s.dev.sec.unlocking = false ∧
      s.otp.debugOpened < 255 ∧ s.dev.sec.debugOpen = false) ∧
    (f = 0 ↔ leAt t 0 2 = 1 ∧ leAt t 50 14 = 0 ∧ t.length = 160 ∧ (t.drop 2).take 16 = ownSerial ∧
      s.dev.sec.challenge = some ((t.drop 18).take 32) ∧ Config.debugSigOk (t.take 64) (t.drop 64) = true)) ∧
  (∀ s : State, s.dev.sec.unlocking = true →
    let d := fun b : Bool => (if b then s.dev.planStarts else s.dev).setSec (fun x => { x with unlocking := false, debugOpen := b })
    exec (.unlockEraseDone true) s = .next {
      s with dev := ((d true).dset O.DEBUG_STATE 2).event 0x0A06 3 7 0 (leBytes 1 s.otp.debugOpened) } ∧
    exec (.unlockEraseDone false) s = .next {
      s with dev := ((d false).dset O.DEBUG_STATE 3).event 0x0A07 2 7 0 (leBytes 1 5) }) ∧
  (∀ (s : State) (ok : Bool), s.dev.sec.unlocking = false → exec (.unlockEraseDone ok) s = .next s)

/-- A well-formed packet of `its` and an operation, the first that reaches a running management core with nothing waiting,
and no retransmission. -/
def FreshPacket (s : State) (src : ChodalSrc) (pkt : Bytes) (op : Nat) (its : List CkItem) : Prop :=
  s.dev.sec.running = true ∧ s.dev.mgmt.waiting = [] ∧ cached s.dev src pkt = none ∧ 8 ≤ pkt.length ∧ pkt.length ≤ 1024 ∧
  leAt pkt 0 1 = 1 ∧ leAt pkt 1 1 = op ∧ ckItems (leAt pkt 4 2) (pkt.drop 8) = some its

/-- A well-formed packet of an operation, with its items. -/
def PacketOf (pkt : Bytes) (op : Nat) (its : List CkItem) : Prop :=
  8 ≤ pkt.length ∧ pkt.length ≤ 1024 ∧ leAt pkt 0 1 = 1 ∧ leAt pkt 1 1 = op ∧ ckItems (leAt pkt 4 2) (pkt.drop 8) = some its

/-- The state with the packet counted. -/
def counted (s : State) : State := { s with dev := s.dev.bump O.PKTS_RX }

/-- Items whose INDEX, SUB, TYPE and LEN fit their fields, each written as its 8-byte header, its value and padding to a multiple of 4 bytes, read back as the same items whatever follows; the length of an item is a multiple of 4. Where the bytes end before the last item does, reading them answers that they overrun. -/
def Obligations.ItemsReadBack : Prop :=
  ∀ (its : List CkItem) (sts : List Nat), its.length = sts.length →
    (∀ it ∈ its, it.index < 65536 ∧ it.sub < 256 ∧ it.ty < 256 ∧ it.value.length < 65536) → (∀ st ∈ sts, st < 256) →
    let bs := (its.zip sts).flatMap (fun p => ckItem p.1.index p.1.sub p.1.ty p.2 p.1.value)
    (∀ rest, ckItems its.length (bs ++ rest) = some its) ∧ bs.length % 4 = 0 ∧
    (∀ k, k < bs.length → ckItems its.length (bs.take k) = none)

/-- Each of the ten always completes. A fresh well-formed GET, GET_PART or LIST of a permitted reader reads its items in order and is answered; of another it is dropped and WRITES_DENIED counted. A SET of a permitted writer applies its items in order and is answered, or waits where it stores persisted objects while the older copy is under erase; of another writer it answers DENIED in every item. With ATOMIC and a failing item nothing changes, and the others answer NOT_APPLIED; persisted values make one new copy, or answer PERSIST_FAIL where none can be written. A packet behind one that waits, waits. A retransmission gets the cached reply and counts in REPLIES_CACHED. A packet over 1,024 bytes is dropped and counted, a shorter one than its header is dropped; one of another VERSION, or overrun, answers FIELD_RANGE with COUNT 0 and is counted. PERSIST_ERASE_DONE leaves one copy erased, and what waited proceeds in order. PLCA_BEACON_TIMEOUT shows in MGMT_PLCA_STATUS; the port answers neighbour solicitation for its address, echo, and ARP for its IPv4 address (payloads: log 80, PRESUMED). A packet that is not the command's, or reaches no running management core, changes nothing. -/
def Obligations.PacketsAreAnswered : Prop :=
  (∀ (s : State) (src : ChodalSrc) (pkt : Bytes) (its : List CkItem),
    let t := counted s
    let read := fun f : Gather → CkItem → Gather =>
      let g := its.foldl f ⟨[], ckOk, t⟩
      if mayRead t.dev src then { g.s with dev := reply g.s.dev src pkt (replyHdr pkt its.length g.st ++ g.out) }
      else { t with dev := t.dev.bump O.WRITES_DENIED }
    (FreshPacket s src pkt 1 its → exec (.chodalGet src pkt) s = .next (read getItem)) ∧
    (FreshPacket s src pkt 3 its → exec (.chodalGetPart src pkt) s = .next (read partItem)) ∧
    (FreshPacket s src pkt 4 its → exec (.chodalList src pkt) s = .next (read listItem)) ∧
    (FreshPacket s src pkt 2 its →
      let r := setAll t its (bit (leAt pkt 7 1) 1)
      (mayWrite t.dev src = true → mustWait t.dev its = false →
        exec (.chodalSet src pkt) s = .next { r.2 with dev := reply r.2.dev src pkt (setReply pkt its r.1) }) ∧
      (mayWrite t.dev src = true → mustWait t.dev its = true → exec (.chodalSet src pkt) s = .next (waitPacket t src pkt)) ∧
      (mayWrite t.dev src = false → exec (.chodalSet src pkt) s = .next {
        t with dev := reply (t.dev.bump O.WRITES_DENIED) src pkt (setReply pkt its (its.map (fun _ => ckDenied))) }))) ∧
  (∀ (s : State) (src : ChodalSrc) (pkt : Bytes) (op : Nat) (i : Instr),
    (op, i) ∈ [(1, Instr.chodalGet src pkt), (2, .chodalSet src pkt), (3, .chodalGetPart src pkt), (4, .chodalList src pkt)] →
    (∀ its, PacketOf pkt op its →
      (s.dev.sec.running = false → exec i s = .next s) ∧
      (s.dev.sec.running = true → s.dev.mgmt.waiting ≠ [] → exec i s = .next (waitPacket (counted s) src pkt)) ∧
      (∀ bs, s.dev.sec.running = true → s.dev.mgmt.waiting = [] → cached s.dev src pkt = some bs →
        exec i s = .next { s with dev := sendReply ((counted s).dev.bump O.REPLIES_CACHED) src bs })) ∧
    ((¬∃ its, PacketOf pkt op its) → exec i s = .next s)) ∧
  (∀ (s : State) (its : List CkItem) (atomic : Bool),
    let r := setItems its s
    let failing := atomic = true ∧ r.1.any (· != ckOk) = true
    let stores := (its.zip r.1).any (fun p => itemRwp p.1 && p.2 == ckOk) = true
    (failing → (setAll s its atomic).2 = s ∧
      (setAll s its atomic).1 = r.1.map (fun st => if st = ckOk then ckNotApplied else st)) ∧
    (¬failing → ¬stores → setAll s its atomic = r) ∧
    (¬failing → stores → copyWorn s.dev = false → setAll s its atomic = (r.1, { r.2 with dev := persist r.2.dev })) ∧
    (¬failing → stores → copyWorn s.dev = true → setAll s its atomic = setUnstored s its r.1 atomic)) ∧
  (∀ (s : State) (src : ChodalSrc) (pkt : Bytes),
    let bad := leAt pkt 0 1 ≠ 1 ∨ ckItems (leAt pkt 4 2) (pkt.drop 8) = none
    let other := leAt pkt 1 1 = 0 ∨ 4 < leAt pkt 1 1
    let sized := s.dev.sec.running = true ∧ 8 ≤ pkt.length ∧ pkt.length ≤ 1024
    (s.dev.sec.running = false → exec (.malformedPacket src pkt) s = .next s) ∧
    (s.dev.sec.running = true → 1024 < pkt.length → exec (.malformedPacket src pkt) s = .next { s with dev := s.dev.bump O.PKTS_MALFORMED }) ∧
    (pkt.length < 8 → exec (.malformedPacket src pkt) s = .next s) ∧
    (sized → bad ∨ other → s.dev.mgmt.waiting ≠ [] → exec (.malformedPacket src pkt) s = .next (waitPacket (counted s) src pkt)) ∧
    (∀ bs, sized → bad ∨ other → s.dev.mgmt.waiting = [] → cached s.dev src pkt = some bs →
      exec (.malformedPacket src pkt) s = .next { s with dev := sendReply ((counted s).dev.bump O.REPLIES_CACHED) src bs }) ∧
    (sized → s.dev.mgmt.waiting = [] → cached s.dev src pkt = none →
      (bad → exec (.malformedPacket src pkt) s = .next {
          s with dev := reply ((counted s).dev.bump O.PKTS_MALFORMED) src pkt (replyHdr pkt 0 ckRange) }) ∧
      (¬bad → other → exec (.malformedPacket src pkt) s = .next {
          s with dev := reply (counted s).dev src pkt (replyHdr pkt 0 ckRange) })) ∧
    (sized → ¬bad → ¬other → exec (.malformedPacket src pkt) s = .next s)) ∧
  (∀ s : State,
    let t := { s with dev := { s.dev with mgmt := { copiesErased s.dev.mgmt with waiting := [] } } }
    (s.dev.mgmt.erasing = true →
      exec .persistEraseDone s = .next (s.dev.mgmt.waiting.foldl
        (fun s p => if s.dev.mgmt.waiting ≠ [] then waitPacket s p.1 p.2 else handle s p.1 p.2) t) ∧
      (s.dev.mgmt.waiting = [] → exec .persistEraseDone s = .next t) ∧
      (∀ src pkt, s.dev.mgmt.waiting = [(src, pkt)] → exec .persistEraseDone s = .next (handle t src pkt))) ∧
    (s.dev.mgmt.erasing = false → exec .persistEraseDone s = .next s)) ∧
  (∀ (s : State) (mac : Nat) (pkt : Bytes),
    let ip := (leBytes 4 (s.dev.dget O.MGMT_IPV4)).reverse
    let named := s.dev.sec.running = true ∧ s.dev.dget O.MGMT_IPV4 ≠ 0 ∧ (pkt.drop 24).take 4 = ip
    let asked := s.dev.sec.running = true ∧ (pkt.drop 8).take 16 = linkLocal
    (s.dev.sec.running = true →
      exec .plcaBeaconTimeout s = .next { s with dev := s.dev.dset O.MGMT_PLCA_STATUS 1 } ∧
      exec (.echoRequest mac pkt) s = .next { s with dev := s.dev.t1s ⟨2, mac, 0, pkt.drop 4⟩ }) ∧
    (s.dev.sec.running = false → exec .plcaBeaconTimeout s = .next s ∧ exec (.echoRequest mac pkt) s = .next s) ∧
    (asked → exec (.neighbourSolicitation mac pkt) s = .next {
      s with dev := s.dev.t1s ⟨1, mac, 0, linkLocal ++ (leBytes 6 Config.mgmtMac.toNat).reverse⟩ }) ∧
    (¬asked → exec (.neighbourSolicitation mac pkt) s = .next s) ∧
    (named → exec (.arpRequest mac pkt) s = .next {
      s with dev := s.dev.t1s ⟨3, mac, 0, (leBytes 6 Config.mgmtMac.toNat).reverse ++ ip⟩ }) ∧
    (¬named → exec (.arpRequest mac pkt) s = .next s))

/-- For every job context: a SET item that writes CLIP_THRESHOLD above 64, AUDIT_SHIFT outside 0 and 4 to 20, or ROUND_MODE or SAT_POLICY above 1 answers FIELD_RANGE and leaves the whole state unchanged; a fresh SET packet that holds that item alone from a permitted writer changes nothing but the packet count and the reply. -/
def Obligations.SettingsOutOfRangeAreRefused : Prop :=
  ∀ (s : State) (j v sub : Nat), j < 64 → v < 256 →
    (sub = 0x04 ∧ 64 < v) ∨ (sub = 0x05 ∧ v ≠ 0 ∧ (v < 4 ∨ 20 < v)) ∨ (sub = 0x01 ∧ 1 < v) ∨ (sub = 0x03 ∧ 1 < v) →
    let it : CkItem := ⟨0x8100 + j, sub, 1, leBytes 1 v⟩
    setItem s it = (ckRange, s) ∧
    ∀ src pkt, FreshPacket s src pkt 2 [it] → mayWrite (counted s).dev src = true →
      exec (.chodalSet src pkt) s = .next { s with dev := reply (counted s).dev src pkt (setReply pkt [it] [ckRange]) }

/-- For every numeric object of the dictionary that may be read and written, outside Lull: a value of its type that a write accepts is what a read answers next, with the object's type and status OK, and the read changes nothing. -/
def Obligations.WritesReadBack : Prop :=
  ∀ (s : State) (i sub v : Nat) (o : Obj), objFind i sub = some o → o.acc = 1 ∨ o.acc = 3 → o.ty ≠ 7 → o.ty ≠ 8 →
    v < 256 ^ tyBytes o.ty → (o.ty = 6 → v ≤ 1) → s.dev.dget O.LULL_STATE = 0 →
    let r := setItem s ⟨i, sub, o.ty, leBytes (tyBytes o.ty) v⟩
    r.1 = ckOk →
    let q := readObject r.2 i sub
    q.st = ckOk ∧ q.ty = o.ty ∧ q.val = leBytes (tyBytes o.ty) v ∧ q.after = r.2

/-- Each of the eight always completes. FORM of a FREE context with no update or unlock running: a partition that cannot be formed only sets PART_RESULT to its reason; one whose rings find no room sets PART_RESULT 6; one that forms sets PART_RESULT 0 and JOB_STATE RUNNING and puts the places and grants in force. SUSPEND of a running job, RESUME of a suspended one and DESTROY of either change JOB_STATE to 2, 1 and 3, DESTROY after its steps in order. REFORM of either holds what has not started, or only sets PART_RESULT. The new partition is in force once no started descriptor is left. In any other state a command changes nothing. BASELINE_WRITE sets the class's baseline, 0 clearing SLOWDOWN. TENANCY_SWITCH of a block whose tenant still has work there changes nothing; of an idle tenant it charges VTIME by cycles x 256 / WEIGHT, rounded down (DESIGN CHOICE), and chooses again. -/
def Obligations.JobCommandsTakeEffect : Prop :=
  (∀ (s : State) (j : Nat), j < 64 → s.dev.dget (O.JOB_STATE j) = 0 → noForm s.dev = false →
    (∀ r, reqPart s.dev j = .inr r → exec (.form j) s = .next { s with dev := s.dev.dset (O.PART_RESULT j) r }) ∧
    (∀ p, reqPart s.dev j = .inl p →
      let old := s.dev.job j
      let depths := (List.range 4).map (fun q => s.dev.dget (O.QUEUE_DEPTH j q))
      let d0 := s.dev.forEach (jobCounters j ++ [O.PART_LOST j]) Dev.ddef
      let d1 := d0.forEach ((List.range 16).filter (fun c => !old.baseSet.contains c)) (fun d c => d.dset (O.BASELINE j c) 0)
      let d2 := (d1.setJob j ({ Job.free with
          baseSet := old.baseSet, depths := depths, owner := s.dev.dget (O.JOB_OWNER j) }.withPart p)).setSched (fun s =>
        { s with issued := s.issued.filter (fun e => e.1 != j) })
      (formRings j ((List.range 4).zip depths) d2 = none →
        exec (.form j) s = .next { s with dev := s.dev.dset (O.PART_RESULT j) 6 }) ∧
      (∀ d3, formRings j ((List.range 4).zip depths) d2 = some d3 → exec (.form j) s = .next {
        s with dev := ((d3.dset (O.PART_RESULT j) 0).dset (O.REDUCE_GRANT j) p.reduce).dset (O.JOB_STATE j) 1 })) ∧
    (∀ p, reqPart s.dev j = .inl p → (∀ q, q < 4 → s.dev.dget (O.QUEUE_DEPTH j q) = 0) →
      ∃ u, exec (.form j) s = .next u ∧ u.dev.dget (O.JOB_STATE j) = 1 ∧ u.dev.dget (O.PART_RESULT j) = 0 ∧
        u.dev.dget (O.REDUCE_GRANT j) = p.reduce ∧ (u.dev.job j).places = p.places ∧ (u.dev.job j).slots = p.slots ∧
        (u.dev.job j).opb = p.opb ∧ (u.dev.job j).progs = p.progs ∧ (u.dev.job j).prio = p.prio ∧
        (u.dev.job j).weight = p.weight ∧ (u.dev.job j).pipes = p.pipes ∧
        (∀ i, i ≠ j → u.dev.job i = s.dev.job i) ∧ u.dev.mem = s.dev.mem)) ∧
  (∀ (s : State) (j : Nat), 64 ≤ j → exec (.form j) s = .next s ∧ exec (.suspend j) s = .next s ∧ exec (.resume j) s = .next s ∧
    exec (.destroy j) s = .next s ∧ exec (.reform j) s = .next s) ∧
  (∀ (s : State) (j : Nat), j < 64 →
    let st := s.dev.dget (O.JOB_STATE j)
    (st ≠ 0 ∨ noForm s.dev = true → exec (.form j) s = .next s) ∧ (st ≠ 1 → exec (.suspend j) s = .next s) ∧ (st ≠ 2 → exec (.resume j) s = .next s) ∧
    (st ≠ 1 → st ≠ 2 → exec (.destroy j) s = .next s ∧ exec (.reform j) s = .next s) ∧
    (st = 1 → exec (.suspend j) s = .next { s with dev := settle (s.dev.dset (O.JOB_STATE j) 2) }) ∧
    (st = 2 →
      let d := s.dev.dset (O.JOB_STATE j) 1
      let bs := ((s.dev.job j).places.filterMap (·.phys)).filter (fun b => (d.readyJobs b).contains j)
      exec (.resume j) s = .next { s with dev := settle (d.forEach bs (fun d b => raiseVtime d b j)) }) ∧
    (st = 1 ∨ st = 2 →
      let d := destroySems (destroyWaves (destroyWork s.dev j) j) j
      exec (.destroy j) s = .next {
        s with dev := settle ((destroyGrants (destroySegs (destroyLoop d j) j) j).dset (O.JOB_STATE j) 3) } ∧
      (∀ r, reqPart s.dev j = .inr r → exec (.reform j) s = .next { s with dev := s.dev.dset (O.PART_RESULT j) r }) ∧
      (∀ p, reqPart s.dev j = .inl p →
        let e := (s.dev.dset (O.PART_RESULT j) 0).modJob j (fun x => { x with reform := some p })
        exec (.reform j) s = .next { s with dev := settle (holdUnstarted e j) }))) ∧
  (∀ (s : State) (j : Nat), ((s.dev.job j).reform = none → exec (.reformTakeEffect j) s = .next s) ∧
    ((∃ x ∈ s.dev.sched.flights, x.job = j ∧ x.waiting = false ∧ x.done = none) → exec (.reformTakeEffect j) s = .next s) ∧
    (∀ p, (s.dev.job j).reform = some p → (∀ x ∈ s.dev.sched.flights, x.job = j → x.waiting = true ∨ x.done ≠ none) →
      let old := s.dev.job j
      let nums := (p.pipes.flatMap (·.2)).map (·.stage)
      let d1 := (s.dev.forEach old.places (fun d q => zeroLeft d old p q)).modJob j (fun x =>
        { x.withPart p with panels := x.panels.filter (fun q => nums.contains q.1) })
      let d2 := d1.setBlk (fun k => { k with
        inputs := k.inputs.filter (fun e => e.1 != j || nums.contains e.2.1)
        stageStep := k.stageStep.filter (fun e => e.1 != j || nums.contains e.2.1)
        stageDone := k.stageDone.filter (fun e => e.1 != j || nums.contains e.2.1)
        outs := k.outs.filter (fun o => o.job != j || nums.contains o.stage) })
      let d3 := d2.dset (O.REDUCE_GRANT j) p.reduce
      let gone := (p.places.filterMap (·.phys)).filter (fun b => !d2.blockActive b)
      exec (.reformTakeEffect j) s = .next { s with dev := settle (releaseQueues (replaceJob d3 gone j) j) })) ∧
  (∀ (s : State) (j c v : Nat), j < 64 → c < 16 → v < 2 ^ 32 → ∃ u, exec (.baselineWrite j c v) s = .next u ∧
    u.dev.dget (O.BASELINE j c) = v ∧ (v = 0 → u.dev.dget (O.SLOWDOWN j c) = 0) ∧
    (v ≠ 0 → u.dev.dget (O.SLOWDOWN j c) = s.dev.dget (O.SLOWDOWN j c)) ∧
    (c ∈ (u.dev.job j).baseSet ↔ v ≠ 0) ∧ u.dev.mem = s.dev.mem) ∧
  (∀ (s : State) (j c v : Nat), 64 ≤ j ∨ 16 ≤ c ∨ 2 ^ 32 ≤ v → exec (.baselineWrite j c v) s = .next s) ∧
  (∀ (s : State) (b cycles : Nat),
    (s.dev.tenant b = none → exec (.tenancySwitch b cycles) s = .next { s with dev := settle (giveTenancy s.dev b) }) ∧
    (∀ t, s.dev.tenant b = some t →
      (tenantBusy s.dev b t = true → exec (.tenancySwitch b cycles) s = .next s) ∧
      (tenantBusy s.dev b t = false →
        let v := s.dev.vtime b t.1 + cycles * 256 / Nat.max 1 (s.dev.job t.1).weight
        exec (.tenancySwitch b cycles) s = .next {
          s with dev := settle (giveTenancy ((s.dev.setVtime b t.1 v).setTenant b none) b) })))

/-- After the grants of a destroyed job return: every ACC entry and row word of its slots, every byte of its OPB grant and every program word of its program numbers reads zero on each of its blocks; every ACC entry, row word, OPB byte and program word outside those runs reads as before; no parameter group of the job is left, its REDUCE_GRANT is 0 and the context holds nothing but its written baselines. -/
def Obligations.GrantsLeaveZeroed : Prop :=
  ∀ (d : Dev) (j : Nat),
    let x := d.job j
    let u := destroyGrants d j
    let held := fun (key n : Place → Nat → Nat) (k : Nat) => ∃ p ∈ x.places, ∃ b, p.phys = some b ∧ key p b ≤ k ∧ k < key p b + n p b
    let acc := fun (p : Place) (b : Nat) => accKey b p.slot 0 0
    let row := fun (p : Place) (b : Nat) => rowKey b p.slot 0 0
    let opb := fun (p : Place) (b : Nat) => opbKey b p.opb
    let prog := fun (p : Place) (b : Nat) => progKey b p.prog 0
    (∀ k, (held acc (fun _ _ => x.slots * 4160) k → SMap.get 0 u.mem.acc k = 0) ∧
      (¬held acc (fun _ _ => x.slots * 4160) k → SMap.get 0 u.mem.acc k = SMap.get 0 d.mem.acc k)) ∧
    (∀ k, (held row (fun _ _ => x.slots * 256) k → SMap.get 0 u.mem.rows k = 0) ∧
      (¬held row (fun _ _ => x.slots * 256) k → SMap.get 0 u.mem.rows k = SMap.get 0 d.mem.rows k)) ∧
    (∀ k, (held opb (fun _ _ => x.opb) k → SMap.get 0 u.mem.opb k = 0) ∧
      (¬held opb (fun _ _ => x.opb) k → SMap.get 0 u.mem.opb k = SMap.get 0 d.mem.opb k)) ∧
    (∀ k, (held prog (fun _ _ => x.progs * 32) k → SMap.get 0 u.mem.prog k = 0) ∧
      (¬held prog (fun _ _ => x.progs * 32) k → SMap.get 0 u.mem.prog k = SMap.get 0 d.mem.prog k)) ∧
    (∀ p ∈ u.red.groups, p.2.job ≠ j) ∧ (j < 64 → u.dget (O.REDUCE_GRANT j) = 0) ∧
    u.job j = { Job.free with baseSet := x.baseSet } ∧ (∀ i, i ≠ j → u.job i = d.job i) ∧ u.mem.fast = d.mem.fast ∧ u.mem.slow = d.mem.slow

/-- A freeze in RUNNING takes FREEZE_LIMIT_S and goes to FREEZING; with the queue drained and no erase running RECORDER_FROZEN is written and the state FROZEN; a thaw in FROZEN, or a freeze past its limit, goes to THAWING; in any other state each changes nothing. ALERT_CLEAR releases ALERT_N and sets ALERT_CAUSE to 0xFFFFFFFD. A finished erase leaves no sector under erase. HOURLY_UPDATE adds the degraded and operating time, and the service time where the module is in service or was since the last account; AVAILABILITY_PPB is floor(10^9 (1 - DOWN_NS / (SERVICE_S 10^9))) where service time is not 0 and covers the downtime. OUTAGE_END of a delay only adds to DELAY_NS; of an outage it adds to DOWN_NS unless that started in a planned state, raises LONGEST_OUTAGE_NS but for a device fence, and DOWN_END, and past its bound BOUND_EXCEEDED with its event. Each of the eight always completes. -/
def Obligations.RecorderCommandsTakeEffect : Prop :=
  (∀ s : State,
    let st := s.dev.dget O.RECORDER_STATE
    let rc := s.dev.recd
    (st = 0 → exec .recorderFreeze s = .next {
      s with dev := (s.dev.setRec { rc with limit := s.dev.dget O.FREEZE_LIMIT_S, droppedCount := 0 }).dset O.RECORDER_STATE 1 }) ∧
    (st ≠ 0 → exec .recorderFreeze s = .next s) ∧
    (st = 1 → rc.queue = [] → rc.erasing = none → exec .freezeDrainDone s = .next {
      s with dev := (writeDirect s.dev ⟨0x0002, 0, 7, 0, none, [], false⟩).dset O.RECORDER_STATE 2 }) ∧
    (st ≠ 1 ∨ rc.queue ≠ [] ∨ rc.erasing ≠ none → exec .freezeDrainDone s = .next s) ∧
    (st = 2 →
      let t := (s.dev.setRec { rc with heldCount := rc.holding.length }).dset O.RECORDER_STATE 3
      exec .recorderThaw s = .next { s with dev := t } ∧
      ∀ n, (rc.limit < n → exec (.freezeTimeout n) s = .next { s with dev := t.event 0x0004 2 7 0 (leBytes 4 n) }) ∧
        (n ≤ rc.limit → exec (.freezeTimeout n) s = .next s)) ∧
    (st ≠ 2 → exec .recorderThaw s = .next s) ∧
    exec .alertClear s = .next { s with dev := (s.dev.setRec { rc with alert := false, alertNo := none }).dset O.ALERT_CAUSE 0xFFFFFFFD } ∧
    exec .ringSectorEraseDone s = .next { s with dev := s.dev.setRec { rc with erasing := none } }) ∧
  (∀ (s : State) (a b c : Nat), ∃ u, exec (.hourlyUpdate a b c) s = .next u ∧
    let up := fun k n => Nat.min (s.dev.dget k + n) (dictMax k)
    u.dev.dget O.SERVICE_S = up O.SERVICE_S (if s.dev.inService || s.dev.recd.avail.part then a else 0) ∧ u.dev.recd.avail.part = false ∧ u.dev.dget O.DEGRADED_S = up O.DEGRADED_S b ∧
    u.dev.dget O.OP_HOURS = up O.OP_HOURS ((s.dev.opSecs + c) / 3600) ∧ u.dev.opSecs = (s.dev.opSecs + c) % 3600 ∧
    u.dev.dget O.DOWN_NS = s.dev.dget O.DOWN_NS ∧
    let sv := u.dev.dget O.SERVICE_S
    let dn := u.dev.dget O.DOWN_NS
    (0 < sv → dn ≤ sv * 10 ^ 9 → u.dev.dget O.AVAILABILITY_PPB = (10 ^ 9 * (sv * 10 ^ 9 - dn)) / (sv * 10 ^ 9))) ∧
  (∀ (s : State) (code ns cn bound : Nat) (cut : Bool),
    (code ∈ [0, 0x0102, 0x0501, 0x0502, 0x0509, 0x0601] → exec (.outageEnd code ns cn bound cut) s = .next {
      s with dev := s.dev.bumpN O.DELAY_NS ns }) ∧
    (code ∉ [0, 0x0102, 0x0501, 0x0502, 0x0509, 0x0601] →
      let run := s.dev.recd.avail.running
      let counts := ((run.find? (fun o => o.1 == code)).map (·.2)).getD (!s.dev.planned)
      let d0 := s.dev.modAvail (fun a => { a with running := run.eraseP (fun o => o.1 == code) })
      let d1 := if counts then d0.bumpN O.DOWN_NS cn else d0
      let d2 := if code = 0x0401 then d1 else d1.raiseMax O.LONGEST_OUTAGE_NS ns
      let d := (availability d2).raise ⟨0x0005, 1, 3, 0, none, leBytes 8 ns ++ leBytes 2 code, cut⟩
      (ns ≤ bound → exec (.outageEnd code ns cn bound cut) s = .next { s with dev := d }) ∧
      (bound < ns → exec (.outageEnd code ns cn bound cut) s = .next {
        s with dev := (d.bump O.BOUND_EXCEEDED).event 0x0006 3 3 0 (leBytes 2 code ++ leBytes 8 ns) })))

/-- The 64-byte record of an event has a good CRC-32C and gives back SEQ, TIME, POWER_CYCLES, CODE, SEVERITY, LEVEL, LOCATION and LOST_BEFORE in their bits. An event of a running module is queued in RUNNING while fewer than 1,024 records wait, else lost and counted; in a freeze it is held while fewer than 256 are; a severity of at least ALERT_SEVERITY asserts ALERT_N; before the management core runs it is kept in order. RECORD_PROGRAM, the next sector not under erase, writes the oldest record that waits, in THAWING the oldest held and after the last the end of the freeze; in RUNNING with the next SEQ into slot SEQ, or of the ring 8,192 + (SEQ - 8,192) mod 67,584, and NEWEST_SEQ is SEQ. Taking an event of a severity below 8 changes nothing but the recorder, notifications and messages queued. An outage is timed from its event on. Both always complete. -/
def Obligations.EventsReachTheFlash : Prop :=
  (∀ (r : Rec) (seq lost : Nat), seq < 2 ^ 32 →
    let w := recWord r seq lost
    let n := w.toNat
    slotGood w = true ∧ fld n 0 32 = seq ∧ fld n 32 64 = r.time % 2 ^ 64 ∧ fld n 144 32 = r.cycles % 2 ^ 32 ∧
    fld n 176 16 = r.ev.code % 2 ^ 16 ∧ fld n 192 3 = r.ev.severity % 8 ∧ fld n 200 4 = r.ev.level % 16 ∧
    fld n 204 20 = r.ev.location % 2 ^ 20 ∧ bit n 230 = r.ev.job.isSome ∧ bit n 141 = r.held ∧
    fld n 264 24 = Nat.min lost (2 ^ 24 - 1) ∧ fld n 195 5 = 0 ∧ bit n 143 = false ∧ bit n 231 = false) ∧
  (∀ (s : State) (ev : EventIn),
    (s.dev.sec.running = false →
      let d := s.dev.outageStarts ev.code
      exec (.eventAccept ev) s = .next { s with dev := d.setRec { d.recd with early := d.recd.early ++ [ev] } }) ∧
    (s.dev.sec.running = true → ∃ u, exec (.eventAccept ev) s = .next u ∧ (ev.severity < 8 → Told s.dev u.dev) ∧
      let st := s.dev.dget O.RECORDER_STATE
      let rc := s.dev.recd
      (st = 0 → rc.queue.length + rc.behind.length < 1024 → u.dev.recd.queue = rc.queue ++ [mkRec s.dev ev false] ∧ u.dev.recd.lost = rc.lost) ∧
      (st = 0 → 1024 ≤ rc.queue.length + rc.behind.length → u.dev.recd.queue = rc.queue ∧ u.dev.recd.lost = rc.lost + 1) ∧
      (st = 3 → rc.queue.length + rc.behind.length < 1024 → u.dev.recd.behind = rc.behind ++ [mkRec s.dev ev false] ∧ u.dev.recd.lost = rc.lost) ∧
      (st = 1 ∨ st = 2 → ev.code ≠ 0x0401 → rc.holding.length < 256 → u.dev.recd.holding = rc.holding ++ [mkRec s.dev ev true]) ∧
      (st = 1 ∨ st = 2 → ev.code ≠ 0x0401 → 256 ≤ rc.holding.length →
        u.dev.recd.holding = rc.holding ∧ u.dev.recd.droppedCount = rc.droppedCount + 1) ∧
      (st < 4 → ev.code ≠ 0x0401 → s.dev.dget O.ALERT_SEVERITY ≤ ev.severity → u.dev.recd.alert = true) ∧
      (st < 4 → ev.code ≠ 0x0401 → ev.severity < s.dev.dget O.ALERT_SEVERITY → u.dev.recd.alert = rc.alert))) ∧
  (∀ (s : State) (r : Rec) (rest : List Rec), s.dev.dget O.RECORDER_STATE = 0 → s.dev.recd.queue = r :: rest →
    recBlocked s.dev.recd = false → r.ev.severity < 8 →
    let seq := s.dev.recd.nextSeq
    let slot := if seq < 8192 then seq else 8192 + (seq - 8192) % 67584
    ∃ u, exec .recordProgram s = .next u ∧ Told s.dev u.dev ∧ u.dev.recd.queue = rest ∧
      u.dev.recd.nextSeq = (seq + 1) % 2 ^ 32 ∧ u.dev.dget O.NEWEST_SEQ = seq ∧ u.dev.recd.lost = 0 ∧
      SMap.get slotErased u.dev.recd.slots slot = recWord r seq (s.dev.recd.lost + s.dev.recd.dropped) ∧
      (8192 ≤ seq → (seq - 8192) % 1024 = 0 → u.dev.recd.erasing = some (((slot - 8192) / 1024 + 1) % 66))) ∧
  (∀ s : State,
    let st := s.dev.dget O.RECORDER_STATE
    let rc := s.dev.recd
    (recBlocked rc = true ∨ st = 2 → exec .recordProgram s = .next s) ∧
    (recBlocked rc = false → st = 3 →
      (∀ r rest, rc.holding = r :: rest →
        exec .recordProgram s = .next { s with dev := writeRecord (s.dev.setRec { rc with holding := rest }) r }) ∧
      (rc.holding = [] →
        let d := writeDirect s.dev ⟨0x0003, 0, 7, 0, none, leBytes 2 rc.heldCount ++ leBytes 4 rc.droppedCount, false⟩
        exec .recordProgram s = .next { s with
          dev := (d.setRec { d.recd with queue := d.recd.queue ++ d.recd.behind, behind := [] }).dset O.RECORDER_STATE 0 })) ∧
    (recBlocked rc = false → st ≠ 2 → st ≠ 3 →
      (∀ r rest, rc.queue = r :: rest →
        exec .recordProgram s = .next { s with dev := writeRecord (s.dev.setRec { rc with queue := rest }) r }) ∧
      (rc.queue = [] → exec .recordProgram s = .next s))) ∧
  (∀ (d : Dev) (ev : EventIn), ev.severity < 8 → Told d (d.raise ev))

/-- Each of the fifteen always completes. PWR_OK_ASSERT without power samples the SID, counts POWER_CYCLES and brings the rails up; PWR_OK_DEASSERT takes them and every memory. MOD_RST_N low resets the cores with cause 1 and keeps the calendar; high only moves the pin. A rail fault of step 1 to 5, an input fault, and a die at 110 degrees take every rail but standby, latched, with DEVICE_FENCE's mark. INPUT_SAMPLE of a running module shows voltage and current, and INPUT_LOW once per entry into its band. POWER_CAP_ADJUST above the cap adds 1 ms to CAP_THROTTLE_NS. THERMAL_HOLD of a die at 95 degrees or more holds with one event; THERMAL_HOLD_END ends it, adds its time and leaves every die below 92 degrees. LULL_ENTER refused changes nothing, accepted it enters; LULL_CMD_WAKE, WAKE_N, light on a lane and the timer's time wake the module from Lull or its entry with causes 2, 1, 3 and 4. In every other case nothing changes but the pin or the sensor named. (A whole ms, WAKE_N as a pulse, what survives: logs 76, 77, 84, DESIGN CHOICE.) -/
def Obligations.PowerCommandsTakeEffect : Prop :=
  (∀ (s : State) (sid : Nat),
    (s.dev.pow.pwrOk = false → ∃ u, exec (.pwrOkAssert sid) s = .next u ∧
      u.dev.pow.pwrOk = true ∧ u.dev.pow.rails = 5 ∧ u.dev.pow.latched = false ∧ u.dev.dget O.MEMBER_SID = sid % 64 ∧
      u.dev.dget O.MGMT_PLCA_ID = sid % 64 + 1 ∧ u.dev.sec.bootCause = 0 ∧
      u.dev.dget O.POWER_CYCLES = Nat.min (s.dev.dget O.POWER_CYCLES + 1) (2 ^ 32 - 1) ∧ u.otp = s.otp) ∧
    (s.dev.pow.pwrOk = true → exec (.pwrOkAssert sid) s = .next s)) ∧
  (∀ s : State,
    (s.dev.pow.pwrOk = true → ∃ u, exec .pwrOkDeassert s = .next u ∧ u.dev.pow.pwrOk = false ∧ u.dev.pow.rails = 0 ∧ u.dev.mem = Mem.zero ∧
      u.dev.sec.running = false ∧ u.dev.sec.debugOpen = false ∧ u.dev.sec.image = s.dev.sec.image ∧
      u.dev.recd.slots = s.dev.recd.slots ∧ u.dev.mgmt.copyA = s.dev.mgmt.copyA ∧ u.dev.mgmt.copyB = s.dev.mgmt.copyB ∧ u.otp = s.otp) ∧
    (s.dev.pow.pwrOk = false → exec .pwrOkDeassert s = .next s)) ∧
  (∀ (s : State) (level : Bool),
    let moved := s.dev.setPow (fun p => { p with rstN := level })
    let resets := level = false ∧ s.dev.pow.pwrOk = true ∧ s.dev.pow.latched = false
    (level = s.dev.pow.rstN → exec (.modRstN level) s = .next s) ∧
    (level ≠ s.dev.pow.rstN → ¬resets → exec (.modRstN level) s = .next { s with dev := moved }) ∧
    (level ≠ s.dev.pow.rstN → resets → ∃ u, exec (.modRstN level) s = .next u ∧ u = { s with dev := resetCores moved 1 } ∧
      u.dev.pow.rstN = false ∧ u.dev.pow.pwrOk = true ∧ u.dev.mem = Mem.zero ∧ u.dev.sec.running = false ∧
      u.dev.sec.bootCause = 1 ∧ u.dev.calendar = s.dev.calendar ∧ u.dev.timeSet = s.dev.timeSet ∧
      u.dev.sec.debugOpen = s.dev.sec.debugOpen ∧ u.dev.recd.slots = s.dev.recd.slots ∧
      (∀ b, b < 156 → u.dev.dget (O.SPARE_COLUMN_MAP b) = s.dev.dget (O.SPARE_COLUMN_MAP b)))) ∧
  (∀ s : State, s.dev.pow.pwrOk = true → s.dev.pow.latched = false →
    ∀ c : Instr, (∃ k, 1 ≤ k ∧ k ≤ 5 ∧ c = .railFault k) ∨ (∃ o mv, c = .inputFault o mv) ∨ (∃ n t, n < 25 ∧ 1100 ≤ t ∧ c = .thermalTrip n t) →
      ∃ u, exec c s = .next u ∧ u.dev.pow.rails = 1 ∧ u.dev.pow.latched = true ∧ u.dev.pow.deviceFenced = true ∧
        u.dev.mem = Mem.zero ∧ u.dev.sec.ready = false ∧ u.dev.sec.running = s.dev.sec.running ∧ u.dev.calendar = s.dev.calendar) ∧
  (∀ s : State,
    let off := s.dev.pow.pwrOk = false ∨ s.dev.pow.latched = true
    (∀ k, k < 1 ∨ 5 < k ∨ off → exec (.railFault k) s = .next s) ∧
    (∀ o mv, off → exec (.inputFault o mv) s = .next s) ∧
    (∀ n t, 25 ≤ n ∨ t < 1100 → exec (.thermalTrip n t) s = .next s) ∧
    (∀ n t, n < 25 → 1100 ≤ t → off → exec (.thermalTrip n t) s = .next { s with dev := s.dev.dset (O.DIE_TEMP_C n) (toUns 32 t) })) ∧
  (∀ (s : State) (w : Nat),
    let above := s.dev.pow.pwrOk = true ∧ s.dev.dget O.POWER_CAP_W < w
    (above → exec (.powerCapAdjust w) s = .next { s with dev := s.dev.bumpN O.CAP_THROTTLE_NS 1000000 }) ∧
    (¬above → exec (.powerCapAdjust w) s = .next s)) ∧
  (∀ (s : State) (mv ma : Nat) (ex : Option Nat),
    let on := s.dev.pow.pwrOk = true ∧ s.dev.sec.running = true
    let low := decide (42000 ≤ mv ∧ mv < 44000)
    let high := decide (58000 < mv ∧ mv ≤ 60000)
    let d1 := ((s.dev.dset O.INPUT_MV (mv % 2 ^ 32)).dset O.INPUT_MA (ma % 2 ^ 32)).dset O.INPUT_W (Config.inputWatts mv ma % 2 ^ 32)
    let d2 := if low && !s.dev.pow.inLow then d1.event 0x0A83 2 7 0 (leBytes 2 mv) else d1
    let d3 := if high && !s.dev.pow.inHigh then d2.event 0x0A88 2 7 0 (leBytes 1 1 ++ leBytes 2 mv) else d2
    let d4 := (ex.map (fun v => d3.event 0x0A88 2 7 0 (leBytes 1 2 ++ leBytes 2 (Nat.min v 65535)))).getD d3
    (on → ∃ u, exec (.inputSample mv ma ex) s = .next u ∧
      u = { s with dev := d4.setPow (fun p => { p with inLow := low, inHigh := high }) } ∧
      u.dev.dget O.INPUT_MV = mv % 2 ^ 32 ∧ u.dev.dget O.INPUT_MA = ma % 2 ^ 32 ∧
      ((low = true → s.dev.pow.inLow = true) → (high = true → s.dev.pow.inHigh = true) → ex = none → u.dev.recd = s.dev.recd)) ∧
    (¬on → exec (.inputSample mv ma ex) s = .next s)) ∧
  (∀ (s : State) (n : Nat) (t : Int),
    let hot := n < 25 ∧ 950 ≤ t ∧ s.dev.pow.pwrOk = true ∧ s.dev.pow.latched = false
    let d := s.dev.dset (O.DIE_TEMP_C n) (toUns 32 t)
    let b := leBytes 1 n ++ leBytes 1 (clampI 0 255 (t / 10)).toNat
    (hot → s.dev.pow.hold = true → exec (.thermalHold n t) s = .next { s with dev := d }) ∧
    (hot → s.dev.pow.hold = false → exec (.thermalHold n t) s = .next {
      s with dev := (d.setPow (fun p => { p with hold := true })).event 0x0A86 2 7 0 b }) ∧
    (¬hot → exec (.thermalHold n t) s = .next s)) ∧
  (∀ (s : State) (ns : Nat),
    (s.dev.pow.hold = false → exec (.thermalHoldEnd ns) s = .next s) ∧
    (s.dev.pow.hold = true → ∃ u, exec (.thermalHoldEnd ns) s = .next u ∧ u.dev.pow.hold = false ∧
      u.dev.dget O.THERMAL_HOLD_NS = Nat.min (s.dev.dget O.THERMAL_HOLD_NS + ns) (2 ^ 64 - 1) ∧ u.dev.mem = s.dev.mem ∧
      ∀ n, n < 25 → toSgn 32 (u.dev.dget (O.DIE_TEMP_C n)) < 920)) ∧
  (∀ s : State,
    (lullRefused s.dev = true → exec .lullEnter s = .next s) ∧
    (lullRefused s.dev = false → exec .lullEnter s = .next {
      s with dev := lullProgress (lullNotes (s.dev.planStarts.dset O.LULL_STATE 1) 0) }) ∧
    (s.dev.dget O.LULL_STATE = 0 → lullRefused s.dev = false → (∀ p, p < 16 → s.dev.portUp p = false) →
      ∃ u, exec .lullEnter s = .next u ∧ u.dev.dget O.LULL_STATE = 2 ∧ u.dev.mem.acc = [] ∧ u.dev.mem.opb = [] ∧
        u.dev.pow.saved = some ⟨s.dev.mem.acc, s.dev.mem.rows, s.dev.mem.opb, s.dev.mem.shadow, s.dev.mem.prog⟩) ∧
    (∀ v, s.dev.pow.saved = some v → let u := restoreSaved s.dev
      u.mem = { s.dev.mem with acc := v.acc, rows := v.rows, opb := v.opb, shadow := v.shadow, prog := v.prog } ∧ u.pow.saved = none)) ∧
  (∀ (s : State) (p ns : Nat),
    let asleep := s.dev.dget O.LULL_STATE = 1 ∨ s.dev.dget O.LULL_STATE = 2
    let due := s.dev.dget O.LULL_TIMER ≠ 0 ∧ s.dev.dget O.LULL_TIMER ≤ s.dev.calendar
    let t := { s with dev := s.dev.setPow (fun p => { p with wakeN := true }) }
    (s.dev.dget O.LULL_STATE = 0 → exec (.lullCmdWake ns) s = .next s) ∧
    (s.dev.dget O.LULL_STATE ≠ 0 → exec (.lullCmdWake ns) s = .next (wake s 2 0 ns)) ∧
    (asleep → exec (.wakeN ns) s = .next (wake t 1 0 ns)) ∧ (¬asleep → exec (.wakeN ns) s = .next t) ∧
    (asleep → p < 16 → exec (.laneLightDetect p ns) s = .next (wake s 3 p ns)) ∧
    (¬asleep ∨ 16 ≤ p → exec (.laneLightDetect p ns) s = .next s) ∧
    (asleep → due → exec (.lullTimer ns) s = .next (wake s 4 0 ns)) ∧ (¬asleep ∨ ¬due → exec (.lullTimer ns) s = .next s))

/-- At reset every memory and the dictionary are in canonical form and list nothing, so every dictionary object holds its table's default and every memory byte, ACC entry and program word reads zero; OTP is within its fuses; the module has no power, no core runs, every job context is FREE and no command waits. (Zero in memories, a new unit's OTP: logs 5, 8, DESIGN CHOICE and PRESUMED.) -/
def Obligations.ResetIsWellFormed : Prop :=
  let s := State.reset
  MemoriesWf s.dev ∧ DictWf s.dev ∧ OtpInRange s.otp ∧ s.pending = [] ∧ s.dev.pow.pwrOk = false ∧ s.dev.sec.running = false ∧
  (∀ k, s.dev.dget k = dictDefault k) ∧ (∀ j, j < 64 → s.dev.dget (O.JOB_STATE j) = 0) ∧
  (∀ k, SMap.get 0 s.dev.mem.fast k = 0 ∧ SMap.get 0 s.dev.mem.slow k = 0 ∧ SMap.get 0 s.dev.mem.acc k = 0 ∧
    SMap.get 0 s.dev.mem.rows k = 0 ∧ SMap.get 0 s.dev.mem.opb k = 0 ∧ SMap.get 0 s.dev.mem.shadow k = 0 ∧
    SMap.get 0 s.dev.mem.prog k = 0)
end

