-- ==== Sys2Proof/Laws/Map.lean ====
section
/-! SUPPORT. Sparse memories: what a read after each operation gives, for every list of entries, and that every operation
keeps the canonical form. -/

namespace Sys2Proof.Machine

variable {α : Type}

/-! ### Reads after writes -/

theorem SMap.findD_without_self (d : Nat → α) (m : SMap α) (a : Nat) : SMap.findD d (SMap.without m a) a = d a := by
  induction m with
  | nil => rfl
  | cons p m ih =>
    by_cases h : p.1 = a
    · simpa [SMap.without, h] using ih
    · simpa [SMap.without, SMap.findD, h] using ih

theorem SMap.findD_without_ne (d : Nat → α) (m : SMap α) {a b : Nat} (h : b ≠ a) :
    SMap.findD d (SMap.without m a) b = SMap.findD d m b := by
  induction m with
  | nil => rfl
  | cons p m ih =>
    by_cases hp : p.1 = a
    · have hb : a ≠ b := fun e => h e.symm
      simpa [SMap.without, SMap.findD, hp, hb] using ih
    · by_cases hb : p.1 = b
      · simp [SMap.without, SMap.findD, hb, h]
      · simpa [SMap.without, SMap.findD, hp, hb] using ih

theorem SMap.findD_insertAt_ne (d : Nat → α) (m : SMap α) {a b : Nat} (v : α) (h : b ≠ a) :
    SMap.findD d (SMap.insertAt m a v) b = SMap.findD d m b := by
  induction m with
  | nil => simp [SMap.insertAt, SMap.findD, h.symm]
  | cons p m ih =>
    by_cases hk : a < p.1
    · simp [SMap.insertAt, SMap.findD, hk, h.symm]
    · simp [SMap.insertAt, SMap.findD, hk, ih]

theorem SMap.findD_insertAt_self (d : Nat → α) (m : SMap α) (a : Nat) (v : α) :
    SMap.findD d (SMap.insertAt (SMap.without m a) a v) a = v := by
  induction m with
  | nil => simp [SMap.without, SMap.insertAt, SMap.findD]
  | cons p m ih =>
    by_cases hp : p.1 = a
    · simpa [SMap.without, hp] using ih
    · by_cases hk : a < p.1
      · simp [SMap.without, SMap.insertAt, SMap.findD, hp, hk]
      · simpa [SMap.without, SMap.insertAt, SMap.findD, hp, hk] using ih

variable [DecidableEq α]

/-- A key written reads as what was written. -/
@[simp] theorem SMap.findD_putD_self (d : Nat → α) (m : SMap α) (a : Nat) (v : α) :
    SMap.findD d (SMap.putD d m a v) a = v := by
  unfold SMap.putD
  split
  · rename_i h; rw [SMap.findD_without_self, h]
  · exact SMap.findD_insertAt_self d m a v

/-- A write leaves every other key. -/
theorem SMap.findD_putD_ne (d : Nat → α) (m : SMap α) {a b : Nat} (v : α) (h : b ≠ a) :
    SMap.findD d (SMap.putD d m a v) b = SMap.findD d m b := by
  unfold SMap.putD
  split
  · exact SMap.findD_without_ne d m h
  · rw [SMap.findD_insertAt_ne _ _ _ h, SMap.findD_without_ne d m h]

@[simp] theorem SMap.get_put_self (d : α) (m : SMap α) (a : Nat) (v : α) : SMap.get d (SMap.put d m a v) a = v :=
  SMap.findD_putD_self _ m a v

theorem SMap.get_put_ne (d : α) (m : SMap α) {a b : Nat} (v : α) (h : b ≠ a) :
    SMap.get d (SMap.put d m a v) b = SMap.get d m b :=
  SMap.findD_putD_ne _ m v h

omit [DecidableEq α] in
theorem SMap.get_append_of_none (d : α) (m n : SMap α) (a : Nat) (h : ∀ p ∈ m, p.1 ≠ a) :
    SMap.get d (m ++ n) a = SMap.get d n a := by
  induction m with
  | nil => rfl
  | cons p m ih =>
    have hp := h p (List.mem_cons_self ..)
    simpa [SMap.get, SMap.findD, hp] using ih (fun q hq => h q (List.mem_cons_of_mem _ hq))

omit [DecidableEq α] in
theorem SMap.get_filter_of_keep (d : α) (m : SMap α) (f : Nat × α → Bool) (a : Nat) (h : ∀ p : Nat × α, p.1 = a → f p = true) :
    SMap.get d (m.filter f) a = SMap.get d m a := by
  induction m with
  | nil => rfl
  | cons p m ih =>
    by_cases hp : p.1 = a
    · simp [SMap.get, SMap.findD, hp, h p hp]
    · by_cases hf : f p = true
      · simpa [SMap.get, SMap.findD, hp, hf] using ih
      · simpa [SMap.get, SMap.findD, hp, hf] using ih

omit [DecidableEq α] in
theorem SMap.get_of_none (d : α) (m : SMap α) (a : Nat) (h : ∀ p ∈ m, p.1 ≠ a) : SMap.get d m a = d := by
  have := SMap.get_append_of_none d m [] a h
  simpa [SMap.get, SMap.findD] using this

omit [DecidableEq α] in
theorem SMap.get_append_of_some (d : α) (m n : SMap α) (a : Nat) (h : ∃ p ∈ m, p.1 = a) :
    SMap.get d (m ++ n) a = SMap.get d m a := by
  induction m with
  | nil => simp at h
  | cons p m ih =>
    by_cases hp : p.1 = a
    · simp [SMap.get, SMap.findD, hp]
    · have : ∃ q ∈ m, q.1 = a := by
        obtain ⟨q, hq, e⟩ := h
        rcases List.mem_cons.1 hq with rfl | hq
        · exact absurd e hp
        · exact ⟨q, hq, e⟩
      simpa [SMap.get, SMap.findD, hp] using ih this

omit [DecidableEq α] in
/-- Entries in front that do not hold the key, or a key that only those in front may hold. -/
theorem SMap.get_append_of_none_right (d : α) (m n : SMap α) (a : Nat) (h : ∀ p ∈ n, p.1 ≠ a) :
    SMap.get d (m ++ n) a = SMap.get d m a := by
  by_cases hm : ∃ p ∈ m, p.1 = a
  · exact SMap.get_append_of_some d m n a hm
  · have hm' : ∀ p ∈ m, p.1 ≠ a := fun p hp e => hm ⟨p, hp, e⟩
    rw [SMap.get_append_of_none d m n a hm', SMap.get_of_none d n a h, SMap.get_of_none d m a hm']

theorem SMap.runOf_keys (d : α) (vs : List α) : ∀ a, ∀ p ∈ SMap.runOf d a vs, a ≤ p.1 ∧ p.1 < a + vs.length := by
  induction vs with
  | nil => simp [SMap.runOf]
  | cons v vs ih =>
    intro a p hp
    unfold SMap.runOf at hp
    split at hp
    · have := ih (a + 1) p hp; simp; omega
    · rcases List.mem_cons.1 hp with rfl | hp
      · simp
      · have := ih (a + 1) p hp; simp; omega

theorem SMap.get_runOf (d : α) (vs : List α) : ∀ a i, i < vs.length → SMap.get d (SMap.runOf d a vs) (a + i) = vs.getD i d := by
  induction vs with
  | nil => simp
  | cons v vs ih =>
    intro a i hi
    unfold SMap.runOf
    cases i with
    | zero =>
      split
      · rename_i h
        rw [SMap.get_of_none]
        · simp [h]
        · intro p hp; have := SMap.runOf_keys d vs (a + 1) p hp; omega
      · simp [SMap.get, SMap.findD]
    | succ i =>
      have e : a + (i + 1) = a + 1 + i := by omega
      have hi' : i < vs.length := by simpa using hi
      split
      · rw [e, ih (a + 1) i hi']; simp
      · have hne : a ≠ a + (i + 1) := by omega
        have := ih (a + 1) i hi'
        simp only [SMap.get, SMap.findD, hne, if_false] at this ⊢
        rw [e, this]; simp

/-- A key after a run is written: the run's value inside it, else what it was. -/
theorem SMap.get_writeRun (d : α) (m : SMap α) (a : Nat) (vs : List α) (x : Nat) :
    SMap.get d (SMap.writeRun d m a vs) x = if a ≤ x ∧ x < a + vs.length then vs.getD (x - a) d else SMap.get d m x := by
  unfold SMap.writeRun
  split
  · rename_i h
    rw [SMap.get_append_of_none_right, SMap.get_append_of_none]
    · obtain ⟨i, rfl⟩ : ∃ i, x = a + i := ⟨x - a, by omega⟩
      rw [SMap.get_runOf d vs a i (by omega)]; simp
    · intro p hp; have := (List.mem_filter.1 hp).2; simp at this; omega
    · intro p hp; have := (List.mem_filter.1 hp).2; simp at this; omega
  · rename_i h
    by_cases hx : x < a
    · rw [List.append_assoc, SMap.get_append_of_none_right, SMap.get_filter_of_keep]
      · intro p hp; simp [hp, hx]
      · intro p hp
        rcases List.mem_append.1 hp with hp | hp
        · have := SMap.runOf_keys d vs a p hp; omega
        · have := (List.mem_filter.1 hp).2; simp at this; omega
    · rw [SMap.get_append_of_none, SMap.get_filter_of_keep]
      · intro p hp; simp [hp]; omega
      · intro p hp
        rcases List.mem_append.1 hp with hp | hp
        · have := (List.mem_filter.1 hp).2; simp at this; omega
        · have := SMap.runOf_keys d vs a p hp; omega

omit [DecidableEq α] in
/-- A key after a run is erased. -/
theorem SMap.get_erase (d : α) (m : SMap α) (a n x : Nat) :
    SMap.get d (SMap.erase m a n) x = if a ≤ x ∧ x < a + n then d else SMap.get d m x := by
  unfold SMap.erase
  split
  · apply SMap.get_of_none
    intro p hp; have := (List.mem_filter.1 hp).2; simp at this; omega
  · apply SMap.get_filter_of_keep
    intro p hp; simp [hp]; omega

omit [DecidableEq α] in
theorem SMap.get_shift (d : α) (a b n x : Nat) (m : SMap α) :
    SMap.get d ((m.filter (fun p => decide (a <= p.1) && decide (p.1 < a + n))).map (fun p => (p.1 - a + b, p.2))) x =
      if b ≤ x ∧ x < b + n then SMap.get d m (x - b + a) else d := by
  induction m with
  | nil => simp [SMap.get, SMap.findD]
  | cons p m ih =>
    unfold SMap.get at ih ⊢
    by_cases hp : a ≤ p.1 ∧ p.1 < a + n
    · rw [List.filter_cons_of_pos (by simpa using hp), List.map_cons]
      simp only [SMap.findD, ih]
      by_cases hx : b ≤ x ∧ x < b + n
      · rw [if_pos hx, if_pos hx]
        by_cases h : p.1 - a + b = x
        · rw [if_pos h, if_pos (by omega)]
        · rw [if_neg h, if_neg (by omega)]
      · rw [if_neg hx, if_neg hx, if_neg (by omega)]
    · rw [List.filter_cons_of_neg (by simpa using hp), ih]
      by_cases hx : b ≤ x ∧ x < b + n
      · rw [if_pos hx, if_pos hx]
        simp only [SMap.findD]
        rw [if_neg (by omega)]
      · rw [if_neg hx, if_neg hx]

omit [DecidableEq α] in
/-- A key after a run is moved: at its destination what the source held, at its old place nothing, else what it was. -/
theorem SMap.get_moveRun (d : α) (m : SMap α) (a b n x : Nat) :
    SMap.get d (SMap.moveRun m a b n) x =
      if b ≤ x ∧ x < b + n then SMap.get d m (x - b + a) else if a ≤ x ∧ x < a + n then d else SMap.get d m x := by
  unfold SMap.moveRun
  have out : ∀ f : Nat × α → Bool, (∀ p : Nat × α, p.1 = x → f p = true) →
      SMap.get d ((m.filter (fun p => decide (p.1 < a) || decide (a + n <= p.1))).filter f) x =
        if a ≤ x ∧ x < a + n then d else SMap.get d m x := by
    intro f hf
    rw [SMap.get_filter_of_keep d _ f x hf]
    split
    · apply SMap.get_of_none
      intro p hp; have := (List.mem_filter.1 hp).2; simp at this; omega
    · apply SMap.get_filter_of_keep
      intro p hp; simp [hp]; omega
  have mv : ∀ p ∈ (m.filter (fun p => decide (a <= p.1) && decide (p.1 < a + n))).map (fun p => (p.1 - a + b, p.2)),
      b ≤ p.1 ∧ p.1 < b + n := by
    intro p hp
    obtain ⟨q, hq, rfl⟩ := List.mem_map.1 hp
    have := (List.mem_filter.1 hq).2
    simp at this; dsimp only; omega
  by_cases hx : b ≤ x ∧ x < b + n
  · rw [if_pos hx, SMap.get_append_of_none_right, SMap.get_append_of_none, SMap.get_shift, if_pos hx]
    · intro p hp; have := (List.mem_filter.1 hp).2; simp at this; omega
    · intro p hp; have := (List.mem_filter.1 hp).2; simp at this; omega
  · rw [if_neg hx]
    by_cases hl : x < b
    · rw [List.append_assoc, SMap.get_append_of_none_right, out _ (fun p hp => by simp [hp, hl])]
      intro p hp
      rcases List.mem_append.1 hp with hp | hp
      · have := mv p hp; omega
      · have := (List.mem_filter.1 hp).2; simp at this; omega
    · rw [SMap.get_append_of_none, out _ (fun p hp => by simp [hp]; omega)]
      intro p hp
      rcases List.mem_append.1 hp with hp | hp
      · have := (List.mem_filter.1 hp).2; simp at this; omega
      · have := mv p hp; omega

/-! ### Reading a run -/

omit [DecidableEq α] in
theorem SMap.rising_mono {lo lo' : Nat} (m : SMap α) (h : SMap.rising lo m = true) (hl : lo' ≤ lo) : SMap.rising lo' m = true := by
  cases m with
  | nil => rfl
  | cons p m => simp [SMap.rising] at h ⊢; exact ⟨by omega, h.2⟩

omit [DecidableEq α] in
theorem SMap.rising_keys (m : SMap α) : ∀ lo, SMap.rising lo m = true → ∀ p ∈ m, lo ≤ p.1 := by
  induction m with
  | nil => simp
  | cons q m ih =>
    intro lo h p hp
    simp [SMap.rising] at h
    rcases List.mem_cons.1 hp with rfl | hp
    · exact h.1
    · have := ih _ h.2 p hp; omega

omit [DecidableEq α] in
theorem SMap.walk_eq (d : α) : ∀ n a (m : SMap α), SMap.rising a m = true →
    SMap.walk d n a m = (List.range n).map (fun i => SMap.get d m (a + i)) := by
  intro n
  induction n with
  | zero => simp [SMap.walk]
  | succ n ih =>
    intro a m h
    have shift : ∀ f : Nat → α, (List.range (n + 1)).map f = f 0 :: (List.range n).map (fun i => f (i + 1)) := by
      intro f; simp [List.range_succ_eq_map, Function.comp_def]
    rw [shift]
    cases m with
    | nil =>
      simp only [SMap.walk]
      rw [ih (a + 1) [] rfl]
      simp [SMap.get, SMap.findD]
    | cons p m =>
      obtain ⟨k, v⟩ := p
      simp [SMap.rising] at h
      unfold SMap.walk
      split
      · rename_i hk
        subst hk
        rw [ih _ m h.2]
        simp [SMap.get, SMap.findD, Nat.add_assoc, Nat.add_comm 1]
      · rename_i hk
        have hr : SMap.rising (a + 1) ((k, v) :: m) = true := by simp [SMap.rising]; exact ⟨by omega, h.2⟩
        rw [ih _ _ hr]
        have h0 : SMap.get d ((k, v) :: m) (a + 0) = d := by
          apply SMap.get_of_none
          intro p hp
          have := SMap.rising_keys _ _ hr p hp
          omega
        rw [h0]
        simp [Nat.add_assoc, Nat.add_comm 1]

omit [DecidableEq α] in
theorem SMap.get_dropWhile_lt (d : α) (m : SMap α) (a x : Nat) (hx : a ≤ x) :
    SMap.get d (m.dropWhile (fun p => decide (p.1 < a))) x = SMap.get d m x := by
  induction m with
  | nil => rfl
  | cons p m ih =>
    by_cases hp : p.1 < a
    · have : p.1 ≠ x := by omega
      simpa [List.dropWhile, hp, SMap.get, SMap.findD, this] using ih
    · simp [List.dropWhile, hp]

omit [DecidableEq α] in
theorem SMap.rising_dropWhile_lt (m : SMap α) (a : Nat) : ∀ lo, SMap.rising lo m = true →
    SMap.rising a (m.dropWhile (fun p => decide (p.1 < a))) = true := by
  induction m with
  | nil => intros; rfl
  | cons p m ih =>
    intro lo h
    simp [SMap.rising] at h
    by_cases hp : p.1 < a
    · simpa [List.dropWhile, hp] using ih _ h.2
    · simp [List.dropWhile, hp, SMap.rising, h.2]; omega

omit [DecidableEq α] in
/-- A run reads key by key. -/
theorem SMap.readRun_eq (d : α) (m : SMap α) (a n : Nat) :
    SMap.readRun d m a n = (List.range n).map (fun i => SMap.get d m (a + i)) := by
  unfold SMap.readRun
  split
  · rename_i h
    rw [SMap.walk_eq d n a _ (SMap.rising_dropWhile_lt m a 0 h)]
    exact List.map_congr_left (fun i _ => SMap.get_dropWhile_lt d m a (a + i) (by omega))
  · rfl

omit [DecidableEq α] in
@[simp] theorem SMap.readRun_length (d : α) (m : SMap α) (a n : Nat) : (SMap.readRun d m a n).length = n := by
  simp [SMap.readRun_eq]

/-- A run written reads back. -/
theorem SMap.readRun_writeRun_self (d : α) (m : SMap α) (a : Nat) (vs : List α) :
    SMap.readRun d (SMap.writeRun d m a vs) a vs.length = vs := by
  rw [SMap.readRun_eq]
  apply List.ext_getElem
  · simp
  · intro i h1 h2
    simp at h1
    rw [List.getElem_map, List.getElem_range, SMap.get_writeRun, if_pos (by omega)]
    simp [h2]

/-- A run apart from the one written reads as before. -/
theorem SMap.readRun_writeRun_apart (d : α) (m : SMap α) (a : Nat) (vs : List α) (b n : Nat)
    (h : b + n ≤ a ∨ a + vs.length ≤ b) : SMap.readRun d (SMap.writeRun d m a vs) b n = SMap.readRun d m b n := by
  rw [SMap.readRun_eq, SMap.readRun_eq]
  apply List.map_congr_left
  intro i hi
  have := List.mem_range.1 hi
  rw [SMap.get_writeRun, if_neg (by omega)]

/-! ### The canonical form -/

theorem SMap.wfFrom_mono (d : Nat → α) {lo lo' : Nat} (m : SMap α) (h : SMap.wfFrom d lo m = true) (hl : lo' ≤ lo) :
    SMap.wfFrom d lo' m = true := by
  cases m with
  | nil => rfl
  | cons p m => simp [SMap.wfFrom] at h ⊢; exact ⟨⟨by omega, h.1.2⟩, h.2⟩

theorem SMap.wfFrom_keys (d : Nat → α) (m : SMap α) : ∀ lo, SMap.wfFrom d lo m = true → ∀ p ∈ m, lo ≤ p.1 := by
  induction m with
  | nil => simp
  | cons q m ih =>
    intro lo h p hp
    simp [SMap.wfFrom] at h
    rcases List.mem_cons.1 hp with rfl | hp
    · exact h.1.1
    · have := ih _ h.2 p hp; omega

theorem SMap.wfFrom_filter (d : Nat → α) (f : Nat × α → Bool) (m : SMap α) : ∀ lo, SMap.wfFrom d lo m = true →
    SMap.wfFrom d lo (m.filter f) = true := by
  induction m with
  | nil => intros; rfl
  | cons p m ih =>
    intro lo h
    simp [SMap.wfFrom] at h
    by_cases hf : f p = true
    · simp only [List.filter_cons, hf, if_true]
      simp [SMap.wfFrom, h.1, ih _ h.2]
    · simp only [List.filter_cons, hf]
      exact SMap.wfFrom_mono d _ (ih _ h.2) (by omega)

/-- Rising lists that lie one above the other. -/
theorem SMap.wfFrom_append (d : Nat → α) (m n : SMap α) (c : Nat) : ∀ lo, lo ≤ c → SMap.wfFrom d lo m = true →
    (∀ p ∈ m, p.1 < c) → SMap.wfFrom d c n = true → SMap.wfFrom d lo (m ++ n) = true := by
  induction m with
  | nil => intro lo hl _ _ hn; exact SMap.wfFrom_mono d n hn hl
  | cons p m ih =>
    intro lo hl hm hc hn
    simp [SMap.wfFrom] at hm
    have := ih (p.1 + 1) (hc p (List.mem_cons_self ..)) hm.2 (fun q hq => hc q (List.mem_cons_of_mem _ hq)) hn
    simp [SMap.wfFrom, hm.1, this]

theorem SMap.wfFrom_insertAt (d : Nat → α) (m : SMap α) (a : Nat) (v : α) (hv : v ≠ d a) : ∀ lo, lo ≤ a →
    (∀ p ∈ m, p.1 ≠ a) → SMap.wfFrom d lo m = true → SMap.wfFrom d lo (SMap.insertAt m a v) = true := by
  induction m with
  | nil => intro lo hl _ _; simp [SMap.insertAt, SMap.wfFrom, hl, hv]
  | cons p m ih =>
    intro lo hl hne hm
    simp [SMap.wfFrom] at hm
    unfold SMap.insertAt
    split
    · rename_i hk
      simp [SMap.wfFrom, hl, hv, hm.1.2, hm.2]; omega
    · rename_i hk
      have hp := hne p (List.mem_cons_self ..)
      have := ih (p.1 + 1) (by omega) (fun q hq => hne q (List.mem_cons_of_mem _ hq)) hm.2
      simp [SMap.wfFrom, hm.1, this]

/-- Writing a key keeps the canonical form. -/
theorem SMap.wf_putD (d : Nat → α) (m : SMap α) (a : Nat) (v : α) (h : SMap.wf d m = true) : SMap.wf d (SMap.putD d m a v) = true := by
  have hw : SMap.wfFrom d 0 (SMap.without m a) = true := SMap.wfFrom_filter d _ m 0 h
  unfold SMap.wf SMap.putD
  split
  · exact hw
  · rename_i hv
    apply SMap.wfFrom_insertAt d _ a v hv 0 (by omega) _ hw
    intro p hp; simpa using (List.mem_filter.1 hp).2

theorem SMap.wf_put (d : α) (m : SMap α) (a : Nat) (v : α) (h : SMap.wf (fun _ => d) m = true) :
    SMap.wf (fun _ => d) (SMap.put d m a v) = true := SMap.wf_putD _ m a v h

theorem SMap.wfFrom_runOf (d : α) (vs : List α) : ∀ a, SMap.wfFrom (fun _ => d) a (SMap.runOf d a vs) = true := by
  induction vs with
  | nil => intro a; rfl
  | cons v vs ih =>
    intro a
    unfold SMap.runOf
    split
    · exact SMap.wfFrom_mono _ _ (ih (a + 1)) (by omega)
    · rename_i hv; simp [SMap.wfFrom, hv, ih (a + 1)]

/-- Writing a run keeps the canonical form. -/
theorem SMap.wf_writeRun (d : α) (m : SMap α) (a : Nat) (vs : List α) (h : SMap.wf (fun _ => d) m = true) :
    SMap.wf (fun _ => d) (SMap.writeRun d m a vs) = true := by
  unfold SMap.wf SMap.writeRun
  have up : ∀ lo, SMap.wfFrom (fun _ => d) lo m = true → ∀ c, SMap.wfFrom (fun _ => d) c (m.filter (fun p => decide (c ≤ p.1))) = true := by
    intro lo hm c
    clear h
    induction m generalizing lo with
    | nil => rfl
    | cons p m ih =>
      simp [SMap.wfFrom] at hm
      by_cases hc : c ≤ p.1
      · simp only [List.filter_cons, hc, decide_true, if_true]
        have := SMap.wfFrom_filter (fun _ => d) (fun p => decide (c ≤ p.1)) m _ hm.2
        simp [SMap.wfFrom, hc, hm.1.2, this]
      · simpa [List.filter_cons, hc] using ih _ hm.2
  apply SMap.wfFrom_append _ _ _ (a + vs.length) 0 (by omega)
  · apply SMap.wfFrom_append _ _ _ a 0 (by omega) (SMap.wfFrom_filter _ _ m 0 h)
    · intro p hp; simpa using (List.mem_filter.1 hp).2
    · exact SMap.wfFrom_runOf d vs a
  · intro p hp
    rcases List.mem_append.1 hp with hp | hp
    · have := (List.mem_filter.1 hp).2; simp at this; omega
    · exact (SMap.runOf_keys d vs a p hp).2
  · exact up 0 h (a + vs.length)

/-- Erasing a run keeps the canonical form. -/
theorem SMap.wf_erase (d : Nat → α) (m : SMap α) (a n : Nat) (h : SMap.wf d m = true) : SMap.wf d (SMap.erase m a n) = true :=
  SMap.wfFrom_filter d _ m 0 h

theorem SMap.wfFrom_shift (d : α) (a b n : Nat) (m : SMap α) : ∀ lo, SMap.wfFrom (fun _ => d) lo m = true →
    SMap.wfFrom (fun _ => d) (lo - a + b)
      ((m.filter (fun p => decide (a ≤ p.1) && decide (p.1 < a + n))).map (fun p => (p.1 - a + b, p.2))) = true := by
  induction m with
  | nil => intros; rfl
  | cons p m ih =>
    intro lo h
    simp [SMap.wfFrom] at h
    by_cases hc : a ≤ p.1 ∧ p.1 < a + n
    · have := ih _ h.2
      have e : p.1 + 1 - a + b = p.1 - a + b + 1 := by omega
      rw [e] at this
      simp only [List.filter_cons, hc, decide_true, Bool.and_self, if_true, List.map_cons, SMap.wfFrom, this, Bool.and_true,
        h.1.2, decide_eq_true_eq, ne_eq, not_false_eq_true]
      omega
    · have := SMap.wfFrom_mono _ _ (ih _ h.2) (lo' := lo - a + b) (by omega)
      simpa [List.filter_cons, hc] using this

/-- Moving a run keeps the canonical form. -/
theorem SMap.wf_moveRun (d : α) (m : SMap α) (a b n : Nat) (h : SMap.wf (fun _ => d) m = true) :
    SMap.wf (fun _ => d) (SMap.moveRun m a b n) = true := by
  unfold SMap.wf SMap.moveRun
  have hout := SMap.wfFrom_filter (fun _ => d) (fun p : Nat × α => decide (p.1 < a) || decide (a + n ≤ p.1)) m 0 h
  generalize m.filter (fun p : Nat × α => decide (p.1 < a) || decide (a + n ≤ p.1)) = out at hout
  have up : ∀ (l : SMap α) lo, SMap.wfFrom (fun _ => d) lo l = true → ∀ c, SMap.wfFrom (fun _ => d) c (l.filter (fun p => decide (c ≤ p.1))) = true := by
    intro l
    induction l with
    | nil => intros; rfl
    | cons p l ih =>
      intro lo hl c
      simp [SMap.wfFrom] at hl
      by_cases hc : c ≤ p.1
      · simp only [List.filter_cons, hc, decide_true, if_true]
        have := SMap.wfFrom_filter (fun _ => d) (fun p => decide (c ≤ p.1)) l _ hl.2
        simp [SMap.wfFrom, hc, hl.1.2, this]
      · simpa [List.filter_cons, hc] using ih _ hl.2 c
  apply SMap.wfFrom_append _ _ _ (b + n) 0 (by omega)
  · apply SMap.wfFrom_append _ _ _ b 0 (by omega) (SMap.wfFrom_filter _ _ out 0 hout)
    · intro p hp; simpa using (List.mem_filter.1 hp).2
    · exact SMap.wfFrom_mono _ _ (SMap.wfFrom_shift d a b n m 0 h) (by omega)
  · intro p hp
    rcases List.mem_append.1 hp with hp | hp
    · have := (List.mem_filter.1 hp).2; simp at this; omega
    · obtain ⟨q, hq, rfl⟩ := List.mem_map.1 hp
      have := (List.mem_filter.1 hq).2; simp at this ⊢; omega
  · exact up out 0 hout (b + n)

/-! ### The dictionary -/

@[simp] theorem Dev.dget_dset_self (d : Dev) (k v : Nat) : (d.dset k v).dget k = v := by
  simp [Dev.dget, Dev.dset]

theorem Dev.dget_dset_ne (d : Dev) {k l : Nat} (v : Nat) (h : l ≠ k) : (d.dset k v).dget l = d.dget l := by
  simp [Dev.dget, Dev.dset, SMap.findD_putD_ne _ _ _ h]

end Sys2Proof.Machine
end

