-- ==== Sys2Proof/Laws/State.lean ====
section
/-! SUPPORT. What each update of the module leaves alone: one lemma per update and field of `Dev` it does not write, true
by `rfl`, and what the update reads back as; so that no later proof unfolds a record update. -/

namespace Sys2Proof.Machine

variable (d : Dev)


/-! `Dev.dset` writes `dict` only. -/

@[simp] theorem Dev.dset_blobs (k v : Nat) : (d.dset k v).blobs = d.blobs := rfl
@[simp] theorem Dev.dset_mem (k v : Nat) : (d.dset k v).mem = d.mem := rfl
@[simp] theorem Dev.dset_blk (k v : Nat) : (d.dset k v).blk = d.blk := rfl
@[simp] theorem Dev.dset_store (k v : Nat) : (d.dset k v).store = d.store := rfl
@[simp] theorem Dev.dset_mc (k v : Nat) : (d.dset k v).mc = d.mc := rfl
@[simp] theorem Dev.dset_red (k v : Nat) : (d.dset k v).red = d.red := rfl
@[simp] theorem Dev.dset_srv (k v : Nat) : (d.dset k v).srv = d.srv := rfl
@[simp] theorem Dev.dset_sched (k v : Nat) : (d.dset k v).sched = d.sched := rfl
@[simp] theorem Dev.dset_lnk (k v : Nat) : (d.dset k v).lnk = d.lnk := rfl
@[simp] theorem Dev.dset_mbox (k v : Nat) : (d.dset k v).mbox = d.mbox := rfl
@[simp] theorem Dev.dset_mgmt (k v : Nat) : (d.dset k v).mgmt = d.mgmt := rfl
@[simp] theorem Dev.dset_recd (k v : Nat) : (d.dset k v).recd = d.recd := rfl
@[simp] theorem Dev.dset_sec (k v : Nat) : (d.dset k v).sec = d.sec := rfl
@[simp] theorem Dev.dset_pow (k v : Nat) : (d.dset k v).pow = d.pow := rfl
@[simp] theorem Dev.dset_calendar (k v : Nat) : (d.dset k v).calendar = d.calendar := rfl
@[simp] theorem Dev.dset_timeSet (k v : Nat) : (d.dset k v).timeSet = d.timeSet := rfl
@[simp] theorem Dev.dset_opSecs (k v : Nat) : (d.dset k v).opSecs = d.opSecs := rfl
@[simp] theorem Dev.dset_freeNo (k v : Nat) : (d.dset k v).freeNo = d.freeNo := rfl

/-! `Dev.bumpN` writes `dict` only. -/

@[simp] theorem Dev.bumpN_blobs (k n : Nat) : (d.bumpN k n).blobs = d.blobs := rfl
@[simp] theorem Dev.bumpN_mem (k n : Nat) : (d.bumpN k n).mem = d.mem := rfl
@[simp] theorem Dev.bumpN_blk (k n : Nat) : (d.bumpN k n).blk = d.blk := rfl
@[simp] theorem Dev.bumpN_store (k n : Nat) : (d.bumpN k n).store = d.store := rfl
@[simp] theorem Dev.bumpN_mc (k n : Nat) : (d.bumpN k n).mc = d.mc := rfl
@[simp] theorem Dev.bumpN_red (k n : Nat) : (d.bumpN k n).red = d.red := rfl
@[simp] theorem Dev.bumpN_srv (k n : Nat) : (d.bumpN k n).srv = d.srv := rfl
@[simp] theorem Dev.bumpN_sched (k n : Nat) : (d.bumpN k n).sched = d.sched := rfl
@[simp] theorem Dev.bumpN_lnk (k n : Nat) : (d.bumpN k n).lnk = d.lnk := rfl
@[simp] theorem Dev.bumpN_mbox (k n : Nat) : (d.bumpN k n).mbox = d.mbox := rfl
@[simp] theorem Dev.bumpN_mgmt (k n : Nat) : (d.bumpN k n).mgmt = d.mgmt := rfl
@[simp] theorem Dev.bumpN_recd (k n : Nat) : (d.bumpN k n).recd = d.recd := rfl
@[simp] theorem Dev.bumpN_sec (k n : Nat) : (d.bumpN k n).sec = d.sec := rfl
@[simp] theorem Dev.bumpN_pow (k n : Nat) : (d.bumpN k n).pow = d.pow := rfl
@[simp] theorem Dev.bumpN_calendar (k n : Nat) : (d.bumpN k n).calendar = d.calendar := rfl
@[simp] theorem Dev.bumpN_timeSet (k n : Nat) : (d.bumpN k n).timeSet = d.timeSet := rfl
@[simp] theorem Dev.bumpN_opSecs (k n : Nat) : (d.bumpN k n).opSecs = d.opSecs := rfl
@[simp] theorem Dev.bumpN_freeNo (k n : Nat) : (d.bumpN k n).freeNo = d.freeNo := rfl

/-! `Dev.bump` writes `dict` only. -/

@[simp] theorem Dev.bump_blobs (k : Nat) : (d.bump k).blobs = d.blobs := rfl
@[simp] theorem Dev.bump_mem (k : Nat) : (d.bump k).mem = d.mem := rfl
@[simp] theorem Dev.bump_blk (k : Nat) : (d.bump k).blk = d.blk := rfl
@[simp] theorem Dev.bump_store (k : Nat) : (d.bump k).store = d.store := rfl
@[simp] theorem Dev.bump_mc (k : Nat) : (d.bump k).mc = d.mc := rfl
@[simp] theorem Dev.bump_red (k : Nat) : (d.bump k).red = d.red := rfl
@[simp] theorem Dev.bump_srv (k : Nat) : (d.bump k).srv = d.srv := rfl
@[simp] theorem Dev.bump_sched (k : Nat) : (d.bump k).sched = d.sched := rfl
@[simp] theorem Dev.bump_lnk (k : Nat) : (d.bump k).lnk = d.lnk := rfl
@[simp] theorem Dev.bump_mbox (k : Nat) : (d.bump k).mbox = d.mbox := rfl
@[simp] theorem Dev.bump_mgmt (k : Nat) : (d.bump k).mgmt = d.mgmt := rfl
@[simp] theorem Dev.bump_recd (k : Nat) : (d.bump k).recd = d.recd := rfl
@[simp] theorem Dev.bump_sec (k : Nat) : (d.bump k).sec = d.sec := rfl
@[simp] theorem Dev.bump_pow (k : Nat) : (d.bump k).pow = d.pow := rfl
@[simp] theorem Dev.bump_calendar (k : Nat) : (d.bump k).calendar = d.calendar := rfl
@[simp] theorem Dev.bump_timeSet (k : Nat) : (d.bump k).timeSet = d.timeSet := rfl
@[simp] theorem Dev.bump_opSecs (k : Nat) : (d.bump k).opSecs = d.opSecs := rfl
@[simp] theorem Dev.bump_freeNo (k : Nat) : (d.bump k).freeNo = d.freeNo := rfl

/-! `Dev.raiseMax` writes `dict` only. -/

@[simp] theorem Dev.raiseMax_blobs (k v : Nat) : (d.raiseMax k v).blobs = d.blobs := rfl
@[simp] theorem Dev.raiseMax_mem (k v : Nat) : (d.raiseMax k v).mem = d.mem := rfl
@[simp] theorem Dev.raiseMax_blk (k v : Nat) : (d.raiseMax k v).blk = d.blk := rfl
@[simp] theorem Dev.raiseMax_store (k v : Nat) : (d.raiseMax k v).store = d.store := rfl
@[simp] theorem Dev.raiseMax_mc (k v : Nat) : (d.raiseMax k v).mc = d.mc := rfl
@[simp] theorem Dev.raiseMax_red (k v : Nat) : (d.raiseMax k v).red = d.red := rfl
@[simp] theorem Dev.raiseMax_srv (k v : Nat) : (d.raiseMax k v).srv = d.srv := rfl
@[simp] theorem Dev.raiseMax_sched (k v : Nat) : (d.raiseMax k v).sched = d.sched := rfl
@[simp] theorem Dev.raiseMax_lnk (k v : Nat) : (d.raiseMax k v).lnk = d.lnk := rfl
@[simp] theorem Dev.raiseMax_mbox (k v : Nat) : (d.raiseMax k v).mbox = d.mbox := rfl
@[simp] theorem Dev.raiseMax_mgmt (k v : Nat) : (d.raiseMax k v).mgmt = d.mgmt := rfl
@[simp] theorem Dev.raiseMax_recd (k v : Nat) : (d.raiseMax k v).recd = d.recd := rfl
@[simp] theorem Dev.raiseMax_sec (k v : Nat) : (d.raiseMax k v).sec = d.sec := rfl
@[simp] theorem Dev.raiseMax_pow (k v : Nat) : (d.raiseMax k v).pow = d.pow := rfl
@[simp] theorem Dev.raiseMax_calendar (k v : Nat) : (d.raiseMax k v).calendar = d.calendar := rfl
@[simp] theorem Dev.raiseMax_timeSet (k v : Nat) : (d.raiseMax k v).timeSet = d.timeSet := rfl
@[simp] theorem Dev.raiseMax_opSecs (k v : Nat) : (d.raiseMax k v).opSecs = d.opSecs := rfl
@[simp] theorem Dev.raiseMax_freeNo (k v : Nat) : (d.raiseMax k v).freeNo = d.freeNo := rfl

/-! `Dev.ddef` writes `dict` only. -/

@[simp] theorem Dev.ddef_blobs (k : Nat) : (d.ddef k).blobs = d.blobs := rfl
@[simp] theorem Dev.ddef_mem (k : Nat) : (d.ddef k).mem = d.mem := rfl
@[simp] theorem Dev.ddef_blk (k : Nat) : (d.ddef k).blk = d.blk := rfl
@[simp] theorem Dev.ddef_store (k : Nat) : (d.ddef k).store = d.store := rfl
@[simp] theorem Dev.ddef_mc (k : Nat) : (d.ddef k).mc = d.mc := rfl
@[simp] theorem Dev.ddef_red (k : Nat) : (d.ddef k).red = d.red := rfl
@[simp] theorem Dev.ddef_srv (k : Nat) : (d.ddef k).srv = d.srv := rfl
@[simp] theorem Dev.ddef_sched (k : Nat) : (d.ddef k).sched = d.sched := rfl
@[simp] theorem Dev.ddef_lnk (k : Nat) : (d.ddef k).lnk = d.lnk := rfl
@[simp] theorem Dev.ddef_mbox (k : Nat) : (d.ddef k).mbox = d.mbox := rfl
@[simp] theorem Dev.ddef_mgmt (k : Nat) : (d.ddef k).mgmt = d.mgmt := rfl
@[simp] theorem Dev.ddef_recd (k : Nat) : (d.ddef k).recd = d.recd := rfl
@[simp] theorem Dev.ddef_sec (k : Nat) : (d.ddef k).sec = d.sec := rfl
@[simp] theorem Dev.ddef_pow (k : Nat) : (d.ddef k).pow = d.pow := rfl
@[simp] theorem Dev.ddef_calendar (k : Nat) : (d.ddef k).calendar = d.calendar := rfl
@[simp] theorem Dev.ddef_timeSet (k : Nat) : (d.ddef k).timeSet = d.timeSet := rfl
@[simp] theorem Dev.ddef_opSecs (k : Nat) : (d.ddef k).opSecs = d.opSecs := rfl
@[simp] theorem Dev.ddef_freeNo (k : Nat) : (d.ddef k).freeNo = d.freeNo := rfl

/-! `Dev.setMem` writes `mem` only. -/

@[simp] theorem Dev.setMem_dict (f : Mem → Mem) : (d.setMem f).dict = d.dict := rfl
@[simp] theorem Dev.setMem_blobs (f : Mem → Mem) : (d.setMem f).blobs = d.blobs := rfl
@[simp] theorem Dev.setMem_blk (f : Mem → Mem) : (d.setMem f).blk = d.blk := rfl
@[simp] theorem Dev.setMem_store (f : Mem → Mem) : (d.setMem f).store = d.store := rfl
@[simp] theorem Dev.setMem_mc (f : Mem → Mem) : (d.setMem f).mc = d.mc := rfl
@[simp] theorem Dev.setMem_red (f : Mem → Mem) : (d.setMem f).red = d.red := rfl
@[simp] theorem Dev.setMem_srv (f : Mem → Mem) : (d.setMem f).srv = d.srv := rfl
@[simp] theorem Dev.setMem_sched (f : Mem → Mem) : (d.setMem f).sched = d.sched := rfl
@[simp] theorem Dev.setMem_lnk (f : Mem → Mem) : (d.setMem f).lnk = d.lnk := rfl
@[simp] theorem Dev.setMem_mbox (f : Mem → Mem) : (d.setMem f).mbox = d.mbox := rfl
@[simp] theorem Dev.setMem_mgmt (f : Mem → Mem) : (d.setMem f).mgmt = d.mgmt := rfl
@[simp] theorem Dev.setMem_recd (f : Mem → Mem) : (d.setMem f).recd = d.recd := rfl
@[simp] theorem Dev.setMem_sec (f : Mem → Mem) : (d.setMem f).sec = d.sec := rfl
@[simp] theorem Dev.setMem_pow (f : Mem → Mem) : (d.setMem f).pow = d.pow := rfl
@[simp] theorem Dev.setMem_calendar (f : Mem → Mem) : (d.setMem f).calendar = d.calendar := rfl
@[simp] theorem Dev.setMem_timeSet (f : Mem → Mem) : (d.setMem f).timeSet = d.timeSet := rfl
@[simp] theorem Dev.setMem_opSecs (f : Mem → Mem) : (d.setMem f).opSecs = d.opSecs := rfl
@[simp] theorem Dev.setMem_freeNo (f : Mem → Mem) : (d.setMem f).freeNo = d.freeNo := rfl
@[simp] theorem Dev.setMem_dget (f : Mem → Mem) (key : Nat) : (d.setMem f).dget key = d.dget key := rfl

/-! `Dev.setBlk` writes `blk` only. -/

@[simp] theorem Dev.setBlk_dict (f : Blk → Blk) : (d.setBlk f).dict = d.dict := rfl
@[simp] theorem Dev.setBlk_blobs (f : Blk → Blk) : (d.setBlk f).blobs = d.blobs := rfl
@[simp] theorem Dev.setBlk_mem (f : Blk → Blk) : (d.setBlk f).mem = d.mem := rfl
@[simp] theorem Dev.setBlk_store (f : Blk → Blk) : (d.setBlk f).store = d.store := rfl
@[simp] theorem Dev.setBlk_mc (f : Blk → Blk) : (d.setBlk f).mc = d.mc := rfl
@[simp] theorem Dev.setBlk_red (f : Blk → Blk) : (d.setBlk f).red = d.red := rfl
@[simp] theorem Dev.setBlk_srv (f : Blk → Blk) : (d.setBlk f).srv = d.srv := rfl
@[simp] theorem Dev.setBlk_sched (f : Blk → Blk) : (d.setBlk f).sched = d.sched := rfl
@[simp] theorem Dev.setBlk_lnk (f : Blk → Blk) : (d.setBlk f).lnk = d.lnk := rfl
@[simp] theorem Dev.setBlk_mbox (f : Blk → Blk) : (d.setBlk f).mbox = d.mbox := rfl
@[simp] theorem Dev.setBlk_mgmt (f : Blk → Blk) : (d.setBlk f).mgmt = d.mgmt := rfl
@[simp] theorem Dev.setBlk_recd (f : Blk → Blk) : (d.setBlk f).recd = d.recd := rfl
@[simp] theorem Dev.setBlk_sec (f : Blk → Blk) : (d.setBlk f).sec = d.sec := rfl
@[simp] theorem Dev.setBlk_pow (f : Blk → Blk) : (d.setBlk f).pow = d.pow := rfl
@[simp] theorem Dev.setBlk_calendar (f : Blk → Blk) : (d.setBlk f).calendar = d.calendar := rfl
@[simp] theorem Dev.setBlk_timeSet (f : Blk → Blk) : (d.setBlk f).timeSet = d.timeSet := rfl
@[simp] theorem Dev.setBlk_opSecs (f : Blk → Blk) : (d.setBlk f).opSecs = d.opSecs := rfl
@[simp] theorem Dev.setBlk_freeNo (f : Blk → Blk) : (d.setBlk f).freeNo = d.freeNo := rfl
@[simp] theorem Dev.setBlk_dget (f : Blk → Blk) (key : Nat) : (d.setBlk f).dget key = d.dget key := rfl

/-! `Dev.setTenant` writes `blk` only. -/

@[simp] theorem Dev.setTenant_dict (b : Nat) (t : Option (Nat × Nat)) : (d.setTenant b t).dict = d.dict := rfl
@[simp] theorem Dev.setTenant_blobs (b : Nat) (t : Option (Nat × Nat)) : (d.setTenant b t).blobs = d.blobs := rfl
@[simp] theorem Dev.setTenant_mem (b : Nat) (t : Option (Nat × Nat)) : (d.setTenant b t).mem = d.mem := rfl
@[simp] theorem Dev.setTenant_store (b : Nat) (t : Option (Nat × Nat)) : (d.setTenant b t).store = d.store := rfl
@[simp] theorem Dev.setTenant_mc (b : Nat) (t : Option (Nat × Nat)) : (d.setTenant b t).mc = d.mc := rfl
@[simp] theorem Dev.setTenant_red (b : Nat) (t : Option (Nat × Nat)) : (d.setTenant b t).red = d.red := rfl
@[simp] theorem Dev.setTenant_srv (b : Nat) (t : Option (Nat × Nat)) : (d.setTenant b t).srv = d.srv := rfl
@[simp] theorem Dev.setTenant_sched (b : Nat) (t : Option (Nat × Nat)) : (d.setTenant b t).sched = d.sched := rfl
@[simp] theorem Dev.setTenant_lnk (b : Nat) (t : Option (Nat × Nat)) : (d.setTenant b t).lnk = d.lnk := rfl
@[simp] theorem Dev.setTenant_mbox (b : Nat) (t : Option (Nat × Nat)) : (d.setTenant b t).mbox = d.mbox := rfl
@[simp] theorem Dev.setTenant_mgmt (b : Nat) (t : Option (Nat × Nat)) : (d.setTenant b t).mgmt = d.mgmt := rfl
@[simp] theorem Dev.setTenant_recd (b : Nat) (t : Option (Nat × Nat)) : (d.setTenant b t).recd = d.recd := rfl
@[simp] theorem Dev.setTenant_sec (b : Nat) (t : Option (Nat × Nat)) : (d.setTenant b t).sec = d.sec := rfl
@[simp] theorem Dev.setTenant_pow (b : Nat) (t : Option (Nat × Nat)) : (d.setTenant b t).pow = d.pow := rfl
@[simp] theorem Dev.setTenant_calendar (b : Nat) (t : Option (Nat × Nat)) : (d.setTenant b t).calendar = d.calendar := rfl
@[simp] theorem Dev.setTenant_timeSet (b : Nat) (t : Option (Nat × Nat)) : (d.setTenant b t).timeSet = d.timeSet := rfl
@[simp] theorem Dev.setTenant_opSecs (b : Nat) (t : Option (Nat × Nat)) : (d.setTenant b t).opSecs = d.opSecs := rfl
@[simp] theorem Dev.setTenant_freeNo (b : Nat) (t : Option (Nat × Nat)) : (d.setTenant b t).freeNo = d.freeNo := rfl
@[simp] theorem Dev.setTenant_dget (b : Nat) (t : Option (Nat × Nat)) (key : Nat) : (d.setTenant b t).dget key = d.dget key := rfl

/-! `Dev.setVtime` writes `blk` only. -/

@[simp] theorem Dev.setVtime_dict (b j v : Nat) : (d.setVtime b j v).dict = d.dict := rfl
@[simp] theorem Dev.setVtime_blobs (b j v : Nat) : (d.setVtime b j v).blobs = d.blobs := rfl
@[simp] theorem Dev.setVtime_mem (b j v : Nat) : (d.setVtime b j v).mem = d.mem := rfl
@[simp] theorem Dev.setVtime_store (b j v : Nat) : (d.setVtime b j v).store = d.store := rfl
@[simp] theorem Dev.setVtime_mc (b j v : Nat) : (d.setVtime b j v).mc = d.mc := rfl
@[simp] theorem Dev.setVtime_red (b j v : Nat) : (d.setVtime b j v).red = d.red := rfl
@[simp] theorem Dev.setVtime_srv (b j v : Nat) : (d.setVtime b j v).srv = d.srv := rfl
@[simp] theorem Dev.setVtime_sched (b j v : Nat) : (d.setVtime b j v).sched = d.sched := rfl
@[simp] theorem Dev.setVtime_lnk (b j v : Nat) : (d.setVtime b j v).lnk = d.lnk := rfl
@[simp] theorem Dev.setVtime_mbox (b j v : Nat) : (d.setVtime b j v).mbox = d.mbox := rfl
@[simp] theorem Dev.setVtime_mgmt (b j v : Nat) : (d.setVtime b j v).mgmt = d.mgmt := rfl
@[simp] theorem Dev.setVtime_recd (b j v : Nat) : (d.setVtime b j v).recd = d.recd := rfl
@[simp] theorem Dev.setVtime_sec (b j v : Nat) : (d.setVtime b j v).sec = d.sec := rfl
@[simp] theorem Dev.setVtime_pow (b j v : Nat) : (d.setVtime b j v).pow = d.pow := rfl
@[simp] theorem Dev.setVtime_calendar (b j v : Nat) : (d.setVtime b j v).calendar = d.calendar := rfl
@[simp] theorem Dev.setVtime_timeSet (b j v : Nat) : (d.setVtime b j v).timeSet = d.timeSet := rfl
@[simp] theorem Dev.setVtime_opSecs (b j v : Nat) : (d.setVtime b j v).opSecs = d.opSecs := rfl
@[simp] theorem Dev.setVtime_freeNo (b j v : Nat) : (d.setVtime b j v).freeNo = d.freeNo := rfl
@[simp] theorem Dev.setVtime_dget (b j v : Nat) (key : Nat) : (d.setVtime b j v).dget key = d.dget key := rfl

/-! `Dev.setStore` writes `store` only. -/

@[simp] theorem Dev.setStore_dict (f : Store → Store) : (d.setStore f).dict = d.dict := rfl
@[simp] theorem Dev.setStore_blobs (f : Store → Store) : (d.setStore f).blobs = d.blobs := rfl
@[simp] theorem Dev.setStore_mem (f : Store → Store) : (d.setStore f).mem = d.mem := rfl
@[simp] theorem Dev.setStore_blk (f : Store → Store) : (d.setStore f).blk = d.blk := rfl
@[simp] theorem Dev.setStore_mc (f : Store → Store) : (d.setStore f).mc = d.mc := rfl
@[simp] theorem Dev.setStore_red (f : Store → Store) : (d.setStore f).red = d.red := rfl
@[simp] theorem Dev.setStore_srv (f : Store → Store) : (d.setStore f).srv = d.srv := rfl
@[simp] theorem Dev.setStore_sched (f : Store → Store) : (d.setStore f).sched = d.sched := rfl
@[simp] theorem Dev.setStore_lnk (f : Store → Store) : (d.setStore f).lnk = d.lnk := rfl
@[simp] theorem Dev.setStore_mbox (f : Store → Store) : (d.setStore f).mbox = d.mbox := rfl
@[simp] theorem Dev.setStore_mgmt (f : Store → Store) : (d.setStore f).mgmt = d.mgmt := rfl
@[simp] theorem Dev.setStore_recd (f : Store → Store) : (d.setStore f).recd = d.recd := rfl
@[simp] theorem Dev.setStore_sec (f : Store → Store) : (d.setStore f).sec = d.sec := rfl
@[simp] theorem Dev.setStore_pow (f : Store → Store) : (d.setStore f).pow = d.pow := rfl
@[simp] theorem Dev.setStore_calendar (f : Store → Store) : (d.setStore f).calendar = d.calendar := rfl
@[simp] theorem Dev.setStore_timeSet (f : Store → Store) : (d.setStore f).timeSet = d.timeSet := rfl
@[simp] theorem Dev.setStore_opSecs (f : Store → Store) : (d.setStore f).opSecs = d.opSecs := rfl
@[simp] theorem Dev.setStore_freeNo (f : Store → Store) : (d.setStore f).freeNo = d.freeNo := rfl
@[simp] theorem Dev.setStore_dget (f : Store → Store) (key : Nat) : (d.setStore f).dget key = d.dget key := rfl

/-! `Dev.setRes` writes `store` only. -/

@[simp] theorem Dev.setRes_dict (e : Nat) (r : Res) : (d.setRes e r).dict = d.dict := rfl
@[simp] theorem Dev.setRes_blobs (e : Nat) (r : Res) : (d.setRes e r).blobs = d.blobs := rfl
@[simp] theorem Dev.setRes_mem (e : Nat) (r : Res) : (d.setRes e r).mem = d.mem := rfl
@[simp] theorem Dev.setRes_blk (e : Nat) (r : Res) : (d.setRes e r).blk = d.blk := rfl
@[simp] theorem Dev.setRes_mc (e : Nat) (r : Res) : (d.setRes e r).mc = d.mc := rfl
@[simp] theorem Dev.setRes_red (e : Nat) (r : Res) : (d.setRes e r).red = d.red := rfl
@[simp] theorem Dev.setRes_srv (e : Nat) (r : Res) : (d.setRes e r).srv = d.srv := rfl
@[simp] theorem Dev.setRes_sched (e : Nat) (r : Res) : (d.setRes e r).sched = d.sched := rfl
@[simp] theorem Dev.setRes_lnk (e : Nat) (r : Res) : (d.setRes e r).lnk = d.lnk := rfl
@[simp] theorem Dev.setRes_mbox (e : Nat) (r : Res) : (d.setRes e r).mbox = d.mbox := rfl
@[simp] theorem Dev.setRes_mgmt (e : Nat) (r : Res) : (d.setRes e r).mgmt = d.mgmt := rfl
@[simp] theorem Dev.setRes_recd (e : Nat) (r : Res) : (d.setRes e r).recd = d.recd := rfl
@[simp] theorem Dev.setRes_sec (e : Nat) (r : Res) : (d.setRes e r).sec = d.sec := rfl
@[simp] theorem Dev.setRes_pow (e : Nat) (r : Res) : (d.setRes e r).pow = d.pow := rfl
@[simp] theorem Dev.setRes_calendar (e : Nat) (r : Res) : (d.setRes e r).calendar = d.calendar := rfl
@[simp] theorem Dev.setRes_timeSet (e : Nat) (r : Res) : (d.setRes e r).timeSet = d.timeSet := rfl
@[simp] theorem Dev.setRes_opSecs (e : Nat) (r : Res) : (d.setRes e r).opSecs = d.opSecs := rfl
@[simp] theorem Dev.setRes_freeNo (e : Nat) (r : Res) : (d.setRes e r).freeNo = d.freeNo := rfl
@[simp] theorem Dev.setRes_dget (e : Nat) (r : Res) (key : Nat) : (d.setRes e r).dget key = d.dget key := rfl

/-! `Dev.modRes` writes `store` only. -/

@[simp] theorem Dev.modRes_dict (e : Nat) (f : Res → Res) : (d.modRes e f).dict = d.dict := rfl
@[simp] theorem Dev.modRes_blobs (e : Nat) (f : Res → Res) : (d.modRes e f).blobs = d.blobs := rfl
@[simp] theorem Dev.modRes_mem (e : Nat) (f : Res → Res) : (d.modRes e f).mem = d.mem := rfl
@[simp] theorem Dev.modRes_blk (e : Nat) (f : Res → Res) : (d.modRes e f).blk = d.blk := rfl
@[simp] theorem Dev.modRes_mc (e : Nat) (f : Res → Res) : (d.modRes e f).mc = d.mc := rfl
@[simp] theorem Dev.modRes_red (e : Nat) (f : Res → Res) : (d.modRes e f).red = d.red := rfl
@[simp] theorem Dev.modRes_srv (e : Nat) (f : Res → Res) : (d.modRes e f).srv = d.srv := rfl
@[simp] theorem Dev.modRes_sched (e : Nat) (f : Res → Res) : (d.modRes e f).sched = d.sched := rfl
@[simp] theorem Dev.modRes_lnk (e : Nat) (f : Res → Res) : (d.modRes e f).lnk = d.lnk := rfl
@[simp] theorem Dev.modRes_mbox (e : Nat) (f : Res → Res) : (d.modRes e f).mbox = d.mbox := rfl
@[simp] theorem Dev.modRes_mgmt (e : Nat) (f : Res → Res) : (d.modRes e f).mgmt = d.mgmt := rfl
@[simp] theorem Dev.modRes_recd (e : Nat) (f : Res → Res) : (d.modRes e f).recd = d.recd := rfl
@[simp] theorem Dev.modRes_sec (e : Nat) (f : Res → Res) : (d.modRes e f).sec = d.sec := rfl
@[simp] theorem Dev.modRes_pow (e : Nat) (f : Res → Res) : (d.modRes e f).pow = d.pow := rfl
@[simp] theorem Dev.modRes_calendar (e : Nat) (f : Res → Res) : (d.modRes e f).calendar = d.calendar := rfl
@[simp] theorem Dev.modRes_timeSet (e : Nat) (f : Res → Res) : (d.modRes e f).timeSet = d.timeSet := rfl
@[simp] theorem Dev.modRes_opSecs (e : Nat) (f : Res → Res) : (d.modRes e f).opSecs = d.opSecs := rfl
@[simp] theorem Dev.modRes_freeNo (e : Nat) (f : Res → Res) : (d.modRes e f).freeNo = d.freeNo := rfl
@[simp] theorem Dev.modRes_dget (e : Nat) (f : Res → Res) (key : Nat) : (d.modRes e f).dget key = d.dget key := rfl

/-! `Dev.setMc` writes `mc` only. -/

@[simp] theorem Dev.setMc_dict (f : Mc → Mc) : (d.setMc f).dict = d.dict := rfl
@[simp] theorem Dev.setMc_blobs (f : Mc → Mc) : (d.setMc f).blobs = d.blobs := rfl
@[simp] theorem Dev.setMc_mem (f : Mc → Mc) : (d.setMc f).mem = d.mem := rfl
@[simp] theorem Dev.setMc_blk (f : Mc → Mc) : (d.setMc f).blk = d.blk := rfl
@[simp] theorem Dev.setMc_store (f : Mc → Mc) : (d.setMc f).store = d.store := rfl
@[simp] theorem Dev.setMc_red (f : Mc → Mc) : (d.setMc f).red = d.red := rfl
@[simp] theorem Dev.setMc_srv (f : Mc → Mc) : (d.setMc f).srv = d.srv := rfl
@[simp] theorem Dev.setMc_sched (f : Mc → Mc) : (d.setMc f).sched = d.sched := rfl
@[simp] theorem Dev.setMc_lnk (f : Mc → Mc) : (d.setMc f).lnk = d.lnk := rfl
@[simp] theorem Dev.setMc_mbox (f : Mc → Mc) : (d.setMc f).mbox = d.mbox := rfl
@[simp] theorem Dev.setMc_mgmt (f : Mc → Mc) : (d.setMc f).mgmt = d.mgmt := rfl
@[simp] theorem Dev.setMc_recd (f : Mc → Mc) : (d.setMc f).recd = d.recd := rfl
@[simp] theorem Dev.setMc_sec (f : Mc → Mc) : (d.setMc f).sec = d.sec := rfl
@[simp] theorem Dev.setMc_pow (f : Mc → Mc) : (d.setMc f).pow = d.pow := rfl
@[simp] theorem Dev.setMc_calendar (f : Mc → Mc) : (d.setMc f).calendar = d.calendar := rfl
@[simp] theorem Dev.setMc_timeSet (f : Mc → Mc) : (d.setMc f).timeSet = d.timeSet := rfl
@[simp] theorem Dev.setMc_opSecs (f : Mc → Mc) : (d.setMc f).opSecs = d.opSecs := rfl
@[simp] theorem Dev.setMc_freeNo (f : Mc → Mc) : (d.setMc f).freeNo = d.freeNo := rfl
@[simp] theorem Dev.setMc_dget (f : Mc → Mc) (key : Nat) : (d.setMc f).dget key = d.dget key := rfl

/-! `Dev.setRed` writes `red` only. -/

@[simp] theorem Dev.setRed_dict (f : Red → Red) : (d.setRed f).dict = d.dict := rfl
@[simp] theorem Dev.setRed_blobs (f : Red → Red) : (d.setRed f).blobs = d.blobs := rfl
@[simp] theorem Dev.setRed_mem (f : Red → Red) : (d.setRed f).mem = d.mem := rfl
@[simp] theorem Dev.setRed_blk (f : Red → Red) : (d.setRed f).blk = d.blk := rfl
@[simp] theorem Dev.setRed_store (f : Red → Red) : (d.setRed f).store = d.store := rfl
@[simp] theorem Dev.setRed_mc (f : Red → Red) : (d.setRed f).mc = d.mc := rfl
@[simp] theorem Dev.setRed_srv (f : Red → Red) : (d.setRed f).srv = d.srv := rfl
@[simp] theorem Dev.setRed_sched (f : Red → Red) : (d.setRed f).sched = d.sched := rfl
@[simp] theorem Dev.setRed_lnk (f : Red → Red) : (d.setRed f).lnk = d.lnk := rfl
@[simp] theorem Dev.setRed_mbox (f : Red → Red) : (d.setRed f).mbox = d.mbox := rfl
@[simp] theorem Dev.setRed_mgmt (f : Red → Red) : (d.setRed f).mgmt = d.mgmt := rfl
@[simp] theorem Dev.setRed_recd (f : Red → Red) : (d.setRed f).recd = d.recd := rfl
@[simp] theorem Dev.setRed_sec (f : Red → Red) : (d.setRed f).sec = d.sec := rfl
@[simp] theorem Dev.setRed_pow (f : Red → Red) : (d.setRed f).pow = d.pow := rfl
@[simp] theorem Dev.setRed_calendar (f : Red → Red) : (d.setRed f).calendar = d.calendar := rfl
@[simp] theorem Dev.setRed_timeSet (f : Red → Red) : (d.setRed f).timeSet = d.timeSet := rfl
@[simp] theorem Dev.setRed_opSecs (f : Red → Red) : (d.setRed f).opSecs = d.opSecs := rfl
@[simp] theorem Dev.setRed_freeNo (f : Red → Red) : (d.setRed f).freeNo = d.freeNo := rfl
@[simp] theorem Dev.setRed_dget (f : Red → Red) (key : Nat) : (d.setRed f).dget key = d.dget key := rfl

/-! `Dev.setGroup` writes `red` only. -/

@[simp] theorem Dev.setGroup_dict (g : Nat) (v : Group) : (d.setGroup g v).dict = d.dict := rfl
@[simp] theorem Dev.setGroup_blobs (g : Nat) (v : Group) : (d.setGroup g v).blobs = d.blobs := rfl
@[simp] theorem Dev.setGroup_mem (g : Nat) (v : Group) : (d.setGroup g v).mem = d.mem := rfl
@[simp] theorem Dev.setGroup_blk (g : Nat) (v : Group) : (d.setGroup g v).blk = d.blk := rfl
@[simp] theorem Dev.setGroup_store (g : Nat) (v : Group) : (d.setGroup g v).store = d.store := rfl
@[simp] theorem Dev.setGroup_mc (g : Nat) (v : Group) : (d.setGroup g v).mc = d.mc := rfl
@[simp] theorem Dev.setGroup_srv (g : Nat) (v : Group) : (d.setGroup g v).srv = d.srv := rfl
@[simp] theorem Dev.setGroup_sched (g : Nat) (v : Group) : (d.setGroup g v).sched = d.sched := rfl
@[simp] theorem Dev.setGroup_lnk (g : Nat) (v : Group) : (d.setGroup g v).lnk = d.lnk := rfl
@[simp] theorem Dev.setGroup_mbox (g : Nat) (v : Group) : (d.setGroup g v).mbox = d.mbox := rfl
@[simp] theorem Dev.setGroup_mgmt (g : Nat) (v : Group) : (d.setGroup g v).mgmt = d.mgmt := rfl
@[simp] theorem Dev.setGroup_recd (g : Nat) (v : Group) : (d.setGroup g v).recd = d.recd := rfl
@[simp] theorem Dev.setGroup_sec (g : Nat) (v : Group) : (d.setGroup g v).sec = d.sec := rfl
@[simp] theorem Dev.setGroup_pow (g : Nat) (v : Group) : (d.setGroup g v).pow = d.pow := rfl
@[simp] theorem Dev.setGroup_calendar (g : Nat) (v : Group) : (d.setGroup g v).calendar = d.calendar := rfl
@[simp] theorem Dev.setGroup_timeSet (g : Nat) (v : Group) : (d.setGroup g v).timeSet = d.timeSet := rfl
@[simp] theorem Dev.setGroup_opSecs (g : Nat) (v : Group) : (d.setGroup g v).opSecs = d.opSecs := rfl
@[simp] theorem Dev.setGroup_freeNo (g : Nat) (v : Group) : (d.setGroup g v).freeNo = d.freeNo := rfl
@[simp] theorem Dev.setGroup_dget (g : Nat) (v : Group) (key : Nat) : (d.setGroup g v).dget key = d.dget key := rfl

/-! `Dev.setCount` writes `red` only. -/

@[simp] theorem Dev.setCount_dict (g k v : Nat) : (d.setCount g k v).dict = d.dict := rfl
@[simp] theorem Dev.setCount_blobs (g k v : Nat) : (d.setCount g k v).blobs = d.blobs := rfl
@[simp] theorem Dev.setCount_mem (g k v : Nat) : (d.setCount g k v).mem = d.mem := rfl
@[simp] theorem Dev.setCount_blk (g k v : Nat) : (d.setCount g k v).blk = d.blk := rfl
@[simp] theorem Dev.setCount_store (g k v : Nat) : (d.setCount g k v).store = d.store := rfl
@[simp] theorem Dev.setCount_mc (g k v : Nat) : (d.setCount g k v).mc = d.mc := rfl
@[simp] theorem Dev.setCount_srv (g k v : Nat) : (d.setCount g k v).srv = d.srv := rfl
@[simp] theorem Dev.setCount_sched (g k v : Nat) : (d.setCount g k v).sched = d.sched := rfl
@[simp] theorem Dev.setCount_lnk (g k v : Nat) : (d.setCount g k v).lnk = d.lnk := rfl
@[simp] theorem Dev.setCount_mbox (g k v : Nat) : (d.setCount g k v).mbox = d.mbox := rfl
@[simp] theorem Dev.setCount_mgmt (g k v : Nat) : (d.setCount g k v).mgmt = d.mgmt := rfl
@[simp] theorem Dev.setCount_recd (g k v : Nat) : (d.setCount g k v).recd = d.recd := rfl
@[simp] theorem Dev.setCount_sec (g k v : Nat) : (d.setCount g k v).sec = d.sec := rfl
@[simp] theorem Dev.setCount_pow (g k v : Nat) : (d.setCount g k v).pow = d.pow := rfl
@[simp] theorem Dev.setCount_calendar (g k v : Nat) : (d.setCount g k v).calendar = d.calendar := rfl
@[simp] theorem Dev.setCount_timeSet (g k v : Nat) : (d.setCount g k v).timeSet = d.timeSet := rfl
@[simp] theorem Dev.setCount_opSecs (g k v : Nat) : (d.setCount g k v).opSecs = d.opSecs := rfl
@[simp] theorem Dev.setCount_freeNo (g k v : Nat) : (d.setCount g k v).freeNo = d.freeNo := rfl
@[simp] theorem Dev.setCount_dget (g k v : Nat) (key : Nat) : (d.setCount g k v).dget key = d.dget key := rfl

/-! `Dev.setCtx` writes `red` only. -/

@[simp] theorem Dev.setCtx_dict (c : RCtx) : (d.setCtx c).dict = d.dict := rfl
@[simp] theorem Dev.setCtx_blobs (c : RCtx) : (d.setCtx c).blobs = d.blobs := rfl
@[simp] theorem Dev.setCtx_mem (c : RCtx) : (d.setCtx c).mem = d.mem := rfl
@[simp] theorem Dev.setCtx_blk (c : RCtx) : (d.setCtx c).blk = d.blk := rfl
@[simp] theorem Dev.setCtx_store (c : RCtx) : (d.setCtx c).store = d.store := rfl
@[simp] theorem Dev.setCtx_mc (c : RCtx) : (d.setCtx c).mc = d.mc := rfl
@[simp] theorem Dev.setCtx_srv (c : RCtx) : (d.setCtx c).srv = d.srv := rfl
@[simp] theorem Dev.setCtx_sched (c : RCtx) : (d.setCtx c).sched = d.sched := rfl
@[simp] theorem Dev.setCtx_lnk (c : RCtx) : (d.setCtx c).lnk = d.lnk := rfl
@[simp] theorem Dev.setCtx_mbox (c : RCtx) : (d.setCtx c).mbox = d.mbox := rfl
@[simp] theorem Dev.setCtx_mgmt (c : RCtx) : (d.setCtx c).mgmt = d.mgmt := rfl
@[simp] theorem Dev.setCtx_recd (c : RCtx) : (d.setCtx c).recd = d.recd := rfl
@[simp] theorem Dev.setCtx_sec (c : RCtx) : (d.setCtx c).sec = d.sec := rfl
@[simp] theorem Dev.setCtx_pow (c : RCtx) : (d.setCtx c).pow = d.pow := rfl
@[simp] theorem Dev.setCtx_calendar (c : RCtx) : (d.setCtx c).calendar = d.calendar := rfl
@[simp] theorem Dev.setCtx_timeSet (c : RCtx) : (d.setCtx c).timeSet = d.timeSet := rfl
@[simp] theorem Dev.setCtx_opSecs (c : RCtx) : (d.setCtx c).opSecs = d.opSecs := rfl
@[simp] theorem Dev.setCtx_freeNo (c : RCtx) : (d.setCtx c).freeNo = d.freeNo := rfl
@[simp] theorem Dev.setCtx_dget (c : RCtx) (key : Nat) : (d.setCtx c).dget key = d.dget key := rfl

/-! `Dev.dropCtx` writes `red` only. -/

@[simp] theorem Dev.dropCtx_dict (c : RCtx) : (d.dropCtx c).dict = d.dict := rfl
@[simp] theorem Dev.dropCtx_blobs (c : RCtx) : (d.dropCtx c).blobs = d.blobs := rfl
@[simp] theorem Dev.dropCtx_mem (c : RCtx) : (d.dropCtx c).mem = d.mem := rfl
@[simp] theorem Dev.dropCtx_blk (c : RCtx) : (d.dropCtx c).blk = d.blk := rfl
@[simp] theorem Dev.dropCtx_store (c : RCtx) : (d.dropCtx c).store = d.store := rfl
@[simp] theorem Dev.dropCtx_mc (c : RCtx) : (d.dropCtx c).mc = d.mc := rfl
@[simp] theorem Dev.dropCtx_srv (c : RCtx) : (d.dropCtx c).srv = d.srv := rfl
@[simp] theorem Dev.dropCtx_sched (c : RCtx) : (d.dropCtx c).sched = d.sched := rfl
@[simp] theorem Dev.dropCtx_lnk (c : RCtx) : (d.dropCtx c).lnk = d.lnk := rfl
@[simp] theorem Dev.dropCtx_mbox (c : RCtx) : (d.dropCtx c).mbox = d.mbox := rfl
@[simp] theorem Dev.dropCtx_mgmt (c : RCtx) : (d.dropCtx c).mgmt = d.mgmt := rfl
@[simp] theorem Dev.dropCtx_recd (c : RCtx) : (d.dropCtx c).recd = d.recd := rfl
@[simp] theorem Dev.dropCtx_sec (c : RCtx) : (d.dropCtx c).sec = d.sec := rfl
@[simp] theorem Dev.dropCtx_pow (c : RCtx) : (d.dropCtx c).pow = d.pow := rfl
@[simp] theorem Dev.dropCtx_calendar (c : RCtx) : (d.dropCtx c).calendar = d.calendar := rfl
@[simp] theorem Dev.dropCtx_timeSet (c : RCtx) : (d.dropCtx c).timeSet = d.timeSet := rfl
@[simp] theorem Dev.dropCtx_opSecs (c : RCtx) : (d.dropCtx c).opSecs = d.opSecs := rfl
@[simp] theorem Dev.dropCtx_freeNo (c : RCtx) : (d.dropCtx c).freeNo = d.freeNo := rfl
@[simp] theorem Dev.dropCtx_dget (c : RCtx) (key : Nat) : (d.dropCtx c).dget key = d.dget key := rfl

/-! `Dev.setSrv` writes `srv` only. -/

@[simp] theorem Dev.setSrv_dict (f : Srv → Srv) : (d.setSrv f).dict = d.dict := rfl
@[simp] theorem Dev.setSrv_blobs (f : Srv → Srv) : (d.setSrv f).blobs = d.blobs := rfl
@[simp] theorem Dev.setSrv_mem (f : Srv → Srv) : (d.setSrv f).mem = d.mem := rfl
@[simp] theorem Dev.setSrv_blk (f : Srv → Srv) : (d.setSrv f).blk = d.blk := rfl
@[simp] theorem Dev.setSrv_store (f : Srv → Srv) : (d.setSrv f).store = d.store := rfl
@[simp] theorem Dev.setSrv_mc (f : Srv → Srv) : (d.setSrv f).mc = d.mc := rfl
@[simp] theorem Dev.setSrv_red (f : Srv → Srv) : (d.setSrv f).red = d.red := rfl
@[simp] theorem Dev.setSrv_sched (f : Srv → Srv) : (d.setSrv f).sched = d.sched := rfl
@[simp] theorem Dev.setSrv_lnk (f : Srv → Srv) : (d.setSrv f).lnk = d.lnk := rfl
@[simp] theorem Dev.setSrv_mbox (f : Srv → Srv) : (d.setSrv f).mbox = d.mbox := rfl
@[simp] theorem Dev.setSrv_mgmt (f : Srv → Srv) : (d.setSrv f).mgmt = d.mgmt := rfl
@[simp] theorem Dev.setSrv_recd (f : Srv → Srv) : (d.setSrv f).recd = d.recd := rfl
@[simp] theorem Dev.setSrv_sec (f : Srv → Srv) : (d.setSrv f).sec = d.sec := rfl
@[simp] theorem Dev.setSrv_pow (f : Srv → Srv) : (d.setSrv f).pow = d.pow := rfl
@[simp] theorem Dev.setSrv_calendar (f : Srv → Srv) : (d.setSrv f).calendar = d.calendar := rfl
@[simp] theorem Dev.setSrv_timeSet (f : Srv → Srv) : (d.setSrv f).timeSet = d.timeSet := rfl
@[simp] theorem Dev.setSrv_opSecs (f : Srv → Srv) : (d.setSrv f).opSecs = d.opSecs := rfl
@[simp] theorem Dev.setSrv_freeNo (f : Srv → Srv) : (d.setSrv f).freeNo = d.freeNo := rfl
@[simp] theorem Dev.setSrv_dget (f : Srv → Srv) (key : Nat) : (d.setSrv f).dget key = d.dget key := rfl

/-! `Dev.setStream` writes `srv` only. -/

@[simp] theorem Dev.setStream_dict (n : Nat) (x : Stream) : (d.setStream n x).dict = d.dict := rfl
@[simp] theorem Dev.setStream_blobs (n : Nat) (x : Stream) : (d.setStream n x).blobs = d.blobs := rfl
@[simp] theorem Dev.setStream_mem (n : Nat) (x : Stream) : (d.setStream n x).mem = d.mem := rfl
@[simp] theorem Dev.setStream_blk (n : Nat) (x : Stream) : (d.setStream n x).blk = d.blk := rfl
@[simp] theorem Dev.setStream_store (n : Nat) (x : Stream) : (d.setStream n x).store = d.store := rfl
@[simp] theorem Dev.setStream_mc (n : Nat) (x : Stream) : (d.setStream n x).mc = d.mc := rfl
@[simp] theorem Dev.setStream_red (n : Nat) (x : Stream) : (d.setStream n x).red = d.red := rfl
@[simp] theorem Dev.setStream_sched (n : Nat) (x : Stream) : (d.setStream n x).sched = d.sched := rfl
@[simp] theorem Dev.setStream_lnk (n : Nat) (x : Stream) : (d.setStream n x).lnk = d.lnk := rfl
@[simp] theorem Dev.setStream_mbox (n : Nat) (x : Stream) : (d.setStream n x).mbox = d.mbox := rfl
@[simp] theorem Dev.setStream_mgmt (n : Nat) (x : Stream) : (d.setStream n x).mgmt = d.mgmt := rfl
@[simp] theorem Dev.setStream_recd (n : Nat) (x : Stream) : (d.setStream n x).recd = d.recd := rfl
@[simp] theorem Dev.setStream_sec (n : Nat) (x : Stream) : (d.setStream n x).sec = d.sec := rfl
@[simp] theorem Dev.setStream_pow (n : Nat) (x : Stream) : (d.setStream n x).pow = d.pow := rfl
@[simp] theorem Dev.setStream_calendar (n : Nat) (x : Stream) : (d.setStream n x).calendar = d.calendar := rfl
@[simp] theorem Dev.setStream_timeSet (n : Nat) (x : Stream) : (d.setStream n x).timeSet = d.timeSet := rfl
@[simp] theorem Dev.setStream_opSecs (n : Nat) (x : Stream) : (d.setStream n x).opSecs = d.opSecs := rfl
@[simp] theorem Dev.setStream_freeNo (n : Nat) (x : Stream) : (d.setStream n x).freeNo = d.freeNo := rfl
@[simp] theorem Dev.setStream_dget (n : Nat) (x : Stream) (key : Nat) : (d.setStream n x).dget key = d.dget key := rfl

/-! `Dev.modStream` writes `srv` only. -/

@[simp] theorem Dev.modStream_dict (n : Nat) (f : Stream → Stream) : (d.modStream n f).dict = d.dict := rfl
@[simp] theorem Dev.modStream_blobs (n : Nat) (f : Stream → Stream) : (d.modStream n f).blobs = d.blobs := rfl
@[simp] theorem Dev.modStream_mem (n : Nat) (f : Stream → Stream) : (d.modStream n f).mem = d.mem := rfl
@[simp] theorem Dev.modStream_blk (n : Nat) (f : Stream → Stream) : (d.modStream n f).blk = d.blk := rfl
@[simp] theorem Dev.modStream_store (n : Nat) (f : Stream → Stream) : (d.modStream n f).store = d.store := rfl
@[simp] theorem Dev.modStream_mc (n : Nat) (f : Stream → Stream) : (d.modStream n f).mc = d.mc := rfl
@[simp] theorem Dev.modStream_red (n : Nat) (f : Stream → Stream) : (d.modStream n f).red = d.red := rfl
@[simp] theorem Dev.modStream_sched (n : Nat) (f : Stream → Stream) : (d.modStream n f).sched = d.sched := rfl
@[simp] theorem Dev.modStream_lnk (n : Nat) (f : Stream → Stream) : (d.modStream n f).lnk = d.lnk := rfl
@[simp] theorem Dev.modStream_mbox (n : Nat) (f : Stream → Stream) : (d.modStream n f).mbox = d.mbox := rfl
@[simp] theorem Dev.modStream_mgmt (n : Nat) (f : Stream → Stream) : (d.modStream n f).mgmt = d.mgmt := rfl
@[simp] theorem Dev.modStream_recd (n : Nat) (f : Stream → Stream) : (d.modStream n f).recd = d.recd := rfl
@[simp] theorem Dev.modStream_sec (n : Nat) (f : Stream → Stream) : (d.modStream n f).sec = d.sec := rfl
@[simp] theorem Dev.modStream_pow (n : Nat) (f : Stream → Stream) : (d.modStream n f).pow = d.pow := rfl
@[simp] theorem Dev.modStream_calendar (n : Nat) (f : Stream → Stream) : (d.modStream n f).calendar = d.calendar := rfl
@[simp] theorem Dev.modStream_timeSet (n : Nat) (f : Stream → Stream) : (d.modStream n f).timeSet = d.timeSet := rfl
@[simp] theorem Dev.modStream_opSecs (n : Nat) (f : Stream → Stream) : (d.modStream n f).opSecs = d.opSecs := rfl
@[simp] theorem Dev.modStream_freeNo (n : Nat) (f : Stream → Stream) : (d.modStream n f).freeNo = d.freeNo := rfl
@[simp] theorem Dev.modStream_dget (n : Nat) (f : Stream → Stream) (key : Nat) : (d.modStream n f).dget key = d.dget key := rfl

/-! `Dev.setVane` writes `srv` only. -/

@[simp] theorem Dev.setVane_dict (n : Nat) (e : Vane) : (d.setVane n e).dict = d.dict := rfl
@[simp] theorem Dev.setVane_blobs (n : Nat) (e : Vane) : (d.setVane n e).blobs = d.blobs := rfl
@[simp] theorem Dev.setVane_mem (n : Nat) (e : Vane) : (d.setVane n e).mem = d.mem := rfl
@[simp] theorem Dev.setVane_blk (n : Nat) (e : Vane) : (d.setVane n e).blk = d.blk := rfl
@[simp] theorem Dev.setVane_store (n : Nat) (e : Vane) : (d.setVane n e).store = d.store := rfl
@[simp] theorem Dev.setVane_mc (n : Nat) (e : Vane) : (d.setVane n e).mc = d.mc := rfl
@[simp] theorem Dev.setVane_red (n : Nat) (e : Vane) : (d.setVane n e).red = d.red := rfl
@[simp] theorem Dev.setVane_sched (n : Nat) (e : Vane) : (d.setVane n e).sched = d.sched := rfl
@[simp] theorem Dev.setVane_lnk (n : Nat) (e : Vane) : (d.setVane n e).lnk = d.lnk := rfl
@[simp] theorem Dev.setVane_mbox (n : Nat) (e : Vane) : (d.setVane n e).mbox = d.mbox := rfl
@[simp] theorem Dev.setVane_mgmt (n : Nat) (e : Vane) : (d.setVane n e).mgmt = d.mgmt := rfl
@[simp] theorem Dev.setVane_recd (n : Nat) (e : Vane) : (d.setVane n e).recd = d.recd := rfl
@[simp] theorem Dev.setVane_sec (n : Nat) (e : Vane) : (d.setVane n e).sec = d.sec := rfl
@[simp] theorem Dev.setVane_pow (n : Nat) (e : Vane) : (d.setVane n e).pow = d.pow := rfl
@[simp] theorem Dev.setVane_calendar (n : Nat) (e : Vane) : (d.setVane n e).calendar = d.calendar := rfl
@[simp] theorem Dev.setVane_timeSet (n : Nat) (e : Vane) : (d.setVane n e).timeSet = d.timeSet := rfl
@[simp] theorem Dev.setVane_opSecs (n : Nat) (e : Vane) : (d.setVane n e).opSecs = d.opSecs := rfl
@[simp] theorem Dev.setVane_freeNo (n : Nat) (e : Vane) : (d.setVane n e).freeNo = d.freeNo := rfl
@[simp] theorem Dev.setVane_dget (n : Nat) (e : Vane) (key : Nat) : (d.setVane n e).dget key = d.dget key := rfl

/-! `Dev.setLoop` writes `srv` only. -/

@[simp] theorem Dev.setLoop_dict (l : Loop) : (d.setLoop l).dict = d.dict := rfl
@[simp] theorem Dev.setLoop_blobs (l : Loop) : (d.setLoop l).blobs = d.blobs := rfl
@[simp] theorem Dev.setLoop_mem (l : Loop) : (d.setLoop l).mem = d.mem := rfl
@[simp] theorem Dev.setLoop_blk (l : Loop) : (d.setLoop l).blk = d.blk := rfl
@[simp] theorem Dev.setLoop_store (l : Loop) : (d.setLoop l).store = d.store := rfl
@[simp] theorem Dev.setLoop_mc (l : Loop) : (d.setLoop l).mc = d.mc := rfl
@[simp] theorem Dev.setLoop_red (l : Loop) : (d.setLoop l).red = d.red := rfl
@[simp] theorem Dev.setLoop_sched (l : Loop) : (d.setLoop l).sched = d.sched := rfl
@[simp] theorem Dev.setLoop_lnk (l : Loop) : (d.setLoop l).lnk = d.lnk := rfl
@[simp] theorem Dev.setLoop_mbox (l : Loop) : (d.setLoop l).mbox = d.mbox := rfl
@[simp] theorem Dev.setLoop_mgmt (l : Loop) : (d.setLoop l).mgmt = d.mgmt := rfl
@[simp] theorem Dev.setLoop_recd (l : Loop) : (d.setLoop l).recd = d.recd := rfl
@[simp] theorem Dev.setLoop_sec (l : Loop) : (d.setLoop l).sec = d.sec := rfl
@[simp] theorem Dev.setLoop_pow (l : Loop) : (d.setLoop l).pow = d.pow := rfl
@[simp] theorem Dev.setLoop_calendar (l : Loop) : (d.setLoop l).calendar = d.calendar := rfl
@[simp] theorem Dev.setLoop_timeSet (l : Loop) : (d.setLoop l).timeSet = d.timeSet := rfl
@[simp] theorem Dev.setLoop_opSecs (l : Loop) : (d.setLoop l).opSecs = d.opSecs := rfl
@[simp] theorem Dev.setLoop_freeNo (l : Loop) : (d.setLoop l).freeNo = d.freeNo := rfl
@[simp] theorem Dev.setLoop_dget (l : Loop) (key : Nat) : (d.setLoop l).dget key = d.dget key := rfl

/-! `Dev.modLoop` writes `srv` only. -/

@[simp] theorem Dev.modLoop_dict (j : Nat) (f : Loop → Loop) : (d.modLoop j f).dict = d.dict := rfl
@[simp] theorem Dev.modLoop_blobs (j : Nat) (f : Loop → Loop) : (d.modLoop j f).blobs = d.blobs := rfl
@[simp] theorem Dev.modLoop_mem (j : Nat) (f : Loop → Loop) : (d.modLoop j f).mem = d.mem := rfl
@[simp] theorem Dev.modLoop_blk (j : Nat) (f : Loop → Loop) : (d.modLoop j f).blk = d.blk := rfl
@[simp] theorem Dev.modLoop_store (j : Nat) (f : Loop → Loop) : (d.modLoop j f).store = d.store := rfl
@[simp] theorem Dev.modLoop_mc (j : Nat) (f : Loop → Loop) : (d.modLoop j f).mc = d.mc := rfl
@[simp] theorem Dev.modLoop_red (j : Nat) (f : Loop → Loop) : (d.modLoop j f).red = d.red := rfl
@[simp] theorem Dev.modLoop_sched (j : Nat) (f : Loop → Loop) : (d.modLoop j f).sched = d.sched := rfl
@[simp] theorem Dev.modLoop_lnk (j : Nat) (f : Loop → Loop) : (d.modLoop j f).lnk = d.lnk := rfl
@[simp] theorem Dev.modLoop_mbox (j : Nat) (f : Loop → Loop) : (d.modLoop j f).mbox = d.mbox := rfl
@[simp] theorem Dev.modLoop_mgmt (j : Nat) (f : Loop → Loop) : (d.modLoop j f).mgmt = d.mgmt := rfl
@[simp] theorem Dev.modLoop_recd (j : Nat) (f : Loop → Loop) : (d.modLoop j f).recd = d.recd := rfl
@[simp] theorem Dev.modLoop_sec (j : Nat) (f : Loop → Loop) : (d.modLoop j f).sec = d.sec := rfl
@[simp] theorem Dev.modLoop_pow (j : Nat) (f : Loop → Loop) : (d.modLoop j f).pow = d.pow := rfl
@[simp] theorem Dev.modLoop_calendar (j : Nat) (f : Loop → Loop) : (d.modLoop j f).calendar = d.calendar := rfl
@[simp] theorem Dev.modLoop_timeSet (j : Nat) (f : Loop → Loop) : (d.modLoop j f).timeSet = d.timeSet := rfl
@[simp] theorem Dev.modLoop_opSecs (j : Nat) (f : Loop → Loop) : (d.modLoop j f).opSecs = d.opSecs := rfl
@[simp] theorem Dev.modLoop_freeNo (j : Nat) (f : Loop → Loop) : (d.modLoop j f).freeNo = d.freeNo := rfl
@[simp] theorem Dev.modLoop_dget (j : Nat) (f : Loop → Loop) (key : Nat) : (d.modLoop j f).dget key = d.dget key := rfl

/-! `Dev.setSched` writes `sched` only. -/

@[simp] theorem Dev.setSched_dict (f : Sched → Sched) : (d.setSched f).dict = d.dict := rfl
@[simp] theorem Dev.setSched_blobs (f : Sched → Sched) : (d.setSched f).blobs = d.blobs := rfl
@[simp] theorem Dev.setSched_mem (f : Sched → Sched) : (d.setSched f).mem = d.mem := rfl
@[simp] theorem Dev.setSched_blk (f : Sched → Sched) : (d.setSched f).blk = d.blk := rfl
@[simp] theorem Dev.setSched_store (f : Sched → Sched) : (d.setSched f).store = d.store := rfl
@[simp] theorem Dev.setSched_mc (f : Sched → Sched) : (d.setSched f).mc = d.mc := rfl
@[simp] theorem Dev.setSched_red (f : Sched → Sched) : (d.setSched f).red = d.red := rfl
@[simp] theorem Dev.setSched_srv (f : Sched → Sched) : (d.setSched f).srv = d.srv := rfl
@[simp] theorem Dev.setSched_lnk (f : Sched → Sched) : (d.setSched f).lnk = d.lnk := rfl
@[simp] theorem Dev.setSched_mbox (f : Sched → Sched) : (d.setSched f).mbox = d.mbox := rfl
@[simp] theorem Dev.setSched_mgmt (f : Sched → Sched) : (d.setSched f).mgmt = d.mgmt := rfl
@[simp] theorem Dev.setSched_recd (f : Sched → Sched) : (d.setSched f).recd = d.recd := rfl
@[simp] theorem Dev.setSched_sec (f : Sched → Sched) : (d.setSched f).sec = d.sec := rfl
@[simp] theorem Dev.setSched_pow (f : Sched → Sched) : (d.setSched f).pow = d.pow := rfl
@[simp] theorem Dev.setSched_calendar (f : Sched → Sched) : (d.setSched f).calendar = d.calendar := rfl
@[simp] theorem Dev.setSched_timeSet (f : Sched → Sched) : (d.setSched f).timeSet = d.timeSet := rfl
@[simp] theorem Dev.setSched_opSecs (f : Sched → Sched) : (d.setSched f).opSecs = d.opSecs := rfl
@[simp] theorem Dev.setSched_freeNo (f : Sched → Sched) : (d.setSched f).freeNo = d.freeNo := rfl
@[simp] theorem Dev.setSched_dget (f : Sched → Sched) (key : Nat) : (d.setSched f).dget key = d.dget key := rfl

/-! `Dev.setJob` writes `sched` only. -/

@[simp] theorem Dev.setJob_dict (j : Nat) (v : Job) : (d.setJob j v).dict = d.dict := rfl
@[simp] theorem Dev.setJob_blobs (j : Nat) (v : Job) : (d.setJob j v).blobs = d.blobs := rfl
@[simp] theorem Dev.setJob_mem (j : Nat) (v : Job) : (d.setJob j v).mem = d.mem := rfl
@[simp] theorem Dev.setJob_blk (j : Nat) (v : Job) : (d.setJob j v).blk = d.blk := rfl
@[simp] theorem Dev.setJob_store (j : Nat) (v : Job) : (d.setJob j v).store = d.store := rfl
@[simp] theorem Dev.setJob_mc (j : Nat) (v : Job) : (d.setJob j v).mc = d.mc := rfl
@[simp] theorem Dev.setJob_red (j : Nat) (v : Job) : (d.setJob j v).red = d.red := rfl
@[simp] theorem Dev.setJob_srv (j : Nat) (v : Job) : (d.setJob j v).srv = d.srv := rfl
@[simp] theorem Dev.setJob_lnk (j : Nat) (v : Job) : (d.setJob j v).lnk = d.lnk := rfl
@[simp] theorem Dev.setJob_mbox (j : Nat) (v : Job) : (d.setJob j v).mbox = d.mbox := rfl
@[simp] theorem Dev.setJob_mgmt (j : Nat) (v : Job) : (d.setJob j v).mgmt = d.mgmt := rfl
@[simp] theorem Dev.setJob_recd (j : Nat) (v : Job) : (d.setJob j v).recd = d.recd := rfl
@[simp] theorem Dev.setJob_sec (j : Nat) (v : Job) : (d.setJob j v).sec = d.sec := rfl
@[simp] theorem Dev.setJob_pow (j : Nat) (v : Job) : (d.setJob j v).pow = d.pow := rfl
@[simp] theorem Dev.setJob_calendar (j : Nat) (v : Job) : (d.setJob j v).calendar = d.calendar := rfl
@[simp] theorem Dev.setJob_timeSet (j : Nat) (v : Job) : (d.setJob j v).timeSet = d.timeSet := rfl
@[simp] theorem Dev.setJob_opSecs (j : Nat) (v : Job) : (d.setJob j v).opSecs = d.opSecs := rfl
@[simp] theorem Dev.setJob_freeNo (j : Nat) (v : Job) : (d.setJob j v).freeNo = d.freeNo := rfl
@[simp] theorem Dev.setJob_dget (j : Nat) (v : Job) (key : Nat) : (d.setJob j v).dget key = d.dget key := rfl

/-! `Dev.modJob` writes `sched` only. -/

@[simp] theorem Dev.modJob_dict (j : Nat) (f : Job → Job) : (d.modJob j f).dict = d.dict := rfl
@[simp] theorem Dev.modJob_blobs (j : Nat) (f : Job → Job) : (d.modJob j f).blobs = d.blobs := rfl
@[simp] theorem Dev.modJob_mem (j : Nat) (f : Job → Job) : (d.modJob j f).mem = d.mem := rfl
@[simp] theorem Dev.modJob_blk (j : Nat) (f : Job → Job) : (d.modJob j f).blk = d.blk := rfl
@[simp] theorem Dev.modJob_store (j : Nat) (f : Job → Job) : (d.modJob j f).store = d.store := rfl
@[simp] theorem Dev.modJob_mc (j : Nat) (f : Job → Job) : (d.modJob j f).mc = d.mc := rfl
@[simp] theorem Dev.modJob_red (j : Nat) (f : Job → Job) : (d.modJob j f).red = d.red := rfl
@[simp] theorem Dev.modJob_srv (j : Nat) (f : Job → Job) : (d.modJob j f).srv = d.srv := rfl
@[simp] theorem Dev.modJob_lnk (j : Nat) (f : Job → Job) : (d.modJob j f).lnk = d.lnk := rfl
@[simp] theorem Dev.modJob_mbox (j : Nat) (f : Job → Job) : (d.modJob j f).mbox = d.mbox := rfl
@[simp] theorem Dev.modJob_mgmt (j : Nat) (f : Job → Job) : (d.modJob j f).mgmt = d.mgmt := rfl
@[simp] theorem Dev.modJob_recd (j : Nat) (f : Job → Job) : (d.modJob j f).recd = d.recd := rfl
@[simp] theorem Dev.modJob_sec (j : Nat) (f : Job → Job) : (d.modJob j f).sec = d.sec := rfl
@[simp] theorem Dev.modJob_pow (j : Nat) (f : Job → Job) : (d.modJob j f).pow = d.pow := rfl
@[simp] theorem Dev.modJob_calendar (j : Nat) (f : Job → Job) : (d.modJob j f).calendar = d.calendar := rfl
@[simp] theorem Dev.modJob_timeSet (j : Nat) (f : Job → Job) : (d.modJob j f).timeSet = d.timeSet := rfl
@[simp] theorem Dev.modJob_opSecs (j : Nat) (f : Job → Job) : (d.modJob j f).opSecs = d.opSecs := rfl
@[simp] theorem Dev.modJob_freeNo (j : Nat) (f : Job → Job) : (d.modJob j f).freeNo = d.freeNo := rfl
@[simp] theorem Dev.modJob_dget (j : Nat) (f : Job → Job) (key : Nat) : (d.modJob j f).dget key = d.dget key := rfl

/-! `Dev.modFlight` writes `sched` only. -/

@[simp] theorem Dev.modFlight_dict (n : Nat) (g : Flight → Flight) : (d.modFlight n g).dict = d.dict := rfl
@[simp] theorem Dev.modFlight_blobs (n : Nat) (g : Flight → Flight) : (d.modFlight n g).blobs = d.blobs := rfl
@[simp] theorem Dev.modFlight_mem (n : Nat) (g : Flight → Flight) : (d.modFlight n g).mem = d.mem := rfl
@[simp] theorem Dev.modFlight_blk (n : Nat) (g : Flight → Flight) : (d.modFlight n g).blk = d.blk := rfl
@[simp] theorem Dev.modFlight_store (n : Nat) (g : Flight → Flight) : (d.modFlight n g).store = d.store := rfl
@[simp] theorem Dev.modFlight_mc (n : Nat) (g : Flight → Flight) : (d.modFlight n g).mc = d.mc := rfl
@[simp] theorem Dev.modFlight_red (n : Nat) (g : Flight → Flight) : (d.modFlight n g).red = d.red := rfl
@[simp] theorem Dev.modFlight_srv (n : Nat) (g : Flight → Flight) : (d.modFlight n g).srv = d.srv := rfl
@[simp] theorem Dev.modFlight_lnk (n : Nat) (g : Flight → Flight) : (d.modFlight n g).lnk = d.lnk := rfl
@[simp] theorem Dev.modFlight_mbox (n : Nat) (g : Flight → Flight) : (d.modFlight n g).mbox = d.mbox := rfl
@[simp] theorem Dev.modFlight_mgmt (n : Nat) (g : Flight → Flight) : (d.modFlight n g).mgmt = d.mgmt := rfl
@[simp] theorem Dev.modFlight_recd (n : Nat) (g : Flight → Flight) : (d.modFlight n g).recd = d.recd := rfl
@[simp] theorem Dev.modFlight_sec (n : Nat) (g : Flight → Flight) : (d.modFlight n g).sec = d.sec := rfl
@[simp] theorem Dev.modFlight_pow (n : Nat) (g : Flight → Flight) : (d.modFlight n g).pow = d.pow := rfl
@[simp] theorem Dev.modFlight_calendar (n : Nat) (g : Flight → Flight) : (d.modFlight n g).calendar = d.calendar := rfl
@[simp] theorem Dev.modFlight_timeSet (n : Nat) (g : Flight → Flight) : (d.modFlight n g).timeSet = d.timeSet := rfl
@[simp] theorem Dev.modFlight_opSecs (n : Nat) (g : Flight → Flight) : (d.modFlight n g).opSecs = d.opSecs := rfl
@[simp] theorem Dev.modFlight_freeNo (n : Nat) (g : Flight → Flight) : (d.modFlight n g).freeNo = d.freeNo := rfl
@[simp] theorem Dev.modFlight_dget (n : Nat) (g : Flight → Flight) (key : Nat) : (d.modFlight n g).dget key = d.dget key := rfl

/-! `Dev.dropFlight` writes `sched` only. -/

@[simp] theorem Dev.dropFlight_dict (n : Nat) : (d.dropFlight n).dict = d.dict := rfl
@[simp] theorem Dev.dropFlight_blobs (n : Nat) : (d.dropFlight n).blobs = d.blobs := rfl
@[simp] theorem Dev.dropFlight_mem (n : Nat) : (d.dropFlight n).mem = d.mem := rfl
@[simp] theorem Dev.dropFlight_blk (n : Nat) : (d.dropFlight n).blk = d.blk := rfl
@[simp] theorem Dev.dropFlight_store (n : Nat) : (d.dropFlight n).store = d.store := rfl
@[simp] theorem Dev.dropFlight_mc (n : Nat) : (d.dropFlight n).mc = d.mc := rfl
@[simp] theorem Dev.dropFlight_red (n : Nat) : (d.dropFlight n).red = d.red := rfl
@[simp] theorem Dev.dropFlight_srv (n : Nat) : (d.dropFlight n).srv = d.srv := rfl
@[simp] theorem Dev.dropFlight_lnk (n : Nat) : (d.dropFlight n).lnk = d.lnk := rfl
@[simp] theorem Dev.dropFlight_mbox (n : Nat) : (d.dropFlight n).mbox = d.mbox := rfl
@[simp] theorem Dev.dropFlight_mgmt (n : Nat) : (d.dropFlight n).mgmt = d.mgmt := rfl
@[simp] theorem Dev.dropFlight_recd (n : Nat) : (d.dropFlight n).recd = d.recd := rfl
@[simp] theorem Dev.dropFlight_sec (n : Nat) : (d.dropFlight n).sec = d.sec := rfl
@[simp] theorem Dev.dropFlight_pow (n : Nat) : (d.dropFlight n).pow = d.pow := rfl
@[simp] theorem Dev.dropFlight_calendar (n : Nat) : (d.dropFlight n).calendar = d.calendar := rfl
@[simp] theorem Dev.dropFlight_timeSet (n : Nat) : (d.dropFlight n).timeSet = d.timeSet := rfl
@[simp] theorem Dev.dropFlight_opSecs (n : Nat) : (d.dropFlight n).opSecs = d.opSecs := rfl
@[simp] theorem Dev.dropFlight_freeNo (n : Nat) : (d.dropFlight n).freeNo = d.freeNo := rfl
@[simp] theorem Dev.dropFlight_dget (n : Nat) (key : Nat) : (d.dropFlight n).dget key = d.dget key := rfl

/-! `Dev.addFlight` writes `sched` only. -/

@[simp] theorem Dev.addFlight_dict (j q i : Nat) (w : Word512) (b : Bool) : (d.addFlight j q i w b).dict = d.dict := rfl
@[simp] theorem Dev.addFlight_blobs (j q i : Nat) (w : Word512) (b : Bool) : (d.addFlight j q i w b).blobs = d.blobs := rfl
@[simp] theorem Dev.addFlight_mem (j q i : Nat) (w : Word512) (b : Bool) : (d.addFlight j q i w b).mem = d.mem := rfl
@[simp] theorem Dev.addFlight_blk (j q i : Nat) (w : Word512) (b : Bool) : (d.addFlight j q i w b).blk = d.blk := rfl
@[simp] theorem Dev.addFlight_store (j q i : Nat) (w : Word512) (b : Bool) : (d.addFlight j q i w b).store = d.store := rfl
@[simp] theorem Dev.addFlight_mc (j q i : Nat) (w : Word512) (b : Bool) : (d.addFlight j q i w b).mc = d.mc := rfl
@[simp] theorem Dev.addFlight_red (j q i : Nat) (w : Word512) (b : Bool) : (d.addFlight j q i w b).red = d.red := rfl
@[simp] theorem Dev.addFlight_srv (j q i : Nat) (w : Word512) (b : Bool) : (d.addFlight j q i w b).srv = d.srv := rfl
@[simp] theorem Dev.addFlight_lnk (j q i : Nat) (w : Word512) (b : Bool) : (d.addFlight j q i w b).lnk = d.lnk := rfl
@[simp] theorem Dev.addFlight_mbox (j q i : Nat) (w : Word512) (b : Bool) : (d.addFlight j q i w b).mbox = d.mbox := rfl
@[simp] theorem Dev.addFlight_mgmt (j q i : Nat) (w : Word512) (b : Bool) : (d.addFlight j q i w b).mgmt = d.mgmt := rfl
@[simp] theorem Dev.addFlight_recd (j q i : Nat) (w : Word512) (b : Bool) : (d.addFlight j q i w b).recd = d.recd := rfl
@[simp] theorem Dev.addFlight_sec (j q i : Nat) (w : Word512) (b : Bool) : (d.addFlight j q i w b).sec = d.sec := rfl
@[simp] theorem Dev.addFlight_pow (j q i : Nat) (w : Word512) (b : Bool) : (d.addFlight j q i w b).pow = d.pow := rfl
@[simp] theorem Dev.addFlight_calendar (j q i : Nat) (w : Word512) (b : Bool) : (d.addFlight j q i w b).calendar = d.calendar := rfl
@[simp] theorem Dev.addFlight_timeSet (j q i : Nat) (w : Word512) (b : Bool) : (d.addFlight j q i w b).timeSet = d.timeSet := rfl
@[simp] theorem Dev.addFlight_opSecs (j q i : Nat) (w : Word512) (b : Bool) : (d.addFlight j q i w b).opSecs = d.opSecs := rfl
@[simp] theorem Dev.addFlight_freeNo (j q i : Nat) (w : Word512) (b : Bool) : (d.addFlight j q i w b).freeNo = d.freeNo := rfl
@[simp] theorem Dev.addFlight_dget (j q i : Nat) (w : Word512) (b : Bool) (key : Nat) : (d.addFlight j q i w b).dget key = d.dget key := rfl

/-! `Dev.setSem` writes `sched` only. -/

@[simp] theorem Dev.setSem_dict (n : Nat) (v : Sem) : (d.setSem n v).dict = d.dict := rfl
@[simp] theorem Dev.setSem_blobs (n : Nat) (v : Sem) : (d.setSem n v).blobs = d.blobs := rfl
@[simp] theorem Dev.setSem_mem (n : Nat) (v : Sem) : (d.setSem n v).mem = d.mem := rfl
@[simp] theorem Dev.setSem_blk (n : Nat) (v : Sem) : (d.setSem n v).blk = d.blk := rfl
@[simp] theorem Dev.setSem_store (n : Nat) (v : Sem) : (d.setSem n v).store = d.store := rfl
@[simp] theorem Dev.setSem_mc (n : Nat) (v : Sem) : (d.setSem n v).mc = d.mc := rfl
@[simp] theorem Dev.setSem_red (n : Nat) (v : Sem) : (d.setSem n v).red = d.red := rfl
@[simp] theorem Dev.setSem_srv (n : Nat) (v : Sem) : (d.setSem n v).srv = d.srv := rfl
@[simp] theorem Dev.setSem_lnk (n : Nat) (v : Sem) : (d.setSem n v).lnk = d.lnk := rfl
@[simp] theorem Dev.setSem_mbox (n : Nat) (v : Sem) : (d.setSem n v).mbox = d.mbox := rfl
@[simp] theorem Dev.setSem_mgmt (n : Nat) (v : Sem) : (d.setSem n v).mgmt = d.mgmt := rfl
@[simp] theorem Dev.setSem_recd (n : Nat) (v : Sem) : (d.setSem n v).recd = d.recd := rfl
@[simp] theorem Dev.setSem_sec (n : Nat) (v : Sem) : (d.setSem n v).sec = d.sec := rfl
@[simp] theorem Dev.setSem_pow (n : Nat) (v : Sem) : (d.setSem n v).pow = d.pow := rfl
@[simp] theorem Dev.setSem_calendar (n : Nat) (v : Sem) : (d.setSem n v).calendar = d.calendar := rfl
@[simp] theorem Dev.setSem_timeSet (n : Nat) (v : Sem) : (d.setSem n v).timeSet = d.timeSet := rfl
@[simp] theorem Dev.setSem_opSecs (n : Nat) (v : Sem) : (d.setSem n v).opSecs = d.opSecs := rfl
@[simp] theorem Dev.setSem_freeNo (n : Nat) (v : Sem) : (d.setSem n v).freeNo = d.freeNo := rfl
@[simp] theorem Dev.setSem_dget (n : Nat) (v : Sem) (key : Nat) : (d.setSem n v).dget key = d.dget key := rfl

/-! `Dev.setBarrier` writes `sched` only. -/

@[simp] theorem Dev.setBarrier_dict (b : Barrier) : (d.setBarrier b).dict = d.dict := rfl
@[simp] theorem Dev.setBarrier_blobs (b : Barrier) : (d.setBarrier b).blobs = d.blobs := rfl
@[simp] theorem Dev.setBarrier_mem (b : Barrier) : (d.setBarrier b).mem = d.mem := rfl
@[simp] theorem Dev.setBarrier_blk (b : Barrier) : (d.setBarrier b).blk = d.blk := rfl
@[simp] theorem Dev.setBarrier_store (b : Barrier) : (d.setBarrier b).store = d.store := rfl
@[simp] theorem Dev.setBarrier_mc (b : Barrier) : (d.setBarrier b).mc = d.mc := rfl
@[simp] theorem Dev.setBarrier_red (b : Barrier) : (d.setBarrier b).red = d.red := rfl
@[simp] theorem Dev.setBarrier_srv (b : Barrier) : (d.setBarrier b).srv = d.srv := rfl
@[simp] theorem Dev.setBarrier_lnk (b : Barrier) : (d.setBarrier b).lnk = d.lnk := rfl
@[simp] theorem Dev.setBarrier_mbox (b : Barrier) : (d.setBarrier b).mbox = d.mbox := rfl
@[simp] theorem Dev.setBarrier_mgmt (b : Barrier) : (d.setBarrier b).mgmt = d.mgmt := rfl
@[simp] theorem Dev.setBarrier_recd (b : Barrier) : (d.setBarrier b).recd = d.recd := rfl
@[simp] theorem Dev.setBarrier_sec (b : Barrier) : (d.setBarrier b).sec = d.sec := rfl
@[simp] theorem Dev.setBarrier_pow (b : Barrier) : (d.setBarrier b).pow = d.pow := rfl
@[simp] theorem Dev.setBarrier_calendar (b : Barrier) : (d.setBarrier b).calendar = d.calendar := rfl
@[simp] theorem Dev.setBarrier_timeSet (b : Barrier) : (d.setBarrier b).timeSet = d.timeSet := rfl
@[simp] theorem Dev.setBarrier_opSecs (b : Barrier) : (d.setBarrier b).opSecs = d.opSecs := rfl
@[simp] theorem Dev.setBarrier_freeNo (b : Barrier) : (d.setBarrier b).freeNo = d.freeNo := rfl
@[simp] theorem Dev.setBarrier_dget (b : Barrier) (key : Nat) : (d.setBarrier b).dget key = d.dget key := rfl

/-! `Dev.dropBarrier` writes `sched` only. -/

@[simp] theorem Dev.dropBarrier_dict (b : Barrier) : (d.dropBarrier b).dict = d.dict := rfl
@[simp] theorem Dev.dropBarrier_blobs (b : Barrier) : (d.dropBarrier b).blobs = d.blobs := rfl
@[simp] theorem Dev.dropBarrier_mem (b : Barrier) : (d.dropBarrier b).mem = d.mem := rfl
@[simp] theorem Dev.dropBarrier_blk (b : Barrier) : (d.dropBarrier b).blk = d.blk := rfl
@[simp] theorem Dev.dropBarrier_store (b : Barrier) : (d.dropBarrier b).store = d.store := rfl
@[simp] theorem Dev.dropBarrier_mc (b : Barrier) : (d.dropBarrier b).mc = d.mc := rfl
@[simp] theorem Dev.dropBarrier_red (b : Barrier) : (d.dropBarrier b).red = d.red := rfl
@[simp] theorem Dev.dropBarrier_srv (b : Barrier) : (d.dropBarrier b).srv = d.srv := rfl
@[simp] theorem Dev.dropBarrier_lnk (b : Barrier) : (d.dropBarrier b).lnk = d.lnk := rfl
@[simp] theorem Dev.dropBarrier_mbox (b : Barrier) : (d.dropBarrier b).mbox = d.mbox := rfl
@[simp] theorem Dev.dropBarrier_mgmt (b : Barrier) : (d.dropBarrier b).mgmt = d.mgmt := rfl
@[simp] theorem Dev.dropBarrier_recd (b : Barrier) : (d.dropBarrier b).recd = d.recd := rfl
@[simp] theorem Dev.dropBarrier_sec (b : Barrier) : (d.dropBarrier b).sec = d.sec := rfl
@[simp] theorem Dev.dropBarrier_pow (b : Barrier) : (d.dropBarrier b).pow = d.pow := rfl
@[simp] theorem Dev.dropBarrier_calendar (b : Barrier) : (d.dropBarrier b).calendar = d.calendar := rfl
@[simp] theorem Dev.dropBarrier_timeSet (b : Barrier) : (d.dropBarrier b).timeSet = d.timeSet := rfl
@[simp] theorem Dev.dropBarrier_opSecs (b : Barrier) : (d.dropBarrier b).opSecs = d.opSecs := rfl
@[simp] theorem Dev.dropBarrier_freeNo (b : Barrier) : (d.dropBarrier b).freeNo = d.freeNo := rfl
@[simp] theorem Dev.dropBarrier_dget (b : Barrier) (key : Nat) : (d.dropBarrier b).dget key = d.dget key := rfl

/-! `Dev.setPort` writes `lnk` only. -/

@[simp] theorem Dev.setPort_dict (p : Nat) (v : Port) : (d.setPort p v).dict = d.dict := rfl
@[simp] theorem Dev.setPort_blobs (p : Nat) (v : Port) : (d.setPort p v).blobs = d.blobs := rfl
@[simp] theorem Dev.setPort_mem (p : Nat) (v : Port) : (d.setPort p v).mem = d.mem := rfl
@[simp] theorem Dev.setPort_blk (p : Nat) (v : Port) : (d.setPort p v).blk = d.blk := rfl
@[simp] theorem Dev.setPort_store (p : Nat) (v : Port) : (d.setPort p v).store = d.store := rfl
@[simp] theorem Dev.setPort_mc (p : Nat) (v : Port) : (d.setPort p v).mc = d.mc := rfl
@[simp] theorem Dev.setPort_red (p : Nat) (v : Port) : (d.setPort p v).red = d.red := rfl
@[simp] theorem Dev.setPort_srv (p : Nat) (v : Port) : (d.setPort p v).srv = d.srv := rfl
@[simp] theorem Dev.setPort_sched (p : Nat) (v : Port) : (d.setPort p v).sched = d.sched := rfl
@[simp] theorem Dev.setPort_mbox (p : Nat) (v : Port) : (d.setPort p v).mbox = d.mbox := rfl
@[simp] theorem Dev.setPort_mgmt (p : Nat) (v : Port) : (d.setPort p v).mgmt = d.mgmt := rfl
@[simp] theorem Dev.setPort_recd (p : Nat) (v : Port) : (d.setPort p v).recd = d.recd := rfl
@[simp] theorem Dev.setPort_sec (p : Nat) (v : Port) : (d.setPort p v).sec = d.sec := rfl
@[simp] theorem Dev.setPort_pow (p : Nat) (v : Port) : (d.setPort p v).pow = d.pow := rfl
@[simp] theorem Dev.setPort_calendar (p : Nat) (v : Port) : (d.setPort p v).calendar = d.calendar := rfl
@[simp] theorem Dev.setPort_timeSet (p : Nat) (v : Port) : (d.setPort p v).timeSet = d.timeSet := rfl
@[simp] theorem Dev.setPort_opSecs (p : Nat) (v : Port) : (d.setPort p v).opSecs = d.opSecs := rfl
@[simp] theorem Dev.setPort_freeNo (p : Nat) (v : Port) : (d.setPort p v).freeNo = d.freeNo := rfl
@[simp] theorem Dev.setPort_dget (p : Nat) (v : Port) (key : Nat) : (d.setPort p v).dget key = d.dget key := rfl

/-! `Dev.modPort` writes `lnk` only. -/

@[simp] theorem Dev.modPort_dict (p : Nat) (f : Port → Port) : (d.modPort p f).dict = d.dict := rfl
@[simp] theorem Dev.modPort_blobs (p : Nat) (f : Port → Port) : (d.modPort p f).blobs = d.blobs := rfl
@[simp] theorem Dev.modPort_mem (p : Nat) (f : Port → Port) : (d.modPort p f).mem = d.mem := rfl
@[simp] theorem Dev.modPort_blk (p : Nat) (f : Port → Port) : (d.modPort p f).blk = d.blk := rfl
@[simp] theorem Dev.modPort_store (p : Nat) (f : Port → Port) : (d.modPort p f).store = d.store := rfl
@[simp] theorem Dev.modPort_mc (p : Nat) (f : Port → Port) : (d.modPort p f).mc = d.mc := rfl
@[simp] theorem Dev.modPort_red (p : Nat) (f : Port → Port) : (d.modPort p f).red = d.red := rfl
@[simp] theorem Dev.modPort_srv (p : Nat) (f : Port → Port) : (d.modPort p f).srv = d.srv := rfl
@[simp] theorem Dev.modPort_sched (p : Nat) (f : Port → Port) : (d.modPort p f).sched = d.sched := rfl
@[simp] theorem Dev.modPort_mbox (p : Nat) (f : Port → Port) : (d.modPort p f).mbox = d.mbox := rfl
@[simp] theorem Dev.modPort_mgmt (p : Nat) (f : Port → Port) : (d.modPort p f).mgmt = d.mgmt := rfl
@[simp] theorem Dev.modPort_recd (p : Nat) (f : Port → Port) : (d.modPort p f).recd = d.recd := rfl
@[simp] theorem Dev.modPort_sec (p : Nat) (f : Port → Port) : (d.modPort p f).sec = d.sec := rfl
@[simp] theorem Dev.modPort_pow (p : Nat) (f : Port → Port) : (d.modPort p f).pow = d.pow := rfl
@[simp] theorem Dev.modPort_calendar (p : Nat) (f : Port → Port) : (d.modPort p f).calendar = d.calendar := rfl
@[simp] theorem Dev.modPort_timeSet (p : Nat) (f : Port → Port) : (d.modPort p f).timeSet = d.timeSet := rfl
@[simp] theorem Dev.modPort_opSecs (p : Nat) (f : Port → Port) : (d.modPort p f).opSecs = d.opSecs := rfl
@[simp] theorem Dev.modPort_freeNo (p : Nat) (f : Port → Port) : (d.modPort p f).freeNo = d.freeNo := rfl
@[simp] theorem Dev.modPort_dget (p : Nat) (f : Port → Port) (key : Nat) : (d.modPort p f).dget key = d.dget key := rfl

/-! `Dev.emit` writes `lnk` only. -/

@[simp] theorem Dev.emit_dict (p vc : Nat) (y : Option Nat) (bs : Bytes) : (d.emit p vc y bs).dict = d.dict := rfl
@[simp] theorem Dev.emit_blobs (p vc : Nat) (y : Option Nat) (bs : Bytes) : (d.emit p vc y bs).blobs = d.blobs := rfl
@[simp] theorem Dev.emit_mem (p vc : Nat) (y : Option Nat) (bs : Bytes) : (d.emit p vc y bs).mem = d.mem := rfl
@[simp] theorem Dev.emit_blk (p vc : Nat) (y : Option Nat) (bs : Bytes) : (d.emit p vc y bs).blk = d.blk := rfl
@[simp] theorem Dev.emit_store (p vc : Nat) (y : Option Nat) (bs : Bytes) : (d.emit p vc y bs).store = d.store := rfl
@[simp] theorem Dev.emit_mc (p vc : Nat) (y : Option Nat) (bs : Bytes) : (d.emit p vc y bs).mc = d.mc := rfl
@[simp] theorem Dev.emit_red (p vc : Nat) (y : Option Nat) (bs : Bytes) : (d.emit p vc y bs).red = d.red := rfl
@[simp] theorem Dev.emit_srv (p vc : Nat) (y : Option Nat) (bs : Bytes) : (d.emit p vc y bs).srv = d.srv := rfl
@[simp] theorem Dev.emit_sched (p vc : Nat) (y : Option Nat) (bs : Bytes) : (d.emit p vc y bs).sched = d.sched := rfl
@[simp] theorem Dev.emit_mbox (p vc : Nat) (y : Option Nat) (bs : Bytes) : (d.emit p vc y bs).mbox = d.mbox := rfl
@[simp] theorem Dev.emit_mgmt (p vc : Nat) (y : Option Nat) (bs : Bytes) : (d.emit p vc y bs).mgmt = d.mgmt := rfl
@[simp] theorem Dev.emit_recd (p vc : Nat) (y : Option Nat) (bs : Bytes) : (d.emit p vc y bs).recd = d.recd := rfl
@[simp] theorem Dev.emit_sec (p vc : Nat) (y : Option Nat) (bs : Bytes) : (d.emit p vc y bs).sec = d.sec := rfl
@[simp] theorem Dev.emit_pow (p vc : Nat) (y : Option Nat) (bs : Bytes) : (d.emit p vc y bs).pow = d.pow := rfl
@[simp] theorem Dev.emit_calendar (p vc : Nat) (y : Option Nat) (bs : Bytes) : (d.emit p vc y bs).calendar = d.calendar := rfl
@[simp] theorem Dev.emit_timeSet (p vc : Nat) (y : Option Nat) (bs : Bytes) : (d.emit p vc y bs).timeSet = d.timeSet := rfl
@[simp] theorem Dev.emit_opSecs (p vc : Nat) (y : Option Nat) (bs : Bytes) : (d.emit p vc y bs).opSecs = d.opSecs := rfl
@[simp] theorem Dev.emit_freeNo (p vc : Nat) (y : Option Nat) (bs : Bytes) : (d.emit p vc y bs).freeNo = d.freeNo := rfl
@[simp] theorem Dev.emit_dget (p vc : Nat) (y : Option Nat) (bs : Bytes) (key : Nat) : (d.emit p vc y bs).dget key = d.dget key := rfl

/-! `Dev.emitLc` writes `lnk` only. -/

@[simp] theorem Dev.emitLc_dict (p : Nat) (bs : Bytes) : (d.emitLc p bs).dict = d.dict := rfl
@[simp] theorem Dev.emitLc_blobs (p : Nat) (bs : Bytes) : (d.emitLc p bs).blobs = d.blobs := rfl
@[simp] theorem Dev.emitLc_mem (p : Nat) (bs : Bytes) : (d.emitLc p bs).mem = d.mem := rfl
@[simp] theorem Dev.emitLc_blk (p : Nat) (bs : Bytes) : (d.emitLc p bs).blk = d.blk := rfl
@[simp] theorem Dev.emitLc_store (p : Nat) (bs : Bytes) : (d.emitLc p bs).store = d.store := rfl
@[simp] theorem Dev.emitLc_mc (p : Nat) (bs : Bytes) : (d.emitLc p bs).mc = d.mc := rfl
@[simp] theorem Dev.emitLc_red (p : Nat) (bs : Bytes) : (d.emitLc p bs).red = d.red := rfl
@[simp] theorem Dev.emitLc_srv (p : Nat) (bs : Bytes) : (d.emitLc p bs).srv = d.srv := rfl
@[simp] theorem Dev.emitLc_sched (p : Nat) (bs : Bytes) : (d.emitLc p bs).sched = d.sched := rfl
@[simp] theorem Dev.emitLc_mbox (p : Nat) (bs : Bytes) : (d.emitLc p bs).mbox = d.mbox := rfl
@[simp] theorem Dev.emitLc_mgmt (p : Nat) (bs : Bytes) : (d.emitLc p bs).mgmt = d.mgmt := rfl
@[simp] theorem Dev.emitLc_recd (p : Nat) (bs : Bytes) : (d.emitLc p bs).recd = d.recd := rfl
@[simp] theorem Dev.emitLc_sec (p : Nat) (bs : Bytes) : (d.emitLc p bs).sec = d.sec := rfl
@[simp] theorem Dev.emitLc_pow (p : Nat) (bs : Bytes) : (d.emitLc p bs).pow = d.pow := rfl
@[simp] theorem Dev.emitLc_calendar (p : Nat) (bs : Bytes) : (d.emitLc p bs).calendar = d.calendar := rfl
@[simp] theorem Dev.emitLc_timeSet (p : Nat) (bs : Bytes) : (d.emitLc p bs).timeSet = d.timeSet := rfl
@[simp] theorem Dev.emitLc_opSecs (p : Nat) (bs : Bytes) : (d.emitLc p bs).opSecs = d.opSecs := rfl
@[simp] theorem Dev.emitLc_freeNo (p : Nat) (bs : Bytes) : (d.emitLc p bs).freeNo = d.freeNo := rfl
@[simp] theorem Dev.emitLc_dget (p : Nat) (bs : Bytes) (key : Nat) : (d.emitLc p bs).dget key = d.dget key := rfl

/-! `Dev.sendOn` writes `lnk` only. -/

@[simp] theorem Dev.sendOn_dict (p : Nat) (y : Option Nat) (m : Msg) : (d.sendOn p y m).dict = d.dict := rfl
@[simp] theorem Dev.sendOn_blobs (p : Nat) (y : Option Nat) (m : Msg) : (d.sendOn p y m).blobs = d.blobs := rfl
@[simp] theorem Dev.sendOn_mem (p : Nat) (y : Option Nat) (m : Msg) : (d.sendOn p y m).mem = d.mem := rfl
@[simp] theorem Dev.sendOn_blk (p : Nat) (y : Option Nat) (m : Msg) : (d.sendOn p y m).blk = d.blk := rfl
@[simp] theorem Dev.sendOn_store (p : Nat) (y : Option Nat) (m : Msg) : (d.sendOn p y m).store = d.store := rfl
@[simp] theorem Dev.sendOn_mc (p : Nat) (y : Option Nat) (m : Msg) : (d.sendOn p y m).mc = d.mc := rfl
@[simp] theorem Dev.sendOn_red (p : Nat) (y : Option Nat) (m : Msg) : (d.sendOn p y m).red = d.red := rfl
@[simp] theorem Dev.sendOn_srv (p : Nat) (y : Option Nat) (m : Msg) : (d.sendOn p y m).srv = d.srv := rfl
@[simp] theorem Dev.sendOn_sched (p : Nat) (y : Option Nat) (m : Msg) : (d.sendOn p y m).sched = d.sched := rfl
@[simp] theorem Dev.sendOn_mbox (p : Nat) (y : Option Nat) (m : Msg) : (d.sendOn p y m).mbox = d.mbox := rfl
@[simp] theorem Dev.sendOn_mgmt (p : Nat) (y : Option Nat) (m : Msg) : (d.sendOn p y m).mgmt = d.mgmt := rfl
@[simp] theorem Dev.sendOn_recd (p : Nat) (y : Option Nat) (m : Msg) : (d.sendOn p y m).recd = d.recd := rfl
@[simp] theorem Dev.sendOn_sec (p : Nat) (y : Option Nat) (m : Msg) : (d.sendOn p y m).sec = d.sec := rfl
@[simp] theorem Dev.sendOn_pow (p : Nat) (y : Option Nat) (m : Msg) : (d.sendOn p y m).pow = d.pow := rfl
@[simp] theorem Dev.sendOn_calendar (p : Nat) (y : Option Nat) (m : Msg) : (d.sendOn p y m).calendar = d.calendar := rfl
@[simp] theorem Dev.sendOn_timeSet (p : Nat) (y : Option Nat) (m : Msg) : (d.sendOn p y m).timeSet = d.timeSet := rfl
@[simp] theorem Dev.sendOn_opSecs (p : Nat) (y : Option Nat) (m : Msg) : (d.sendOn p y m).opSecs = d.opSecs := rfl
@[simp] theorem Dev.sendOn_freeNo (p : Nat) (y : Option Nat) (m : Msg) : (d.sendOn p y m).freeNo = d.freeNo := rfl
@[simp] theorem Dev.sendOn_dget (p : Nat) (y : Option Nat) (m : Msg) (key : Nat) : (d.sendOn p y m).dget key = d.dget key := rfl

/-! `Dev.modLnk` writes `lnk` only. -/

@[simp] theorem Dev.modLnk_dict (f : Lnk → Lnk) : (d.modLnk f).dict = d.dict := rfl
@[simp] theorem Dev.modLnk_blobs (f : Lnk → Lnk) : (d.modLnk f).blobs = d.blobs := rfl
@[simp] theorem Dev.modLnk_mem (f : Lnk → Lnk) : (d.modLnk f).mem = d.mem := rfl
@[simp] theorem Dev.modLnk_blk (f : Lnk → Lnk) : (d.modLnk f).blk = d.blk := rfl
@[simp] theorem Dev.modLnk_store (f : Lnk → Lnk) : (d.modLnk f).store = d.store := rfl
@[simp] theorem Dev.modLnk_mc (f : Lnk → Lnk) : (d.modLnk f).mc = d.mc := rfl
@[simp] theorem Dev.modLnk_red (f : Lnk → Lnk) : (d.modLnk f).red = d.red := rfl
@[simp] theorem Dev.modLnk_srv (f : Lnk → Lnk) : (d.modLnk f).srv = d.srv := rfl
@[simp] theorem Dev.modLnk_sched (f : Lnk → Lnk) : (d.modLnk f).sched = d.sched := rfl
@[simp] theorem Dev.modLnk_mbox (f : Lnk → Lnk) : (d.modLnk f).mbox = d.mbox := rfl
@[simp] theorem Dev.modLnk_mgmt (f : Lnk → Lnk) : (d.modLnk f).mgmt = d.mgmt := rfl
@[simp] theorem Dev.modLnk_recd (f : Lnk → Lnk) : (d.modLnk f).recd = d.recd := rfl
@[simp] theorem Dev.modLnk_sec (f : Lnk → Lnk) : (d.modLnk f).sec = d.sec := rfl
@[simp] theorem Dev.modLnk_pow (f : Lnk → Lnk) : (d.modLnk f).pow = d.pow := rfl
@[simp] theorem Dev.modLnk_calendar (f : Lnk → Lnk) : (d.modLnk f).calendar = d.calendar := rfl
@[simp] theorem Dev.modLnk_timeSet (f : Lnk → Lnk) : (d.modLnk f).timeSet = d.timeSet := rfl
@[simp] theorem Dev.modLnk_opSecs (f : Lnk → Lnk) : (d.modLnk f).opSecs = d.opSecs := rfl
@[simp] theorem Dev.modLnk_freeNo (f : Lnk → Lnk) : (d.modLnk f).freeNo = d.freeNo := rfl
@[simp] theorem Dev.modLnk_dget (f : Lnk → Lnk) (key : Nat) : (d.modLnk f).dget key = d.dget key := rfl

/-! `Dev.modCensus` writes `lnk` only. -/

@[simp] theorem Dev.modCensus_dict (f : Census → Census) : (d.modCensus f).dict = d.dict := rfl
@[simp] theorem Dev.modCensus_blobs (f : Census → Census) : (d.modCensus f).blobs = d.blobs := rfl
@[simp] theorem Dev.modCensus_mem (f : Census → Census) : (d.modCensus f).mem = d.mem := rfl
@[simp] theorem Dev.modCensus_blk (f : Census → Census) : (d.modCensus f).blk = d.blk := rfl
@[simp] theorem Dev.modCensus_store (f : Census → Census) : (d.modCensus f).store = d.store := rfl
@[simp] theorem Dev.modCensus_mc (f : Census → Census) : (d.modCensus f).mc = d.mc := rfl
@[simp] theorem Dev.modCensus_red (f : Census → Census) : (d.modCensus f).red = d.red := rfl
@[simp] theorem Dev.modCensus_srv (f : Census → Census) : (d.modCensus f).srv = d.srv := rfl
@[simp] theorem Dev.modCensus_sched (f : Census → Census) : (d.modCensus f).sched = d.sched := rfl
@[simp] theorem Dev.modCensus_mbox (f : Census → Census) : (d.modCensus f).mbox = d.mbox := rfl
@[simp] theorem Dev.modCensus_mgmt (f : Census → Census) : (d.modCensus f).mgmt = d.mgmt := rfl
@[simp] theorem Dev.modCensus_recd (f : Census → Census) : (d.modCensus f).recd = d.recd := rfl
@[simp] theorem Dev.modCensus_sec (f : Census → Census) : (d.modCensus f).sec = d.sec := rfl
@[simp] theorem Dev.modCensus_pow (f : Census → Census) : (d.modCensus f).pow = d.pow := rfl
@[simp] theorem Dev.modCensus_calendar (f : Census → Census) : (d.modCensus f).calendar = d.calendar := rfl
@[simp] theorem Dev.modCensus_timeSet (f : Census → Census) : (d.modCensus f).timeSet = d.timeSet := rfl
@[simp] theorem Dev.modCensus_opSecs (f : Census → Census) : (d.modCensus f).opSecs = d.opSecs := rfl
@[simp] theorem Dev.modCensus_freeNo (f : Census → Census) : (d.modCensus f).freeNo = d.freeNo := rfl
@[simp] theorem Dev.modCensus_dget (f : Census → Census) (key : Nat) : (d.modCensus f).dget key = d.dget key := rfl

/-! `Dev.setRec` writes `recd` only. -/

@[simp] theorem Dev.setRec_dict (r : Recorder) : (d.setRec r).dict = d.dict := rfl
@[simp] theorem Dev.setRec_blobs (r : Recorder) : (d.setRec r).blobs = d.blobs := rfl
@[simp] theorem Dev.setRec_mem (r : Recorder) : (d.setRec r).mem = d.mem := rfl
@[simp] theorem Dev.setRec_blk (r : Recorder) : (d.setRec r).blk = d.blk := rfl
@[simp] theorem Dev.setRec_store (r : Recorder) : (d.setRec r).store = d.store := rfl
@[simp] theorem Dev.setRec_mc (r : Recorder) : (d.setRec r).mc = d.mc := rfl
@[simp] theorem Dev.setRec_red (r : Recorder) : (d.setRec r).red = d.red := rfl
@[simp] theorem Dev.setRec_srv (r : Recorder) : (d.setRec r).srv = d.srv := rfl
@[simp] theorem Dev.setRec_sched (r : Recorder) : (d.setRec r).sched = d.sched := rfl
@[simp] theorem Dev.setRec_lnk (r : Recorder) : (d.setRec r).lnk = d.lnk := rfl
@[simp] theorem Dev.setRec_mbox (r : Recorder) : (d.setRec r).mbox = d.mbox := rfl
@[simp] theorem Dev.setRec_mgmt (r : Recorder) : (d.setRec r).mgmt = d.mgmt := rfl
@[simp] theorem Dev.setRec_sec (r : Recorder) : (d.setRec r).sec = d.sec := rfl
@[simp] theorem Dev.setRec_pow (r : Recorder) : (d.setRec r).pow = d.pow := rfl
@[simp] theorem Dev.setRec_calendar (r : Recorder) : (d.setRec r).calendar = d.calendar := rfl
@[simp] theorem Dev.setRec_timeSet (r : Recorder) : (d.setRec r).timeSet = d.timeSet := rfl
@[simp] theorem Dev.setRec_opSecs (r : Recorder) : (d.setRec r).opSecs = d.opSecs := rfl
@[simp] theorem Dev.setRec_freeNo (r : Recorder) : (d.setRec r).freeNo = d.freeNo := rfl
@[simp] theorem Dev.setRec_dget (r : Recorder) (key : Nat) : (d.setRec r).dget key = d.dget key := rfl

/-! `Dev.tickNo` writes `recd` only. -/

@[simp] theorem Dev.tickNo_dict : (d.tickNo).dict = d.dict := rfl
@[simp] theorem Dev.tickNo_blobs : (d.tickNo).blobs = d.blobs := rfl
@[simp] theorem Dev.tickNo_mem : (d.tickNo).mem = d.mem := rfl
@[simp] theorem Dev.tickNo_blk : (d.tickNo).blk = d.blk := rfl
@[simp] theorem Dev.tickNo_store : (d.tickNo).store = d.store := rfl
@[simp] theorem Dev.tickNo_mc : (d.tickNo).mc = d.mc := rfl
@[simp] theorem Dev.tickNo_red : (d.tickNo).red = d.red := rfl
@[simp] theorem Dev.tickNo_srv : (d.tickNo).srv = d.srv := rfl
@[simp] theorem Dev.tickNo_sched : (d.tickNo).sched = d.sched := rfl
@[simp] theorem Dev.tickNo_lnk : (d.tickNo).lnk = d.lnk := rfl
@[simp] theorem Dev.tickNo_mbox : (d.tickNo).mbox = d.mbox := rfl
@[simp] theorem Dev.tickNo_mgmt : (d.tickNo).mgmt = d.mgmt := rfl
@[simp] theorem Dev.tickNo_sec : (d.tickNo).sec = d.sec := rfl
@[simp] theorem Dev.tickNo_pow : (d.tickNo).pow = d.pow := rfl
@[simp] theorem Dev.tickNo_calendar : (d.tickNo).calendar = d.calendar := rfl
@[simp] theorem Dev.tickNo_timeSet : (d.tickNo).timeSet = d.timeSet := rfl
@[simp] theorem Dev.tickNo_opSecs : (d.tickNo).opSecs = d.opSecs := rfl
@[simp] theorem Dev.tickNo_freeNo : (d.tickNo).freeNo = d.freeNo := rfl
@[simp] theorem Dev.tickNo_dget (key : Nat) : (d.tickNo).dget key = d.dget key := rfl

/-! `Dev.setMbox` writes `mbox` only. -/

@[simp] theorem Dev.setMbox_dict (c : Nat) (m : Mbox) : (d.setMbox c m).dict = d.dict := rfl
@[simp] theorem Dev.setMbox_blobs (c : Nat) (m : Mbox) : (d.setMbox c m).blobs = d.blobs := rfl
@[simp] theorem Dev.setMbox_mem (c : Nat) (m : Mbox) : (d.setMbox c m).mem = d.mem := rfl
@[simp] theorem Dev.setMbox_blk (c : Nat) (m : Mbox) : (d.setMbox c m).blk = d.blk := rfl
@[simp] theorem Dev.setMbox_store (c : Nat) (m : Mbox) : (d.setMbox c m).store = d.store := rfl
@[simp] theorem Dev.setMbox_mc (c : Nat) (m : Mbox) : (d.setMbox c m).mc = d.mc := rfl
@[simp] theorem Dev.setMbox_red (c : Nat) (m : Mbox) : (d.setMbox c m).red = d.red := rfl
@[simp] theorem Dev.setMbox_srv (c : Nat) (m : Mbox) : (d.setMbox c m).srv = d.srv := rfl
@[simp] theorem Dev.setMbox_sched (c : Nat) (m : Mbox) : (d.setMbox c m).sched = d.sched := rfl
@[simp] theorem Dev.setMbox_lnk (c : Nat) (m : Mbox) : (d.setMbox c m).lnk = d.lnk := rfl
@[simp] theorem Dev.setMbox_mgmt (c : Nat) (m : Mbox) : (d.setMbox c m).mgmt = d.mgmt := rfl
@[simp] theorem Dev.setMbox_recd (c : Nat) (m : Mbox) : (d.setMbox c m).recd = d.recd := rfl
@[simp] theorem Dev.setMbox_sec (c : Nat) (m : Mbox) : (d.setMbox c m).sec = d.sec := rfl
@[simp] theorem Dev.setMbox_pow (c : Nat) (m : Mbox) : (d.setMbox c m).pow = d.pow := rfl
@[simp] theorem Dev.setMbox_calendar (c : Nat) (m : Mbox) : (d.setMbox c m).calendar = d.calendar := rfl
@[simp] theorem Dev.setMbox_timeSet (c : Nat) (m : Mbox) : (d.setMbox c m).timeSet = d.timeSet := rfl
@[simp] theorem Dev.setMbox_opSecs (c : Nat) (m : Mbox) : (d.setMbox c m).opSecs = d.opSecs := rfl
@[simp] theorem Dev.setMbox_freeNo (c : Nat) (m : Mbox) : (d.setMbox c m).freeNo = d.freeNo := rfl
@[simp] theorem Dev.setMbox_dget (c : Nat) (m : Mbox) (key : Nat) : (d.setMbox c m).dget key = d.dget key := rfl

/-! `Dev.t1s` writes `mgmt` only. -/

@[simp] theorem Dev.t1s_dict (g : Datagram) : (d.t1s g).dict = d.dict := rfl
@[simp] theorem Dev.t1s_blobs (g : Datagram) : (d.t1s g).blobs = d.blobs := rfl
@[simp] theorem Dev.t1s_mem (g : Datagram) : (d.t1s g).mem = d.mem := rfl
@[simp] theorem Dev.t1s_blk (g : Datagram) : (d.t1s g).blk = d.blk := rfl
@[simp] theorem Dev.t1s_store (g : Datagram) : (d.t1s g).store = d.store := rfl
@[simp] theorem Dev.t1s_mc (g : Datagram) : (d.t1s g).mc = d.mc := rfl
@[simp] theorem Dev.t1s_red (g : Datagram) : (d.t1s g).red = d.red := rfl
@[simp] theorem Dev.t1s_srv (g : Datagram) : (d.t1s g).srv = d.srv := rfl
@[simp] theorem Dev.t1s_sched (g : Datagram) : (d.t1s g).sched = d.sched := rfl
@[simp] theorem Dev.t1s_lnk (g : Datagram) : (d.t1s g).lnk = d.lnk := rfl
@[simp] theorem Dev.t1s_mbox (g : Datagram) : (d.t1s g).mbox = d.mbox := rfl
@[simp] theorem Dev.t1s_recd (g : Datagram) : (d.t1s g).recd = d.recd := rfl
@[simp] theorem Dev.t1s_sec (g : Datagram) : (d.t1s g).sec = d.sec := rfl
@[simp] theorem Dev.t1s_pow (g : Datagram) : (d.t1s g).pow = d.pow := rfl
@[simp] theorem Dev.t1s_calendar (g : Datagram) : (d.t1s g).calendar = d.calendar := rfl
@[simp] theorem Dev.t1s_timeSet (g : Datagram) : (d.t1s g).timeSet = d.timeSet := rfl
@[simp] theorem Dev.t1s_opSecs (g : Datagram) : (d.t1s g).opSecs = d.opSecs := rfl
@[simp] theorem Dev.t1s_freeNo (g : Datagram) : (d.t1s g).freeNo = d.freeNo := rfl
@[simp] theorem Dev.t1s_dget (g : Datagram) (key : Nat) : (d.t1s g).dget key = d.dget key := rfl

/-! `Dev.setSec` writes `sec` only. -/

@[simp] theorem Dev.setSec_dict (f : Sec → Sec) : (d.setSec f).dict = d.dict := rfl
@[simp] theorem Dev.setSec_blobs (f : Sec → Sec) : (d.setSec f).blobs = d.blobs := rfl
@[simp] theorem Dev.setSec_mem (f : Sec → Sec) : (d.setSec f).mem = d.mem := rfl
@[simp] theorem Dev.setSec_blk (f : Sec → Sec) : (d.setSec f).blk = d.blk := rfl
@[simp] theorem Dev.setSec_store (f : Sec → Sec) : (d.setSec f).store = d.store := rfl
@[simp] theorem Dev.setSec_mc (f : Sec → Sec) : (d.setSec f).mc = d.mc := rfl
@[simp] theorem Dev.setSec_red (f : Sec → Sec) : (d.setSec f).red = d.red := rfl
@[simp] theorem Dev.setSec_srv (f : Sec → Sec) : (d.setSec f).srv = d.srv := rfl
@[simp] theorem Dev.setSec_sched (f : Sec → Sec) : (d.setSec f).sched = d.sched := rfl
@[simp] theorem Dev.setSec_lnk (f : Sec → Sec) : (d.setSec f).lnk = d.lnk := rfl
@[simp] theorem Dev.setSec_mbox (f : Sec → Sec) : (d.setSec f).mbox = d.mbox := rfl
@[simp] theorem Dev.setSec_mgmt (f : Sec → Sec) : (d.setSec f).mgmt = d.mgmt := rfl
@[simp] theorem Dev.setSec_recd (f : Sec → Sec) : (d.setSec f).recd = d.recd := rfl
@[simp] theorem Dev.setSec_pow (f : Sec → Sec) : (d.setSec f).pow = d.pow := rfl
@[simp] theorem Dev.setSec_calendar (f : Sec → Sec) : (d.setSec f).calendar = d.calendar := rfl
@[simp] theorem Dev.setSec_timeSet (f : Sec → Sec) : (d.setSec f).timeSet = d.timeSet := rfl
@[simp] theorem Dev.setSec_opSecs (f : Sec → Sec) : (d.setSec f).opSecs = d.opSecs := rfl
@[simp] theorem Dev.setSec_freeNo (f : Sec → Sec) : (d.setSec f).freeNo = d.freeNo := rfl
@[simp] theorem Dev.setSec_dget (f : Sec → Sec) (key : Nat) : (d.setSec f).dget key = d.dget key := rfl

/-! `Dev.setPow` writes `pow` only. -/

@[simp] theorem Dev.setPow_dict (f : Pow → Pow) : (d.setPow f).dict = d.dict := rfl
@[simp] theorem Dev.setPow_blobs (f : Pow → Pow) : (d.setPow f).blobs = d.blobs := rfl
@[simp] theorem Dev.setPow_mem (f : Pow → Pow) : (d.setPow f).mem = d.mem := rfl
@[simp] theorem Dev.setPow_blk (f : Pow → Pow) : (d.setPow f).blk = d.blk := rfl
@[simp] theorem Dev.setPow_store (f : Pow → Pow) : (d.setPow f).store = d.store := rfl
@[simp] theorem Dev.setPow_mc (f : Pow → Pow) : (d.setPow f).mc = d.mc := rfl
@[simp] theorem Dev.setPow_red (f : Pow → Pow) : (d.setPow f).red = d.red := rfl
@[simp] theorem Dev.setPow_srv (f : Pow → Pow) : (d.setPow f).srv = d.srv := rfl
@[simp] theorem Dev.setPow_sched (f : Pow → Pow) : (d.setPow f).sched = d.sched := rfl
@[simp] theorem Dev.setPow_lnk (f : Pow → Pow) : (d.setPow f).lnk = d.lnk := rfl
@[simp] theorem Dev.setPow_mbox (f : Pow → Pow) : (d.setPow f).mbox = d.mbox := rfl
@[simp] theorem Dev.setPow_mgmt (f : Pow → Pow) : (d.setPow f).mgmt = d.mgmt := rfl
@[simp] theorem Dev.setPow_recd (f : Pow → Pow) : (d.setPow f).recd = d.recd := rfl
@[simp] theorem Dev.setPow_sec (f : Pow → Pow) : (d.setPow f).sec = d.sec := rfl
@[simp] theorem Dev.setPow_calendar (f : Pow → Pow) : (d.setPow f).calendar = d.calendar := rfl
@[simp] theorem Dev.setPow_timeSet (f : Pow → Pow) : (d.setPow f).timeSet = d.timeSet := rfl
@[simp] theorem Dev.setPow_opSecs (f : Pow → Pow) : (d.setPow f).opSecs = d.opSecs := rfl
@[simp] theorem Dev.setPow_freeNo (f : Pow → Pow) : (d.setPow f).freeNo = d.freeNo := rfl
@[simp] theorem Dev.setPow_dget (f : Pow → Pow) (key : Nat) : (d.setPow f).dget key = d.dget key := rfl

/-! ### What an update reads back as -/

@[simp] theorem Dev.res_setRes_self (e : Nat) (r : Res) : (d.setRes e r).res e = r := by
  simp [Dev.res, Dev.setRes]

theorem Dev.res_setRes_ne {e k : Nat} (r : Res) (h : k ≠ e) : (d.setRes e r).res k = d.res k := by
  simp [Dev.res, Dev.setRes, SMap.get_put_ne _ _ _ h]

@[simp] theorem Dev.res_modRes_self (e : Nat) (f : Res → Res) : (d.modRes e f).res e = f (d.res e) := by
  simp [Dev.modRes]

theorem Dev.res_modRes_ne {e k : Nat} (f : Res → Res) (h : k ≠ e) : (d.modRes e f).res k = d.res k :=
  Dev.res_setRes_ne d _ h

@[simp] theorem Dev.job_setJob_self (j : Nat) (v : Job) : (d.setJob j v).job j = v := by
  simp [Dev.job, Dev.setJob]

theorem Dev.job_setJob_ne {j k : Nat} (v : Job) (h : k ≠ j) : (d.setJob j v).job k = d.job k := by
  simp [Dev.job, Dev.setJob, SMap.get_put_ne _ _ _ h]

@[simp] theorem Dev.job_modJob_self (j : Nat) (f : Job → Job) : (d.modJob j f).job j = f (d.job j) := by
  simp [Dev.modJob]

theorem Dev.job_modJob_ne {j k : Nat} (f : Job → Job) (h : k ≠ j) : (d.modJob j f).job k = d.job k :=
  Dev.job_setJob_ne d _ h

@[simp] theorem Dev.port_setPort_self (p : Nat) (v : Port) : (d.setPort p v).port p = v := by
  simp [Dev.port, Dev.setPort]

theorem Dev.port_setPort_ne {p q : Nat} (v : Port) (h : q ≠ p) : (d.setPort p v).port q = d.port q := by
  simp [Dev.port, Dev.setPort, SMap.get_put_ne _ _ _ h]

@[simp] theorem Dev.port_modPort_self (p : Nat) (f : Port → Port) : (d.modPort p f).port p = f (d.port p) := by
  simp [Dev.modPort]

theorem Dev.port_modPort_ne {p q : Nat} (f : Port → Port) (h : q ≠ p) : (d.modPort p f).port q = d.port q :=
  Dev.port_setPort_ne d _ h

@[simp] theorem Dev.mbox1_setMbox_self (c : Nat) (m : Mbox) : (d.setMbox c m).mbox1 c = m := by
  simp [Dev.mbox1, Dev.setMbox]

theorem Dev.mbox1_setMbox_ne {c k : Nat} (m : Mbox) (h : k ≠ c) : (d.setMbox c m).mbox1 k = d.mbox1 k := by
  simp [Dev.mbox1, Dev.setMbox, SMap.get_put_ne _ _ _ h]

@[simp] theorem Dev.stream_setStream_self (n : Nat) (x : Stream) : (d.setStream n x).stream n = x := by
  simp [Dev.stream, Dev.setStream, Dev.setSrv]

theorem Dev.stream_setStream_ne {n k : Nat} (x : Stream) (h : k ≠ n) : (d.setStream n x).stream k = d.stream k := by
  simp [Dev.stream, Dev.setStream, Dev.setSrv, SMap.get_put_ne _ _ _ h]

@[simp] theorem Dev.vaneAt_setVane_self (n : Nat) (e : Vane) : (d.setVane n e).vaneAt n = e := by
  simp [Dev.vaneAt, Dev.setVane, Dev.setSrv]

theorem Dev.vaneAt_setVane_ne {n k : Nat} (e : Vane) (h : k ≠ n) : (d.setVane n e).vaneAt k = d.vaneAt k := by
  simp [Dev.vaneAt, Dev.setVane, Dev.setSrv, SMap.get_put_ne _ _ _ h]

@[simp] theorem Dev.sem_setSem_self (n : Nat) (v : Sem) : (d.setSem n v).sem n = v := by
  simp [Dev.sem, Dev.setSem, Dev.setSched]

theorem Dev.sem_setSem_ne {n k : Nat} (v : Sem) (h : k ≠ n) : (d.setSem n v).sem k = d.sem k := by
  simp [Dev.sem, Dev.setSem, Dev.setSched, SMap.get_put_ne _ _ _ h]

@[simp] theorem Dev.vtime_setVtime_self (b j v : Nat) : (d.setVtime b j v).vtime b j = v := by
  simp [Dev.vtime, Dev.setVtime, Dev.setBlk]

@[simp] theorem Dev.forEach_nil {α : Type} (f : Dev → α → Dev) : d.forEach [] f = d := rfl

@[simp] theorem Dev.forEach_cons {α : Type} (x : α) (l : List α) (f : Dev → α → Dev) :
    d.forEach (x :: l) f = (f d x).forEach l f := rfl

/-- What every round of a loop keeps, the loop keeps. -/
theorem Dev.forEach_keeps {α β : Type} (p : Dev → β) (f : Dev → α → Dev) (h : ∀ d x, p (f d x) = p d) (l : List α) :
    ∀ d : Dev, p (d.forEach l f) = p d := by
  induction l with
  | nil => intro d; rfl
  | cons x l ih => intro d; rw [Dev.forEach_cons, ih, h]

theorem updFirst_find {α : Type} (p : α → Bool) (f : α → α) (h : ∀ x, p (f x) = p x) (l : List α) :
    (updFirst p f l).find? p = (l.find? p).map f := by
  induction l with
  | nil => rfl
  | cons x l ih => by_cases hx : p x <;> simp [updFirst, hx, h, ih]

/-- The flight a change was made to, where the change keeps the number. -/
theorem Dev.flight_modFlight (n : Nat) (g : Flight → Flight) (h : ∀ x : Flight, (g x).id = x.id) :
    (d.modFlight n g).flight n = (d.flight n).map g := by
  simp only [Dev.flight, Dev.modFlight, Dev.setSched]
  exact updFirst_find _ _ (fun x => by simp [h]) _

end Sys2Proof.Machine
end

