-- ==== Sys2Proof/Laws/Acc.lean ====
section
/-! SUPPORT. What the accumulator memory of a block reads as after its writes (R11, R92, R93, R100). -/

namespace Sys2Proof.Machine

theorem accKey_inj {b slot row p b' slot' row' p' : Nat} (hs : slot < 128) (hs' : slot' < 128) (hr : row < 64) (hr' : row' < 64)
    (hp : p < 65) (hp' : p' < 65) (h : accKey b slot row p = accKey b' slot' row' p') :
    b = b' ∧ slot = slot' ∧ row = row' ∧ p = p' := by
  unfold accKey at h; omega

theorem Dev.physCol_lt (d : Dev) (b : Nat) {c : Nat} (h : c < 64) : d.physCol b c < 65 := by
  unfold Dev.physCol; split <;> omega

theorem Dev.writeRow_dget (d : Dev) (b slot row : Nat) (f : Nat → Option (BitVec 32)) (k : Nat) :
    (d.writeRow b slot row f).dget k = d.dget k := rfl

theorem Dev.writeRow_physCol (d : Dev) (b slot row : Nat) (f : Nat → Option (BitVec 32)) (b' c : Nat) :
    (d.writeRow b slot row f).physCol b' c = d.physCol b' c := rfl

/-- A row written reads back in its logical columns; every other entry is as it was. -/
theorem Dev.writeRow_get (d : Dev) (b slot row : Nat) (f : Nat → Option (BitVec 32)) {b' slot' row' c : Nat}
    (hs : slot < 128) (hs' : slot' < 128) (hr : row < 64) (hr' : row' < 64) (hc : c < 64) :
    (d.writeRow b slot row f).accGet b' slot' row' c =
      if b' = b ∧ slot' = slot ∧ row' = row then (f c).getD (d.accGet b slot row c) else d.accGet b' slot' row' c := by
  have hp := d.physCol_lt b' hc
  unfold Dev.accGet
  rw [d.writeRow_physCol]
  unfold Dev.writeRow
  dsimp only [Dev.setMem]
  rw [SMap.get_writeRun]
  simp only [List.length_map, List.length_zipIdx, SMap.readRun_length]
  by_cases h : accKey b slot row 0 ≤ accKey b' slot' row' (d.physCol b' c) ∧
      accKey b' slot' row' (d.physCol b' c) < accKey b slot row 0 + 65
  · rw [if_pos h]
    have hk : accKey b' slot' row' (d.physCol b' c) = accKey b slot row (accKey b' slot' row' (d.physCol b' c) - accKey b slot row 0) := by
      unfold accKey at h ⊢; omega
    obtain ⟨rfl, rfl, rfl, he⟩ := accKey_inj hs' hs hr' hr hp (by unfold accKey at h ⊢; omega) hk
    rw [if_pos (show b' = b' ∧ slot' = slot' ∧ row' = row' from ⟨rfl, rfl, rfl⟩), ← he]
    have hlen : d.physCol b' c < (SMap.readRun 0 d.mem.acc (accKey b' slot' row' 0) 65).length := by simpa using hp
    have hg : (SMap.readRun (0 : BitVec 32) d.mem.acc (accKey b' slot' row' 0) 65)[d.physCol b' c]'hlen =
        SMap.get 0 d.mem.acc (accKey b' slot' row' (d.physCol b' c)) := by
      simp [SMap.readRun_eq, accKey]
    rw [List.getD_eq_getElem?_getD, List.getElem?_map, List.getElem?_zipIdx, List.getElem?_eq_getElem hlen]
    simp only [Option.map_some, Option.getD_some, hg, Nat.zero_add]
    by_cases hm : d.dget (O.SPARE_COLUMN_MAP b') = c
    · have hpc : d.physCol b' c = 64 := by simp [Dev.physCol, hm]
      simp [hpc, hm, hc]
    · have hpc : d.physCol b' c = c := by simp [Dev.physCol, hm]
      have h1 : c ≠ 64 := by omega
      have h2 : c ≠ d.dget (O.SPARE_COLUMN_MAP b') := fun h => hm h.symm
      simp [hpc, h1, h2]
  · rw [if_neg h, if_neg]
    rintro ⟨rfl, rfl, rfl⟩
    apply h
    unfold accKey; omega

/-- Physical row of row `m` of sub-slot `s`, and the element of the sub-slot in a logical column. -/
def Shape.row (sh : Shape) (s m : Nat) : Nat := if sh.colMerge then m else sh.x * m + s

def Shape.col (sh : Shape) (s c : Nat) : Option Nat :=
  if sh.colMerge then (if c % sh.x = s then some (c / sh.x) else none) else some c

/-- The word written to slot `slot'` for element value `v`, if any. -/
def subWord (wide : Bool) (slot slot' : Nat) (v : Int) : Option (BitVec 32) :=
  if slot' = slot then some (BitVec.ofNat 32 (toUns (if wide then 64 else 32) v))
  else if wide ∧ slot' = slot + 1 then some (BitVec.ofNat 32 (toUns 64 v / 2 ^ 32)) else none

/-- One row of `subWrite`. -/
def Dev.subWriteRow (d : Dev) (b : Nat) (sh : Shape) (wide : Bool) (slot s : Nat) (val : Nat → Nat → Int) (m : Nat) : Dev :=
  let lo := d.writeRow b slot (sh.row s m) (fun c => (sh.col s c).map (fun n => BitVec.ofNat 32 (toUns (if wide then 64 else 32) (val m n))))
  if wide then lo.writeRow b (slot + 1) (sh.row s m) (fun c => (sh.col s c).map (fun n => BitVec.ofNat 32 (toUns 64 (val m n) / 2 ^ 32))) else lo

theorem Dev.subWriteRow_get (d : Dev) (b : Nat) (sh : Shape) (wide : Bool) (slot s : Nat) (val : Nat → Nat → Int) (m : Nat)
    {b' slot' r c : Nat} (hs : slot + 1 < 128) (hs' : slot' < 128) (hm : sh.row s m < 64) (hr : r < 64) (hc : c < 64) :
    (d.subWriteRow b sh wide slot s val m).accGet b' slot' r c =
      if b' = b ∧ r = sh.row s m then ((sh.col s c).bind (fun n => subWord wide slot slot' (val m n))).getD (d.accGet b' slot' r c)
      else d.accGet b' slot' r c := by
  unfold Dev.subWriteRow
  cases wide
  · simp only [Bool.false_eq_true, if_false]
    rw [d.writeRow_get b slot _ _ (by omega) hs' hm hr hc]
    by_cases hb : b' = b <;> by_cases hrr : r = sh.row s m <;> by_cases hsl : slot' = slot <;>
      simp [hb, hrr, hsl, subWord] <;> (cases sh.col s c <;> simp)
  · simp only [if_true]
    rw [Dev.writeRow_get _ b (slot + 1) _ _ (by omega) hs' hm hr hc, Dev.writeRow_get _ b slot _ _ (by omega) (by omega) hm hm hc,
      Dev.writeRow_get _ b slot _ _ (by omega) hs' hm hr hc]
    by_cases hb : b' = b <;> by_cases hrr : r = sh.row s m <;> by_cases hsl : slot' = slot <;>
      by_cases hsl2 : slot' = slot + 1 <;>
      simp [hb, hrr, hsl, hsl2, subWord] <;> first | omega | (cases sh.col s c <;> simp)

theorem Dev.subWriteRows_get (d : Dev) (b : Nat) (sh : Shape) (wide : Bool) (slot s : Nat) (val : Nat → Nat → Int)
    {b' slot' r c : Nat} (hs : slot + 1 < 128) (hs' : slot' < 128) (hr : r < 64) (hc : c < 64)
    (hinj : ∀ m m', sh.row s m = sh.row s m' → m = m') (k : Nat) (hm : ∀ m < k, sh.row s m < 64) :
    (d.forEach (List.range k) (fun d m => d.subWriteRow b sh wide slot s val m)).accGet b' slot' r c =
      if b' = b then
        (((List.range k).find? (fun m => sh.row s m == r)).bind (fun m =>
          (sh.col s c).bind (fun n => subWord wide slot slot' (val m n)))).getD (d.accGet b' slot' r c)
      else d.accGet b' slot' r c := by
  induction k with
  | zero => simp
  | succ k ih =>
    have ih := ih (fun m h => hm m (by omega))
    rw [List.range_succ, Dev.forEach, List.foldl_append, List.foldl_cons, List.foldl_nil]
    have e : (List.range k).foldl (fun d m => d.subWriteRow b sh wide slot s val m) d =
        d.forEach (List.range k) (fun d m => d.subWriteRow b sh wide slot s val m) := rfl
    rw [e, Dev.subWriteRow_get _ b sh wide slot s val k hs hs' (hm k (by omega)) hr hc, ih]
    by_cases hb : b' = b
    · by_cases hk : r = sh.row s k
      · subst hk
        have hnone : (List.range k).find? (fun m => sh.row s m == sh.row s k) = none := by
          rw [List.find?_eq_none]
          intro m hmm heq
          have := hinj m k (by rw [beq_iff_eq] at heq; exact heq)
          simp at hmm; omega
        simp [hb, List.find?_append, hnone]
      · have hk' : ¬ sh.row s k = r := fun h => hk h.symm
        simp [hb, hk, List.find?_append, hk']
    · simp [hb]

end Sys2Proof.Machine
end

