-- ==== Sys2Proof/Laws/Flight.lean ====
section
/-! SUPPORT. What starting and finishing a descriptor change: its flight, its pins and the segments they free; nothing of the
reduction unit, and of the scheduler only the flights. -/

namespace Sys2Proof.Machine

theorem Dev.setTierMem_apart (d : Dev) (h : Nat) (m : SMap Byte) :
    (d.setTierMem h m).red = d.red ∧ (d.setTierMem h m).sched = d.sched := by
  unfold Dev.setTierMem; split <;> exact ⟨rfl, rfl⟩

theorem Dev.setCharge_apart (d : Dev) (t e j n : Nat) :
    (d.setCharge t e j n).red = d.red ∧ (d.setCharge t e j n).sched = d.sched := ⟨rfl, rfl⟩

theorem Dev.freeSeg_apart (d : Dev) (e : Nat) : (d.freeSeg e).red = d.red ∧ (d.freeSeg e).sched = d.sched := by
  unfold Dev.freeSeg; dsimp only [Dev.setStore, Dev.setRes, Dev.frameErase]
  have a := Dev.setCharge_apart d 0 e (d.res e).owner 0
  have b := Dev.setCharge_apart (d.setCharge 0 e (d.res e).owner 0) 1 e (d.res e).owner 0
  have c := fun m => Dev.setTierMem_apart ((d.setCharge 0 e (d.res e).owner 0).setCharge 1 e (d.res e).owner 0) (d.res e).homeNo m
  exact ⟨(c _).1.trans (b.1.trans a.1), (c _).2.trans (b.2.trans a.2)⟩

theorem Dev.dropPin_apart (d : Dev) (p : Nat × Bool) : (d.dropPin p).red = d.red ∧ (d.dropPin p).sched = d.sched := by
  have : ∀ d e, (Dev.unpinSeg d e).red = d.red ∧ (Dev.unpinSeg d e).sched = d.sched := by
    intro d e; unfold Dev.unpinSeg; dsimp only; split
    · exact Dev.freeSeg_apart _ _
    · exact ⟨rfl, rfl⟩
  unfold Dev.dropPin; split
  · exact this _ _
  · exact this _ _

/-- A flight, once found, carries the number it was looked up by. -/
theorem Dev.flight_id {d : Dev} {f : Nat} {x : Flight} (h : d.flight f = some x) : x.id = f := by
  unfold Dev.flight at h; simpa using List.find?_some h

theorem Dev.flight_congr {d e : Dev} (h : e.sched = d.sched) (f : Nat) : e.flight f = d.flight f := by
  unfold Dev.flight; rw [h]

/-- Another flight's record is not touched. -/
theorem updFirst_find_ne {α : Type} (p q : α → Bool) (g : α → α) (hq : ∀ x, p x = true → q x = false) (hg : ∀ x, p x = true → q (g x) = false)
    (l : List α) : (updFirst p g l).find? q = l.find? q := by
  induction l with
  | nil => rfl
  | cons a l ih =>
    unfold updFirst
    by_cases h : p a = true
    · rw [if_pos h]; simp [hq a h, hg a h]
    · rw [if_neg h]; simp [List.find?_cons, ih]

theorem Dev.flight_modFlight_ne (d : Dev) (f k : Nat) (g : Flight → Flight) (hg : ∀ x : Flight, (g x).id = x.id) (hk : k ≠ f) :
    (d.modFlight f g).flight k = d.flight k := by
  refine updFirst_find_ne _ _ g (fun x hx => ?_) (fun x hx => ?_) _
  · simp only [beq_iff_eq] at hx; simp [hx, Ne.symm hk]
  · simp only [beq_iff_eq] at hx; simp [hg, hx, Ne.symm hk]

theorem Dev.start_red (d : Dev) (f : Nat) : (d.start f).red = d.red := by unfold Dev.start; split <;> rfl

theorem Dev.start_flight {d : Dev} {f : Nat} {x : Flight} (h : d.flight f = some x) :
    (d.start f).flight f = some { x with started := true } := by
  unfold Dev.start; rw [h]
  have := Dev.flight_modFlight d f (fun x => { x with started := true }) (fun _ => rfl)
  rw [h] at this; exact this

theorem Dev.start_flight_ne (d : Dev) {f k : Nat} (hk : k ≠ f) : (d.start f).flight k = d.flight k := by
  unfold Dev.start; split
  · rfl
  · exact Dev.flight_modFlight_ne d f k (fun x => { x with started := true }) (fun _ => rfl) hk

theorem Dev.dropPins_apart (d : Dev) (f : Nat) (p : Nat × Bool → Bool) :
    (d.dropPins f p).red = d.red ∧ (∀ k, k ≠ f → (d.dropPins f p).flight k = d.flight k) := by
  unfold Dev.dropPins; split
  · exact ⟨rfl, fun _ _ => rfl⟩
  · next x _ =>
    refine ⟨Dev.forEach_keeps Dev.red _ (fun d p => (Dev.dropPin_apart d p).1) _ d, fun k hk => ?_⟩
    refine (Dev.flight_modFlight_ne _ f k (fun y : Flight => { y with pins := y.pins.filter (fun q => !p q) }) (fun _ => rfl) hk).trans ?_
    exact Dev.flight_congr (Dev.forEach_keeps Dev.sched _ (fun d p => (Dev.dropPin_apart d p).2) _ d) k

theorem Dev.releasePins_red (d : Dev) (f : Nat) : (d.releasePins f).red = d.red := by
  unfold Dev.releasePins; split
  · rfl
  · dsimp only; split <;> exact (Dev.dropPins_apart d f _).1

theorem Dev.releasePins_flight {d : Dev} {f : Nat} {x : Flight} (h : d.flight f = some x) :
    (d.releasePins f).flight f = some { x with pins := [] } := by
  have : (d.dropPins f (fun _ => true)).flight f = some { x with pins := [] } := by
    unfold Dev.dropPins; rw [h]; dsimp only
    refine (Dev.flight_modFlight _ f (fun y : Flight => { y with pins := y.pins.filter (fun q => !(fun _ => true) q) }) (fun _ => rfl)).trans ?_
    rw [Dev.flight_congr (Dev.forEach_keeps Dev.sched _ (fun d p => (Dev.dropPin_apart d p).2) _ d) f, h]; simp
  unfold Dev.releasePins; rw [h]; dsimp only
  split
  · exact this
  · exact this

theorem Dev.releasePins_flight_ne (d : Dev) {f k : Nat} (hk : k ≠ f) : (d.releasePins f).flight k = d.flight k := by
  unfold Dev.releasePins; split
  · rfl
  · dsimp only; split <;> exact (Dev.dropPins_apart d f _).2 k hk

theorem Dev.finish_red (d : Dev) (f st : Nat) : (d.finish f st).red = d.red := Dev.releasePins_red d f

/-- Finishing decides the status of a descriptor that has none and drops its pins. -/
theorem Dev.finish_flight {d : Dev} {f : Nat} (st : Nat) {x : Flight} (h : d.flight f = some x) (hd : x.done = none) :
    (d.finish f st).flight f = some { x with pins := [], done := some st } := by
  unfold Dev.finish
  rw [Dev.flight_modFlight _ _ _ (fun x => by split <;> rfl), Dev.releasePins_flight h]
  simp [hd]

theorem Dev.finish_flight_ne (d : Dev) {f k : Nat} (st : Nat) (hk : k ≠ f) : (d.finish f st).flight k = d.flight k := by
  unfold Dev.finish
  rw [Dev.flight_modFlight_ne _ _ _ _ (fun x => by split <;> rfl) hk, Dev.releasePins_flight_ne _ hk]

/-- What changes of the scheduler and the block table keep, finishing a descriptor without pins keeps. -/
theorem Dev.finish_keeps {β : Type} (p : Dev → β) (hs : ∀ d f, p (Dev.setSched d f) = p d) (hb : ∀ d f, p (Dev.setBlk d f) = p d)
    {d : Dev} {f : Nat} (st : Nat) {x : Flight} (h : d.flight f = some x) (hp : x.pins = []) : p (d.finish f st) = p d := by
  unfold Dev.finish Dev.releasePins Dev.dropPins
  rw [h]; dsimp only; rw [hp]; dsimp only [List.filter_nil, Dev.forEach_nil]
  show p (Dev.setSched _ _) = _
  rw [hs]
  split
  · rw [hb]; exact hs _ _
  · exact hs _ _

theorem Dev.modFlight_sched (d : Dev) (n : Nat) (g : Flight → Flight) :
    (d.modFlight n g).sched = { d.sched with flights := (d.modFlight n g).sched.flights } := rfl

/-- Of the scheduler, finishing a descriptor changes the flights. -/
theorem Dev.finish_sched (d : Dev) (f st : Nat) : (d.finish f st).sched = { d.sched with flights := (d.finish f st).sched.flights } := by
  have h1 : ∀ p, (d.dropPins f p).sched = { d.sched with flights := (d.dropPins f p).sched.flights } := by
    intro p
    unfold Dev.dropPins; split
    · rfl
    · next x _ =>
      have e := Dev.forEach_keeps Dev.sched Dev.dropPin (fun d p => (Dev.dropPin_apart d p).2) (x.pins.filter p) d
      rw [Dev.modFlight_sched, e]
  have h2 : (d.releasePins f).sched = { d.sched with flights := (d.releasePins f).sched.flights } := by
    unfold Dev.releasePins; split
    · rfl
    · dsimp only; split <;> exact h1 _
  unfold Dev.finish
  rw [Dev.modFlight_sched, h2]

end Sys2Proof.Machine
end

