-- ==== Sys2Proof/Laws/Frame.lean ====
section
/-! SUPPORT. What the operations that tell the outside leave alone: recording an event, notifying a manager and sending a
message change no more than `Safety.Told` allows. -/

namespace Sys2Proof.Laws

open Sys2Proof.Machine Sys2Proof.Safety

theorem told_refl (d : Dev) : Told d d :=
  ⟨rfl, fun _ _ => rfl, rfl, fun _ => ⟨[], by simp⟩, rfl⟩

theorem told_trans {a b c : Dev} (h : Told a b) (k : Told b c) : Told a c := by
  refine ⟨?_, fun x hx => (k.keys x hx).trans (h.keys x hx), ?_, fun p => ?_, ?_⟩
  · rw [k.rest, h.rest]
  · rw [k.lnk, h.lnk]
  · obtain ⟨l, hl⟩ := h.ports p
    obtain ⟨m, hm⟩ := k.ports p
    exact ⟨l ++ m, by rw [hm, hl]; simp⟩
  · rw [k.mgmt, h.mgmt]

theorem told_dset (d : Dev) (k v : Nat) (hk : tellKey k = true) : Told d (d.dset k v) := by
  refine ⟨rfl, fun x hx => Dev.dget_dset_ne d v ?_, rfl, fun p => ⟨[], by simp [Dev.port]⟩, rfl⟩
  rintro rfl; simp [hk] at hx

theorem told_bump (d : Dev) (k : Nat) (hk : tellKey k = true) : Told d (d.bump k) := told_dset d k _ hk

theorem told_setRec (d : Dev) (r : Recorder) : Told d (d.setRec r) :=
  ⟨rfl, fun _ _ => rfl, rfl, fun p => ⟨[], by simp [Dev.port]⟩, rfl⟩

theorem told_mgmt (d : Dev) (n : Nat) (l : List (Nat × Nat)) (o : List Datagram) :
    Told d { d with mgmt := { d.mgmt with notifySeq := n, notifyTimes := l, t1sOut := o } } :=
  ⟨rfl, fun _ _ => rfl, rfl, fun p => ⟨[], by simp [Dev.port]⟩, rfl⟩

theorem told_seq {d e : Dev} (h : Told d e) (n : Nat) : Told d { e with mgmt := { e.mgmt with notifySeq := n } } :=
  told_trans h (told_mgmt e n _ _)

theorem told_sent {d e : Dev} (h : Told d e) (l : List (Nat × Nat)) :
    Told d { e.bump O.NOTIFY_SENT with mgmt := { (e.bump O.NOTIFY_SENT).mgmt with notifyTimes := l } } :=
  told_trans h (told_trans (told_bump e O.NOTIFY_SENT (by decide)) (told_mgmt _ _ l _))

theorem told_nextSeq (d : Dev) (dst vc : Nat) : Told d (d.nextSeq dst vc).2 := by
  unfold Dev.nextSeq
  split
  · exact told_refl d
  · exact ⟨rfl, fun _ _ => rfl, rfl, fun p => ⟨[], by simp [Dev.port]⟩, rfl⟩

theorem told_emit (d : Dev) (p vc : Nat) (y : Option Nat) (bs : Bytes) : Told d (d.emit p vc y bs) := by
  refine ⟨rfl, fun _ _ => rfl, rfl, fun q => ?_, rfl⟩
  by_cases h : q = p
  · subst h; exact ⟨_, by rw [Dev.emit, Dev.port_modPort_self]⟩
  · exact ⟨[], by rw [Dev.emit, Dev.port_modPort_ne d _ h]; simp⟩

theorem told_transit (d : Dev) (y : Option Nat) (m : Msg) : Told d (d.transit 16 y m) := by
  simp only [Dev.transit, show ¬(16 : Nat) < 16 by omega, if_false]
  cases d.destOf m.hdr.dst m.hdr.dstHost with
  | here => exact told_refl d
  | host p =>
    dsimp only; split
    · exact told_bump d _ (by decide)
    · exact told_emit d _ _ _ _
  | out p =>
    dsimp only; split
    · exact told_bump d _ (by decide)
    · exact told_emit d _ _ _ _
  | noHost => exact told_bump d _ (by decide)
  | unreachable => exact told_bump d _ (by decide)

/-- Originating a message queues it, or drops and counts it. -/
theorem told_sendMsg (d : Dev) (vc kind dst : Nat) (h : Bool) (sj sc : Nat) (y : Option Nat) (b : Bytes) :
    Told d (d.sendMsg vc kind dst h sj sc y b) := told_trans (told_nextSeq d dst vc) (told_transit _ _ _)

theorem told_sendOwner (d : Dev) (j vc kind : Nat) (b : Bytes) : Told d (d.sendOwner j vc kind b) := by
  unfold Dev.sendOwner; dsimp only; split
  · exact told_sendMsg ..
  · exact told_refl d

theorem told_forEach {α : Type} (l : List α) (f : Dev → α → Dev) (h : ∀ d x, Told d (f d x)) :
    ∀ d : Dev, Told d (d.forEach l f) := by
  induction l with
  | nil => exact told_refl
  | cons x l ih => intro d; exact told_trans (h d x) (ih _)

theorem told_notifyOne (d : Dev) (k : Nat) (go : Dev → Option Dev) (h : ∀ e, go d = some e → Told d e) :
    Told d (notifyOne d k go) := by
  unfold notifyOne
  split
  · exact told_bump d _ (by decide)
  · split
    · exact told_bump d _ (by decide)
    · next e he => exact told_sent (h e he) _

theorem told_notify (d : Dev) (r : Rec) (w : Word512) : Told d (notify d r w) := by
  unfold notify
  split
  · exact told_refl d
  · dsimp only
    apply told_seq
    generalize d.mgmt.notifySeq = seq
    have hf := told_forEach (List.range 4) (fun (d : Dev) (k : Nat) =>
      if d.dget (O.NOTIFY_DEST k) = 0 then d
      else notifyOne d k (fun x => some (x.t1s ⟨0, fld (d.dget (O.NOTIFY_DEST k)) 0 48, fld (d.dget (O.NOTIFY_DEST k)) 48 16,
        ckHdr 5 seq 1 0 true ++ ckItem 0 0 8 0 (wordBytes w)⟩))) (fun d k => by
          split
          · exact told_refl d
          · exact told_notifyOne d k _ (fun e he => by cases he; exact told_mgmt _ _ _ _)) d
    split
    · refine told_trans hf (told_notifyOne _ _ _ (fun e he => ?_))
      simp only [Option.map_eq_some_iff] at he
      obtain ⟨h, -, rfl⟩ := he
      exact told_sendMsg ..
    · exact hf

/-- Severities are three bits wide (R473). -/
theorem tellKey_sev (n : Nat) (h : n < 8) : tellKey (O.RECORDS_BY_SEVERITY n) = true := by
  have : decide (O.RECORDS_BY_SEVERITY 0 ≤ O.RECORDS_BY_SEVERITY n ∧ O.RECORDS_BY_SEVERITY n < O.RECORDS_BY_SEVERITY 8) = true := by
    rw [decide_eq_true_eq]; unfold O.RECORDS_BY_SEVERITY; omega
  simp only [tellKey, this, Bool.or_true]

theorem told_writeRecord (d : Dev) (r : Rec) (hs : r.ev.severity < 8) : Told d (writeRecord d r) := by
  unfold writeRecord
  dsimp only
  refine told_trans ?_ (told_notify _ _ _)
  split
  all_goals first
    | exact told_trans (told_trans (told_trans (told_setRec d _) (told_dset _ _ _ (by decide))) (told_bump _ _ (tellKey_sev _ hs))) (told_dset _ _ _ (by decide))
    | exact told_trans (told_trans (told_setRec d _) (told_dset _ _ _ (by decide))) (told_bump _ _ (tellKey_sev _ hs))

theorem told_alertFor (d : Dev) (sev no : Nat) : Told d (alertFor d sev no) := by
  unfold alertFor
  split
  · exact told_refl d
  · dsimp only
    split
    · exact told_trans (told_setRec d _) (told_dset _ _ _ (by decide))
    · exact told_setRec d _

theorem told_loseRec (d : Dev) (no : Nat) (b : Bool) : Told d (loseRec d no b) := by
  have h : ∀ k : Nat, tellKey k = true → ∀ r, Told d ((d.bump k).setRec r) :=
    fun k hk r => told_trans (told_bump d k hk) (told_setRec _ _)
  unfold loseRec
  dsimp only
  split <;> split
  · exact told_trans (h _ (by decide) _) (told_trans (told_setRec _ _) (told_dset _ _ _ (by decide)))
  · exact told_trans (h _ (by decide) _) (told_trans (told_setRec _ _) (told_dset _ _ _ (by decide)))
  · exact h _ (by decide) _
  · exact h _ (by decide) _

theorem told_acceptEvent (d : Dev) (ev : EventIn) (hs : ev.severity < 8) : Told d (acceptEvent d ev) := by
  unfold acceptEvent
  dsimp only
  have h := told_trans (told_setRec d { d.recd with nextNo := d.recd.nextNo + 1 }) (told_alertFor _ ev.severity d.recd.nextNo)
  split
  · split
    · exact told_trans h (told_trans (told_setRec _ _) (told_writeRecord _ _ hs))
    · exact told_trans h (told_writeRecord _ _ hs)
  · split
    · split
      · exact told_trans h (told_setRec _ _)
      · exact told_trans h (told_loseRec _ _ _)
    · split
      · split
        · exact told_trans h (told_setRec _ _)
        · exact told_trans h (told_setRec _ _)
      · exact told_trans h (told_loseRec _ _ _)

/-- Raising an event changes no more than telling does. -/
theorem told_raise (d : Dev) (ev : EventIn) (hs : ev.severity < 8) : Told d (d.raise ev) := by
  have h : Told d (d.outageStarts ev.code) := by
    unfold Dev.outageStarts
    split
    · exact told_setRec d _
    · exact told_refl d
  unfold Dev.raise
  dsimp only
  split
  · exact told_trans h (told_acceptEvent _ ev hs)
  · exact told_trans h (told_setRec _ _)

theorem told_event (d : Dev) (c l o : Nat) {s : Nat} (b : Bytes) (hs : s < 8) : Told d (d.event c s l o b) := told_raise d _ hs
theorem told_eventJ (d : Dev) (c l o j t : Nat) {s : Nat} (b : Bytes) (hs : s < 8) : Told d (d.eventJ c s l o j t b) := told_raise d _ hs

end Sys2Proof.Laws
end

