-- ==== Sys2Proof/Laws/Kept.lean ====
section
/-! SUPPORT. What every operation on the whole machine keeps: the queue stands as it is, one-time storage only grows and
stays within its fuses. One lemma per operation that takes a `State`; an operation on `Dev` touches neither. -/

namespace Sys2Proof.Laws

open Sys2Proof.Machine Sys2Proof.Safety

/-- The queue is as it was, one-time storage has only grown (R484). -/
structure Kept (s t : State) : Prop where
  pending : t.pending = s.pending
  grows : OtpGrows s.otp t.otp
  range : OtpInRange s.otp → OtpInRange t.otp

theorem otpGrows_refl (o : Otp) : OtpGrows o o := ⟨fun _ _ h => h, le_refl _, le_refl _⟩

theorem otpGrows_trans {a b c : Otp} (h : OtpGrows a b) (k : OtpGrows b c) : OtpGrows a c :=
  ⟨fun i hi x => k.1 i hi (h.1 i hi x), h.2.1.trans k.2.1, h.2.2.trans k.2.2⟩

theorem kept_dev (s : State) (d : Dev) : Kept s { s with dev := d } := ⟨rfl, otpGrows_refl _, fun h => h⟩

theorem kept_refl (s : State) : Kept s s := kept_dev s s.dev

theorem kept_trans {a b c : State} (h : Kept a b) (k : Kept b c) : Kept a c :=
  ⟨k.pending.trans h.pending, otpGrows_trans h.grows k.grows, fun x => k.range (h.range x)⟩

theorem kept_dev_of {s t : State} (h : Kept s t) (d : Dev) : Kept s { t with dev := d } := kept_trans h (kept_dev t d)

theorem kept_of_dev {s : State} {d : Dev} {t : State} (h : Kept { s with dev := d } t) : Kept s t := kept_trans (kept_dev s d) h

theorem kept_ite {c : Prop} [Decidable c] {s : State} {a b : Nat × State} (ha : Kept s a.2) (hb : Kept s b.2) :
    Kept s (if c then a else b).2 := by split <;> assumption

theorem kept_foldl {α : Type} (f : State → α → State) (h : ∀ s x, Kept s (f s x)) (l : List α) : ∀ s, Kept s (l.foldl f s) := by
  induction l with
  | nil => exact kept_refl
  | cons x l ih => intro s; exact kept_trans (h s x) (ih _)

/-! ### Boot and debug access -/

theorem kept_boot (s : State) (c : Nat) : Kept s (boot s c) := by
  unfold boot
  dsimp only
  split
  · exact kept_refl s
  · split
    · exact kept_dev s _
    · next hf =>
      refine ⟨rfl, ⟨fun i _ h => ?_, Nat.le_max_left _ _, le_refl _⟩, fun h => ⟨?_, h.2⟩⟩
      · simp only [burn, BitVec.getLsbD_or, h, Bool.true_or]
      · refine Nat.max_le.2 ⟨h.1, ?_⟩
        by_contra hg
        unfold imageFault at hf
        simp only [Nat.not_le] at hg
        simp [hg] at hf
        split at hf <;> first | (simp at hf; done) | (split at hf <;> first | (simp at hf; done) | (split at hf <;> simp at hf))

theorem kept_tokenWrite (s : State) (t : Bytes) : Kept s (tokenWrite s t).2 := by
  unfold tokenWrite
  split
  · exact kept_refl s
  · next hr =>
    dsimp only
    split
    · exact kept_dev s _
    · refine ⟨rfl, ⟨fun _ _ h => h, le_refl _, Nat.le_succ _⟩, fun h => ⟨h.1, ?_⟩⟩
      have : ¬255 ≤ s.otp.debugOpened := by
        intro hc; simp [tokenRefused, hc] at hr
      show s.otp.debugOpened + 1 ≤ 255
      omega

/-! ### Chodal packets -/

theorem kept_accepted (s : State) (r : Dev × Bool) : Kept s (accepted s r).2 := kept_dev s _

theorem kept_jobCommand (s : State) (j v : Nat) : Kept s (jobCommand s j v).2 := by
  unfold jobCommand; split <;> first | exact kept_accepted s _ | exact kept_refl s

theorem kept_lullCommand (s : State) (v : Nat) : Kept s (lullCommand s v).2 := by
  unfold lullCommand; dsimp only
  split
  · split <;> first | exact kept_refl s | exact kept_dev s _
  · split <;> first | exact kept_refl s | exact kept_dev s _

theorem kept_recorderCommand (s : State) (v : Nat) : Kept s (recorderCommand s v).2 := by
  unfold recorderCommand; dsimp only
  split
  · split <;> first | exact kept_refl s | exact kept_dev s _
  · split <;> first | exact kept_refl s | exact kept_dev s _

theorem kept_applyNum (s : State) (i sub v : Nat) : Kept s (applyNum s i sub v).2 := by
  unfold applyNum; dsimp only
  repeat' first
    | exact kept_dev s _
    | exact kept_lullCommand s _
    | exact kept_recorderCommand s _
    | exact kept_jobCommand s _ _
    | exact kept_refl s
    | refine kept_ite ?_ ?_
    | split

theorem kept_setNum (s : State) (o : Obj) (i sub v : Nat) : Kept s (setNum s o i sub v).2 := by
  unfold setNum
  split
  · exact kept_refl s
  · split
    · exact kept_dev s _
    · exact kept_applyNum s i sub v

theorem kept_setBlob (s : State) (k : Nat) (v : Bytes) : Kept s (setBlob s k v).2 := by
  unfold setBlob
  repeat' split
  all_goals first
    | exact kept_refl s
    | exact kept_dev s _
    | exact kept_tokenWrite s v

theorem kept_setVendor (s : State) (it : CkItem) : Kept s (setVendor s it).2 := by
  unfold setVendor; dsimp only
  repeat' split
  all_goals first
    | exact kept_refl s
    | exact kept_dev s _

theorem kept_setItem (s : State) (it : CkItem) : Kept s (setItem s it).2 := by
  unfold setItem
  repeat' first
    | exact kept_setVendor s _
    | exact kept_setBlob s _ _
    | exact kept_setNum s _ _ _ _
    | exact kept_refl s
    | refine kept_ite ?_ ?_
    | split

theorem kept_setItems (its : List CkItem) : ∀ s, Kept s (setItems its s).2 := by
  induction its with
  | nil => exact kept_refl
  | cons it its ih => intro s; exact kept_trans (kept_setItem s it) (ih _)

theorem kept_setUnstored (s : State) (its : List CkItem) (sts : List Nat) (a : Bool) : Kept s (setUnstored s its sts a).2 := by
  unfold setUnstored; dsimp only
  refine kept_dev_of ?_ _
  split
  · exact kept_refl s
  · refine kept_foldl _ (fun s it => ?_) _ _
    split
    · exact kept_refl s
    · exact kept_setItem s it

theorem kept_setAll (s : State) (its : List CkItem) (a : Bool) : Kept s (setAll s its a).2 := by
  unfold setAll; dsimp only
  repeat' split
  · exact kept_refl s
  · exact kept_setUnstored s _ _ _
  · exact kept_dev_of (kept_setItems its s) _
  · exact kept_setItems its s

theorem kept_setPacket (s : State) (src : ChodalSrc) (pkt : Bytes) (its : List CkItem) : Kept s (setPacket s src pkt its) := by
  unfold setPacket
  split
  · exact kept_dev s _
  · split
    · exact kept_dev s _
    · exact kept_dev_of (kept_setAll s its _) _

theorem kept_readPacket (s : State) (src : ChodalSrc) (pkt : Bytes) (its : List CkItem) (f : Gather → CkItem → Gather)
    (h : ∀ g it, Kept g.s (f g it).s) : Kept s (readPacket s src pkt its f) := by
  have hf : ∀ (l : List CkItem) (g : Gather), Kept g.s (l.foldl f g).s := by
    intro l
    induction l with
    | nil => exact fun g => kept_refl _
    | cons it l ih => exact fun g => kept_trans (h g it) (ih _)
  unfold readPacket
  split
  · exact kept_dev s _
  · exact kept_dev_of (hf its ⟨[], ckOk, s⟩) _

theorem kept_add {g : Gather} {it : CkItem} {ty st : Nat} {v : Bytes} {s t : State} (h : Kept s t) : Kept s (g.add it ty st v t).s := h

theorem kept_readObject (s : State) (i sub : Nat) : Kept s (readObject s i sub).after := by
  unfold readObject; dsimp only
  repeat' first | exact kept_dev s _ | exact kept_refl s | split

theorem kept_getItem (g : Gather) (it : CkItem) : Kept g.s (getItem g it).s := by
  unfold getItem; dsimp only
  split
  · exact kept_refl _
  · exact kept_readObject g.s _ _

theorem kept_partItem (g : Gather) (it : CkItem) : Kept g.s (partItem g it).s := by
  unfold partItem; dsimp only
  split
  · exact kept_refl _
  · split
    · exact kept_refl _
    · exact kept_readObject g.s _ _

theorem kept_listItem (g : Gather) (it : CkItem) : Kept g.s (listItem g it).s := by
  unfold listItem; split <;> exact kept_refl _

theorem kept_handle (s : State) (src : ChodalSrc) (pkt : Bytes) : Kept s (handle s src pkt) := by
  unfold handle; dsimp only
  split
  · exact kept_dev s _
  · split
    · exact kept_dev s _
    · split
      · exact kept_readPacket s _ _ _ _ kept_getItem
      · exact kept_setPacket s _ _ _
      · exact kept_readPacket s _ _ _ _ kept_partItem
      · exact kept_readPacket s _ _ _ _ kept_listItem
      · exact kept_dev s _

/-- A packet keeps the queue, and one-time storage only grows. -/
theorem kept_packet (s : State) (src : ChodalSrc) (pkt : Bytes) : Kept s (packet s src pkt) := by
  unfold packet; dsimp only
  repeat' split
  · exact kept_refl s
  · exact kept_dev s _
  · exact kept_refl s
  · exact kept_dev s _
  · exact kept_of_dev (kept_handle _ src pkt)

theorem kept_packetIf (c : Bool) (src : ChodalSrc) (pkt : Bytes) (s : State) : Kept s (packetIf c src pkt s) := by
  unfold packetIf; split
  · exact kept_packet s src pkt
  · exact kept_refl s

theorem kept_persistErased (s : State) : Kept s (persistErased s) := by
  unfold persistErased; dsimp only
  split
  · exact kept_refl s
  · refine kept_of_dev (kept_foldl _ (fun s p => ?_) _ _)
    split
    · exact kept_dev s _
    · exact kept_handle s _ _

/-! ### Waking -/

theorem kept_applyDeferred (s : State) : Kept s (applyDeferred s) := by
  unfold applyDeferred
  refine kept_of_dev (kept_foldl _ (fun s p => ?_) _ _)
  split
  · exact kept_applyNum s _ _ _
  · exact kept_refl s

theorem kept_wake (s : State) (c p n : Nat) : Kept s (wake s c p n) := by
  unfold wake
  exact kept_dev_of (kept_of_dev (kept_applyDeferred _)) _

theorem kept_wakeEvent (s : State) (c p n : Nat) : Kept s (wakeEvent s c p n) := by
  unfold wakeEvent; split
  · exact kept_wake s c p n
  · exact kept_refl s

/-! ### Messages -/

theorem kept_deliver (s : State) (port : Nat) (m : Msg) : Kept s (deliver s port m) := by
  unfold deliver; dsimp only
  split
  · exact kept_dev s _
  · exact kept_of_dev (kept_packet _ _ _)
  · split <;> exact kept_dev s _
  · exact kept_dev s _

theorem kept_drainHeld (k n : Nat) : ∀ s, Kept s (drainHeld k n s) := by
  induction n with
  | zero => exact kept_refl
  | succ n ih =>
    intro s
    unfold drainHeld
    split
    · exact kept_refl s
    · split
      · exact kept_refl s
      · exact kept_trans (kept_of_dev (kept_of_dev (kept_deliver _ _ _))) (ih _)

theorem kept_drainAll (s : State) (k : Nat) : Kept s (drainAll s k) := kept_drainHeld k _ s

theorem kept_skipTo (s : State) (k : Nat) : Kept s (skipTo s k) := by
  unfold skipTo
  split
  · exact kept_of_dev (kept_of_dev (kept_drainAll _ _))
  · exact kept_refl s

theorem kept_orderMsg (s : State) (port : Nat) (m : Msg) : Kept s (orderMsg s port m) := by
  unfold orderMsg; dsimp only
  split
  · exact kept_of_dev (kept_of_dev (kept_deliver _ _ _))
  · split
    · exact kept_of_dev (kept_deliver _ _ _)
    · split
      · exact kept_trans (kept_of_dev (kept_deliver _ _ _)) (kept_drainAll _ _)
      · split
        · split
          · exact kept_dev s _
          · split
            · exact kept_of_dev (kept_skipTo _ _)
            · exact kept_dev s _
        · exact kept_dev s _

theorem kept_here (s : State) (port : Nat) (m : Msg) : Kept s (here s port m) := by
  unfold here; split
  · exact kept_orderMsg s port m
  · exact kept_deliver s port m

theorem kept_expireHeld (k n f : Nat) : ∀ s, Kept s (expireHeld k n f s) := by
  induction f with
  | zero => exact kept_refl
  | succ f ih =>
    intro s
    unfold expireHeld
    split
    · exact kept_trans (kept_skipTo s k) (ih _)
    · exact kept_refl s

theorem kept_reorderTimeout (s : State) (src vc : Nat) : Kept s (reorderTimeout s src vc) := by
  unfold reorderTimeout; split
  · exact kept_refl s
  · exact kept_expireHeld _ _ _ s

/-- A message that arrives keeps the queue, and one-time storage only grows. -/
theorem kept_arrive (s : State) (port : Nat) (m : Msg) : Kept s (arrive s port m) := by
  unfold arrive; dsimp only
  repeat' first
    | exact kept_dev s _
    | exact kept_here s _ _
    | exact kept_refl s
    | split

theorem kept_originate (s : State) (m : Msg) : Kept s (originate s m) := by
  unfold originate; dsimp only
  repeat' first
    | exact kept_dev s _
    | exact kept_of_dev (kept_here _ _ _)
    | exact kept_refl s
    | split

theorem kept_delivered (s : State) (port : Nat) (m : Msg) (vc kind : Nat) (f : Dev → Dev) : Kept s (delivered s port m vc kind f) := by
  unfold delivered
  repeat' first | exact kept_dev s _ | exact kept_refl s | split

theorem kept_syncTaken (s : State) (port : Nat) (m : Msg) (kind : Nat) : Kept s (syncTaken s port m kind) := by
  unfold syncTaken
  repeat' first | exact kept_dev s _ | exact kept_refl s | split

theorem kept_recordTaken (s : State) (port : Nat) (bs : Bytes) (kind : Nat) : Kept s (recordTaken s port bs kind) := by
  unfold recordTaken
  repeat' first | exact kept_dev s _ | exact kept_refl s | split

/-! ### Superframes -/

theorem kept_takePiece (p : Nat) (s : State) (x : Piece) : Kept s (takePiece p s x) := by
  unfold takePiece
  repeat' first | exact kept_arrive s p _ | exact kept_dev s _ | exact kept_refl s | split

theorem kept_channelFrame (s : State) (p vc : Nat) (bs : Bytes) : Kept s (channelFrame s p vc bs) := by
  unfold channelFrame; dsimp only
  split
  · exact kept_refl s
  · split
    · exact kept_dev s _
    · exact kept_of_dev (kept_foldl _ (kept_takePiece p) _ _)

theorem kept_frameTaken (p : Nat) (bytes : Bytes) (t : Nat) (s : State) (i : Nat) : Kept s (frameTaken p bytes t s i) := by
  unfold frameTaken; dsimp only
  repeat' first
    | exact kept_dev s _
    | exact kept_of_dev (kept_channelFrame _ _ _ _)
    | exact kept_refl s
    | split

theorem kept_superAccepted (s : State) (p : Nat) (bytes : Bytes) (t : Nat) : Kept s (superAccepted s p bytes t) := by
  unfold superAccepted
  exact kept_of_dev (kept_foldl _ (kept_frameTaken p bytes t) _ _)

theorem kept_superGood (s : State) (p : Nat) (bytes : Bytes) : Kept s (superGood s p bytes) := by
  unfold superGood; dsimp only
  repeat' first
    | exact kept_dev s _
    | exact kept_of_dev (kept_superAccepted _ _ _ _)
    | exact kept_refl s
    | split

/-- A superframe keeps the queue, and one-time storage only grows. -/
theorem kept_superframeRx (s : State) (p : Nat) (lanes : List (List Nat)) (spare margins minima : List Nat) :
    Kept s (superframeRx s p lanes spare margins minima) := by
  unfold superframeRx; dsimp only
  split
  · exact kept_refl s
  · refine kept_dev_of ?_ _
    cases received (readLanes s.dev p lanes spare) with
    | none => exact kept_dev s _
    | some r => exact kept_of_dev (kept_superGood _ _ _)

end Sys2Proof.Laws
end

