-- ==== Sys2Proof/Laws/Superframe.lean ====
section
/-! SUPPORT. A superframe comes through the links whole: levels, lanes, codewords and symbols lead back to its bytes (R335,
R338, R339). -/

namespace Sys2Proof.Machine

/-! ### Levels -/

theorem symbolLevels_length (x : Nat) : (symbolLevels x).length = 5 := by simp [symbolLevels]

theorem symbolLevels_read : ∀ x : Fin 1024, sumNat ((List.range 5).map (fun i => grayLevel (nth 0 (symbolLevels x) i) * 4 ^ i)) = x := by
  decide +kernel

theorem flatMap_getElem? {f : Nat → List Nat} (hf : ∀ x, (f x).length = 5) (xs : List Nat) (i k : Nat) (hk : k < 5) :
    (xs.flatMap f)[5 * i + k]? = (xs[i]?).bind (fun x => (f x)[k]?) := by
  induction xs generalizing i with
  | nil => simp
  | cons x xs ih =>
    rw [List.flatMap_cons]
    cases i with
    | zero => rw [List.getElem?_append_left (by rw [hf]; omega)]; simp
    | succ i =>
      rw [List.getElem?_append_right (by rw [hf]; omega), hf, show 5 * (i + 1) + k - 5 = 5 * i + k by omega, ih]
      simp

/-- The levels of a lane's symbols read as those symbols. -/
theorem levelSymbols_flatMap (xs : List Nat) (hl : xs.length = 544) (hx : ∀ x ∈ xs, x < 1024) :
    levelSymbols (xs.flatMap symbolLevels) = xs := by
  apply List.ext_getElem
  · simp [levelSymbols, hl]
  · intro i h1 h2
    simp only [levelSymbols, List.getElem_map, List.getElem_range]
    refine Eq.trans ?_ (symbolLevels_read ⟨xs[i], hx _ (List.getElem_mem h2)⟩)
    congr 1
    apply List.map_congr_left
    intro k hk
    rw [List.mem_range] at hk
    have : (xs.flatMap symbolLevels).toArray.getD (5 * i + k) 0 = nth 0 (symbolLevels xs[i]) k := by
      rw [Array.getD_eq_getD_getElem?, List.getElem?_toArray, flatMap_getElem? symbolLevels_length xs i k hk,
        List.getElem?_eq_getElem h2]
      rfl
    rw [this]

/-! ### Lanes -/

/-- Entry q of list l, through arrays. -/
theorem getD_getD (ws : List (List Nat)) (c q : Nat) : (((ws.map List.toArray).toArray).getD c #[]).getD q 0 = nth 0 (nth [] ws c) q := by
  simp only [Array.getD_eq_getD_getElem?, List.getElem?_toArray, List.getElem?_map, nth]
  cases ws[c]? <;> simp

theorem map_nth_range {α : Type} (d : α) (xs : List α) (n : Nat) (h : xs.length = n) : (List.range n).map (fun q => nth d xs q) = xs := by
  apply List.ext_getElem
  · simp [h]
  · intro i h1 h2; simp [nth, h2]

theorem fromLanes_toLanes (ws : List (List Nat)) (h8 : ws.length = 8) (hl : ∀ w ∈ ws, w.length = 544) : fromLanes (toLanes ws) = ws := by
  have hn : ∀ c q, c < 8 → q < 544 → nth 0 (nth [] (toLanes ws) (laneOf c q)) q = nth 0 (nth [] ws c) q := by
    intro c q hc hq
    have hlane : laneOf c q < 8 := Nat.mod_lt _ (by omega)
    have : nth [] (toLanes ws) (laneOf c q) = (List.range 544).map (fun q' => nth 0 (nth [] ws ((laneOf c q + 8 - q' % 8) % 8)) q') := by
      simp only [toLanes, getD_getD]
      simp [nth, hlane]
    rw [this]
    have hc' : (laneOf c q + 8 - q % 8) % 8 = c := by unfold laneOf; omega
    simp only [nth, List.getElem?_map, List.getElem?_range hq, Option.map_some, Option.getD_some]
    rw [hc']
  apply List.ext_getElem
  · simp [fromLanes, h8]
  · intro c h1 h2
    have hc : c < 8 := by rw [← h8]; exact h2
    simp only [fromLanes, getD_getD, List.getElem_map, List.getElem_range]
    have e : nth [] ws c = ws[c] := by simp [nth, h2]
    rw [← map_nth_range 0 ws[c] 544 (hl _ (List.getElem_mem h2)), ← e]
    apply List.map_congr_left
    intro q hq
    exact hn c q hc (List.mem_range.mp hq)

theorem toLanes_length (ws : List (List Nat)) : (toLanes ws).length = 8 := by simp [toLanes]

theorem toLanes_mem (ws : List (List Nat)) (h8 : ws.length = 8) (hl : ∀ w ∈ ws, w.length = 544) (hx : ∀ w ∈ ws, ∀ x ∈ w, x < 1024) :
    ∀ l ∈ toLanes ws, l.length = 544 ∧ ∀ x ∈ l, x < 1024 := by
  intro l hm
  simp only [toLanes, getD_getD, List.mem_map, List.mem_range] at hm
  obtain ⟨i, _, rfl⟩ := hm
  refine ⟨by simp, fun x hx' => ?_⟩
  rw [List.mem_map] at hx'
  obtain ⟨q, hq, rfl⟩ := hx'
  rw [List.mem_range] at hq
  have hc : (i + 8 - q % 8) % 8 < ws.length := by rw [h8]; omega
  have e : nth [] ws ((i + 8 - q % 8) % 8) = ws[(i + 8 - q % 8) % 8] := by simp [nth, hc]
  have hm := List.getElem_mem hc
  rw [e, nth, List.getElem?_eq_getElem (by rw [hl _ hm]; exact hq)]
  exact hx _ hm _ (List.getElem_mem _)

/-! ### Codewords -/

theorem polyAdd_self (p : List Nat) : polyAdd p p = List.replicate p.length 0 := by
  induction p with
  | nil => rfl
  | cons a p ih => rw [polyAdd, ih]; simp only [List.length_cons, List.replicate_succ]; congr 1; exact Nat.xor_self a

theorem RsCode.mul_zero (c : RsCode) (a : Nat) : c.mul a 0 = 0 := by
  have : ∀ n a, c.mulAux n a 0 0 = 0 := by
    intro n
    induction n with
    | zero => intro a; rfl
    | succ n ih => intro a; simp only [RsCode.mulAux]; exact ih _
  exact this _ _

theorem RsCode.eval_zeros (c : RsCode) (n x : Nat) : c.eval (List.replicate n 0) x = 0 := by
  induction n with
  | zero => rfl
  | succ n ih =>
    rw [List.replicate_succ]
    change Nat.xor 0 (c.mul x (c.eval (List.replicate n 0) x)) = 0
    rw [ih, RsCode.mul_zero]; rfl

theorem RsCode.checkOf_length (c : RsCode) (data : List Nat) : (c.checkOf data).length = c.checks := by simp [RsCode.checkOf, RsCode.unpack]

/-- A codeword decodes to itself, with nothing to correct. -/
theorem RsCode.decode_encode (c : RsCode) (data : List Nat) (h : data.length = c.k) : c.decode [] (c.encode data) = some [] := by
  have hs : (c.syndromes (c.encode data)).all (· == 0) = true := by
    unfold RsCode.syndromes RsCode.encode
    rw [List.take_left' h, List.drop_left' h, polyAdd_self]
    simp [RsCode.eval_zeros]
  unfold RsCode.decode
  rw [if_pos hs]

/-! ### Symbols -/

theorem cutSymbols_length (n w : Nat) : (cutSymbols n w).length = n := by induction n generalizing w <;> simp_all [cutSymbols]

theorem cutSymbols_lt (n w : Nat) : ∀ x ∈ cutSymbols n w, x < 1024 := by
  induction n generalizing w with
  | zero => simp [cutSymbols]
  | succ n ih =>
    intro x hx
    rcases List.mem_cons.mp hx with rfl | hx
    · exact Nat.mod_lt _ (by decide)
    · exact ih _ x hx

theorem foldr_cutSymbols (n w : Nat) : (cutSymbols n w).foldr (fun x acc => x + acc * 1024) 0 = w % 1024 ^ n := by
  induction n generalizing w with
  | zero => simp [cutSymbols, Nat.mod_one]
  | succ n ih =>
    change w % 1024 + (cutSymbols n (w / 1024)).foldr _ 0 * 1024 = _
    rw [ih, pow_succ', Nat.mod_mul, Nat.mul_comm]

theorem leBytes_ofLe (bs : Bytes) : leBytes bs.length (ofLe bs) = bs := by
  induction bs with
  | nil => rfl
  | cons b bs ih =>
    have hb := b.isLt
    simp only [List.length_cons, leBytes, ofLe]
    congr 1
    · apply BitVec.eq_of_toNat_eq; simp; omega
    · rw [show (b.toNat + 256 * ofLe bs) / 256 = ofLe bs by omega]; exact ih

theorem ofLe_lt (bs : Bytes) : ofLe bs < 256 ^ bs.length := by
  induction bs with
  | nil => simp [ofLe]
  | cons b bs ih =>
    have hb := b.isLt
    simp only [List.length_cons, ofLe, pow_succ]
    omega

/-! ### Superframes -/

theorem superWords_length (bs : Bytes) : (superWords bs).length = 8 := by simp [superWords]

theorem superWords_mem (bs : Bytes) : ∀ w ∈ superWords bs, (∃ data : List Nat, data.length = 514 ∧ w = RsCode.link.encode data) ∧
    w.length = 544 ∧ ∀ x ∈ w, x < 1024 := by
  intro w hw
  simp only [superWords, List.mem_map, List.mem_range] at hw
  obtain ⟨c, hc, rfl⟩ := hw
  refine ⟨⟨_, by simp, rfl⟩, ?_, ?_⟩
  · rw [RsCode.encode, List.length_append, RsCode.checkOf_length]; simp [RsCode.checks, RsCode.link]
  · intro x hx
    rcases List.mem_append.mp hx with h | h
    · rw [List.mem_map] at h
      obtain ⟨k, hk, rfl⟩ := h
      rw [List.mem_range] at hk
      rw [Array.getD_eq_getD_getElem?, List.getElem?_toArray, List.getElem?_eq_getElem (by rw [cutSymbols_length]; omega)]
      exact cutSymbols_lt _ _ _ (List.getElem_mem _)
    · simp only [RsCode.checkOf, RsCode.unpack, List.mem_reverse, List.mem_map, fld] at h
      obtain ⟨i, _, rfl⟩ := h
      exact Nat.mod_lt _ (by decide)

theorem superBytes_superWords (bs : Bytes) (h : bs.length = 5140) : superBytes (superWords bs) = bs := by
  have hs : (List.range 4112).map (fun n => nth 0 (nth [] (superWords bs) (n % 8)) (n / 8)) = cutSymbols 4112 (ofLe bs) := by
    refine Eq.trans (List.map_congr_left fun n hn => ?_) (map_nth_range 0 (cutSymbols 4112 (ofLe bs)) 4112 (cutSymbols_length _ _))
    rw [List.mem_range] at hn
    have hc : n % 8 < 8 := Nat.mod_lt _ (by decide)
    have hk : n / 8 < 514 := by omega
    simp only [superWords, nth, List.getElem?_map, List.getElem?_range hc, Option.map_some, Option.getD_some, RsCode.encode]
    rw [List.getElem?_append_left (by simpa using hk), List.getElem?_map, List.getElem?_range hk]
    simp only [Option.map_some, Option.getD_some, Array.getD_eq_getD_getElem?, List.getElem?_toArray]
    rw [show 8 * (n / 8) + n % 8 = n by omega]
  have e : (List.range 4112).map (fun n => ((((superWords bs).map List.toArray).toArray).getD (n % 8) #[]).getD (n / 8) 0) =
      cutSymbols 4112 (ofLe bs) := by
    rw [← hs]; exact List.map_congr_left fun n _ => getD_getD _ _ _
  unfold superBytes
  dsimp only
  rw [e, foldr_cutSymbols, Nat.mod_eq_of_lt, ← h, leBytes_ofLe]
  refine lt_of_lt_of_le (ofLe_lt bs) (le_of_eq ?_)
  rw [h, show (256 : Nat) = 2 ^ 8 by norm_num, show (1024 : Nat) = 2 ^ 10 by norm_num, ← pow_mul, ← pow_mul]

/-- The lanes of a sent superframe (R338, R339). -/
def superLanes (bs : Bytes) : List (List Nat) := (toLanes (superWords bs)).map (·.flatMap symbolLevels)

theorem superLanes_length (bs : Bytes) : (superLanes bs).length = 8 := by rw [superLanes, List.length_map, toLanes_length]

/-- What the fibres carry unchanged decodes: the same bytes, with no symbol corrected. -/
theorem decodeSuper_superLanes (bs : Bytes) (h : bs.length = 5140) : decodeSuper (superLanes bs) = some (bs, List.replicate 8 0) := by
  have hw := superWords_mem bs
  have hl : (superLanes bs).map levelSymbols = toLanes (superWords bs) := by
    rw [superLanes, List.map_map]
    refine Eq.trans (List.map_congr_left (g := id) fun l hl => ?_) (List.map_id _)
    rw [Function.comp_apply, id]
    have := toLanes_mem _ (superWords_length bs) (fun w m => (hw w m).2.1) (fun w m => (hw w m).2.2) l hl
    exact levelSymbols_flatMap l this.1 this.2
  have hf : (superWords bs).map (RsCode.link.decode []) = List.replicate 8 (some []) := by
    rw [List.eq_replicate_iff]
    refine ⟨by rw [List.length_map, superWords_length], fun f hf => ?_⟩
    rw [List.mem_map] at hf
    obtain ⟨w, m, rfl⟩ := hf
    obtain ⟨data, hd, rfl⟩ := (hw w m).1
    exact RsCode.decode_encode _ _ hd
  unfold decodeSuper
  dsimp only
  rw [hl, fromLanes_toLanes _ (superWords_length bs) (fun w m => (hw w m).2.1), hf]
  rw [if_neg (by decide)]
  have e : (superWords bs).zipIdx.map (fun w => addErrors w.1 ((nth none (List.replicate 8 (some ([] : List (Nat × Nat)))) w.2).getD [])) = superWords bs := by
    refine Eq.trans (List.map_congr_left fun w _ => ?_) (List.zipIdx_map_fst 0 (superWords bs))
    have : (nth none (List.replicate 8 (some ([] : List (Nat × Nat)))) w.2).getD [] = [] := by
      simp only [nth, List.getElem?_replicate]; split <;> rfl
    rw [this]; rfl
  rw [e, superBytes_superWords bs h]
  rfl

/-- It is received where its CRC matches, and not where it does not (R340). -/
theorem received_superLanes (bs : Bytes) (h : bs.length = 5140) :
    received (superLanes bs) = if crc32c (bs.take 5136) = leAt bs 5136 4 then some (bs, List.replicate 8 0) else none := by
  rw [received, decodeSuper_superLanes bs h]
  split <;> rename_i hc <;> simp [hc]

/-- The lanes a port sends are those of its superframe (R338). -/
theorem sendSuper_lanes (d : Dev) (p : Nat) (h : Held) (unnum : Bool) :
    ((sendSuper d p h unnum).port p).lanes = superLanes ((sendSuper d p h unnum).port p).line := by
  have e : ∀ (d : Dev) k n, (d.bumpN k n).port p = d.port p := fun d k n => by simp only [Dev.port, Dev.bumpN_lnk]
  simp only [sendSuper, e, Dev.port_modPort_self, superLanes]

end Sys2Proof.Machine
end

