-- ==== Sys2Proof/WellFormed.lean ====
section
/-! DEFINITION. Which operands a command can have at all: the ranges the manual gives ports, lanes, blocks, regions, stacks,
packages, jobs, queues, table indices, header fields, bodies and packets. -/

namespace Sys2Proof

/-- A routed header's fields have the widths of R353. -/
def Hdr.wf (h : Hdr) : Bool :=
  decide (h.kind < 256) && decide (h.hops < 256) && decide (h.dst < 2 ^ 15) && decide (h.src < 2 ^ 15) &&
  decide (h.sjob < 64) && decide (h.schan < 256) && decide (h.seq < 2 ^ 32)

/-- One of the eight virtual channels, and a body of at most 65,528 bytes (R348, R353). -/
def Msg.wf (m : Msg) : Bool := decide (m.vc < 8) && m.hdr.wf && decide (m.body.length ≤ 65528)

/-- A sender's identity (R354). -/
def Sender.wf (w : Sender) : Bool :=
  decide (w.src < 2 ^ 15) && decide (w.sjob < 64) && decide (w.schan < 256)

/-- A packet's source (R452, R453). -/
def ChodalSrc.wf : ChodalSrc → Bool
  | .t1s mac p => decide (mac < 2 ^ 48) && decide (p < 65536)
  | .inband p h => decide (p < 16) && h.wf

/-- A burst error's place, and the symbols that its readings change (R284 to R287, R290). -/
def BurstErr.wf (e : BurstErr) : Bool :=
  let ok := fun (x : Nat × Nat) => decide (x.1 < (if e.unit < 12 then 36 else 272)) && decide (x.2 < 256)
  decide (e.unit < 44) && decide (e.addr < if e.unit < 12 then 48000000000 else 64000000000) &&
    e.first.all ok && e.again.all ok && e.after.all ok

/-- A record's fields have the widths of R473, its LOCATION the level's range (R474). -/
def EventIn.wf (e : EventIn) : Bool :=
  decide (e.code < 65536) && decide (e.severity < 5) && decide (e.level < 8) && decide (e.location < 2 ^ 20) &&
  decide (e.detail.length ≤ 24) &&
  match e.job with
  | some (j, t) => decide (j < 64) && decide (t < 2 ^ 32)
  | none => true

/-- A page of a walk: a key-value head and a page group (R195, R206). -/
def PageAt.wf (p : PageAt) : Bool := decide (p.head < 64) && decide (p.page < 65536)

def AttendRun.wf (r : AttendRun) : Bool :=
  r.load.all PageAt.wf && r.parity.all (fun p => p.1.wf && decide (p.2 < 32)) &&
    r.loops.all (fun l => l.1.wf && l.2.all (fun c => c.all (fun n => decide (n < 128))))

namespace Instr

/-- Operations of a LIST: at most 4,096 (R218, R429). -/
def opOk (k : Nat) : Bool := decide (k < 4096)

/-- Message commands: a port, 16 for the module itself, and a message of the channel. -/
def msgOk (port top vc : Nat) (m : Msg) : Bool := decide (port < top) && m.wf && m.vc == vc

/-- The operands of a command lie in their ranges. -/
def wf : Instr → Bool
  | .mma _ => true
  | .elem _ parity => match parity with | some w => decide (w < 32) | none => true
  | .elemLoad _ => true
  | .conv _ => true
  | .scan _ => true
  | .attend run => run.wf
  | .alloc _ k => opOk k
  | .free _ k => opOk k
  | .promote _ k => opOk k
  | .demote _ k => opOk k
  | .rehome _ k => opOk k
  | .relocate _ k => opOk k
  | .pin _ k => opOk k
  | .unpin _ k => opOk k
  | .moveQueueHead seg => decide (seg < 524288)
  | .moveCommit seg => decide (seg < 524288)
  | .reduce _ => true
  | .reduceContextOpen _ => true
  | .scaleUp port bs => decide (port < 16) && decide (bs.length ≤ 16416)
  | .scaleDown port bs => decide (port < 16) && decide (bs.length ≤ 16416)
  | .dataUp port bs => decide (port < 16) && decide (bs.length ≤ 16416)
  | .abort port bs => decide (port < 16) && decide (bs.length ≤ 16416)
  | .reduceTimeout tag id epoch => decide (tag < 65536) && decide (id < 65536) && decide (epoch < 256)
  | .updateConfig _ => true
  | .updateApply _ => true
  | .applyExecute _ => true
  | .fork _ => true
  | .pageEditInit _ k => opOk k
  | .pageEditMap _ k => opOk k
  | .pageEditUnmap _ k => opOk k
  | .pageEditSetLen _ k => opOk k
  | .pageEditSetMask _ k => opOk k
  | .pageEditClearMask _ k => opOk k
  | .pageEditApply dir => decide (dir < 524288)
  | .barrier _ => true
  | .semAcquire _ => true
  | .semRelease _ => true
  | .syncArrive port m => msgOk port 16 6 m
  | .syncRelease port m => msgOk port 16 6 m
  | .syncAbort port m => msgOk port 16 6 m
  | .barrierTimeout tag id epoch => decide (tag < 65536) && decide (id < 65536) && decide (epoch < 2 ^ 32)
  | .semGraceExpiry sem => decide (sem < 1024)
  | .descriptorFetch job queue => decide (job < 64) && decide (queue < 4)
  | .descriptorComplete _ _ => true
  | .blockDoorbell _ blk => decide (blk < 156)
  | .kLoopRun _ blk _ runs => decide (blk < 156) && runs.all (fun r => r.all (fun c => decide (c < 128)))
  | .shadowAudit _ _ _ _ => true
  | .stageStepStart job _ step => decide (job < 64) && decide (step < 2 ^ 32)
  | .uncorrectableSram blk mem _ _ => decide (blk < 156) && decide (mem < 3)
  | .blockRetire blk cause => decide (blk < 156) && decide (1 ≤ cause ∧ cause ≤ 5)
  | .regionWatchdogExpiry r => decide (r < 12)
  | .regionFence r cause _ => decide (r < 12) && decide (1 ≤ cause ∧ cause ≤ 6)
  | .segmentEvacuated seg => decide (seg < 524288)
  | .dmWatchdogExpiry => true
  | .deviceFence cause => decide (1 ≤ cause ∧ cause ≤ 4)
  | .burstError e => e.wf
  | .caParityError stack _ => decide (stack < 12)
  | .patrolScrub unit errs => decide (unit < 44) && errs.all BurstErr.wf
  | .refreshInterval stack _ => decide (stack < 12)
  | .slowTempPoll pkg _ => decide (pkg < 32)
  | .servingStepBoundary job _ => decide (job < 64)
  | .vaneAnswerWrite n _ _ => decide (n < 65536)
  | .start who job seg => who.wf && decide (job < 64) && decide (seg < 524288)
  | .stop who job => who.wf && decide (job < 64)
  | .join who job prio _ => who.wf && decide (job < 64) && decide (prio < 16)
  | .leave who job stream => who.wf && decide (job < 64) && decide (stream < 65536)
  | .status who job stream => who.wf && decide (job < 64) && decide (stream < 65536)
  | .planOn who job stream => who.wf && decide (job < 64) && decide (stream < 65536)
  | .planOff who job stream => who.wf && decide (job < 64) && decide (stream < 65536)
  | .vaneRead port m => msgOk port 16 5 m
  | .segWrite port m => msgOk port 17 0 m
  | .segRead port m => msgOk port 17 0 m
  | .doorbell port m => msgOk port 17 0 m
  | .mboxWrite port m => msgOk port 17 0 m
  | .mboxConsume ch => decide (ch < 256)
  | .messageRoute port m => decide (port < 17) && m.wf
  | .reorderTimeout src vc => decide (src < 65536) && decide (vc < 8)
  | .superframeRx port lanes spare margins minima => decide (port < 16) && decide (lanes.length ≤ 8) &&
      (spare :: lanes).all (fun l => decide (l.length ≤ 2720) && l.all (fun x => decide (x < 4))) &&
      decide (margins.length ≤ 8) && decide (minima.length ≤ 8)
  | .replayTimeout port => decide (port < 16)
  | .lossOfSignal port lanes => decide (port < 16) && lanes.all (fun l => decide (l < 9))
  | .laneCorrectedLimit port lane _ => decide (port < 16) && decide (lane < 8)
  | .swapReq port lane => decide (port < 16) && decide (lane < 256)
  | .swapAck port lane sseq => decide (port < 16) && decide (lane < 256) && decide (sseq < 65536)
  | .retrain port reason => decide (port < 16) && decide (reason < 256)
  | .hello port role devId serial peerPort version => decide (port < 16) && decide (role < 256) && decide (devId < 65536) &&
      serial.length == 16 && decide (peerPort < 256) && decide (version < 256)
  | .creditInit port credits => decide (port < 16) && credits.length == 8 && credits.all (fun c => decide (c < 65536))
  | .portTraining port failed => decide (port < 16) && failed.all (fun l => decide (l < 9))
  | .portStateChange port st => decide (port < 16) && decide (st < 6)
  | .groupCensusStart => true
  | .wave port m => msgOk port 16 6 m
  | .reply port m => msgOk port 16 6 m
  | .routeSet port m => msgOk port 16 6 m
  | .announce port m => msgOk port 16 6 m
  | .machineCensusStart => true
  | .mwave port m => msgOk port 16 6 m
  | .mreply port m => msgOk port 16 6 m
  | .mroutes port m => msgOk port 16 6 m
  | .fenceReq port m => msgOk port 16 4 m
  | .fenceNote port m => msgOk port 16 6 m
  | .imageReq port m => msgOk port 16 4 m
  | .imageData port m => msgOk port 16 4 m
  | .recoveryRetry => true
  | .imageFetchTimeout => true
  | .lullNote port m => msgOk port 16 4 m
  | .chodalGet src pkt => src.wf && decide (pkt.length ≤ 1024)
  | .chodalSet src pkt => src.wf && decide (pkt.length ≤ 1024)
  | .chodalGetPart src pkt => src.wf && decide (pkt.length ≤ 1024)
  | .chodalList src pkt => src.wf && decide (pkt.length ≤ 1024)
  | .persistEraseDone => true
  | .form j => decide (j < 64)
  | .suspend j => decide (j < 64)
  | .resume j => decide (j < 64)
  | .destroy j => decide (j < 64)
  | .reform j => decide (j < 64)
  | .reformTakeEffect j => decide (j < 64)
  | .groupStepSet j v => decide (j < 64) && decide (v < 2 ^ 32)
  | .baselineWrite j cls v => decide (j < 64) && decide (cls < 16) && decide (v < 2 ^ 32)
  | .recorderFreeze => true
  | .freezeDrainDone => true
  | .recorderThaw => true
  | .freezeTimeout _ => true
  | .alertClear => true
  | .eventAccept ev => ev.wf
  | .recordProgram => true
  | .ringSectorEraseDone => true
  | .hourlyUpdate _ _ _ => true
  | .outageEnd code _ _ _ _ => decide (code < 65536)
  | .fwUpdateCmd => true
  | .attestNonce nonce => nonce.length == 32
  | .attestSignDone => true
  | .unlockChallenge => true
  | .unlockToken token => token.length == 160
  | .boot cause => decide (cause < 3)
  | .deviceReady blks sts pkgs _ => blks.all (fun b => decide (b < 156)) && sts.all (fun s => decide (s < 12)) &&
      pkgs.all (fun p => decide (p < 32))
  | .pwrOkAssert sid => decide (sid < 64)
  | .pwrOkDeassert => true
  | .modRstN _ => true
  | .railFault step => decide (1 ≤ step ∧ step ≤ 5)
  | .inputSample _ _ _ => true
  | .inputFault _ _ => true
  | .powerCapAdjust _ => true
  | .thermalHold sensor _ => decide (sensor < 25)
  | .thermalTrip sensor _ => decide (sensor < 25)
  | .lullEnter => true
  | .lullCmdWake _ => true
  | .wakeN _ => true
  | .lullTimer _ => true
  | .laneLightDetect port _ => decide (port < 16)
  | .tenancySwitch blk _ => decide (blk < 156)
  | .deadlineMark job k _ => decide (job < 64) && decide (k < 16)
  | .superframeTx port => decide (port < 16)
  | .plcaBeaconTimeout => true
  | .neighbourSolicitation mac _ => decide (mac < 2 ^ 48)
  | .echoRequest mac _ => decide (mac < 2 ^ 48)
  | .arpRequest mac _ => decide (mac < 2 ^ 48)
  | .malformedPacket src _ => src.wf
  | .thermalHoldEnd _ => true
  | .unlockEraseDone _ => true

end Instr

end Sys2Proof
end

