-- ==== Sys2Proof/Tests/Slice0.lean ====
section
/-! SUPPORT. The model's own tests: ill-formed operands refused, small single steps with results worked out from the
manual, and for every statement with hypotheses a state and operands that meet them. -/

namespace Sys2Proof.Tests

/-! Theorems are elaborated one after another: the many small kernel evaluations need no threads of their own. -/
set_option Elab.async false

open Sys2Proof.Machine Sys2Proof.Safety

/-! ### Small states -/

/-- A running, ready module with power. -/
def base : Dev := { Dev.reset with
  pow := { Pow.start with pwrOk := true, rails := 5 }, sec := { Sec.start with running := true, ready := true } }

def at_ (d : Dev) : State := { State.reset with dev := d }

/-- The module after a command. -/
def after (c : Instr) (d : Dev) : Dev := match exec c (at_ d) with | .next t => t.dev | _ => d

/-- Objects set: keys and values. -/
def sets (d : Dev) (l : List (Nat × Nat)) : Dev := d.forEach l (fun d p => d.dset p.1 p.2)

/-- Port `p` up, its peer a module. -/
def up (d : Dev) (p : Nat) : Dev := (d.dset (O.PORT_STATE p) 2).modPort p (fun q => { q with
  linked := true, helloIn := true, creditIn := true, peerSerial := List.replicate 16 1 })

/-- A running job `j` of one block (block address 0) with its grants, 1 GiB of either tier, one pipeline of one stage. -/
def jobOn (d : Dev) (j : Nat) : Dev := (sets d [(O.JOB_STATE j, 1), (O.FAST_QUOTA j, 2 ^ 30), (O.SLOW_QUOTA j, 2 ^ 30)]).modJob j (fun x => { x with
  places := [⟨some 0, 0, 0, 0⟩], slots := 16, opb := 65536, progs := 4,
  owner := 0x400000, depths := [8, 0, 0, 0], pipes := [(0, [⟨0, [0], 0, 0, 0, 0, 0, 0⟩])] })

/-- Descriptor bits: (low bit, width, value). -/
def desc (fs : List (Nat × Nat × Nat)) : Word512 := BitVec.ofNat 512 (sumNat (fs.map (fun f => at' f.1 f.2.1 f.2.2)))

/-- Flight 1 of job 0 with these bits. -/
def fl (fs : List (Nat × Nat × Nat)) : Flight := Flight.fresh 1 0 0 0 (desc fs)

def fly (d : Dev) (x : Flight) : Dev := d.setSched (fun s => { s with flights := s.flights ++ [x], nextFlight := s.nextFlight + 1 })

/-- A share of one whole tile on logical block 0. -/
def share : Plan := ⟨0, 0, 64, 0, 64, 0, 1, 1, false, 0, 0, 0⟩

/-- The flight with a delivered share on the job's block. -/
def shared (x : Flight) : Flight := { x with plans := [share], rung := [0] }

/-- Job 0 running on block 0 with one delivered descriptor of this opcode. -/
def ready (op : Nat) (more : List (Nat × Nat × Nat)) : Dev := fly (jobOn base 0) (shared (fl ((0, 8, op) :: more)))

/-- A segment: fast tier, stack 0, frame 1, one frame, owned by job 0. -/
def seg0 : Res := { Res.free with st := 1, frame := 1, frames := 1, len64 := 64 }

def withSeg (d : Dev) (e : Nat) (r : Res) : Dev := d.setRes e r

def hdr0 : Hdr := ⟨0, 0, 0, false, 0, false, 0, 0, 0⟩

def msg (vc kind : Nat) (body : Bytes) : Msg := ⟨vc, { hdr0 with kind := kind }, body⟩

/-! ### Bytes of numbers -/

theorem length_leBytes (n v : Nat) : (leBytes n v).length = n := by induction n generalizing v <;> simp_all [leBytes]

theorem ofLe_leBytes (n v : Nat) : ofLe (leBytes n v) = v % 256 ^ n := by
  induction n generalizing v with
  | zero => simp [leBytes, ofLe, Nat.mod_one]
  | succ n ih =>
    simp only [leBytes, ofLe, ih, BitVec.toNat_ofNat]
    have h : (256 : Nat) ^ (n + 1) = 2 ^ 8 * 256 ^ n := by rw [pow_succ']; norm_num
    rw [h, Nat.mod_mul]
    norm_num

/-! ### Ill-formed operands -/

def refuses (l : List Instr) : Bool := l.all (fun i => !i.wf)

theorem test_wf_header_fields :
    ([{ hdr0 with kind := 256 }, { hdr0 with hops := 256 }, { hdr0 with dst := 2 ^ 15 }, { hdr0 with src := 2 ^ 15 },
      { hdr0 with sjob := 64 }, { hdr0 with schan := 256 }, { hdr0 with seq := 2 ^ 32 }].all (fun h => !h.wf)) = true := by decide

theorem test_wf_message_channel_and_header :
    ([(⟨8, hdr0, []⟩ : Msg), ⟨0, { hdr0 with kind := 256 }, []⟩].all (fun m => !m.wf)) = true := by decide

theorem test_wf_message_body_too_long : (⟨0, hdr0, List.replicate 65529 0⟩ : Msg).wf = false := by decide +kernel

theorem test_wf_sender :
    ([(⟨2 ^ 15, false, 0, 0⟩ : Sender), ⟨0, false, 64, 0⟩, ⟨0, false, 0, 256⟩].all (fun w => !w.wf)) = true := by decide

theorem test_wf_packet_source :
    ([ChodalSrc.t1s (2 ^ 48) 0, .t1s 0 65536, .inband 16 hdr0, .inband 0 { hdr0 with hops := 256 }].all (fun w => !w.wf)) = true := by
  decide

theorem test_wf_burst_error :
    ([(⟨44, 0, [], [], []⟩ : BurstErr), ⟨11, 48000000000, [], [], []⟩, ⟨12, 64000000000, [], [], []⟩, ⟨0, 0, [(36, 1)], [], []⟩,
      ⟨0, 0, [], [(0, 256)], []⟩, ⟨12, 0, [], [], [(272, 1)]⟩].all (fun e => !e.wf)) = true := by decide

theorem test_wf_attend_run :
    ([(⟨1, some ⟨64, 0, false⟩, none, []⟩ : AttendRun), ⟨1, some ⟨0, 65536, false⟩, none, []⟩, ⟨1, none, some (⟨0, 0, false⟩, 32), []⟩,
      ⟨1, none, none, [(⟨0, 0, false⟩, [[128]])]⟩].all (fun r => refuses [.attend r])) = true := by decide

theorem test_wf_event :
    let e : EventIn := ⟨0, 0, 0, 0, none, [], false⟩
    ([{ e with code := 65536 }, { e with severity := 5 }, { e with level := 8 }, { e with location := 2 ^ 20 },
      { e with detail := List.replicate 25 0 }, { e with job := some (64, 0) }, { e with job := some (0, 2 ^ 32) }].all
      (fun e => !e.wf)) = true := by decide

theorem test_wf_operations_of_a_list :
    refuses [.alloc 1 4096, .free 1 4096, .promote 1 4096, .demote 1 4096, .rehome 1 4096, .relocate 1 4096, .pin 1 4096,
      .unpin 1 4096, .pageEditInit 1 4096, .pageEditMap 1 4096, .pageEditUnmap 1 4096, .pageEditSetLen 1 4096,
      .pageEditSetMask 1 4096, .pageEditClearMask 1 4096] = true := by decide

theorem test_wf_blocks_and_segments :
    refuses [.elem 1 (some 32), .moveQueueHead 524288, .moveCommit 524288, .pageEditApply 524288, .segmentEvacuated 524288,
      .blockDoorbell 1 156, .kLoopRun 1 156 0 [], .kLoopRun 1 0 0 [[128]], .uncorrectableSram 156 0 0 .corrected,
      .uncorrectableSram 0 3 0 .corrected, .blockRetire 156 1, .blockRetire 0 0, .blockRetire 0 6, .tenancySwitch 156 0] = true := by decide

theorem test_wf_records_and_timers :
    refuses [.scaleUp 16 [], .scaleDown 16 [], .dataUp 16 [], .abort 16 [], .reduceTimeout 65536 0 0, .reduceTimeout 0 65536 0,
      .reduceTimeout 0 0 256, .barrierTimeout 65536 0 0, .barrierTimeout 0 65536 0, .barrierTimeout 0 0 (2 ^ 32),
      .semGraceExpiry 1024] = true := by decide

theorem test_wf_record_too_long :
    refuses [.scaleUp 0 (List.replicate 16417 0), .scaleDown 0 (List.replicate 16417 0), .dataUp 0 (List.replicate 16417 0),
      .abort 0 (List.replicate 16417 0)] = true := by decide +kernel

theorem test_wf_queues_stages_regions :
    refuses [.descriptorFetch 64 0, .descriptorFetch 0 4, .stageStepStart 64 0 0, .stageStepStart 0 0 (2 ^ 32),
      .regionWatchdogExpiry 12, .regionFence 12 1 true, .regionFence 0 0 true, .regionFence 0 7 true, .deviceFence 0,
      .deviceFence 5, .burstError ⟨44, 0, [], [], []⟩, .caParityError 12 false, .patrolScrub 44 [], .patrolScrub 0 [⟨44, 0, [], [], []⟩],
      .refreshInterval 12 0, .slowTempPoll 32 0] = true := by decide

theorem test_wf_serving :
    let w : Sender := ⟨0, false, 0, 0⟩
    let bad : Sender := ⟨0, false, 64, 0⟩
    refuses [.servingStepBoundary 64 ⟨0, []⟩, .vaneAnswerWrite 65536 [] false, .start bad 0 0, .start w 64 0, .start w 0 524288, .stop bad 0,
      .stop w 64, .join bad 0 0 false, .join w 64 0 false, .join w 0 16 false, .leave bad 0 0, .leave w 64 0, .leave w 0 65536,
      .status bad 0 0, .status w 64 0, .status w 0 65536, .planOn bad 0 0, .planOn w 64 0, .planOn w 0 65536, .planOff bad 0 0,
      .planOff w 64 0, .planOff w 0 65536, .deadlineMark 64 0 ⟨0, []⟩, .deadlineMark 0 16 ⟨0, []⟩] = true := by decide

theorem test_wf_messages :
    let q := msg 0 0 []
    let v := msg 4 0 []
    let y := msg 6 0 []
    refuses [.syncArrive 16 y, .syncRelease 16 y, .syncAbort 16 y, .syncArrive 0 q, .syncRelease 0 q, .syncAbort 0 q,
      .vaneRead 16 (msg 5 0 []), .vaneRead 0 q, .segWrite 17 q, .segRead 17 q, .doorbell 17 q, .mboxWrite 17 q, .segWrite 0 v,
      .segRead 0 v, .doorbell 0 v, .mboxWrite 0 v, .mboxConsume 256, .messageRoute 17 q, .messageRoute 0 ⟨8, hdr0, []⟩,
      .wave 16 y, .reply 16 y, .routeSet 16 y, .announce 16 y, .mwave 16 y, .mreply 16 y, .mroutes 16 y, .fenceNote 16 y,
      .fenceReq 16 v, .imageReq 16 v, .imageData 16 v, .lullNote 16 v, .wave 0 q, .reply 0 q, .routeSet 0 q, .announce 0 q,
      .mwave 0 q, .mreply 0 q, .mroutes 0 q, .fenceNote 0 q, .fenceReq 0 q, .imageReq 0 q, .imageData 0 q, .lullNote 0 q,
      .reorderTimeout 65536 0, .reorderTimeout 0 8] = true := by decide

theorem test_wf_links :
    let s := List.replicate 16 (0 : Byte)
    refuses [.superframeRx 16 [] [] [] [], .superframeRx 0 (List.replicate 9 []) [] [] [], .superframeRx 0 [[4]] [] [] [],
      .superframeRx 0 [] [4] [] [], .superframeRx 0 [] [] (List.replicate 9 0) [], .superframeRx 0 [] [] [] (List.replicate 9 0),
      .replayTimeout 16, .lossOfSignal 16 [], .lossOfSignal 0 [9], .laneCorrectedLimit 16 0 0, .laneCorrectedLimit 0 8 0,
      .swapReq 16 0, .swapReq 0 256, .swapAck 16 0 0, .swapAck 0 256 0, .swapAck 0 0 65536, .retrain 16 0, .retrain 0 256,
      .hello 16 0 0 s 0 0, .hello 0 256 0 s 0 0, .hello 0 0 65536 s 0 0, .hello 0 0 0 [] 0 0, .hello 0 0 0 s 256 0, .hello 0 0 0 s 0 256,
      .creditInit 16 (List.replicate 8 0), .creditInit 0 [], .creditInit 0 (List.replicate 8 65536), .portTraining 16 [],
      .portTraining 0 [9], .portStateChange 16 0, .portStateChange 0 6, .superframeTx 16, .laneLightDetect 16 0] = true := by decide

theorem test_wf_superframe_lane_too_long : (Instr.superframeRx 0 [] (List.replicate 2721 0) [] []).wf = false := by decide +kernel

theorem test_wf_management :
    let bad := ChodalSrc.t1s 0 65536
    let long := List.replicate 1025 (0 : Byte)
    refuses [.chodalGet bad [], .chodalSet bad [], .chodalGetPart bad [], .chodalList bad [], .malformedPacket bad [],
      .chodalGet (.t1s 0 0) long, .chodalSet (.t1s 0 0) long, .chodalGetPart (.t1s 0 0) long, .chodalList (.t1s 0 0) long,
      .neighbourSolicitation (2 ^ 48) [], .echoRequest (2 ^ 48) [], .arpRequest (2 ^ 48) []] = true := by decide +kernel

theorem test_wf_jobs_and_recorder :
    refuses [.form 64, .suspend 64, .resume 64, .destroy 64, .reform 64, .reformTakeEffect 64, .groupStepSet 64 0,
      .groupStepSet 0 (2 ^ 32), .baselineWrite 64 0 0, .baselineWrite 0 16 0, .baselineWrite 0 0 (2 ^ 32),
      .eventAccept ⟨0, 5, 0, 0, none, [], false⟩, .outageEnd 65536 0 0 0 false] = true := by decide

theorem test_wf_security_and_power :
    refuses [.attestNonce [], .unlockToken [], .boot 3, .deviceReady [156] [] [] [], .deviceReady [] [12] [] [],
      .deviceReady [] [] [32] [], .pwrOkAssert 64, .railFault 0, .railFault 6, .thermalHold 25 0, .thermalTrip 25 0] = true := by decide

/-! ### Steps, numbers, the compute commands -/

theorem test_step_idle_ticks_the_calendar :
    (match step { State.reset with dev := { Dev.reset with calendar := 2 ^ 64 - 1 } } with | .next t => t.dev.calendar | _ => 1) = 0 := by decide

theorem test_step_takes_the_front :
    (match step { State.reset with pending := [.alertClear, .recorderThaw] } with | .next t => t.pending | _ => []) = [.recorderThaw] := by
  decide +kernel

theorem wit_StepRunsFront_empty : State.reset.pending = [] := by decide

theorem wit_ExecKeepsTheQueue : ∃ t, exec .recorderThaw State.reset = .next t := ⟨_, rfl⟩

theorem wit_OneTimeStorageOnlyGrows : ∃ t, step State.reset = .next t := ⟨_, rfl⟩

theorem wit_OneTimeStorageStaysInRange : OtpInRange State.reset.otp ∧ (∃ t, step State.reset = .next t) ∧ OtpInRange ⟨0, 64, 255⟩ := by
  refine ⟨⟨?_, ?_⟩, ⟨_, rfl⟩, ⟨?_, ?_⟩⟩ <;> decide

/-- 5/2 and 7/2 lie half-way: half-even takes 2 and 4; -5/2 takes -2 (R63). -/
theorem test_half_even : shrRHE 5 1 = 2 ∧ shrRHE 7 1 = 4 ∧ shrRHE (-5) 1 = -2 ∧ shrRHE (-7) 1 = -4 ∧ shrRHE 6 2 = 2 := by decide

theorem wit_HalfEven_tie : 2 * ((5 : Int) - shrRHE 5 1 * 2 ^ 1) = 2 ^ 1 ∧ 2 * ((-5 : Int) - shrRHE (-5) 1 * 2 ^ 1) = -(2 ^ 1 : Int) := by decide

theorem wit_Status : ∀ c ∈ [stVoid, stSat, stPoison], c ∈ [stPoison, stDiscard, stScale, stSat, stVoid, stOk] := by decide

/-- POISON stands before ACC_SAT, and ACC_SAT before FORMAT_VOID (R73). -/
theorem test_status_precedence : statusOf [stVoid, stSat, stPoison] = stPoison ∧ statusOf [stVoid, stSat] = stSat ∧ statusOf [] = stOk := by decide

theorem wit_RowWord_bounds : -32768 ≤ ((⟨-32768, true, false, true⟩ : RowWord)).exp ∧ ((⟨32767, false, true, false⟩ : RowWord)).exp ≤ 32767 := by decide

/-- OUT_EXP = -1 with SAT and VOID_SEEN: 0x5FFFF (R57). -/
theorem test_row_word_bits : (⟨-1, true, false, true⟩ : RowWord).enc = 0x5FFFF := by decide

theorem wit_ComputeCommandsRun_mma : ∃ x, (ready 1 []).flight 1 = some x ∧ canRun (ready 1 []) x 1 = true := ⟨_, rfl, by decide +kernel⟩

theorem wit_ComputeCommandsRun_elem : ∃ x, (ready 2 []).flight 1 = some x ∧ canRun (ready 2 []) x 2 = true ∧ bit x.w 80 = false :=
  ⟨_, rfl, by decide +kernel, by decide +kernel⟩

theorem wit_ComputeCommandsRun_elemLoad :
    ∃ x, (ready 2 [(80, 1, 1)]).flight 1 = some x ∧ canRun (ready 2 [(80, 1, 1)]) x 2 = true ∧ bit x.w 80 = true :=
  ⟨_, rfl, by decide +kernel, by decide +kernel⟩

theorem wit_ComputeCommandsRun_conv : ∃ x, (ready 3 []).flight 1 = some x ∧ canRun (ready 3 []) x 3 = true := ⟨_, rfl, by decide +kernel⟩

theorem wit_ComputeCommandsRun_scan : ∃ x, (ready 4 []).flight 1 = some x ∧ canRun (ready 4 []) x 4 = true := ⟨_, rfl, by decide +kernel⟩

theorem wit_ComputeCommandsRun_attend : ∃ x, (ready 5 []).flight 1 = some x ∧ canRun (ready 5 []) x 5 = true := ⟨_, rfl, by decide +kernel⟩

/-- A word inside the program, and one past its last. -/
theorem wit_ComputeCommandsRun_parity : 31 < 32 ∧ 32 ≤ 32 ∧ ∃ x, (ready 2 []).flight 1 = some x ∧ canRun (ready 2 []) x 2 = true ∧ bit x.w 80 = false :=
  ⟨by decide, by decide, wit_ComputeCommandsRun_elem⟩

/-- A descriptor that is not delivered, and an `elem` whose IMAGE bit is the other command's. -/
theorem wit_ComputeCommandsRun_no_effect :
    (∀ x, (fly (jobOn base 0) (fl [(0, 8, 1)])).flight 1 = some x → canRun (fly (jobOn base 0) (fl [(0, 8, 1)])) x 1 = true → False) ∧
    (∀ x, (ready 2 []).flight 1 = some x → canRun (ready 2 []) x 2 = true → ∃ b, some true = some b ∧ bit x.w 80 ≠ b) := by
  refine ⟨fun x h => ?_, fun x h _ => ⟨true, rfl, ?_⟩⟩ <;> obtain rfl := Option.some.inj (Eq.trans h.symm rfl) <;> decide +kernel

/-- Before its doorbell a share does not run (R439). -/
theorem test_no_run_before_the_doorbell :
    let d := fly (jobOn base 0) { fl [(0, 8, 1)] with plans := [share] }
    (after (.mma 1) d).blk.tenants = [] ∧ ((after (.mma 1) d).flight 1).map (·.started) = some false := by decide +kernel

/-- The doorbell delivers the share (R439). -/
theorem test_doorbell_delivers :
    let d := fly (jobOn base 0) { fl [(0, 8, 1)] with plans := [share] }
    ((after (.blockDoorbell 1 0) d).flight 1).map (·.rung) = some [0] := by decide +kernel

theorem wit_AccTileReadsBack_merged_rows : shapeLegal 6 = true ∧ 63 < (shapeOf 6).x ∧ 126 + 1 < 128 := by decide

theorem wit_AccTileReadsBack_merged_columns : shapeLegal 9 = true ∧ 3 < (shapeOf 9).x ∧ shapeLegal 8 = true ∧ shapeLegal 0 = true := by decide

/-- Shape 9 puts element (2, 5) of sub-slot 3 at row 2, column 4 x 5 + 3 (R86); shape 2 puts it at row 4 x 2 + 3, column 5. -/
theorem test_sub_slot_positions : subPos (shapeOf 9) 3 2 5 = (2, 23) ∧ subPos (shapeOf 2) 3 2 5 = (11, 5) := by decide

/-- Bits of an `mma` of one tile: A and B in O8 of the OPB, OUT in ACC as A32, M = N = K = 64 (R424). -/
def mma1 : List (Nat × Nat × Nat) :=
  [(128, 2, 1), (130, 3, 2), (176, 2, 1), (178, 3, 2), (184, 21, 8192), (272, 2, 2), (274, 3, 4), (356, 16, 64), (372, 16, 64), (388, 24, 64)]

theorem wit_KLoopRunsOneTile : ∃ x, (ready 1 mma1).flight 1 = some x ∧ x.plans.find? (fun p => p.blk == 0) = some share ∧
    loopsLeft x share (arrayJob x) = [(0, 0, 0)] ∧ onArray x = true ∧ canRun (ready 1 mma1) x x.opcode = true ∧
    arrayStop (beginRun (ready 1 mma1) x) x = none ∧ share.loopNo (0, 0, 0) = 0 := ⟨_, rfl, by decide +kernel, by decide +kernel, by decide +kernel, by decide +kernel, by decide +kernel, by decide +kernel⟩

/-- A poisoned operand, a schedule that convicts a second column, and a K-loop that passes after one re-run. -/
def poisoned1 : Dev := withSeg (fly (jobOn base 0) (shared (fl ((0, 8, 1) :: [(128, 2, 3), (130, 3, 2), (136, 19, 3), (176, 2, 1), (178, 3, 2), (272, 2, 2), (274, 3, 4),
  (356, 16, 64), (372, 16, 64), (388, 24, 64)])))) 3 { seg0 with st := 3 }

theorem wit_KLoop_stop : ∃ x, poisoned1.flight 1 = some x ∧ (loopsLeft x share (arrayJob x)).head? = some (0, 0, 0) ∧ onArray x = true ∧
    canRun poisoned1 x x.opcode = true ∧ arrayStop (beginRun poisoned1 x) x = some stPoison :=
  ⟨_, rfl, by decide +kernel, by decide +kernel, by decide +kernel, by decide +kernel⟩

theorem wit_KLoop_residue : ∃ x, (ready 1 mma1).flight 1 = some x ∧ arrayStop (beginRun (ready 1 mma1) x) x = none ∧
    (residueLoop (beginRun (ready 1 mma1) x) x 0 (shapeOf 0) [[5], [5], [6], [6]]).2 = true ∧
    (residueLoop (beginRun (ready 1 mma1) x) x 0 (shapeOf 0) [[5], [5], []]).2 = false ∧
    (residueLoop (beginRun (ready 1 mma1) x) x 0 (shapeOf 0) [[5], []]).2 = false :=
  ⟨_, rfl, by decide +kernel, by decide +kernel, by decide +kernel, by decide +kernel⟩

theorem wit_KLoop_no_effect : ¬∃ x pl t, (jobOn base 0).flight 1 = some x ∧ x.plans.find? (fun p => p.blk == 0) = some pl ∧
    (loopsLeft x pl (arrayJob x)).head? = some t ∧ onArray x = true ∧ canRun (jobOn base 0) x x.opcode = true ∧ pl.loopNo t = 0 := by
  rintro ⟨x, _, _, h, _⟩
  exact absurd (show (jobOn base 0).flight 1 = none by decide +kernel) (by rw [h]; simp)

theorem wit_ColumnSwitch : base.dget (O.SPARE_COLUMN_MAP 155) = 255 ∧ 63 < 64 ∧ 155 < 156 := by decide +kernel

/-- A column switch is recorded in the block's map (R100). -/
theorem test_column_switch_maps : (columnSwitch base (fl []) 155 63 false).dget (O.SPARE_COLUMN_MAP 155) = 63 := by decide +kernel

/-- The state of a tile that the audit chooses (AUDIT_SHIFT 4), drained, its master copy of A in segment 0. -/
def audited : Dev :=
  let x := { shared (fl ((0, 8, 1) :: (32, 32, 8) :: (82, 1, 1) :: mma1)) with started := true, tiles := [(0, 0)], audits := [⟨0, 0, 0, 0, [], [], [], []⟩] }
  withSeg (fly ((jobOn base 0).dset (settingKey 0 5) 4) x) 0 { seg0 with frames := 3, len64 := 131 }

theorem wit_ShadowAudit : ∃ x, audited.flight 1 = some x ∧ x.opcode = 1 ∧ x.started = true ∧ x.done = none ∧
    x.plans.find? (fun pl => decide (pl.col0 ≤ 64 * 0 ∧ 64 * 0 < pl.col0 + pl.cols)) = some share ∧
    (mmaD x.w).masterValid = true ∧ 0 < (mmaD x.w).k ∧ 64 * 0 < (mmaD x.w).m ∧ tileDrained x share (mmaD x.w).matJob 0 0 = true ∧
    audited.segOk (mmaD x.w).masterSeg = true ∧
    x.results.contains (0, 0, 0) = false := by
  refine ⟨_, rfl, ?_, ?_, ?_, ?_, ?_, ?_, ?_, ?_, ?_, ?_⟩ <;> decide +kernel

theorem wit_ShadowAudit_operands : ∃ x, audited.flight 1 = some x ∧
    let parts := x.audits.filter (fun a => a.tr == 0 && a.tc == 0)
    parts.isEmpty = false ∧ (auditProd audited x share parts).a.bad = false ∧ (auditProd audited x share parts).b.bad = false :=
  ⟨_, rfl, by decide +kernel, by decide +kernel, by decide +kernel⟩

/-! ### Queues and completion -/

theorem wit_QueueCommands_doorbell : ∃ x,
    let d := fly (jobOn base 0) { fl [(0, 8, 1)] with plans := [share] }
    d.flight 1 = some x ∧ (d.place x.job 0).phys = some 0 ∧ x.live = true ∧ x.blocks.contains 0 = true ∧ x.rung.contains 0 = false :=
  ⟨_, rfl, by decide +kernel, by decide, by decide, by decide⟩

/-- Decided OK, on queue 0. -/
def decided : Dev := fly (jobOn base 0) { fl [(0, 8, 2), (14, 1, 1), (16, 16, 0xBEEF), (32, 32, 7)] with done := some stOk }

theorem wit_QueueCommands_doorbell_none : ((fly (jobOn base 0) { fl [(0, 8, 1)] with plans := [share], rung := [0] }).flight 1).map (·.rung.contains 0) = some true ∧
    (jobOn base 0).flight 1 = none ∧ ((jobOn base 0).job 0).stage 5 = none := by decide +kernel

theorem wit_QueueCommands_complete : (∃ x, decided.flight 1 = some x ∧ x.done = some stOk) ∧
    ∀ x, (ready 1 []).flight 1 = some x → x.done = none := by
  refine ⟨⟨_, rfl, by decide⟩, fun x h => ?_⟩
  obtain rfl := Option.some.inj (Eq.trans h.symm rfl)
  decide

/-- A stage that nothing feeds, with no step under way; with one under way; and a fed stage without and with its input. -/
theorem wit_QueueCommands_stage : ∃ st, ((jobOn base 0).job 0).stage 0 = some st ∧
    (forwardAll (jobOn base 0) 0 0).blk.stageStep.any (fun e => e.1 == 0 && e.2.1 == 0) = false ∧ st.inLen = 0 ∧
    (∀ e ∈ (jobOn base 0).blk.stageStep, e.1 ≠ 0) := ⟨_, rfl, by decide +kernel, by decide, by decide⟩

def piped (k : Blk → Blk) : Dev := ((jobOn base 0).modJob 0 (fun x => { x with
  pipes := [(0, [⟨0, [0], 0, 0, 0, 0, 0, 0⟩, ⟨1, [0], 0, 0, 0, 64, 0, 0⟩])] })).setBlk k

theorem wit_QueueCommands_stage_fed : ∃ st, ((piped id).job 0).stage 1 = some st ∧ 0 < st.inLen ∧
    (piped id).blk.inputs.contains (0, 1, 5) = false ∧ (∀ e ∈ (piped id).blk.stageStep, e.1 ≠ 0) ∧
    (piped (fun k => { k with inputs := [(0, 1, 5)] })).blk.inputs.contains (0, 1, 5) = true :=
  ⟨_, by rfl, by decide, by decide +kernel, by decide, by decide +kernel⟩

theorem wit_QueueCommands_stage_busy :
    (forwardAll (piped (fun k => { k with stageStep := [(0, 0, 4)] })) 0 0).blk.stageStep.any (fun e => e.1 == 0 && e.2.1 == 0) = true := by
  decide +kernel

theorem test_stage_waits_for_its_input :
    (after (.stageStepStart 0 1 5) (piped id)).blk.stageStep = [] ∧ (after (.stageStepStart 0 0 5) (piped id)).blk.stageStep = [(0, 0, 5)] := by decide +kernel

/-- The last slot but the wrap: HEAD 2^32 - 1, TAIL 0, a ring of 8 in segment 5. -/
def queued : Dev := sets (withSeg (jobOn base 0) 5 seg0)
  [(O.QUEUE_SEG 0 0, 5), (O.QUEUE_HEAD 0 0, 2 ^ 32 - 1), (O.COMPL_HEAD 0 0, 2 ^ 32 - 1), (O.COMPL_TAIL 0 0, 2 ^ 32 - 1)]

theorem wit_FetchTakesTheNextDescriptor : mayFetch queued 0 0 = true ∧ mayFetch base 0 0 = false ∧
    fld (BitVec.ofNat 512 (leAt (queued.segRead 5 (7 * 64) 64) 0 64) : Word512).toNat 0 8 ≠ 9 ∧ queued.flight queued.sched.nextFlight = none ∧
    (∀ p ∈ (queued.job 0).slow, p.1 < 16) := by decide +kernel

/-- The head wraps from 2^32 - 1 to 0 and the flight takes index 2^32 - 1 (R417). -/
theorem test_fetch_wraps_the_head :
    let d := after (.descriptorFetch 0 0) queued
    d.dget (O.QUEUE_HEAD 0 0) = 0 ∧ (d.flight 1).map (·.index) = some (2 ^ 32 - 1) := by decide +kernel

theorem test_fetch_of_an_empty_queue : (after (.descriptorFetch 0 0) (queued.dset (O.QUEUE_TAIL 0 0) (2 ^ 32 - 1))).sched.flights = [] := by
  decide +kernel

/-- A ring in place, and one whose segment is compressed. -/
theorem wit_CompletionRecord : 0 < nth 0 (decided.job 0).depths 0 ∧ decided.segWriteStatus (decided.dget (O.COMPL_SEG 0 0)) = 0 ∧
    (withSeg decided 0 { seg0 with comp := true }).segWriteStatus 0 ≠ 0 := by decide +kernel

/-- The record of an OK `elem` of job 0, step 7, OP_TAG 0xBEEF: bytes 0 to 3 are 0, 0, 0, 2, bytes 4 to 7 the step, 18 and 19 the tag (R436). -/
theorem test_completion_record :
    let d := after (.descriptorComplete 1 0) (withSeg decided 0 seg0)
    d.segRead 0 0 8 = [0, 0, 0, 2, 7, 0, 0, 0] ∧ d.segRead 0 18 2 = [0xEF, 0xBE] ∧ d.dget (O.COMPL_TAIL 0 0) = 1 ∧
    d.sched.flights = [] := by decide +kernel

/-- A record a full ring ahead stands in slot 0 again. -/
theorem test_completion_slot_wraps :
    ((after (.descriptorComplete 1 0) ((withSeg decided 0 seg0).dset (O.COMPL_TAIL 0 0) 8)).segRead 0 0 4) = [0, 0, 0, 2] := by decide +kernel

theorem test_poison_discards_the_step :
    let d := fly (fly (jobOn base 0) { fl [(0, 8, 1), (32, 32, 7)] with done := some stPoison })
      { fl [(0, 8, 1), (32, 32, 7)] with id := 2, plans := [share] }
    ((after (.descriptorComplete 1 0) d).flight 2).map (·.done) = some (some stDiscard) := by decide +kernel

/-! ### The tiered store -/

/-- One-operation move descriptor of job 0, its record in the OPB at 0, its RESULT at 64. -/
def mover : Flight := fl [(0, 8, 6), (128, 2, 1), (130, 3, 6), (176, 2, 1), (178, 3, 6), (184, 21, 64), (224, 7, 1)]

/-- The descriptor in flight with this record (low bit, width, value), segment 0 as given. -/
def moving (rec : List (Nat × Nat × Nat)) (r : Res) : Dev :=
  withSeg (fly ((jobOn base 0).opbWrite 0 0 (leBytes 16 (sumNat (rec.map (fun f => at' f.1 f.2.1 f.2.2))))) mover) 0 r

def copies : Judged → Bool
  | .copy _ => true
  | _ => false

theorem copies_to {j : Judged} (h : copies j = true) : ∃ e, j = .copy e := by cases j <;> simp_all [copies]

/-- The hypotheses on the segment that the clauses of DEMOTE, REHOME and RELOCATE share, with a destination that can be reserved. -/
def copyReady (d : Dev) (h : Nat) (c : Bool) : Prop :=
  let e := d.start 1
  let m := moveOf d 1 0 mover
  moveDest e m = (some h, c) ∧ Unmoved e 0 ∧ (e.res 0).st = 1 ∧ e.pinsOn 0 = 0 ∧ ¬(h = (e.res 0).homeNo ∧ m.transpose = false ∧ c = (e.res 0).comp) ∧
  copies (startCopy e m h c) = true

theorem wit_MoveOperations_batch :
    let x := fl [(0, 8, 6), (128, 2, 1), (130, 3, 6), (176, 2, 1), (178, 3, 6), (184, 21, 64), (224, 7, 1), (231, 1, 1)]
    MoveTakes (withSeg (fly ((jobOn base 0).opbWrite 0 0 (leBytes 16 2)) x) 0 seg0) 1 0 2 x ∧ moveBatch x = true := by
  unfold MoveTakes; decide +kernel

/-- A DEMOTE of a segment that is free. -/
theorem wit_MoveOperations_illegal : let d := moving [(0, 4, 4)] Res.free
    MoveTakes d 1 0 4 mover ∧ moveBatch mover = false ∧ moveOpOk (d.start 1) 0 (listRec d mover 0) = false := by
  unfold MoveTakes; decide +kernel

/-- Behind an active move, with room and without. -/
theorem wit_MoveOperations_waits : ∀ n ∈ [0, 15], let d := moving [(0, 4, 4)] { seg0 with st := 2, queued := n }
    MoveLegal d 1 0 4 mover ∧ ((d.start 1).res 0).st = 2 ∧ ((d.start 1).res 0).queued = n := by
  unfold MoveLegal MoveTakes; decide +kernel

/-- LIST lies in segment 3, which is poisoned. -/
theorem wit_MoveOperations_list :
    let x := fl [(0, 8, 6), (128, 2, 3), (130, 3, 6), (136, 19, 3), (176, 2, 1), (178, 3, 6), (184, 21, 64), (224, 7, 1)]
    let d := withSeg (fly (jobOn base 0) x) 3 { seg0 with st := 3 }
    d.flight 1 = some x ∧ x.opcode = 6 ∧ x.live = true ∧ (x.started || scoreFree d x) = true ∧ acceptedOps d x = 0 ∧ 0 < moveCount x ∧
    d.refReady (listRef x) false = true ∧ d.refStatus (listRef x) ≠ 0 := by decide +kernel

theorem wit_MoveOperations_alloc : MoveLegal (moving [(0, 4, 1), (11, 1, 1), (35, 18, 131072)] Res.free) 1 0 1 mover := by
  unfold MoveLegal MoveTakes; decide +kernel

theorem wit_MoveOperations_free_kept : (∀ r ∈ [{ seg0 with refs := 1 }, { seg0 with pin := 1 }], let d := moving [(0, 4, 2)] r
    MoveLegal d 1 0 2 mover ∧ Unmoved (d.start 1) 0) ∧ ((moving [(0, 4, 2)] { seg0 with refs := 1 }).start 1).pinsOn 0 = 0 ∧
    0 < ((moving [(0, 4, 2)] { seg0 with pin := 1 }).start 1).pinsOn 0 := by
  unfold MoveLegal MoveTakes Unmoved; decide +kernel

theorem wit_MoveOperations_free : let d := moving [(0, 4, 2)] seg0
    MoveLegal d 1 0 2 mover ∧ Unmoved (d.start 1) 0 ∧ (d.start 1).pinsOn 0 = 0 ∧ ((d.start 1).res 0).refs = 0 := by
  unfold MoveLegal MoveTakes Unmoved; decide +kernel

theorem wit_MoveOperations_demote : let d := moving [(0, 4, 4)] seg0
    MoveLegal d 1 0 4 mover ∧ copyReady d 12 false := by unfold MoveLegal MoveTakes copyReady Unmoved; decide +kernel

theorem wit_MoveOperations_demote_home : let d := moving [(0, 4, 4)] { seg0 with tier := 1 }
    MoveLegal d 1 0 4 mover ∧ moveDest (d.start 1) (moveOf d 1 0 mover) = (some 12, false) ∧ ((d.start 1).res 0).homeNo = 12 ∧
    (moveOf d 1 0 mover).transpose = false ∧ Unmoved (d.start 1) 0 ∧ ((d.start 1).res 0).st = 1 ∧ (d.start 1).pinsOn 0 = 0 ∧
    ((d.start 1).res 0).comp = false := by
  unfold MoveLegal MoveTakes Unmoved; decide +kernel

theorem wit_MoveOperations_rehome : let d := moving [(0, 4, 5), (12, 4, 11)] seg0
    MoveLegal d 1 0 5 mover ∧ copyReady d 11 false ∧ ((d.start 1).res 0).tier = 0 := by
  unfold MoveLegal MoveTakes copyReady Unmoved; decide +kernel

theorem wit_MoveOperations_rehome_home : let d := moving [(0, 4, 5), (12, 4, 0)] seg0
    MoveLegal d 1 0 5 mover ∧ moveDest (d.start 1) (moveOf d 1 0 mover) = (some 0, false) ∧ ((d.start 1).res 0).homeNo = 0 ∧
    (moveOf d 1 0 mover).transpose = false ∧ ((d.start 1).res 0).tier = 0 ∧ Unmoved (d.start 1) 0 ∧ ((d.start 1).res 0).st = 1 ∧
    (d.start 1).pinsOn 0 = 0 ∧ ((d.start 1).res 0).comp = false := by
  unfold MoveLegal MoveTakes Unmoved; decide +kernel

theorem wit_MoveOperations_relocate : let d := moving [(0, 4, 6)] seg0
    MoveLegal d 1 0 6 mover ∧ Unmoved (d.start 1) 0 ∧ ((d.start 1).res 0).st = 1 ∧
    copies (startCopy (d.start 1) (moveOf d 1 0 mover) ((d.start 1).res 0).homeNo ((d.start 1).res 0).comp) = true := by
  unfold MoveLegal MoveTakes Unmoved; decide +kernel

theorem wit_MoveOperations_promote : let d := moving [(0, 4, 3), (12, 4, 0)] { seg0 with tier := 1, pin := 0 }
    let e := d.start 1
    let p := e.ledgerPin 0 0
    let m := moveOf d 1 0 mover
    MoveLegal d 1 0 3 mover ∧ Unmoved e 0 ∧ (e.res 0).st = 1 ∧ e.dget (O.PINS_HELD 0) < 4096 ∧ e.pinFree 0 false = true ∧
    moveDest p m = (some 0, false) ∧ (p.res 0).homeNo ≠ 0 ∧ e.pinsOn 0 = 0 ∧ copies (startCopy p m 0 false) = true := by
  unfold MoveLegal MoveTakes Unmoved; decide +kernel

/-- At the bounds: 4,095 pins held, 16,382 on the entry, and the segment at its home. -/
theorem wit_MoveOperations_promote_home : let d := (moving [(0, 4, 3), (12, 4, 0)] { seg0 with pin := 16382 }).dset (O.PINS_HELD 0) 4095
    let e := d.start 1
    let p := e.ledgerPin 0 0
    let m := moveOf d 1 0 mover
    MoveLegal d 1 0 3 mover ∧ Unmoved e 0 ∧ (e.res 0).st = 1 ∧ e.dget (O.PINS_HELD 0) < 4096 ∧ e.pinFree 0 false = true ∧
    moveDest p m = (some 0, false) ∧ (p.res 0).homeNo = 0 ∧ m.transpose = false ∧ (p.res 0).comp = false := by
  unfold MoveLegal MoveTakes Unmoved; decide +kernel

/-- A list that reads ALLOC: 1,024 units are 64 KiB, 16 frames in the slow tier (R262). -/
theorem test_alloc : let d := after (.alloc 1 0) (moving [(0, 4, 1), (11, 1, 1), (35, 18, 1024)] Res.free)
    (d.res 1).st = 1 ∧ (d.res 1).tier = 1 ∧ (d.res 1).frames = 16 ∧ (d.flight 1).map (·.done) = some (some stOk) := by decide +kernel

theorem test_free_of_a_pinned_segment :
    let d := after (.free 1 0) (moving [(0, 4, 2)] { seg0 with pin := 1 })
    (d.res 0).st = 1 ∧ (d.flight 1).map (·.done) = some (some stBusyPinned) ∧ d.dget (O.BUSY_PINNED_COUNT 0) = 1 := by decide +kernel

theorem test_demote_moves_its_bytes :
    let d := (moving [(0, 4, 4)] seg0).segWrite 0 4 [0xAB]
    let e := after (.moveCommit 0) (after (.demote 1 0) d)
    (e.res 0).tier = 1 ∧ e.segRead 0 4 1 = [0xAB] ∧ (e.res 0).st = 1 := by decide +kernel

theorem wit_PinLedger_quota : let d := (moving [(0, 4, 7)] seg0).dset (O.PINS_HELD 0) 4096
    MoveLegal d 1 0 7 mover ∧ Unmoved (d.start 1) 0 ∧ 4096 ≤ (d.start 1).dget (O.PINS_HELD 0) := by unfold MoveLegal MoveTakes Unmoved; decide +kernel

theorem wit_PinLedger_promote_quota : let d := (moving [(0, 4, 3)] seg0).dset (O.PINS_HELD 0) 4096
    MoveLegal d 1 0 3 mover ∧ Unmoved (d.start 1) 0 ∧ 4096 ≤ (d.start 1).dget (O.PINS_HELD 0) ∧ ((d.start 1).res 0).st = 1 := by
  unfold MoveLegal MoveTakes Unmoved; decide +kernel

theorem wit_PinLedger_pin : let d := (moving [(0, 4, 7)] { seg0 with pin := 16382 }).dset (O.PINS_HELD 0) 4095
    MoveLegal d 1 0 7 mover ∧ Unmoved (d.start 1) 0 ∧ (d.start 1).dget (O.PINS_HELD 0) < 4096 ∧ (d.start 1).pinFree 0 false = true := by
  unfold MoveLegal MoveTakes Unmoved; decide +kernel

/-- 16,383 pins on the entry: the PIN waits. -/
theorem wit_PinLedger_wait : let d := moving [(0, 4, 7)] { seg0 with pin := 16383 }
    MoveLegal d 1 0 7 mover ∧ Unmoved (d.start 1) 0 ∧ (d.start 1).dget (O.PINS_HELD 0) < 4096 ∧ (d.start 1).pinFree 0 false = false := by
  unfold MoveLegal MoveTakes Unmoved; decide +kernel

theorem wit_PinLedger_unpin : let d := (moving [(0, 4, 8)] seg0).ledgerPin 0 0
    MoveLegal d 1 0 8 mover ∧ Unmoved (d.start 1) 0 ∧ 0 < (d.start 1).ledgerCount 0 0 := by unfold MoveLegal MoveTakes Unmoved; decide +kernel

theorem wit_PinLedger_unpin_none : let d := moving [(0, 4, 8)] { seg0 with pin := 1 }
    MoveLegal d 1 0 8 mover ∧ Unmoved (d.start 1) 0 ∧ (d.start 1).ledgerCount 0 0 = 0 := by unfold MoveLegal MoveTakes Unmoved; decide +kernel

theorem test_pin_and_unpin :
    let d := after (.pin 1 0) (moving [(0, 4, 7)] seg0)
    (d.res 0).pin = 1 ∧ d.dget (O.PINS_HELD 0) = 1 ∧
    ((after (.unpin 1 0) (moving [(0, 4, 8)] seg0)).flight 1).map (·.done) = some (some stField) := by decide +kernel

/-- A waiting DEMOTE of segment 0, and a waiting RELOCATE before it. -/
def waiting : Dev :=
  let m : Move := { (default : Move) with seg := 0, of := some (1, 0), op := 6 }
  ((withSeg (jobOn base 0) 0 seg0).queueMove m).queueMove { m with op := 4, of := some (1, 1) }

theorem wit_MoveQueueHead_before_relocate : waiting.activeMove 0 = none ∧
    ((waiting.waitingMoves 0).find? (fun m => m.op != 6)).map (·.of) = some (some (1, 1)) ∧
    (((waiting.waitingMoves 0).find? (fun m => m.op != 6)).map (fun m =>
      copies (judgeMove ((waiting.takeMove m).unqueue m) m))) = some true := by decide +kernel

theorem wit_MoveQueueHead_only_relocate :
    let m : Move := { (default : Move) with seg := 0, of := some (1, 0), op := 6 }
    let d := (withSeg base 0 seg0).queueMove m
    d.activeMove 0 = none ∧ (d.waitingMoves 0).find? (fun m => m.op != 6) = none ∧ (d.waitingMoves 0).head? = some m := by decide +kernel

def judgedDone : Judged → Bool
  | .done _ _ => true
  | _ => false

theorem wit_MoveQueueHead_done :
    let m : Move := { (default : Move) with seg := 0, of := some (1, 0), op := 2 }
    let d := (withSeg base 0 seg0).queueMove m
    d.activeMove 0 = none ∧ (d.waitingMoves 0).find? (fun m => m.op != 6) = some m ∧
    judgedDone (judgeMove ((d.takeMove m).unqueue m) m) = true := by decide +kernel

theorem wit_MoveQueueHead_none : base.waitingMoves 0 = [] ∧
    (match judgeMove ((withSeg base 0 { seg0 with pin := 16383 }).unqueue { (default : Move) with op := 7 }) { (default : Move) with op := 7 } with
      | .wait => true | _ => false) = true := by decide +kernel

/-- Segment 0 on its way to slow frame 0. -/
def leaving : Dev := after (.demote 1 0) (moving [(0, 4, 4)] seg0)

theorem wit_MoveCommit : (leaving.activeMove 0).isSome = true ∧ (leaving.res 0).wpin = 0 ∧ leaving.segOk 0 = true ∧
    (leaving.activeMove 0).all (fun m => commitPins leaving m == 0) = true := by decide +kernel

/-- With a write pin, with a read pin, and with a tile that fails its check. -/
theorem wit_MoveCommit_waits : (leaving.modRes 0 (fun r => { r with wpin := 1 })).activeMove 0 = leaving.activeMove 0 ∧
    (leaving.activeMove 0).all (fun m => decide (0 < commitPins (leaving.modRes 0 (fun r => { r with pin := 1 })) m)) = true ∧
    (leaving.modRes 0 (fun r => { r with pin := 1 })).segOk 0 = true ∧
    (leaving.modRes 0 (fun r => { r with comp := true })).segOk 0 = false := by decide +kernel

theorem wit_MoveCommit_landing : (leaving.activeMove 0).all (fun m =>
    let r := leaving.res 0
    let home := if m.destTier = 0 then m.destHome else 12
    !m.transpose && (m.compress == r.comp) && decide (m.destTier = 0 → m.destHome < 12) && decide (r.len ≤ r.frames * 4096) &&
    decide (r.tier = 0 → r.home < 12) && decide ((r.homeNo < 12 ↔ home < 12) →
      cellKey r.homeNo r.frame 0 + r.frames * 4096 ≤ cellKey home m.destFrame 0 ∨ cellKey home m.destFrame 0 + r.frames * 4096 ≤ cellKey r.homeNo r.frame 0)) = true := by
  decide +kernel

/-! ### Reduction -/

/-- One bucket tile of a reduction among two, of name (5, 6, 7), step 1, this module a relay of the tree's child port 2. -/
def red1 : List (Nat × Nat × Nat) :=
  [(0, 8, 7), (128, 16, 5), (144, 16, 6), (160, 8, 7), (168, 32, 1), (200, 17, 2), (263, 17, 2), (281, 4, 2), (285, 15, 9), (300, 7, 1), (331, 11, 1)]

/-- The same with a local rank gradient at OPB 0 of logical block 0. -/
def redLocal : Flight := fl (red1 ++ [(217, 1, 1), (218, 16, 1)])
def redRelay : Flight := fl red1

def reducing (x : Flight) : Dev := fly ((jobOn base 0).dset (O.REDUCE_GRANT 0) 64) x

/-- The same descriptor with its context open. -/
def opened (x : Flight) : Dev := openCtx (reducing x) x (reduceD x.w)

/-- With room for its context, and with none. -/
theorem wit_ReduceDescriptorsJoin_open : reduceFlight (reducing redLocal) 1 = some redLocal ∧ scoreFree (reducing redLocal) redLocal = true ∧
    (reducing redLocal).ctxOf 5 6 7 = none ∧ ctxRoom (reducing redLocal) 0 1 = true ∧
    ctxRoom ((reducing redLocal).dset (O.REDUCE_GRANT 0) 63) 0 1 = false := by decide +kernel

/-- Behind an `mma` that writes block 0's gradient. -/
theorem wit_ReduceDescriptorsJoin_waits :
    let d := fly (fly (jobOn base 0) { shared (fl [(0, 8, 1), (128, 2, 1), (176, 2, 1), (272, 2, 1), (274, 3, 2), (356, 16, 64), (372, 16, 64), (388, 24, 64)]) with id := 2 }) redLocal
    reduceFlight d 1 = some redLocal ∧ scoreFree d redLocal = false := by decide +kernel

theorem wit_ReduceDescriptorsJoin_relay : reduceFlight (opened redRelay) 1 = some redRelay ∧ scoreFree (opened redRelay) redRelay = true ∧
    (reduceD redRelay.w).isLocal = false ∧
    ((opened redRelay).ctxOf 5 6 7).map (fun c => ctxAgrees c redRelay (reduceD redRelay.w)) = some true := by decide +kernel

/-- Before the scales are agreed, and after. -/
theorem wit_ReduceDescriptorsJoin_local : reduceFlight (opened redLocal) 1 = some redLocal ∧ scoreFree (opened redLocal) redLocal = true ∧
    (reduceD redLocal.w).isLocal = true ∧
    ((opened redLocal).ctxOf 5 6 7).map (fun c => (ctxAgrees c redLocal (reduceD redLocal.w), decide (c.count < c.subtree), c.tb.isSome)) = some (true, true, false) ∧
    (∀ b ∈ localScales (opened redLocal) 0 0 0 1, scaleOf b ≠ .bad) := by decide +kernel

def reopened (f : RCtx → RCtx) : Dev := (opened redLocal).setRed (fun r => { r with ctxs := r.ctxs.map f })

theorem wit_ReduceDescriptorsJoin_late :
    ((reopened (fun c => { c with tb := some (List.replicate 64 0) })).ctxOf 5 6 7).map (fun c => (ctxAgrees c redLocal (reduceD redLocal.w),
      decide (c.count < c.subtree), c.tb.isSome)) = some (true, true, true) := by decide +kernel

/-- The context has all its contributions; it is of other TILES. -/
theorem wit_ReduceDescriptorsJoin_over :
    ((reopened (fun c => { c with count := c.subtree })).ctxOf 5 6 7).map (fun c => decide (c.subtree ≤ c.count)) = some true ∧
    ((reopened (fun c => { c with tiles := 2 })).ctxOf 5 6 7).map (fun c => ctxAgrees c redLocal (reduceD redLocal.w)) = some false := by decide +kernel

theorem wit_ReduceDescriptorsJoin_badScale :
    let d := (opened redLocal).setMem (fun m => { m with shadow := [(63, 0x81)] })
    (d.ctxOf 5 6 7).map (fun c => (ctxAgrees c redLocal (reduceD redLocal.w), decide (c.count < c.subtree))) = some (true, true) ∧
    (∃ b ∈ localScales d 0 0 0 1, scaleOf b = .bad) := ⟨by decide +kernel, 0x81, by decide +kernel, by decide⟩

/-- The rank gradient's own scale bytes (0) are folded, one contribution counted (R309). -/
theorem test_reduce_counts_its_rank :
    let d := after (.reduce 1) (opened redLocal)
    (d.ctxOf 5 6 7).map (fun c => (c.count, nth 0 c.fold 0)) = some (1, 0) := by decide +kernel

theorem test_context_open : ((after (.reduceContextOpen 1) (reducing redLocal)).ctxOf 5 6 7).map (fun c => (c.count, nth 0 c.fold 63)) = some (0, 0x80) := by
  decide +kernel

/-- A record of the name (5, 6, 7) with its check: header without CRC, body. -/
def rcdHead (kind tiles step cnt : Nat) (epoch : Nat := 7) : Bytes := leBytes 28 (at' 0 8 kind + at' 8 8 epoch + at' 16 16 6 + at' 32 16 5 + at' 56 7 tiles +
    at' 64 32 step + at' 96 32 cnt + at' 192 15 3)

def sealed (h body : Bytes) : Bytes := h ++ leBytes 4 (crc32c (h ++ body)) ++ body

theorem sealed_head {h body : Bytes} (hl : h.length = 28) : leAt (sealed h body) 0 28 = ofLe h := by
  simp [leAt, sealed, hl]

theorem sealed_body {h body : Bytes} (hl : h.length = 28) : (sealed h body).drop 32 = body := by
  simp [sealed, hl, length_leBytes, List.drop_append]

theorem sealed_good {h body : Bytes} (hl : h.length = 28) :
    crc32c ((sealed h body).take 28 ++ (sealed h body).drop 32) = leAt (sealed h body) 28 4 := by
  have h1 : (sealed h body).take 28 = h := by simp [sealed, hl]
  have h2 : leAt (sealed h body) 28 4 = crc32c (h ++ body) := by
    have : ((sealed h body).drop 28).take 4 = leBytes 4 (crc32c (h ++ body)) := by
      simp [sealed, hl, length_leBytes]
    rw [leAt, this, ofLe_leBytes]
    exact Nat.mod_eq_of_lt (BitVec.isLt _)
  rw [h1, h2, sealed_body hl]

/-- Port 2 up toward the parent, the context of the relay open, step 1, SUBTREE_C 2. -/
def treeUp (x : Flight) (f : RCtx → RCtx) : Dev :=
  (up (opened x) 2).setRed (fun r => { r with ctxs := r.ctxs.map f })

theorem good_of (d : Dev) {h body : Bytes} (hl : h.length = 28) (hp : d.portUp 2 = true ∧ d.isHostPort 2 = false ∧ (d.port 2).peerHost = false)
    (hk : let r := rcdOf h; 1 ≤ r.kind ∧ r.kind ≤ 4 ∧ 1 ≤ r.tiles ∧ r.tiles ≤ 64 ∧ body.length = rcdBodyLen r) :
    GoodRecord d 2 (sealed h body) := by
  obtain ⟨a, b, c⟩ := hp
  refine ⟨a, b, c, ?_⟩
  have e0 : ofLe h = leAt h 0 28 := by simp [leAt, ← hl]
  have e : (rcdOf (sealed h body)).kind = (rcdOf h).kind ∧ (rcdOf (sealed h body)).tiles = (rcdOf h).tiles := by
    simp [rcdOf, sealed_head hl, e0]
  have e2 : rcdBodyLen (rcdOf (sealed h body)) = rcdBodyLen (rcdOf h) := by simp [rcdBodyLen, e.1, e.2]
  have e3 : (sealed h body).length = 32 + body.length := by simp [sealed, hl, length_leBytes]; omega
  obtain ⟨k1, k2, k3, k4, k5⟩ := hk
  simp only [rcdGood, e.1, e.2, e2, e3, sealed_good hl, k5, beq_self_eq_true, Bool.and_true]
  simp [k1, k2, k3, k4]

theorem wit_ReduceRecords_waits : GoodRecord (up base 2) 2 (sealed (rcdHead 1 1 1 1) (List.replicate 64 0)) ∧
    (up base 2).red.ctxs.find? (fun c => c.tag == 5 && c.id == 6) = none :=
  ⟨good_of _ (by decide +kernel) (by decide +kernel) (by decide +kernel), by decide +kernel⟩

/-- The last contribution that SUBTREE_C allows. -/
theorem wit_ReduceRecords_scaleUp :
    let d := treeUp redRelay id
    GoodRecord d 2 (sealed (rcdHead 1 1 1 2) (List.replicate 64 0)) ∧
    (d.ctxOf 5 6 7).map (fun c => (c.tiles, c.updStep, decide (c.count + 2 ≤ c.subtree))) = some (1, 1, true) :=
  ⟨good_of _ (by decide +kernel) (by decide +kernel) (by decide +kernel), by decide +kernel⟩

theorem wit_ReduceRecords_scaleDown :
    let d := treeUp redRelay (fun c => { c with upSent := true })
    GoodRecord d 2 (sealed (rcdHead 2 1 1 2) (List.replicate 64 0)) ∧
    (d.ctxOf 5 6 7).map (fun c => (c.tiles, c.updStep, c.root, c.upSent, c.tb.isNone, c.parentPort)) = some (1, 1, false, true, true, 2) :=
  ⟨good_of _ (by decide +kernel) (by decide +kernel) (by decide +kernel), by decide +kernel⟩

theorem wit_ReduceRecords_dataUp :
    let d := treeUp redRelay (fun c => { c with upSent := true, kids := [(2, 3)], tb := some (List.replicate 64 0), tileCnt := [1] })
    GoodRecord d 2 (sealed (rcdHead 3 1 1 1) (List.replicate 16384 0)) ∧
    (d.ctxOf 5 6 7).map (fun c => (c.tiles, c.updStep, c.kids.contains (2, 3), c.tb.isSome, decide (nth 0 c.tileCnt 0 + 1 ≤ c.subtree), c.tileCnt.length)) =
      some (1, 1, true, true, true, 1) :=
  ⟨good_of _ (by decide +kernel) (by decide +kernel) (by
    refine ⟨by decide +kernel, by decide +kernel, by decide +kernel, by decide +kernel, ?_⟩
    rw [List.length_replicate]; decide +kernel), by decide +kernel⟩

theorem wit_ReduceRecords_abort :
    GoodRecord (treeUp redRelay id) 2 (sealed (rcdHead 4 1 1 0) []) ∧ ((treeUp redRelay id).ctxOf 5 6 7).isSome = true :=
  ⟨good_of _ (by decide +kernel) (by decide +kernel) (by decide +kernel), by decide +kernel⟩

theorem wit_ReduceTimeout :
    let d := treeUp redRelay (fun c => { c with relays := [1] })
    (d.ctxOf 5 6 7).map (fun c => (c.committed, c.flights)) = some (false, [1]) ∧ (d.flight 1).map (·.done) = some none := by decide +kernel

theorem test_reduce_timeout :
    let d := after (.reduceTimeout 5 6 7) (treeUp redRelay (fun c => { c with relays := [1] }))
    d.ctxOf 5 6 7 = none ∧ (d.flight 1).map (·.done) = some (some stDiscard) := by decide +kernel

theorem wit_FaultyRecords_crc : (up base 2).portUp 2 = true ∧
    (let bs := rcdHead 4 1 1 0 ++ [0, 0, 0, 0]
     1 ≤ (rcdOf bs).kind ∧ (rcdOf bs).kind ≤ 4 ∧ crc32c (bs.take 28 ++ bs.drop 32) ≠ leAt bs 28 4) := by decide +kernel

theorem wit_FaultyRecords_epoch :
    GoodRecord (treeUp redRelay id) 2 (sealed (rcdHead 1 1 1 1 8) (List.replicate 64 0)) ∧ (treeUp redRelay id).ctxOf 5 6 8 = none ∧
    ((treeUp redRelay id).red.ctxs.find? (fun c => c.tag == 5 && c.id == 6)).isSome = true :=
  ⟨good_of _ (by decide +kernel) (by decide +kernel) (by decide +kernel), by decide +kernel, by decide +kernel⟩

theorem wit_FaultyRecords_unknown_child :
    GoodRecord (treeUp redRelay id) 2 (sealed (rcdHead 3 1 1 1) (List.replicate 16384 0)) ∧
    ((treeUp redRelay id).ctxOf 5 6 7).map (fun c => (c.tiles, c.updStep, c.kids.contains (2, 3))) = some (1, 1, false) :=
  ⟨good_of _ (by decide +kernel) (by decide +kernel) (by
    refine ⟨by decide +kernel, by decide +kernel, by decide +kernel, by decide +kernel, ?_⟩
    rw [List.length_replicate]; decide +kernel), by decide +kernel⟩

/-- One more than SUBTREE_C. -/
theorem wit_FaultyRecords_count :
    GoodRecord (treeUp redRelay id) 2 (sealed (rcdHead 1 1 1 3) (List.replicate 64 0)) ∧
    ((treeUp redRelay id).ctxOf 5 6 7).map (fun c => (c.tiles, c.updStep, decide (c.subtree < c.count + 3))) = some (1, 1, true) :=
  ⟨good_of _ (by decide +kernel) (by decide +kernel) (by decide +kernel), by decide +kernel⟩

theorem wit_FaultyRecords_tile_count :
    let d := treeUp redRelay (fun c => { c with tileCnt := [2] })
    GoodRecord d 2 (sealed (rcdHead 3 1 1 1) (List.replicate 16384 0)) ∧
    (d.ctxOf 5 6 7).map (fun c => (c.tiles, c.updStep, decide (c.subtree < nth 0 c.tileCnt 0 + 1))) = some (1, 1, true) :=
  ⟨good_of _ (by decide +kernel) (by decide +kernel) (by
    refine ⟨by decide +kernel, by decide +kernel, by decide +kernel, by decide +kernel, ?_⟩
    rw [List.length_replicate]; decide +kernel), by decide +kernel⟩

theorem wit_FaultyRecords_step :
    GoodRecord (treeUp redRelay id) 2 (sealed (rcdHead 1 1 2 1) (List.replicate 64 0)) ∧
    ((treeUp redRelay id).ctxOf 5 6 7).map (fun c => (c.tiles, decide (2 ≠ c.updStep))) = some (1, true) :=
  ⟨good_of _ (by decide +kernel) (by decide +kernel) (by decide +kernel), by decide +kernel⟩

/-- An ABORT on the tree closes the context (R312). -/
theorem test_abort_closes : (takeRecord 2 (rcdHead 4 1 1 0 ++ [0, 0, 0, 0]) (treeUp redRelay id)).ctxOf 5 6 7 = none := by decide +kernel

theorem test_scale_up_folds :
    let d := takeRecord 2 (rcdHead 1 1 1 1 ++ List.replicate 68 0xFE) (treeUp redRelay id)
    (d.ctxOf 5 6 7).map (fun c => (c.count, nth 0 c.fold 0, c.kids)) = some (1, 0xFE, [(2, 3)]) := by decide +kernel

theorem test_scale_down_agrees :
    let d := takeRecord 2 (rcdHead 2 1 1 2 ++ List.replicate 68 5) (treeUp redRelay (fun c => { c with upSent := true }))
    (d.ctxOf 5 6 7).map (fun c => c.tb.map (fun t => nth 0 t 63)) = some (some 5) := by decide +kernel

/-- Three contributions where SUBTREE_C is 2 are stale (R318). -/
theorem test_stale_record :
    (takeRecord 2 (rcdHead 1 1 1 3 ++ List.replicate 68 0) (treeUp redRelay id)).dget (O.REDUCE_STALE_RECORDS 0) = 1 := by decide +kernel

theorem wit_FoldedScale : (∀ b ∈ [0x80, 0x7F, 0xFF], b < 256) ∧ ([0x80, 0x7F].Perm [0x7F, 0x80]) ∧ 1 ≤ 65536 :=
  ⟨by decide, List.Perm.swap _ _ _, by decide⟩

/-- 0x80 is none; 0x7F (127) is above 0xFF (-1); F = 127 + 15 + 16 - 31 for 65,536 contributions (R309, R310). -/
theorem test_fold_and_agree : [0x80, 0x7F, 0xFF].foldl foldScale 0x80 = 0x7F ∧ agreedF 0x7F 65536 = 127 ∧ agreedF 0x80 2 = -32768 := by decide

theorem wit_AlignedContribution :
    let rn : Rnd := ⟨false, 0, 1, 6⟩
    1 ≤ 65536 ∧ 0x7F ≠ 0x80 ∧ (127 : Int) ≤ toSgn 8 0x7F ∧ (-32767 ≤ (32767 : Int) ∧ (32767 : Int) ≤ 32767) ∧
    (rn.stoch = true → genWord rn.seed rn.step rn.tag 0 0 0 < 2 ^ 32) := by decide

theorem wit_AlignedContribution_stochastic :
    let rn : Rnd := ⟨true, 0, 1, 6⟩
    rn.stoch = true ∧ genWord rn.seed rn.step rn.tag 0 0 0 < 2 ^ 32 := by decide +kernel

/-- Sums up to the largest code. -/
theorem wit_StoreSumIsOrderFree :
    let us := List.replicate 64 (2 ^ 30 : Int)
    let vs := List.replicate 64 (2 ^ 30 - 1 : Int)
    us.length = 64 ∧ vs.length = 64 ∧ ∀ i, i < 64 →
      (let o := s32 (SMap.get 0 base.red.store (0 * 64 + i)); o + nth 0 us i + nth 0 vs i < 2 ^ 31 ∧ -(2 ^ 31) ≤ o + nth 0 us i ∧
        o + nth 0 us i < 2 ^ 31 ∧ -(2 ^ 31) ≤ o + nth 0 vs i ∧ o + nth 0 vs i < 2 ^ 31) := by decide +kernel

/-! ### The update -/

/-- A curve of one point at exponent -30 in segment 1, bias tables in segment 2, the image of a group in the OPB. -/
def updating (x : Flight) : Dev :=
  let d := withSeg (withSeg (jobOn base 0) 1 { seg0 with frame := 8, len64 := 9 }) 2 { seg0 with frame := 16, frames := 128, len64 := 8192 }
  fly ((d.segWrite 1 0 [1, 0xE2]).opbWrite 0 0 (leBytes 64 (at' 0 1 1 + at' 112 19 1 + at' 131 19 2))) x

def config1 : Flight := fl [(0, 8, 8), (129, 12, 4095)]

theorem wit_UpdateConfig : updateFlight (updating config1) 1 false = some config1 ∧ scoreFree (updating config1) config1 = true ∧
    configOk (updating config1) config1 = true ∧ config1.pins = [] ∧
    (updating config1).red.applies.any (fun a => a.group == 4095 && !a.finished) = false ∧ updateFlight base 1 false = none := by decide +kernel

/-- An APPLY of the group in flight; a curve of no point. -/
theorem wit_UpdateConfig_waits :
    ((updating config1).setRed (fun r => { r with applies := [⟨9, 4095, 0, false, false, 0⟩] })).red.applies.any (fun a => a.group == 4095 && !a.finished) = true ∧
    configOk ((updating config1).segWrite 1 0 [0]) config1 = false := by decide +kernel

theorem test_update_config : let d := after (.updateConfig 1) ((updating config1).setCount 4095 11 9)
    (d.group 4095).valid = true ∧ d.count 4095 11 = 0 ∧ (d.flight 1).map (·.done) = some (some stOk) := by decide +kernel

/-- The group configured, selected by job 0. -/
def grouped : Dev := ((updating config1).setGroup 3 { Group.empty with valid := true, inconsistent := true, curveSeg := 1, bcSeg := 2 }).dset (O.GROUP_SELECT 0) 3

theorem wit_GroupStepSet : (grouped.group (grouped.dget (O.GROUP_SELECT 0))).valid = true ∧
    (grouped.group (grouped.dget (O.GROUP_SELECT 0))).job = 0 ∧ groupWriting grouped 3 = false ∧
    groupWriting (grouped.setRed (fun r => { r with applies := [⟨9, 3, 0, false, false, 64⟩] })) 3 = true ∧
    (base.group (base.dget (O.GROUP_SELECT 0))).valid = false := by decide +kernel

theorem test_group_step_set : let d := after (.groupStepSet 0 77) grouped
    d.count 3 0 = 77 ∧ d.count 3 11 = 77 ∧ (d.group 3).inconsistent = false := by decide +kernel

/-- An APPLY of group 3 on the bucket (5, 6, 7) of one tile, its segments 4 to 7. -/
def apply1 : Flight := fl [(0, 8, 8), (128, 1, 1), (129, 12, 3), (162, 16, 5), (178, 16, 6), (194, 8, 7), (202, 19, 4), (221, 19, 5), (240, 19, 6),
  (259, 19, 7), (294, 7, 1)]

def applying (f : Group → Group) (started : Bool) (step : Nat) : Dev :=
  let d := fly ((updating config1).setGroup 3 (f { Group.empty with valid := true, curveSeg := 1, bcSeg := 2 })) { apply1 with id := 2, started := started }
  let e := [4, 5, 6, 7].foldl (fun d k => withSeg d k { seg0 with frame := 200 + 8 * k, frames := 3, len64 := 129 }) d
  e.setRed (fun r => { r with ctxs := [{ (default : RCtx) with tag := 5, id := 6, epoch := 7, job := 0, updStep := step, tiles := 1, committed := true }] })

/-- Its segments are of exactly its tiles, in the formats that R325 asks. -/
def applyable : Dev := [(4, 3), (5, 3), (6, 6)].foldl (fun d p => withSeg d p.1 { d.res p.1 with fmt := p.2 }) (applying id false 1)

theorem wit_UpdateApply : (updateFlight applyable 2 true).map (fun x => (x.started, x.pinsReady applyable (applyPins x))) = some (false, true) ∧
    updateFlight base 2 true = none := by decide +kernel

theorem wit_UpdateApply_waits : (updateFlight (applyable.modRes 4 (fun r => { r with wpin := 255 })) 2 true).map
    (fun x => x.pinsReady (applyable.modRes 4 (fun r => { r with wpin := 255 })) (applyPins x)) = some false := by decide +kernel

theorem wit_UpdateApply_ok : ∀ ok ∈ [true, false],
    let d := withSeg (applyable.setGroup 3 { Group.empty with valid := ok, curveSeg := 1, bcSeg := 2, workFmt := 0 }) 7 Res.free
    let x := { apply1 with id := 2, d := desc [(0, 8, 8), (128, 1, 1), (129, 12, 3), (162, 16, 5), (178, 16, 6), (194, 8, 7), (202, 19, 4), (221, 19, 5), (240, 19, 6), (294, 7, 1)] }
    applyOk d x = ok := by decide +kernel

/-- What every clause of APPLY_EXECUTE asks before the checks on the group. -/
def applyReady (d : Dev) : Bool :=
  (updateFlight d 2 true).all (fun x => x.started && (d.ctxOf 5 6 7).any (fun c => c.committed && c.job == x.job && c.tiles == (updateD x.w).tiles) &&
    ((d.applyOf x.id).map (·.written)).getD 0 == 0) && (updateFlight d 2 true).isSome

/-- The group is neither frozen nor inconsistent, and the bucket's step is the next. -/
def applyNext (d : Dev) : Bool :=
  applyReady d && !d.frozenFor { apply1 with id := 2 } 3 && !(d.group 3).inconsistent && (d.ctxOf 5 6 7).any (fun c => c.updStep == d.count 3 0 + 1)

theorem wit_ApplyExecute_waits : (updateFlight applyable 2 true).map (·.started) = some false ∧
    ((applying id true 1).setRed (fun r => { r with ctxs := [] })).ctxOf 5 6 7 = none ∧
    applyNext ((applying id true 1).modRes 1 (fun r => { r with pin := 16383 })) = true ∧
    curvesReady ((applying id true 1).modRes 1 (fun r => { r with pin := 16383 })) ((applying id true 1).group 3) = false := by decide +kernel

theorem wit_ApplyExecute_goes_on :
    let d := (applying id true 1).setRed (fun r => { r with applies := [⟨2, 3, 0, false, false, 5⟩] })
    (updateFlight d 2 true).map (fun x => (x.started, ((d.applyOf x.id).map (·.written)).getD 0)) = some (true, 5) ∧
    (d.ctxOf 5 6 7).map (fun c => (c.committed, c.job)) = some (true, 0) := by decide +kernel

theorem wit_ApplyExecute_tiles :
    let d := (applying id true 1).setRed (fun r => { r with ctxs := r.ctxs.map (fun c => { c with tiles := 2 }) })
    (d.ctxOf 5 6 7).map (·.tiles) = some 2 ∧ (updateD apply1.w).tiles = 1 := by decide +kernel

theorem wit_ApplyExecute_refused : let d := (applying id true 1).modRes 2 (fun r => { r with st := 3 })
    applyNext d = true ∧ curvesReady d (d.group 3) = true ∧ applyRefused d (updateD apply1.w) = some stPoison := by decide +kernel

theorem wit_ApplyExecute_frozen : let d := applying (fun g => { g with frozen := true }) true 1
    applyReady d = true ∧ d.frozenFor { apply1 with id := 2 } 3 = true := by decide +kernel

theorem wit_ApplyExecute_inconsistent : let d := applying (fun g => { g with inconsistent := true }) true 1
    applyReady d = true ∧ d.frozenFor { apply1 with id := 2 } 3 = false ∧ (d.group 3).inconsistent = true := by decide +kernel

/-- Two updates ahead, without and with a closing APPLY pending. -/
theorem wit_ApplyExecute_mismatch : let d := applying id true 2
    applyReady d = true ∧ d.frozenFor { apply1 with id := 2 } 3 = false ∧ (d.group 3).inconsistent = false ∧ 2 = d.count 3 0 + 2 ∧
    closePending d 3 0 = false ∧
    closePending (d.setRed (fun r => { r with applies := [⟨9, 3, 0, true, true, 64⟩] })) 3 0 = true := by decide +kernel

theorem wit_ApplyExecute_applies : let d := (applying id true 1).forEach [1, 2] Dev.touch
    applyNext (applying id true 1) = true ∧ curvesReady (applying id true 1) ((applying id true 1).group 3) = true ∧
    applyRefused (applying id true 1) (updateD apply1.w) = none ∧
    curvesOk d (d.group 3) = true ∧ ((d.ctxOf 5 6 7).all (fun c => c.sat.all (· == 0))) = true ∧ applyScaleBad d (updateD apply1.w) = false := by
  decide +kernel

/-- A curve of no point; a sum that clamped where STOP_ON_SAT is 1; a format error. -/
theorem wit_ApplyExecute_ends : let d := (applying id true 1).forEach [1, 2] Dev.touch
    curvesOk (d.segWrite 1 0 [0]) (d.group 3) = false ∧
    (d.setting { apply1 with id := 2 } 3 = 1 ∨ (d.dset (settingKey 0 3) 1).setting { apply1 with id := 2 } 3 = 1) ∧
    applyScaleBad (d.segWrite 4 0 [0x81]) (updateD apply1.w) = true := by decide +kernel

theorem test_apply_step_mismatch : let d := after (.applyExecute ⟨2, none⟩) (applying id true 2)
    (d.group 3).inconsistent = true ∧ d.dget (O.STEP_MISMATCHES 0) = 1 ∧ (d.flight 2).map (·.done) = some (some stMismatch) := by decide +kernel

def curve3 : Curve := ⟨3, 0, [0, 2, 4], [0, 1, 4]⟩

theorem wit_CurveValue : 1 ≤ curve3.npts ∧ curve3.xs.length = curve3.npts ∧ curve3.ys.length = curve3.npts ∧ rising curve3.xs = true ∧
    0 + 1 < curve3.npts ∧ nth 0 curve3.xs 0 ≤ 1 ∧ 1 < nth 0 curve3.xs 1 ∧ 0 ≤ nth 0 curve3.xs 0 ∧ nth 0 curve3.xs 2 ≤ 4 := by decide

/-- Half of 1 rounds to 0; half of 3 rounds to 2, on top of Y[1] = 1 (R322). -/
theorem test_curve_ties : curve3.at 1 = 0 ∧ curve3.at 3 = 3 ∧ curve3.at 9 = 4 := by decide

/-! ### Semaphores -/

/-- A `sync` of job 0 in step 4: operation, semaphore 1,023. -/
def syn (sop : Nat) : Flight := fl [(0, 8, 11), (32, 32, 4), (128, 2, sop), (278, 10, 1023)]

def semming (sop : Nat) (m : Sem) : Dev := (fly (jobOn base 0) (syn sop)).setSem 1023 m

def semOf (jobs : Nat) : Sem := { Sem.free with jobs := jobs }

theorem wit_Sem_no_effect : ∀ x, ¬SyncReady base 1 1 x := fun x h => by
  have hf : base.flight 1 = none := by decide +kernel
  rw [SyncReady, hf] at h
  exact absurd h.1 (by simp)

theorem wit_Sem_acquire_outside : SyncReady (semming 1 (semOf 2)) 1 1 (syn 1) ∧ bit (semOf 2).jobs 0 = false := by
  unfold SyncReady; decide +kernel

theorem wit_Sem_acquire_held : SyncReady (semming 1 { semOf 1 with held := true }) 1 1 (syn 1) ∧ (semOf 1).owner = 0 := by
  unfold SyncReady; decide +kernel

theorem wit_Sem_acquire_waiting : SyncReady (semming 1 { semOf 1 with waiters := [(9, 0)] }) 1 1 (syn 1) ∧ (∃ w ∈ [((9 : Nat), (0 : Nat))], w.2 = 0) := by
  refine ⟨by unfold SyncReady; decide +kernel, (9, 0), by decide, rfl⟩

theorem wit_Sem_release_bad : SyncReady (semming 2 (semOf 1)) 1 2 (syn 2) ∧ (semOf 1).held = false ∧
    SyncReady (semming 2 { semOf 3 with held := true, owner := 1 }) 1 2 (syn 2) := by unfold SyncReady; decide +kernel

theorem wit_Sem_grant : SyncReady (semming 1 { semOf 1 with broken := true }) 1 1 (syn 1) ∧
    semAcquireBad (semming 1 { semOf 1 with broken := true }) (syn 1) = false ∧ (semOf 1).held = false ∧ (semOf 1).waiters = [] := by
  unfold SyncReady; decide +kernel

theorem wit_Sem_wait : let m := { semOf 3 with held := true, owner := 1 }
    SyncReady (semming 1 m) 1 1 (syn 1) ∧ semAcquireBad (semming 1 m) (syn 1) = false ∧ m.held = true := by unfold SyncReady; decide +kernel

theorem wit_Sem_wait_behind : let m := { semOf 3 with waiters := [(9, 1)] }
    SyncReady (semming 1 m) 1 1 (syn 1) ∧ semAcquireBad (semming 1 m) (syn 1) = false ∧ m.waiters ≠ [] := by unfold SyncReady; decide +kernel

theorem wit_Sem_release : let m := { semOf 1 with held := true, step := 4 }
    SyncReady (semming 2 m) 1 2 (syn 2) ∧ semReleaseBad (semming 2 m) (syn 2) = false ∧ m.waiters = [] := by unfold SyncReady; decide +kernel

/-- Job 1 waits for the semaphore with flight 2. -/
def handing : Dev := fly (semming 2 { semOf 3 with held := true, step := 4, waiters := [(2, 1)] })
  { syn 1 with id := 2, job := 1, started := true }

theorem wit_Sem_release_to_waiter : SyncReady handing 1 2 (syn 2) ∧ semReleaseBad handing (syn 2) = false ∧
    (handing.sem 1023).waiters = [(2, 1)] ∧ (handing.flight 2).map (fun z => (z.done, z.job)) = some (none, 1) := by
  unfold SyncReady; decide +kernel

theorem test_sem_acquire_grants : let d := after (.semAcquire 1) (semming 1 { semOf 1 with broken := true })
    (d.sem 1023).held = true ∧ (d.sem 1023).step = 4 ∧ (d.sem 1023).broken = false ∧
    (d.flight 1).map (fun y => (y.done, y.broken)) = some (some stOk, true) := by decide +kernel

theorem test_sem_release_hands_over : let d := after (.semRelease 1) handing
    (d.sem 1023).owner = 1 ∧ (d.sem 1023).waiters = [] ∧ (d.flight 2).map (·.done) = some (some stOk) := by decide +kernel

theorem wit_SemGraceExpiry_no_grace : (base.sem 1023).grace = false := by decide +kernel

theorem wit_SemGraceExpiry : ((semming 1 { semOf 3 with held := true, grace := true, waiters := [(2, 1)] }).sem 1023).grace = true := by decide +kernel

theorem test_grace_expiry_breaks : let d := after (.semGraceExpiry 1023) (semming 1 { semOf 3 with held := true, grace := true })
    (d.sem 1023).held = false ∧ (d.sem 1023).broken = true := by decide +kernel

/-! ### Barriers -/

/-- A barrier of name (5, 6, 7) among 2, this module below port 2. -/
def barr : Flight := fl [(0, 8, 11), (130, 16, 5), (146, 16, 6), (162, 32, 7), (194, 32, 4), (226, 32, 2), (258, 4, 2), (262, 15, 9)]

def open1 : Barrier := { (default : Barrier) with tag := 5, id := 6, epoch := 7, n := 4, subtree := 2, parentPort := 2, parentId := 9, flights := [1], count := 1 }

def barring (b : Option Barrier) : Dev := (up (fly (jobOn base 0) barr) 2).setSched (fun s => { s with barriers := b.toList })

/-- A token of that name with count 1. -/
def token (kind epoch : Nat) : Msg := msg 6 kind (leBytes 16 (at' 0 16 5 + at' 16 16 6 + at' 32 32 epoch + at' 64 32 1))

theorem wit_Barriers_join : SyncReady (barring (some open1)) 1 0 barr ∧ (barring (some open1)).barrierOf 5 6 7 = some open1 := by
  unfold SyncReady; decide +kernel

theorem wit_Barriers_open : SyncReady (barring none) 1 0 barr ∧ (barring none).barrierOf 5 6 7 = none := by unfold SyncReady; decide +kernel

theorem wit_Barriers_no_effect : base.barrierOf 5 6 7 = none ∧ base.portUp 2 = false ∧ (up base 2).portUp 2 = true ∧
    (token 1 7).vc = 6 ∧ (token 1 7).hdr.kind = 1 ∧ ({ token 1 7 with body := [] } : Msg).body.length ≠ 16 := by decide +kernel

theorem wit_Barriers_release_refused : let d := barring (some open1)
    TokenOk d 2 (token 2 7) 2 ∧ (d.barrierOf 5 6 7) = some open1 ∧ open1.sent = false := by unfold TokenOk; decide +kernel

theorem wit_Barriers_tokens :
    let d := barring (some { open1 with sent := true })
    d.barrierOf (tokenTag (token 1 7)) (tokenId (token 1 7)) (tokenEpoch (token 1 7)) = some { open1 with sent := true } ∧
    TokenOk d 2 (token 1 7) 1 ∧ TokenOk d 2 (token 2 7) 2 ∧ TokenOk d 2 (token 3 7) 3 ∧ open1.root = false ∧ 2 = open1.parentPort := by
  unfold TokenOk; decide +kernel

theorem wit_Barriers_older : let d := barring (some open1)
    d.barrierOf 5 6 6 = none ∧ TokenOk d 2 (token 1 6) 1 ∧ TokenOk d 2 (token 2 6) 2 ∧ TokenOk d 2 (token 3 6) 3 ∧
    d.sched.barriers.any (fun b => b.tag == 5 && b.id == 6 && decide (6 < b.epoch)) = true := by unfold TokenOk; decide +kernel

theorem wit_Barriers_newer : let d := barring (some open1)
    d.barrierOf 5 6 8 = none ∧ TokenOk d 2 (token 1 8) 1 ∧ TokenOk d 2 (token 2 8) 2 ∧ TokenOk d 2 (token 3 8) 3 ∧
    d.sched.barriers.any (fun b => b.tag == 5 && b.id == 6 && decide (8 < b.epoch)) = false := by unfold TokenOk; decide +kernel

theorem wit_Barriers_timeout : ((barring (some open1)).barrierOf 5 6 7) = some open1 := by decide +kernel

/-- The second arrival of two goes up (R378). -/
theorem test_arrival_counts : let d := after (.syncArrive 3 (token 1 7)) (up (barring (some open1)) 3)
    (d.barrierOf 5 6 7).map (fun b => (b.count, b.sent, b.kids)) = some (2, true, [3]) := by decide +kernel

theorem test_release_completes : let d := after (.syncRelease 2 (token 2 7)) (barring (some { open1 with sent := true }))
    d.barrierOf 5 6 7 = none ∧ (d.flight 1).map (·.done) = some (some stOk) := by decide +kernel

theorem test_barrier_abort_discards : let d := after (.syncAbort 2 (token 3 7)) (barring (some open1))
    d.barrierOf 5 6 7 = none ∧ (d.flight 1).map (·.done) = some (some stDiscard) := by decide +kernel

theorem test_barrier_timeout : (after (.barrierTimeout 5 6 7) (barring (some open1))).barrierOf 5 6 7 = none := by decide +kernel

theorem test_stale_token : (after (.syncArrive 2 (token 1 6)) (barring (some open1))).dget O.SYNC_STALE = 1 := by decide +kernel

theorem test_barrier_opens : ((after (.barrier 1) (barring none)).barrierOf 5 6 7).map (·.count) = some 1 := by decide +kernel

/-! ### Page edits -/

/-- A directory of one mask row and four groups of one head in segment 3, a page group in segment 4, an edit list of `n` operations. -/
def editor (n : Nat) : Flight := fl [(0, 8, 10), (128, 2, 1), (130, 3, 6), (176, 7, n)]

def editing (n : Nat) (rec : List (Nat × Nat × Nat)) : Dev :=
  let d := withSeg (withSeg (jobOn base 0) 3 { seg0 with kind := 2 }) 4 { seg0 with frame := 16, frames := 16, len64 := 1024, fmt := 2, kind := 1 }
  let e := (d.segWrite 3 0 (DirHdr.enc ⟨0, 1, 0, 1, 0x80, 3, 0⟩)).setStore (fun s => { s with dirs := [3] })
  fly (e.opbWrite 0 0 (leBytes 16 (sumNat (rec.map (fun f => at' f.1 f.2.1 f.2.2))))) (editor n)

/-- The hypotheses of the clause on accepting operation 0. -/
def editReady (d : Dev) (n op : Nat) : Bool :=
  let x := editor n
  let v := listRec d x 0
  d.flight 1 == some x && x.opcode == 10 && x.live && scoreFree d x && d.refReady (listRef x) false && (d.srv.edits.filter (fun e => e.f == 1)).isEmpty && decide (0 < editCount x) && d.refStatus (listRef x) == 0 &&
  (List.range (editCount x)).all (fun i => !d.loopOwned (fld (listRec d x i) 4 19)) && fld v 0 4 == op &&
  decide ((d.editsOf 0).length + editCount x ≤ 4096) && editBitsOk v && editRule d.preview x (editOf d x 0) && !(d.preview.res (editOf d x 0).dir).comp

theorem wit_PageEdits_init : editReady (editing 1 [(0, 4, 1), (4, 19, 4), (64 + 25, 7, 1), (64 + 34, 7, 1), (64 + 41, 16, 3)]) 1 1 = true := by decide +kernel

theorem wit_PageEdits_map : editReady (editing 1 [(0, 4, 2), (4, 19, 3), (23, 16, 3), (64, 19, 4)]) 1 2 = true := by decide +kernel

theorem wit_PageEdits_unmap : editReady (editing 1 [(0, 4, 3), (4, 19, 3), (23, 16, 3)]) 1 3 = true := by decide +kernel

theorem wit_PageEdits_setLen : editReady (editing 1 [(0, 4, 4), (4, 19, 3)]) 1 4 = true := by decide +kernel

theorem wit_PageEdits_setMask : editReady (editing 1 [(0, 4, 5), (4, 19, 3), (23, 16, 3), (64, 21, 64)]) 1 5 = true := by decide +kernel

theorem wit_PageEdits_clearMask_of_two : editReady (editing 2 [(0, 4, 6), (4, 19, 3)]) 2 6 = true ∧ 0 + 1 < editCount (editor 2) := by decide +kernel

/-- A MAP at the last entry applies at once: the entry, the reference, GEN (R218, R219). -/
theorem test_map_applies : let d := after (.pageEditMap 1 0) (editing 1 [(0, 4, 2), (4, 19, 3), (23, 16, 3), (64, 19, 4)])
    d.dirEnt 3 3 = ⟨4, true, false, false⟩ ∧ (d.res 4).refs = 1 ∧ (d.dirHdr 3).gen = 1 ∧ (d.flight 1).map (·.done) = some (some stOk) := by decide +kernel

theorem test_map_beyond_the_directory :
    ((after (.pageEditMap 1 0) (editing 1 [(0, 4, 2), (4, 19, 3), (23, 16, 4), (64, 19, 4)])).flight 1).map (fun x => (x.done, x.firstFail)) =
      some (some stField, 0) := by decide +kernel

/-- A list of no legal operation; one of a poisoned segment; one on a directory that a loop owns; more than 4,096 pending. -/
theorem wit_PageEdits_bad : let d := editing 1 [(0, 4, 2), (4, 19, 3), (23, 16, 4), (64, 19, 4)]
    let x := editor 1
    d.flight 1 = some x ∧ scoreFree d x = true ∧ d.refReady (listRef x) false = true ∧ d.refStatus (listRef x) = 0 ∧
    fld (listRec d x 0) 0 4 = 2 ∧ editRule d.preview x (editOf d x 0) = false ∧
    fld (listRec (editing 1 []) x 0) 0 4 < 1 := by decide +kernel

theorem wit_PageEdits_list :
    let x := fl [(0, 8, 10), (128, 2, 3), (130, 3, 6), (136, 19, 3), (176, 7, 1)]
    let d := withSeg (fly (jobOn base 0) x) 3 { seg0 with st := 3 }
    d.flight 1 = some x ∧ scoreFree d x = true ∧ editCount x = 1 ∧ d.refReady (listRef x) false = true ∧ d.refStatus (listRef x) ≠ 0 := by
  decide +kernel

theorem wit_PageEdits_owned :
    let d := (editing 1 [(0, 4, 2), (4, 19, 3), (23, 16, 3), (64, 19, 4)]).setSrv (fun s => { s with
      loops := [{ (default : Loop) with job := 0, ncache := 1 }], streams := [(7, { Stream.free with st := 2, dirList := 5 })] })
    let e := withSeg d 5 { seg0 with frame := 40 }
    (e.segWrite 5 0 [3]).loopOwned 3 = true := by decide +kernel

theorem wit_PageEdits_full : ∃ l : List Edit, 4096 < l.length + 1 ∧ ∀ e ∈ l, e.job = 0 :=
  ⟨List.replicate 4096 { (default : Edit) with job := 0 }, by rw [List.length_replicate]; decide, fun e he => by rw [List.eq_of_mem_replicate he]⟩

/-- A pending CLEAR_MASK of an ended command on directory 3. -/
def pendingEdit : Dev := (editing 1 []).setSrv (fun s => { s with edits := [⟨0, 8, 0, 0, 6, 3, 0, 0, 0, []⟩] })

theorem wit_PageEditApply : dueEdits pendingEdit 3 ≠ [] ∧ pendingEdit.pinFree 3 true = true ∧
    (∀ e ∈ pendingEdit.srv.edits.filter (fun e => e.dir == 3), pendingEdit.editDue e = true) ∧
    dueEdits base 3 = [] ∧ (pendingEdit.modRes 3 (fun r => { r with wpin := 255 })).pinFree 3 true = false := by decide +kernel

theorem test_page_edit_apply : let d := after (.pageEditApply 3) pendingEdit
    d.srv.edits = [] ∧ (d.dirHdr 3).gen = 1 ∧ d.dget (O.DIR_EDITS_APPLIED 0) = 1 := by decide +kernel

/-! ### Forks -/

/-- The loop of job 0: four rows, no caches. -/
def loop0 : Loop := { (default : Loop) with job := 0, rows := 4, hkv := 1, qmax := 1, ansBytes := 48, mon := List.replicate 21 0 }

def forker (n : Nat) : Flight := fl [(0, 8, 9), (128, 16, 65535), (144, 13, n), (160, 2, 1), (162, 3, 6)]

/-- Stream 65,535 runs in row 0 of job 0's loop. -/
def forking (n : Nat) : Dev := (fly (jobOn base 0) (forker n)).setSrv (fun s => { s with
  loops := [loop0], streams := [(65535, { Stream.free with st := 2 })] })

theorem wit_Fork_noLoop : ((forking 1).setSrv (fun s => { s with loops := [] })).flight 1 = some (forker 1) ∧ (forker 1).live = true ∧
    forkLoop ((forking 1).setSrv (fun s => { s with loops := [] })) (forker 1) = none := by decide +kernel

theorem wit_Fork_reserves : forkLoop (forking 3) (forker 3) = some loop0 ∧
    (reserveChildren loop0 65535 (snapOf (forking 3) loop0 65535).tailCaches 3 (forking 3)).isSome = true := by decide +kernel

theorem wit_Fork_noPages : forkLoop (forking 4) (forker 4) = some loop0 ∧
    (reserveChildren loop0 65535 (snapOf (forking 4) loop0 65535).tailCaches 4 (forking 4)).isNone = true := by decide +kernel

theorem wit_Fork_ready : ForkReady (forking 1) 1 (forker 1) ∧ (forking 1).loopOf 0 ≠ none ∧
    ForkReady ((forking 1).setSrv (fun s => { s with loops := [] })) 1 (forker 1) ∧
    ((forking 1).setSrv (fun s => { s with loops := [] })).loopOf 0 = none := by
  unfold ForkReady; decide +kernel

theorem test_fork_takes_the_lowest_numbers : let d := reserveFork (forking 3) (forker 3)
    (d.flight 1).map (·.reserved) = some [0, 1, 2] ∧ (d.stream 2).row = 3 ∧ (d.stream 2).st = 1 := by decide +kernel

/-! ### Faults of blocks and regions -/

theorem wit_BlockFaults_first : base.blk.failedOnce.contains (155, 1, 9) = false ∧ 1 < 2 := by decide

theorem wit_BlockFaults_second : (base.setBlk (fun k => { k with failedOnce := [(155, 0, 9)] })).blk.failedOnce.contains (155, 0, 9) = true := by decide

/-- Region 11, block 142 + 13 - 12 = its first; a new unit's standing spare is the region's last block (R41). -/
theorem wit_BlockRetire_spared : 143 < 156 ∧ bit (base.dget (O.REGION_BLOCK_STATE (regionOf 143))) (13 + physIdx 143) = false ∧
    bit (base.dget (O.REGION_BLOCK_STATE (regionOf 143))) 30 = false ∧ fld (base.dget (O.REGION_BLOCK_STATE (regionOf 143))) 26 4 = 12 ∧
    12 ≠ physIdx 143 := by decide +kernel

theorem wit_BlockRetire_the_spare : 155 < 156 ∧ bit (base.dget (O.REGION_BLOCK_STATE (regionOf 155))) (13 + physIdx 155) = false ∧
    fld (base.dget (O.REGION_BLOCK_STATE (regionOf 155))) 26 4 = physIdx 155 := by decide +kernel

theorem wit_BlockRetire_no_effect : 156 ≤ (156 : Nat) ∧ bit ((after (.blockRetire 143 1) base).dget (O.REGION_BLOCK_STATE (regionOf 143))) (13 + physIdx 143) = true ∧
    base.pow.deviceFenced = false ∧ (after (.deviceFence 3) base).pow.deviceFenced = true := by decide +kernel

theorem wit_BlockRetire_unspared : let d := after (.blockRetire 143 1) base
    bit (d.dget (O.REGION_BLOCK_STATE (regionOf 144))) (13 + physIdx 144) = false ∧ bit (d.dget (O.REGION_BLOCK_STATE (regionOf 144))) 30 = false ∧
    13 ≤ fld (d.dget (O.REGION_BLOCK_STATE (regionOf 144))) 26 4 := by decide +kernel

/-- Blocks 1 to 12 active, block 0 retired, no spare left: 0x3C003FFE with bit 13 (R23, R41). -/
theorem test_block_retire_word : (after (.blockRetire 0 1) base).dget (O.REGION_BLOCK_STATE 0) = 0x3C000000 + 0x2000 + 0x1FFE ∧
    (after (.blockRetire 0 1) base).dget O.BLOCK_OUTAGES = 1 := by decide +kernel

theorem test_second_sram_error_retires : let d := after (.uncorrectableSram 0 0 5 (.uncorrectable none)) (after (.uncorrectableSram 0 0 5 (.uncorrectable none)) base)
    bit (d.dget (O.REGION_BLOCK_STATE 0)) 13 = true := by decide +kernel

/-- A corrected error of the OPB is counted and does no more (R21). -/
theorem test_corrected_sram_counts : SMap.get 0 (after (.uncorrectableSram 155 1 5 .corrected) base).blk.corrected (155 * 3 + 1) = 1 := by decide +kernel

theorem wit_RetirementRewritesTheRegionWord : 2 ^ 31 - 1 < 2 ^ 31 ∧ 12 < 13 ∧ 0 < 13 ∧ (0 : Nat) ≠ 12 := by decide

theorem wit_RegionFence : 11 < 12 ∧ base.regionFenced 11 = false ∧ base.pow.deviceFenced = false ∧
    (after (.regionFence 11 2 true) base).regionFenced 11 = true ∧ (after (.regionFence 11 2 true) base).pow.deviceFenced = false := by decide +kernel

/-- Cause 6 on a region that is still evacuating a segment (R37). -/
theorem test_second_region_fault_poisons : let d := (withSeg (after (.regionFence 0 2 true) base) 0 seg0).setStore (fun s => { s with evacuating := [0] })
    ((after (.regionFence 0 6 true) d).res 0).st = 3 ∧ (after (.regionFence 0 6 true) d).store.evacuating = [] := by decide +kernel

theorem test_region_fence : let d := after (.regionFence 11 2 true) base
    d.regionFenced 11 = true ∧ d.dget O.REGION_OUTAGES = 1 := by decide +kernel

theorem test_region_watchdog : after (.regionWatchdogExpiry 3) base = after (.regionFence 3 3 true) base := by decide +kernel

def evacuating (r : Res) (d : Dev) : Dev := (withSeg d 0 r).setStore (fun s => { s with evacuating := [0] })

theorem wit_SegmentEvacuated : let d := evacuating seg0 (jobOn base 0)
    d.store.evacuating.contains 0 = true ∧ (d.res 0).st = 1 ∧ (d.takeRun 12 (d.res 0).frames 4096).isSome = true ∧
    base.store.evacuating.contains 0 = false ∧ ((evacuating { seg0 with st := 3 } base).res 0).st = 3 := by decide +kernel

/-- A slow tier whose one segment, pinned, holds `n` frames from `f`. -/
def slowTier (f n : Nat) : Dev := evacuating { seg0 with frames := 2 } (withSeg (jobOn base 0) 7 { seg0 with tier := 1, frame := f, frames := n, pin := 1 })

/-- No free frame, and two that lie apart. -/
theorem wit_SegmentEvacuated_full :
    ((slowTier 0 500000000).takeRun 12 2 8192).isNone = true ∧ (slowTier 0 500000000).freeBytes 12 < 8192 ∧
    ((slowTier 1 499999998).takeRun 12 2 8192).isNone = true ∧ 8192 ≤ (slowTier 1 499999998).freeBytes 12 := by decide +kernel

theorem test_segment_evacuated : let d := after (.segmentEvacuated 0) ((withSeg (jobOn base 0) 0 seg0).setStore (fun s => { s with evacuating := [0] }))
    (d.res 0).tier = 1 ∧ d.store.evacuating = [] ∧ d.dget (O.SLOW_USED 0) = 4096 := by decide +kernel

theorem wit_DeviceFence : base.pow.deviceFenced = false ∧ base.pow.latched = false ∧ ∀ c ∈ [1, 2, 3, 4], 1 ≤ c ∧ c ≤ 4 := by decide

theorem test_device_fence : (after (.deviceFence 3) (up base 5)).dget (O.PORT_STATE 5) = 5 ∧ (after (.deviceFence 3) base).sec.ready = false ∧
    after .dmWatchdogExpiry base = after (.deviceFence 2) base := by decide +kernel

/-! ### The memory controllers -/

theorem wit_BurstAddress : burstAddrOk 11 47999999999 = true ∧ burstAddrOk 43 63999999999 = true := by decide +kernel

theorem wit_Burst_uncorrectable : segAt (withSeg base 9 { seg0 with home := 11 }) (unitHome 11) (frameAt 11 8191) = some 9 := by decide +kernel

theorem wit_PatrolScrub : ∀ e ∈ [(⟨43, 0, [(0, 1)], [], []⟩ : BurstErr), ⟨43, 7680, [(71, 9)], [], []⟩], e.unit = 43 := by decide

def readsAs (d : Dev) (u a : Nat) (errs : List (Nat × Nat)) : Nat :=
  match readBurst d u a errs with | .sound => 0 | .corrected _ => 1 | .uncorrectable => 2 | .poison => 3

/-- No error; one symbol; two and three; a known-bad pin and one more, and two more; another codeword of a burst of the slow
tier; a poisoned burst (R286 to R289). -/
theorem wit_Burst_readings : let bad := base.setMc (fun m => { m with badPins := [(0, 0, 3)] })
    readsAs base 0 0 [] = 0 ∧ readsAs base 0 0 [(35, 255)] = 1 ∧ readsAs base 0 0 [(0, 1), (35, 2)] = 2 ∧
    readsAs base 0 0 [(0, 1), (1, 2), (2, 3)] = 2 ∧ readsAs bad 0 0 [(3, 9), (5, 1)] = 1 ∧ readsAs bad 0 0 [(3, 9), (5, 1), (6, 1)] = 2 ∧
    readsAs base 12 0 [(68, 1)] = 1 ∧ readsAs (base.setMc (fun m => { m with poisoned := [burstKey 0 0] })) 0 0 [] = 3 := by decide +kernel

/-- A correction at one pin, and at two. -/
theorem wit_Burst_last : (∃ f, readBurst base 0 0 [(5, 7)] = .corrected f ∧ onePin f = some 5) ∧
    onePin [[(3, 9), (5, 7)]] = none := by
  refine ⟨⟨[[(5, 7)]], ?_, ?_⟩, ?_⟩ <;> decide +kernel

theorem wit_CaParity : 11 < 12 ∧ base.mc.lost.contains 11 = false ∧ (after (.caParityError 11 true) base).mc.lost.contains 11 = true := by decide +kernel

/-- An error of the interface, gone when the burst is read again, counts as corrected and as retried (R290). -/
theorem test_interface_error : let d := after (.burstError ⟨0, 0, [(5, 7)], [], []⟩) base
    d.dget (mcKey 0 1) = 1 ∧ d.dget (mcKey 0 2) = 1 ∧ d.mc = base.mc := by decide +kernel

/-- A lasting error takes the bank's lowest spare row, 22,889 of a stack (R291). -/
theorem test_lasting_error_remaps : (after (.burstError ⟨0, 0, [(5, 7)], [(5, 7)], [(5, 7)]⟩) base).mc.remaps = [⟨0, 0, 0, 0, 22889, 1, true⟩] := by decide +kernel

theorem test_uncorrectable_poisons :
    let bad := [(0, 1), (1, 2), (2, 3)]
    ((after (.burstError ⟨11, 8191, bad, bad, []⟩) (withSeg base 9 { seg0 with home := 11 })).res 9).st = 3 := by
  decide +kernel

/-- An uncorrectable burst in a free frame poisons nothing and counts against its row (R289). -/
theorem test_uncorrectable_in_a_free_frame :
    let bad := [(0, 1), (1, 2), (2, 3)]
    let d := after (.burstError ⟨11, 47999999999, bad, bad, []⟩) base
    frameHeld base 11 (frameAt 11 47999999999) = false ∧ d.mc.remaps.length = 1 ∧ d.mc.poisoned = [] := by
  decide +kernel

theorem test_patrol_counts_its_errors : (after (.patrolScrub 43 [⟨43, 0, [(0, 1)], [], []⟩, ⟨43, 7680, [(71, 9)], [], []⟩]) base).dget (mcKey 43 1) = 2 := by
  decide +kernel

theorem test_ca_parity_again_loses_the_stack : (after (.caParityError 11 true) base).mc.lost = [11] ∧
    (after (.caParityError 11 true) base).regionFenced 11 = true := by decide +kernel

theorem wit_Refresh : 12 ≤ 12 ∧ 11 < 12 ∧ 32 ≤ 32 ∧ 31 < 32 ∧ (850 : Int) < 851 ∧ (819 : Int) < 820 ∧ ((820 : Int) ≤ 820 ∧ (850 : Int) ≤ 850) := by decide

/-- 85.1 degrees is hot, 82.0 keeps what stands, 81.9 is not (R297). -/
theorem test_refresh_thresholds : (after (.refreshInterval 11 851) base).dget (O.STACK_HOT_REFRESH 11) = 1 ∧
    (after (.refreshInterval 11 820) (base.dset (O.STACK_HOT_REFRESH 11) 1)).dget (O.STACK_HOT_REFRESH 11) = 1 ∧
    (after (.slowTempPoll 31 819) (base.dset (O.PKG_HOT_REFRESH 31) 1)).dget (O.PKG_HOT_REFRESH 31) = 0 := by decide +kernel

def row0 : RowAt := ⟨0, 0, 0⟩

theorem wit_RowEscalation_fresh : base.mc.remaps.find? (fun e => e.unit == 0 && e.pc == row0.pc && e.bank == row0.bank && e.row == row0.row) = none ∧
    (base.mc.remaps.filter (fun e => e.unit == 0)).length < remapCap 0 ∧ freeSpare base 0 row0.pc row0.bank = some 22889 := by decide +kernel

/-- The last place of a package's table, and the full table. -/
def tableOf (n : Nat) : Dev := base.setMc (fun m => { m with remaps := (List.range n).map (fun i => ⟨12, 0, 0, i + 1, 600000 + i, 1, true⟩) })

theorem wit_RowEscalation_last_place : (tableOf 1023).mc.remaps.find? (fun e => e.unit == 12 && e.pc == 0 && e.bank == 0 && e.row == 0) = none ∧
    ((tableOf 1023).mc.remaps.filter (fun e => e.unit == 12)).length < remapCap 12 := by decide +kernel

theorem wit_RowEscalation_full : (tableOf 1024).mc.remaps.find? (fun e => e.unit == 12 && e.pc == 0 && e.bank == 0 && e.row == 0) = none ∧
    remapCap 12 ≤ ((tableOf 1024).mc.remaps.filter (fun e => e.unit == 12)).length := by decide +kernel

def onceFailed (n : Nat) : Dev := base.setMc (fun m => { m with remaps := [⟨0, 0, 0, 0, 22889, n, true⟩] })

theorem wit_RowEscalation_again : (onceFailed 1).mc.remaps.find? (fun e => e.unit == 0 && e.pc == 0 && e.bank == 0 && e.row == 0) = some ⟨0, 0, 0, 0, 22889, 1, true⟩ ∧
    freeSpare ((onceFailed 1).setMc (fun m => { m with dead := m.dead ++ [(0, 0, 0, 22889)] })) 0 0 0 = some 22890 := by decide +kernel

theorem wit_RowEscalation_third : (onceFailed 2).mc.remaps.find? (fun e => e.unit == 0 && e.pc == 0 && e.bank == 0 && e.row == 0) = some ⟨0, 0, 0, 0, 22889, 2, true⟩ := by
  decide +kernel

theorem wit_RowsHoldTheirFrames : 11 < 12 ∧ 47999999999 < 48000000000 ∧ 12 ≤ 43 ∧ 43 < 44 ∧ frameAt 43 63999999999 < 500000000 := by decide +kernel

/-- Address 0 lies in pseudo-channel 0, bank 0, row 0; 2^21 in row 1, bank 0 xor 1 (R284). -/
theorem test_stack_address_map : rowAt 0 0 = ⟨0, 0, 0⟩ ∧ rowAt 0 (2 ^ 21) = ⟨0, 1, 1⟩ ∧ rowAt 0 1024 = ⟨1, 0, 0⟩ := by decide +kernel

/-! ### Serving loops -/

def who0 : Sender := ⟨5, false, 0, 7⟩

/-- A loop record in segment 1: pipeline 0, four rows, no caches, Q 1 of 1, inputs of 64 bytes in segment 2, 48 answer bytes, plan record in segment 3. -/
def loopRec : Bytes := [0, 0, 4, 0, 0, 0, 1, 0, 1, 1, 0, 0, 0, 0, 0, 0, 2, 0, 0, 0, 64, 0, 0, 0, 0, 48, 0, 0, 0, 0, 0, 0, 3, 0, 0, 0]

/-- A plan record of C = E = H = I = A = 1 (R242). -/
def planRec0 : Bytes := [1, 0, 1, 0, 1, 0, 1, 1, 0, 0, 0, 0, 0, 0, 0, 0]

def served : Dev :=
  let d := [1, 2, 3].foldl (fun d k => withSeg d k { seg0 with frame := 8 * k }) (jobOn base 0)
  (d.segWrite 1 0 loopRec).segWrite 3 0 planRec0

/-- The loop open, with stream 65,535 of the given state. -/
def looping (st : Nat) (f : Loop → Loop) : Dev := ((readLoop served who0 0 1).elim served (fun l =>
  served.setSrv (fun v => { v with loops := [f l], streams := [(65535, { Stream.free with st := st })] })))

theorem wit_Loop_start : served.loopOf 0 = none ∧ served.dget (O.JOB_STATE 0) = 1 ∧ (readLoop served who0 0 1).isSome = true := by decide +kernel

theorem wit_Loop_start_refused : base.dget (O.JOB_STATE 0) = 0 ∧ (looping 2 id).loopOf 0 ≠ none ∧ readLoop base who0 0 1 = none ∧
    base.loopOf 0 = none := by decide +kernel

theorem wit_Loop_start_suspended : (served.dset (O.JOB_STATE 0) 2).dget (O.JOB_STATE 0) = 2 ∧
    (readLoop (served.dset (O.JOB_STATE 0) 2) who0 0 1).isSome = true := by decide +kernel

theorem wit_Loop_stop : ((looping 4 id).loopOf 0).map (·.joins) = some [] ∧
    ((looping 4 id).streamsOf 0).filter (fun p => p.2.st == 2 || p.2.st == 3) = [] := by decide +kernel

theorem wit_Loop_join : ((looping 2 id).loopOf 0).map (fun l => (l.joins.length, l.stopping.isNone, (readPlan (looping 2 id) l).isSome)) = some (0, true, true) ∧
    (looping 2 id).freeStream = some 0 := by decide +kernel

/-- No plan record; every number taken; a stopping loop. -/
theorem wit_Loop_join_refused :
    (((looping 2 (fun l => { l with planRec := 9 })).loopOf 0).map (fun l => (readPlan (looping 2 (fun l => { l with planRec := 9 })) l).isNone)) = some true ∧
    ((looping 2 (fun l => { l with stopping := some who0 })).loopOf 0).map (·.stopping.isSome) = some true := by decide +kernel

theorem wit_Loop_leave_refused : loopStream (looping 0 id) 0 65535 = false := by decide +kernel

theorem wit_Loop_leave : loopStream (looping 2 id) 0 65535 = true ∧ loopStream (looping 1 id) 0 65535 = true := by decide +kernel

theorem wit_Loop_planOn : loopStream (looping 3 id) 0 65535 = true ∧ ((looping 3 id).stream 65535).plan = false ∧ ((looping 3 id).stream 65535).st = 3 ∧
    ((looping 3 id).loopOf 0).map (fun l => (l.planners.any (fun q => q.root == 65535), (readPlan (looping 3 id) l).isSome)) = some (false, true) := by decide +kernel

theorem wit_Loop_planOn_again : loopStream (looping 0 id) 0 65535 = false ∧
    ((after (.planOn who0 0 65535) (looping 2 id)).loopOf 0).map (fun l => l.planners.any (fun q => q.root == 65535)) = some true := by decide +kernel

/-- A step is over when no descriptor of it is in flight. -/
theorem wit_Boundary_waits : base.loopOf 0 = none ∧
    stepOver (fly (looping 2 (fun l => { l with active := [65535] })) { fl [(0, 8, 2)] with queue := 4 }) 0 = false := by decide +kernel

theorem wit_Boundary_goes_on : (looping 2 id).loopOf 0 ≠ none ∧ stepOver (looping 2 id) 0 = true ∧
    (stopNow (endLeavers (plansEach planScore (plansEach planFork (applyOrders (closeStep (looping 2 id) 0 0) 0) 0) 0) 0).1 0
      (endLeavers (plansEach planScore (plansEach planFork (applyOrders (closeStep (looping 2 id) 0 0) 0) 0) 0) 0).2).isNone = true := by decide +kernel

theorem wit_Boundary_stops :
    let d := (looping 2 (fun l => { l with stopping := some who0 })).setSrv (fun v => { v with streams := [] })
    d.loopOf 0 ≠ none ∧ stepOver d 0 = true ∧ (stopNow (endLeavers (plansEach planScore (plansEach planFork (applyOrders (closeStep d 0 0) 0) 0) 0) 0).1 0
      (endLeavers (plansEach planScore (plansEach planFork (applyOrders (closeStep d 0 0) 0) 0) 0) 0).2).isSome = true := by decide +kernel

/-- Mark 0 expects 10 us, with 5 more behind it, the deadline 100 us after the start. -/
def marked : Dev := looping 2 (fun l => { l with active := [65535], mon := [100, 0, 0, 1, 1, at' 0 8 0 + at' 8 12 10 + at' 20 12 5] ++ List.replicate 15 0 })

theorem wit_DeadlineMark : (marked.loopOf 0).map (fun l => (l.active, nth 0 l.mon 0, nth 0 l.mon 4, fld (nth 0 l.mon 5) 8 12, fld (nth 0 l.mon 5) 20 12, l.startUs)) =
    some ([65535], 100, 1, 10, 5, 0) := by decide +kernel

/-- What keeps a mark from acting: no loop, no deadline, no stream under way, no such mark, no expectation, time enough. -/
theorem wit_DeadlineMark_passes : base.loopOf 0 = none ∧ ((looping 2 id).loopOf 0).map (fun l => (l.active, nth 0 l.mon 0)) = some ([], 0) ∧
    65 + 1 + ceilDiv (5 * Nat.max 10 66) 10 ≤ 100 ∧ 100 < 66 + 1 + ceilDiv (5 * Nat.max 10 67) 10 := by decide +kernel

/-- At 66 us: 67 + ceil(5 x 67 / 10) = 101 > 100. At 65 us: 66 + 33 = 99 (R404). -/
theorem test_deadline_mark : (after (.deadlineMark 0 0 ⟨66, []⟩) marked).dget (O.OVERRUNS_PREDICTED 0) = 1 ∧
    (after (.deadlineMark 0 0 ⟨65, []⟩) marked).dget (O.OVERRUNS_PREDICTED 0) = 0 := by decide +kernel

theorem test_loop_start : ((after (.start who0 0 1) served).loopOf 0).map (fun l => (l.rows, l.ansBytes, l.planRec)) = some (4, 48, 3) := by decide +kernel

theorem test_loop_join_takes_the_lowest_stream : ((after (.join who0 0 15 false) (looping 2 id)).stream 0).st = 1 ∧
    ((after (.join who0 0 15 false) (looping 2 id)).stream 0).prio = 15 := by decide +kernel

theorem test_loop_leave : ((after (.leave who0 0 65535) (looping 2 id)).stream 65535).st = 4 := by decide +kernel

theorem test_loop_stop : ((after (.stop who0 0) (looping 2 id)).stream 65535).st = 4 := by decide +kernel

theorem test_plan_on_and_off :
    let d := after (.planOn who0 0 65535) (looping 2 id)
    (d.loopOf 0).map (fun l => l.planners.map (·.root)) = some [65535] ∧
    ((after (.planOff who0 0 65535) d).loopOf 0).map (fun l => l.planners.length) = some 0 := by decide +kernel

theorem test_boundary_serves_a_join : ((after (.servingStepBoundary 0 ⟨0, []⟩) (after (.join who0 0 3 false) (looping 2 id))).stream 0).st = 2 := by decide +kernel

/-! ### The vane -/

def answering (plan : Bool) : Dev := (looping 2 (fun l => { l with active := [65535], ansBytes := 2 })).modStream 65535 (fun s => { s with plan := plan, step := 9 })

theorem wit_VaneAnswers : ((answering false).loopOf 0).map (fun l => (l.active.contains 65535, l.planners.any (fun p => p.root == 65535))) = some (true, false) ∧
    ((answering false).stream 65535).st ≠ 0 ∧ ((answering false).stream 65535).plan = false := by decide +kernel

theorem wit_VaneAnswers_no_effect : base.loopOf (base.stream 65535).job = none ∧
    ((looping 2 id).loopOf 0).map (fun l => l.active.contains 65535) = some false := by decide +kernel

theorem wit_VaneAnswers_candidate : ((answering true).loopOf 0).isSome = true ∧ ((answering true).stream 65535).st ≠ 0 ∧
    ((answering true).stream 65535).plan = true ∧ ((answering true).loopOf 0).map (fun l => l.active.contains 65535) = some true := by decide +kernel

/-- Two answer bytes, step 9, SEQ one up from its largest value. -/
theorem test_vane_write : let d := after (.vaneAnswerWrite 65535 [0x34, 0x12, 0x99] true) ((answering false).setVane 65535 { Vane.empty with seq := 2 ^ 32 - 1 })
    (d.vaneAt 65535).answer = 0x1234 ∧ (d.vaneAt 65535).step = 9 ∧ (d.vaneAt 65535).seq = 0 ∧ (d.vaneAt 65535).valid = true ∧ (d.vaneAt 65535).sat = true := by
  decide +kernel

/-- A read of entry 65,535 by member 9 of the same group with job context 3. -/
def vaneMsg (sjob : Nat) : Msg := { msg 5 1 (leBytes 8 65535) with hdr := { hdr0 with kind := 1, src := 9, sjob := sjob } }

def vaned (scope : Nat) : Dev := (up (looping 2 (fun l => { l with scope := scope })) 15).dset O.DEVICE_ID 1

theorem wit_VaneReads_refused : base.portUp 15 = false ∧ layoutOk { vaneMsg 0 with body := [] } = false ∧ (vaneMsg 0).vc = 5 ∧ (vaneMsg 0).hdr.kind = 1 ∧
    (up base 15).portUp 15 = true := by decide +kernel

theorem wit_VaneReads_free : Handed (up base 15) 15 (vaneMsg 0) 5 0x01 ∧ (((up base 15).stream 65535).st = 0) := by unfold Handed; decide +kernel

theorem wit_VaneReads_admitted : Handed (vaned 0) 15 (vaneMsg 0) 5 0x01 ∧ ((vaned 0).loopOf 0).map (·.scope) = some 0 ∧ (vaneMsg 0).hdr.sjob = 0 ∧
    ((vaned 1).loopOf 0).map (·.scope) = some 1 ∧ (vaned 1).ownId.map idGroup = some (idGroup 9) ∧ ((vaned 2).loopOf 0).map (·.scope) = some 2 := by
  unfold Handed; decide +kernel

theorem wit_VaneReads_denied : Handed (vaned 0) 15 (vaneMsg 3) 5 0x01 ∧ ((vaned 0).loopOf 0).map (·.scope) = some 0 ∧ (vaneMsg 3).hdr.sjob ≠ 0 ∧
    ((vaned 0).stream 65535).st ≠ 0 := by unfold Handed; decide +kernel

theorem test_vane_denied : (after (.vaneRead 15 (vaneMsg 3)) (vaned 0)).dget (O.VANE_DENIED 0) = 1 ∧
    (after (.vaneRead 15 (vaneMsg 0)) (vaned 0)).dget (O.VANE_DENIED 0) = 0 := by decide +kernel

/-! ### Remote accesses, doorbells, mailboxes -/

/-- Words 0 and 1 of a SEG_WRITE or SEG_READ of segment 0 from unit `off`, `n` units. -/
def segMsg (kind off n sjob : Nat) (data : Bytes) : Msg :=
  { msg 0 kind (leBytes 16 (at' 19 17 off + at' 36 10 n) ++ data) with hdr := { hdr0 with kind := kind, sjob := sjob } }

def owned : Dev := withSeg (jobOn base 0) 0 seg0

/-- The last 64 bytes of the segment. -/
theorem wit_SegWrite : InTurn owned 16 (segMsg 0x10 63 0 0 (List.replicate 64 7)) 0x10 ∧ (owned.res 0).st = 1 ∧ owned.isDir 0 = false ∧ owned.pinFree 0 true = true ∧
    (owned.res 0).comp = false ∧ bit (owned.job 0).owner 22 = true ∧ ownerIs (owned.job 0).owner (segMsg 0x10 63 0 0 []).hdr = true ∧
    segOff (segMsg 0x10 63 0 0 (List.replicate 64 7)) + 64 ≤ (owned.res 0).len := by
  unfold InTurn Handed; decide +kernel

theorem wit_SegAccess_denied : InTurn owned 16 (segMsg 0x10 0 0 1 (List.replicate 64 7)) 0x10 ∧ InTurn owned 16 (segMsg 0x12 0 1 1 []) 0x12 ∧
    (owned.res 0).st ≠ 0 ∧ ownerIs (owned.job 0).owner (segMsg 0x12 0 1 1 []).hdr = false := by unfold InTurn Handed; decide +kernel

theorem wit_SegRead : InTurn owned 16 (segMsg 0x12 63 1 0 []) 0x12 ∧ owned.segOk 0 = true ∧ 0 < segCount (segMsg 0x12 63 1 0 []) ∧
    segOff (segMsg 0x12 63 1 0 []) + segCount (segMsg 0x12 63 1 0 []) ≤ (owned.res 0).len ∧
    ownerIs (owned.job 0).owner (segMsg 0x12 63 1 0 []).hdr = true := by unfold InTurn Handed; decide +kernel

/-- A message of another channel, one that is too short, one behind another of its source. -/
theorem wit_Remote_no_effect : (msg 1 0x10 []).vc ≠ 0 ∧ layoutOk (msg 0 0x10 []) = false ∧
    (owned.setStore (fun s => { s with held := [(16, segMsg 0x10 0 1 0 [])] })).store.held.any (fun h => sameSource h.2 (segMsg 0x12 63 1 0 [])) = true ∧
    Handed owned 16 (segMsg 0x12 63 1 0 []) 0 0x12 := by unfold Handed; decide +kernel

/-- Beyond the segment; of a poisoned one; of one on its way; of one that is compressed; of one with 255 write pins. -/
theorem wit_SegWrite_refused : let m := segMsg 0x10 63 0 0 (List.replicate 64 7)
    InTurn owned 16 m 0x10 ∧ segStatus owned (segMsg 0x10 64 0 0 (List.replicate 64 7)) 64 true = stField ∧
    segStatus (withSeg owned 0 { seg0 with st := 3 }) m 64 true = stPoison ∧
    segStatus (withSeg owned 0 { seg0 with comp := true }) m 64 true = stComp ∧
    segStatus (withSeg owned 0 { seg0 with wpin := 255 }) m 64 true = stOk ∧ (withSeg owned 0 { seg0 with wpin := 255 }).pinFree 0 true = false := by
  unfold InTurn Handed; decide +kernel

theorem wit_SegRead_refused : let m := segMsg 0x12 63 1 0 []
    segStatus owned (segMsg 0x12 63 2 0 []) 128 false ≠ stOk ∧ segStatus (withSeg owned 0 { seg0 with pin := 16383 }) m 64 false = stOk ∧
    (withSeg owned 0 { seg0 with pin := 16383 }).pinFree 0 false = false ∧ owned.pinFree 0 false = true ∧
    segStatus (withSeg owned 0 { seg0 with comp := true }) m 64 false = stOk ∧ (withSeg owned 0 { seg0 with comp := true }).segOk 0 = false := by
  decide +kernel

theorem test_seg_write_lands : let d := after (.segWrite 16 (segMsg 0x10 63 0 0 (List.replicate 64 7))) owned
    d.segRead 0 4032 1 = [7] ∧ d.segRead 0 4031 1 = [0] := by decide +kernel

theorem test_seg_denied : let d := after (.segWrite 16 (segMsg 0x10 0 0 1 (List.replicate 64 7))) owned
    d.mem = owned.mem ∧ d.dget O.SEG_DENIED = 1 ∧ (after (.segRead 16 (segMsg 0x12 0 1 1 [])) owned).dget O.SEG_DENIED = 1 := by decide +kernel

def bell (q tail : Nat) (chead : Option Nat) : Msg :=
  msg 0 0x20 (leBytes 16 (at' 6 2 q + at' 8 1 (bool01 chead.isSome) + at' 32 32 tail + at' 64 32 (chead.getD 0)))

theorem wit_Doorbell : InTurn owned 16 (bell 0 8 none) 0x20 ∧ owned.dget O.LULL_STATE = 0 := by unfold InTurn Handed; decide +kernel

theorem wit_Doorbell_in_Lull : InTurn (owned.dset O.LULL_STATE 2) 16 (bell 0 8 none) 0x20 ∧ (owned.dset O.LULL_STATE 2).dget O.LULL_STATE ≠ 0 := by
  unfold InTurn Handed; decide +kernel

/-- A ring of 8: TAIL 8 is the last it takes, 9 is not; CHEAD may not pass CTAIL; queue 1 does not exist (R421). -/
theorem test_doorbell_bounds : (after (.doorbell 16 (bell 0 8 none)) owned).dget (O.QUEUE_TAIL 0 0) = 8 ∧
    (after (.doorbell 16 (bell 0 9 none)) owned).dget O.DOORBELL_REJECTS = 1 ∧ (after (.doorbell 16 (bell 0 8 (some 1))) owned).dget O.DOORBELL_REJECTS = 1 ∧
    (after (.doorbell 16 (bell 1 0 none)) owned).dget O.DOORBELL_REJECTS = 1 := by decide +kernel

theorem test_doorbell_chead : (after (.doorbell 16 (bell 0 3 (some 2))) (owned.dset (O.COMPL_TAIL 0 0) 2)).dget (O.COMPL_HEAD 0 0) = 2 := by decide +kernel

/-- Channel 255 bound to the sender (5, job context 0, channel 7), served for job 0. -/
def mailed (pending : Bool) : Dev := ((jobOn base 0).dset (O.MBOX_BIND 255) (at' 0 15 5 + at' 22 8 7 + at' 36 1 1)).setMbox 255 ⟨[(0, 1), (15, 4)], pending⟩

def mail (schan : Nat) (first n go : Nat) : Msg :=
  { msg 0 0x30 (leBytes 8 (at' 0 8 255 + at' 8 4 first + at' 12 5 n + at' 17 1 go) ++ List.replicate (4 * n) 9) with
    hdr := { hdr0 with kind := 0x30, src := 5, schan := schan } }

theorem wit_Mailbox_bound : InTurn (mailed false) 16 (mail 7 15 1 1) 0x30 ∧ bit ((mailed false).dget (O.MBOX_BIND 255)) 36 = true ∧
    ownerIs ((mailed false).dget (O.MBOX_BIND 255)) (mail 7 15 1 1).hdr = true ∧ fld ((mailed false).dget (O.MBOX_BIND 255)) 22 8 = 7 ∧
    ((mailed false).mbox1 255).pending = false ∧ ((mailed true).mbox1 255).pending = true := by unfold InTurn Handed; decide +kernel

theorem wit_Mailbox_unbound : InTurn (mailed false) 16 (mail 8 0 16 0) 0x30 ∧ fld ((mailed false).dget (O.MBOX_BIND 255)) 22 8 ≠ 8 := by
  unfold InTurn Handed; decide +kernel

theorem wit_Mailbox_consume : ((mailed true).mbox1 255).pending = true ∧ ((mailed false).mbox1 255).pending = false := by decide +kernel

theorem test_mailbox_write : let d := after (.mboxWrite 16 (mail 7 15 1 1)) (mailed false)
    (d.mbox1 255).pending = true ∧ SMap.get 0 (d.mbox1 255).regs 15 = 0x09090909 ∧ SMap.get 0 (d.mbox1 255).regs 0 = 1 ∧
    (after (.mboxWrite 16 (mail 7 0 1 0)) (mailed true)).dget O.MBOX_BUSY_COUNT = 1 ∧
    (after (.mboxWrite 16 (mail 8 0 1 0)) (mailed false)).dget O.MBOX_DENIED = 1 := by decide +kernel

theorem test_mailbox_consume : ((after (.mboxConsume 255) (mailed true)).mbox1 255) = Mbox.idle := by decide +kernel

/-! ### Headers, superframes, routing, order -/

def hdrMax : Hdr := ⟨255, 255, 2 ^ 15 - 1, true, 2 ^ 15 - 1, true, 63, 255, 2 ^ 32 - 1⟩

theorem wit_Headers : HdrFits hdrMax ∧ 65535 < 2 ^ 16 := by unfold HdrFits; decide

/-- KIND 0x12, HOPS 3, DST 0x0102 with the host bit, SRC 5, job 2, channel 9, LEN 7, SEQ 1 (R353). -/
theorem test_header_bytes : hdrBytes ⟨0x12, 3, 0x0102, true, 5, false, 2, 9, 1⟩ 7 =
    [0x12, 3, 0x02, 0x81, 5, 0, 0x42, 0x02, 7, 0, 0, 0, 1, 0, 0, 0] := by decide +kernel

theorem wit_Superframes : let f : Frame := ⟨15, List.replicate 256 7, none⟩
    4095 < 4096 ∧ (List.replicate 20 f).length ≤ 20 ∧ [(7, 255), (0, 1)].length ≤ 2 ∧
    (∀ g ∈ List.replicate 20 f, g.fkind < 16 ∧ g.bytes.length = 256) ∧ (∀ c ∈ [((7 : Nat), (255 : Nat)), (0, 1)], c.1 < 8 ∧ c.2 < 256) := by
  refine ⟨by decide, by decide, by decide, ?_, by decide⟩
  intro g hg
  rw [List.eq_of_mem_replicate hg]
  decide +kernel

/-- Member 1 of group 0, member 9 behind port 2, which is up. -/
def routed : Dev := (((up base 2).dset O.DEVICE_ID 1)).modLnk (fun l => { l with member := [(9, 0x12)] })

def routeMsg (dst hops : Nat) : Msg := { msg 4 1 (List.replicate 8 0) with hdr := { hdr0 with kind := 1, dst := dst, hops := hops } }

theorem wit_Routed_transit : routed.portUp 2 = true ∧ (routeMsg 9 0).vc ≠ 6 ∧ ¬((routeMsg 9 0).vc = 4 ∧ neighbourKind (routeMsg 9 0).hdr.kind = true) ∧
    layoutOk (routeMsg 9 0) = true ∧ routed.isHostPort 2 = false ∧ routed.destOf 9 false = .out 2 ∧ routed.destOf 1 false = .here ∧
    routed.destOf 10 false = .unreachable ∧ routed.lnk.fencedIds = [] ∧ routed.ownId ≠ some 9 := by decide +kernel

theorem wit_Routed_other : base.portUp 2 = false ∧ (msg 6 1 []).vc = 6 ∧ neighbourKind 0x7F = true ∧
    (let d := (up (routed.dset O.HOST_PORT 3) 3)
     d.portUp 3 = true ∧ d.isHostPort 3 = true ∧ layoutOk (routeMsg 9 0) = true ∧ hostStamp d (routeMsg 9 0) = none) ∧
    layoutOk (msg 0 0x10 []) = false ∧ routed.destOf 1 true = .noHost := by decide +kernel

theorem wit_Routed_origin_here : routed.destOf (routeMsg 1 0).hdr.dst (routeMsg 1 0).hdr.dstHost = .here ∧ (routeMsg 1 0).vc ≠ 6 ∧ 7 < (msg 8 1 []).vc := by
  decide +kernel

theorem wit_Routed_origin : (routeMsg 9 0).vc < 8 ∧ (routeMsg 9 0).vc ≠ 3 ∧ routed.destOf (routeMsg 9 0).hdr.dst (routeMsg 9 0).hdr.dstHost ≠ .here := by
  decide +kernel

theorem wit_Routed_host : (((up routed 3).dset O.HOST_PORT 3)).destOf 1 true = .host 3 := by decide +kernel

/-- HOPS 126 goes on as 127; 127 is dropped and counted; no entry, no way (R353, R369). -/
theorem test_transit : (((after (.messageRoute 2 (routeMsg 9 126)) routed).port 2).txq.head?).map (fun f => f.bytes.drop 1 |>.take 1) = some [127] ∧
    (after (.messageRoute 2 (routeMsg 9 127)) routed).dget (O.HOP_DROPS 2) = 1 ∧
    (after (.messageRoute 2 (routeMsg 10 0)) routed).dget O.UNREACHABLE_DROPS = 1 := by decide +kernel

def seqMsg (n : Nat) : Msg := { msg 0 0x12 (List.replicate 16 0) with hdr := { hdr0 with kind := 0x12, src := 9, seq := n } }

theorem wit_Ordered_numbers : (∀ v ∈ [0, 1, 2, 4, 7], v ≠ 3 ∧ v ≠ 5 ∧ v ≠ 6) ∧ SMap.get 0 ((base.modLnk (fun l => { l with txSeq := [(72, 2 ^ 32 - 1)] })).lnk.txSeq) (9 * 8 + 0) = 2 ^ 32 - 1 := by
  decide +kernel

theorem test_sender_number_wraps : (base.modLnk (fun l => { l with txSeq := [(72, 2 ^ 32 - 1)] })).nextSeq 9 0 =
    (2 ^ 32 - 1, base.modLnk (fun l => { l with txSeq := [(72, 1)] })) := by decide +kernel

theorem wit_Ordered_receiver : (seqMsg 0).hdr.seq = 0 ∧ expected base (msgKey (seqMsg 5)) = none ∧
    expected (setExpected (at_ base) (msgKey (seqMsg 5)) 5).dev (msgKey (seqMsg 5)) = some 5 ∧
    (let d := (setExpected (at_ base) (msgKey (seqMsg 5)) 5).dev
     (5 + 2 ^ 31 - 1 + 2 ^ 32 - 5) % 2 ^ 32 < 2 ^ 31 ∧ (∀ x ∈ d.lnk.reorder, msgKey x.2 ≠ msgKey (seqMsg 7) ∨ x.2.hdr.seq ≠ 7) ∧ d.lnk.reorder.length < 511 ∧
     2 ^ 31 ≤ (4 + 2 ^ 32 - 5) % 2 ^ 32) := by decide +kernel

/-- Number 5 expected, 7 held for want of 6. -/
def gap : State := orderMsg (setExpected (at_ base) (msgKey (seqMsg 5)) 6) 2 (seqMsg 7)

theorem wit_ReorderTimeout : gap.dev.lnk.reorder.find? (fun x => msgKey x.2 == 9 * 8 + 0) = some (2, seqMsg 7) := by decide +kernel

theorem wit_ReorderTimeout_none : ∀ x ∈ base.lnk.reorder, msgKey x.2 ≠ 9 * 8 + 0 := by decide

/-- A held message again; and one ahead when the buffer has 511. -/
theorem wit_Ordered_held : (∃ x ∈ gap.dev.lnk.reorder, msgKey x.2 = msgKey (seqMsg 7) ∧ x.2.hdr.seq = 7) ∧
    511 ≤ (List.replicate 511 ((2 : Nat), seqMsg 9)).length ∧ (∀ x ∈ List.replicate 511 ((2 : Nat), seqMsg 9), msgKey x.2 ≠ msgKey (seqMsg 7) ∨ x.2.hdr.seq ≠ 7) := by
  refine ⟨by decide +kernel, by rw [List.length_replicate], fun x hx => ?_⟩
  rw [List.eq_of_mem_replicate hx]
  decide

theorem test_reorder_timeout_goes_on : let d := after (.reorderTimeout 9 0) gap.dev
    d.lnk.reorder = [] ∧ expected d (msgKey (seqMsg 5)) = some 8 := by decide +kernel

theorem test_duplicate : (orderMsg (setExpected (at_ base) (msgKey (seqMsg 5)) 6) 2 (seqMsg 5)).dev.dget O.SEQ_DUPLICATES = 1 := by decide +kernel

/-! ### Link control -/

/-- Port 15 in training, steps 1 to 3 done, CREDIT_INIT already in. -/
def training : Dev := (base.dset (O.PORT_STATE 15) 1).modPort 15 (fun q => { q with linked := true, creditIn := true })

theorem wit_PortTraining : 15 < 16 ∧ (base.dset (O.PORT_STATE 15) 1).dget (O.PORT_STATE 15) = 1 ∧
    (([8].filter (fun l => decide (l < 9))).dedup).length < 2 ∧ 2 ≤ (([7, 8].filter (fun l => decide (l < 9))).dedup).length := by decide +kernel

theorem wit_LinkControl_no_effect : ¬(16 < 16) ∧ base.dget (O.PORT_STATE 15) = 0 ∧ (base.port 15).linked = false ∧ base.portUp 15 = false ∧
    (up base 15).portUp 15 = true ∧ ((up base 15).port 15).swap ≠ some 7 ∧ 4096 ≤ 4096 := by decide +kernel

/-- A version other than 1; a second host. -/
theorem wit_Hello_refused : (training.port 15).linked = true ∧ (2 : Nat) ≠ 1 ∧
    ((training.dset O.HOST_PORT 3).dget O.HOST_PORT < 16 ∧ (training.dset O.HOST_PORT 3).dget O.HOST_PORT ≠ 15) := by decide +kernel

theorem wit_Hello_and_credits : (training.port 15).linked = true ∧ training.dget O.HOST_PORT ≠ 15 ∧ 0x7FFF < 0x8000 := by decide +kernel

theorem wit_Retrain_and_swaps : (up base 15).portUp 15 = true ∧ ((up base 15).port 15).txSpare = 255 ∧
    (let d := (up base 15).modPort 15 (fun q => { q with swap := some 7 })
     (d.port 15).swap = some 7 ∧ (d.port 15).swapWait = none ∧ 4095 < 4096 ∧ d.portUp 15 = true) := by decide +kernel

theorem wit_UpCheck : let d := training.modPort 15 (fun q => { q with helloIn := true })
    (d.port 15).helloIn = true ∧ (d.port 15).creditIn = true ∧ d.dget (O.PORT_STATE 15) = 1 := by decide +kernel

theorem test_training_fails_with_two_bad_lanes : (after (.portTraining 15 [7, 8]) (base.dset (O.PORT_STATE 15) 1)).dget (O.PORT_STATE 15) = 5 ∧
    ((after (.portTraining 15 [8]) (base.dset (O.PORT_STATE 15) 1)).port 15).linked = true := by decide +kernel

theorem test_hello_brings_the_port_up : let d := after (.hello 15 0 9 (List.replicate 16 1) 3 1) training
    d.dget (O.PORT_STATE 15) = 2 ∧ d.dget (O.PEER_ID 15) = 9 ∧ (d.port 15).peerPort = 3 := by decide +kernel

theorem test_credit_init : ((after (.creditInit 15 [1, 2, 3, 4, 5, 6, 7, 8]) training).port 15).credits = [1, 2, 3, 4, 5, 6, 7, 8] := by decide +kernel

theorem test_swap_req : ((after (.swapReq 15 7) (up base 15)).port 15).txSpare = 7 ∧ (after (.swapReq 15 7) (up base 15)).dget (O.LANE_SWAPS 15) = 1 := by decide +kernel

theorem test_swap_ack : (after (.swapAck 15 7 9) ((up base 15).modPort 15 (fun q => { q with swap := some 7 }))).dget (O.SPARE_SERVES 15) = 7 := by decide +kernel

theorem test_retrain : (after (.retrain 15 2) (up base 15)).dget (O.PORT_STATE 15) = 4 ∧ (after (.retrain 15 2) (up base 15)).dget (O.RETRAINS 15) = 1 := by decide +kernel

theorem test_port_state_change : (after (.portStateChange 15 3) base).dget (O.PORT_STATE 15) = 3 ∧ (after (.portStateChange 15 6) base).dget (O.PORT_STATE 15) = 0 := by
  decide +kernel

/-! ### Link traffic -/

theorem wit_SuperframeTx : 15 < 16 ∧ ((up base 15).port 15).linked = true ∧ (up base 15).dget O.LULL_STATE ≠ 2 ∧ ((up base 15).port 15).silent = false ∧
    ((up base 15).port 15).resend = [] ∧ ((up base 15).port 15).peerLull = false ∧ ((up base 15).port 15).replay = [] ∧
    (let d := (up base 15).modPort 15 (fun q => { q with resend := [⟨4095, [], []⟩], replay := [⟨4095, [], []⟩] })
     (d.port 15).resend = ⟨4095, [], []⟩ :: [] ∧ (d.port 15).replay ≠ [] ∧ (d.port 15).peerLull = false) ∧ (base.port 15).linked = false := by decide +kernel

theorem test_replay_timeout : let d := after (.replayTimeout 15) ((up base 15).modPort 15 (fun q => { q with replay := [⟨4095, [], []⟩, ⟨0, [], []⟩] }))
    (d.port 15).resend = [⟨4095, [], []⟩, ⟨0, [], []⟩] ∧ d.dget (O.REPLAYS 15) = 1 := by decide +kernel

theorem crc_lt (bs : Bytes) : crc32c bs < 2 ^ 32 := BitVec.isLt _

/-- The 5,120 bytes of 20 frames, this trailer, and a check `off` away from the good one. -/
def checkedBytes (h : Bytes) (t off : Nat) : Bytes := (h ++ leBytes 16 t) ++ leBytes 4 ((crc32c (h ++ leBytes 16 t) + off) % 2 ^ 32)

section
variable {h : Bytes} (hl : h.length = 5120) (t off : Nat)
include hl

theorem checkedBytes_length : (checkedBytes h t off).length = 5140 := by simp [checkedBytes, length_leBytes, hl]

theorem checkedBytes_head : (checkedBytes h t off).take 5136 = h ++ leBytes 16 t := by
  rw [checkedBytes, List.take_left' (by simp [length_leBytes, hl])]

theorem checkedBytes_crc : leAt (checkedBytes h t off) 5136 4 = (crc32c (h ++ leBytes 16 t) + off) % 2 ^ 32 := by
  rw [leAt, checkedBytes, List.drop_left' (by simp [length_leBytes, hl]), List.take_of_length_le (by simp [length_leBytes]), ofLe_leBytes]
  norm_num

theorem checkedBytes_trailer : leAt (checkedBytes h t off) 5120 16 = t % 256 ^ 16 := by
  rw [leAt, checkedBytes, List.append_assoc, List.drop_left' hl, List.take_left' (length_leBytes _ _), ofLe_leBytes]
end

/-- A superframe of zeros with a good check is received on the eight lanes, and has the number that is expected. -/
theorem wit_SuperframeRx_good : ∃ b : Bytes, received (readLanes (up base 15) 15 (superLanes b) []) = some (b, List.replicate 8 0) ∧
    bit (leAt b 5120 16) 25 = false ∧ fld (leAt b 5120 16) 0 12 = sseqNext ((up base 15).port 15).rxGood := by
  have hl : (List.replicate 5120 (0 : Byte)).length = 5120 := List.length_replicate
  refine ⟨checkedBytes (List.replicate 5120 0) 0 0, ?_, ?_, ?_⟩
  · have hr : readLanes (up base 15) 15 (superLanes (checkedBytes (List.replicate 5120 0) 0 0)) [] = superLanes (checkedBytes (List.replicate 5120 0) 0 0) := by
      have hs : (up base 15).dget (O.SPARE_SERVES 15) = 255 := by decide +kernel
      refine Eq.trans (List.map_congr_left fun l h => ?_) (map_nth_range [] _ 8 (superLanes_length _))
      rw [List.mem_range] at h
      rw [hs, if_neg (by omega)]
    rw [hr, received_superLanes _ (checkedBytes_length hl 0 0), if_pos]
    rw [checkedBytes_head hl, checkedBytes_crc hl, Nat.add_zero, Nat.mod_eq_of_lt (crc_lt _)]
  · rw [checkedBytes_trailer hl]; decide
  · rw [checkedBytes_trailer hl]; decide +kernel

theorem wit_SuperframeRx_bad : ∃ b : Bytes, received (superLanes b) = none := by
  have hl : (List.replicate 5120 (0 : Byte)).length = 5120 := List.length_replicate
  refine ⟨checkedBytes (List.replicate 5120 0) 0 1, ?_⟩
  rw [received_superLanes _ (checkedBytes_length hl 0 1), if_neg]
  rw [checkedBytes_head hl, checkedBytes_crc hl]
  have := crc_lt (List.replicate 5120 (0 : Byte) ++ leBytes 16 0)
  generalize crc32c (List.replicate 5120 (0 : Byte) ++ leBytes 16 0) = c at *
  omega

/-- A superframe that fails is answered with a NAK (R340). -/
theorem test_failed_superframe : ((superFailed (up base 15) 15 none).port 15).nak = true := by decide +kernel

theorem wit_LossOfSignal : (up base 15).portUp 15 = true ∧ ((up base 15).port 15).peerLull = false ∧ (up base 15).dget O.LULL_STATE ≠ 2 ∧
    ((up base 15).port 15).peerHost = false ∧ [0, 8].Nodup ∧ (∀ l ∈ [0, 8], l < 9) ∧ 2 ≤ [0, 8].length ∧ (List.range 8).length < 9 ∧
    ((List.range 9).filter (fun l => decide (l < 9))).dedup.length = 9 ∧ ([8, 8, 9].filter (fun l => decide (l < 9))).dedup = [8] ∧ base.portUp 15 = false := by decide +kernel

theorem wit_LaneCorrectedLimit : (up base 15).dget O.LANE_SWAP_CORRECTED < (up base 15).dget O.LANE_SWAP_CORRECTED + 1 ∧ (up base 15).dget (O.SPARE_SERVES 15) ≠ 7 ∧
    ((up base 15).port 15).swap ≠ some 7 := by decide +kernel

theorem test_loss_of_two_lanes_retrains : (after (.lossOfSignal 15 [0, 8]) (up base 15)).dget (O.PORT_STATE 15) = 4 := by decide +kernel

theorem test_loss_of_all_lanes_fences : (after (.lossOfSignal 15 (List.range 9)) (up base 15)).dget (O.PORT_STATE 15) = 5 := by decide +kernel

theorem test_corrected_limit_asks_for_a_swap : ((after (.laneCorrectedLimit 15 7 (2 ^ 40)) (up base 15)).port 15).swap = some 7 := by decide +kernel

/-! ### The census -/

/-- A group port 2 that is up. -/
def bridge (st : Nat) : Dev := sets (up base 2) [(O.CENSUS_STATE, st), (O.GROUP_NUMBER, 3)]

/-- Neighbour messages on SYNC. -/
def waveMsg (gen : Nat) (serial : Byte) : Msg := msg 6 0x10 (leBytes 4 (at' 0 9 3 + at' 16 16 gen) ++ List.replicate 16 serial)
def replyMsg (gen : Nat) : Msg := msg 6 0x11 (leBytes 6 (at' 0 1 1 + at' 16 16 gen))
def mwaveMsg (g mg : Nat) : Msg := msg 6 0x14 (leBytes 4 (at' 0 9 g + at' 16 16 mg))
def mreplyMsg (mg : Nat) : Msg := msg 6 0x15 (leBytes 6 (at' 0 1 1 + at' 16 16 mg))
def noteMsg (id : Nat) : Msg := msg 6 0x18 (leBytes 8 id)

/-- Port 15 carries the host, so the module is a bridge (R367). -/
def bridged (st : Nat) : Dev := (bridge st).dset O.HOST_PORT 15

theorem wit_Census_start : (bridged 1).isBridge = true ∧ (bridged 1).sec.ready = true ∧ (bridged 1).lnk.census.stopped = false ∧
    (bridged 1).dget O.CENSUS_STATE = 1 ∧ (bridged 0).dget O.CENSUS_STATE ≠ 1 ∧ (bridged 2).dget O.CENSUS_STATE = 2 ∧ (bridged 3).dget O.CENSUS_STATE = 3 := by
  decide +kernel

theorem wit_Census_no_start : (bridge 1).isBridge = false ∧ (bridged 4).dget O.CENSUS_STATE = 4 ∧ base.portUp 2 = false := by decide +kernel

/-- A second bridge's wave (R372). -/
theorem wit_Wave_foreign : foreignWave ((bridge 1).modCensus (fun c => { c with gen := some 5, bridge := List.replicate 16 2 })) (List.replicate 16 1) = true ∨
    foreignWave ((bridged 1).modCensus (fun c => { c with gen := some 5, bridge := List.replicate 16 2 })) (List.replicate 16 1) = true := by decide +kernel

theorem wit_Wave_newer : FromNeighbour (bridge 0) 2 (waveMsg 5 1) 0x10 ∧ (bridge 0).groupPort 2 = true ∧ (waveMsg 5 1).body.length = 20 ∧
    foreignWave (bridge 0) (List.replicate 16 1) = false ∧ newerThan 5 (bridge 0).lnk.census.gen = true := by unfold FromNeighbour; decide +kernel

theorem wit_Wave_same : let d := (bridge 0).modCensus (fun c => { c with gen := some 5 })
    FromNeighbour d 2 (waveMsg 5 1) 0x10 ∧ foreignWave d (List.replicate 16 1) = false ∧ newerThan 5 d.lnk.census.gen = false := by unfold FromNeighbour; decide +kernel

/-- The generation after 65,535 is 0 (R372). -/
theorem test_generations_wrap : newerThan 0 (some 65535) = true ∧ newerThan 65535 (some 0) = false := by decide

theorem test_wave_joins : let d := after (.wave 2 (waveMsg 5 1)) (up (bridge 0) 4)
    d.lnk.census.parent = some 2 ∧ d.lnk.census.pend = [4] ∧ d.dget O.CENSUS_STATE = 1 := by decide +kernel

/-- Generation 5 running, port 2 still to answer. -/
def asking : Dev := (bridge 1).modCensus (fun c => { c with gen := some 5, pend := [2, 4] })

theorem wit_Reply : FromNeighbour asking 2 (replyMsg 5) 0x11 ∧ asking.groupPort 2 = true ∧ (replyMsg 5).body.length = 6 + 320 * leAt (replyMsg 5).body 4 2 ∧
    asking.dget O.CENSUS_STATE = 1 ∧ asking.lnk.census.gen = some (leAt (replyMsg 5).body 2 2) ∧ asking.lnk.census.pend.contains 2 = true := by
  unfold FromNeighbour; decide +kernel

theorem wit_Reply_not_asked : asking.lnk.census.gen ≠ some (leAt (replyMsg 6).body 2 2) := by decide +kernel

theorem test_reply : (after (.reply 2 (replyMsg 5)) asking).lnk.census.pend = [4] := by decide +kernel

theorem wit_RouteSet_own : ∃ m : Msg, FromNeighbour (bridge 1) 2 m 0x12 ∧ (bridge 1).groupPort 2 = true ∧ m.body.length = 37460 ∧ m.body.take 16 = ownSerial := by
  have h : ownSerial.length = 16 := by simp [ownSerial, fitBytes]; omega
  refine ⟨msg 6 0x12 (ownSerial ++ List.replicate 37444 0), ?_, by decide +kernel, ?_, ?_⟩
  · refine ⟨by decide +kernel, by decide +kernel, by decide +kernel, rfl, rfl⟩
  · simp only [msg, List.length_append, h, List.length_replicate]
  · simp only [msg]; exact List.take_left' h

theorem wit_RouteSet_other : ∃ (d : Dev) (m : Msg), FromNeighbour d 2 m 0x12 ∧ d.groupPort 2 = true ∧ m.body.length = 37460 ∧ m.body.take 16 ≠ ownSerial ∧
    d.lnk.census.via.find? (fun v => v.1 == m.body.take 16) = some (m.body.take 16, 4) := by
  have pick : ∃ b : Bytes, b.length = 16 ∧ b ≠ ownSerial := by
    by_cases h : List.replicate 16 (0 : Byte) = ownSerial
    · exact ⟨List.replicate 16 1, rfl, fun e => absurd (h.trans e.symm) (by decide)⟩
    · exact ⟨_, rfl, h⟩
  obtain ⟨b, hb, hne⟩ := pick
  have ht : (b ++ List.replicate 37444 (0 : Byte)).take 16 = b := List.take_left' hb
  refine ⟨(bridge 1).modCensus (fun c => { c with via := [(b, 4)] }), msg 6 0x12 (b ++ List.replicate 37444 0), ?_, ?_, ?_, ?_, ?_⟩
  · exact ⟨show (bridge 1).portUp 2 = true by decide +kernel, show ((bridge 1).port 2).peerHost = false by decide +kernel,
      show (bridge 1).isHostPort 2 = false by decide +kernel, rfl, rfl⟩
  · show (bridge 1).groupPort 2 = true
    decide +kernel
  · simp only [msg, List.length_append, hb, List.length_replicate]
  · simp only [msg, ht]; exact hne
  · simp only [msg, ht]
    show List.find? (fun v : Bytes × Nat => v.1 == b) [(b, 4)] = some (b, 4)
    simp

theorem wit_Announce : FromNeighbour (bridge 1) 2 (msg 6 0x13 (List.replicate 20 1)) 0x13 ∧ (msg 6 0x13 (List.replicate 20 1)).body.length = 20 ∧
    (bridge 1).dget (O.PORT_ROLE 2) = 0 ∧
    (let d := sets (bridge 1) [(O.PORT_ROLE 2, 1), (O.DEVICE_ID, 0x101)]
     d.dget (O.PORT_ROLE 2) = 1 ∧ d.ownId.map idGroup = some (idGroup (leAt (msg 6 0x13 (List.replicate 20 1)).body 0 2 % 2 ^ 15))) := by unfold FromNeighbour; decide +kernel

theorem test_announce : ((after (.announce 2 (msg 6 0x13 (leBytes 2 9 ++ leBytes 2 5 ++ List.replicate 16 1))) (bridge 1)).lnk.census.anns.head?).map
    (fun a => (a.1, a.2.1, a.2.2.1)) = some (2, 9, 5) := by decide +kernel

theorem wit_Mwave_newer : FromNeighbour (bridge 2) 2 (mwaveMsg 7 5) 0x14 ∧ (mwaveMsg 7 5).body.length = 4 ∧ newerThan 5 (bridge 2).lnk.census.mgen = true ∧
    (bridge 2).isBridge = false := by unfold FromNeighbour; decide +kernel

theorem wit_Mwave_lower : let d := (bridged 2).modCensus (fun c => { c with mgen := some 5, mroot := 3 })
    FromNeighbour d 2 (mwaveMsg 2 5) 0x14 ∧ d.lnk.census.mgen = some 5 ∧ 2 < d.lnk.census.mroot := by unfold FromNeighbour; decide +kernel

theorem wit_Mwave_same : let d := (bridge 2).modCensus (fun c => { c with mgen := some 5, mroot := 3 })
    FromNeighbour d 2 (mwaveMsg 3 5) 0x14 ∧ d.lnk.census.mgen = some 5 ∧ 3 = d.lnk.census.mroot := by unfold FromNeighbour; decide +kernel

/-- A bridge of group 3 that has its census, and a wave of group 7. -/
theorem wit_Mwave_answered_by_its_own : newerThan 5 (bridged 2).lnk.census.mgen = true ∧ (bridged 2).isBridge = true ∧ (bridged 2).groupNo < 7 ∧
    (bridged 2).dget O.CENSUS_STATE = 2 := by decide +kernel

theorem wit_Mwave_older : let d := (bridge 2).modCensus (fun c => { c with mgen := some 5, mroot := 3 })
    newerThan 5 d.lnk.census.mgen = false ∧ d.lnk.census.mroot < 7 := by decide +kernel

theorem test_mwave_joins : let d := after (.mwave 2 (mwaveMsg 7 5)) (bridge 2)
    d.lnk.census.mgen = some 5 ∧ d.lnk.census.mroot = 7 ∧ d.lnk.census.mparent = some 2 := by decide +kernel

theorem wit_Mreply : let d := (bridge 2).modCensus (fun c => { c with mgen := some 5, mpend := [2, 4] })
    FromNeighbour d 2 (mreplyMsg 5) 0x15 ∧ (mreplyMsg 5).body.length = 6 + 8 * leAt (mreplyMsg 5).body 4 2 ∧ d.lnk.census.mgen = some (leAt (mreplyMsg 5).body 2 2) ∧
    d.lnk.census.mpend.contains 2 = true := by unfold FromNeighbour; decide +kernel

theorem test_mreply : let d := after (.mreply 2 (mreplyMsg 5)) ((bridge 2).modCensus (fun c => { c with mgen := some 5, mpend := [2, 4] }))
    d.lnk.census.mpend = [4] ∧ d.lnk.census.mkids = [2] := by decide +kernel

/-- MROUTES of generation 5 for group `g`. -/
def mroutesMsg (g : Nat) : Msg := msg 6 0x16 (leBytes 4 (at' 0 9 g + at' 16 16 5) ++ List.replicate 512 0xFF)

theorem wit_Mroutes_own : let d := (bridged 2).modCensus (fun c => { c with mgen := some 5 })
    FromNeighbour d 2 (mroutesMsg 3) 0x16 ∧ (mroutesMsg 3).body.length = 516 ∧ d.lnk.census.mgen = some (leAt (mroutesMsg 3).body 2 2) ∧ d.isBridge = true ∧
    d.groupNo = fld (leAt (mroutesMsg 3).body 0 4) 0 9 := by unfold FromNeighbour; decide +kernel

theorem wit_Mroutes_other : let d := (bridge 2).modCensus (fun c => { c with mgen := some 5, mkids := [4] })
    FromNeighbour d 2 (mroutesMsg 3) 0x16 ∧ d.lnk.census.mgen = some (leAt (mroutesMsg 3).body 2 2) ∧ d.isBridge = false := by unfold FromNeighbour; decide +kernel

theorem wit_FenceReq : (bridge 2).portUp 2 = true ∧ ((bridge 2).port 2).peerHost = false ∧ (bridge 2).isHostPort 2 = false ∧
    (msg 4 0x7F []).body = [] ∧ (msg 4 0x7F [0]).body ≠ [] := by decide +kernel

theorem test_fence_req : (after (.fenceReq 2 (msg 4 0x7F [])) (bridge 2)).dget (O.PORT_STATE 2) = 5 ∧
    (after (.fenceReq 2 (msg 4 0x7F [0])) (bridge 2)).dget (O.PROTOCOL_FAULTS 2) = 1 := by decide +kernel

theorem wit_FenceNote : let d := (bridge 2).dset O.DEVICE_ID 0x7FFF
    FromNeighbour d 2 (noteMsg 0x7FFF) 0x18 ∧ d.groupPort 2 = true ∧ (noteMsg 0x7FFF).body.length = 8 ∧ d.ownId = some 0x7FFF ∧ (bridge 2).ownId ≠ some 9 := by
  unfold FromNeighbour; decide +kernel

theorem test_fence_note : (after (.fenceNote 2 (noteMsg 9)) (bridge 2)).lnk.fencedIds = [9] ∧
    (after (.fenceNote 2 (noteMsg 9)) (bridge 2)).dget O.FENCES_SEEN = 1 := by decide +kernel

theorem wit_CensusFault : let d := (bridge 2).dset O.HOST_PORT 2
    d.portUp 2 = true ∧ d.isHostPort 2 = true ∧ (msg 6 0x10 []).body.length ≠ 20 ∧ (msg 6 0x10 []).vc = 6 ∧ (msg 6 0x10 []).hdr.kind = 0x10 := by decide +kernel

theorem test_census_message_of_a_wrong_layout : (after (.wave 2 (msg 6 0x10 [])) (bridge 2)).dget (O.PROTOCOL_FAULTS 2) = 1 ∧
    (after (.mroutes 2 (msg 6 0x16 [])) (bridge 2)).dget (O.PROTOCOL_FAULTS 2) = 1 ∧
    (after (.routeSet 2 (msg 6 0x12 [])) (bridge 2)).dget (O.PROTOCOL_FAULTS 2) = 1 := by decide +kernel

/-- Three nodes in a line, two ways from 1 to 2. -/
def line3 : Graph := [(0, [(0, 1)]), (1, [(0, 0), (5, 2), (4, 2)]), (2, [(1, 1)])]

theorem wit_Routes_graph : (line3.map (·.1)).Nodup ∧ 2 ∈ line3.map (·.1) ∧ line3.length < 1000000 := by decide

/-- Two hops from 0, one from 1; of ports 5 and 4 the lower (R369). -/
theorem test_shortest_paths : distOf (dists line3 2) 0 = 2 ∧ distOf (dists line3 2) 1 = 1 ∧ nextLabel line3 (dists line3 2) 1 = some 4 ∧
    nextLabel line3 (dists line3 2) 2 = none := by decide +kernel

theorem wit_Routes_install : ∃ b : Bytes, b.length = 37460 ∧ (base.modCensus (fun c => { c with gen := some 0 })).lnk.census.gen = some (leAt b 18 2) ∧
    (base.dset O.CENSUS_GEN 1).dget O.CENSUS_GEN ≠ leAt b 18 2 ∧ (base.dset O.CENSUS_STATE 2).dget O.CENSUS_GEN = leAt b 18 2 ∧
    (base.dset O.CENSUS_STATE 2).dget O.CENSUS_STATE = 2 := by
  have h : leAt (List.replicate 37460 (0 : Byte)) 18 2 = 0 := by
    rw [leAt, List.drop_replicate, List.take_replicate]; decide
  refine ⟨List.replicate 37460 0, List.length_replicate, ?_, ?_, ?_, ?_⟩ <;> (try rw [h]) <;> decide +kernel

/-! ### Images, attestation, unlock -/

/-- A header: magic, version 1, BODY_LEN 65,536, image version 7, SVN 64, floor 64, key 3, revoking key 0 (R485, R486). -/
def image0 : Bytes := leBytes 512 (at' 0 32 0x4F5A3237 + at' 32 32 1 + at' 64 32 65536 + at' 96 32 7 + at' 128 32 64 + at' 160 32 64 + at' 192 2 3 + at' 194 4 1)

/-- Powered, held in reset of the cores, the flash as given. -/
def unbooted (flash : Bytes) : Dev := { base with sec := { Sec.start with image := SMap.writeRun 0xFF [] 0 flash } }

/-- With a signature that verifies (the key's check is the standard's, log 4) every condition of R486 holds. -/
theorem wit_Image_valid (h : ∀ k g sig, Config.fwSigOk k g sig = true) (body : Bytes) : imageFault ⟨0, 64, 0⟩ image0 body = none := by
  unfold imageFault
  rw [if_neg (by decide +kernel), if_neg (by decide +kernel), if_neg (by decide +kernel), if_neg (by decide +kernel), if_neg (by decide +kernel),
    if_neg (by decide +kernel), if_pos (h _ _ _)]

/-- A floor of 65 is invalid, and so is an SVN below the fuses' (R486). -/
theorem test_image_faults : imageFault ⟨0, 0, 0⟩ (leBytes 512 (leAt image0 0 512 + 2 ^ 160 + 2 ^ 128)) [] = some 4 ∧ imageFault ⟨0, 65, 0⟩ image0 [] = some 6 ∧
    imageFault ⟨8, 0, 0⟩ image0 [] = some 5 := by decide +kernel

theorem wit_Boot_valid : Powered (unbooted image0) ∧ (unbooted image0).sec.running = false ∧ (unbooted image0).sec.recovery = false ∧
    0 = (unbooted image0).sec.bootCause ∧ flashImage (unbooted image0) 0 512 = image0 ∧ (unbooted image0).recd.early = [] := by
  unfold Powered; decide +kernel

theorem wit_Boot_invalid : Powered (unbooted []) ∧ imageFault ⟨0, 0, 0⟩ (flashImage (unbooted []) 0 512) [] = some 1 := by unfold Powered; decide +kernel

theorem test_boot_of_an_erased_flash : (after (.boot 0) (unbooted [])).sec.recovery = true ∧ (after (.boot 0) (unbooted [])).dget (O.PORT_STATE 15) = 1 := by decide +kernel

theorem wit_Boot_waits : base.sec.running = true ∧ (1 : Nat) ≠ (unbooted []).sec.bootCause := by decide

theorem wit_DeviceReady_waits : base.sec.ready = true := by decide

theorem wit_DeviceReady : ({ base with sec := { base.sec with ready := false } } : Dev).sec.running = true ∧ 5 ≤ base.pow.rails := by decide

theorem test_device_ready : let d := after (.deviceReady [] [] [] []) { base with sec := { base.sec with ready := false } }
    d.sec.ready = true ∧ d.dget (O.PORT_STATE 0) = 1 := by decide +kernel

/-- A request for `n` bytes from offset 0 by a module that needs SVN `svn`. -/
def imgReq (n svn : Nat) : Msg := msg 4 0x40 (leBytes 16 (at' 32 16 n + at' 64 32 svn))

theorem wit_ImageReq : FromMgmt (up base 2) 2 (imgReq 64 0) 0x40 ∧ (imgReq 65472 0).body.length = 16 ∧ 65472 % 64 = 0 ∧
    fld (leAt (imgReq 65472 0).body 0 16) 32 16 = 65472 := by unfold FromMgmt; decide +kernel

/-- The answer to a module that asks for more than the SVN here: KIND 0x41, no bytes, STATUS 2 (R488). -/
theorem test_image_req_svn : (((after (.imageReq 2 (imgReq 64 1)) (up base 2)).port 2).txq.head?).map (fun f => (f.bytes.take 1, (f.bytes.drop 22).take 1)) =
    some ([0x41], [2]) := by decide +kernel

/-- A length of no whole units, too long, and a request on a port that is down. -/
theorem wit_ImageReq_wrong : fld (leAt (imgReq 65 0).body 0 16) 32 16 % 64 ≠ 0 ∧ 65472 < fld (leAt (imgReq 65535 0).body 0 16) 32 16 ∧
    ¬FromMgmt base 2 (imgReq 64 0) 0x40 := by unfold FromMgmt; decide +kernel

/-- A fetch from port 2 under way. -/
def fetching (f : Fetch) : Dev := (up base 2).setSec (fun x => { x with fetch := some f })

def imgData (st n : Nat) (data : Bytes) : Msg := msg 4 0x41 (leBytes 16 (at' 32 16 n + at' 48 8 st) ++ data)

theorem wit_ImageData_none : FromMgmt (fetching ⟨true, 2, [], 0, none⟩) 2 (imgData 1 0 []) 0x41 ∧ (imgData 1 0 []).body.length = 16 + fld (leAt (imgData 1 0 []).body 0 16) 32 16 ∧
    fld (leAt (imgData 1 0 []).body 0 16) 0 32 = (nextPart ⟨true, 2, [], 0, none⟩).1 ∧ fld (leAt (imgData 1 0 []).body 0 16) 48 8 ≠ 0 := by
  unfold FromMgmt; decide +kernel

theorem wit_ImageData_other : FromMgmt (up base 2) 2 (imgData 1 0 []) 0x41 ∧ (up base 2).sec.fetch = none ∧
    (⟨true, 3, [], 0, none⟩ : Fetch).port ≠ 2 ∧ (imgData 0 64 []).body.length ≠ 16 + fld (leAt (imgData 0 64 []).body 0 16) 32 16 := by
  unfold FromMgmt; decide +kernel

theorem wit_ImageData_header : let m := imgData 0 512 image0
    FromMgmt (fetching ⟨true, 2, [], 0, none⟩) 2 m 0x41 ∧ m.body.length = 16 + fld (leAt m.body 0 16) 32 16 ∧ fld (leAt m.body 0 16) 48 8 = 0 ∧
    fld (leAt m.body 0 16) 32 16 = (nextPart ⟨true, 2, [], 0, none⟩).2 ∧ 65536 ≤ fld (leAt (m.body.drop 16) 0 512) 64 32 ∧
    fld (leAt (m.body.drop 16) 0 512) 64 32 ≤ 16776704 := by unfold FromMgmt; decide +kernel

/-- The last 64 bytes of a whole image. -/
theorem wit_ImageData_last : let f : Fetch := ⟨true, 2, [], 65984, some 66048⟩
    let m := { imgData 0 64 (List.replicate 64 0) with body := leBytes 16 (at' 0 32 65984 + at' 32 16 64) ++ List.replicate 64 0 }
    FromMgmt (fetching f) 2 m 0x41 ∧ m.body.length = 16 + fld (leAt m.body 0 16) 32 16 ∧ fld (leAt m.body 0 16) 0 32 = (nextPart f).1 ∧
    fld (leAt m.body 0 16) 48 8 = 0 ∧ fld (leAt m.body 0 16) 32 16 = (nextPart f).2 := by unfold FromMgmt; decide +kernel

theorem test_image_data_header : (after (.imageData 2 (imgData 0 512 image0)) (fetching ⟨true, 2, [], 0, none⟩)).sec.fetch = some ⟨true, 2, [], 512, some 66048⟩ := by
  decide +kernel

theorem wit_Fetch_and_update : (fetching ⟨true, 2, [], 0, none⟩).sec.fetch = some ⟨true, 2, [], 0, none⟩ ∧
    (let d := base.setSec (fun x => { x with recovery := true, retryWait := true }); d.sec.recovery = true ∧ d.sec.retryWait = true) ∧
    (∀ j, j < 64 → base.dget (O.JOB_STATE j) = 0) ∧ base.dget O.FW_UPDATE_STATE = 0 ∧ base.sec.unlocking = false ∧
    (base.dset O.FW_UPDATE_STATE 4).dget O.FW_UPDATE_STATE = 4 ∧ ((up base 15).dset O.FW_UPDATE_SOURCE 15).portUp (((up base 15).dset O.FW_UPDATE_SOURCE 15).dget O.FW_UPDATE_SOURCE) = true ∧
    base.portUp (base.dget O.FW_UPDATE_SOURCE) = false := by decide +kernel

theorem wit_Fetch_and_update_refused : base.sec.fetch = none ∧ base.sec.recovery = false ∧ (jobOn base 0).dget (O.JOB_STATE 0) ≠ 0 ∧
    (base.dset O.FW_UPDATE_STATE 3).dget O.FW_UPDATE_STATE = 3 ∧ (⟨false, 2, [3], 0, none⟩ : Fetch).update = false := by decide +kernel

theorem wit_LullNote_wrong : FromMgmt (up base 2) 2 (msg 4 0x50 [2]) 0x50 ∧ ¬(leAt (msg 4 0x50 [2]).body 0 1 ≤ 1) := by unfold FromMgmt; decide +kernel

theorem wit_LullNote : FromMgmt (up base 2) 2 (msg 4 0x50 [1]) 0x50 ∧ leAt (msg 4 0x50 [1]).body 0 1 ≤ 1 := by unfold FromMgmt; decide +kernel

theorem test_fetch_timeout_and_update : (after .imageFetchTimeout (fetching ⟨true, 2, [], 0, none⟩)).dget O.FW_UPDATE_STATE = 4 ∧
    (after .fwUpdateCmd base).dget O.FW_UPDATE_STATE = 4 ∧ ((after .fwUpdateCmd ((up base 15).dset O.FW_UPDATE_SOURCE 15)).sec.fetch).map (·.port) = some 15 := by decide +kernel

theorem test_lull_note : ((after (.lullNote 2 (msg 4 0x50 [0])) (up base 2)).port 2).peerLull = true ∧ ((after (.lullNote 2 (msg 4 0x50 [1])) (up base 2)).port 2).peerLull = false := by
  decide +kernel

theorem test_recovery_retry : let d := after .recoveryRetry ((up base 2).setSec (fun x => { x with recovery := true, retryWait := true, running := false }))
    d.sec.retryWait = false ∧ d.sec.fetch.map (·.port) = some 2 := by decide +kernel

theorem wit_AttestNonce : (List.replicate 32 (7 : Byte)).length = 32 ∧ base.dget O.ATTEST_STATE = 0 ∧ (base.dset O.ATTEST_STATE 2).dget O.ATTEST_STATE = 2 ∧
    base.sec.identity = true ∧ base.sec.unlocking = false := by decide +kernel

theorem wit_Attest_refused : (base.dset O.ATTEST_STATE 1).dget O.ATTEST_STATE = 1 ∧ base.dget O.ATTEST_STATE ≠ 1 ∧ ([] : Bytes).length ≠ 32 ∧
    base.sec.unlocking = false := by decide +kernel

theorem wit_AttestSignDone : (base.dset O.ATTEST_STATE 1).dget O.ATTEST_STATE = 1 := by decide +kernel

theorem test_attest_nonce : (after (.attestNonce (List.replicate 32 7)) base).dget O.ATTEST_STATE = 1 ∧
    (after (.attestNonce (List.replicate 32 7)) (base.dset O.ATTEST_STATE 3)).dget O.ATTEST_STATE = 3 := by decide +kernel

/-- A token without format: refused by none of R494's states, faulty at its first check. -/
theorem wit_UnlockToken_faulty : tokenRefused (at_ base) = false ∧ tokenFault base [] ≠ 0 := by decide +kernel

theorem wit_UnlockToken_refused : tokenRefused { at_ base with otp := ⟨0, 0, 255⟩ } = true := by decide +kernel

/-- With a signature that verifies (log 4), a token for this unit and challenge holds. -/
theorem wit_UnlockToken_holds (h : ∀ a b, Config.debugSigOk a b = true) :
    let t := leBytes 2 1 ++ ownSerial ++ List.replicate 32 9 ++ List.replicate 110 0
    let d := base.setSec (fun x => { x with challenge := some (List.replicate 32 9) })
    tokenFault d t = 0 ∧ tokenRefused (at_ d) = false := by
  intro t d
  have hs : ownSerial.length = 16 := by simp [ownSerial, fitBytes]; omega
  have e2 : t.drop 2 = ownSerial ++ (List.replicate 32 9 ++ List.replicate 110 0) := by
    show ((leBytes 2 1 ++ ownSerial ++ List.replicate 32 9 ++ List.replicate 110 0).drop 2) = _
    simp only [List.append_assoc]
    exact List.drop_left' (length_leBytes 2 1)
  have e18 : t.drop 18 = List.replicate 32 9 ++ List.replicate 110 0 := by
    rw [show (18 : Nat) = 2 + 16 from rfl, ← List.drop_drop, e2]; exact List.drop_left' hs
  have e50 : t.drop 50 = List.replicate 110 0 := by
    rw [show (50 : Nat) = 18 + 32 from rfl, ← List.drop_drop, e18]; exact List.drop_left' List.length_replicate
  have e0 : leAt t 0 2 = 1 := by
    show ofLe (((leBytes 2 1 ++ ownSerial ++ List.replicate 32 9 ++ List.replicate 110 0).drop 0).take 2) = 1
    rw [List.drop_zero]; simp only [List.append_assoc]
    rw [List.take_left' (length_leBytes 2 1)]; decide
  have el : t.length = 160 := by simp [t, hs, length_leBytes]
  refine ⟨?_, by decide +kernel⟩
  unfold tokenFault
  rw [if_neg, if_neg, if_neg, if_pos (h _ _)]
  · rw [e18, List.take_left' List.length_replicate]; simp [d, Dev.setSec]
  · rw [e2, List.take_left' hs]; simp
  · rw [leAt, leAt] at *
    rw [e0, e50, el]; decide

theorem test_unlock_token_without_format : (after (.unlockToken []) base).dget O.DEBUG_STATE = 3 := by decide +kernel

theorem wit_UnlockEraseDone : (base.setSec (fun x => { x with unlocking := true })).sec.unlocking = true := by decide

theorem test_unlock_erase_done : let d := base.setSec (fun x => { x with unlocking := true })
    (after (.unlockEraseDone true) d).sec.debugOpen = true ∧ (after (.unlockEraseDone true) d).dget O.DEBUG_STATE = 2 ∧
    (after (.unlockEraseDone false) d).dget O.DEBUG_STATE = 3 := by decide +kernel

theorem test_unlock_challenge : (after .unlockChallenge base).sec.challenge.isSome = true := by decide +kernel


/-! ### Chodal -/

/-- A packet: OP, TXN, flags, items. -/
def ck (op txn flags : Nat) (its : List CkItem) : Bytes :=
  leBytes 8 (at' 0 8 1 + at' 8 8 op + at' 16 16 txn + at' 32 16 its.length + at' 56 8 flags) ++
    its.flatMap (fun it => ckItem it.index it.sub it.ty 0 it.value)

def it0 (i sub ty n v : Nat) : CkItem := ⟨i, sub, ty, leBytes n v⟩

/-- What the port has sent: its datagrams' bytes. -/
def sent (d : Dev) : List Bytes := d.mgmt.t1sOut.map (·.bytes)

/-- Items at their fields' ends: INDEX 65,535, SUB 255, TYPE 255, one value byte, and one with none. -/
theorem wit_ItemsReadBack : ([⟨65535, 255, 255, [1]⟩, ⟨0, 0, 0, []⟩] : List CkItem).length = [255, 0].length ∧
    (∀ it ∈ ([⟨65535, 255, 255, [1]⟩, ⟨0, 0, 0, []⟩] : List CkItem), it.index < 65536 ∧ it.sub < 256 ∧ it.ty < 256 ∧ it.value.length < 65536) ∧
    (∀ st ∈ [255, 0], st < 256) ∧ ckItem 65535 255 255 255 [1] = [0xFF, 0xFF, 0xFF, 0xFF, 1, 0, 0xFF, 0, 1, 0, 0, 0] := by decide

/-- The longest value a LEN field can say. -/
theorem wit_ItemsReadBack_longest : ∃ it : CkItem, it.value.length = 65535 ∧ it.value.length < 65536 :=
  ⟨⟨0, 0, 0, List.replicate 65535 0⟩, List.length_replicate, by rw [List.length_replicate]; decide⟩

theorem wit_FreshPacket_get : FreshPacket (at_ base) (.t1s 0 0) (ck 1 7 0 [it0 0x1000 3 0 0 0]) 1 [it0 0x1000 3 0 0 0] ∧
    mayRead (counted (at_ base)).dev (.t1s 0 0) = true := by unfold FreshPacket; decide +kernel

theorem wit_FreshPacket_part : FreshPacket (at_ base) (.t1s 0 0) (ck 3 7 0 [it0 0x1000 3 8 8 0]) 3 [it0 0x1000 3 8 8 0] := by
  unfold FreshPacket; decide +kernel

theorem wit_FreshPacket_list : FreshPacket (at_ base) (.t1s 0 0) (ck 4 7 0 [it0 0x9000 0 0 0 0]) 4 [it0 0x9000 0 0 0 0] := by
  unfold FreshPacket; decide +kernel

/-- An in-band host of another group, outside the default scope of reads. -/
theorem wit_FreshPacket_denied_read : let src : ChodalSrc := .inband 0 { hdr0 with src := 0x1000, srcHost := true }
    FreshPacket (at_ (base.dset O.MGMT_INBAND_READ 0)) src (ck 1 7 0 []) 1 [] ∧
    mayRead (counted (at_ (base.dset O.MGMT_INBAND_READ 0))).dev src = false := by unfold FreshPacket; decide +kernel

/-- GROUP_NUMBER, persisted: 0x1001 sub 3, U16. -/
theorem wit_FreshPacket_set : FreshPacket (at_ base) (.t1s 0 0) (ck 2 7 0 [it0 0x1001 3 2 2 5]) 2 [it0 0x1001 3 2 2 5] ∧
    mayWrite (counted (at_ base)).dev (.t1s 0 0) = true ∧ mustWait (counted (at_ base)).dev [it0 0x1001 3 2 2 5] = false := by
  unfold FreshPacket; decide +kernel

/-- The flash's older copy under erase. -/
def erasing : Dev := { base with mgmt := { base.mgmt with erasing := true } }

theorem wit_FreshPacket_waits : FreshPacket (at_ erasing) (.t1s 0 0) (ck 2 7 0 [it0 0x1001 3 2 2 5]) 2 [it0 0x1001 3 2 2 5] ∧
    mayWrite (counted (at_ erasing)).dev (.t1s 0 0) = true ∧ mustWait (counted (at_ erasing)).dev [it0 0x1001 3 2 2 5] = true := by
  unfold FreshPacket; decide +kernel

theorem wit_FreshPacket_denied : let d := base.dset (O.MGMT_PEERS 0) 9
    FreshPacket (at_ d) (.t1s 1 0) (ck 2 7 0 [it0 0x1001 3 2 2 5]) 2 [it0 0x1001 3 2 2 5] ∧ mayWrite (counted (at_ d)).dev (.t1s 1 0) = false := by
  unfold FreshPacket; decide +kernel

/-- What a SET persists, on flash that still takes it and on flash that is worn. -/
theorem wit_Stores : let r := setItems [it0 0x1001 3 2 2 5] (at_ base)
    ([it0 0x1001 3 2 2 5].zip r.1).any (fun p => itemRwp p.1 && p.2 == ckOk) = true ∧ r.1.any (· != ckOk) = false ∧ copyWorn base = false ∧
    copyWorn { base with mgmt := { base.mgmt with wornA := true, wornB := true } } = true ∧
    (let q := setItems [it0 0x8100 4 1 1 64] (at_ base); ([it0 0x8100 4 1 1 64].zip q.1).any (fun p => itemRwp p.1 && p.2 == ckOk) = false) := by
  decide +kernel

theorem wit_Atomic : (setItems [it0 0x1001 3 2 2 5, it0 0x1001 3 2 2 512] (at_ base)).1.any (· != ckOk) = true := by decide +kernel

/-- A reply 1 s less one tick old is still kept. -/
def repliedTo : Dev := { base with calendar := 32767, mgmt := { base.mgmt with cache := [(.t1s 0 0, 7, [1, 2], 0)] } }

theorem wit_Retransmission : cached (at_ repliedTo).dev (.t1s 0 0) (ck 2 7 0 []) = some [1, 2] ∧ repliedTo.sec.running = true ∧
    repliedTo.mgmt.waiting = [] ∧ (ck 2 7 0 []).length = 8 ∧ leAt (ck 2 7 0 []) 0 1 = 1 ∧ leAt (ck 2 7 0 []) 1 1 = 2 ∧
    ckItems (leAt (ck 2 7 0 []) 4 2) ((ck 2 7 0 []).drop 8) = some [] := by decide +kernel

/-- The same packet without a management core, behind one that waits, and a packet of another operation. -/
theorem wit_PacketOf : PacketOf (ck 2 7 0 []) 2 [] ∧ (at_ base).dev.sec.running = true ∧ ({ base with sec := Sec.start } : Dev).sec.running = false ∧
    (waitPacket (at_ erasing) (.t1s 0 0) (ck 2 7 0 [])).dev.mgmt.waiting ≠ [] ∧ ¬∃ its, PacketOf (ck 2 7 0 []) 1 its := by
  refine ⟨by unfold PacketOf; decide +kernel, by decide, by decide, by decide +kernel, ?_⟩
  rintro ⟨its, h⟩
  exact absurd h.2.2.2.1 (by decide +kernel)

/-- Sizes 1,025, 7, 8 and 1,024; VERSION 2; an item that overruns; OPs 0 and 5. -/
theorem wit_Malformed : 1024 < (List.replicate 1025 (1 : Byte)).length ∧ ([1, 1, 0, 0, 0, 0, 0] : Bytes).length < 8 ∧
    leAt (2#8 :: List.replicate 1023 0) 0 1 ≠ 1 ∧ ckItems (leAt [1, 1, 0, 0, 1, 0, 0, 0] 4 2) (([1, 1, 0, 0, 1, 0, 0, 0] : Bytes).drop 8) = none ∧
    (ckItems (leAt (ck 0 7 0 []) 4 2) ((ck 0 7 0 []).drop 8)).isSome = true ∧ leAt (ck 0 7 0 []) 1 1 = 0 ∧ 4 < leAt (ck 5 7 0 []) 1 1 ∧
    cached (at_ base).dev (.t1s 0 0) (ck 0 7 0 []) = none := by decide +kernel

theorem wit_PersistErase : erasing.mgmt.erasing = true ∧ erasing.mgmt.waiting = [] ∧
    (waitPacket (at_ erasing) (.t1s 0 0) (ck 2 7 0 [])).dev.mgmt.waiting = [(.t1s 0 0, ck 2 7 0 [])] := by decide +kernel

theorem length_linkLocal : linkLocal.length = 16 := by simp [linkLocal, length_leBytes]

theorem wit_NeighbourSolicitation : ∃ pkt : Bytes, (pkt.drop 8).take 16 = linkLocal ∧ base.sec.running = true :=
  ⟨List.replicate 8 0 ++ linkLocal, by
    rw [List.drop_left' (by simp)]; exact List.take_of_length_le (by rw [length_linkLocal]), rfl⟩

/-- 10.1.2.3, as the object holds it and as bytes 24 to 27 of the request. -/
theorem wit_Arp : (base.dset O.MGMT_IPV4 0x0A010203).dget O.MGMT_IPV4 ≠ 0 ∧ base.dget O.MGMT_IPV4 = 0 ∧
    (((List.replicate 24 (0 : Byte) ++ [10, 1, 2, 3]).drop 24).take 4 = (leBytes 4 ((base.dset O.MGMT_IPV4 0x0A010203).dget O.MGMT_IPV4)).reverse) := by
  decide +kernel

theorem wit_SettingsOutOfRange : (0x04 = 4 ∧ 64 < 65) ∧ (0x05 = 5 ∧ 3 ≠ 0 ∧ 3 < 4) ∧ (0x05 = 5 ∧ 21 ≠ 0 ∧ 20 < 21) ∧ (0x01 = 1 ∧ 1 < 2) ∧ (0x03 = 3 ∧ 1 < 2) ∧
    FreshPacket (at_ base) (.t1s 0 0) (ck 2 7 0 [⟨0x8100 + 63, 4, 1, leBytes 1 65⟩]) 2 [⟨0x8100 + 63, 4, 1, leBytes 1 65⟩] ∧
    mayWrite (counted (at_ base)).dev (.t1s 0 0) = true := by unfold FreshPacket; decide +kernel

/-- The ends of the range are taken: CLIP_THRESHOLD 64, AUDIT_SHIFT 0, 4 and 20. -/
theorem test_settings_in_range : (setItem (at_ base) (it0 0x8100 4 1 1 64)).1 = ckOk ∧ (setItem (at_ base) (it0 0x813F 5 1 1 4)).1 = ckOk ∧
    (setItem (at_ base) (it0 0x8100 5 1 1 20)).1 = ckOk ∧ (setItem (at_ base) (it0 0x8100 5 1 1 0)).1 = ckOk := by decide +kernel

/-- A byte, a BOOL at 1, an 8-byte value and a 4-byte one are accepted writes. -/
theorem wit_WritesReadBack :
    (objFind 0x8100 4).map (fun o => (decide (o.acc = 1 ∨ o.acc = 3), decide (o.ty ≠ 7 ∧ o.ty ≠ 8), decide (64 < 256 ^ tyBytes o.ty))) = some (true, true, true) ∧
    base.dget O.LULL_STATE = 0 ∧ (setItem (at_ base) ⟨0x8100, 4, 1, leBytes 1 64⟩).1 = ckOk ∧
    (objFind 0x4100 2).map (fun o => (decide (o.acc = 1 ∨ o.acc = 3), o.ty)) = some (true, 4) ∧
    (setItem (at_ base) ⟨0x4100, 2, 4, leBytes 8 572778774528⟩).1 = ckOk ∧
    (setItem (at_ base) ⟨0x4100, 2, 4, leBytes 8 572778774529⟩).1 = ckRange := by decide +kernel

/-- A read of PART_NUMBER: reply header, item header with TYPE 7 and LEN 7, the text, one byte of padding (R454). -/
theorem test_get : sent (after (.chodalGet (.t1s 5 6) (ck 1 7 0 [it0 0x1000 3 0 0 0])) base) =
    [[1, 1, 7, 0, 1, 0, 0, 1, 0, 0x10, 3, 7, 7, 0, 0, 0, 0x4F, 0x5A, 0x2D, 0x32, 0x37, 0x36, 0x30, 0]] := by decide +kernel

theorem test_get_of_no_object : sent (after (.chodalGet (.t1s 5 6) (ck 1 7 0 [it0 0x1FFF 3 0 0 0])) base) =
    [[1, 1, 7, 0, 1, 0, 0x21, 1, 0xFF, 0x1F, 3, 0, 0, 0, 0x21, 0]] := by decide +kernel

/-- Two bytes from offset 3 of PART_NUMBER, after its whole length. -/
theorem test_get_part : sent (after (.chodalGetPart (.t1s 5 6) (ck 3 7 0 [it0 0x1000 3 8 8 (3 + 2 * 2 ^ 32)])) base) =
    [[1, 3, 7, 0, 1, 0, 0, 1, 0, 0x10, 3, 7, 6, 0, 0, 0, 7, 0, 0, 0, 0x32, 0x37, 0, 0]] := by decide +kernel

/-- The descriptors of 0x1001 from sub-index 3 on begin with GROUP_NUMBER: 0x1001, 3 to 3, U16, RW persisted, name (R461). -/
theorem test_list : ((listIndex 0x1001 3).head?.map (·.take 20)) =
    some ([1, 0x10, 3, 3, 2, 3, 0, 0] ++ ascii "GROUP_NUMBER") := by decide +kernel

/-- Persisted: GROUP_NUMBER becomes 5, one copy is written, the reply says OK. -/
theorem test_set : let d := after (.chodalSet (.t1s 5 6) (ck 2 7 0 [it0 0x1001 3 2 2 5])) base
    d.dget O.GROUP_NUMBER = 5 ∧ d.dget O.PERSIST_WRITES = 1 ∧ sent d = [[1, 2, 7, 0, 1, 0, 0, 1, 1, 0x10, 3, 2, 0, 0, 0, 0]] := by decide +kernel

theorem test_set_atomic : let d := after (.chodalSet (.t1s 5 6) (ck 2 7 2 [it0 0x1001 3 2 2 5, it0 0x1001 3 2 2 512])) base
    d.dget O.GROUP_NUMBER = base.dget O.GROUP_NUMBER ∧
    sent d = [[1, 2, 7, 0, 2, 0, 0x27, 3, 1, 0x10, 3, 2, 0, 0, 0x27, 0, 1, 0x10, 3, 2, 0, 0, 0x10, 0]] := by decide +kernel

theorem test_malformed : let d := after (.malformedPacket (.t1s 5 6) [2, 1, 7, 0, 0, 0, 0, 0]) base
    sent d = [[1, 1, 7, 0, 0, 0, 0x10, 1]] ∧ d.dget O.PKTS_MALFORMED = 1 := by decide +kernel

theorem test_persist_erase_done : (after .persistEraseDone erasing).mgmt.erasing = false := by decide +kernel

theorem test_echo : (after (.echoRequest 9 [128, 0, 1, 2, 3, 4, 5, 6]) base).mgmt.t1sOut = [⟨2, 9, 0, [3, 4, 5, 6]⟩] := by decide +kernel

theorem test_plca : (after .plcaBeaconTimeout base).dget O.MGMT_PLCA_STATUS = 1 := by decide +kernel

theorem test_arp_for_another : (after (.arpRequest 9 (List.replicate 28 0)) (base.dset O.MGMT_IPV4 1)).mgmt.t1sOut = [] := by decide +kernel

/-! ### Job contexts -/

/-- One region holds no 13 active blocks: PART_RESULT 1 (R387). -/
def tooBig : Dev := sets base [(O.PART_BLOCKS 0, 13), (O.PART_REGIONS 0, 1)]

theorem wit_Form : base.dget (O.JOB_STATE 0) = 0 ∧ noForm base = false ∧ (∃ p, reqPart base 0 = .inl p) ∧
    (∀ q, q < 4 → base.dget (O.QUEUE_DEPTH 0 q) = 0) :=
  ⟨by decide +kernel, by decide +kernel, Sum.isLeft_iff.mp (by decide +kernel), by decide +kernel⟩

theorem wit_Form_refused : tooBig.dget (O.JOB_STATE 0) = 0 ∧ noForm tooBig = false ∧ reqPart tooBig 0 = .inr 1 := by decide +kernel

/-- A ring that finds no room: PART_RESULT 6. -/
theorem wit_Form_rings : let d := sets base [(O.QUEUE_DEPTH 0 0, 64)]
    (formRings 0 ((List.range 4).zip ((List.range 4).map (fun q => d.dget (O.QUEUE_DEPTH 0 q)))) d).isNone = true ∧
    (formRings 0 ((List.range 4).zip ((List.range 4).map (fun q => base.dget (O.QUEUE_DEPTH 0 q)))) base).isSome = true := by decide +kernel

theorem wit_Form_not_free : (jobOn base 0).dget (O.JOB_STATE 0) ≠ 0 ∧ 64 ≤ 64 ∧ 64 ≤ (64 : Nat) := by decide +kernel

theorem test_form : let d := after (.form 63) base
    d.dget (O.JOB_STATE 63) = 1 ∧ (d.job 63).places = [⟨some 0, 0, 0, 0⟩] := by decide +kernel

/-- Queue 0 of depth 64 takes two segments, each pinned once (R418). -/
theorem test_form_rings : let d := after (.form 0) (sets base [(O.QUEUE_DEPTH 0 0, 64), (O.SLOW_QUOTA 0, 2 ^ 30), (O.FAST_QUOTA 0, 2 ^ 30)])
    d.dget (O.JOB_STATE 0) = 1 ∧ d.dget (O.QUEUE_SEG 0 0) ≠ d.dget (O.COMPL_SEG 0 0) ∧
    (d.res (d.dget (O.QUEUE_SEG 0 0))).pin = 1 ∧ (d.res (d.dget (O.COMPL_SEG 0 0))).pin = 1 := by decide +kernel

/-- Job 0 in state `st`. -/
def inState (st : Nat) : Dev := (jobOn base 0).dset (O.JOB_STATE 0) st

theorem wit_JobStates : (inState 0).dget (O.JOB_STATE 0) = 0 ∧ (inState 1).dget (O.JOB_STATE 0) = 1 ∧
    (inState 2).dget (O.JOB_STATE 0) = 2 ∧ (inState 3).dget (O.JOB_STATE 0) = 3 ∧ (∃ p, reqPart (inState 1) 0 = .inl p) ∧
    reqPart (sets (inState 2) [(O.PART_BLOCKS 0, 13), (O.PART_REGIONS 0, 1)]) 0 = .inr 1 :=
  ⟨by decide +kernel, by decide +kernel, by decide +kernel, by decide +kernel, Sum.isLeft_iff.mp (by decide +kernel), by decide +kernel⟩

theorem test_suspend_resume : (after (.suspend 0) (inState 1)).dget (O.JOB_STATE 0) = 2 ∧
    (after (.resume 0) (inState 2)).dget (O.JOB_STATE 0) = 1 := by decide +kernel

/-- DESTROY with nothing to wait for ends in FREE. -/
theorem test_destroy : (after (.destroy 0) (inState 1)).dget (O.JOB_STATE 0) = 0 ∧ ((after (.destroy 0) (inState 1)).job 0).places = [] := by
  decide +kernel

/-- A REFORM whose new grants wait for flight 1, started. -/
def reforming : Dev := after (.reform 0) (sets (fly (jobOn base 0) { shared (fl [(0, 8, 1)]) with started := true }) [(O.SLOT_GRANT 0, 32)])

theorem wit_ReformTakeEffect_busy : ((jobOn base 0).job 0).reform = none ∧
    (∃ x ∈ reforming.sched.flights, x.job = 0 ∧ x.waiting = false ∧ x.done = none) ∧ (reforming.job 0).slots = 16 :=
  ⟨by decide +kernel, by decide +kernel, by decide +kernel⟩

/-- The same with no flight left. -/
def reformed : Dev := reforming.setSched (fun s => { s with flights := [] })

theorem wit_ReformTakeEffect : (∃ p, (reformed.job 0).reform = some p) ∧
    (∀ x ∈ reformed.sched.flights, x.job = 0 → x.waiting = true ∨ x.done ≠ none) :=
  ⟨Option.isSome_iff_exists.mp (by decide +kernel), by decide +kernel⟩

theorem test_reform : ((after (.reformTakeEffect 0) reformed).job 0).slots = 32 ∧ ((after (.reformTakeEffect 0) reformed).job 0).reform = none := by
  decide +kernel

theorem wit_BaselineWrite : 63 < 64 ∧ 15 < 16 ∧ 2 ^ 32 - 1 < 2 ^ 32 ∧
    (after (.baselineWrite 63 15 (2 ^ 32 - 1)) base).dget (O.BASELINE 63 15) = 2 ^ 32 - 1 := by decide +kernel

/-- Job 0 has its turn on block 0 in step 7, WEIGHT 3. -/
def tenanted : Dev := ((jobOn base 0).modJob 0 (fun x => { x with weight := 3 })).setTenant 0 (some (0, 7))

theorem wit_TenancySwitch : (jobOn base 0).tenant 0 = none ∧ tenanted.tenant 0 = some (0, 7) ∧ tenantBusy tenanted 0 (0, 7) = false ∧
    tenantBusy (fly tenanted (shared (fl [(0, 8, 1), (32, 32, 7)]))) 0 (0, 7) = true := by decide +kernel

/-- 100 cycles x 256 / 3, rounded down. -/
theorem test_tenancy_switch : (after (.tenancySwitch 0 100) tenanted).vtime 0 0 = 8533 ∧ (after (.tenancySwitch 0 100) tenanted).tenant 0 = none := by
  decide +kernel

/-! ### The recorder -/

/-- The recorder in state `st` with as many records waiting and held. -/
def recState (st queued held : Nat) : Dev := (base.dset O.RECORDER_STATE st).setRec { base.recd with
  queue := List.replicate queued default, holding := List.replicate held default, limit := 60 }

theorem wit_RecorderCommands : (recState 0 0 0).dget O.RECORDER_STATE = 0 ∧ (recState 1 0 0).dget O.RECORDER_STATE = 1 ∧
    (recState 1 0 0).recd.queue = [] ∧ (recState 1 0 0).recd.erasing = none ∧ (recState 1 1 0).recd.queue ≠ [] ∧
    (recState 2 0 0).dget O.RECORDER_STATE = 2 ∧ (recState 2 0 0).recd.limit < 61 ∧ 60 ≤ (recState 2 0 0).recd.limit := by decide +kernel

/-- In service since the last account. -/
def serving0 : Dev := (base.dset O.DOWN_NS 1).modAvail (fun a => { a with part := true })

theorem wit_HourlyUpdate : let d := after (.hourlyUpdate 3600 0 7200) serving0
    0 < d.dget O.SERVICE_S ∧ d.dget O.DOWN_NS ≤ d.dget O.SERVICE_S * 10 ^ 9 := by decide +kernel

/-- 1 ns in an hour is 3 x 10^-13, rounded down to 999,999,999 parts (R471). -/
theorem test_hourly_update : let d := after (.hourlyUpdate 3600 60 7201) serving0
    d.dget O.AVAILABILITY_PPB = 999999999 ∧ d.dget O.OP_HOURS = 2 ∧ d.opSecs = 1 ∧ d.dget O.DEGRADED_S = 60 := by decide +kernel

/-- A module that was never machine-ready counts no service time (R470). -/
theorem test_no_service_before_machine_ready : (after (.hourlyUpdate 3600 0 7200) (base.dset O.SERVICE_S 10)).dget O.SERVICE_S = 10 := by decide +kernel

/-- An outage that began in Lull is not down time (R470). -/
theorem test_planned_outage : (after (.outageEnd 0x0301 500 400 500 false) ((base.dset O.SERVICE_S 10).modAvail (fun a => { a with running := [(0x0301, false)] }))).dget O.DOWN_NS = 0 ∧
    (after (.outageEnd 0x0301 500 400 500 false) ((base.dset O.SERVICE_S 10).modAvail (fun a => { a with running := [(0x0301, true)] }))).dget O.DOWN_NS = 400 := by decide +kernel

theorem wit_OutageEnd : 0x0601 ∈ [0, 0x0102, 0x0501, 0x0502, 0x0509, 0x0601] ∧ 0x0301 ∉ [0, 0x0102, 0x0501, 0x0502, 0x0509, 0x0601] ∧
    0x0301 ≠ 0x0401 ∧ 100 ≤ 100 ∧ 100 < 101 := by decide

theorem test_outage_end : (after (.outageEnd 0x0601 500 0 0 false) base).dget O.DELAY_NS = 500 ∧
    (after (.outageEnd 0x0301 500 400 499 false) (base.dset O.SERVICE_S 10)).dget O.DOWN_NS = 400 ∧
    (after (.outageEnd 0x0301 500 400 499 false) (base.dset O.SERVICE_S 10)).dget O.BOUND_EXCEEDED = 1 := by decide +kernel

theorem test_freeze_and_thaw : (after .recorderFreeze (recState 0 0 0)).dget O.RECORDER_STATE = 1 ∧
    (after .freezeDrainDone (recState 1 0 0)).dget O.RECORDER_STATE = 2 ∧ (after .recorderThaw (recState 2 0 0)).dget O.RECORDER_STATE = 3 ∧
    (after (.freezeTimeout 61) (recState 2 0 0)).dget O.RECORDER_STATE = 3 := by decide +kernel

theorem test_alert_clear : (after .alertClear ((base.setRec { base.recd with alert := true }).dset O.ALERT_CAUSE 5)).dget O.ALERT_CAUSE = 0xFFFFFFFD := by
  decide +kernel

/-- An event of severity `sev`. -/
def ev (sev : Nat) : EventIn := ⟨0x0301, sev, 1, 0x12345, some (63, 7), [], false⟩

theorem wit_EventsReachTheFlash : 2 ^ 32 - 1 < 2 ^ 32 ∧ Dev.reset.sec.running = false ∧ base.sec.running = true ∧ (ev 4).severity < 8 ∧
    (recState 0 1023 0).dget O.RECORDER_STATE = 0 ∧ (recState 0 1023 0).recd.queue.length + (recState 0 1023 0).recd.behind.length < 1024 ∧
    1024 ≤ (recState 0 1024 0).recd.queue.length + (recState 0 1024 0).recd.behind.length ∧
    (recState 2 0 255).dget O.RECORDER_STATE = 2 ∧ (recState 2 0 255).recd.holding.length < 256 ∧ 256 ≤ (recState 2 0 256).recd.holding.length ∧
    (ev 4).code ≠ 0x0401 ∧ base.dget O.ALERT_SEVERITY ≤ (ev 4).severity ∧ (ev 0).severity < base.dget O.ALERT_SEVERITY := by decide +kernel

/-- What stands still: a sector under erase; a FROZEN recorder; THAWING with nothing held. -/
theorem wit_RecordProgram_else : recBlocked { base.recd with erasing := some 1, queue := [default], nextSeq := 8192 + 1024 } = true ∧
    (recState 2 1 0).dget O.RECORDER_STATE = 2 ∧ (recState 3 0 0).dget O.RECORDER_STATE = 3 ∧ recBlocked (recState 3 0 1).recd = false ∧
    (recState 3 0 1).recd.holding = [default] ∧ (recState 3 0 0).recd.holding = [] ∧ (recState 0 0 0).recd.queue = [] ∧
    (recState 3 0 1023).recd.queue.length + (recState 3 0 1023).recd.behind.length < 1024 := by decide +kernel

theorem test_event_accept : (after (.eventAccept (ev 4)) base).recd.alert = true ∧ (after (.eventAccept (ev 0)) base).recd.alert = false ∧
    ((after (.eventAccept (ev 0)) base).recd.queue.map (·.ev)) = [ev 0] := by decide +kernel

theorem test_event_in_a_full_freeze : (after (.eventAccept (ev 0)) (recState 2 0 256)).dget O.FREEZE_OVERFLOW = 1 := by decide +kernel

/-- One record waits and its SEQ is the first of the ring: slot 8,192 (R472). -/
def toProgram : Dev := base.setRec { base.recd with queue := [default], nextSeq := 8192 }

theorem wit_RecordProgram : toProgram.dget O.RECORDER_STATE = 0 ∧ toProgram.recd.queue = [default] ∧ recBlocked toProgram.recd = false ∧
    (default : Rec).ev.severity < 8 ∧ 8192 ≤ toProgram.recd.nextSeq ∧ (toProgram.recd.nextSeq - 8192) % 1024 = 0 := by decide +kernel

/-- Entering ring sector 0 starts the erase of sector 1. -/
theorem test_record_program : let d := after .recordProgram toProgram
    d.dget O.NEWEST_SEQ = 8192 ∧ d.recd.erasing = some 1 ∧ d.recd.queue = [] := by decide +kernel

theorem test_ring_sector_erase_done : (after .ringSectorEraseDone (base.setRec { base.recd with erasing := some 1 })).recd.erasing = none := by
  decide +kernel

/-! ### Power -/

theorem wit_PowerCommands : Dev.reset.pow.pwrOk = false ∧ base.pow.pwrOk = true ∧ base.pow.latched = false ∧ base.pow.rstN = true ∧
    (base.setPow (fun p => { p with rstN := false })).pow.rstN = false ∧ base.sec.running = true ∧ base.pow.hold = false ∧
    (base.setPow (fun p => { p with hold := true })).pow.hold = true ∧ base.dget O.POWER_CAP_W < 2701 ∧ 1000 ≤ base.dget O.POWER_CAP_W := by
  decide +kernel

theorem wit_PowerFaults : (∃ k, 1 ≤ k ∧ k ≤ 5 ∧ Instr.railFault 5 = .railFault k) ∧ (∃ o mv, Instr.inputFault true 60001 = .inputFault o mv) ∧
    (∃ n t, n < 25 ∧ 1100 ≤ t ∧ Instr.thermalTrip 24 1100 = .thermalTrip n t) :=
  ⟨⟨5, by decide, by decide, rfl⟩, ⟨_, _, rfl⟩, ⟨24, 1100, by decide, by decide, rfl⟩⟩

/-- What leaves the power commands without effect. -/
theorem wit_PowerCommands_else : Dev.reset.pow.latched = false ∧ (true = base.pow.rstN) ∧ ¬(5 < 5) ∧ 25 ≤ 25 ∧ (1099 : Int) < 1100 ∧ (949 : Int) < 950 ∧
    (base.setPow (fun p => { p with latched := true })).pow.latched = true ∧ lullRefused (base.setPow (fun p => { p with wakeN := false })) = true := by
  decide +kernel

/-- An input sample in the low band after one there, and one with an excursion. -/
theorem wit_InputSample : let d := base.setPow (fun p => { p with inLow := true })
    d.pow.pwrOk = true ∧ d.sec.running = true ∧ decide (42000 ≤ 43999 ∧ 43999 < 44000) = true ∧ d.pow.inLow = true ∧
    decide (58000 < 43999 ∧ 43999 ≤ 60000) = false := by decide +kernel

theorem wit_Lull : lullRefused base = false ∧ lullRefused (jobOn base 0) = true ∧ base.dget O.LULL_STATE = 0 ∧
    (∀ p, p < 16 → base.portUp p = false) := by decide +kernel

/-- In Lull, entered from here, with the timer at 5 and the calendar there. -/
def lulled : Dev := { after .lullEnter base with calendar := 5 }.dset O.LULL_TIMER 5

theorem wit_Wake : lulled.dget O.LULL_STATE = 2 ∧ lulled.dget O.LULL_TIMER ≠ 0 ∧ lulled.dget O.LULL_TIMER ≤ lulled.calendar ∧
    lulled.pow.saved = some ⟨[], [], [], [], []⟩ ∧ base.dget O.LULL_STATE = 0 ∧ (lulled.dset O.LULL_TIMER 6).calendar < (lulled.dset O.LULL_TIMER 6).dget O.LULL_TIMER := by
  decide +kernel

/-- SID 63 makes PLCA ID 64 (R366). -/
theorem test_power_up : let d := after (.pwrOkAssert 63) Dev.reset
    d.pow.rails = 5 ∧ d.dget O.MEMBER_SID = 63 ∧ d.dget O.MGMT_PLCA_ID = 64 ∧ d.dget O.POWER_CYCLES = 1 := by decide +kernel

theorem test_power_down : (after .pwrOkDeassert base).pow.rails = 0 ∧ (after .pwrOkDeassert { base with calendar := 5 }).calendar = 0 := by decide +kernel

theorem test_reset_pin : let d := after (.modRstN false) { base with calendar := 5 }
    d.calendar = 5 ∧ d.sec.running = false ∧ d.sec.bootCause = 1 := by decide +kernel

theorem test_rail_and_input_fault : (after (.railFault 3) base).pow.latched = true ∧ (after (.railFault 6) base).pow.latched = false ∧
    (after (.inputFault true 61000) base).pow.rails = 1 := by decide +kernel

/-- A trip while an unlock is at its step 5 leaves it failed, an update loading is FAILED (R491, R495, R500). -/
theorem test_trip_fails_what_ran : (after (.railFault 3) (base.setSec (fun x => { x with unlocking := true }))).dget O.DEBUG_STATE = 3 ∧
    (after (.railFault 3) (base.dset O.FW_UPDATE_STATE 1)).dget O.FW_UPDATE_STATE = 4 := by decide +kernel

/-- 43,999 mV lies in the low band, where no second event comes; 44,000 mV ends the entry (R500). -/
theorem test_input_sample : let d := base.setPow (fun p => { p with inLow := true })
    (after (.inputSample 43999 1000 none) d).recd.queue = [] ∧ (after (.inputSample 43999 1000 none) d).pow.inLow = true ∧
    (after (.inputSample 44000 1000 none) d).pow.inLow = false := by decide +kernel

theorem test_power_cap : (after (.powerCapAdjust (base.dget O.POWER_CAP_W + 1)) base).dget O.CAP_THROTTLE_NS = 1000000 ∧
    (after (.powerCapAdjust (base.dget O.POWER_CAP_W)) base).dget O.CAP_THROTTLE_NS = 0 := by decide +kernel

theorem test_thermal : (after (.thermalHold 24 950) base).pow.hold = true ∧ (after (.thermalHold 24 949) base).pow.hold = false ∧
    (after (.thermalTrip 0 1100) base).pow.rails = 1 ∧ (after (.thermalTrip 0 1099) base).pow.rails = 5 := by decide +kernel

theorem test_thermal_hold_end : (after (.thermalHoldEnd 7) (base.setPow (fun p => { p with hold := true }))).dget O.THERMAL_HOLD_NS = 7 := by
  decide +kernel

theorem test_lull_enter : (after .lullEnter (jobOn base 0)).dget O.LULL_STATE = 0 ∧ lulled.dget O.LULL_ENTRIES = 1 := by decide +kernel

/-- Each wakes with its cause: 2, 1, 3 and 4 (R507). -/
theorem test_wake_causes : ([Instr.lullCmdWake 9, .wakeN 9, .laneLightDetect 15 9, .lullTimer 9].map (fun c =>
    let d := after c lulled
    (d.dget O.LULL_STATE, (d.recd.queue.map (fun r => (r.ev.code, r.ev.detail.take 2))).getLast?))) =
    [(0, some (0x0A82, [2, 0])), (0, some (0x0A82, [1, 0])), (0, some (0x0A82, [3, 15])), (0, some (0x0A82, [4, 0]))] := by decide +kernel

/-! ### The queue -/

/-- The front command runs and leaves; on an empty queue the calendar ticks (log 12). -/
theorem test_step : (match step { at_ base with pending := [.wakeN 0, .alertClear] } with | .next t => t.pending | _ => []) = [.alertClear] ∧
    (match step (at_ base) with | .next t => t.dev.calendar | _ => 0) = 1 := by decide +kernel

end Sys2Proof.Tests
end

section
/-! SUPPORT. Bit fields of numbers: what a bit and a field read as after a field is written. -/

namespace Sys2Proof.Machine

theorem bit_eq_testBit (w i : Nat) : bit w i = w.testBit i := by
  rw [bit, beq_eq_decide, Nat.testBit_eq_decide_div_mod_eq]

theorem testBit_fld (w lo n i : Nat) : (fld w lo n).testBit i = (decide (i < n) && w.testBit (lo + i)) := by
  rw [fld, Nat.testBit_mod_two_pow, Nat.testBit_div_two_pow, Nat.add_comm i lo]

/-- A number is what lies above a field, the field, and what lies below it. -/
theorem setFld_eq (w lo n v : Nat) : setFld w lo n v = 2 ^ lo * (2 ^ n * (w / 2 ^ lo / 2 ^ n) + v % 2 ^ n) + w % 2 ^ lo := by
  have hlow := Nat.div_add_mod w (2 ^ lo)
  have hfld := Nat.div_add_mod (w / 2 ^ lo) (2 ^ n)
  have hw : w = 2 ^ lo * (2 ^ n * (w / 2 ^ lo / 2 ^ n)) + fld w lo n * 2 ^ lo + w % 2 ^ lo := by
    calc w = 2 ^ lo * (2 ^ n * (w / 2 ^ lo / 2 ^ n) + fld w lo n) + w % 2 ^ lo := by rw [fld, hfld, hlow]
      _ = _ := by ring
  calc setFld w lo n v = 2 ^ lo * (2 ^ n * (w / 2 ^ lo / 2 ^ n)) + w % 2 ^ lo + (v % 2 ^ n) * 2 ^ lo := by
        rw [setFld]; omega
    _ = _ := by ring

/-- A field written takes its bits from the value; every other bit stays. -/
theorem bit_setFld (w lo n v i : Nat) : bit (setFld w lo n v) i = if lo ≤ i ∧ i < lo + n then bit v (i - lo) else bit w i := by
  simp only [bit_eq_testBit, setFld_eq]
  rw [Nat.testBit_two_pow_mul_add _ (Nat.mod_lt _ (Nat.two_pow_pos lo)), Nat.testBit_mod_two_pow,
    Nat.testBit_two_pow_mul_add _ (Nat.mod_lt _ (Nat.two_pow_pos n)), Nat.testBit_mod_two_pow, Nat.testBit_div_two_pow,
    Nat.testBit_div_two_pow]
  by_cases hlo : i < lo
  · simp [hlo]
  · by_cases hn : i - lo < n
    · have h : lo ≤ i ∧ i < lo + n := by omega
      simp [hlo, hn, h]
    · have h : ¬ (lo ≤ i ∧ i < lo + n) := by omega
      have hi : i - lo - n + n + lo = i := by omega
      simp [hlo, hn, h, hi]

/-- Two numbers whose bits agree over a field have the same field. -/
theorem fld_congr {w v lo n : Nat} (h : ∀ i, lo ≤ i → i < lo + n → bit v i = bit w i) : fld v lo n = fld w lo n := by
  refine Nat.eq_of_testBit_eq fun i => ?_
  rw [testBit_fld, testBit_fld]
  by_cases hi : i < n
  · simp only [← bit_eq_testBit, h (lo + i) (by omega) (by omega)]
  · simp [hi]

theorem fld_setFld_self (w lo n v : Nat) : fld (setFld w lo n v) lo n = v % 2 ^ n := by
  rw [fld, setFld_eq, Nat.mul_add_div (Nat.two_pow_pos lo), Nat.div_eq_of_lt (Nat.mod_lt _ (Nat.two_pow_pos lo))]
  simp

theorem bit_setFld_one (w lo v i : Nat) : bit (setFld w lo 1 v) i = if i = lo then bit v 0 else bit w i := by
  rw [bit_setFld]
  by_cases h : i = lo
  · simp [h]
  · rw [if_neg h, if_neg (by omega)]

end Sys2Proof.Machine
end

section
/-! Faults of the SRAM and of a block (R21 to R25, R36, R41): what each command answers, case by case. -/

namespace Sys2Proof.Machine

/-! ### REGION_BLOCK_STATE after a retirement (R41) -/

theorem bit_retireWord_some (w p s i : Nat) : bit (retireWord w p (some s)) i =
    if 26 ≤ i ∧ i < 30 then true else if i = s then true else if i = 13 + p then true else if i = p then false else bit w i := by
  have hspare (h : 26 ≤ i ∧ i < 26 + 4) : bit 15 (i - 26) = true := by
    obtain ⟨hlo, hhi⟩ := h
    interval_cases i <;> rfl
  simp only [retireWord]
  rw [bit_setFld]
  split
  · next h => exact hspare h
  · next h => rw [bit_setFld_one, bit_setFld_one, bit_setFld_one]; rfl

theorem bit_retireWord_none (w p i : Nat) (hi : ¬ (26 ≤ i ∧ i < 30)) :
    bit (retireWord w p none) i = if i = 13 + p then true else if i = p then false else bit w i := by
  simp only [retireWord]
  split
  · rw [bit_setFld, if_neg hi, bit_setFld_one, bit_setFld_one]; rfl
  · rw [bit_setFld_one, bit_setFld_one]; rfl

theorem spare_retireWord_some (w p s : Nat) : fld (retireWord w p (some s)) 26 4 = 15 := by
  rw [retireWord, fld_setFld_self]; rfl

theorem spare_retireWord_none (w p : Nat) (hp : p < 13) :
    fld (retireWord w p none) 26 4 = if fld w 26 4 = p then 15 else fld w 26 4 := by
  simp only [retireWord]
  split
  · rw [fld_setFld_self]; rfl
  · refine fld_congr fun i hlo hhi => ?_
    rw [bit_setFld_one, bit_setFld_one, if_neg (by omega), if_neg (by omega)]

/-! ### BLOCK_RETIRE (R22 to R25) -/

section
variable (d : Dev) (b cause : Nat)

/-- No block of the device, a retired one, or one that a region's or the device's fence covers. -/
def Dev.beyondRetirement : Prop :=
  156 ≤ b ∨ bit (d.dget (O.REGION_BLOCK_STATE (regionOf b))) (13 + physIdx b) = true ∨
    bit (d.dget (O.REGION_BLOCK_STATE (regionOf b))) 30 = true ∨ d.pow.deviceFenced = true

/-- The device with the work on block `b` discarded and its region's state rewritten for the spare that takes its slot. -/
def Dev.retired (spare : Option Nat) : Dev :=
  (discardBlocks d [b]).dset (O.REGION_BLOCK_STATE (regionOf b))
    (retireWord (d.dget (O.REGION_BLOCK_STATE (regionOf b))) (physIdx b) spare)

theorem retireBlock_beyond (h : d.beyondRetirement b) : retireBlock d b cause = d := if_pos h

theorem retireBlock_the_spare (h : ¬ d.beyondRetirement b) (hs : d.spareIndex (regionOf b) = physIdx b) :
    retireBlock d b cause =
      ((d.retired b none).bump O.BLOCK_OUTAGES).event 0x0201 3 1 b (leBytes 1 cause ++ [15] ++ pageDetail d b) :=
  (if_neg h).trans (if_pos hs)

theorem retireBlock_to_spare (h : ¬ d.beyondRetirement b) (hs : d.spareIndex (regionOf b) ≠ physIdx b)
    (h13 : d.spareIndex (regionOf b) < 13) :
    retireBlock d b cause =
      ((toSpare (d.retired b (some (d.spareIndex (regionOf b)))) b (13 * regionOf b + d.spareIndex (regionOf b))).bump
        O.BLOCK_OUTAGES).event 0x0201 3 1 b (leBytes 1 cause ++ leBytes 1 (d.spareIndex (regionOf b)) ++ pageDetail d b) :=
  (if_neg h).trans ((if_neg hs).trans (if_pos h13))

theorem retireBlock_without_spare (h : ¬ d.beyondRetirement b) (hs : d.spareIndex (regionOf b) ≠ physIdx b)
    (h13 : 13 ≤ d.spareIndex (regionOf b)) :
    retireBlock d b cause =
      ((replaceAll (d.retired b none) [b]).bump O.BLOCK_OUTAGES).event 0x0202 3 1 b (leBytes 1 cause ++ [0] ++ pageDetail d b) :=
  (if_neg h).trans ((if_neg hs).trans (if_neg (not_lt.2 h13)))

end

/-! ### UNCORRECTABLE_SRAM (R21, R22, R85) -/

section
variable (d : Dev) (b mem addr : Nat) (reader : Option Nat)

/-- The device once the reader of an uncorrectable datum, if any, has reported POISON. -/
def Dev.readerPoisoned : Dev := match reader with | some f => poisonReader d f | none => d

theorem sramError_first (hm : mem < 2) (hc : d.blk.failedOnce.contains (b, mem, addr) = false) :
    sramError d b mem addr (.uncorrectable reader) =
      (d.readerPoisoned reader).setBlk (fun k => { k with failedOnce := k.failedOnce ++ [(b, mem, addr)] }) := by
  have h : ¬ (mem < 2 ∧ d.blk.failedOnce.contains (b, mem, addr) = true) := fun h => Bool.false_ne_true (hc.symm.trans h.2)
  exact (if_neg h).trans (if_pos hm)

theorem sramError_again (hm : mem < 2) (hc : d.blk.failedOnce.contains (b, mem, addr) = true) :
    sramError d b mem addr (.uncorrectable reader) = retireBlock (d.readerPoisoned reader) b 2 :=
  if_pos ⟨hm, hc⟩

theorem sramError_other_memory (hm : 2 ≤ mem) : sramError d b mem addr (.uncorrectable reader) = d.readerPoisoned reader := by
  have h : ¬ (mem < 2 ∧ d.blk.failedOnce.contains (b, mem, addr) = true) := fun h => absurd h.1 (not_lt.2 hm)
  exact (if_neg h).trans (if_neg (not_lt.2 hm))

end

/-! ### The commands -/

theorem exec_blockRetire (b cause : Nat) (s : State) :
    exec (.blockRetire b cause) s = .next { s with dev := retireBlock s.dev b cause } := rfl

theorem exec_uncorrectableSram (b mem addr : Nat) (read : SramRead) (s : State) :
    exec (.uncorrectableSram b mem addr read) s = .next { s with dev := sramError s.dev b mem addr read } := rfl

/-- Settles O31: the equations of `sramError` and `retireBlock`, and the bits of `retireWord` (logs 63, 108, 131, 133). -/
theorem blockFaultsRetireTheBlock : Obligations.BlockFaultsRetireTheBlock := by
  unfold Obligations.BlockFaultsRetireTheBlock
  refine ⟨⟨fun s b mem addr => rfl, ?sram, ?retire⟩, ?word⟩
  case sram =>
    refine fun s b mem addr reader => ⟨fun hm hc => ?_, fun hm hc => ?_, fun hm => ?_⟩
    · rw [exec_uncorrectableSram, sramError_first _ _ _ _ _ hm hc]; rfl
    · rw [exec_uncorrectableSram, sramError_again _ _ _ _ _ hm hc]; rfl
    · rw [exec_uncorrectableSram, sramError_other_memory _ _ _ _ _ hm]; rfl
  case retire =>
    refine fun s b cause => ⟨fun h => ?_, fun hb hr hf hd => ?_⟩
    · rw [exec_blockRetire, retireBlock_beyond _ _ _ h]
    · have h : ¬ s.dev.beyondRetirement b := by simp [Dev.beyondRetirement, hr, hf, hd, hb]
      refine ⟨fun hsp h13 => ?_, fun hsp => ?_, fun h13 hsp => ?_⟩
      · rw [exec_blockRetire, retireBlock_to_spare _ _ _ h hsp h13]; rfl
      · rw [exec_blockRetire, retireBlock_the_spare _ _ _ h hsp]; rfl
      · rw [exec_blockRetire, retireBlock_without_spare _ _ _ h hsp h13]; rfl
  case word =>
    refine fun w p _ hp => ⟨fun s hs hsp => ?_, ?_⟩
    · refine ⟨?_, ?_, ?_, spare_retireWord_some w p s, fun i _ hip hi13 his hi => ?_⟩
      · rw [bit_retireWord_some, if_neg (by omega), if_neg (by omega), if_neg (by omega), if_pos rfl]
      · rw [bit_retireWord_some, if_neg (by omega), if_neg (by omega), if_pos rfl]
      · rw [bit_retireWord_some, if_neg (by omega), if_pos rfl]
      · rw [bit_retireWord_some, if_neg hi, if_neg his, if_neg hi13, if_neg hip]
    · refine ⟨?_, ?_, spare_retireWord_none w p hp, fun i _ hip hi13 hi => ?_⟩
      · rw [bit_retireWord_none _ _ _ (by omega), if_neg (by omega), if_pos rfl]
      · rw [bit_retireWord_none _ _ _ (by omega), if_pos rfl]
      · rw [bit_retireWord_none _ _ _ hi, if_neg hi13, if_neg hip]

end Sys2Proof.Machine
end

section
/-! A tile written into a sub-slot (R86, R92, R93, R100): its elements, its row words, and the entries it leaves alone. -/

namespace Sys2Proof.Machine

/-! ### The legal shapes (R86) -/

/-- Merged rows, or merged columns, fill the 64 of a slot. -/
def Shape.Fills (sh : Shape) : Prop :=
  0 < sh.x ∧ if sh.colMerge then sh.mt = 64 ∧ sh.x * sh.nt = 64 else sh.x * sh.mt = 64 ∧ sh.nt = 64

theorem shapeOf_fills {k : Nat} (h : shapeLegal k = true) : (shapeOf k).Fills := by
  have hk : k ≤ 9 := by simp [shapeLegal] at h; omega
  unfold Shape.Fills
  interval_cases k <;> decide

theorem subPos_fst (sh : Shape) (s m n : Nat) : (subPos sh s m n).1 = sh.row s m := by
  unfold subPos Shape.row; split <;> rfl

section
variable {sh : Shape} {s : Nat} (hf : sh.Fills) (hs : s < sh.x)
include hf hs

theorem Shape.Fills.row_lt {m : Nat} (hm : m < sh.mt) : sh.row s m < 64 := by
  obtain ⟨-, hf⟩ := hf
  unfold Shape.row
  split at hf
  · next h => rw [if_pos h]; omega
  · next h =>
    rw [if_neg h]
    have := Nat.mul_le_mul_left sh.x (Nat.succ_le_of_lt hm)
    rw [Nat.mul_succ] at this; omega

omit hs in
theorem Shape.Fills.row_inj {m m' : Nat} (h : sh.row s m = sh.row s m') : m = m' := by
  unfold Shape.row at h
  split at h
  · exact h
  · exact Nat.eq_of_mul_eq_mul_left hf.1 (Nat.add_right_cancel h)

theorem Shape.Fills.subPos_snd_lt {m n : Nat} (hn : n < sh.nt) : (subPos sh s m n).2 < 64 := by
  obtain ⟨-, hf⟩ := hf
  unfold subPos
  split at hf
  · next h =>
    rw [if_pos h]
    have := Nat.mul_le_mul_left sh.x (Nat.succ_le_of_lt hn)
    rw [Nat.mul_succ] at this; dsimp only; omega
  · next h => rw [if_neg h]; dsimp only; omega

omit hf in
/-- The logical column of element `n` holds element `n`. -/
theorem Shape.col_subPos (m n : Nat) : sh.col s (subPos sh s m n).2 = some n := by
  unfold Shape.col subPos
  split
  · have hx : 0 < sh.x := by omega
    simp [Nat.mod_eq_of_lt hs, Nat.mul_add_div hx, Nat.div_eq_of_lt hs]
  · rfl

omit hs in
/-- A logical column that holds an element of the sub-slot is that element's. -/
theorem Shape.Fills.subPos_of_col {c n : Nat} (hc : c < 64) (h : sh.col s c = some n) (m : Nat) :
    n < sh.nt ∧ subPos sh s m n = (sh.row s m, c) := by
  obtain ⟨hx, hf⟩ := hf
  unfold Shape.col at h
  unfold subPos Shape.row
  split at hf
  · next hcm =>
    rw [if_pos hcm] at h
    split at h
    · next hcs =>
      obtain rfl : c / sh.x = n := by simpa using h
      refine ⟨(Nat.div_lt_iff_lt_mul hx).2 (by rw [Nat.mul_comm]; omega), ?_⟩
      rw [if_pos hcm, if_pos hcm, ← hcs, Nat.div_add_mod]
    · exact absurd h (by simp)
  · next hcm =>
    rw [if_neg hcm] at h
    obtain rfl : c = n := by simpa using h
    exact ⟨by omega, by rw [if_neg hcm, if_neg hcm]⟩

end

/-! ### Row words -/

theorem Dev.rowGet_rowPut_self (d : Dev) (b slot lane row : Nat) (w : RowWord) :
    (d.rowPut b slot lane row w).rowGet b slot lane row = RowWord.dec w.enc.toNat := by
  simp [Dev.rowGet, Dev.rowPut, Dev.setMem]

theorem Dev.rowGet_rowPut_ne (d : Dev) (b slot lane : Nat) {row row' : Nat} (w : RowWord) (h : row' ≠ row) :
    (d.rowPut b slot lane row w).rowGet b slot lane row' = d.rowGet b slot lane row' := by
  have hk : rowKey b slot lane row' ≠ rowKey b slot lane row := by unfold rowKey; omega
  simp [Dev.rowGet, Dev.rowPut, Dev.setMem, SMap.get_put_ne _ _ _ hk]

theorem Dev.subRowGet_subRowPut_self (d : Dev) (b : Nat) (sh : Shape) (slot s m : Nat) (w : RowWord) :
    (d.subRowPut b sh slot s m w).subRowGet b sh slot s m = RowWord.dec w.enc.toNat := d.rowGet_rowPut_self ..

theorem Dev.subRowGet_subRowPut_ne (d : Dev) (b : Nat) {sh : Shape} (hf : sh.Fills) (slot s : Nat) {m m' : Nat} (w : RowWord)
    (h : m' ≠ m) : (d.subRowPut b sh slot s m w).subRowGet b sh slot s m' = d.subRowGet b sh slot s m' := by
  have hlane : (subRow sh s m').1 = (subRow sh s m).1 := by unfold subRow; split <;> rfl
  have hrow : (subRow sh s m').2 ≠ (subRow sh s m).2 := by
    intro he
    refine h (hf.row_inj (s := s) ?_)
    unfold subRow at he; unfold Shape.row
    split at he
    · next hc => rw [if_pos hc, if_pos hc]; exact he
    · next hc => rw [if_neg hc, if_neg hc]; exact he
  rw [Dev.subRowGet, Dev.subRowPut, hlane]
  exact (d.rowGet_rowPut_ne b slot _ w hrow).trans (by rw [Dev.subRowGet, hlane])

/-- Row words written one after another each read back. -/
theorem Dev.subRowPuts_get (d : Dev) (b : Nat) {sh : Shape} (hf : sh.Fills) (slot s : Nat) (rows : Nat → RowWord) {m k : Nat}
    (hm : m < k) : (d.forEach (List.range k) (fun d m => d.subRowPut b sh slot s m (rows m))).subRowGet b sh slot s m =
      RowWord.dec (rows m).enc.toNat := by
  induction k with
  | zero => omega
  | succ k ih =>
    rw [List.range_succ, Dev.forEach, List.foldl_append, List.foldl_cons, List.foldl_nil]
    by_cases hk : m = k
    · rw [hk, Dev.subRowGet_subRowPut_self]
    · rw [Dev.subRowGet_subRowPut_ne _ b hf slot s _ hk]; exact ih (by omega)

/-! ### The accumulator entries of a tile -/

section
variable (d : Dev) (b : Nat) {sh : Shape} (wide : Bool) (slot : Nat) {s : Nat} (val : Nat → Nat → Int) (rows : Nat → RowWord)

/-- The row words lie apart from the accumulator entries. -/
theorem Dev.accGet_setRows (g : Mem → SMap (BitVec 32)) (b' slot' r c : Nat) :
    (d.setMem (fun m => { m with rows := g m })).accGet b' slot' r c = d.accGet b' slot' r c := rfl

theorem Dev.accGet_subRowPut (m : Nat) (w : RowWord) (b' slot' r c : Nat) :
    (d.subRowPut b sh slot s m w).accGet b' slot' r c = d.accGet b' slot' r c := d.accGet_setRows _ ..

theorem Dev.subCells_eq_subWriteRows :
    d.subCells b sh wide slot s (fun m n => toUns (if wide then 64 else 32) (val m n)) =
      d.forEach (List.range sh.mt) (fun d m => d.subWriteRow b sh wide slot s val m) := by
  unfold Dev.subCells Dev.subWriteRow Shape.row Shape.col
  cases wide
  · simp only [Bool.false_eq_true, if_false]
  · simp only [if_true]

/-- The entries of a tile are written row by row. -/
theorem Dev.subWrite_accGet_rows (b' slot' r c : Nat) :
    (d.subWrite b sh wide slot s val rows).accGet b' slot' r c =
      (d.forEach (List.range sh.mt) (fun d m => d.subWriteRow b sh wide slot s val m)).accGet b' slot' r c := by
  rw [Dev.subWrite, d.subCells_eq_subWriteRows]
  exact Dev.forEach_keeps (fun d => d.accGet b' slot' r c) (fun d m => d.subRowPut b sh slot s m (rows m))
    (fun d m => d.accGet_subRowPut ..) _ _

variable (hf : sh.Fills) (hs : s < sh.x) (hslot : slot + 1 < 128)
include hf hs hslot

/-- An entry of the tile holds the word of its element. -/
theorem Dev.subWrite_accGet_element {slot' m n : Nat} (hslot' : slot' < 128) (hm : m < sh.mt) (hn : n < sh.nt) :
    (d.subWrite b sh wide slot s val rows).accGet b slot' (subPos sh s m n).1 (subPos sh s m n).2 =
      (subWord wide slot slot' (val m n)).getD (d.accGet b slot' (subPos sh s m n).1 (subPos sh s m n).2) := by
  have hfind : (List.range sh.mt).find? (fun m' => sh.row s m' == sh.row s m) = some m := by
    rw [List.find?_range_eq_some]
    refine ⟨by simp, by simpa using hm, fun j hj => ?_⟩
    have hne : sh.row s j ≠ sh.row s m := fun h => absurd (hf.row_inj h) (by omega)
    simpa using hne
  rw [d.subWrite_accGet_rows, Dev.subWriteRows_get d b sh wide slot s val hslot hslot'
    (by rw [subPos_fst]; exact hf.row_lt hs hm) (hf.subPos_snd_lt hs hn) (fun _ _ => hf.row_inj) _ (fun _ => hf.row_lt hs),
    if_pos rfl, subPos_fst, hfind, Option.bind_some, Shape.col_subPos hs, Option.bind_some]

/-- Every other entry reads as before. -/
theorem Dev.subWrite_accGet_outside {b' slot' r c : Nat} (hslot' : slot' < 128) (hr : r < 64) (hc : c < 64)
    (h : b' ≠ b ∨ (slot' ≠ slot ∧ (wide = false ∨ slot' ≠ slot + 1)) ∨
      ∀ m n, m < sh.mt → n < sh.nt → subPos sh s m n ≠ (r, c)) :
    (d.subWrite b sh wide slot s val rows).accGet b' slot' r c = d.accGet b' slot' r c := by
  rw [d.subWrite_accGet_rows, Dev.subWriteRows_get d b sh wide slot s val hslot hslot' hr hc
    (fun _ _ => hf.row_inj) _ (fun _ => hf.row_lt hs)]
  split
  · next hb =>
    cases hrow : (List.range sh.mt).find? (fun m => sh.row s m == r) with
    | none => rfl
    | some m =>
      cases hcol : sh.col s c with
      | none => rfl
      | some n =>
        obtain ⟨hmr, hm, -⟩ := List.find?_range_eq_some.1 hrow
        obtain ⟨hn, hpos⟩ := hf.subPos_of_col hc hcol m
        rcases h with h | ⟨hlo, hhi⟩ | h
        · exact absurd hb h
        · have hhi' : ¬ (wide = true ∧ slot' = slot + 1) := by
            rintro ⟨rfl, he⟩; exact hhi.elim (by simp) (fun h => h he)
          simp [subWord, hlo, hhi']
        · exact absurd (hpos.trans (by rw [beq_iff_eq.1 hmr])) (h m n (by simpa using hm) hn)
  · rfl

end

/-! ### Values that fit the accumulator (R58) -/

theorem s32_toUns {v : Int} (h : -(2 ^ 31) ≤ v ∧ v < 2 ^ 31) : s32 (BitVec.ofNat 32 (toUns 32 v)) = v := by
  simp only [s32, toUns, BitVec.toInt_eq_toNat_cond, BitVec.toNat_ofNat]
  norm_num at h ⊢
  omega

theorem toSgn_halves {v : Int} (h : -(2 ^ 63) ≤ v ∧ v < 2 ^ 63) :
    toSgn 64 ((BitVec.ofNat 32 (toUns 64 v)).toNat + (BitVec.ofNat 32 (toUns 64 v / 2 ^ 32)).toNat * 2 ^ 32) = v := by
  simp only [toSgn, toUns, BitVec.toNat_ofNat]
  norm_num at h ⊢
  omega

/-- Settles O10, from what the entries and the row words of a tile read as after its write. -/
theorem accTileReadsBack : Obligations.AccTileReadsBack := by
  unfold Obligations.AccTileReadsBack
  intro d b k slot s wide val rows hk hs hslot hval
  have hf := shapeOf_fills hk
  refine ⟨fun m n hm hn => ?_, fun m hm => Dev.subRowPuts_get _ b hf slot s rows hm, fun b' slot' r c hs' hr hc h =>
    d.subWrite_accGet_outside b wide slot val rows hf hs hslot hs' hr hc h⟩
  have hv := hval m n
  have hword := fun slot' hs' => d.subWrite_accGet_element b wide slot val rows hf hs hslot (slot' := slot') hs' hm hn
  cases wide
  · simp only [Dev.subGet, hword slot (by omega), Bool.false_eq_true, if_false]
    simpa [subWord] using s32_toUns hv
  · simp only [Dev.subGet, hword slot (by omega), hword (slot + 1) hslot, if_true]
    simpa [subWord] using toSgn_halves hv

end Sys2Proof.Machine
end

section
/-! Region and device faults (R29 to R37, R279, R393): what each command answers, case by case. -/

namespace Sys2Proof.Machine

/-! ### REGION_FENCE (R29 to R31, R37) -/

section
variable (d : Dev) (r cause : Nat) (sound : Bool)

theorem fenceRegion_covered (h : 12 ≤ r ∨ d.pow.deviceFenced = true) : fenceRegion d r cause sound = d := if_pos h

theorem fenceRegion_again (hr : r < 12) (hd : d.pow.deviceFenced = false) (hf : d.regionFenced r = true) :
    fenceRegion d r cause sound = refence d r cause sound := by
  rw [fenceRegion, if_neg (by simp [hr, hd]), if_pos hf]

theorem refence_sound (h : stackSound cause sound = true) : refence d r cause sound = d := if_pos h

/-- Segments of a region's stack that still wait for their evacuation. -/
def Dev.evacuatingIn : List Nat :=
  d.store.evacuating.filter (fun e => (d.res e).tier == 0 && (d.res e).home == r)

theorem refence_unsound (h : stackSound cause sound = false) : refence d r cause sound =
    (d.forEach (d.evacuatingIn r) (fun d e => poisonSeg d e (d.res e).frame)).setStore (fun s =>
      { s with evacuating := s.evacuating.filter (fun e => !(d.evacuatingIn r).contains e) }) := by
  rw [refence, if_neg (by simp [h])]; rfl

/-- The device with every step that involves the region discarded and FENCED set. -/
def Dev.fenceMarked : Dev :=
  let d1 := discardBlocks (d.forEach (d.readersOf r) (fun d s => discardStep d s.1 s.2)) (rangeFrom (13 * r) 13)
  d1.dset (O.REGION_BLOCK_STATE r) (setFld (d1.dget (O.REGION_BLOCK_STATE r)) 30 1 1)

theorem Dev.fenceMarked_fenced : (d.fenceMarked r).regionFenced r = true := by
  rw [Dev.regionFenced, Dev.fenceMarked, Dev.dget_dset_self, bit_setFld_one, if_pos rfl]; rfl

theorem fenceRegion_first (hr : r < 12) (hd : d.pow.deviceFenced = false) (hf : d.regionFenced r = false) :
    fenceRegion d r cause sound =
      ((fenceStack (replaceAll (d.fenceMarked r) (rangeFrom (13 * r) 13)) r (stackSound cause sound)).bump O.REGION_OUTAGES).event
        0x0301 4 2 r (leBytes 1 cause ++ leBytes 1 (bool01 (stackSound cause sound))) := by
  rw [fenceRegion, if_neg (by simp [hr, hd]), if_neg (by simp [hf])]; rfl

end

theorem exec_regionFence (r cause : Nat) (sound : Bool) (s : State) :
    exec (.regionFence r cause sound) s = .next { s with dev := fenceRegion s.dev r cause sound } := rfl

/-! ### SEGMENT_EVACUATED (R31, R279) -/

section
variable (d : Dev) (e : Nat)

/-- The segment waits no longer for its evacuation. -/
def Dev.offEvacuation : Dev := d.setStore (fun s => { s with evacuating := s.evacuating.filter (· != e) })

theorem evacuate_idle (h : d.store.evacuating.contains e = false ∨ (d.res e).st = 0) : evacuate d e = d := by
  rw [evacuate, if_pos (by simpa using h)]

theorem evacuation_pending (hw : d.store.evacuating.contains e = true) (h0 : (d.res e).st ≠ 0) :
    ¬ ((!d.store.evacuating.contains e) = true ∨ (d.res e).st = 0) := by
  rw [hw]; simpa using h0

theorem evacuate_lost (hw : d.store.evacuating.contains e = true) (h3 : (d.res e).st = 3) : evacuate d e = d.offEvacuation e := by
  rw [evacuate, if_neg (evacuation_pending d e hw (by omega)), if_pos h3]; rfl

variable (hw : d.store.evacuating.contains e = true) (h0 : (d.res e).st ≠ 0) (h3 : (d.res e).st ≠ 3)
include hw h0 h3

theorem evacuate_moved {d' : Dev} {f : Nat} (ht : d.takeRun 12 (d.res e).frames ((d.res e).frames * 4096) = some (d', f)) :
    evacuate d e = (((d'.switchFrames e 12 f (d.res e).frames).setCharge 0 e (d.res e).owner 0).setCharge 1 e (d.res e).owner
      (d.res e).len).offEvacuation e := by
  rw [evacuate, if_neg (evacuation_pending d e hw h0), if_neg h3]
  simp only [ht]; rfl

theorem evacuate_poisoned (ht : d.takeRun 12 (d.res e).frames ((d.res e).frames * 4096) = none)
    (hn : d.freeBytes 12 < (d.res e).frames * 4096) :
    evacuate d e = (poisonSeg d e (d.res e).frame).offEvacuation e := by
  rw [evacuate, if_neg (evacuation_pending d e hw h0), if_neg h3]
  simp only [ht, if_pos hn]; rfl

theorem evacuate_waits (ht : d.takeRun 12 (d.res e).frames ((d.res e).frames * 4096) = none)
    (hn : (d.res e).frames * 4096 ≤ d.freeBytes 12) : evacuate d e = d := by
  rw [evacuate, if_neg (evacuation_pending d e hw h0), if_neg h3]
  simp only [ht, if_neg (not_lt.2 hn)]

end

theorem exec_segmentEvacuated (e : Nat) (s : State) :
    exec (.segmentEvacuated e) s = .next { s with dev := settle (evacuate s.dev e) } := rfl

/-! ### DEVICE_FENCE (R33 to R36) -/

section
variable (d : Dev) (cause : Nat)

/-- What the module held is given up: every descriptor without a status, the moves and the evacuations. -/
def Dev.workDropped : Dev := abandonLower (discardAll d ((d.sched.flights.filter (fun x => x.done.isNone)).map (·.id)))

/-- FENCE_REQ to every up module port. -/
def Dev.fenceAsked : Dev :=
  d.forEach d.upModulePorts (fun d p => d.sendOn p none ⟨4, ⟨0x7F, 0, 0, false, 0, false, 0, 0, 0⟩, []⟩)

/-- Every port that is up closes once its queues are sent. -/
def Dev.portsClosing : Dev :=
  d.forEach ((List.range 16).filter d.portUp) (fun d p => d.modPort p (fun q => { q with closing := true }))

/-- The module is not machine-ready. -/
def Dev.unready : Dev := d.setSec (fun x => { x with ready := false })

theorem deviceFence_idle (h : d.pow.deviceFenced = true ∨ d.pow.latched = true ∨ cause < 1 ∨ 4 < cause) :
    deviceFence d cause = d := if_pos h

variable (hf : d.pow.deviceFenced = false) (hl : d.pow.latched = false)
include hf hl

theorem deviceFence_linked (h1 : 1 ≤ cause) (h3 : cause < 3) :
    deviceFence d cause = ((fenceNoted d cause).fenceAsked.workDropped.portsClosing).unready := by
  rw [deviceFence, if_neg (by simp [hf, hl]; omega)]
  have h4 : cause ≠ 4 := by omega
  have h3' : cause ≠ 3 := by omega
  simp only [if_neg h4, if_neg h3']; rfl

theorem deviceFence_no_link : deviceFence d 3 = (disablePorts (fenceNoted d 3).workDropped).unready := by
  rw [deviceFence, if_neg (by simp [hf, hl])]; rfl

theorem deviceFence_rails : deviceFence d 4 =
    { railsDown (fenceNoted d 4) with pow := { (railsDown (fenceNoted d 4)).pow with latched := false } } := by
  rw [deviceFence, if_neg (by simp [hf, hl])]; rfl

end

theorem exec_deviceFence (cause : Nat) (s : State) :
    exec (.deviceFence cause) s = .next { s with dev := deviceFence s.dev cause } := rfl

/-- Settles O32: the equations of `fenceRegion`, `evacuate` and `deviceFence` (logs 108, 115, 137). -/
theorem regionFaultsFenceTheRegion : Obligations.RegionFaultsFenceTheRegion := by
  unfold Obligations.RegionFaultsFenceTheRegion
  refine ⟨⟨?covered, ?fence, fun s r => rfl, ?evacuate⟩, fun s => rfl, ?deviceIdle, ?deviceFence⟩
  case covered =>
    intro s r cause sound h
    rw [exec_regionFence, fenceRegion_covered _ _ _ _ h]
  case fence =>
    refine fun s r cause sound hr hd => ⟨fun hf => ⟨fun hok => ?_, fun hok => ?_⟩, fun hf => ⟨s.dev.fenceMarked_fenced r, ?_⟩⟩
    · rw [exec_regionFence, fenceRegion_again _ _ _ _ hr hd hf, refence_sound _ _ _ _ hok]
    · rw [exec_regionFence, fenceRegion_again _ _ _ _ hr hd hf, refence_unsound _ _ _ _ hok]; rfl
    · rw [exec_regionFence, fenceRegion_first _ _ _ _ hr hd hf]; rfl
  case evacuate =>
    refine fun s e => ⟨fun h => ?_, fun hw h3 => ?_, fun hw h0 h3 => ⟨fun d f ht => ?_, fun ht hn => ?_, fun ht hn => ?_⟩⟩
    · rw [exec_segmentEvacuated, evacuate_idle _ _ h]
    · rw [exec_segmentEvacuated, evacuate_lost _ _ hw h3]; rfl
    · rw [exec_segmentEvacuated, evacuate_moved _ _ hw h0 h3 ht]; rfl
    · rw [exec_segmentEvacuated, evacuate_poisoned _ _ hw h0 h3 ht hn]; rfl
    · rw [exec_segmentEvacuated, evacuate_waits _ _ hw h0 h3 ht hn]
  case deviceIdle =>
    intro s cause h
    rw [exec_deviceFence, deviceFence_idle _ _ h]
  case deviceFence =>
    refine fun s cause hf hl h1 _ => ⟨fun h3 => ?_, ?_, ?_⟩
    · have hd := deviceFence_linked _ _ hf hl h1 h3
      exact ⟨_, exec_deviceFence cause s, by rw [hd]; rfl, hd⟩
    · rintro rfl
      rw [exec_deviceFence, deviceFence_no_link _ hf hl]; rfl
    · rintro rfl
      exact ⟨_, exec_deviceFence 4 s, deviceFence_rails _ hf hl⟩

end Sys2Proof.Machine
end

section
/-! Integer formats: statuses (R73), row words (R57), rounding (R62, R63), scale bytes and contributions (R309 to R314). -/

namespace Sys2Proof.Machine

/-! ### Completion statuses (R73) -/

/-- Of the six conditions, FORMAT_VOID and OK are left where the other four are not met. -/
theorem find?_other_condition {conds : List Nat} (hall : ∀ c ∈ conds, c ∈ [stPoison, stDiscard, stScale, stSat, stVoid, stOk])
    (hp : stPoison ∉ conds) (hd : stDiscard ∉ conds) (hs : stScale ∉ conds) (ha : stSat ∉ conds) :
    conds.find? (fun c => c != stVoid && c != stOk) = none := by
  rw [List.find?_eq_none]
  intro c hc
  have hcase := hall c hc
  simp only [List.mem_cons, List.not_mem_nil, or_false] at hcase
  rcases hcase with rfl | rfl | rfl | rfl | rfl | rfl
  · exact absurd hc hp
  · exact absurd hc hd
  · exact absurd hc hs
  · exact absurd hc ha
  · decide
  · decide

/-- Settles O7: the four tests of `statusOf` in their order, then FORMAT_VOID. -/
theorem statusTakesTheFirstOfItsPrecedence : Obligations.StatusTakesTheFirstOfItsPrecedence := by
  unfold Obligations.StatusTakesTheFirstOfItsPrecedence
  intro conds hall
  unfold statusOf
  by_cases hp : stPoison ∈ conds
  · simp [hp]
  by_cases hd : stDiscard ∈ conds
  · simp [hp, hd]
  by_cases hs : stScale ∈ conds
  · simp [hp, hd, hs]
  by_cases ha : stSat ∈ conds
  · simp [hp, hd, hs, ha]
  by_cases hv : stVoid ∈ conds <;> simp [hp, hd, hs, ha, hv, find?_other_condition hall hp hd hs ha]

/-! ### Row words (R57) -/

theorem bool01_lt_two (b : Bool) : bool01 b < 2 := by cases b <;> decide

theorem bool01_beq_one (b : Bool) : (bool01 b == 1) = b := by cases b <;> rfl

theorem toUns_sixteen_lt (v : Int) : toUns 16 v < 2 ^ 16 := by unfold toUns; omega

section
variable (w : RowWord)

theorem RowWord.parts_lt : toUns 16 w.exp < 2 ^ 16 ∧ bool01 w.sat < 2 ∧ bool01 w.wide < 2 ∧ bool01 w.void < 2 :=
  ⟨toUns_sixteen_lt _, bool01_lt_two _, bool01_lt_two _, bool01_lt_two _⟩

/-- A row word as a number: 16 bits of exponent, then a bit for each flag. -/
theorem RowWord.enc_toNat : w.enc.toNat =
    toUns 16 w.exp + bool01 w.sat * 2 ^ 16 + bool01 w.wide * 2 ^ 17 + bool01 w.void * 2 ^ 18 := by
  obtain ⟨hexp, hsat, hwide, hvoid⟩ := w.parts_lt
  simp only [RowWord.enc, BitVec.toNat_ofNat, at']
  omega

theorem RowWord.enc_toNat_lt : w.enc.toNat < 2 ^ 19 := by
  obtain ⟨hexp, hsat, hwide, hvoid⟩ := w.parts_lt
  rw [w.enc_toNat]
  omega

theorem RowWord.bit_enc :
    bit w.enc.toNat 16 = w.sat ∧ bit w.enc.toNat 17 = w.wide ∧ bit w.enc.toNat 18 = w.void := by
  obtain ⟨hexp, hsat, hwide, hvoid⟩ := w.parts_lt
  have hw := w.enc_toNat
  have h16 : w.enc.toNat / 2 ^ 16 % 2 = bool01 w.sat := by omega
  have h17 : w.enc.toNat / 2 ^ 17 % 2 = bool01 w.wide := by omega
  have h18 : w.enc.toNat / 2 ^ 18 % 2 = bool01 w.void := by omega
  simp only [bit, h16, h17, h18, bool01_beq_one, and_self]

theorem RowWord.sfld_enc (h : -32768 ≤ w.exp ∧ w.exp ≤ 32767) : sfld w.enc.toNat 0 16 = w.exp := by
  have hexp := toUns_sixteen_lt w.exp
  have hfld : fld w.enc.toNat 0 16 = toUns 16 w.exp := by
    rw [fld, w.enc_toNat]; omega
  have hmod : (toUns 16 w.exp : Int) = w.exp % 2 ^ 16 := Int.toNat_of_nonneg (Int.emod_nonneg _ (by norm_num))
  rw [sfld, hfld]
  split <;> omega

end

/-- The low bits of a word, read as signed, are its signed field. -/
theorem toInt_extractLsb'_zero (b : BitVec 32) {n : Nat} (hn : 0 < n) : (b.extractLsb' 0 n).toInt = sfld b.toNat 0 n := by
  have h2 : 2 ^ n = 2 * 2 ^ (n - 1) := (mul_pow_sub_one hn.ne' 2).symm
  have hlt (a : Nat) : 2 * a < 2 ^ n ↔ a < 2 ^ (n - 1) := by omega
  simp only [BitVec.toInt_eq_toNat_cond, BitVec.extractLsb'_toNat, Nat.shiftRight_zero, sfld, fld, Nat.pow_zero, Nat.div_one, hlt]
  push_cast; rfl

/-- Settles O8: the exponent's field and the three flags' bits of `RowWord.enc`. -/
theorem rowWordRoundTrip : Obligations.RowWordRoundTrip := by
  unfold Obligations.RowWordRoundTrip
  intro w h
  obtain ⟨hsat, hwide, hvoid⟩ := w.bit_enc
  refine ⟨?_, ?_, ?_, ?_, ?_, w.enc_toNat_lt⟩
  · rw [RowWord.dec, w.sfld_enc h, hsat, hwide, hvoid]
  · rw [toInt_extractLsb'_zero _ (by decide), w.sfld_enc h]
  · rw [← BitVec.testBit_toNat, ← bit_eq_testBit, hsat]
  · rw [← BitVec.testBit_toNat, ← bit_eq_testBit, hwide]
  · rw [← BitVec.testBit_toNat, ← bit_eq_testBit, hvoid]

/-! ### Rounding half-even (R62, R63) -/

/-- A rounded quotient lies within half a unit of the exact one, and a tie falls on the even neighbour. -/
theorem divRHE_near (t : Int) {d : Nat} (hd : 0 < d) :
    2 * (t - divRHE t d * d) ≤ d ∧ -(d : Int) ≤ 2 * (t - divRHE t d * d) ∧
    (2 * (t - divRHE t d * d) = d ∨ 2 * (t - divRHE t d * d) = -(d : Int) → divRHE t d % 2 = 0) := by
  have hd' : (0 : Int) < d := by exact_mod_cast hd
  have hr0 := Int.emod_nonneg t hd'.ne'
  have hrd := Int.emod_lt_of_pos t hd'
  have hdown : t - t / d * d = t % d := by have := Int.mul_ediv_add_emod t d; linarith
  have hup : t - (t / d + 1) * d = t % d - d := by have := Int.mul_ediv_add_emod t d; linarith
  unfold divRHE
  simp only
  split
  · rw [hdown]; omega
  · split
    · rw [hup]; omega
    · split
      · rw [hdown]; omega
      · rw [hup]; omega

/-- Settles O6: `divRHE_near` of a power of two. -/
theorem halfEvenRoundingIsNearestEven : Obligations.HalfEvenRoundingIsNearestEven := by
  unfold Obligations.HalfEvenRoundingIsNearestEven
  intro t s
  simpa [shrRHE] using divRHE_near t (Nat.two_pow_pos s)

/-! ### Scale bytes and the agreed exponent (R309, R310) -/

theorem clog2_le_iff (n c : Nat) : clog2 n ≤ c ↔ n ≤ 2 ^ c := by
  unfold clog2
  have := Nat.two_pow_pos c
  split
  · omega
  · rw [Nat.succ_le_iff, Nat.log2_lt (by omega)]; omega

theorem toSgn_eight_inj {a b : Nat} (ha : a < 256) (hb : b < 256) (h : toSgn 8 a = toSgn 8 b) : a = b := by
  unfold toSgn at h
  split at h <;> split at h <;> omega

/-- The empty byte stands below every exponent. -/
theorem neg128_le_toSgn (b : Nat) : -128 ≤ toSgn 8 b := by
  unfold toSgn
  split <;> omega

/-- The empty byte, -128, is the least of all: folding takes the greater exponent. -/
theorem foldScale_eq {a b : Nat} (ha : a < 256) (hb : b < 256) : foldScale a b = if toSgn 8 a < toSgn 8 b then b else a := by
  have hmin (c : Nat) : toSgn 8 0x80 ≤ toSgn 8 c := neg128_le_toSgn c
  unfold foldScale
  split
  · next h0 =>
    subst h0
    split
    · rfl
    · next h => exact toSgn_eight_inj hb ha (le_antisymm (not_lt.1 h) (hmin b))
  · split
    · next h0 => subst h0; rw [if_neg (not_lt.2 (hmin a))]
    · rfl

/-- A fold of scale bytes is one of them, or the byte it starts from, and none is greater. -/
theorem foldl_foldScale {bs : List Nat} (hbs : ∀ b ∈ bs, b < 256) {t : Nat} (ht : t < 256) :
    bs.foldl foldScale t ∈ t :: bs ∧ ∀ b ∈ t :: bs, toSgn 8 b ≤ toSgn 8 (bs.foldl foldScale t) := by
  induction bs generalizing t with
  | nil => simp
  | cons b bs ih =>
    have hb := hbs b (by simp)
    have hstep : foldScale t b ∈ [t, b] ∧ toSgn 8 t ≤ toSgn 8 (foldScale t b) ∧ toSgn 8 b ≤ toSgn 8 (foldScale t b) := by
      rw [foldScale_eq ht hb]
      split
      · next h => exact ⟨by simp, h.le, le_rfl⟩
      · next h => exact ⟨by simp, le_rfl, not_lt.1 h⟩
    obtain ⟨hin, hlet, hleb⟩ := hstep
    have hlt : foldScale t b < 256 := by
      simp only [List.mem_cons, List.not_mem_nil, or_false] at hin
      rcases hin with h | h <;> rw [h] <;> assumption
    obtain ⟨hmem, hmax⟩ := ih (fun c hc => hbs c (by simp [hc])) hlt
    have htop := hmax _ (by simp : foldScale t b ∈ foldScale t b :: bs)
    rw [List.foldl_cons]
    refine ⟨?_, fun c hc => ?_⟩
    · simp only [List.mem_cons, List.not_mem_nil, or_false] at hin hmem ⊢
      rcases hmem with h | h
      · rw [h]; tauto
      · exact .inr (.inr h)
    · simp only [List.mem_cons] at hc
      rcases hc with rfl | rfl | hc
      · exact hlet.trans htop
      · exact hleb.trans htop
      · exact hmax c (by simp [hc])

section
variable {bs : List Nat} (hbs : ∀ b ∈ bs, b < 256)
include hbs

theorem foldScales_mem : bs.foldl foldScale 0x80 ∈ 0x80 :: bs := (foldl_foldScale hbs (by decide)).1

theorem le_foldScales {b : Nat} (h : b ∈ bs) : toSgn 8 b ≤ toSgn 8 (bs.foldl foldScale 0x80) :=
  (foldl_foldScale hbs (by decide)).2 b (by simp [h])

theorem foldScales_lt : bs.foldl foldScale 0x80 < 256 := by
  rcases List.mem_cons.1 (foldScales_mem hbs) with h | h
  · omega
  · exact hbs _ h

theorem foldScales_empty_iff : bs.foldl foldScale 0x80 = 0x80 ↔ ∀ b ∈ bs, b = 0x80 := by
  refine ⟨fun h b hb => ?_, fun h => ?_⟩
  · have hle := le_foldScales hbs hb
    rw [h] at hle
    exact toSgn_eight_inj (hbs b hb) (by decide) (le_antisymm hle (neg128_le_toSgn b))
  · rcases List.mem_cons.1 (foldScales_mem hbs) with h0 | hin
    · exact h0
    · exact h _ hin

/-- The largest byte is the same in any order. -/
theorem foldScales_perm {cs : List Nat} (hp : bs.Perm cs) : bs.foldl foldScale 0x80 = cs.foldl foldScale 0x80 := by
  have hcs : ∀ b ∈ cs, b < 256 := fun b hb => hbs b (hp.mem_iff.2 hb)
  have hle {xs ys : List Nat} (hx : ∀ b ∈ xs, b < 256) (hy : ∀ b ∈ ys, b < 256) (hsub : ∀ b ∈ xs, b ∈ ys) :
      toSgn 8 (xs.foldl foldScale 0x80) ≤ toSgn 8 (ys.foldl foldScale 0x80) := by
    rcases List.mem_cons.1 (foldScales_mem hx) with h | h
    · rw [h]; exact neg128_le_toSgn _
    · exact le_foldScales hy (hsub _ h)
  exact toSgn_eight_inj (foldScales_lt hbs) (foldScales_lt hcs)
    (le_antisymm (hle hbs hcs fun _ => hp.mem_iff.1) (hle hcs hbs fun _ => hp.mem_iff.2))

end

/-- Settles O23: the fold is the largest byte, 0x80 standing below every other. -/
theorem foldedScaleIsTheLargest : Obligations.FoldedScaleIsTheLargest := by
  unfold Obligations.FoldedScaleIsTheLargest
  refine ⟨fun bs hbs => ⟨foldScales_empty_iff hbs, fun h => ⟨?_, fun b hb _ => le_foldScales hbs hb⟩⟩,
    fun bs cs hbs => foldScales_perm hbs, fun tb n _ => ⟨rfl, (clog2_le_iff n _).1 le_rfl, fun c => (clog2_le_iff n c).2⟩⟩
  exact (List.mem_cons.1 (foldScales_mem hbs)).resolve_left h

/-! ### Bounds of aligned contributions (R314) -/

/-- A value shifted right and rounded half-even stays within any bound it was within. -/
theorem shrRHE_abs_le {t b : Int} {s : Nat} (ht : -b ≤ t ∧ t ≤ b) : -b ≤ shrRHE t s ∧ shrRHE t s ≤ b := by
  obtain ⟨hle, hge, -⟩ := halfEvenRoundingIsNearestEven t s
  have hp : (1 : Int) ≤ 2 ^ s := one_le_pow₀ (by norm_num)
  constructor <;> by_contra h <;> nlinarith

/-- So does one rounded stochastically, short of the upper bound itself. -/
theorem shrStoch_abs_le {t b : Int} {s w : Nat} (ht : -b ≤ t ∧ t < b) (hw : w < 2 ^ 32) :
    -b ≤ shrStoch t s w ∧ shrStoch t s w ≤ b := by
  have hp : (0 : Int) < 2 ^ s := by positivity
  have hword : (w * 2 ^ s / 2 ^ 32 : Nat) < 2 ^ s := by
    rw [Nat.div_lt_iff_lt_mul (by decide), Nat.mul_comm]
    exact Nat.mul_lt_mul_of_pos_left hw (Nat.two_pow_pos s)
  have hword' : ((w * 2 ^ s / 2 ^ 32 : Nat) : Int) < 2 ^ s := by exact_mod_cast hword
  have hnn : (0 : Int) ≤ ((w * 2 ^ s / 2 ^ 32 : Nat) : Int) := Int.natCast_nonneg _
  unfold shrStoch
  generalize ((w * 2 ^ s / 2 ^ 32 : Nat) : Int) = u at hword' hnn
  constructor
  · rw [Int.le_ediv_iff_mul_le hp]; nlinarith
  · rw [← Int.lt_add_one_iff, Int.ediv_lt_iff_lt_mul hp]; nlinarith

/-- Settles O24: shifted left a code has room for 16 - ceil(log2 N_C) bits more, shifted right it stays within 2^15. -/
theorem alignedContributionIsBounded : Obligations.AlignedContributionIsBounded := by
  unfold Obligations.AlignedContributionIsBounded
  intro rn row col kb tb nC e t _ hn htb he ht hgen
  have hc : clog2 nC ≤ 16 := (clog2_le_iff nC 16).2 hn
  have hF : agreedF tb nC = toSgn 8 tb + clog2 nC - 16 := by rw [agreedF, if_neg htb]; ring
  have hroom : (32768 : Int) ≤ 2 ^ (31 - clog2 nC) := by
    calc (32768 : Int) = 2 ^ 15 := by norm_num
      _ ≤ _ := pow_le_pow_right₀ (by norm_num) (by omega)
  have hb : -(2 ^ (31 - clog2 nC) : Int) ≤ t ∧ t < 2 ^ (31 - clog2 nC) := by omega
  suffices h : -(2 ^ (31 - clog2 nC) : Int) ≤ alignTo rn row col kb (agreedF tb nC) e t ∧
      alignTo rn row col kb (agreedF tb nC) e t ≤ 2 ^ (31 - clog2 nC) from ⟨h.2, h.1⟩
  unfold alignTo
  split
  · next hle =>
    have hs : (e - agreedF tb nC).toNat ≤ 16 - clog2 nC := by omega
    have hpow : (2 : Int) ^ (e - agreedF tb nC).toNat ≤ 2 ^ (16 - clog2 nC) := pow_le_pow_right₀ (by norm_num) hs
    have hsplit : (2 : Int) ^ (31 - clog2 nC) = 32768 * 2 ^ (16 - clog2 nC) := by
      rw [show 31 - clog2 nC = 15 + (16 - clog2 nC) by omega, pow_add]; norm_num
    have hpos : (0 : Int) < 2 ^ (e - agreedF tb nC).toNat := by positivity
    rw [hsplit]
    constructor <;> nlinarith
  · split
    · next hst => exact shrStoch_abs_le hb (hgen hst)
    · exact shrRHE_abs_le ⟨hb.1, hb.2.le⟩

end Sys2Proof.Machine
end

section
/-! The settings of the arithmetic (R77): a write out of range is refused, alone and in a packet (R458). -/

namespace Sys2Proof.Machine

/-! ### A SET packet of one refused item (R458) -/

theorem exec_chodalSet (src : ChodalSrc) (pkt : Bytes) (s : State) :
    exec (.chodalSet src pkt) s = .next (packetIf (isOp pkt 2) src pkt s) := rfl

/-- A fresh well-formed SET packet of a permitted writer that need not wait applies its items and is answered. -/
theorem exec_chodalSet_fresh {s : State} {src : ChodalSrc} {pkt : Bytes} {its : List CkItem} (hf : FreshPacket s src pkt 2 its)
    (hw : mayWrite (counted s).dev src = true) (hm : mustWait (counted s).dev its = false) :
    exec (.chodalSet src pkt) s = .next
      { (setAll (counted s) its (bit (leAt pkt 7 1) 1)).2 with
        dev := reply (setAll (counted s) its (bit (leAt pkt 7 1) 1)).2.dev src pkt
          (setReply pkt its (setAll (counted s) its (bit (leAt pkt 7 1) 1)).1) } := by
  obtain ⟨hrun, hwait, hcache, hlo, hhi, hver, hop, hits⟩ := hf
  have hisOp : isOp pkt 2 = true := by simp [isOp, hlo, hhi, hver, hop, hits]
  have hcache' : cached (counted s).dev src pkt = none := hcache
  have hpacket : packet s src pkt = handle (counted s) src pkt := by
    simp [packet, hrun, not_lt.2 hlo, not_lt.2 hhi, hwait, counted]
  have hhandle : handle (counted s) src pkt = setPacket (counted s) src pkt its := by
    simp [handle, hcache', hver, hits, hop]
  rw [exec_chodalSet, packetIf, if_pos hisOp, hpacket, hhandle, setPacket, hw, hm]
  rfl

/-- A refused item alone leaves the state, atomic or not. -/
theorem setAll_refused {s : State} {it : CkItem} {st : Nat} (h : setItem s it = (st, s)) (hst : st ≠ ckOk) (atomic : Bool) :
    setAll s [it] atomic = ([st], s) := by
  have hone : setItems [it] s = ([st], s) := by simp [setItems, h]
  cases atomic <;> simp [setAll, hone, hst]

/-! ### ROUND_MODE, SAT_POLICY, CLIP_THRESHOLD and AUDIT_SHIFT -/

/-- The four settings of a job are bytes that may be read and written, and are not persisted. -/
theorem objFind_setting {j sub : Nat} (hj : j < 64) (hs : sub ∈ [0x01, 0x03, 0x04, 0x05]) :
    ∃ o, objFind (0x8100 + j) sub = some o ∧ o.acc = 1 ∧ o.ty = 1 := by
  have hall : ∀ j < 64, ∀ sub ∈ [0x01, 0x03, 0x04, 0x05],
      (objFind (0x8100 + j) sub).map (fun o => (o.acc, o.ty)) = some (1, 1) := by decide +kernel
  obtain ⟨o, ho, he⟩ := Option.map_eq_some_iff.1 (hall j hj sub hs)
  exact ⟨o, ho, congrArg Prod.fst he, congrArg Prod.snd he⟩

theorem leAt_byte {v n : Nat} (hv : v < 256) : leAt (leBytes 1 v) 0 (n + 1) = v := by
  simp [leAt, leBytes, ofLe, Nat.mod_eq_of_lt hv]

section
variable {j v sub : Nat} (hj : j < 64)
include hj

/-- The range rule of a job's settings (R77). -/
theorem rangeOk_setting (d : Dev) : rangeOk d (0x8100 + j) sub v = rangeArith d j sub v := by
  have hmod : (0x8100 + j) % 64 = j := by omega
  unfold rangeOk
  dsimp only
  rw [hmod]
  repeat rw [if_neg (by omega)]
  rw [if_pos (by omega)]

theorem setItem_setting (hv : v < 256) (hs : sub ∈ [0x01, 0x03, 0x04, 0x05]) (s : State) (hr : rangeArith s.dev j sub v = false) :
    setItem s ⟨0x8100 + j, sub, 1, leBytes 1 v⟩ = (ckRange, s) := by
  obtain ⟨o, ho, hacc, hty⟩ := objFind_setting hj hs
  have hvendor : vendorRange (0x8100 + j) = false := by simp [vendorRange]; omega
  have hsub : sub ≠ 0 := by rintro rfl; simp at hs
  have hlen : (leBytes 1 v).length = tyBytes 1 := rfl
  simp [setItem, hvendor, hsub, ho, hacc, hty, hlen, leAt_byte hv, setNum, rangeOk_setting hj, hr]

omit hj in
theorem rangeArith_setting_eq_false (d : Dev)
    (h : (sub = 0x04 ∧ 64 < v) ∨ (sub = 0x05 ∧ v ≠ 0 ∧ (v < 4 ∨ 20 < v)) ∨ (sub = 0x01 ∧ 1 < v) ∨ (sub = 0x03 ∧ 1 < v)) :
    rangeArith d j sub v = false := by
  rcases h with ⟨rfl, h⟩ | ⟨rfl, h⟩ | ⟨rfl, h⟩ | ⟨rfl, h⟩ <;> simp only [rangeArith, decide_eq_false_iff_not] <;> omega

theorem itemRwp_setting (hs : sub ∈ [0x01, 0x03, 0x04, 0x05]) (ty : Nat) (bs : Bytes) :
    itemRwp ⟨0x8100 + j, sub, ty, bs⟩ = false := by
  obtain ⟨o, ho, hacc, -⟩ := objFind_setting hj hs
  have hsub : sub < 256 := by
    simp only [List.mem_cons, List.not_mem_nil, or_false] at hs; omega
  have hdiv : ((0x8100 + j) * 256 + sub) / 256 = 0x8100 + j := by omega
  have hmod : ((0x8100 + j) * 256 + sub) % 256 = sub := by omega
  simp [itemRwp, isRwp, hdiv, hmod, ho, hacc]

end

/-- Settles O53, from `rangeArith`. -/
theorem settingsOutOfRangeAreRefused : Obligations.SettingsOutOfRangeAreRefused := by
  unfold Obligations.SettingsOutOfRangeAreRefused
  intro s j v sub hj hv h
  have hs : sub ∈ [0x01, 0x03, 0x04, 0x05] := by
    simp only [List.mem_cons, List.not_mem_nil, or_false]; omega
  have hset (s : State) := setItem_setting hj hv hs s (rangeArith_setting_eq_false _ h)
  refine ⟨hset s, fun src pkt hf hw => ?_⟩
  have hm : mustWait (counted s).dev [⟨0x8100 + j, sub, 1, leBytes 1 v⟩] = false := by
    simp [mustWait, itemRwp_setting hj hs]
  rw [exec_chodalSet_fresh hf hw hm, setAll_refused (hset _) (by decide)]
  rfl

end Sys2Proof.Machine
end

section
/-! The shadow audit (R74, R75): it adds to the job's sums, the list of audited tiles and AUDIT_RETRIES, and to nothing else. -/

namespace Sys2Proof.Machine

/-! ### Counters, jobs and flights -/

theorem Dev.dget_bumpN_self (d : Dev) (k n : Nat) : (d.bumpN k n).dget k = Nat.min (d.dget k + n) (dictMax k) :=
  d.dget_dset_self ..

theorem Dev.dget_bumpN_ne (d : Dev) {k l : Nat} (n : Nat) (h : l ≠ k) : (d.bumpN k n).dget l = d.dget l :=
  d.dget_dset_ne _ h

/-- A property of the flights that a change of one of them keeps. -/
theorem Dev.map_flight_modFlight {β : Type} (p : Flight → β) (d : Dev) (f g : Nat) (u : Flight → Flight)
    (hid : ∀ x : Flight, (u x).id = x.id) (hp : ∀ x, p (u x) = p x) : ((d.modFlight f u).flight g).map p = (d.flight g).map p := by
  by_cases h : g = f
  · subst h
    rw [Dev.flight_modFlight _ _ _ hid, Option.map_map]
    exact Option.map_congr fun x _ => hp x
  · rw [Dev.flight_modFlight_ne _ _ _ _ hid h]

/-! ### What an audit may change -/

/-- Only the dictionary's AUDIT_RETRIES, the jobs' audit sums and the flights' lists of audited tiles differ. -/
structure AuditFrame (d e : Dev) : Prop where
  rest : e = { d with dict := e.dict, sched := e.sched }
  sched : e.sched = { d.sched with jobs := e.sched.jobs, flights := e.sched.flights }
  keys : ∀ k, k ≠ O.AUDIT_RETRIES → e.dget k = d.dget k
  jobs : ∀ j, e.job j = { d.job j with audit := (e.job j).audit }
  flights : ∀ g, (e.flight g).map (fun x => { x with results := [] }) = (d.flight g).map (fun x => { x with results := [] })

theorem AuditFrame.mem {d e : Dev} (h : AuditFrame d e) : e.mem = d.mem := by rw [h.rest]

theorem AuditFrame.refl (d : Dev) : AuditFrame d d := ⟨rfl, rfl, fun _ _ => rfl, fun _ => rfl, fun _ => rfl⟩

/-- Engine tile (tr, tc) audited with differences `es` and `retries` residue retries. -/
def Dev.tileAudited (d : Dev) (x : Flight) (tr tc retries : Nat) (es : List Int) : Dev :=
  let d1 := d.modJob x.job (fun j => { j with audit := { es.foldl Stats.add j.audit with tiles := j.audit.tiles + 1 } })
  let d2 := d1.modFlight x.id (fun y => { y with results := y.results ++ [(tr, tc, 0)] })
  if retries = 0 then d2 else d2.bumpN O.AUDIT_RETRIES retries

section
variable (d : Dev) (x : Flight) (tr tc retries : Nat) (es : List Int)

theorem Dev.tileAudited_sched : (d.tileAudited x tr tc retries es).sched = (d.tileAudited x tr tc 0 es).sched := by
  unfold Dev.tileAudited; dsimp only; split <;> rfl

theorem Dev.tileAudited_job (j : Nat) : (d.tileAudited x tr tc retries es).job j =
    (d.modJob x.job (fun j => { j with audit := { es.foldl Stats.add j.audit with tiles := j.audit.tiles + 1 } })).job j := by
  unfold Dev.job; rw [d.tileAudited_sched]; rfl

theorem Dev.tileAudited_frame : AuditFrame d (d.tileAudited x tr tc retries es) where
  rest := by unfold Dev.tileAudited; dsimp only; split <;> rfl
  sched := by rw [d.tileAudited_sched]; rfl
  keys k hk := by
    unfold Dev.tileAudited; dsimp only
    split
    · rfl
    · rw [Dev.dget_bumpN_ne _ _ hk]; rfl
  jobs j := by
    rw [d.tileAudited_job]
    by_cases h : j = x.job
    · rw [h, Dev.job_modJob_self]
    · rw [Dev.job_modJob_ne _ _ h]
  flights g := by
    rw [Dev.flight_congr (d.tileAudited_sched x tr tc retries es)]
    exact Dev.map_flight_modFlight (fun x => { x with results := [] }) _ x.id g
      (fun y => { y with results := y.results ++ [(tr, tc, 0)] }) (fun _ => rfl) (fun _ => rfl)

theorem Dev.tileAudited_tiles :
    ((d.tileAudited x tr tc retries es).job x.job).audit.tiles = (d.job x.job).audit.tiles + 1 := by
  rw [d.tileAudited_job, Dev.job_modJob_self]

theorem Dev.tileAudited_retries (h : 0 < retries) : (d.tileAudited x tr tc retries es).dget O.AUDIT_RETRIES =
    Nat.min (d.dget O.AUDIT_RETRIES + retries) (dictMax O.AUDIT_RETRIES) := by
  unfold Dev.tileAudited
  rw [if_neg h.ne', Dev.dget_bumpN_self]
  rfl

/-- A tile is audited, or nothing happens. -/
theorem auditTile_cases : auditTile d x tr tc retries = d ∨ ∃ es, auditTile d x tr tc retries = d.tileAudited x tr tc retries es := by
  unfold auditTile
  dsimp only
  split
  · exact .inl rfl
  · split
    · exact .inr ⟨_, rfl⟩
    · exact .inl rfl

end

/-- SHADOW_AUDIT audits the tile of a flight, or nothing happens. -/
theorem shadowAudit_cases (f tr tc retries : Nat) (d : Dev) :
    shadowAudit f tr tc retries d = d ∨ ∃ x es, shadowAudit f tr tc retries d = d.tileAudited x tr tc retries es := by
  unfold shadowAudit
  split
  · exact .inl rfl
  · next x _ =>
    dsimp only
    split_ifs
    · exact (auditTile_cases d x tr tc retries).imp_right fun ⟨es, h⟩ => ⟨x, es, h⟩
    · exact .inl rfl

theorem shadowAudit_frame (f tr tc retries : Nat) (d : Dev) : AuditFrame d (shadowAudit f tr tc retries d) := by
  rcases shadowAudit_cases f tr tc retries d with h | ⟨x, es, h⟩
  · rw [h]; exact .refl d
  · rw [h]; exact d.tileAudited_frame ..

/-- A descriptor that has no status, or one that lets its step go on, or ACC_SAT, has not been stopped (R75). -/
def Flight.unstopped (x : Flight) : Prop := x.done = none ∨ ∃ st, x.done = some st ∧ (passes st = true ∨ st = stSat)

/-- On a product that has started and has not been stopped, SHADOW_AUDIT audits. -/
theorem shadowAudit_product {d : Dev} {f : Nat} {x : Flight} (tr tc retries : Nat) (hx : d.flight f = some x)
    (hop : x.opcode = 1) (hst : x.started = true) (hd : x.unstopped) :
    shadowAudit f tr tc retries d = auditTile d x tr tc retries := by
  unfold shadowAudit
  rw [hx]
  dsimp only
  refine if_pos ⟨hop, hst, ?_⟩
  rcases hd with h | ⟨st, h, hpass⟩
  · rw [h]
  · rw [h]; simpa using hpass

/-- Settles O13: an audited tile adds to the sums, the list of audited tiles and AUDIT_RETRIES alone. -/
theorem shadowAuditChangesNoResult : Obligations.ShadowAuditChangesNoResult := by
  unfold Obligations.ShadowAuditChangesNoResult
  intro s f tr tc retries
  have hframe := shadowAudit_frame f tr tc retries s.dev
  refine ⟨{ s with dev := shadowAudit f tr tc retries s.dev }, rfl, rfl, rfl, hframe.mem, hframe.rest, hframe.sched, hframe.keys,
    hframe.jobs, hframe.flights, ?_⟩
  intro x pl hx hop hst hd hpl hmv hk hm htd parts hparts hne ha hb hseg hres
  have hnew : (tr, tc, 0) ∉ x.results := by simpa using hres
  have haudit : auditTile s.dev x tr tc retries = s.dev.tileAudited x tr tc retries
      (parts.flatMap (AuditPart.diffs (auditProd s.dev x pl parts))) := by
    subst hparts
    unfold auditTile
    dsimp only
    rw [hpl]
    exact if_pos (by simp [hmv, hk, hm, htd, hne, ha, hb, hseg, hnew])
  dsimp only
  rw [shadowAudit_product tr tc retries hx hop hst hd, haudit]
  exact ⟨s.dev.tileAudited_tiles .., s.dev.tileAudited_retries x tr tc retries _⟩

end Sys2Proof.Machine
end

section
/-! K_LOOP_RUN (R60, R89, R95, R97, R99, R138): what the loop leaves of the descriptor, and the command case by case. -/

namespace Sys2Proof.Machine

/-! ### What leaves the scheduler alone -/

section
variable (d : Dev)

theorem Dev.opbPutTile_sched (b a : Nat) (t : Bytes) : (d.opbPutTile b a t).sched = d.sched := rfl

theorem Dev.freeOpb_sched (b a n : Nat) : (d.freeOpb b a n).sched = d.sched := rfl

theorem Dev.segWrite_sched (e off : Nat) (bs : Bytes) : (d.segWrite e off bs).sched = d.sched := by
  unfold Dev.segWrite
  dsimp only
  split
  · rfl
  · exact (d.setTierMem_apart _ _).2

theorem Dev.touch_sched (e : Nat) : (d.touch e).sched = d.sched := by unfold Dev.touch; split <;> rfl

theorem Dev.refWrite_sched (j lb : Nat) (r : Ref) (o : Nat) (bs : Bytes) : (d.refWrite j lb r o bs).sched = d.sched := by
  unfold Dev.refWrite
  split
  · rfl
  · rw [Dev.touch_sched, Dev.segWrite_sched]
  · rfl

theorem Dev.subCells_sched (b : Nat) (sh : Shape) (wide : Bool) (slot s : Nat) (cell : Nat → Nat → Nat) :
    (d.subCells b sh wide slot s cell).sched = d.sched := by
  refine Dev.forEach_keeps Dev.sched _ (fun d m => ?_) _ d
  cases wide <;> rfl

theorem Dev.subRowPut_sched (b : Nat) (sh : Shape) (slot s m : Nat) (w : RowWord) : (d.subRowPut b sh slot s m w).sched = d.sched := by
  unfold Dev.subRowPut Dev.rowPut; rw [Dev.setMem_sched]

theorem Dev.subWrite_sched (b : Nat) (sh : Shape) (wide : Bool) (slot s : Nat) (val : Nat → Nat → Int) (rows : Nat → RowWord) :
    (d.subWrite b sh wide slot s val rows).sched = d.sched := by
  unfold Dev.subWrite
  rw [Dev.forEach_keeps Dev.sched _ (fun d m => d.subRowPut_sched b sh slot s m (rows m)), d.subCells_sched]

theorem drainTile_sched (j : Nat) (pl : Plan) (wide : Bool) (accBase subslot tm tn : Nat) (o : TileOut) :
    (drainTile d j pl wide accBase subslot tm tn o).sched = d.sched := d.subWrite_sched ..

theorem storeTile_sched (j : Nat) (pl : Plan) (r : Ref) (ncols tm tn : Nat) (o : TileOut) :
    (storeTile d j pl r ncols tm tn o).sched = d.sched :=
  Dev.forEach_keeps Dev.sched _ (fun _ _ => (Dev.refWrite_sched ..).trans (Dev.refWrite_sched ..)) _ d

theorem Dev.countVoid_sched (j n : Nat) : (d.countVoid j n).sched = d.sched := by unfold Dev.countVoid; split <;> rfl

theorem Dev.drawWord_sched : d.drawWord.2.sched = d.sched := rfl

theorem Dev.takeTenancy_sched (x : Flight) : (d.takeTenancy x).sched = d.sched :=
  Dev.forEach_keeps Dev.sched _ (fun _ _ => by split <;> rfl) _ d

theorem Dev.takePin_sched (p : Nat × Bool) : (d.takePin p).sched = d.sched := by unfold Dev.takePin; split <;> rfl

theorem sendPiece_sched (o : StageOut) (p : Nat × Nat) (lb dst : Nat) : (sendPiece d o p lb dst).sched = d.sched := by
  unfold sendPiece
  split
  · dsimp only; split <;> rfl
  · rfl

theorem takeOuts_sched (x : Flight) : (takeOuts d x).sched = d.sched := by
  unfold takeOuts
  split
  · rfl
  · exact Dev.forEach_keeps Dev.sched _ (fun d pl => Dev.forEach_keeps Dev.sched _ (fun d o =>
      Dev.forEach_keeps Dev.sched _ (fun d p => sendPiece_sched ..) _ d) _ d) _ d

theorem loadChunks_sched (x : Flight) : (loadChunks d x).sched = d.sched :=
  Dev.forEach_keeps Dev.sched _ (fun _ _ => Dev.forEach_keeps Dev.sched _ (fun d _ => d.freeOpb_sched ..) _ _) _ d

end

/-! ### The list of loops run -/

/-- The module holds descriptor `x` with `ts` as the list of its loops run. -/
def Dev.HasLoops (d : Dev) (x : Flight) (ts : List (Nat × Nat)) : Prop :=
  ∃ y, d.flight x.id = some y ∧ y.d = x.d ∧ y.tiles = ts

section
variable {d e : Dev} {x : Flight} {ts us : List (Nat × Nat)}

theorem Dev.HasLoops.of_sched (h : d.HasLoops x ts) (he : e.sched = d.sched) : e.HasLoops x ts := by
  obtain ⟨y, hy, hd, ht⟩ := h
  exact ⟨y, (Dev.flight_congr he _).trans hy, hd, ht⟩

theorem Dev.HasLoops.modFlight (h : d.HasLoops x ts) {u : Flight → Flight} (hid : ∀ y, (u y).id = y.id)
    (hd : ∀ y, (u y).d = y.d) (ht : ∀ y, y.tiles = ts → (u y).tiles = us) : (d.modFlight x.id u).HasLoops x us := by
  obtain ⟨y, hy, hyd, hyt⟩ := h
  refine ⟨u y, ?_, (hd y).trans hyd, ht y hyt⟩
  rw [Dev.flight_modFlight _ _ _ hid, hy]
  rfl

theorem Dev.HasLoops.forEach {α : Type} (h : d.HasLoops x ts) {f : Dev → α → Dev}
    (hf : ∀ d a, Dev.HasLoops d x ts → (f d a).HasLoops x ts) (l : List α) : (d.forEach l f).HasLoops x ts := by
  induction l generalizing d with
  | nil => exact h
  | cons a l ih => exact ih (hf d a h)

theorem Dev.HasLoops.addConds (h : d.HasLoops x ts) (cs : List Nat) : (d.addConds x.id cs).HasLoops x ts :=
  h.modFlight (fun _ => rfl) (fun _ => rfl) (fun _ ht => ht)

theorem Dev.HasLoops.start (h : d.HasLoops x ts) : (d.start x.id).HasLoops x ts := by
  obtain ⟨y, hy, hd, ht⟩ := h
  exact ⟨_, Dev.start_flight hy, hd, ht⟩

theorem Dev.HasLoops.grantPins (h : d.HasLoops x ts) (ps : List (Nat × Bool)) : (d.grantPins x.id ps).HasLoops x ts := by
  unfold Dev.grantPins
  split
  · exact h
  · refine Dev.HasLoops.modFlight (h.of_sched ?_) (fun _ => rfl) (fun _ => rfl) (fun _ ht => ht)
    exact Dev.forEach_keeps Dev.sched _ (fun d p => d.takePin_sched p) _ d

/-- Starting a descriptor runs no loop. -/
theorem Dev.HasLoops.beginRun (h : d.HasLoops x ts) : (beginRun d x).HasLoops x ts := by
  have ht : (d.takeTenancy x).HasLoops x ts := h.of_sched (d.takeTenancy_sched x)
  unfold Machine.beginRun
  dsimp only
  split
  · exact ht
  · have hl := (ht.start.grantPins (pinsOf d x)).of_sched ((loadChunks_sched _ x).trans (takeOuts_sched _ x))
    split
    · exact hl
    · exact hl.of_sched rfl

theorem Dev.HasLoops.writeBand (h : d.HasLoops x ts) (pl : Plan) (c : ConvD) (k : Nat) : (writeBand d x pl c k).HasLoops x ts := by
  unfold Machine.writeBand
  extract_lets tile r0 rows bl block kt sz d1 n v d2 stall d3
  have h1 : d1.sched = d.sched := by
    refine Dev.forEach_keeps Dev.sched _ (fun d i => ?_) _ d
    exact Dev.forEach_keeps Dev.sched _ (fun d j => d.opbPutTile_sched ..) _ d
  have h2 : d2.sched = d1.sched := (Dev.countVoid_sched _ _ _).trans (by split <;> rfl)
  have h3 : d3.sched = d2.sched := (Dev.bumpN_sched _ _ _).trans d2.drawWord_sched
  have hd : d3.HasLoops x ts := h.of_sched (h3.trans (h2.trans h1))
  split
  · exact hd
  · exact hd.addConds _

/-- A K-loop that stands is the one loop more that has run. -/
theorem Dev.HasLoops.drainLoop (h : d.HasLoops x ts) (pl : Plan) (m : MatJob) (p : Prod) (keep : Bool)
    (fs : List (Nat × Nat × Int)) (t : Nat × Nat × Nat) :
    (drainLoop d x pl m p keep fs t).HasLoops x (ts ++ [(pl.blk, pl.loopNo t)]) := by
  unfold Machine.drainLoop
  extract_lets sh last o voids aud d1 d2 d3 d4 d5
  have h1 : d1.sched = d.sched := drainTile_sched ..
  have h2 : d2.sched = d1.sched := by
    show (if _ then _ else _ : Dev).sched = _
    split
    · rfl
    · exact storeTile_sched ..
  have h3 : d3.HasLoops x (ts ++ [(pl.blk, pl.loopNo t)]) :=
    (h.of_sched ((Dev.countVoid_sched d2 x.job voids).trans (h2.trans h1))).modFlight (fun _ => rfl) (fun _ => rfl)
      (fun _ ht => by rw [ht])
  have h4 : d4.HasLoops x (ts ++ [(pl.blk, pl.loopNo t)]) := by
    show (if _ then _ else _ : Dev).HasLoops _ _
    split
    · exact h3
    · exact h3.addConds _
  have h5 : d5.HasLoops x (ts ++ [(pl.blk, pl.loopNo t)]) := h4.of_sched rfl
  split
  · split
    · exact h5.addConds _
    · exact h5
  · exact h4

end

/-- After a K-loop of a share the descriptor has it in its list, or SCALE_RANGE among its conditions and the list as it was. -/
def Dev.LoopOutcome (d : Dev) (x : Flight) (ts : List (Nat × Nat)) (loop : Nat × Nat) : Prop :=
  ∃ y, d.flight x.id = some y ∧ y.d = x.d ∧ (y.tiles = ts ++ [loop] ∨ (y.tiles = ts ∧ y.conds.contains stScale = true))

section
variable {d : Dev} {x : Flight} {ts : List (Nat × Nat)} (h : d.HasLoops x ts) (pl : Plan) (m : MatJob) (p : Prod)
  (t : Nat × Nat × Nat)
include h

theorem matLoop_outcome : (matLoop d x pl m p t).LoopOutcome x ts (pl.blk, pl.loopNo t) := by
  obtain ⟨y, hy, hd, ht⟩ := h
  unfold matLoop
  rw [hy]
  dsimp -zeta only
  extract_lets pc i p1 fs
  split
  · next hs => exact ⟨y, hy, hd, .inr ⟨ht, hs⟩⟩
  · split
    · refine ⟨{ y with conds := y.conds ++ [stScale] }, ?_, hd, .inr ⟨ht, by simp⟩⟩
      rw [Dev.addConds, Dev.flight_modFlight d x.id (fun y => { y with conds := y.conds ++ [stScale] }) (fun _ => rfl), hy]
      rfl
    · obtain ⟨z, hz, hzd, hzt⟩ := Dev.HasLoops.drainLoop ⟨y, hy, hd, ht⟩ pl m { p1 with fix := p1.fix ++ fs } p.hasInit fs t
      exact ⟨z, hz, hzd, .inl hzt⟩

theorem convLoop_outcome : (convLoop d x pl m p t).LoopOutcome x ts (pl.blk, pl.loopNo t) := by
  obtain ⟨y, hy, -⟩ := id h
  unfold convLoop
  rw [hy]
  exact matLoop_outcome (h.forEach (fun d k hd => hd.writeBand pl (convD x.w) k) (bandsDue y pl t)) pl m p t

/-- A K-loop of a product on the array, an `mma` or a `conv`. -/
theorem arrayLoop_outcome : (arrayLoop d x pl t).LoopOutcome x ts (pl.blk, pl.loopNo t) := by
  unfold arrayLoop
  split
  · exact matLoop_outcome h pl _ _ t
  · exact convLoop_outcome h pl _ _ t

end

/-! ### The command -/

/-- A schedule without runs, or whose first run finds no failure, passes and counts nothing (R97). -/
theorem residueLoop_pass (d : Dev) (x : Flight) (b : Nat) (sh : Shape) {runs : List (List Nat)}
    (h : runs = [] ∨ runs.head? = some []) : residueLoop d x b sh runs = (d, false) := by
  have hjudge : judgeRuns (runs.map (fun r => r.map (blameColumn sh))) [] 0 none 0 = .pass 0 := by
    rcases runs with - | ⟨r, rs⟩
    · rfl
    · have hr : r = [] := by simpa using h
      rw [hr]; rfl
  unfold residueLoop residueRun
  rw [hjudge]
  rfl

/-- Loop number `no` of block `blk`'s share of descriptor `f` is `t`, the next of plan `pl` of flight `x`, which may run. -/
structure Dev.LoopDue (d : Dev) (f blk no : Nat) (x : Flight) (pl : Plan) (t : Nat × Nat × Nat) : Prop where
  flight : d.flight f = some x
  plan : x.plans.find? (fun p => p.blk == blk) = some pl
  next : (loopsLeft x pl (arrayJob x)).head? = some t
  array : onArray x = true
  can : canRun d x x.opcode = true
  number : pl.loopNo t = no

section
variable {d : Dev} {f blk no : Nat} {x : Flight} {pl : Plan} {t : Nat × Nat × Nat} (runs : List (List Nat))

/-- Where no loop is due the command does nothing. -/
theorem kLoop_idle (h : ¬ ∃ x pl t, d.LoopDue f blk no x pl t) : kLoop f blk no runs d = d := by
  unfold kLoop
  split
  · rfl
  · next x hx =>
    split
    · rfl
    · next pl hpl =>
      split
      · rfl
      · next t ts ht =>
        refine if_pos ?_
        by_contra hc
        simp only [Bool.or_eq_true, Bool.not_eq_true', bne_iff_ne, not_or, Bool.not_eq_false, not_not] at hc
        obtain ⟨⟨harray, hcan⟩, hno⟩ := hc
        exact h ⟨x, pl, t, hx, hpl, by rw [ht]; rfl, harray, hcan, hno⟩

variable (h : d.LoopDue f blk no x pl t)
include h

/-- Where one is due: a stop ends the descriptor, a convicting schedule retires the block, and otherwise the loop runs. -/
theorem kLoop_due :
    (∀ st, arrayStop (beginRun d x) x = some st →
      kLoop f blk no runs d = settle (endRun (stopWith (beginRun d x) x (arrayJob x) st) x)) ∧
    (arrayStop (beginRun d x) x = none →
      let r := residueLoop (beginRun d x) x (d.physOf x.job blk) (shapeOf pl.shape) runs
      (r.2 = true → kLoop f blk no runs d = settle (retireBlock r.1 (d.physOf x.job blk) 1)) ∧
      (r.2 = false → ∀ y, (arrayLoop r.1 x pl t).flight f = some y →
        kLoop f blk no runs d = settle (endRun (arrayClose (arrayLoop r.1 x pl t) y) y))) := by
  obtain ⟨ts, hts⟩ := List.head?_eq_some_iff.1 h.next
  have hgo : ¬ ((!onArray x || !canRun d x x.opcode || pl.loopNo t != no) = true) := by simp [h.array, h.can, h.number]
  unfold kLoop
  rw [h.flight]
  dsimp only
  rw [h.plan]
  dsimp only
  rw [hts]
  dsimp only
  rw [if_neg hgo]
  refine ⟨fun st hs => by rw [hs], fun hs => ⟨fun hr => ?_, fun hr y hy => ?_⟩⟩
  · rw [hs]; exact if_pos hr
  · rw [hs]
    refine (if_neg (by rw [hr]; decide)).trans ?_
    rw [hy]

end

theorem exec_kLoopRun (f blk no : Nat) (runs : List (List Nat)) (s : State) :
    exec (.kLoopRun f blk no runs) s = .next { s with dev := kLoop f blk no runs s.dev } := rfl

/-- Settles O11: the equations of `kLoop`, and the outcome of one loop. -/
theorem kLoopRunsOneTile : Obligations.KLoopRunsOneTile := by
  unfold Obligations.KLoopRunsOneTile
  refine ⟨?runs, fun s f blk no runs => ⟨fun x pl t hmay => ?due, fun hno => ?idle⟩⟩
  case runs =>
    intro s f blk no runs x pl t ts hx hpl hnext harray hcan hstop hno hpass d1
    have hdue : s.dev.LoopDue f blk no x pl t := ⟨hx, hpl, by rw [hnext]; rfl, harray, hcan, hno⟩
    have hid : x.id = f := Dev.flight_id hx
    have hblk : pl.blk = blk := by simpa using List.find?_some hpl
    have hloops : s.dev.HasLoops x x.tiles := ⟨x, by rw [hid, hx], rfl, rfl⟩
    obtain ⟨y, hy, hyd, htiles⟩ := arrayLoop_outcome hloops.beginRun pl t
    rw [hid] at hy
    rw [hblk, hno] at htiles
    have hrun := ((kLoop_due runs hdue).2 hstop).2
    rw [residueLoop_pass _ _ _ _ hpass] at hrun
    exact ⟨y, hy, hyd, htiles, by rw [exec_kLoopRun, hrun rfl y hy]⟩
  case due =>
    obtain ⟨hx, hpl, hnext, harray, hcan, hno⟩ := hmay
    obtain ⟨hstopped, hgo⟩ := kLoop_due runs ⟨hx, hpl, hnext, harray, hcan, hno⟩
    refine ⟨fun st hs => ?_, fun hs hr => ?_, fun hs hr y hy => ?_⟩
    · rw [exec_kLoopRun, hstopped st hs]
    · rw [exec_kLoopRun, (hgo hs).1 hr]
    · rw [exec_kLoopRun, (hgo hs).2 hr y hy]
  case idle =>
    rw [exec_kLoopRun, kLoop_idle runs]
    rintro ⟨x, pl, t, h⟩
    exact hno ⟨x, pl, t, h.flight, h.plan, h.next, h.array, h.can, h.number⟩

end Sys2Proof.Machine
end

section
/-! A switch to the spare column (R100, R101): what a block's accumulators show before and after it. -/

namespace Sys2Proof.Safety

theorem Told.same_mem {d e : Machine.Dev} (h : Told d e) : e.mem = d.mem := by rw [h.rest]

end Sys2Proof.Safety

namespace Sys2Proof.Machine

open Sys2Proof.Safety Sys2Proof.Laws

/-- Copies the entry of a slot and row from physical column `c` of block `b` to the spare column. -/
def Dev.copyToSpare (b c : Nat) (d : Dev) (p : Nat × Nat) : Dev :=
  d.setMem (fun m => { m with acc := SMap.put 0 m.acc (accKey b p.1 p.2 64) (SMap.get 0 m.acc (accKey b p.1 p.2 c)) })

/-- Every slot and row of a block. -/
def accRows : List (Nat × Nat) := (List.range 128).flatMap (fun s => (List.range 64).map (fun r => (s, r)))

theorem mem_accRows {p : Nat × Nat} : p ∈ accRows ↔ p.1 < 128 ∧ p.2 < 64 := by
  obtain ⟨s, r⟩ := p
  simp [accRows]

/-- After the copy of some slots and rows the spare column shows there what column `c` shows; every other entry stays. -/
theorem Dev.forEach_copyToSpare_acc {b c : Nat} (hc : c < 64) {l : List (Nat × Nat)} (hl : ∀ p ∈ l, p.1 < 128 ∧ p.2 < 64)
    {b' slot row col : Nat} (hs : slot < 128) (hr : row < 64) (hcol : col < 65) (d : Dev) :
    SMap.get 0 (d.forEach l (Dev.copyToSpare b c)).mem.acc (accKey b' slot row col) =
      SMap.get 0 d.mem.acc (accKey b' slot row (if b' = b ∧ col = 64 ∧ (slot, row) ∈ l then c else col)) := by
  induction l generalizing d with
  | nil => simp
  | cons p l ih =>
    obtain ⟨hp, hl⟩ := List.forall_mem_cons.1 hl
    have hcopy (k : Nat) (hk : k < 65) : SMap.get 0 (d.copyToSpare b c p).mem.acc (accKey b' slot row k) =
        SMap.get 0 d.mem.acc (accKey b' slot row (if b' = b ∧ k = 64 ∧ (slot, row) = p then c else k)) := by
      unfold Dev.copyToSpare
      dsimp only [Dev.setMem]
      split
      · next h =>
        obtain ⟨rfl, rfl, rfl⟩ := h
        exact SMap.get_put_self ..
      · next h =>
        refine SMap.get_put_ne _ _ _ fun he => h ?_
        obtain ⟨hb, h1, h2, h3⟩ := accKey_inj hs hp.1 hr hp.2 hk (by omega) he
        exact ⟨hb, h3, Prod.ext h1 h2⟩
    rw [Dev.forEach_cons, ih hl]
    by_cases hspare : b' = b ∧ col = 64
    · obtain ⟨rfl, rfl⟩ := hspare
      by_cases hmem : (slot, row) ∈ l
      · rw [if_pos ⟨rfl, rfl, hmem⟩, if_pos ⟨rfl, rfl, List.mem_cons_of_mem _ hmem⟩, hcopy c (by omega), if_neg (by omega)]
      · rw [if_neg (by simp [hmem]), hcopy 64 hcol]
        simp [hmem]
    · rw [if_neg (by tauto), if_neg (by tauto), hcopy col hcol, if_neg (by tauto)]

/-- Telling the outside is no write of a block's column map. -/
theorem tellKey_columnMap (b : Nat) : tellKey (O.SPARE_COLUMN_MAP b) = false := by
  simp [tellKey, O.SPARE_COLUMN_MAP, O.NOTIFY_SENT, O.NOTIFY_DROPPED, O.UNREACHABLE_DROPS, O.HOP_DROPS, O.NEWEST_SEQ, O.RECORDS_LOST,
    O.FREEZE_OVERFLOW, O.ALERT_CAUSE, O.RECORDS_BY_SEVERITY]
  omega

theorem columnMap_inj {b b' : Nat} (h : O.SPARE_COLUMN_MAP b = O.SPARE_COLUMN_MAP b') : b = b' := by
  unfold O.SPARE_COLUMN_MAP at h; omega

theorem columnMap_ne_switches (b : Nat) : O.SPARE_COLUMN_MAP b ≠ O.COLUMN_SWITCHES := by
  unfold O.SPARE_COLUMN_MAP O.COLUMN_SWITCHES; omega

section
variable (d : Dev) (x : Flight) (b c : Nat) (fourth : Bool)

/-- The map names column `c` of block `b`, and the switch is counted. -/
def Dev.columnMapped : Dev := (d.dset (O.SPARE_COLUMN_MAP b) c).bump O.COLUMN_SWITCHES

theorem Dev.columnMapped_acc : (d.columnMapped b c).mem.acc = d.mem.acc := rfl

theorem Dev.columnMapped_map (b' : Nat) :
    (d.columnMapped b c).dget (O.SPARE_COLUMN_MAP b') = if b' = b then c else d.dget (O.SPARE_COLUMN_MAP b') := by
  rw [Dev.columnMapped, Dev.bump, Dev.dget_bumpN_ne _ _ (columnMap_ne_switches b')]
  split
  · next h => rw [h, Dev.dget_dset_self]
  · next h => rw [Dev.dget_dset_ne _ _ (fun he => h (columnMap_inj he))]

theorem Dev.columnMapped_switches : (d.columnMapped b c).dget O.COLUMN_SWITCHES =
    Nat.min (d.dget O.COLUMN_SWITCHES + 1) (dictMax O.COLUMN_SWITCHES) := by
  rw [Dev.columnMapped, Dev.bump, Dev.dget_bumpN_self, Dev.dget_dset_ne _ _ (columnMap_ne_switches b).symm]

/-- A switch copies the column, rewrites the map, counts, and reports block and column. -/
theorem columnSwitch_eq : columnSwitch d x b c fourth =
    ((d.forEach accRows (Dev.copyToSpare b c)).columnMapped b c).eventJ 0x0102 2 0 (b + 256 * c) x.job x.step
      [BitVec.ofNat 8 (bool01 fourth)] := by
  unfold columnSwitch Dev.columnMapped accRows Dev.copyToSpare
  rfl

theorem columnSwitch_told :
    Told ((d.forEach accRows (Dev.copyToSpare b c)).columnMapped b c) (columnSwitch d x b c fourth) := by
  rw [columnSwitch_eq]
  exact told_eventJ _ _ _ _ _ _ _ (by decide)

theorem Dev.copyToSpare_dget (k : Nat) : (d.forEach accRows (Dev.copyToSpare b c)).dget k = d.dget k :=
  Dev.forEach_keeps (fun d => d.dget k) (Dev.copyToSpare b c) (fun _ _ => rfl) accRows d

theorem columnSwitch_map (b' : Nat) : (columnSwitch d x b c fourth).dget (O.SPARE_COLUMN_MAP b') =
    if b' = b then c else d.dget (O.SPARE_COLUMN_MAP b') := by
  rw [(columnSwitch_told d x b c fourth).keys _ (tellKey_columnMap b'), Dev.columnMapped_map, Dev.copyToSpare_dget]

theorem columnSwitch_switches : (columnSwitch d x b c fourth).dget O.COLUMN_SWITCHES =
    Nat.min (d.dget O.COLUMN_SWITCHES + 1) (dictMax O.COLUMN_SWITCHES) := by
  have htell : tellKey O.COLUMN_SWITCHES = false := by decide
  rw [(columnSwitch_told d x b c fourth).keys _ htell, Dev.columnMapped_switches, Dev.copyToSpare_dget]

theorem columnSwitch_acc : (columnSwitch d x b c fourth).mem.acc = (d.forEach accRows (Dev.copyToSpare b c)).mem.acc := by
  rw [(columnSwitch_told d x b c fourth).same_mem, Dev.columnMapped_acc]

variable {b c} in
/-- Every logical column of every block shows what it showed: the switched one in the spare, the others where they were. -/
theorem columnSwitch_accGet (hunused : d.dget (O.SPARE_COLUMN_MAP b) = 255) (hc : c < 64) {b' slot row col : Nat}
    (hs : slot < 128) (hr : row < 64) (hcol : col < 64) :
    (columnSwitch d x b c fourth).accGet b' slot row col = d.accGet b' slot row col := by
  have hread (k : Nat) (hk : k < 65) := d.forEach_copyToSpare_acc (b := b) (b' := b') hc (fun p => mem_accRows.1) hs hr hk
  have hmem : (slot, row) ∈ accRows := mem_accRows.2 ⟨hs, hr⟩
  unfold Dev.accGet
  rw [columnSwitch_acc, hread _ (Dev.physCol_lt _ _ hcol)]
  congr 2
  unfold Dev.physCol
  rw [columnSwitch_map]
  by_cases hb : b' = b
  · subst hb
    rw [if_pos rfl, hunused, if_neg (show ¬ 255 = col by omega)]
    by_cases hcc : c = col
    · simp [hcc, hmem]
    · rw [if_neg hcc, if_neg (by omega)]
  · simp [hb]

end

/-- Settles O12, from what the copy loop leaves in each physical column and what the map then shows; that the event names the
column is `columnSwitch_eq` (log 94). -/
theorem columnSwitchCarriesValues : Obligations.ColumnSwitchCarriesValues := by
  unfold Obligations.ColumnSwitchCarriesValues
  intro d x b c fourth hunused hc _
  exact ⟨fun b' slot row col _ hs hr hcol => columnSwitch_accGet d x fourth hunused hc hs hr hcol,
    (columnSwitch_map d x b c fourth b).trans (if_pos rfl), columnSwitch_switches d x b c fourth⟩

end Sys2Proof.Machine
end

section
/-! Descriptors that operate on the hub (R96): a step of one runs unless an earlier descriptor holds what it names. -/

namespace Sys2Proof.Machine

section
variable {d : Dev} {f : Nat} {x : Flight} (go : Dev → Dev)

theorem hubCmd_runs (hx : d.flight f = some x) (h : x.started = true ∨ scoreFree d x = true) : hubCmd f go d = go d := by
  simp only [hubCmd, hx]
  exact if_pos (by simpa using h)

theorem hubCmd_waits (hx : d.flight f = some x) (hs : x.started = false) (h : scoreFree d x = false) : hubCmd f go d = d := by
  simp only [hubCmd, hx]
  exact if_neg (by simp [hs, h])

/-- A step that does nothing does nothing, held back or not. -/
theorem hubCmd_idle (h : go d = d) : hubCmd f go d = d := by
  unfold hubCmd
  split
  · rfl
  · exact (if_congr Iff.rfl h rfl).trans (ite_self d)

end

end Sys2Proof.Machine
end

section
/-! Opening and joining a reduce context (R303 to R312, R332). -/

namespace Sys2Proof.Machine

theorem reduceFlight_eq_some_iff {d : Dev} {f : Nat} {x : Flight} :
    reduceFlight d f = some x ↔ d.flight f = some x ∧ x.opcode = 7 ∧ x.live = true ∧ x.started = false := by
  unfold reduceFlight
  split
  · next y hy =>
    rw [hy, Option.some.injEq]
    constructor
    · intro h
      split at h
      · next hc =>
        obtain rfl : y = x := by simpa using h
        exact ⟨rfl, by simpa using hc⟩
      · exact absurd h (by simp)
    · rintro ⟨rfl, hc⟩
      exact if_pos (by simpa using hc)
  · next h => simp [h]

theorem exec_reduceContextOpen (f : Nat) (s : State) :
    exec (.reduceContextOpen f) s = .next { s with dev := hubCmd f (reduceOpen f) s.dev } := rfl

theorem exec_reduce (f : Nat) (s : State) : exec (.reduce f) s = .next { s with dev := hubCmd f (reduceRun f) s.dev } := rfl

section
variable {d : Dev} {f : Nat} {x : Flight} (h : reduceFlight d f = some x)
include h

/-- What both commands do is held back by an earlier descriptor alone. -/
theorem hubCmd_reduce (go : Dev → Dev) : hubCmd f go d = if scoreFree d x = true then go d else d := by
  obtain ⟨hx, -, -, hs⟩ := reduceFlight_eq_some_iff.1 h
  split
  · next hf => exact hubCmd_runs go hx (.inr hf)
  · next hf => exact hubCmd_waits go hx hs (by simpa using hf)

/-- A context that is not open is opened where there is room. -/
theorem reduceOpen_unopened (hc : d.ctxOf (reduceD x.w).tag (reduceD x.w).id (reduceD x.w).epoch = none) :
    reduceOpen f d = if ctxRoom d x.job (reduceD x.w).tiles = true then
      drainRecords (openCtx d x (reduceD x.w)) (reduceD x.w).tag (reduceD x.w).id else d := by
  simp only [reduceOpen, h, hc]
  cases ctxRoom d x.job (reduceD x.w).tiles <;> rfl

theorem reduceOpen_opened {c : RCtx} (hc : d.ctxOf (reduceD x.w).tag (reduceD x.w).id (reduceD x.w).epoch = some c) :
    reduceOpen f d = d := by
  simp only [reduceOpen, h, hc]
  rfl

/-- Without room there is nothing to join. -/
theorem reduceRun_no_room (hc : d.ctxOf (reduceD x.w).tag (reduceD x.w).id (reduceD x.w).epoch = none)
    (hroom : ctxRoom d x.job (reduceD x.w).tiles = false) : reduceRun f d = d := by
  have hopen : reduceOpen f d = d := (reduceOpen_unopened h hc).trans (if_neg (by simp [hroom]))
  simp only [reduceRun, hopen, h, hc]

/-- An open context is joined. -/
theorem reduceRun_opened {c : RCtx} (hc : d.ctxOf (reduceD x.w).tag (reduceD x.w).id (reduceD x.w).epoch = some c) :
    reduceRun f d = joinCtx d x (reduceD x.w) c := by
  simp only [reduceRun, reduceOpen_opened h hc, h, hc]

end

/-- The context a descriptor opens is the one that is then open under its name, with nothing counted or folded. -/
theorem openCtx_ctxOf (d : Dev) (x : Flight) (t : ReduceD) (h : d.ctxOf t.tag t.id t.epoch = none) :
    ∃ c, (openCtx d x t).ctxOf t.tag t.id t.epoch = some c ∧ c.count = 0 ∧ c.fold = List.replicate (64 * t.tiles) 0x80 ∧
      c.flights = [] ∧ c.job = x.job ∧ c.nC = t.nC ∧ c.subtree = t.subtree ∧ c.tiles = t.tiles := by
  unfold Dev.ctxOf at h
  simp only [Dev.ctxOf, openCtx, Dev.setRed, List.find?_append, h, Option.none_or, List.find?_cons, beq_self_eq_true, Bool.and_self]
  exact ⟨_, rfl, rfl, rfl, rfl, rfl, rfl, rfl, rfl⟩

section
variable (d : Dev) (x : Flight) (t : ReduceD) (c : RCtx)

/-- The local rank gradient a descriptor brings, and its context with that counted and its scales folded in (R309). -/
def ReduceD.localRank : LocalRank := ⟨x.id, t.rank, t.srcBlock, t.srcAddr⟩

def RCtx.joined : RCtx :=
  { c with
    locals := c.locals ++ [t.localRank x], count := c.count + 1,
    fold := (c.fold.zip (localScales d x.job t.srcBlock t.srcAddr t.tiles)).map (fun p => foldScale p.1 p.2) }

theorem joinCtx_refused (h : ctxAgrees c x t = false ∨ (t.isLocal = true ∧ c.subtree ≤ c.count)) :
    joinCtx d x t c = d.finish x.id stField :=
  if_pos (by simpa using h)

variable {x t c} (hagree : ctxAgrees c x t = true)
include hagree

theorem joinCtx_relay (hl : t.isLocal = false) :
    joinCtx d x t c = scaleProgress (d.start x.id) { c with relays := c.relays ++ [x.id] } := by
  rw [joinCtx, if_neg (by simp [hagree, hl]), if_pos (by simp [hl])]

variable (hl : t.isLocal = true) (hcount : c.count < c.subtree)
include hl hcount

theorem joinCtx_bad_scale (hbad : ∃ b ∈ localScales d x.job t.srcBlock t.srcAddr t.tiles, scaleOf b = .bad) :
    joinCtx d x t c = abortCtx (abortEvent (closeFlight ((d.start x.id).addConds x.id [stScale]) x.id)
      { c with relays := x.id :: c.relays } 2) c none := by
  rw [joinCtx, if_neg (by simp [hagree, hl, hcount]), if_neg (by simp [hl])]
  exact if_pos (by simpa using hbad)

/-- With good scales it joins; where SCALE_DOWN has come already its tiles are added at once (R332). -/
theorem joinCtx_local (hgood : ∀ b ∈ localScales d x.job t.srcBlock t.srcAddr t.tiles, scaleOf b ≠ .bad) :
    joinCtx d x t c =
      let p := if c.tb.isSome then addLocal (d.start x.id, c.joined d x t) (t.localRank x) else (d.start x.id, c.joined d x t)
      scaleProgress p.1 p.2 := by
  rw [joinCtx, if_neg (by simp [hagree, hl, hcount]), if_neg (by simp [hl])]
  exact if_neg (by simpa using hgood)

end

/-- Settles O20: the equations of `reduceOpen` and `joinCtx`, behind the wait for an earlier descriptor (log 53). -/
theorem reduceDescriptorsJoin : Obligations.ReduceDescriptorsJoin := by
  unfold Obligations.ReduceDescriptorsJoin
  refine ⟨?opens, ?held, ?joins⟩
  case opens =>
    intro s f x hx hfree t hc
    refine ⟨fun hroom => ⟨?_, openCtx_ctxOf _ _ _ hc⟩, fun hroom => ⟨?_, ?_⟩⟩
    · rw [exec_reduceContextOpen, hubCmd_reduce hx, if_pos hfree, reduceOpen_unopened hx hc, if_pos hroom]
    · rw [exec_reduceContextOpen, hubCmd_reduce hx, if_pos hfree, reduceOpen_unopened hx hc, if_neg (Bool.eq_false_iff.1 hroom)]
    · rw [exec_reduce, hubCmd_reduce hx, if_pos hfree, reduceRun_no_room hx hc hroom]
  case held =>
    intro s f x hx hheld
    have hwait : ¬ scoreFree s.dev x = true := by simp [hheld]
    refine ⟨?_, ?_⟩
    · rw [exec_reduceContextOpen, hubCmd_reduce hx, if_neg hwait]
    · rw [exec_reduce, hubCmd_reduce hx, if_neg hwait]
  case joins =>
    intro s f x c hx hfree t l hc
    rw [exec_reduce, hubCmd_reduce hx, if_pos hfree, reduceRun_opened hx hc]
    refine ⟨fun h => ?_, fun hagree hl => ?_, fun hagree hl hcount => ⟨fun hgood htb => ?_, fun hgood htb => ?_, fun hbad => ?_⟩⟩
    · rw [joinCtx_refused _ _ _ _ h]
    · rw [joinCtx_relay _ hagree hl]
    · rw [joinCtx_local _ hagree hl hcount hgood, if_neg (by simp [htb])]; rfl
    · rw [joinCtx_local _ hagree hl hcount hgood, if_pos (Option.isSome_iff_ne_none.2 htb)]; rfl
    · rw [joinCtx_bad_scale _ hagree hl hcount hbad]

end Sys2Proof.Machine
end

section
/-! The compute commands (R89, R110, R112, R154, R173, R205): each runs a descriptor that may run, and is idle for any other. -/

namespace Sys2Proof.Machine

section
variable {d : Dev} {f opc : Nat} {ok : Flight → Bool} (go : Dev → Flight → Dev)

/-- A descriptor that may run and is one of the command's begins, runs and ends. -/
theorem runCmd_runs {x : Flight} (hx : d.flight f = some x) (hcan : canRun d x opc = true) (hok : ok x = true) :
    runCmd opc f ok go d = settle (endRun (go (beginRun d x) { x with started := true }) x) := by
  simp only [runCmd, hx]
  exact if_pos (by simp [hcan, hok])

theorem runCmd_idle (h : ∀ x, d.flight f = some x → canRun d x opc = true → ok x = false) : runCmd opc f ok go d = d := by
  unfold runCmd
  split
  · rfl
  · next x hx =>
    refine if_neg fun hgo => ?_
    obtain ⟨hcan, hok⟩ := Bool.and_eq_true_iff.1 hgo
    exact Bool.false_ne_true ((h x hx hcan).symm.trans hok)

end

section
variable (f : Nat) (s : State)

theorem exec_mma : exec (.mma f) s = .next { s with dev := runCmd 1 f (fun _ => true) mmaRun s.dev } := rfl

theorem exec_elem (parity : Option Nat) :
    exec (.elem f parity) s = .next { s with dev := runCmd 2 f (fun x => !bit x.w 80) (elemGo parity) s.dev } := rfl

theorem exec_elemLoad : exec (.elemLoad f) s = .next { s with dev := runCmd 2 f (fun x => bit x.w 80) elemLoadRun s.dev } := rfl

theorem exec_conv : exec (.conv f) s = .next { s with dev := runCmd 3 f (fun _ => true) convRun s.dev } := rfl

theorem exec_scan : exec (.scan f) s = .next { s with dev := runCmd 4 f (fun _ => true) scanRun s.dev } := rfl

theorem exec_attend (run : AttendRun) :
    exec (.attend run) s = .next { s with dev := runCmd 5 run.f (fun _ => true) (attGo run) s.dev } := rfl

end

/-- A parity error beyond the 32 words of a program meets no fetch. -/
theorem elemGo_beyond {w : Nat} (h : 32 ≤ w) (d : Dev) (x : Flight) : elemGo (some w) d x = elemRun d x := if_neg (by omega)

theorem elemGo_parity {w : Nat} (h : w < 32) (d : Dev) (x : Flight) :
    elemGo (some w) d x = parityError d x x.target (elemD x.w).program := if_pos h

/-- Settles O9: each command is `runCmd` with the descriptor's own rules. -/
theorem computeCommandsRun : Obligations.ComputeCommandsRun := by
  unfold Obligations.ComputeCommandsRun
  refine ⟨?runs, ?idle⟩
  case runs =>
    intro s f x hx go d0 x1
    refine ⟨fun hcan => ?mma, fun hcan hb => ?elem, fun w hw hcan hb => ?parity, fun w hw hcan hb => ?beyond,
      fun hcan hb => ?load, fun hcan => ?conv, fun hcan => ?scan, fun run hrun hcan => ?attend⟩
    case mma => rw [exec_mma, runCmd_runs _ hx hcan rfl]
    case elem => rw [exec_elem, runCmd_runs _ hx hcan (by simp [hb])]; rfl
    case parity => rw [exec_elem, runCmd_runs _ hx hcan (by simp [hb]), elemGo_parity hw]; rfl
    case beyond => rw [exec_elem, runCmd_runs _ hx hcan (by simp [hb]), elemGo_beyond hw]
    case load => rw [exec_elemLoad, runCmd_runs _ hx hcan hb]
    case conv => rw [exec_conv, runCmd_runs _ hx hcan rfl]
    case scan => rw [exec_scan, runCmd_runs _ hx hcan rfl]
    case attend => rw [exec_attend, hrun, runCmd_runs _ hx hcan rfl]; rfl
  case idle =>
    intro s f opc image i hi h
    have hplain (himage : image = none) (go : Dev → Flight → Dev) : runCmd opc f (fun _ => true) go s.dev = s.dev := by
      refine runCmd_idle go fun x hx hcan => ?_
      obtain ⟨b, hb, -⟩ := h x hx hcan
      exact absurd (himage.symm.trans hb) (by simp)
    have hbit {b : Bool} (himage : image = some b) (x : Flight) (hx : s.dev.flight f = some x) (hcan : canRun s.dev x opc = true) :
        bit x.w 80 = !b := by
      obtain ⟨b', hb', hne⟩ := h x hx hcan
      obtain rfl : b = b' := Option.some.inj (himage.symm.trans hb')
      exact Bool.eq_not.2 hne
    simp only [List.mem_cons, List.not_mem_nil, or_false] at hi
    rcases hi with (⟨rfl, rfl, rfl⟩ | ⟨rfl, rfl, rfl⟩ | ⟨rfl, rfl, rfl⟩ | ⟨rfl, rfl, rfl⟩ | ⟨rfl, rfl, rfl⟩) |
      ⟨w, rfl, rfl, rfl⟩ | ⟨run, rfl, rfl, rfl, rfl⟩
    · rw [exec_mma, hplain rfl]
    · rw [exec_elem, runCmd_idle _ fun x hx hcan => by simp [hbit rfl x hx hcan]]
    · rw [exec_elemLoad, runCmd_idle _ fun x hx hcan => by simp [hbit rfl x hx hcan]]
    · rw [exec_conv, hplain rfl]
    · rw [exec_scan, hplain rfl]
    · rw [exec_elem, runCmd_idle _ fun x hx hcan => by simp [hbit rfl x hx hcan]]
    · rw [exec_attend, hplain rfl]

end Sys2Proof.Machine
end

section
/-! The group table and its counts (R320, R324): what a write to one group reads as, and that it is all of the module that
changes. -/

namespace Sys2Proof.Machine

theorem Dev.group_setGroup_self (d : Dev) (g : Nat) (v : Group) : (d.setGroup g v).group g = v := SMap.get_put_self ..

theorem Dev.group_setGroup_ne (d : Dev) {g h : Nat} (v : Group) (hne : h ≠ g) : (d.setGroup g v).group h = d.group h :=
  SMap.get_put_ne _ _ _ hne

theorem Dev.count_setGroup (d : Dev) (g : Nat) (v : Group) (h st : Nat) : (d.setGroup g v).count h st = d.count h st := rfl

theorem Dev.group_setCounts (d : Dev) (g v h : Nat) : (d.setCounts g v).group h = d.group h :=
  Dev.forEach_keeps (fun d => d.group h) (fun d s => d.setCount g s v) (fun _ _ => rfl) (List.range 12) d

/-- Each of the twelve stacks' counts of the group takes the value; other groups keep theirs. -/
theorem Dev.count_setCounts (d : Dev) (g v h : Nat) {st : Nat} (hst : st < 12) :
    (d.setCounts g v).count h st = if h = g then v else d.count h st := by
  have hloop (l : List Nat) (hl : ∀ k ∈ l, k < 12) (d : Dev) :
      (d.forEach l (fun d k => d.setCount g k v)).count h st = if h = g ∧ st ∈ l then v else d.count h st := by
    induction l generalizing d with
    | nil => simp
    | cons k l ih =>
      obtain ⟨hk, hl⟩ := List.forall_mem_cons.1 hl
      rw [Dev.forEach_cons, ih hl]
      by_cases hnow : h = g ∧ st = k
      · obtain ⟨rfl, rfl⟩ := hnow
        rw [show (d.setCount h st v).count h st = v from SMap.get_put_self ..]
        simp
      · have hkey : h * 12 + st ≠ g * 12 + k := by omega
        rw [show (d.setCount g k v).count h st = d.count h st from SMap.get_put_ne _ _ _ hkey]
        exact if_congr (by simp only [List.mem_cons]; tauto) rfl rfl
  rw [Dev.setCounts, hloop _ (fun k hk => List.mem_range.1 hk)]
  exact if_congr (by simp [hst]) rfl rfl

theorem Dev.setCounts_frame (d : Dev) (g v : Nat) : d.setCounts g v = { d with red := (d.setCounts g v).red } := by
  have hloop (l : List Nat) (d : Dev) :
      d.forEach l (fun d k => d.setCount g k v) = { d with red := (d.forEach l (fun d k => d.setCount g k v)).red } := by
    induction l generalizing d with
    | nil => rfl
    | cons k l ih => rw [Dev.forEach_cons, ih]; rfl
  exact hloop _ d

theorem Dev.setCounts_sched (d : Dev) (g v : Nat) : (d.setCounts g v).sched = d.sched := by rw [Dev.setCounts_frame]

theorem Dev.setCounts_mem (d : Dev) (g v : Nat) : (d.setCounts g v).mem = d.mem := by rw [Dev.setCounts_frame]

theorem Dev.setCounts_dict (d : Dev) (g v : Nat) : (d.setCounts g v).dict = d.dict := by rw [Dev.setCounts_frame]

/-- GROUP_STEP_SET's effect is one of the reduction unit's tables (R326). -/
theorem setSteps_frame (d : Dev) (g v : Nat) : setSteps d g v = { d with red := (setSteps d g v).red } := by
  rw [setSteps, Dev.setCounts_frame]; rfl

end Sys2Proof.Machine
end

section
/-! UPDATE_CONFIG and GROUP_STEP_SET (R325, R326, R334). -/

namespace Sys2Proof.Machine

theorem updateFlight_eq_some_iff {d : Dev} {f : Nat} {apply : Bool} {x : Flight} :
    updateFlight d f apply = some x ↔ d.flight f = some x ∧ x.opcode = 8 ∧ x.live = true ∧ (updateD x.w).apply = apply := by
  unfold updateFlight
  split
  · next y hy =>
    rw [hy, Option.some.injEq]
    constructor
    · intro h
      split at h
      · next hc =>
        obtain rfl : y = x := by simpa using h
        exact ⟨rfl, hc⟩
      · exact absurd h (by simp)
    · rintro ⟨rfl, hc⟩
      exact if_pos hc
  · next h => simp [h]

theorem Flight.live_undecided {x : Flight} (h : x.live = true) : x.done = none := by
  simp [Flight.live] at h; exact h.2

theorem exec_updateConfig (f : Nat) (s : State) :
    exec (.updateConfig f) s = .next { s with dev := hubCmd f (updateConfig f) s.dev } := rfl

theorem exec_groupStepSet (j v : Nat) (s : State) : exec (.groupStepSet j v) s = .next { s with dev := groupStepSet j v s.dev } := rfl

/-- An APPLY of the group is in flight. -/
def Dev.groupHeld (d : Dev) (g : Nat) : Bool := d.red.applies.any (fun a => a.group == g && !a.finished)

/-- The module with a CONFIG's image as the group's entry and every count 0. -/
def Dev.configured (d : Dev) (x : Flight) : Dev :=
  ((d.setGroup (updateD x.w).group (configImage d x)).setCounts (updateD x.w).group 0).forgetFrozen x.job (updateD x.w).group

theorem Dev.forgetFrozen_flight (d : Dev) (j g f : Nat) : (d.forgetFrozen j g).flight f = d.flight f := rfl

theorem updateConfig_no_flight {d : Dev} {f : Nat} (h : updateFlight d f false = none) : updateConfig f d = d := by
  simp only [updateConfig, h]

section
variable {d : Dev} {f : Nat} {x : Flight} (h : updateFlight d f false = some x)
include h

theorem updateConfig_held (hheld : d.groupHeld (updateD x.w).group = true) : updateConfig f d = d := by
  simp only [updateConfig, h]
  exact if_pos hheld

theorem updateConfig_free (hheld : d.groupHeld (updateD x.w).group = false) :
    updateConfig f d = if configOk d x = true then ((d.configured x).start f).finish f stOk else d.finish f stField := by
  simp only [updateConfig, h]
  exact if_neg (by rw [← Dev.groupHeld, hheld]; simp)

end

section
variable (d : Dev) (x : Flight)

theorem Dev.configured_red : (d.configured x).red =
    ((d.setGroup (updateD x.w).group (configImage d x)).setCounts (updateD x.w).group 0).red := rfl

theorem Dev.configured_group (h : Nat) :
    (d.configured x).group h = if h = (updateD x.w).group then configImage d x else d.group h := by
  rw [Dev.group, Dev.configured_red, ← Dev.group, Dev.group_setCounts]
  split
  · next he => rw [he, Dev.group_setGroup_self]
  · next hne => exact d.group_setGroup_ne _ hne

theorem Dev.configured_count (h : Nat) {st : Nat} (hst : st < 12) :
    (d.configured x).count h st = if h = (updateD x.w).group then 0 else d.count h st := by
  rw [Dev.count, Dev.configured_red, ← Dev.count, Dev.count_setCounts _ _ _ _ hst, Dev.count_setGroup]

theorem Dev.configured_flight (f : Nat) : (d.configured x).flight f = d.flight f := by
  rw [Dev.configured, Dev.forgetFrozen_flight, Dev.flight_congr (Dev.setCounts_sched ..), Dev.flight_congr (Dev.setGroup_sched ..)]

theorem Dev.configured_mem_dict : (d.configured x).mem = d.mem ∧ (d.configured x).dict = d.dict := by
  rw [Dev.configured, Dev.forgetFrozen, Dev.modJob_mem, Dev.modJob_dict, Dev.setCounts_mem, Dev.setCounts_dict]
  exact ⟨rfl, rfl⟩

end

/-- What the group tables read as follows from the reduction unit alone. -/
theorem Dev.group_congr {d e : Dev} (h : e.red = d.red) (g : Nat) : e.group g = d.group g := by rw [Dev.group, h]; rfl

theorem Dev.count_congr {d e : Dev} (h : e.red = d.red) (g st : Nat) : e.count g st = d.count g st := by rw [Dev.count, h]; rfl

theorem Dev.start_mem_dict (d : Dev) (f : Nat) : (d.start f).mem = d.mem ∧ (d.start f).dict = d.dict := by
  unfold Dev.start; split <;> exact ⟨rfl, rfl⟩

/-- A descriptor started and finished carries its status. -/
theorem Dev.start_finish_flight {d : Dev} {f : Nat} {x : Flight} (st : Nat) (hx : d.flight f = some x) (hlive : x.live = true) :
    ∃ y, ((d.start f).finish f st).flight f = some y ∧ y.done = some st :=
  ⟨_, Dev.finish_flight st (Dev.start_flight hx) (Flight.live_undecided hlive), rfl⟩

theorem Dev.start_finish_red (d : Dev) (f st : Nat) : ((d.start f).finish f st).red = d.red :=
  (Dev.finish_red _ f st).trans (d.start_red f)

/-- A descriptor without pins, started and finished, leaves memories and dictionary. -/
theorem Dev.start_finish_mem_dict {d : Dev} {f : Nat} {x : Flight} (st : Nat) (hx : d.flight f = some x) (hp : x.pins = []) :
    ((d.start f).finish f st).mem = d.mem ∧ ((d.start f).finish f st).dict = d.dict := by
  have hmem := Dev.finish_keeps Dev.mem (fun _ _ => rfl) (fun _ _ => rfl) st (Dev.start_flight hx) hp
  have hdict := Dev.finish_keeps Dev.dict (fun _ _ => rfl) (fun _ _ => rfl) st (Dev.start_flight hx) hp
  exact ⟨hmem.trans (d.start_mem_dict f).1, hdict.trans (d.start_mem_dict f).2⟩

section
variable {d : Dev} {j : Nat} (v : Nat)

theorem groupStepSet_other (h : ¬ ((d.group (d.dget (O.GROUP_SELECT j))).valid = true ∧ (d.group (d.dget (O.GROUP_SELECT j))).job = j)) :
    groupStepSet j v d = d := if_pos h

variable (hv : (d.group (d.dget (O.GROUP_SELECT j))).valid = true) (hj : (d.group (d.dget (O.GROUP_SELECT j))).job = j)
include hv hj

theorem groupStepSet_own : groupStepSet j v d =
    if groupWriting d (d.dget (O.GROUP_SELECT j)) = true then
      d.setRed (fun r => { r with stepSets := r.stepSets ++ [(d.dget (O.GROUP_SELECT j), v)] })
    else setSteps d (d.dget (O.GROUP_SELECT j)) v := if_neg (not_not.2 ⟨hv, hj⟩)

end

section
variable (d : Dev) (g v : Nat)

theorem setSteps_group (h : Nat) :
    (setSteps d g v).group h = if h = g then { d.group g with inconsistent := false } else d.group h := by
  rw [setSteps, Dev.group_setCounts]
  split
  · next he => rw [he, Dev.group_setGroup_self]
  · next hne => exact d.group_setGroup_ne _ hne

theorem setSteps_count (h : Nat) {st : Nat} (hst : st < 12) :
    (setSteps d g v).count h st = if h = g then v % 2 ^ 32 else d.count h st := by
  rw [setSteps, Dev.count_setCounts _ _ _ _ hst, Dev.count_setGroup]

end

end Sys2Proof.Machine
end

section
/-! UPDATE_APPLY and APPLY_EXECUTE (R96, R260, R325 to R328): the checks of an APPLY, in order. -/

namespace Sys2Proof.Machine

theorem exec_updateApply (f : Nat) (s : State) : exec (.updateApply f) s = .next { s with dev := updateApply f s.dev } := rfl

theorem exec_applyExecute (run : ApplyRun) (s : State) :
    exec (.applyExecute run) s = .next { s with dev := applyExecute run s.dev } := rfl

theorem updateApply_no_flight {d : Dev} {f : Nat} (h : updateFlight d f true = none) : updateApply f d = d := by
  simp only [updateApply, h]

theorem applyExecute_no_flight {d : Dev} {f : Nat} (upTo : Option Nat) (h : updateFlight d f true = none) :
    applyExecute ⟨f, upTo⟩ d = d := by
  simp only [applyExecute, h]

/-- Blocks of its bucket that an APPLY in flight has written. -/
def Dev.blocksWritten (d : Dev) (x : Flight) : Nat := ((d.applyOf x.id).map (·.written)).getD 0

section
variable {d : Dev} {f : Nat} {x : Flight} (h : updateFlight d f true = some x)
include h

theorem updateApply_waits (hw : x.started = true ∨ x.pinsReady d (applyPins x) = false) : updateApply f d = d := by
  simp only [updateApply, h]
  exact if_pos (by simpa using hw)

/-- An unstarted APPLY whose write pins can be granted starts, or is refused where a segment is no longer right. -/
theorem updateApply_ready (hs : x.started = false) (hp : x.pinsReady d (applyPins x) = true) :
    updateApply f d = if applyOk d x = true then
      ((d.grantPins f (applyPins x)).modApply f (fun a => { a with stack := (d.res (updateD x.w).wSeg).home })).start f
    else (endApply d x false).finish f stField := by
  simp only [updateApply, h, hs, hp]
  cases applyOk d x <;> rfl

/-- Before it has started, or before a bucket of its job has committed, an APPLY has nothing to execute. -/
theorem applyExecute_early (upTo : Option Nat) (hw : x.started = false ∨ ∀ c,
    d.ctxOf (updateD x.w).tag (updateD x.w).id (updateD x.w).epoch = some c → c.committed = false ∨ c.job ≠ x.job) :
    applyExecute ⟨f, upTo⟩ d = d := by
  simp only [applyExecute, h]
  rcases hw with hs | hc
  · exact if_pos (by simp [hs])
  · refine (if_congr Iff.rfl rfl ?_).trans (ite_self d)
    split
    · rfl
    · next c hctx => exact if_pos (by simpa using hc c hctx)

theorem applyExecute_committed (upTo : Option Nat) {c : RCtx} (hs : x.started = true)
    (hctx : d.ctxOf (updateD x.w).tag (updateD x.w).id (updateD x.w).epoch = some c) (hc : c.committed = true) (hj : c.job = x.job) :
    applyExecute ⟨f, upTo⟩ d =
      if 0 < d.blocksWritten x then applyBucket d x c (d.blocksWritten x) upTo
      else if c.tiles ≠ (updateD x.w).tiles then closeFlight ((endApply d x false).addConds x.id [stField]) x.id
      else applyChecked d x c upTo := by
  simp only [applyExecute, h, hs, hctx, hc, hj]
  exact (if_neg (by simp)).trans (if_neg (by simp))

end

/-! ### The checks of an APPLY that has written nothing -/

section
variable (d : Dev) (x : Flight) (c : RCtx) (upTo : Option Nat)

/-- The count of the shard that an APPLY updates. -/
def Dev.shardCount : Nat := d.count (updateD x.w).group (d.res (updateD x.w).wSeg).home

theorem applyChecked_frozen (hf : d.frozenFor x (updateD x.w).group = true) : applyChecked d x c upTo =
    closeFlight (endApply ((d.dropCtx c).bump (O.FROZEN_SKIPS x.job)) x false) x.id := if_pos hf

variable (hf : d.frozenFor x (updateD x.w).group = false)
include hf

theorem applyChecked_inconsistent (hi : (d.group (updateD x.w).group).inconsistent = true) :
    applyChecked d x c upTo = applyMismatch d x := by
  rw [applyChecked, if_neg (by simp [hf])]
  exact if_pos hi

variable (hi : (d.group (updateD x.w).group).inconsistent = false)
include hi

/-- Behind a completed close whose advance is pending, the step after the next one waits. -/
theorem applyChecked_behind_close (hn : c.updStep = d.shardCount x + 2)
    (hp : closePending d (updateD x.w).group (d.res (updateD x.w).wSeg).home = true) : applyChecked d x c upTo = d := by
  rw [applyChecked, if_neg (by simp [hf]), if_neg (by simp [hi])]
  exact if_pos ⟨hn, hp⟩

theorem applyChecked_wrong_step (hn : c.updStep ≠ d.shardCount x + 1)
    (hp : ¬ (c.updStep = d.shardCount x + 2 ∧ closePending d (updateD x.w).group (d.res (updateD x.w).wSeg).home = true)) :
    applyChecked d x c upTo =
      (applyMismatch (d.setGroup (updateD x.w).group { d.group (updateD x.w).group with inconsistent := true }) x).eventJ
        0x0701 3 6 0 x.job x.step
        (leBytes 2 (updateD x.w).group ++ leBytes 1 (d.res (updateD x.w).wSeg).home ++ leBytes 4 (d.shardCount x) ++ leBytes 4 c.updStep) := by
  rw [applyChecked, if_neg (by simp [hf]), if_neg (by simp [hi])]
  exact (if_neg hp).trans (if_pos hn)

variable (hn : c.updStep = d.shardCount x + 1)
include hn

/-- The next step: its curves are awaited, then its segments are asked. -/
theorem applyChecked_next : applyChecked d x c upTo =
    if curvesReady d (d.group (updateD x.w).group) = true then
      match applyRefused d (updateD x.w) with
      | some st => closeFlight ((endApply d x false).addConds x.id [st]) x.id
      | none => applyFresh (d.forEach [(d.group (updateD x.w).group).curveSeg, (d.group (updateD x.w).group).bcSeg] Dev.touch) x c upTo
    else d := by
  have hpending : ¬ (c.updStep = d.shardCount x + 2 ∧ closePending d (updateD x.w).group (d.res (updateD x.w).wSeg).home = true) :=
    fun h => by omega
  rw [applyChecked, if_neg (by simp [hf]), if_neg (by simp [hi])]
  refine (if_neg hpending).trans ((if_neg (not_not.2 hn)).trans ?_)
  cases curvesReady d (d.group (updateD x.w).group) <;> rfl

end

section
variable (d : Dev) (x : Flight) (c : RCtx) (upTo : Option Nat)

theorem applyFresh_bad_curve (h : curvesOk d (d.group (updateD x.w).group) = false) :
    applyFresh d x c upTo = closeFlight ((endApply d x false).addConds x.id [stField]) x.id := if_pos (by simp [h])

variable (h : curvesOk d (d.group (updateD x.w).group) = true)
include h

theorem applyFresh_saturated (hs : (∃ m ∈ c.sat, m ≠ 0) ∧ d.setting x 3 = 1) :
    applyFresh d x c upTo = closeFlight ((endApply d x false).addConds x.id [stSat]) x.id := by
  rw [applyFresh, if_neg (by simp [h])]
  exact if_pos (by simpa using hs)

/-- Past the curves and SAT_ABORT, the scale bytes decide. -/
theorem applyFresh_unsaturated (hs : ¬ ((∃ m ∈ c.sat, m ≠ 0) ∧ d.setting x 3 = 1)) : applyFresh d x c upTo =
    if applyScaleBad d (updateD x.w) = true then closeFlight ((endApply d x false).addConds x.id [stScale]) x.id
    else applyBucket d x c 0 upTo := by
  rw [applyFresh, if_neg (by simp [h])]
  exact if_neg (by simpa using hs)

end

/-- Settles O26: the cases of `updateConfig`, `groupStepSet` and `updateApply`, and the checks of an APPLY in order. An APPLY
cut after its first write goes on (log 58), pins are taken at UPDATE_APPLY (log 136), a refused APPLY leaves its bucket (log 54). -/
theorem updateConfigSetsTheGroup : Obligations.UpdateConfigSetsTheGroup := by
  unfold Obligations.UpdateConfigSetsTheGroup
  refine ⟨⟨?no_config, ?config, ?step_set⟩, ?no_apply, ?apply, ?early, ?execute⟩
  case no_config =>
    intro s f h
    rw [exec_updateConfig, hubCmd_idle _ (updateConfig_no_flight h)]
  case config =>
    intro s f x h g held
    obtain ⟨hx, -, hlive, -⟩ := updateFlight_eq_some_iff.1 h
    refine ⟨fun hs hfree => ?_, fun hheld => ?_, fun hrun hheld => ?_⟩
    · rw [exec_updateConfig, hubCmd_waits _ hx hs hfree]
    · rw [exec_updateConfig, hubCmd_idle _ (updateConfig_held h hheld)]
    · have hexec := exec_updateConfig f s
      rw [hubCmd_runs _ hx hrun, updateConfig_free h hheld] at hexec
      refine ⟨fun hok => ?_, fun hok => ?_⟩
      · rw [hexec, if_neg (by simp [hok])]
      · rw [if_pos hok] at hexec
        have hx' : (s.dev.configured x).flight f = some x := (s.dev.configured_flight x f).trans hx
        have hred := Dev.start_finish_red (s.dev.configured x) f stOk
        obtain ⟨y, hy, hdone⟩ := Dev.start_finish_flight stOk hx' hlive
        refine ⟨_, y, hexec, hy, hdone, ?_, fun st hst => ?_, fun k hk => ⟨?_, fun st hst => ?_⟩, fun hp => ?_⟩
        · rw [Dev.group_congr hred, Dev.configured_group, if_pos rfl]
        · rw [Dev.count_congr hred, Dev.configured_count _ _ _ hst, if_pos rfl]
        · rw [Dev.group_congr hred, Dev.configured_group, if_neg hk]
        · rw [Dev.count_congr hred, Dev.configured_count _ _ _ hst, if_neg hk]
        · have hsame := Dev.start_finish_mem_dict stOk hx' hp
          exact ⟨hsame.1.trans (s.dev.configured_mem_dict x).1, hsame.2.trans (s.dev.configured_mem_dict x).2⟩
  case step_set =>
    intro s j v g
    refine ⟨fun h => ?_, fun hv hj => ?_⟩
    · rw [exec_groupStepSet, groupStepSet_other v h]
    · have hexec := exec_groupStepSet j v s
      rw [groupStepSet_own v hv hj] at hexec
      refine ⟨fun hw => by rw [hexec, if_pos hw], fun hw => ?_⟩
      rw [if_neg (by rw [hw]; decide)] at hexec
      refine ⟨_, hexec, setSteps_frame .., ?_, fun st hst => ?_, fun k hk => ⟨?_, fun st hst => ?_⟩⟩
      · rw [setSteps_group, if_pos rfl]
      · rw [setSteps_count _ _ _ _ hst, if_pos rfl]
      · rw [setSteps_group, if_neg hk]
      · rw [setSteps_count _ _ _ _ hst, if_neg hk]
  case no_apply =>
    intro s f h
    refine ⟨?_, fun n => ?_⟩
    · rw [exec_updateApply, updateApply_no_flight h]
    · rw [exec_applyExecute, applyExecute_no_flight n h]
  case apply =>
    intro s f x h t
    refine ⟨fun hw => ?_, fun hs hp hok => ?_, fun hs hp hok => ?_⟩
    · rw [exec_updateApply, updateApply_waits h hw]
    · rw [exec_updateApply, updateApply_ready h hs hp, if_neg (by simp [hok])]
    · rw [exec_updateApply, updateApply_ready h hs hp, if_pos hok]
  case early =>
    intro s f upTo x h t hw
    rw [exec_applyExecute, applyExecute_early h upTo hw]
  case execute =>
    intro s f upTo x c h hs t g hctx hc hj done
    have hexec := exec_applyExecute ⟨f, upTo⟩ s
    rw [applyExecute_committed h upTo hs hctx hc hj] at hexec
    change (0 < s.dev.blocksWritten x → _) ∧ (s.dev.blocksWritten x = 0 → _) ∧ (s.dev.blocksWritten x = 0 → _)
    refine ⟨fun hd => ?_, fun hd ht => ?_, fun hd ht => ?_⟩
    · rw [hexec, if_pos hd]; rfl
    · rw [hexec, if_neg (by omega), if_pos ht]
    rw [if_neg (by omega), if_neg (not_not.2 ht)] at hexec
    intro st n ends frozen
    refine ⟨fun hf => ?_, fun hf hi => ?_, fun hf hi hn hp => ?_, fun hf hi hn hp => ?_, fun hf hi hn => ?_⟩
    · rw [hexec, applyChecked_frozen _ _ _ _ hf]
    · rw [hexec, applyChecked_inconsistent _ _ _ _ hf hi]
    · rw [hexec, applyChecked_behind_close _ _ _ _ hf hi hn hp]
    · rw [hexec, applyChecked_wrong_step _ _ _ _ hf hi hn hp]; rfl
    · rw [applyChecked_next _ _ _ _ hf hi hn] at hexec
      refine ⟨fun hr => ?_, fun e hr he => ?_, fun hr he => ?_⟩
      · rw [hexec, if_neg (by rw [hr]; decide)]
      · rw [if_pos hr, he] at hexec; exact hexec
      · rw [if_pos hr, he] at hexec
        dsimp only at hexec
        refine ⟨fun hk => ?_, fun hk hsat => ?_, fun hk hsat hb => ?_, fun hk hsat hb => ?_⟩
        · rw [applyFresh_bad_curve _ _ _ _ hk] at hexec; exact hexec
        · rw [applyFresh_saturated _ _ _ _ hk hsat] at hexec; exact hexec
        · rw [applyFresh_unsaturated _ _ _ _ hk hsat, if_pos hb] at hexec; exact hexec
        · rw [applyFresh_unsaturated _ _ _ _ hk hsat, if_neg (by rw [hb]; decide)] at hexec; exact hexec

end Sys2Proof.Machine
end

section
/-! `page-edit` (R218 to R220, R433, R436): what each command answers, case by case. -/

namespace Sys2Proof.Machine

/-- The six commands of page-edit accept, each for its OP. -/
theorem exec_editCmd {f k : Nat} {c : Nat × Instr} (hc : c ∈ editCmds f k) (s : State) :
    exec c.2 s = .next { s with dev := hubCmd f (acceptEdit c.1 f k) s.dev } := by
  simp only [editCmds, List.mem_cons, List.not_mem_nil, or_false] at hc
  rcases hc with rfl | rfl | rfl | rfl | rfl | rfl <;> rfl

theorem hubCmd_acceptEdit_not_ready {d : Dev} {f k : Nat} (op : Nat) (h : ∀ x, ¬ EditReady d f k x) :
    hubCmd f (acceptEdit op f k) d = d := by
  unfold hubCmd
  split
  · rfl
  · next x hx =>
    split
    · next hrun =>
      simp only [acceptEdit, hx]
      refine if_pos ?_
      by_contra hgo
      simp only [ne_eq, not_or, not_not, Bool.not_eq_false, not_le, Bool.not_eq_true'] at hgo
      obtain ⟨hop, hlive, hk, hcount, hready⟩ := hgo
      exact h x ⟨hx, hop, hlive, by simpa using hrun, hk, hcount, hready⟩
    · rfl

section
variable (d : Dev) (x : Flight) (k op : Nat)

/-- The list of a page-edit of a stage's queue names a directory that a serving loop owns. -/
def Dev.editsLoopOwned : Prop := x.queue < 4 ∧ ∃ i, i < editCount x ∧ d.loopOwned (fld (listRec d x i) 4 19) = true

/-- A first operation whose command would take its job beyond 4,096 pending ones. -/
def Dev.editsFull : Prop := k = 0 ∧ 4096 < (d.editsOf x.job).length + editCount x

/-- A record that breaks a rule (R433, R436). -/
def Dev.editBroken : Prop :=
  fld (listRec d x k) 0 4 ≠ op ∨ editBitsOk (listRec d x k) = false ∨ editRule d.preview x (editOf d x k) = false ∨
    (d.preview.res (editOf d x k).dir).comp = true

/-- The module with operation `k` pending. -/
def Dev.editTaken : Dev := (d.start x.id).setSrv (fun s => { s with edits := s.edits ++ [editOf d x k] })

/-- The operations of flight `f` take their step. -/
def Edit.timed (f eff : Nat) (p : Edit) : Edit := if p.f = f then { p with eff := eff } else p

/-- The whole command is accepted: its operations take their step and are applied where they are due (R219). -/
def Dev.editsCompleted : Dev :=
  let dirs := ((d.srv.edits.filter (fun e => e.f == x.id) ++ [editOf d x k]).map (·.dir)).dedup
  (((d.editTaken x k).setSrv (fun s => { s with edits := s.edits.map (Edit.timed x.id (editEff (d.editTaken x k) dirs)) })).finish
    x.id stOk).forEach dirs applyDir

end

section
variable {d : Dev} {f k : Nat} {x : Flight} (op : Nat) (h : EditReady d f k x)
include h

theorem editReady_id : x.id = f := Dev.flight_id h.1

theorem hubCmd_editReady (go : Dev → Dev) : hubCmd f go d = go d := by
  obtain ⟨hx, -, -, hrun, -⟩ := h
  exact hubCmd_runs go hx hrun

/-- A ready page-edit passes the checks of its flight, and its list decides. -/
theorem acceptEdit_ready : acceptEdit op f k d =
    if d.refStatus (listRef x) ≠ 0 then editReject (poisonList d x) x 127 stPoison
    else if x.queue < 4 ∧ (List.range (editCount x)).any (fun i => d.loopOwned (fld (listRec d x i) 4 19)) = true then
      editReject d x k stPageLocked
    else if fld (listRec d x k) 0 4 ≠ op ∧ decide (1 ≤ fld (listRec d x k) 0 4 ∧ fld (listRec d x k) 0 4 ≤ 6) = true then d
    else if k = 0 ∧ 4096 < (d.editsOf x.job).length + editCount x then d
    else if fld (listRec d x k) 0 4 ≠ op ∨ (!editBitsOk (listRec d x k)) = true ∨ (!editRule d.preview x (editOf d x k)) = true ∨
        (d.preview.res (editOf d x k).dir).comp = true then
      editReject d x k (editStatus d.preview (editOf d x k))
    else if k + 1 = editCount x then d.editsCompleted x k else d.editTaken x k := by
  obtain ⟨hx, hop, hlive, -, hk, hcount, hready⟩ := id h
  rw [Dev.editsCompleted, Dev.editTaken, editReady_id h]
  simp only [acceptEdit, hx]
  refine if_neg ?_
  simp [hop, hlive, hk, hcount, hready]

theorem acceptEdit_poison (hst : d.refStatus (listRef x) ≠ 0) :
    acceptEdit op f k d = editReject (poisonList d x) x 127 stPoison := by
  rw [acceptEdit_ready op h, if_pos hst]

variable (hst : d.refStatus (listRef x) = 0)
include hst

theorem acceptEdit_locked (ho : d.editsLoopOwned x) : acceptEdit op f k d = editReject d x k stPageLocked := by
  rw [acceptEdit_ready op h, if_neg (not_not.2 hst)]
  exact if_pos (by simpa [Dev.editsLoopOwned] using ho)

variable (ho : ¬ d.editsLoopOwned x)
include ho

/-- A record of another of the six operations waits for its own command. -/
theorem acceptEdit_other (hop : fld (listRec d x k) 0 4 ≠ op) (h1 : 1 ≤ fld (listRec d x k) 0 4) (h6 : fld (listRec d x k) 0 4 ≤ 6) :
    acceptEdit op f k d = d := by
  rw [acceptEdit_ready op h, if_neg (not_not.2 hst), if_neg (show ¬ (x.queue < 4 ∧ _) by simpa [Dev.editsLoopOwned] using ho)]
  exact if_pos ⟨hop, by simp [h1, h6]⟩

/-- A record of the command's own operation, or of none of the six, is judged: room, rules, then it is pending. -/
theorem acceptEdit_own (hop : fld (listRec d x k) 0 4 = op ∨ fld (listRec d x k) 0 4 < 1 ∨ 6 < fld (listRec d x k) 0 4) :
    (d.editsFull x k → acceptEdit op f k d = d) ∧
    (¬ d.editsFull x k → d.editBroken x k op → acceptEdit op f k d = editReject d x k (editStatus d.preview (editOf d x k))) ∧
    (¬ d.editsFull x k → ¬ d.editBroken x k op →
      acceptEdit op f k d = if k + 1 = editCount x then d.editsCompleted x k else d.editTaken x k) := by
  have hmine : ¬ (fld (listRec d x k) 0 4 ≠ op ∧ decide (1 ≤ fld (listRec d x k) 0 4 ∧ fld (listRec d x k) 0 4 ≤ 6) = true) := by
    rw [decide_eq_true_eq]; omega
  rw [acceptEdit_ready op h, if_neg (not_not.2 hst), if_neg (show ¬ (x.queue < 4 ∧ _) by simpa [Dev.editsLoopOwned] using ho),
    if_neg hmine]
  refine ⟨fun hfull => if_pos hfull, fun hfull hbad => ?_, fun hfull hbad => ?_⟩
  · exact (if_neg hfull).trans (if_pos (by simpa [Dev.editBroken] using hbad))
  · exact (if_neg hfull).trans (if_neg (by simpa [Dev.editBroken] using hbad))

end

/-! ### PAGE_EDIT_APPLY (R219, R267) -/

theorem exec_pageEditApply (dir : Nat) (s : State) : exec (.pageEditApply dir) s = .next { s with dev := applyDir s.dev dir } := rfl

theorem applyDir_idle {d : Dev} {dir : Nat} (h : dueEdits d dir = []) : applyDir d dir = d := if_pos h

theorem applyDir_due {d : Dev} {dir : Nat} (h : dueEdits d dir ≠ []) : applyDir d dir =
    applyOps ((d.setSrv (fun s => { s with edits := s.edits.filter (fun e => !(dueEdits d dir).contains e) })).forEach (dueEdits d dir)
      (fun d e => d.markLasting e.job e.step)) dir (dueEdits d dir) := if_neg h

/-- A write pin that a move keeps back keeps every operation back. -/
theorem dueEdits_pinned {d : Dev} {dir : Nat} (h : d.pinFree dir true = false) : dueEdits d dir = [] := if_neg (by simp [h])

theorem dueEdits_all {d : Dev} {dir : Nat} (h : d.pinFree dir true = true)
    (hdue : ∀ e ∈ d.srv.edits.filter (fun e => e.dir == dir), d.editDue e = true) :
    dueEdits d dir = d.srv.edits.filter (fun e => e.dir == dir) :=
  (if_pos h).trans (List.takeWhile_eq_self_iff.2 hdue)

end Sys2Proof.Machine
end

section
/-! `fork` (R233, R237, R240): the reservation at its issue and its acceptance. -/

namespace Sys2Proof.Machine

/-- A reservation is of as many children as were asked for. -/
theorem reserveChildren_length {l : Loop} {parent : Nat} {tails : List Nat} {n : Nat} {d e : Dev} {cs : List Child}
    (h : reserveChildren l parent tails n d = some (e, cs)) : cs.length = n := by
  induction n generalizing d cs with
  | zero =>
    obtain ⟨-, rfl⟩ : d = e ∧ [] = cs := by simpa [reserveChildren] using h
    rfl
  | succ n ih =>
    unfold reserveChildren at h
    split at h
    · exact absurd h (by simp)
    · obtain ⟨⟨e', cs'⟩, hrest, heq⟩ := Option.map_eq_some_iff.1 h
      obtain ⟨rfl, rfl⟩ : e' = e ∧ _ :: cs' = cs := by simpa using heq
      rw [List.length_cons, ih hrest]

theorem reserveFork_no_loop {d : Dev} {x : Flight} (h : forkLoop d x = none) : reserveFork d x = d.finish x.id stField := by
  simp only [reserveFork, h]

section
variable {d : Dev} {x : Flight} {l : Loop} (h : forkLoop d x = some l)
include h

theorem reserveFork_no_room (hn : reserveChildren l (forkD x.w).parent (snapOf d l (forkD x.w).parent).tailCaches (forkD x.w).n d = none) :
    reserveFork d x = d.finish x.id stNoPages := by
  simp only [reserveFork, h, hn]

theorem reserveFork_room {e : Dev} {cs : List Child}
    (hs : reserveChildren l (forkD x.w).parent (snapOf d l (forkD x.w).parent).tailCaches (forkD x.w).n d = some (e, cs)) :
    reserveFork d x = e.modFlight x.id (fun y => { y with
      reserved := cs.map (·.stream), results := cs.flatMap (fun c => c.tails.map (fun t => (c.stream, t.1, t.2))) }) := by
  simp only [reserveFork, h, hs]

end

theorem exec_fork (f : Nat) (s : State) : exec (.fork f) s = .next { s with dev := hubCmd f (acceptFork f) s.dev } := rfl

theorem hubCmd_acceptFork_not_ready {d : Dev} {f : Nat} (h : ∀ x, ¬ ForkReady d f x) : hubCmd f (acceptFork f) d = d := by
  unfold hubCmd
  split
  · rfl
  · next x hx =>
    split
    · next hrun =>
      simp only [acceptFork, hx]
      refine if_pos ?_
      by_contra hgo
      simp only [ne_eq, not_or, not_not, Bool.not_eq_false, Bool.not_eq_true] at hgo
      obtain ⟨hop, hlive, hs⟩ := hgo
      exact h x ⟨hx, hop, hlive, hs, by simpa [hs] using hrun⟩
    · rfl

/-- A ready fork joins its loop's; without the loop it is discarded. -/
theorem hubCmd_acceptFork_ready {d : Dev} {f : Nat} {x : Flight} (h : ForkReady d f x) : hubCmd f (acceptFork f) d =
    if (d.loopOf x.job).isNone = true then d.finish f stDiscard
    else (d.start f).modLoop x.job (fun l => { l with forks := l.forks ++ [f] }) := by
  obtain ⟨hx, hop, hlive, hs, hfree⟩ := h
  rw [hubCmd_runs _ hx (.inr hfree)]
  simp only [acceptFork, hx]
  exact if_neg (by simp [hop, hlive, hs])

/-- Settles O30: the cases of `acceptEdit`, `applyDir`, `reserveFork` and `acceptFork` (log 101). -/
theorem pageEditsAreAccepted : Obligations.PageEditsAreAccepted := by
  unfold Obligations.PageEditsAreAccepted
  refine ⟨⟨?not_ready, ?edit, ?apply⟩, ?no_loop, ?reserve, ?no_fork, ?fork⟩
  case not_ready =>
    intro s f k c hc h
    rw [exec_editCmd hc, hubCmd_acceptEdit_not_ready _ h]
  case edit =>
    intro s f k x c hc h d v e mine owned full bad
    rw [exec_editCmd hc, hubCmd_editReady h]
    refine ⟨fun hst => ?_, fun hst => ⟨fun ho => ?_, fun ho hop h1 h6 => ?_, fun ho hop => ?_⟩⟩
    · rw [acceptEdit_poison _ h hst]
    · rw [acceptEdit_locked _ h hst ho]
    · rw [acceptEdit_other _ h hst ho hop h1 h6]
    · obtain ⟨hwait, hreject, htaken⟩ := acceptEdit_own c.1 h hst ho hop
      refine ⟨fun hfull => by rw [hwait hfull], fun hfull hbad => by rw [hreject hfull hbad], fun hfull hbad => ?_⟩
      rw [htaken hfull hbad, Dev.editsCompleted, Dev.editTaken, editReady_id h]
      refine ⟨fun hk => by rw [if_neg (by omega)], fun hk => by rw [if_pos hk]; rfl⟩
  case apply =>
    intro s dir all es
    refine ⟨fun h => ?_, fun h => ?_, dueEdits_pinned, dueEdits_all⟩
    · rw [exec_pageEditApply, applyDir_idle h]
    · rw [exec_pageEditApply, applyDir_due h]; rfl
  case no_loop => exact fun d x => reserveFork_no_loop
  case reserve =>
    intro d x l h t got
    exact ⟨reserveFork_no_room h, fun e cs hs => ⟨reserveChildren_length hs, reserveFork_room h hs⟩⟩
  case no_fork =>
    intro s f h
    rw [exec_fork, hubCmd_acceptFork_not_ready h]
  case fork =>
    intro s f x h
    rw [exec_fork, hubCmd_acceptFork_ready h]
    refine ⟨fun hn => ?_, fun hn => ?_⟩
    · rw [hn]; rfl
    · rw [if_neg (by simpa using hn)]

end Sys2Proof.Machine
end

section
/-! BLOCK_DOORBELL (R439, R395), DESCRIPTOR_COMPLETE (R409, R410, R435, R520) and STAGE_STEP_START (R148, R149): what each
command answers, case by case. -/

namespace Sys2Proof.Machine

/-! ### BLOCK_DOORBELL -/

theorem exec_blockDoorbell (f lb : Nat) (s : State) : exec (.blockDoorbell f lb) s = .next { s with dev := ringBlock f lb s.dev } := rfl

theorem ringBlock_no_flight {d : Dev} {f lb : Nat} (h : d.flight f = none) : ringBlock f lb d = d := by
  simp only [ringBlock, h]

section
variable {d : Dev} {f lb : Nat} {x : Flight} (hx : d.flight f = some x)
include hx

theorem ringBlock_delivers {b : Nat} (hb : (d.place x.job lb).phys = some b) (hlive : x.live = true)
    (hin : x.blocks.contains lb = true) (hrung : x.rung.contains lb = false) :
    ringBlock f lb d =
      let e := d.modFlight f (fun y => { y with rung := y.rung ++ [lb] })
      settle (if !(d.readyJobs b).contains x.job && (e.readyJobs b).contains x.job then raiseVtime e b x.job else e) := by
  simp only [ringBlock, hx, hb]
  exact if_neg (by simp only [hlive, hin, hrung]; decide)

theorem ringBlock_idle (h : (d.place x.job lb).phys = none ∨ x.live = false ∨ x.blocks.contains lb = false ∨
    x.rung.contains lb = true) : ringBlock f lb d = d := by
  simp only [ringBlock, hx]
  split
  · rfl
  · next b hb =>
    have hrefused : x.live = false ∨ x.blocks.contains lb = false ∨ x.rung.contains lb = true :=
      h.resolve_left (by simp [hb])
    exact if_pos (by simpa [or_assoc] using hrefused)

end

/-! ### DESCRIPTOR_COMPLETE -/

theorem exec_descriptorComplete (f ns : Nat) (s : State) :
    exec (.descriptorComplete f ns) s = .next { s with dev := complete f ns s.dev } := rfl

theorem complete_undecided {d : Dev} {f : Nat} (ns : Nat) (h : ∀ x, d.flight f = some x → x.done = none) :
    complete f ns d = d := by
  unfold complete
  split
  · rfl
  · next x hx => simp only [h x hx]

theorem complete_decided {d : Dev} {f st : Nat} {x : Flight} (ns : Nat) (hx : d.flight f = some x) (hdone : x.done = some st) :
    complete f ns d =
      let d0 := if st = stPoison then discardStep d x.job x.step else d
      let d1 := notePart (if x.stops then d0.stopStep x else d0) x st
      let d2 := if x.laneRange then d1.bump (O.LANE_RANGE_COUNT x.job) else d1
      let d3 := if x.lasting then d2.markLasting x.job x.step else d2
      let d4 := if x.queue < 4 then d3.ringRecord x st else d3
      settle (releaseQueues (stepEnd (d4.dropFlight f) x ns) x.job) := by
  simp only [complete, hx, hdone]

/-! ### STAGE_STEP_START -/

/-- What the stage and its predecessor have finished is forwarded, each stage judged finished at this STAGE_STEP_START
(logs 65, 109). -/
def forwardPair (d : Dev) (j stage : Nat) : Dev :=
  match (d.job j).prevStage stage with
  | some p => forwardAll (forwardAll d j stage) j p.stage
  | none => forwardAll d j stage

theorem exec_stageStepStart (j stage step : Nat) (s : State) :
    exec (.stageStepStart j stage step) s = .next { s with dev := stageStart j stage step s.dev } := rfl

theorem stageStart_no_stage {d : Dev} {j stage : Nat} (step : Nat) (h : (d.job j).stage stage = none) :
    stageStart j stage step d = d := by
  simp only [stageStart, h]

section
variable {d : Dev} {j stage step : Nat} {st : Stage} (hst : (d.job j).stage stage = some st)
include hst

/-- Behind the forwarding, a stage starts a step where it runs none and has its input. -/
theorem stageStart_stage : stageStart j stage step d =
    let e := forwardPair d j stage
    if e.blk.stageStep.any (fun e => e.1 == j && e.2.1 == stage) then e
    else if st.inLen = 0 ∨ e.blk.inputs.contains (j, stage, step) then
      e.setBlk (fun k => { k with stageStep := k.stageStep ++ [(j, stage, step)] })
    else e := by
  simp only [stageStart, hst]
  rfl

theorem stageStart_starts (hfree : (forwardPair d j stage).blk.stageStep.any (fun e => e.1 == j && e.2.1 == stage) = false)
    (hin : st.inLen = 0 ∨ (forwardPair d j stage).blk.inputs.contains (j, stage, step) = true) :
    stageStart j stage step d =
      (forwardPair d j stage).setBlk (fun k => { k with stageStep := k.stageStep ++ [(j, stage, step)] }) := by
  rw [stageStart_stage hst]
  exact (if_neg (by simp [hfree])).trans (if_pos hin)

theorem stageStart_waits (h : (forwardPair d j stage).blk.stageStep.any (fun e => e.1 == j && e.2.1 == stage) = true ∨
    (0 < st.inLen ∧ (forwardPair d j stage).blk.inputs.contains (j, stage, step) = false)) :
    stageStart j stage step d = forwardPair d j stage := by
  rw [stageStart_stage hst]
  rcases h with hruns | ⟨hlen, hmissing⟩
  · exact if_pos hruns
  · have hno : ¬(st.inLen = 0 ∨ (forwardPair d j stage).blk.inputs.contains (j, stage, step) = true) :=
      not_or.2 ⟨hlen.ne', Bool.not_eq_true _ |>.mpr hmissing⟩
    exact (if_congr Iff.rfl rfl (if_neg hno)).trans (ite_self _)

end

section
variable {d : Dev} {j : Nat} (h : ∀ e ∈ d.blk.stageStep, e.1 ≠ j)
include h

theorem forwardAll_no_step (stage : Nat) : forwardAll d j stage = d := by
  have hnone : d.blk.stageStep.filter (fun e => e.1 == j && e.2.1 == stage) = [] :=
    List.filter_eq_nil_iff.2 fun e he => by simp [h e he]
  rw [forwardAll, hnone, Dev.forEach_nil]

theorem forwardPair_no_step (stage : Nat) : forwardPair d j stage = d := by
  unfold forwardPair
  split <;> simp only [forwardAll_no_step h]

end

/-- Settles O14: the cases of `ringBlock`, `complete` and `stageStart`. That a stage's descriptors wait for STAGE_STEP_START is
log 105, when a stage's part of a step stands and what is forwarded log 65, and that it is judged then log 109. -/
theorem queueCommandsComplete : Obligations.QueueCommandsComplete := by
  unfold Obligations.QueueCommandsComplete
  refine ⟨?doorbell, ?complete, ?undecided, ?start, ?absent⟩
  case doorbell =>
    intro s f lb x hx
    rw [exec_blockDoorbell]
    refine ⟨fun b hb hlive hin hrung => ?_, fun h => ?_⟩
    · rw [ringBlock_delivers hx hb hlive hin hrung]
    · rw [ringBlock_idle hx h]
  case complete =>
    intro s f ns st x hx hdone
    rw [exec_descriptorComplete, complete_decided ns hx hdone]
  case undecided =>
    intro s f ns h
    rw [exec_descriptorComplete, complete_undecided ns h]
  case start =>
    intro s j stage step st hst d0 d
    have hd : d = forwardPair s.dev j stage := rfl
    rw [exec_stageStepStart, hd]
    refine ⟨fun hfree hin => ?_, fun h => ?_, fun h => forwardPair_no_step h stage⟩
    · rw [stageStart_starts hst hfree hin]
    · rw [stageStart_waits hst h]
  case absent =>
    intro s f lb j stage step
    refine ⟨fun h => ?_, fun h => ?_⟩
    · rw [exec_blockDoorbell, ringBlock_no_flight h]
    · rw [exec_stageStepStart, stageStart_no_stage step h]

end Sys2Proof.Machine
end

section
/-! The REQ messages that reach this module (R419, R420): which of them are taken in, and what the remote writes and reads of
segments answer, case by case. -/

namespace Sys2Proof.Machine

open Sys2Proof.Laws

/-! ### Messages handed to their sinks -/

section
variable {s : State} {port : Nat} {m : Msg} {vc kind : Nat} (f : Dev → Dev)

theorem delivered_elsewhere (h : m.vc ≠ vc ∨ m.hdr.kind ≠ kind ∨ (port < 16 ∧ s.dev.portUp port = false)) :
    delivered s port m vc kind f = s :=
  if_pos (by simpa using h)

section
variable (hvc : m.vc = vc) (hkind : m.hdr.kind = kind) (hup : port < 16 → s.dev.portUp port = true)
include hvc hkind hup

theorem delivered_here : delivered s port m vc kind f =
    if !layoutOk m then { s with dev := protoFault s.dev port } else { s with dev := f s.dev } :=
  if_neg (by simpa [hvc, hkind] using hup)

theorem delivered_misformed (hl : layoutOk m = false) :
    delivered s port m vc kind f = { s with dev := protoFault s.dev port } := by
  rw [delivered_here f hvc hkind hup, hl]; rfl

end

theorem delivered_handed (h : Handed s.dev port m vc kind) : delivered s port m vc kind f = { s with dev := f s.dev } := by
  obtain ⟨hvc, hkind, hl, hup⟩ := h
  rw [delivered_here f hvc hkind hup, hl]; rfl

end

/-! ### The order among the messages of one source (R420) -/

/-- The REQ commands on a message, each with its KIND (R419). -/
def reqCmds (port : Nat) (m : Msg) : List (Nat × Instr) :=
  [(0x10, .segWrite port m), (0x12, .segRead port m), (0x20, .doorbell port m), (0x30, .mboxWrite port m)]

theorem exec_reqCmd {port : Nat} {m : Msg} {c : Nat × Instr} (hc : c ∈ reqCmds port m) (s : State) :
    exec c.2 s = .next (delivered s port m 0 c.1 (takeReq port m)) := by
  fin_cases hc <;> rfl

/-- The device with a REQ message put behind those that wait. -/
def Dev.holdReq (d : Dev) (port : Nat) (m : Msg) : Dev := d.setStore (fun s => { s with held := s.held ++ [(port, m)] })

theorem takeReq_behind {d : Dev} {port : Nat} {m : Msg} (h : d.store.held.any (fun h => sameSource h.2 m) = true) :
    takeReq port m d = d.holdReq port m := if_pos h

theorem exec_reqCmd_inTurn {port : Nat} {m : Msg} {c : Nat × Instr} (hc : c ∈ reqCmds port m) {s : State}
    (h : InTurn s.dev port m c.1) :
    exec c.2 s = .next { s with dev := (reqTry s.dev m).getD (s.dev.holdReq port m) } := by
  obtain ⟨hd, hfirst⟩ := h
  have htake : takeReq port m s.dev = (reqTry s.dev m).getD (s.dev.holdReq port m) := if_neg (by simp [hfirst])
  rw [exec_reqCmd hc, delivered_handed _ hd, htake]

theorem exec_segWrite_inTurn {s : State} {port : Nat} {m : Msg} (h : InTurn s.dev port m 0x10) :
    exec (.segWrite port m) s = .next { s with dev := (segWriteMsg s.dev m).getD (s.dev.holdReq port m) } := by
  have hkind : m.hdr.kind = 0x10 := h.1.2.1
  have htry : reqTry s.dev m = segWriteMsg s.dev m := by rw [reqTry, hkind]; rfl
  exact (exec_reqCmd_inTurn (c := (0x10, .segWrite port m)) (by simp [reqCmds]) h).trans (by rw [htry])

theorem exec_segRead_inTurn {s : State} {port : Nat} {m : Msg} (h : InTurn s.dev port m 0x12) :
    exec (.segRead port m) s = .next { s with dev := (segReadMsg s.dev m).getD (s.dev.holdReq port m) } := by
  have hkind : m.hdr.kind = 0x12 := h.1.2.1
  have htry : reqTry s.dev m = segReadMsg s.dev m := by rw [reqTry, hkind]; rfl
  exact (exec_reqCmd_inTurn (c := (0x12, .segRead port m)) (by simp [reqCmds]) h).trans (by rw [htry])

/-! ### What a reply, a write and a use leave of the storage -/

theorem segReply_mem_store (d : Dev) (m : Msg) (st : Nat) (data : Bytes) :
    (segReply d m st data).mem = d.mem ∧ (segReply d m st data).store = d.store := by
  unfold segReply
  dsimp only
  rw [(told_sendMsg ..).rest]
  split <;> exact ⟨rfl, rfl⟩

theorem Dev.touch_mem (d : Dev) (e : Nat) : (d.touch e).mem = d.mem := by unfold Dev.touch; split <;> rfl

theorem Dev.touch_tierMem (d : Dev) (e home : Nat) : (d.touch e).tierMem home = d.tierMem home := by
  rw [Dev.tierMem, Dev.touch_mem]; rfl

theorem Dev.touch_res {d : Dev} {e : Nat} (h : (d.res e).st ≠ 0) : (d.touch e).res e = { d.res e with use := true } := by
  rw [Dev.touch, if_neg h]
  exact SMap.get_put_self ..

theorem Dev.setTierMem_tierMem (d : Dev) (home home' : Nat) (m : SMap Byte) :
    (d.setTierMem home m).tierMem home' = if home < 12 ↔ home' < 12 then m else d.tierMem home' := by
  by_cases h : home < 12 <;> by_cases h' : home' < 12 <;> simp [Dev.setTierMem, Dev.tierMem, h, h']

theorem Dev.setTierMem_store (d : Dev) (home : Nat) (m : SMap Byte) : (d.setTierMem home m).store = d.store := by
  unfold Dev.setTierMem; split <;> rfl

section
variable {d : Dev} {e : Nat} (hc : (d.res e).comp = false)
include hc

theorem Dev.segRead_uncompressed (off n : Nat) :
    d.segRead e off n = SMap.readRun 0 (d.tierMem (d.res e).homeNo) (cellKey (d.res e).homeNo (d.res e).frame off) n :=
  if_neg (by simp [hc])

theorem Dev.segWrite_uncompressed (off : Nat) (bs : Bytes) :
    d.segWrite e off bs = d.frameWrite (d.res e).homeNo (d.res e).frame off bs :=
  if_neg (by simp [hc])

theorem Dev.segWrite_tierMem (off home : Nat) (bs : Bytes) : (d.segWrite e off bs).tierMem home =
    if (d.res e).homeNo < 12 ↔ home < 12 then
      SMap.writeRun 0 (d.tierMem (d.res e).homeNo) (cellKey (d.res e).homeNo (d.res e).frame off) bs
    else d.tierMem home := by
  rw [Dev.segWrite_uncompressed hc]
  exact Dev.setTierMem_tierMem ..

theorem Dev.segWrite_res (off k : Nat) (bs : Bytes) : (d.segWrite e off bs).res k = d.res k := by
  rw [Dev.segWrite_uncompressed hc]
  exact congrArg (fun s : Store => SMap.get Res.free s.res k) (Dev.setTierMem_store ..)

end

/-! ### The status of an access (R420) -/

section
variable {d : Dev} {m : Msg} (h0 : (d.res (segOf m)).st ≠ 0)
include h0

theorem segStatus_denied (n : Nat) (write : Bool)
    (h : bit (d.job (d.res (segOf m)).owner).owner 22 = false ∨ ownerIs (d.job (d.res (segOf m)).owner).owner m.hdr = false) :
    segStatus d m n write = stDenied :=
  (if_neg h0).trans (if_pos (by simpa using h))

/-- An access by the owner, in range, of a segment that is not poisoned: a read may go on, and a write is judged by the
segment. -/
theorem segStatus_owner {n : Nat} (write : Bool) (h3 : (d.res (segOf m)).st ≠ 3)
    (hv : bit (d.job (d.res (segOf m)).owner).owner 22 = true)
    (ho : ownerIs (d.job (d.res (segOf m)).owner).owner m.hdr = true)
    (hn : 0 < n) (hlen : segOff m + n ≤ (d.res (segOf m)).len) :
    segStatus d m n write = if write then d.segWriteStatus (segOf m) else stOk := by
  have hrange : ¬ (n = 0 ∨ (d.res (segOf m)).len < segOff m + n) := by omega
  exact (if_neg h0).trans ((if_neg (by simp [hv, ho])).trans ((if_neg hrange).trans (if_neg h3)))

end

theorem Dev.segWriteStatus_plain {d : Dev} {e : Nat} (h3 : (d.res e).st ≠ 3) (hd : d.isDir e = false)
    (hc : (d.res e).comp = false) : d.segWriteStatus e = stOk :=
  (if_neg h3).trans ((if_neg (by simp [hd])).trans (if_neg (by simp [hc])))

/-! ### SEG_WRITE -/

section
variable {d : Dev} {m : Msg} {st : Nat} (hst : segStatus d m (m.body.drop 16).length true = st)
include hst

/-- A write that another rule refuses is answered, unless the refusal lasts only while the segment moves or is being evacuated
(log 111). -/
theorem segWriteMsg_refused (h : st = stDenied ∨ st = stField ∨ st = stPoison ∨
      (st ≠ stOk ∧ ¬((d.res (segOf m)).st = 2 ∨ d.store.evacuating.contains (segOf m) = true))) :
    segWriteMsg d m = some (segReply d m st []) := by
  subst hst
  have hok : segStatus d m (m.body.drop 16).length true ≠ stOk := by
    rcases h with h | h | h | h
    · rw [h]; decide
    · rw [h]; decide
    · rw [h]; decide
    · exact h.1
  exact (if_pos hok).trans (if_neg (by tauto))

theorem segWriteMsg_moving (hok : st ≠ stOk) (hdenied : st ≠ stDenied) (hfield : st ≠ stField) (hpoison : st ≠ stPoison)
    (hmove : (d.res (segOf m)).st = 2 ∨ d.store.evacuating.contains (segOf m) = true) : segWriteMsg d m = none := by
  subst hst
  exact (if_pos hok).trans (if_pos ⟨hdenied, hfield, hpoison, hmove⟩)

theorem segWriteMsg_pinned (hok : st = stOk) (hp : d.pinFree (segOf m) true = false) : segWriteMsg d m = none := by
  subst hst
  exact (if_neg (not_not.2 hok)).trans (if_pos (by simp [hp]))

theorem segWriteMsg_writes (hok : st = stOk) (hp : d.pinFree (segOf m) true = true) : segWriteMsg d m =
    some (segReply ((d.segWrite (segOf m) (segOff m) (m.body.drop 16)).touch (segOf m)) m stOk []) := by
  subst hst
  exact (if_neg (not_not.2 hok)).trans (if_neg (by simp [hp]))

end

/-- What a write of the segment's bytes leaves of the tiers, once it is answered: the bytes at their place, the rest as it was. -/
theorem segWrite_replied_lands {d : Dev} {e : Nat} (h0 : (d.res e).st ≠ 0) (hc : (d.res e).comp = false) (m : Msg) (off : Nat)
    (data : Bytes) :
    let r := d.res e
    let t := segReply ((d.segWrite e off data).touch e) m stOk []
    t.segRead e off data.length = data ∧
    (∀ a, a < cellKey r.homeNo r.frame off ∨ cellKey r.homeNo r.frame off + data.length ≤ a →
      SMap.get 0 (t.tierMem r.homeNo) a = SMap.get 0 (d.tierMem r.homeNo) a) ∧
    t.tierMem (if r.homeNo < 12 then 12 else 0) = d.tierMem (if r.homeNo < 12 then 12 else 0) := by
  intro r t
  obtain ⟨hmem, hstore⟩ := segReply_mem_store ((d.segWrite e off data).touch e) m stOk []
  have htier (home : Nat) : t.tierMem home = (d.segWrite e off data).tierMem home := by
    rw [← (d.segWrite e off data).touch_tierMem e, Dev.tierMem, hmem]; rfl
  have hown : t.tierMem r.homeNo = SMap.writeRun 0 (d.tierMem r.homeNo) (cellKey r.homeNo r.frame off) data := by
    rw [htier, Dev.segWrite_tierMem hc, if_pos Iff.rfl]
  refine ⟨?_, fun a ha => ?_, ?_⟩
  · have hres : t.res e = { r with use := true } := by
      rw [Dev.res, hstore]
      exact (Dev.touch_res (by rwa [Dev.segWrite_res hc])).trans (by rw [Dev.segWrite_res hc])
    have hread : t.segRead e off data.length = SMap.readRun 0 (t.tierMem r.homeNo) (cellKey r.homeNo r.frame off) data.length := by
      rw [Dev.segRead_uncompressed (by rw [hres]; exact hc), hres]; rfl
    rw [hread, hown, SMap.readRun_writeRun_self]
  · rw [hown, SMap.get_writeRun, if_neg (by omega)]
  · rw [htier, Dev.segWrite_tierMem hc, if_neg (by dsimp only [r]; split <;> omega)]

/-! ### SEG_READ -/

section
variable {d : Dev} {m : Msg}

theorem segReadMsg_refused (h : segStatus d m (segCount m) false ≠ stOk) :
    segReadMsg d m = some (segReply d m (segStatus d m (segCount m) false) []) := if_pos h

section
variable (hok : segStatus d m (segCount m) false = stOk)
include hok

theorem segReadMsg_pinned (hp : d.pinFree (segOf m) false = false) : segReadMsg d m = none :=
  (if_neg (not_not.2 hok)).trans (if_pos (by simp [hp]))

theorem segReadMsg_free (hp : d.pinFree (segOf m) false = true) : segReadMsg d m =
    if !d.segOk (segOf m) then some (segReply (poisonSeg d (segOf m) (d.res (segOf m)).frame) m stPoison [])
    else some (segReply (d.touch (segOf m)) m stOk (d.segRead (segOf m) (segOff m) (segCount m))) :=
  (if_neg (not_not.2 hok)).trans (if_neg (by simp [hp]))

end
end

/-- Settles O38: the cases of `delivered`, `takeReq`, `segWriteMsg` and `segReadMsg`. That a write of a segment that moves or is
being evacuated waits is log 111. -/
theorem remoteWritesLandWhereTheySay : Obligations.RemoteWritesLandWhereTheySay := by
  unfold Obligations.RemoteWritesLandWhereTheySay
  refine ⟨fun s port m c hc => ?taken, fun s port m => ?_⟩
  case taken =>
    rw [exec_reqCmd hc]
    refine ⟨fun h => ?_, fun hvc hkind hup hl => ?_, fun h hheld => ?_⟩
    · rw [delivered_elsewhere _ h]
    · rw [delivered_misformed _ hvc hkind hup hl]
    · rw [delivered_handed _ h, takeReq_behind hheld]; rfl
  intro d e r data w other waits
  refine ⟨?write, ?denied, ?writeRefused, ?readRefused, ?read⟩
  case write =>
    intro h h0 h3 hdir hcomp hv ho hn hlen hp
    have hok : segStatus d m data.length true = stOk := by
      rw [segStatus_owner h0 true h3 hv ho hn hlen, if_pos rfl, Dev.segWriteStatus_plain h3 hdir hcomp]
    obtain ⟨hread, hsame, hother⟩ := segWrite_replied_lands h0 hcomp m (segOff m) data
    have hexec : exec (.segWrite port m) s =
        .next { s with dev := segReply ((d.segWrite e (segOff m) data).touch e) m stOk [] } :=
      (exec_segWrite_inTurn h).trans (by rw [segWriteMsg_writes rfl hok hp]; rfl)
    exact ⟨_, _, hexec, rfl, hread, hsame, fun a => congrArg (SMap.get 0 · a) hother⟩
  case denied =>
    intro k hk h h0 hdenied c
    have hst (n : Nat) (write : Bool) : segStatus d m n write = stDenied := segStatus_denied h0 n write hdenied
    have hexec : exec c s = .next { s with dev := segReply d m stDenied [] } := by
      rcases List.mem_pair.1 hk with rfl | rfl
      · exact (exec_segWrite_inTurn h).trans (by rw [segWriteMsg_refused (hst ..) (Or.inl rfl)]; rfl)
      · exact (exec_segRead_inTurn h).trans (by rw [segReadMsg_refused (by rw [hst]; decide), hst]; rfl)
    exact ⟨_, hexec, rfl, (segReply_mem_store ..).1⟩
  case writeRefused =>
    intro h st moving
    rw [exec_segWrite_inTurn h]
    refine ⟨fun hrefused => ?_, fun hwaits => ?_⟩
    · rw [segWriteMsg_refused rfl hrefused]; rfl
    · have hnone : segWriteMsg d m = none := by
        rcases hwaits with ⟨hok, hdenied, hfield, hpoison, hmove⟩ | ⟨hok, hp⟩
        · exact segWriteMsg_moving rfl hok hdenied hfield hpoison hmove
        · exact segWriteMsg_pinned rfl hok hp
      rw [hnone]; rfl
  case readRefused =>
    intro h st
    rw [exec_segRead_inTurn h]
    refine ⟨fun hst => ?_, fun hok hp => ?_, fun hok hp hbad => ?_⟩
    · rw [segReadMsg_refused hst]; rfl
    · rw [segReadMsg_pinned hok hp]; rfl
    · rw [segReadMsg_free hok hp, hbad]; rfl
  case read =>
    intro h h0 h3 hsound hv ho hn hlen hp
    have hok : segStatus d m (segCount m) false = stOk := segStatus_owner h0 false h3 hv ho hn hlen
    have hexec : exec (.segRead port m) s =
        .next { s with dev := segReply (d.touch e) m stOk (d.segRead e (segOff m) (segCount m)) } :=
      (exec_segRead_inTurn h).trans (by rw [segReadMsg_free hok hp, hsound]; rfl)
    exact ⟨_, hexec, (segReply_mem_store ..).1.trans (d.touch_mem e), rfl⟩

end Sys2Proof.Machine
end

section
/-! The vane (R246 to R251): what an answer row writes, case by case, and what a read is answered. -/

namespace Sys2Proof.Machine

/-! ### A write of an entry -/

section
variable (d : Dev) (n : Nat)

@[simp] theorem Dev.vaneAt_modLoop (j : Nat) (f : Loop → Loop) : (d.modLoop j f).vaneAt n = d.vaneAt n := rfl

@[simp] theorem vaneWrite_mem (e : Vane) : (vaneWrite d n e).mem = d.mem := rfl

@[simp] theorem vaneWrite_dict (e : Vane) : (vaneWrite d n e).dict = d.dict := rfl

theorem vaneAt_vaneWrite_self (e : Vane) : (vaneWrite d n e).vaneAt n =
    { e with stale := 0, valid := true, ended := false, seq := (e.seq + 1) % 2 ^ 32 } :=
  Dev.vaneAt_setVane_self ..

theorem vaneAt_vaneWrite_ne {k : Nat} (e : Vane) (h : k ≠ n) : (vaneWrite d n e).vaneAt k = d.vaneAt k :=
  Dev.vaneAt_setVane_ne _ _ h

end

/-! ### Answer rows (R244, R246, R248) -/

/-- The entry an answer row of stream `n` gives to the write. -/
def Dev.answeredVane (d : Dev) (l : Loop) (n : Nat) (row : Bytes) (sat : Bool) : Vane :=
  { d.vaneAt n with
    answer := BitVec.ofNat 384 (ofLe (fitBytes 48 (row.take l.ansBytes))), step := (d.stream n).step, job := (d.stream n).job,
    fallback := l.onFallback, plan := false, sat := sat }

section
variable {d : Dev} {n : Nat} (row : Bytes) (sat : Bool)

theorem vaneAnswer_without_part
    (h : ∀ l, d.loopOf (d.stream n).job = some l → (d.stream n).st = 0 ∨ l.active.contains n = false) :
    vaneAnswer n row sat d = d := by
  unfold vaneAnswer
  dsimp only
  cases hl : d.loopOf (d.stream n).job with
  | none => rfl
  | some l => exact if_pos (by simpa using h l hl)

section
variable {l : Loop} (hl : d.loopOf (d.stream n).job = some l) (hst : (d.stream n).st ≠ 0) (hact : l.active.contains n = true)
include hl hst hact

theorem vaneAnswer_taking_part : vaneAnswer n row sat d =
    if (d.stream n).plan then
      d.modLoop (d.stream n).job (fun l => { l with planners := l.planners.map (fun p => scoreRow p n row) })
    else if l.planners.any (fun p => p.root == n) then d
    else vaneWrite d n (d.answeredVane l n row sat) := by
  unfold vaneAnswer
  dsimp only
  rw [hl]
  exact if_neg (not_or.2 ⟨hst, by rw [hact]; decide⟩)

theorem vaneAnswer_candidate (hp : (d.stream n).plan = true) : vaneAnswer n row sat d =
    d.modLoop (d.stream n).job (fun l => { l with planners := l.planners.map (fun p => scoreRow p n row) }) :=
  (vaneAnswer_taking_part row sat hl hst hact).trans (if_pos hp)

section
variable (hp : (d.stream n).plan = false)
include hp

theorem vaneAnswer_root (hr : l.planners.any (fun p => p.root == n) = true) : vaneAnswer n row sat d = d :=
  (vaneAnswer_taking_part row sat hl hst hact).trans ((if_neg (by simp [hp])).trans (if_pos hr))

theorem vaneAnswer_writes (hr : l.planners.any (fun p => p.root == n) = false) :
    vaneAnswer n row sat d = vaneWrite d n (d.answeredVane l n row sat) :=
  (vaneAnswer_taking_part row sat hl hst hact).trans ((if_neg (by simp [hp])).trans (if_neg (by simp [hr])))

end
end
end

theorem exec_vaneAnswerWrite (n : Nat) (row : Bytes) (sat : Bool) (s : State) :
    exec (.vaneAnswerWrite n row sat) s = .next { s with dev := vaneAnswer n row sat s.dev } := rfl

/-- Settles O36: the cases of `vaneAnswer`. A candidate's row goes to its planner's score and a root's nowhere; both leave every
entry as it was. -/
theorem vaneAnswersAreWritten : Obligations.VaneAnswersAreWritten := by
  unfold Obligations.VaneAnswersAreWritten
  refine ⟨fun s n row sat h => ?_, fun s n row sat l => ?_⟩
  · rw [exec_vaneAnswerWrite, vaneAnswer_without_part row sat h]
  · intro st hl hst hact
    refine ⟨_, exec_vaneAnswerWrite n row sat s, ?_⟩
    cases hp : st.plan with
    | true =>
      rw [vaneAnswer_candidate row sat hl hst hact hp]
      exact ⟨rfl, rfl, fun _ _ => rfl, fun _ => rfl, nofun⟩
    | false =>
      cases hr : l.planners.any (fun p => p.root == n) with
      | true =>
        rw [vaneAnswer_root row sat hl hst hact hp hr]
        exact ⟨rfl, rfl, fun _ _ => rfl, fun _ => rfl, fun _ => nofun⟩
      | false =>
        rw [vaneAnswer_writes row sat hl hst hact hp hr]
        exact ⟨rfl, rfl, fun k hk => vaneAt_vaneWrite_ne _ _ _ hk, fun h => by simp at h,
          fun _ _ => vaneAt_vaneWrite_self ..⟩

/-! ### Reads (R250, R251) -/

/-- The identity stamped on a request lies within a loop's VANE_SCOPE. -/
def Dev.vaneAdmits (d : Dev) (l : Loop) (j : Nat) (h : Hdr) : Prop :=
  (l.scope = 0 ∧ h.sjob = j) ∨ (l.scope = 1 ∧ d.ownId.map idGroup = some (idGroup h.src)) ∨ 2 ≤ l.scope

section
variable {d : Dev} {n : Nat} {h : Hdr}

theorem vaneStatus_free (hst : (d.stream n).st = 0) : vaneStatus d n h = 1 := if_pos hst

section
variable {l : Loop} (hst : (d.stream n).st ≠ 0) (hl : d.loopOf (d.stream n).job = some l)
include hst hl

theorem vaneStatus_admitted (ha : d.vaneAdmits l (d.stream n).job h) : vaneStatus d n h = 0 := by
  refine (if_neg hst).trans (if_pos ?_)
  rw [hl, Option.map_some]
  rcases ha with ⟨hs, hj⟩ | ⟨hs, hg⟩ | hs
  · simp [hs, hj]
  · simp [hs, hg]
  · obtain ⟨k, hk⟩ := Nat.exists_eq_add_of_le' hs
    rw [hk]; rfl

theorem vaneStatus_denied (ha : ¬ d.vaneAdmits l (d.stream n).job h) : vaneStatus d n h = 2 := by
  simp only [Dev.vaneAdmits, not_or, not_and, not_le] at ha
  obtain ⟨hjob, hgroup, hscope⟩ := ha
  refine (if_neg hst).trans (if_neg ?_)
  rw [hl, Option.map_some]
  interval_cases hs : l.scope
  · simpa using hjob rfl
  · simpa using hgroup rfl

end
end

/-- The answer to a VANE_READ, with its status and the entry (R251). -/
def Dev.vaneReply (d : Dev) (m : Msg) (st : Nat) (e : Vane) : Msg :=
  ⟨5, ⟨2, 0, m.hdr.src, m.hdr.srcHost, d.srcId, false, 0, 0, 0⟩,
    leBytes 8 (at' 0 16 (leAt m.body 0 2) + at' 16 16 (leAt m.body 2 2) + at' 32 8 st) ++ leBytes 64 e.word⟩

section
variable (d : Dev) (port : Nat) (m : Msg)

theorem vaneRead_granted {st : Nat} (h : vaneStatus d (leAt m.body 0 2) m.hdr = st) (hst : st ≠ 2) :
    vaneRead port m d = d.sendOn port none (d.vaneReply m st (d.vaneAt (leAt m.body 0 2))) := by
  subst h
  unfold vaneRead
  dsimp only
  rw [if_neg hst, if_neg hst]; rfl

theorem vaneRead_denied (h : vaneStatus d (leAt m.body 0 2) m.hdr = 2) :
    vaneRead port m d = (d.bump (O.VANE_DENIED (d.stream (leAt m.body 0 2)).job)).sendOn port none
      (d.vaneReply m 2 { d.vaneAt (leAt m.body 0 2) with answer := 0 }) := by
  unfold vaneRead
  dsimp only
  rw [h, if_pos rfl, if_pos rfl]; rfl

theorem vaneAt_vaneRead (k : Nat) : (vaneRead port m d).vaneAt k = d.vaneAt k := by
  by_cases h : vaneStatus d (leAt m.body 0 2) m.hdr = 2
  · rw [vaneRead_denied d port m h]; rfl
  · rw [vaneRead_granted d port m rfl h]; rfl

end

section
variable {s : State} {port : Nat} (hp : port < 16) {m : Msg}

theorem exec_vaneRead_beyond (h : 16 ≤ port) : exec (.vaneRead port m) s = .next s :=
  congrArg Host.Outcome.next (if_neg (not_lt.2 h))

include hp

theorem exec_vaneRead_port :
    exec (.vaneRead port m) s = .next (delivered s port m 5 1 (vaneRead port m)) :=
  congrArg Host.Outcome.next (if_pos hp)

theorem exec_vaneRead_handed (h : Handed s.dev port m 5 1) :
    exec (.vaneRead port m) s = .next { s with dev := vaneRead port m s.dev } :=
  (exec_vaneRead_port hp).trans (by rw [delivered_handed _ h])

end

/-- Settles O37: the cases of `delivered`, `vaneStatus` and `vaneRead`. -/
theorem vaneReadsCarryTheirStatus : Obligations.VaneReadsCarryTheirStatus := by
  unfold Obligations.VaneReadsCarryTheirStatus
  refine ⟨fun s port m => ⟨fun h => ?elsewhere, fun hp hvc hkind hup hl => ?misformed⟩, fun s port m hp hm => ?handed⟩
  case elsewhere =>
    rcases lt_or_ge port 16 with hp | hp
    · have hnot : m.vc ≠ 5 ∨ m.hdr.kind ≠ 1 ∨ (port < 16 ∧ s.dev.portUp port = false) :=
        (h.resolve_left (not_le.2 hp)).imp_right (Or.imp_right (And.intro hp))
      rw [exec_vaneRead_port hp, delivered_elsewhere _ hnot]
    · exact exec_vaneRead_beyond hp
  case misformed =>
    rw [exec_vaneRead_port hp, delivered_misformed _ hvc hkind (fun _ => hup) hl]
  case handed =>
    intro d n j reply
    rw [exec_vaneRead_handed hp hm]
    refine ⟨fun hst => ?free, fun hst l hl => ⟨fun ha => ?admitted, fun ha => ?denied⟩, fun t ht k => ?kept⟩
    case free => rw [vaneRead_granted d port m (vaneStatus_free hst) (by decide)]; rfl
    case admitted => rw [vaneRead_granted d port m (vaneStatus_admitted hst hl ha) (by decide)]; rfl
    case denied => rw [vaneRead_denied d port m (vaneStatus_denied hst hl ha)]; rfl
    case kept =>
      cases ht
      exact vaneAt_vaneRead d port m k

end Sys2Proof.Machine
end

section
/-! Serving loops (R229, R230, R233, R404): what each mailbox message, the step boundary and a deadline mark do, case by case. -/

namespace Sys2Proof.Machine

/-! ### START (log 61) -/

/-- A formed or a suspended job. -/
def Dev.jobFormed (d : Dev) (j : Nat) : Prop := d.dget (O.JOB_STATE j) = 1 ∨ d.dget (O.JOB_STATE j) = 2

theorem readLoop_job_who {d : Dev} {who : Sender} {j seg : Nat} {l : Loop} (h : readLoop d who j seg = some l) :
    l.job = j ∧ l.who = who := by
  simp only [readLoop, Option.ite_none_right_eq_some, Option.some.injEq] at h
  obtain ⟨-, rfl⟩ := h
  exact ⟨rfl, rfl⟩

section
variable {d : Dev} (who : Sender) {j seg : Nat}

theorem loopStart_untimely (h : ¬d.jobFormed j ∨ d.loopOf j ≠ none) :
    loopStart who j seg d = loopReply d who j 1 stField [] :=
  if_pos (by simpa [Dev.jobFormed, Option.isSome_iff_ne_none] using h.symm)

theorem loopStart_formed (hj : d.jobFormed j) (hl : d.loopOf j = none) : loopStart who j seg d =
    (readLoop d who j seg).elim (loopReply d who j 1 stField [])
      (fun l => loopReply (d.setSrv (fun v => { v with loops := v.loops ++ [l] })) who j 1 stOk []) := by
  refine (if_neg (by simpa [Dev.jobFormed, hl, or_iff_not_imp_left] using hj)).trans ?_
  cases readLoop d who j seg <;> rfl

theorem loopStart_refused (h : ¬d.jobFormed j ∨ d.loopOf j ≠ none ∨ readLoop d who j seg = none) :
    loopStart who j seg d = loopReply d who j 1 stField [] := by
  by_cases hu : ¬d.jobFormed j ∨ d.loopOf j ≠ none
  · exact loopStart_untimely who hu
  · obtain ⟨hj, hl⟩ := not_or.1 hu
    rw [loopStart_formed who (not_not.1 hj) (not_not.1 hl), (h.resolve_left hj).resolve_left hl]; rfl

end

/-! ### STOP (log 62) -/

/-- The queued joins of a job's loop refused and their stream numbers given back. -/
def Dev.refuseJoins (d : Dev) (j : Nat) (js : List Join) : Dev :=
  d.forEach js (fun d q => ((loopReply d q.who j 3 stNoPages []).setStream q.stream Stream.free).bump (O.JOINS_REFUSED j))

/-- The running and the held streams of a job leave at the next boundary. -/
def Dev.sendAway (d : Dev) (j : Nat) : Dev :=
  d.forEach ((d.streamsOf j).filter (fun p => p.2.st == 2 || p.2.st == 3)) (fun d p => d.modStream p.1 (fun s => { s with st := 4 }))

section
variable {d : Dev} (who : Sender) {j : Nat}

theorem loopStop_without_loop (hl : d.loopOf j = none) : loopStop who j d = loopReply d who j 2 stField [] := by
  rw [loopStop, hl]

theorem loopStop_open {l : Loop} (hl : d.loopOf j = some l) : loopStop who j d =
    ((d.refuseJoins j l.joins).sendAway j).modLoop j (fun l => { l with stopping := some who, joins := [] }) := by
  rw [loopStop, hl]; rfl

end

/-! ### JOIN -/

/-- The stream number a join takes, where the loop has room for it. -/
def Dev.joinNumber (d : Dev) (l : Loop) : Option Nat := if l.joins.length < 1024 ∧ l.stopping.isNone then d.freeStream else none

/-- A join queued on stream `n`, whose table and vane entries start anew. -/
def Dev.queueJoin (d : Dev) (who : Sender) (j prio : Nat) (planOn : Bool) (n : Nat) : Dev :=
  (vaneCreate (d.setStream n { Stream.free with st := 1, job := j, loop := j, prio := prio % 16 }) n j).modLoop j (fun l =>
    { l with joins := l.joins ++ [⟨n, prio % 16, planOn, who⟩] })

section
variable {d : Dev} {l : Loop}

theorem joinNumber_none (h : 1024 ≤ l.joins.length ∨ l.stopping ≠ none ∨ d.freeStream = none) : d.joinNumber l = none := by
  unfold Dev.joinNumber
  split
  · next hroom =>
    obtain ⟨hlen, hstop⟩ := hroom
    exact (h.resolve_left (not_le.2 hlen)).resolve_left (not_not.2 (Option.isNone_iff_eq_none.1 hstop))
  · rfl

theorem joinNumber_free (hlen : l.joins.length < 1024) (hstop : l.stopping = none) : d.joinNumber l = d.freeStream :=
  if_pos ⟨hlen, Option.isNone_iff_eq_none.2 hstop⟩

variable (who : Sender) {j : Nat} (prio : Nat) {planOn : Bool}

theorem loopJoin_without_loop (hl : d.loopOf j = none) : loopJoin who j prio planOn d = loopReply d who j 3 stField [] := by
  rw [loopJoin, hl]

variable (hl : d.loopOf j = some l)
include hl

theorem loopJoin_without_plan (hp : readPlan d l = none) : loopJoin who j prio true d = loopReply d who j 3 stField [] := by
  rw [loopJoin, hl]
  exact if_pos ⟨rfl, Option.isNone_iff_eq_none.2 hp⟩

theorem loopJoin_planned (hp : planOn = true → readPlan d l ≠ none) : loopJoin who j prio planOn d =
    (d.joinNumber l).elim ((loopReply d who j 3 stNoPages []).bump (O.JOINS_REFUSED j)) (d.queueJoin who j prio planOn) := by
  have hplan : ¬(planOn = true ∧ (readPlan d l).isNone = true) := fun h => hp h.1 (Option.isNone_iff_eq_none.1 h.2)
  rw [loopJoin, hl]
  refine (if_neg hplan).trans ?_
  rw [← Dev.joinNumber]
  cases d.joinNumber l <;> rfl

end

/-! ### LEAVE, STATUS -/

section
variable {d : Dev} (who : Sender) {j n : Nat}

theorem loopLeave_stranger (h : loopStream d j n = false) : loopLeave who j n d = loopReply d who j 4 stField [] :=
  if_pos (by simp [h])

theorem loopLeave_stream (h : loopStream d j n = true) : loopLeave who j n d =
    (if (d.stream n).st = 1 then d else d.modStream n (fun s => { s with st := 4 })).modLoop j (fun l =>
      { l with leaves := l.leaves ++ [(n, who)] }) :=
  if_neg (by simp [h])

end

/-! ### PLAN_ON, PLAN_OFF -/

/-- A running or held stream of the loop that is no candidate. -/
def Dev.mayPlan (d : Dev) (j n : Nat) : Prop :=
  loopStream d j n = true ∧ (d.stream n).plan = false ∧ ((d.stream n).st = 2 ∨ (d.stream n).st = 3)

section
variable {d : Dev} {j n : Nat} {l : Loop} (hl : d.loopOf j = some l)
include hl

theorem planOnNow_again (h : l.planners.any (fun q => q.root == n) = true) : planOnNow d j n = some d := by
  rw [planOnNow, hl]
  exact if_pos h

theorem planOnNow_reads (h : l.planners.any (fun q => q.root == n) = false) : planOnNow d j n =
    (readPlan d l).map (fun p => d.modLoop j (fun l => { l with planners := l.planners ++ [newPlanner n p] })) := by
  rw [planOnNow, hl]
  exact if_neg (by rw [h]; decide)

end

section
variable {d : Dev} (who : Sender) {j n : Nat}

theorem loopPlanOn_refused (h : ¬d.mayPlan j n) : loopPlanOn who j n d = loopReply d who j 6 stField [] :=
  if_pos (by simpa [Dev.mayPlan, imp_iff_not_or] using h)

theorem loopPlanOn_may (h : d.mayPlan j n) : loopPlanOn who j n d =
    (planOnNow d j n).elim (loopReply d who j 6 stField []) (fun d1 => loopReply d1 who j 6 stOk []) := by
  refine (if_neg (by simpa [Dev.mayPlan, imp_iff_not_or] using h)).trans ?_
  cases planOnNow d j n <;> rfl

theorem loopPlanOff_without_loop (hl : d.loopOf j = none) : loopPlanOff who j n d = loopReply d who j 6 stField [] := by
  rw [loopPlanOff, hl]

theorem loopPlanOff_drops {l : Loop} (hl : d.loopOf j = some l) : loopPlanOff who j n d =
    loopReply ((d.forEach (l.planners.filter (fun p => p.root == n)) dropCands).modLoop j (fun l =>
      { l with planners := l.planners.filter (fun p => p.root != n) })) who j 6 stOk [] := by
  rw [loopPlanOff, hl]

end

/-! ### SERVING_STEP_BOUNDARY (R233, log 134) -/

/-- The device once the leavers have ended, and the rows that end with them (items 1 and 2). -/
def Dev.leaversEnded (d : Dev) (j us : Nat) : Dev × List Nat :=
  endLeavers (plansEach planScore (plansEach planFork (applyOrders (closeStep d j us) j) j) j) j

/-- The held children that this boundary made, which it does not serve (log 135). -/
def Dev.lateChildren (d e : Dev) (j : Nat) : List Nat :=
  ((e.streamsOf j).filter (fun p => p.2.st == 3 && decide ((d.stream p.1).st < 2))).map (·.1)

/-- Page groups served and joins admitted by falling PRIO (items 3 and 4). -/
def Dev.joinsAdmitted (e : Dev) (j : Nat) (rows later : List Nat) : Dev :=
  let d3 := serveAll e j later
  admitJoins j rows (sortBy (fun a b => decide (b.prio ≤ a.prio)) (((d3.loopOf j).map (·.joins)).getD [])) d3

section
variable {d : Dev} {j : Nat} (us : Nat) (descs : List Word512)

theorem boundary_waits (h : d.loopOf j = none ∨ stepOver d j = false) : boundary j us descs d = d :=
  if_pos (by simpa using h)

theorem boundary_over (hl : d.loopOf j ≠ none) (ho : stepOver d j = true) : boundary j us descs d =
    (stopNow (d.leaversEnded j us).1 j (d.leaversEnded j us).2).elim
      (settle ((issueStep (onceGen d ((d.leaversEnded j us).1.joinsAdmitted j (d.leaversEnded j us).2
        (d.lateChildren (d.leaversEnded j us).1 j))) j us (d.leaversEnded j us).2).forEach descs (loopIssue j)))
      (fun d3 => settle (onceGen d d3)) := by
  refine (if_neg (by simpa [ho] using hl)).trans ?_
  dsimp only
  rw [← Dev.leaversEnded]
  cases stopNow (d.leaversEnded j us).1 j (d.leaversEnded j us).2 with
  | none => rw [Option.elim_none]; rfl
  | some d3 => rw [Option.elim_some]

end

/-! ### DEADLINE_MARK (R404) -/

/-- The monitor has no deadline or mark `k` for the running step, or no step runs. -/
def Loop.unmarked (l : Loop) (k : Nat) : Prop :=
  nth 0 l.mon 0 = 0 ∨ l.active = [] ∨ nth 0 l.mon 4 ≤ k ∨ fld (nth 0 l.mon (5 + k)) 8 12 = 0

/-- The step's end as predicted at mark `k`. -/
def Loop.predictedEnd (l : Loop) (k us : Nat) : Nat :=
  us - l.startUs + 1 + ceilDiv (fld (nth 0 l.mon (5 + k)) 20 12 *
    Nat.max (fld (nth 0 l.mon (5 + k)) 8 12) (us - l.startUs + 1)) (fld (nth 0 l.mon (5 + k)) 8 12)

/-- An overrun predicted at mark `k`: counted, the later stages' blocks pre-empted, the fallback taken. -/
def Dev.overrun (d : Dev) (l : Loop) (j k : Nat) (descs : List Word512) : Dev :=
  let d1 := d.bump (O.OVERRUNS_PREDICTED j)
  let later := stagesAfter (fld (nth 0 l.mon (5 + k)) 0 8) (pipeStages d1 j l.running)
  let bs := (later.flatMap (·.blocks)).filterMap (fun b => (d1.place j b).phys)
  settle (fallbackNow (d1.forEach bs.dedup (preemptBlock j l.step)) j later descs)

section
variable {d : Dev} {j : Nat} (k us : Nat) (descs : List Word512)

theorem deadlineMark_without_loop (hl : d.loopOf j = none) : deadlineMark j k us descs d = d := by
  rw [deadlineMark, hl]

variable {l : Loop} (hl : d.loopOf j = some l)
include hl

theorem deadlineMark_unmarked (h : l.unmarked k) : deadlineMark j k us descs d = d := by
  rw [deadlineMark, hl]
  exact if_pos h

theorem deadlineMark_marked (h : ¬l.unmarked k) : deadlineMark j k us descs d =
    if l.predictedEnd k us ≤ nth 0 l.mon 0 then d else d.overrun l j k descs := by
  rw [deadlineMark, hl]
  exact if_neg h

end

/-! ### The commands -/

section
variable (s : State) (who : Sender) (j n : Nat)

theorem exec_start : exec (.start who j n) s = .next { s with dev := loopStart who j n s.dev } := rfl
theorem exec_stop : exec (.stop who j) s = .next { s with dev := loopStop who j s.dev } := rfl
theorem exec_join (prio : Nat) (planOn : Bool) :
    exec (.join who j prio planOn) s = .next { s with dev := loopJoin who j prio planOn s.dev } := rfl
theorem exec_leave : exec (.leave who j n) s = .next { s with dev := loopLeave who j n s.dev } := rfl
theorem exec_status : exec (.status who j n) s = .next { s with dev := loopStatus who j n s.dev } := rfl
theorem exec_planOn : exec (.planOn who j n) s = .next { s with dev := loopPlanOn who j n s.dev } := rfl
theorem exec_planOff : exec (.planOff who j n) s = .next { s with dev := loopPlanOff who j n s.dev } := rfl
theorem exec_servingStepBoundary (i : StepIssue) :
    exec (.servingStepBoundary j i) s = .next { s with dev := boundary j i.us i.descs s.dev } := rfl
theorem exec_deadlineMark (k : Nat) (i : StepIssue) :
    exec (.deadlineMark j k i) s = .next { s with dev := deadlineMark j k i.us i.descs s.dev } := rfl

end

/-- Settles O35: the cases of the loop's functions. That START without a job formed or a sound record, and a message for no
loop, is answered FIELD_RANGE is log 61; what STOP does to joins and streams is log 62; the descriptors of a boundary are log
134; the children of held parents are log 135. -/
theorem loopMessagesAreAnswered : Obligations.LoopMessagesAreAnswered := by
  unfold Obligations.LoopMessagesAreAnswered
  refine ⟨⟨?start, ?withoutLoop, ?withLoop, ?ofStream⟩, ?waits, ?boundary, ?markWithoutLoop, ?mark⟩
  case start =>
    intro s who j seg formed
    refine ⟨fun h => ?_, fun l hj hl hr => ⟨?_, readLoop_job_who hr⟩⟩
    · rw [exec_start, loopStart_refused who h]
    · rw [exec_start, loopStart_formed who hj hl, hr]; rfl
  case withoutLoop =>
    refine fun s who j hl => ⟨?_, fun prio planOn => ?_, fun n => ?_⟩
    · rw [exec_stop, loopStop_without_loop who hl]
    · rw [exec_join, loopJoin_without_loop who prio hl]
    · rw [exec_planOff, loopPlanOff_without_loop who hl]
  case withLoop =>
    refine fun s who j l hl =>
      ⟨?_, fun prio => ⟨fun hp => ?_, fun planOn hp => ⟨fun h => ?_, fun n hlen hstop hn => ?_⟩⟩, fun n => ?_⟩
    · rw [exec_stop, loopStop_open who hl]; rfl
    · rw [exec_join, loopJoin_without_plan who prio hl hp]
    · rw [exec_join, loopJoin_planned who prio hl hp, joinNumber_none h]; rfl
    · rw [exec_join, loopJoin_planned who prio hl hp, joinNumber_free hlen hstop, hn]; rfl
    · rw [exec_planOff, loopPlanOff_drops who hl]
  case ofStream =>
    refine fun s who j n => ⟨fun h => ?_, fun h => ?_, exec_status s who j n, fun h => ?_, fun l hmay hl =>
      ⟨fun h => ?_, fun h hr => ?_, fun p h hr => ?_⟩⟩
    · rw [exec_leave, loopLeave_stranger who h]
    · rw [exec_leave, loopLeave_stream who h]
    · rw [exec_planOn, loopPlanOn_refused who h]
    · rw [exec_planOn, loopPlanOn_may who hmay, planOnNow_again hl h]; rfl
    · rw [exec_planOn, loopPlanOn_may who hmay, planOnNow_reads hl h, hr]; rfl
    · rw [exec_planOn, loopPlanOn_may who hmay, planOnNow_reads hl h, hr]; rfl
  case waits =>
    intro s j i h
    rw [exec_servingStepBoundary, boundary_waits _ _ h]
  case boundary =>
    intro s j i hl ho d1 d2 e
    refine ⟨fun d3 h => ?_, fun h => ?_⟩
    · have hstop : stopNow (s.dev.leaversEnded j i.us).1 j (s.dev.leaversEnded j i.us).2 = some d3 := h
      rw [exec_servingStepBoundary, boundary_over _ _ hl ho, hstop, Option.elim_some]
    · have hstop : stopNow (s.dev.leaversEnded j i.us).1 j (s.dev.leaversEnded j i.us).2 = none := h
      rw [exec_servingStepBoundary, boundary_over _ _ hl ho, hstop, Option.elim_none]; rfl
  case markWithoutLoop =>
    intro s j k i hl
    rw [exec_deadlineMark, deadlineMark_without_loop _ _ _ hl]
  case mark =>
    intro s j k i l hl w ex dl e p
    refine ⟨fun h => ?_, fun hdl hact hk hex hp => ?_⟩
    · by_cases hu : l.unmarked k
      · rw [exec_deadlineMark, deadlineMark_unmarked _ _ _ hl hu]
      · have hp : l.predictedEnd k i.us ≤ nth 0 l.mon 0 := by
          have hnot : ¬(dl = 0 ∨ l.active = [] ∨ nth 0 l.mon 4 ≤ k ∨ ex = 0) := hu
          tauto
        rw [exec_deadlineMark, deadlineMark_marked _ _ _ hl hu, if_pos hp]
    · have hu : ¬l.unmarked k := by
        rintro (h | h | h | h)
        exacts [hdl h, hact h, not_le.2 hk h, hex h]
      have hlate : ¬l.predictedEnd k i.us ≤ nth 0 l.mon 0 := not_le.2 hp
      rw [exec_deadlineMark, deadlineMark_marked _ _ _ hl hu, if_neg hlate]; rfl

end Sys2Proof.Machine
end

section
/-! Operation lists (R429, R433): what a list reads as follows from the memories, the store and the job's places, which starting
its descriptor leaves. -/

namespace Sys2Proof.Machine

theorem Dev.start_store (d : Dev) (f : Nat) : (d.start f).store = d.store := by
  unfold Dev.start; split <;> rfl

theorem Dev.start_place (d : Dev) (f j lb : Nat) : (d.start f).place j lb = d.place j lb := by
  have hplaces : ((d.start f).job j).places = (d.job j).places := by
    unfold Dev.start
    split
    · rfl
    · next x _ =>
      by_cases hj : j = x.job
      · subst hj; rw [Dev.job_modJob_self]; split <;> rfl
      · rw [Dev.job_modJob_ne _ _ hj]; rfl
  rw [Dev.place, hplaces]; rfl

theorem Dev.res_congr {d e : Dev} (h : e.store = d.store) (k : Nat) : e.res k = d.res k := by rw [Dev.res, h]; rfl

theorem Dev.segRead_congr {d e : Dev} (hmem : e.mem = d.mem) (hstore : e.store = d.store) (seg off n : Nat) :
    e.segRead seg off n = d.segRead seg off n := by
  have hframe (home frame off n : Nat) : e.frameRead home frame off n = d.frameRead home frame off n := by
    simp only [Dev.frameRead, Dev.tierMem, hmem]
  simp only [Dev.segRead, Dev.segAll, Dev.res_congr hstore, hframe]

theorem Dev.refBytes_start (d : Dev) (f j lb : Nat) (r : Ref) (o n : Nat) :
    (d.start f).refBytes j lb r o n = d.refBytes j lb r o n := by
  have hopb (b a n : Nat) : (d.start f).opbRead b a n = d.opbRead b a n := by
    rw [Dev.opbRead, (d.start_mem_dict f).1]; rfl
  simp only [Dev.refBytes, Dev.physOf, Dev.opbAddr, Dev.start_place, hopb,
    Dev.segRead_congr (d.start_mem_dict f).1 (d.start_store f)]

/-- The flight as `Dev.start` leaves it. -/
def Flight.begun (x : Flight) : Flight := { x with started := true }

theorem listRec_start (d : Dev) (f : Nat) (x : Flight) (k : Nat) : listRec (d.start f) x.begun k = listRec d x k :=
  congrArg (leAt · 0 16) (d.refBytes_start ..)

theorem moveOf_start (d : Dev) (f k : Nat) (x : Flight) : moveOf (d.start f) f k x.begun = moveOf d f k x := by
  simp only [moveOf, listRec_start]

end Sys2Proof.Machine
end

section
/-! What a move is judged to be (R262 to R266, R276), operation by operation. -/

namespace Sys2Proof.Machine

variable {d : Dev} {m : Move}

/-! ### Copying operations (R264, R265) -/

theorem judgeCopy_home {h : Nat} {c : Bool} (hdest : moveDest d m = (some h, c)) (hop : m.op ≠ 6) (ht : m.transpose = false)
    (hh : h = (d.res m.seg).homeNo) (hc : c = (d.res m.seg).comp) : judgeCopy d m = .done d stOk := by
  rw [judgeCopy, hdest]
  exact if_pos ⟨hop, by simp [ht], hh, hc⟩

theorem judgeCopy_away {h : Nat} {c : Bool} (hdest : moveDest d m = (some h, c))
    (haway : m.op = 6 ∨ ¬(h = (d.res m.seg).homeNo ∧ m.transpose = false ∧ c = (d.res m.seg).comp)) :
    judgeCopy d m = startCopy d m h c := by
  rw [judgeCopy, hdest]
  refine if_neg fun ⟨hop, ht, hh, hc⟩ => ?_
  rcases haway with h6 | hne
  · exact hop h6
  · exact hne ⟨hh, by simpa using ht, hc⟩

theorem moveDest_relocate (hop : m.op = 6) : moveDest d m = (some (d.res m.seg).homeNo, (d.res m.seg).comp) := by
  simp [moveDest, hop]

/-! ### FREE -/

section
variable (hop : m.op = 2) (h0 : (d.res m.seg).st ≠ 0)
include hop h0

theorem judgeMove_free_pinned (hof : m.of ≠ none) (hp : 0 < d.pinsOn m.seg) : judgeMove d m = .done d stBusyPinned := by
  simp [judgeMove, hop, h0, hp, hof]

theorem judgeMove_free_referenced (hp : d.pinsOn m.seg = 0) (hr : 0 < (d.res m.seg).refs) :
    judgeMove d m = .done d stPageLocked := by
  simp [judgeMove, hop, h0, hp, hr]

theorem judgeMove_free_frees (hp : d.pinsOn m.seg = 0) (hr : (d.res m.seg).refs = 0) :
    judgeMove d m = .done ((dropWaiting d m.seg stField).freeSeg m.seg) stOk := by
  simp [judgeMove, hop, h0, hp, hr]

end

/-! ### PIN and UNPIN (R260, R261) -/

section
variable (hop : m.op = 7) (h0 : (d.res m.seg).st ≠ 0)
include hop h0

theorem judgeMove_pin_full (hfull : 4096 ≤ d.dget (O.PINS_HELD (d.res m.seg).owner)) : judgeMove d m = .done d stQuota := by
  simp [judgeMove, hop, h0, hfull]

theorem judgeMove_pin_grants (hroom : d.dget (O.PINS_HELD (d.res m.seg).owner) < 4096) (hp : d.pinFree m.seg false = true) :
    judgeMove d m = .done (d.ledgerPin (d.res m.seg).owner m.seg) stOk := by
  simp [judgeMove, hop, h0, Nat.not_le.2 hroom, hp]

theorem judgeMove_pin_waits (hroom : d.dget (O.PINS_HELD (d.res m.seg).owner) < 4096) (hp : d.pinFree m.seg false = false) :
    judgeMove d m = .wait := by
  simp [judgeMove, hop, h0, Nat.not_le.2 hroom, hp]

end

section
variable (hop : m.op = 8) (h0 : (d.res m.seg).st ≠ 0)
include hop h0

theorem judgeMove_unpin_none (hn : d.ledgerCount (d.res m.seg).owner m.seg = 0) : judgeMove d m = .done d stField := by
  simp [judgeMove, hop, h0, hn]

theorem judgeMove_unpin_held (hn : 0 < d.ledgerCount (d.res m.seg).owner m.seg) :
    judgeMove d m = .done (d.ledgerUnpin (d.res m.seg).owner m.seg) stOk := by
  simp [judgeMove, hop, h0, Nat.pos_iff_ne_zero.1 hn]

end

/-! ### PROMOTE (R261, R262) -/

section
variable (hop : m.op = 3) (h1 : (d.res m.seg).st = 1)
include hop h1

theorem judgeMove_promote_full (hfull : 4096 ≤ d.dget (O.PINS_HELD (d.res m.seg).owner)) : judgeMove d m = .done d stQuota := by
  simp [judgeMove, hop, h1, hfull]

variable (hroom : d.dget (O.PINS_HELD (d.res m.seg).owner) < 4096) (hp : d.pinFree m.seg false = true)
include hroom hp

/-- A PROMOTE that takes its pin and needs no copy keeps the pin. -/
theorem judgeMove_promote_home {e : Dev} (hj : judgeCopy (d.ledgerPin (d.res m.seg).owner m.seg) m = .done e stOk) :
    judgeMove d m = .done e stOk := by
  simp [judgeMove, hop, h1, Nat.not_le.2 hroom, hp, hj]

theorem judgeMove_promote_copies {e : Dev} (hj : judgeCopy (d.ledgerPin (d.res m.seg).owner m.seg) m = .copy e) :
    judgeMove d m = .copy e := by
  simp [judgeMove, hop, h1, Nat.not_le.2 hroom, hp, hj]

end

/-! ### DEMOTE, REHOME, RELOCATE -/

section
variable (h1 : (d.res m.seg).st = 1)
include h1

theorem judgeMove_demote (hop : m.op = 4) (hp : d.pinsOn m.seg = 0) : judgeMove d m = judgeCopy d m := by
  simp [judgeMove, hop, h1, hp]

theorem judgeMove_rehome (hop : m.op = 5) (hfast : (d.res m.seg).tier = 0) (hp : d.pinsOn m.seg = 0) :
    judgeMove d m = judgeCopy d m := by
  simp [judgeMove, hop, h1, hfast, hp]

theorem judgeMove_relocate (hop : m.op = 6) : judgeMove d m = judgeCopy d m := by
  simp [judgeMove, hop, h1]

end

end Sys2Proof.Machine
end

section
/-! Accepting the operations of a `move` (R262, R263, R266): what each command answers, case by case. -/

namespace Sys2Proof.Machine

theorem exec_moveCmd {op : Nat} (hop : 1 ≤ op ∧ op ≤ 8) (f k : Nat) (s : State) :
    exec (moveCmd op f k) s = .next { s with dev := hubCmd f (acceptMove op f k) s.dev } := by
  obtain ⟨h1, h8⟩ := hop
  interval_cases op <;> rfl

/-- What a judgement makes of operation `k` of descriptor `f`: its result, its copy, or a place among the waiting moves. -/
def Dev.judged (d : Dev) (f k : Nat) (m : Move) : Judged → Dev
  | .done e st => addResult e f k st m.seg
  | .copy e => e
  | .wait => d.queueMove m

/-! ### One operation -/

section
variable {d : Dev} {x : Flight} {k : Nat}

/-- An operation that breaks its own rules is FIELD_RANGE by itself (log 52). -/
theorem acceptOne_illegal (hok : moveOpOk d x.job (listRec d x k) = false) : acceptOne d x k =
    addResult d x.id k stField (if (moveOp (listRec d x k)).op = 1 then 0 else (moveOp (listRec d x k)).seg) := by
  simp [acceptOne, tryOp, hok]

variable (hok : moveOpOk d x.job (listRec d x k) = true)
include hok

theorem acceptOne_alloc (hop : (moveOp (listRec d x k)).op = 1) : acceptOne d x k =
    let o := moveOp (listRec d x k)
    let a := d.alloc x.job o.tier o.home o.len64 o.fmt o.kind
    addResult a.1 x.id k a.2.1 a.2.2 := by
  simp [acceptOne, tryOp, hok, hop]

variable (hop : (moveOp (listRec d x k)).op ≠ 1)
include hop

theorem acceptOne_behind (hw : (d.res (moveOp (listRec d x k)).seg).st = 2 ∨ d.waitingMoves (moveOp (listRec d x k)).seg ≠ []) :
    acceptOne d x k = if 15 ≤ (d.res (moveOp (listRec d x k)).seg).queued then
      addResult d x.id k stQueueFull (moveOp (listRec d x k)).seg else d.queueMove (moveOf d x.id k x) := by
  have hw : (d.res (moveOp (listRec d x k)).seg).st = 2 ∨ (!(d.waitingMoves (moveOp (listRec d x k)).seg).isEmpty) = true := by
    simpa using hw
  simp only [acceptOne, tryOp, hok, hop, if_pos hw]
  by_cases hq : 15 ≤ (d.res (moveOp (listRec d x k)).seg).queued
  · simp [hq]
  · simp [hq, moveOf]

theorem acceptOne_judged (hu : Unmoved d (moveOp (listRec d x k)).seg) :
    acceptOne d x k = d.judged x.id k (moveOf d x.id k x) (judgeMove d (moveOf d x.id k x)) := by
  obtain ⟨-, hst, hw⟩ := hu
  have hw : ¬((d.res (moveOp (listRec d x k)).seg).st = 2 ∨ (!(d.waitingMoves (moveOp (listRec d x k)).seg).isEmpty) = true) := by
    simp [hst, hw]
  simp only [acceptOne, tryOp, hok, hop, if_neg hw, Bool.not_true, Bool.false_eq_true, if_false]
  rw [← moveOf]
  cases judgeMove d (moveOf d x.id k x) <;> rfl

end

/-! ### The descriptor -/

section
variable {d : Dev} {f k : Nat} {x : Flight} (op : Nat) (hx : d.flight f = some x) (h6 : x.opcode = 6) (hlive : x.live = true)
  (hrun : (x.started || scoreFree d x) = true) (hk : acceptedOps d x = k) (hcount : k < moveCount x)
  (hready : d.refReady (listRef x) false = true)
include hx h6 hlive hrun hk hcount hready

/-- A move whose list may be read passes the checks of its flight, and the list decides. -/
theorem hubCmd_acceptMove_due : hubCmd f (acceptMove op f k) d =
    if d.refStatus (listRef x) ≠ 0 then (poisonSeg d (listRef x).seg (d.res (listRef x).seg).frame).finish f stPoison
    else if fld (listRec d x k) 0 4 ≠ op ∧ decide (1 ≤ fld (listRec d x k) 0 4 ∧ fld (listRec d x k) 0 4 ≤ 8) = true then d
    else if moveBatch x then acceptBatch (d.start f) x.begun else acceptOne (d.start f) x.begun k := by
  rw [hubCmd_runs _ hx (by simpa using hrun)]
  simp only [acceptMove, hx]
  exact if_neg (by simp [h6, hlive, hk, hcount, hready])

/-- A list that cannot be read (R278). -/
theorem hubCmd_acceptMove_poison (hst : d.refStatus (listRef x) ≠ 0) : hubCmd f (acceptMove op f k) d =
    (poisonSeg d (listRef x).seg (d.res (listRef x).seg).frame).finish f stPoison := by
  rw [hubCmd_acceptMove_due op hx h6 hlive hrun hk hcount hready, if_pos hst]

end

section
variable {s : State} {f k op : Nat} {x : Flight}

theorem exec_moveTakes (hop : 1 ≤ op ∧ op ≤ 8) (h : MoveTakes s.dev f k op x) : exec (moveCmd op f k) s = .next {
    s with dev := if moveBatch x then acceptBatch (s.dev.start f) x.begun else acceptOne (s.dev.start f) x.begun k } := by
  obtain ⟨hx, -, h6, hlive, hrun, hk, hcount, hready, hst, hcode⟩ := h
  have hcode : fld (listRec s.dev x k) 0 4 = op := hcode
  rw [exec_moveCmd hop, hubCmd_acceptMove_due op hx h6 hlive hrun hk hcount hready, if_neg (not_not.2 hst),
    if_neg (fun hne => hne.1 hcode)]

variable (h : MoveLegal s.dev f k op x)
include h

theorem exec_moveLegal (hop : 1 ≤ op ∧ op ≤ 8) :
    exec (moveCmd op f k) s = .next { s with dev := acceptOne (s.dev.start f) x.begun k } := by
  obtain ⟨htakes, hbatch, -⟩ := h
  rw [exec_moveTakes hop htakes, hbatch]; rfl

theorem moveLegal_op : (moveOf s.dev f k x).op = op := by
  obtain ⟨⟨-, -, -, -, -, -, -, -, -, hcode⟩, -⟩ := h; exact hcode

theorem moveLegal_id : x.begun.id = f := by
  obtain ⟨⟨-, hid, -⟩, -⟩ := h; exact hid

theorem moveLegal_ok : moveOpOk (s.dev.start f) x.begun.job (listRec (s.dev.start f) x.begun k) = true := by
  obtain ⟨-, -, hok⟩ := h
  rwa [listRec_start]

variable (hop : 2 ≤ op ∧ op ≤ 8)
include hop

theorem moveLegal_no_alloc : (moveOp (listRec (s.dev.start f) x.begun k)).op ≠ 1 := by
  have hcode : (moveOp (listRec s.dev x k)).op = op := moveLegal_op h
  rw [listRec_start]; omega

theorem exec_moveLegal_behind (hw : ((s.dev.start f).res (moveOp (listRec s.dev x k)).seg).st = 2 ∨
      (s.dev.start f).waitingMoves (moveOp (listRec s.dev x k)).seg ≠ []) :
    exec (moveCmd op f k) s = .next {
      s with dev := if 15 ≤ ((s.dev.start f).res (moveOp (listRec s.dev x k)).seg).queued then
          addResult (s.dev.start f) f k stQueueFull (moveOp (listRec s.dev x k)).seg
        else (s.dev.start f).queueMove (moveOf s.dev f k x) } := by
  rw [exec_moveLegal h ⟨by omega, hop.2⟩, acceptOne_behind (moveLegal_ok h) (moveLegal_no_alloc h hop)
    (by rwa [listRec_start]), moveLegal_id h, moveOf_start, listRec_start]

section
variable (hu : Unmoved (s.dev.start f) (moveOp (listRec s.dev x k)).seg)
include hu

/-- On a segment without moves the operation is judged at once. -/
theorem exec_moveLegal_judged : exec (moveCmd op f k) s = .next {
    s with dev := (s.dev.start f).judged f k (moveOf s.dev f k x) (judgeMove (s.dev.start f) (moveOf s.dev f k x)) } := by
  rw [exec_moveLegal h ⟨by omega, hop.2⟩, acceptOne_judged (moveLegal_ok h) (moveLegal_no_alloc h hop) (by rwa [listRec_start]),
    moveLegal_id h, moveOf_start]

theorem exec_moveLegal_done {e : Dev} {st : Nat} (hj : judgeMove (s.dev.start f) (moveOf s.dev f k x) = .done e st) :
    exec (moveCmd op f k) s = .next { s with dev := addResult e f k st (moveOp (listRec s.dev x k)).seg } := by
  rw [exec_moveLegal_judged h hop hu, hj]; rfl

theorem exec_moveLegal_copies {e : Dev} (hj : judgeMove (s.dev.start f) (moveOf s.dev f k x) = .copy e) :
    exec (moveCmd op f k) s = .next { s with dev := e } := by
  rw [exec_moveLegal_judged h hop hu, hj]; rfl

theorem exec_moveLegal_waits (hj : judgeMove (s.dev.start f) (moveOf s.dev f k x) = .wait) :
    exec (moveCmd op f k) s = .next { s with dev := (s.dev.start f).queueMove (moveOf s.dev f k x) } := by
  rw [exec_moveLegal_judged h hop hu, hj]; rfl

end
end

theorem exec_alloc_legal {s : State} {f k : Nat} {x : Flight} (h : MoveLegal s.dev f k 1 x) : exec (.alloc f k) s = .next {
    s with dev :=
      let o := moveOp (listRec s.dev x k)
      let a := (s.dev.start f).alloc x.job o.tier o.home o.len64 o.fmt o.kind
      addResult a.1 f k a.2.1 a.2.2 } := by
  have hcode : (moveOp (listRec (s.dev.start f) x.begun k)).op = 1 := by rw [listRec_start]; exact moveLegal_op h
  refine (exec_moveLegal h (by omega)).trans ?_
  rw [acceptOne_alloc (moveLegal_ok h) hcode, listRec_start, moveLegal_id h]; rfl

/-- Settles O17, from `exec_moveTakes` and the cases of `acceptOne` and `judgeMove`. That an operation that breaks its own rules
records FIELD_RANGE by itself is log 52. -/
theorem moveOperationsTakeEffect : Obligations.MoveOperationsTakeEffect := by
  unfold Obligations.MoveOperationsTakeEffect
  intro s f k x d y m o r
  refine ⟨fun op hop h => ⟨fun hb => ?batch, fun hb hok => ?illegal⟩, fun op hop h hw => exec_moveLegal_behind h hop hw,
    fun op hx h6 hlive hrun hk hcount hready hst hop => ?poison, fun h => exec_alloc_legal h, fun h hu => ?free,
    fun home c hdest hu h1 hp => ⟨fun hh ht hc => ?home, fun haway e he => ?away⟩, fun h hu h1 e he => ?relocate,
    fun h hu h1 hroom hp home c hdest => ⟨fun hh ht hc => ?promoteHome, fun haway e he => ?promoteAway⟩⟩
  case batch => rw [exec_moveTakes hop h, if_pos hb]; rfl
  case illegal =>
    obtain ⟨-, hid, -, -, -, -, -, -, -, hcode⟩ := id h
    have hbad : moveOpOk (s.dev.start f) x.begun.job (listRec (s.dev.start f) x.begun k) = false := by rwa [listRec_start]
    rw [exec_moveTakes hop h, if_neg (by simp [hb]), acceptOne_illegal hbad, listRec_start, hcode, show x.begun.id = f from hid]
  case poison => rw [exec_moveCmd hop, hubCmd_acceptMove_poison op hx h6 hlive hrun hk hcount hready hst]
  case free =>
    have hdone {e : Dev} {st : Nat} := exec_moveLegal_done (e := e) (st := st) h (by omega) hu
    exact ⟨fun hp hr => hdone (judgeMove_free_frees (moveLegal_op h) hu.1 hp hr),
      fun hp hr => hdone (judgeMove_free_referenced (moveLegal_op h) hu.1 hp hr),
      fun hp => hdone (judgeMove_free_pinned (moveLegal_op h) hu.1 (by simp [moveOf]) hp)⟩
  case home =>
    have hdone (hop : m.op ≠ 6) : judgeCopy d m = .done d stOk := judgeCopy_home hdest hop ht hh hc
    exact ⟨fun h4 => exec_moveLegal_done h4 (by omega) hu
        ((judgeMove_demote h1 (moveLegal_op h4) hp).trans (hdone (by rw [moveLegal_op h4]; decide))),
      fun h5 hfast => exec_moveLegal_done h5 (by omega) hu
        ((judgeMove_rehome h1 (moveLegal_op h5) hfast hp).trans (hdone (by rw [moveLegal_op h5]; decide)))⟩
  case away =>
    have hcopy : judgeCopy d m = .copy e := (judgeCopy_away hdest (Or.inr haway)).trans he
    exact ⟨fun h4 => exec_moveLegal_copies h4 (by omega) hu ((judgeMove_demote h1 (moveLegal_op h4) hp).trans hcopy),
      fun h5 hfast => exec_moveLegal_copies h5 (by omega) hu ((judgeMove_rehome h1 (moveLegal_op h5) hfast hp).trans hcopy)⟩
  case relocate =>
    have hcopy : judgeCopy d m = .copy e :=
      (judgeCopy_away (moveDest_relocate (moveLegal_op h)) (Or.inl (moveLegal_op h))).trans he
    exact exec_moveLegal_copies h (by omega) hu ((judgeMove_relocate h1 (moveLegal_op h)).trans hcopy)
  case promoteHome =>
    have hdone : judgeCopy (d.ledgerPin r.owner o.seg) m = .done _ stOk :=
      judgeCopy_home hdest (by rw [moveLegal_op h]; decide) ht hh hc
    exact exec_moveLegal_done h (by omega) hu (judgeMove_promote_home (moveLegal_op h) h1 hroom hp hdone)
  case promoteAway =>
    have hcopy : judgeCopy (d.ledgerPin r.owner o.seg) m = .copy e := (judgeCopy_away hdest (Or.inr haway)).trans he
    exact exec_moveLegal_copies h (by omega) hu (judgeMove_promote_copies (moveLegal_op h) h1 hroom hp hcopy)

end Sys2Proof.Machine
end

section
/-! The pin ledger (R261): what it counts after a pin is taken and after one is released. -/

namespace Sys2Proof.Machine

/-! ### The ledger -/

theorem Dev.ledgerCount_setLedger_self (d : Dev) (j e n : Nat) : (d.setLedger j e n).ledgerCount j e = n := by
  have hrest : (d.store.ledger.filter (fun p => !(p.1 == j && p.2.1 == e))).find? (fun p => p.1 == j && p.2.1 == e) = none := by
    refine List.find?_eq_none.2 fun p hp => ?_
    simpa only [Bool.not_eq_true', Bool.not_eq_true] using (List.mem_filter.1 hp).2
  simp only [Dev.ledgerCount, Dev.setLedger, Dev.setStore]
  by_cases hn : n = 0
  · rw [if_pos hn, hrest, hn]
  · rw [if_neg hn, List.find?_append, hrest]
    simp

theorem Dev.ledgerCount_congr {d e : Dev} (h : e.store.ledger = d.store.ledger) (j k : Nat) :
    e.ledgerCount j k = d.ledgerCount j k := by
  rw [Dev.ledgerCount, h]; rfl

/-- PINS_HELD is a counter of two bytes. -/
theorem dictMax_pinsHeld {j : Nat} (hj : j < 64) : dictMax (O.PINS_HELD j) = 65535 := by
  have hall : ∀ j < 64, dictMax (O.PINS_HELD j) = 65535 := by decide +kernel
  exact hall j hj

theorem pinsHeld_ne_usedKey (j t i : Nat) : O.PINS_HELD j ≠ usedKey t i := by
  unfold usedKey O.PINS_HELD O.FAST_USED O.SLOW_USED; split <;> omega

/-! ### Freeing a segment -/

section
variable (d : Dev) (e : Nat)

theorem Dev.setCharge_dget_ne {t j n k : Nat} (hk : k ≠ usedKey t j) : (d.setCharge t e j n).dget k = d.dget k :=
  (Dev.dget_dset_ne _ _ hk).trans (Dev.dget_dset_ne _ _ hk)

theorem Dev.setTierMem_dget (home : Nat) (m : SMap Byte) (k : Nat) : (d.setTierMem home m).dget k = d.dget k := by
  unfold Dev.setTierMem; split <;> rfl

/-- The charges and the frames of a segment released; its entry stands. -/
def Dev.vacated : Dev :=
  ((d.setCharge 0 e (d.res e).owner 0).setCharge 1 e (d.res e).owner 0).frameErase (d.res e).homeNo (d.res e).frame (d.res e).frames

theorem Dev.freeSeg_res_self : (d.freeSeg e).res e = Res.free := Dev.res_setRes_self (d.vacated e) e Res.free

theorem Dev.freeSeg_ledger : (d.freeSeg e).store.ledger = d.store.ledger :=
  calc (d.freeSeg e).store.ledger = (d.vacated e).store.ledger := rfl
    _ = d.store.ledger := by rw [Dev.vacated, Dev.frameErase, Dev.setTierMem_store]; rfl

theorem Dev.freeSeg_dget_ne {k : Nat} (hk : ∀ t, k ≠ usedKey t (d.res e).owner) : (d.freeSeg e).dget k = d.dget k :=
  calc (d.freeSeg e).dget k = (d.vacated e).dget k := rfl
    _ = ((d.setCharge 0 e (d.res e).owner 0).setCharge 1 e (d.res e).owner 0).dget k := Dev.setTierMem_dget ..
    _ = d.dget k := (Dev.setCharge_dget_ne _ _ (hk 1)).trans (Dev.setCharge_dget_ne _ _ (hk 0))

/-! ### Releasing a pin -/

/-- A pin less on the entry. -/
def Dev.pinOff : Dev := d.modRes e (fun r => { r with pin := r.pin - 1 })

theorem Dev.pinOff_pin : ((d.pinOff e).res e).pin = (d.res e).pin - 1 := by rw [Dev.pinOff, Dev.res_modRes_self]

/-- A released pin is one less on the entry; an entry that was freeing goes with its last one. -/
theorem Dev.unpinSeg_cases :
    d.unpinSeg e = d.pinOff e ∨ ((d.res e).pin - 1 = 0 ∧ d.unpinSeg e = (d.pinOff e).freeSeg e) := by
  by_cases h : ((d.pinOff e).res e).st = 4 ∧ ((d.pinOff e).res e).pin = 0
  · exact Or.inr ⟨(d.pinOff_pin e).symm.trans h.2, if_pos h⟩
  · exact Or.inl (if_neg h)

theorem Dev.unpinSeg_pin : ((d.unpinSeg e).res e).pin = (d.res e).pin - 1 := by
  rcases d.unpinSeg_cases e with h | ⟨hlast, h⟩
  · rw [h, Dev.pinOff_pin]
  · rw [h, Dev.freeSeg_res_self, hlast]; rfl

theorem Dev.unpinSeg_ledger : (d.unpinSeg e).store.ledger = d.store.ledger := by
  rcases d.unpinSeg_cases e with h | ⟨-, h⟩
  · rw [h]; rfl
  · rw [h, Dev.freeSeg_ledger]; rfl

theorem Dev.unpinSeg_pinsHeld (j : Nat) : (d.unpinSeg e).dget (O.PINS_HELD j) = d.dget (O.PINS_HELD j) := by
  rcases d.unpinSeg_cases e with h | ⟨-, h⟩
  · rw [h]; rfl
  · rw [h, Dev.freeSeg_dget_ne _ _ (fun t => pinsHeld_ne_usedKey j t _)]; rfl

end

/-! ### Explicit pins -/

section
variable (d : Dev) (j e : Nat)

theorem Dev.ledgerPin_apart : d.ledgerPin j e = { d with dict := (d.ledgerPin j e).dict, store := (d.ledgerPin j e).store } := rfl

theorem Dev.ledgerPin_count : (d.ledgerPin j e).ledgerCount j e = d.ledgerCount j e + 1 :=
  Dev.ledgerCount_setLedger_self (d.pinSeg e) j e _

theorem Dev.ledgerPin_pin : ((d.ledgerPin j e).res e).pin = (d.res e).pin + 1 :=
  congrArg Res.pin (Dev.res_modRes_self d e (fun r => { r with pin := r.pin + 1, use := true }))

theorem Dev.ledgerPin_pinsHeld (hj : j < 64) (hroom : d.dget (O.PINS_HELD j) < 4096) :
    (d.ledgerPin j e).dget (O.PINS_HELD j) = d.dget (O.PINS_HELD j) + 1 := by
  refine (Dev.dget_bumpN_self ..).trans ?_
  rw [dictMax_pinsHeld hj]
  exact Nat.min_eq_left (show d.dget (O.PINS_HELD j) + 1 ≤ 65535 by omega)

theorem Dev.ledgerUnpin_count : (d.ledgerUnpin j e).ledgerCount j e = d.ledgerCount j e - 1 :=
  (Dev.ledgerCount_congr (Dev.unpinSeg_ledger ..) j e).trans (Dev.ledgerCount_setLedger_self d j e _)

theorem Dev.ledgerUnpin_pin : ((d.ledgerUnpin j e).res e).pin = (d.res e).pin - 1 := Dev.unpinSeg_pin ..

theorem Dev.ledgerUnpin_pinsHeld : (d.ledgerUnpin j e).dget (O.PINS_HELD j) = d.dget (O.PINS_HELD j) - 1 :=
  (Dev.unpinSeg_pinsHeld ..).trans (Dev.dget_dset_self ..)

end

/-- Settles O18, from the judgements of PIN, UNPIN and PROMOTE and what the ledger counts after each. -/
theorem pinLedger : Obligations.PinLedger := by
  unfold Obligations.PinLedger
  intro s f k x d e j hu hj
  refine ⟨fun h hfull => ?pinFull, fun h hfull h1 => ?promoteFull, fun h hroom hp => ?pinGranted, fun h hroom hp => ?pinWaits,
    fun h hheld => ?unpinHeld, fun h hnone => ?unpinNone⟩
  case pinFull => exact exec_moveLegal_done h (by omega) hu (judgeMove_pin_full (moveLegal_op h) hu.1 hfull)
  case promoteFull => exact exec_moveLegal_done h (by omega) hu (judgeMove_promote_full (moveLegal_op h) h1 hfull)
  case pinGranted =>
    exact ⟨d.ledgerPin j e, exec_moveLegal_done h (by omega) hu (judgeMove_pin_grants (moveLegal_op h) hu.1 hroom hp),
      d.ledgerPin_apart j e, d.ledgerPin_count j e, d.ledgerPin_pin j e, d.ledgerPin_pinsHeld j e hj hroom⟩
  case pinWaits => exact exec_moveLegal_waits h (by omega) hu (judgeMove_pin_waits (moveLegal_op h) hu.1 hroom hp)
  case unpinHeld =>
    exact ⟨d.ledgerUnpin j e, exec_moveLegal_done h (by omega) hu (judgeMove_unpin_held (moveLegal_op h) hu.1 hheld),
      d.ledgerUnpin_count j e, d.ledgerUnpin_pin j e, d.ledgerUnpin_pinsHeld j e⟩
  case unpinNone => exact exec_moveLegal_done h (by omega) hu (judgeMove_unpin_none (moveLegal_op h) hu.1 hnone)

end Sys2Proof.Machine
end

section
/-! The head of a move queue and the commit (R255, R259, R265, R266, R273): what each command does, case by case, and what a
segment reads as where it has landed. -/

namespace Sys2Proof.Machine

/-! ### MOVE_QUEUE_HEAD (R266) -/

theorem exec_moveQueueHead (e : Nat) (s : State) : exec (.moveQueueHead e) s = .next { s with dev := moveHead e s.dev } := rfl

section
variable {d : Dev} {e : Nat}

/-- What a judgement makes of the waiting move that came to the head: its end, its copy, or nothing while it must wait. -/
def Dev.atHead (d : Dev) (m : Move) : Judged → Dev
  | .done e st => endMove e m st
  | .copy e => e
  | .wait => d

theorem moveHead_idle (h : (d.activeMove e).isSome = true ∨ d.waitingMoves e = []) : moveHead e d = d := by
  unfold moveHead
  split
  · rfl
  · next hactive => rw [h.resolve_left hactive]; rfl

/-- The first waiting move comes to the head; a RELOCATE goes behind moves of other kinds (log 102). -/
theorem moveHead_next {m : Move} (ha : d.activeMove e = none)
    (hm : (d.waitingMoves e).find? (fun m => m.op != 6) = some m ∨
      ((d.waitingMoves e).find? (fun m => m.op != 6) = none ∧ (d.waitingMoves e).head? = some m)) :
    moveHead e d = d.atHead m (judgeMove ((d.takeMove m).unqueue m) m) := by
  rcases hm with hfirst | ⟨hnone, hhead⟩
  · simp only [moveHead, ha, hfirst]
    cases judgeMove ((d.takeMove m).unqueue m) m <;> rfl
  · simp only [moveHead, ha, hnone, hhead]
    cases judgeMove ((d.takeMove m).unqueue m) m <;> rfl

end

/-! ### MOVE_COMMIT (R265, R273) -/

theorem exec_moveCommit (e : Nat) (s : State) : exec (.moveCommit e) s = .next { s with dev := settle (moveCommit e s.dev) } := rfl

section
variable {d : Dev} {e : Nat} {m : Move} (hm : d.activeMove e = some m)
include hm

theorem moveCommit_active : moveCommit e d =
    if 0 < (d.res e).wpin then d
    else if !d.segOk e then poisonSeg d e (d.res e).frame
    else if 0 < commitPins d m then
      d.setStore (fun s => { s with moves := updFirst (fun n => n == m) (fun n => { n with drain := true }) s.moves })
    else commitMove d m := by
  simp only [moveCommit, hm]

theorem moveCommit_written (hw : 0 < (d.res e).wpin) : moveCommit e d = d := by
  rw [moveCommit_active hm, if_pos hw]

variable (hw : (d.res e).wpin = 0)
include hw

theorem moveCommit_corrupt (hok : d.segOk e = false) : moveCommit e d = poisonSeg d e (d.res e).frame := by
  rw [moveCommit_active hm, if_neg (by omega), if_pos (by simp [hok])]

variable (hok : d.segOk e = true)
include hok

theorem moveCommit_read (hp : 0 < commitPins d m) : moveCommit e d =
    d.setStore (fun s => { s with moves := updFirst (fun n => n == m) (fun n => { n with drain := true }) s.moves }) := by
  rw [moveCommit_active hm, if_neg (by omega), if_neg (by simp [hok]), if_pos hp]

theorem moveCommit_free (hp : commitPins d m = 0) : moveCommit e d = commitMove d m := by
  rw [moveCommit_active hm, if_neg (by omega), if_neg (by simp [hok]), if_neg (by omega)]

end

/-! ### The landing (R255, R259) -/

theorem cellKey_add (home frame off i : Nat) : cellKey home frame off + i = cellKey home frame 0 + (off + i) := by
  unfold cellKey; split <;> omega

theorem Dev.frameRead_eq (d : Dev) (home frame off n : Nat) : d.frameRead home frame off n =
    (List.range n).map (fun i => SMap.get 0 (d.tierMem home) (cellKey home frame 0 + (off + i))) := by
  simp only [Dev.frameRead, SMap.readRun_eq, cellKey_add home frame off]

theorem Dev.tierMem_congr (d : Dev) {h k : Nat} (hk : h < 12 ↔ k < 12) : d.tierMem h = d.tierMem k := by
  simp only [Dev.tierMem, hk]

section
variable (d : Dev) (e home frame frames : Nat)

/-- What the destination's memory reads as, cell by cell of the run, once the frames have moved. -/
theorem Dev.switchFrames_cell {i : Nat} (hi : i < (d.res e).frames * 4096) :
    SMap.get 0 ((d.switchFrames e home frame frames).tierMem home) (cellKey home frame 0 + i) =
      SMap.get 0 (d.tierMem (d.res e).homeNo) (cellKey (d.res e).homeNo (d.res e).frame 0 + i) := by
  by_cases hsame : (d.res e).homeNo < 12 ↔ home < 12
  · have hmem : (d.switchFrames e home frame frames).tierMem home = SMap.moveRun (d.tierMem home)
        (cellKey (d.res e).homeNo (d.res e).frame 0) (cellKey home frame 0) ((d.res e).frames * 4096) := by
      rw [Dev.switchFrames, if_pos (propext hsame)]
      exact (Dev.setTierMem_tierMem ..).trans (if_pos Iff.rfl)
    rw [hmem, SMap.get_moveRun, if_pos (by omega), d.tierMem_congr hsame]
    congr 1; omega
  · have hmem : (d.switchFrames e home frame frames).tierMem home = SMap.writeRun 0 (d.tierMem home)
        (cellKey home frame 0) (d.frameRead (d.res e).homeNo (d.res e).frame 0 ((d.res e).frames * 4096)) := by
      rw [Dev.switchFrames, if_neg (fun heq => hsame (Eq.to_iff heq))]
      exact (Dev.setTierMem_tierMem ..).trans ((if_neg hsame).trans ((Dev.setTierMem_tierMem ..).trans (if_pos Iff.rfl)))
    rw [hmem, SMap.get_writeRun, Dev.frameRead_eq, if_pos (by simpa using hi)]
    simp [hi]

/-- A run read within the frames that have moved. -/
theorem Dev.switchFrames_frameRead {off n : Nat} (h : off + n ≤ (d.res e).frames * 4096) :
    (d.switchFrames e home frame frames).frameRead home frame off n =
      d.frameRead (d.res e).homeNo (d.res e).frame off n := by
  rw [Dev.frameRead_eq, Dev.frameRead_eq]
  refine List.map_congr_left fun i hi => d.switchFrames_cell e home frame frames ?_
  have := List.mem_range.1 hi
  omega

theorem Dev.switchFrames_res : (d.switchFrames e home frame frames).res e =
    { d.res e with tier := if home < 12 then 0 else 1, home := if home < 12 then home else 0, frame := frame, frames := frames } :=
  Dev.res_setRes_self ..

theorem Dev.switchFrames_len : ((d.switchFrames e home frame frames).res e).len = (d.res e).len := by
  rw [Dev.switchFrames_res]; rfl

theorem Dev.switchFrames_homeNo (hhome : home ≤ 12) : ((d.switchFrames e home frame frames).res e).homeNo = home := by
  rw [Dev.switchFrames_res, Res.homeNo]
  by_cases h : home < 12
  · simp [h]
  · simp [h]; omega

/-- A segment whose frames have moved reads as before. -/
theorem Dev.switchFrames_segRead (hhome : home ≤ 12) (hlen : (d.res e).len ≤ (d.res e).frames * 4096) {off n : Nat}
    (h : off + n ≤ (d.res e).len) :
    (d.switchFrames e home frame (d.res e).frames).segRead e off n = d.segRead e off n := by
  have hread {off n : Nat} (hin : off + n ≤ (d.res e).frames * 4096) :=
    d.switchFrames_frameRead e home frame (d.res e).frames hin
  have hhomeNo := d.switchFrames_homeNo e home frame (d.res e).frames hhome
  have hres := d.switchFrames_res e home frame (d.res e).frames
  by_cases hc : (d.res e).comp = true
  · have hall : (d.switchFrames e home frame (d.res e).frames).segAll e = d.segAll e := by
      simp only [Dev.segAll, hhomeNo]
      simp only [hres, hc, if_true, Res.len]
      rw [hread (by omega)]
    simp only [Dev.segRead, hall]
    simp only [hres, hc, if_true]
  · simp only [Dev.segRead, hhomeNo]
    simp only [hres, hc]
    exact hread (by omega)

end

/-- The home a move leads to: a stack, or 12, the slow tier. -/
def Move.goal (m : Move) : Nat := if m.destTier = 0 then m.destHome else 12

theorem landMove_plain (d : Dev) {m : Move} {r : Res} (ht : m.transpose = false) (hc : m.compress = r.comp) :
    (landMove d m r).1 = d.switchFrames m.seg m.goal m.destFrame r.frames := by
  unfold landMove; dsimp only; rw [if_pos ⟨by simp [ht], hc⟩]; rfl

/-- Settles O19, from the cases of `moveHead` and `moveCommit`, and `Dev.switchFrames_segRead`. That moves of other kinds pass a
RELOCATE that waits at the head is log 102. -/
theorem moveQueueHeadAndCommit : Obligations.MoveQueueHeadAndCommit := by
  unfold Obligations.MoveQueueHeadAndCommit
  refine ⟨fun s e h => ?idle, fun s e m ha hm => ⟨fun d' st hj => ?ends, fun d' hj => ?copies, fun hj => ?stays⟩,
    fun s e m hm => ⟨fun hw => ?written, fun hw hok => ?corrupt, fun hw hok hp => ?read, fun hw hok hp => ?commits⟩,
    fun d m ht hc hdest hlen _ _ => ?lands⟩
  case idle => rw [exec_moveQueueHead, moveHead_idle h]
  case ends => rw [exec_moveQueueHead, moveHead_next ha hm, hj]; rfl
  case copies => rw [exec_moveQueueHead, moveHead_next ha hm, hj]; rfl
  case stays => rw [exec_moveQueueHead, moveHead_next ha hm, hj]; rfl
  case written => rw [exec_moveCommit, moveCommit_written hm hw]
  case corrupt => rw [exec_moveCommit, moveCommit_corrupt hm hw hok]
  case read => rw [exec_moveCommit, moveCommit_read hm hw hok hp]
  case commits => rw [exec_moveCommit, moveCommit_free hm hw hok hp]
  case lands =>
    have hgoal : m.goal ≤ 12 := by unfold Move.goal; split <;> omega
    have hres := d.switchFrames_res m.seg m.goal m.destFrame (d.res m.seg).frames
    rw [landMove_plain d ht hc]
    exact ⟨d.switchFrames_homeNo m.seg m.goal m.destFrame (d.res m.seg).frames hgoal, congrArg Res.frame hres,
      d.switchFrames_len m.seg m.goal m.destFrame (d.res m.seg).frames,
      fun _ _ h => d.switchFrames_segRead m.seg m.goal m.destFrame hgoal hlen h⟩

end Sys2Proof.Machine
end

section
/-! The state at power-up (R256, R448, R484, R502). -/

namespace Sys2Proof.Machine

theorem Dev.reset_dget (k : Nat) : Dev.reset.dget k = dictDefault k := rfl

theorem Dev.reset_memoriesWf : Safety.MemoriesWf Dev.reset := ⟨rfl, rfl, rfl, rfl, rfl, rfl, rfl⟩

theorem Dev.reset_dictWf : Safety.DictWf Dev.reset := rfl

theorem State.reset_otpInRange : Safety.OtpInRange State.reset.otp := ⟨Nat.zero_le _, Nat.zero_le _⟩

/-- JOB_STATE is FREE by default (R386). -/
theorem dictDefault_jobState {j : Nat} (hj : j < 64) : dictDefault (O.JOB_STATE j) = 0 := by
  have hall : ∀ j < 64, dictDefault (O.JOB_STATE j) = 0 := by decide +kernel
  exact hall j hj

/-- Settles O60: nothing is listed at reset, so every read is a default. -/
theorem resetIsWellFormed : Obligations.ResetIsWellFormed :=
  ⟨Dev.reset_memoriesWf, Dev.reset_dictWf, State.reset_otpInRange, rfl, rfl, rfl, Dev.reset_dget,
    fun _ hj => (Dev.reset_dget _).trans (dictDefault_jobState hj), fun _ => ⟨rfl, rfl, rfl, rfl, rfl, rfl, rfl⟩⟩

end Sys2Proof.Machine
end

section
/-! The escalation of a row and its place in the address map (R284, R285, R291, R292, R294). -/

namespace Sys2Proof.Machine

open Sys2Proof.Laws

/-! ### Runs of numbers -/

theorem mem_rangeFrom {a n x : Nat} : x ∈ rangeFrom a n ↔ a ≤ x ∧ x < a + n := by
  simp only [rangeFrom, List.mem_map, List.mem_range]
  constructor
  · rintro ⟨i, hi, rfl⟩; omega
  · rintro ⟨hlo, hhi⟩; exact ⟨x - a, by omega, by omega⟩

/-- What a search of a run finds is the lowest of its kind. -/
theorem find?_rangeFrom {a n s : Nat} {p : Nat → Bool} (h : (rangeFrom a n).find? p = some s) :
    p s = true ∧ (a ≤ s ∧ s < a + n) ∧ ∀ x, a ≤ x → x < s → p x = false := by
  refine ⟨List.find?_some h, mem_rangeFrom.1 (List.mem_of_find?_eq_some h), fun x hlo hx => ?_⟩
  rw [rangeFrom, List.find?_map, Option.map_eq_some_iff] at h
  obtain ⟨i, hi, rfl⟩ := h
  obtain ⟨-, -, hlow⟩ := List.find?_range_eq_some.1 hi
  have hx' := hlow (x - a) (by omega)
  rwa [Function.comp, Nat.add_sub_cancel' hlo, Bool.not_eq_true'] at hx'

/-! ### The spare rows (R291, R294) -/

section
variable {d : Dev} {u pc bank s : Nat}

theorem freeSpare_bounds (h : freeSpare d u pc bank = some s) : spareLo u ≤ s ∧ s < spareLo u + spareCount u :=
  (find?_rangeFrom h).2.1

theorem freeSpare_live (h : freeSpare d u pc bank = some s) : d.mc.dead.contains (u, pc, bank, s) = false := by
  have hs := (find?_rangeFrom h).1
  rw [Bool.and_eq_true, Bool.not_eq_true', Bool.not_eq_true'] at hs
  exact hs.2

/-- Every lower spare row of the bank is dead or in use. -/
theorem freeSpare_lowest (h : freeSpare d u pc bank = some s) {s' : Nat} (hlo : spareLo u ≤ s') (hs' : s' < s) :
    d.mc.dead.contains (u, pc, bank, s') = true ∨
      ∃ e ∈ d.mc.remaps, e.unit = u ∧ e.pc = pc ∧ e.bank = bank ∧ e.spare = s' := by
  obtain ⟨-, -, hlow⟩ := find?_rangeFrom h
  have hout := hlow s' hlo hs'
  rw [Bool.and_eq_false_iff, Bool.not_eq_false', Bool.not_eq_false', List.any_eq_true] at hout
  refine hout.symm.imp_right fun ⟨e, he, huse⟩ => ⟨e, he, ?_⟩
  simpa [and_assoc] using huse

end

/-! ### What an event leaves alone -/

section
variable (d : Dev) (code loc obj : Nat) {sev : Nat} (detail : Bytes) (hs : sev < 8)
include hs

theorem Dev.event_mem : (d.event code sev loc obj detail).mem = d.mem := (told_event d code loc obj detail hs).same_mem

theorem Dev.event_mc : (d.event code sev loc obj detail).mc = d.mc := by rw [(told_event d code loc obj detail hs).rest]

theorem Dev.event_store : (d.event code sev loc obj detail).store = d.store := by
  rw [(told_event d code loc obj detail hs).rest]

end

/-! ### One lasting failure (R291, log 66) -/

/-- A soft-remap entry is the one of a logical row. -/
def Remap.ofRow (u : Nat) (r : RowAt) (e : Remap) : Bool :=
  e.unit == u && e.pc == r.pc && e.bank == r.bank && e.row == r.row

/-- The entries of a unit's table. -/
def Dev.remapsOf (d : Dev) (u : Nat) : List Remap := d.mc.remaps.filter (fun e => e.unit == u)

/-- The device with an entry added to the tables. -/
def Dev.addRemap (d : Dev) (e : Remap) : Dev := d.setMc (fun m => { m with remaps := m.remaps ++ [e] })

/-- The device with a spare row marked dead. -/
def Dev.killSpare (d : Dev) (u : Nat) (r : RowAt) (s : Nat) : Dev :=
  d.setMc (fun m => { m with dead := m.dead ++ [(u, r.pc, r.bank, s)] })

/-- The device with the entry of a row rewritten. -/
def Dev.moveRemap (d : Dev) (u : Nat) (r : RowAt) (e : Remap) : Dev :=
  d.setMc (fun m => { m with remaps := updFirst (Remap.ofRow u r) (fun _ => e) m.remaps })

/-- The device with the entry of a row freed. -/
def Dev.freeRemap (d : Dev) (u : Nat) (r : RowAt) : Dev :=
  d.setMc (fun m => { m with remaps := m.remaps.filter (fun e => !e.ofRow u r) })

section
variable {d : Dev} {u : Nat} {r : RowAt}

theorem giveUpRow_eq : giveUpRow d u r =
    (showTables (ledger (d.freeRemap u r)) u).forEach (rowFrames u r) (fun d f => retireFrame d u f) := rfl

section
variable (hnone : d.mc.remaps.find? (Remap.ofRow u r) = none)
include hnone

theorem escalate_first (hroom : (d.remapsOf u).length < remapCap u) {s : Nat} (hs : freeSpare d u r.pc r.bank = some s) :
    escalate d u r = (showTables (ledger (d.addRemap ⟨u, r.pc, r.bank, r.row, s, 1, true⟩)) u).event 0x0501 1 4 (mcLoc u r.pc)
      (leBytes 8 (Remap.word ⟨u, r.pc, r.bank, r.row, s, 1, true⟩)) := by
  unfold Remap.ofRow at hnone
  simp only [escalate, hnone, hs]
  exact if_neg (Nat.not_le.2 hroom)

theorem escalate_full (hfull : remapCap u ≤ (d.remapsOf u).length) : escalate d u r = giveUpRow d u r := by
  unfold Remap.ofRow at hnone
  simp only [escalate, hnone]
  cases freeSpare d u r.pc r.bank with
  | none => rfl
  | some s => exact if_pos hfull

end

section
variable {e : Remap} (he : d.mc.remaps.find? (Remap.ofRow u r) = some e)
include he

theorem escalate_second (hf : e.fails = 1) {s : Nat} (hs : freeSpare (d.killSpare u r e.spare) u r.pc r.bank = some s) :
    escalate d u r = (showTables (ledger ((d.killSpare u r e.spare).moveRemap u r { e with spare := s, fails := 2 })) u).event
      0x0502 2 4 (mcLoc u r.pc) (leBytes 8 (Remap.word { e with spare := s, fails := 2 })) := by
  unfold Remap.ofRow at he
  unfold Dev.killSpare at hs
  simp only [escalate, he, if_pos hf, hs]
  rfl

theorem escalate_third (hf : e.fails = 2) : escalate d u r = giveUpRow d u r := by
  unfold Remap.ofRow at he
  simp only [escalate, he]
  exact if_neg (by omega)

end

/-- The spare just marked dead is not taken again. -/
theorem freeSpare_killSpare_ne {s t : Nat} (h : freeSpare (d.killSpare u r t) u r.pc r.bank = some s) : s ≠ t := by
  rintro rfl
  have hlive := freeSpare_live h
  simp [Dev.killSpare, Dev.setMc] at hlive

end

/-! ### The address map (R284, R285) -/

section
variable {u : Nat} (a : Nat)

theorem rowAt_stack (hu : u < 12) :
    rowAt u a = ⟨a / 1024 % 32, Nat.xor (a / 1024 / 32 % 64) (a / 1024 / 32 / 64 % 64), a / 1024 / 32 / 64⟩ := if_pos hu

theorem rowAt_package (hu : 12 ≤ u) : rowAt u a = ⟨0, a / 7680 % 16, a / 7680 / 16⟩ := if_neg (by omega)

/-- The bank hash undoes itself. -/
theorem rowFrames_rowAt_stack (hu : u < 12) : rowFrames u (rowAt u a) = [frameAt u a] := by
  have hhash : ∀ x y : Nat, Nat.xor (Nat.xor x y) y = x := Nat.xor_xor_cancel_right
  simp only [rowFrames, frameAt, rowAt_stack a hu, if_pos hu, hhash]
  congr 1
  omega

theorem rowAt_stack_bank_lt (hu : u < 12) : (rowAt u a).bank < 64 := by
  rw [rowAt_stack a hu]
  exact Nat.xor_lt_two_pow (n := 6) (Nat.mod_lt _ (by decide)) (Nat.mod_lt _ (by decide))

/-- The first of the data bytes of a package's row is no higher than the address, the last no lower. -/
theorem frameAt_mem_rowFrames (hu : 12 ≤ u) (h : frameAt u a < 500000000) : frameAt u a ∈ rowFrames u (rowAt u a) := by
  have hframe : frameAt u a = a / 4096 * 32 + (u - 12) := if_neg (by omega)
  have hrow : a / 7680 / 16 * 16 + a / 7680 % 16 = a / 7680 := Nat.div_add_mod' _ _
  rw [hframe] at h ⊢
  simp only [rowFrames, rowAt_package a hu, if_neg (show ¬u < 12 by omega), hrow]
  refine List.mem_filter.2 ⟨List.mem_map_of_mem (mem_rangeFrom.2 ?_), decide_eq_true h⟩
  omega

end

/-- Settles O34, from the cases of `escalate`, `freeSpare_lowest`, and the address map's lemmas. That a row of a package gives
up every frame it meets is log 66. -/
theorem rowEscalation : Obligations.RowEscalation := by
  unfold Obligations.RowEscalation
  refine ⟨fun d u r => ⟨fun hnone hroom s hs => ?first, fun hnone hfull => escalate_full hnone hfull,
    fun e he => ⟨fun hf s hs => ?second, fun hf => ⟨escalate_third he hf, _, giveUpRow_eq, rfl⟩⟩⟩,
    fun u a hu _ => ?stack, fun u a hu _ _ hf => ?package⟩
  case first =>
    obtain ⟨hlo, hhi⟩ := freeSpare_bounds hs
    have hsev : 1 < 8 := by decide
    rw [escalate_first hnone hroom hs, Dev.event_mc _ _ _ _ _ hsev, Dev.event_mem _ _ _ _ _ hsev,
      Dev.event_store _ _ _ _ _ hsev]
    exact ⟨rfl, rfl, rfl, rfl, hlo, hhi, freeSpare_live hs, fun s' => freeSpare_lowest hs⟩
  case second =>
    rw [escalate_second he hf hs, Dev.event_mc _ _ _ _ _ (by decide)]
    exact ⟨rfl, rfl, freeSpare_killSpare_ne hs⟩
  case stack =>
    refine ⟨rowFrames_rowAt_stack a hu, ?_, rowAt_stack_bank_lt a hu⟩
    rw [rowAt_stack a hu]
    exact Nat.mod_lt _ (by decide)
  case package =>
    refine ⟨frameAt_mem_rowFrames a hu hf, ?_⟩
    rw [rowAt_package a hu]
    exact Nat.mod_lt _ (by decide)

end Sys2Proof.Machine
end

section
/-! Errors of bursts, of the command bus, and the refresh rate (R286 to R293, R297, R301): what each command does, case by
case. -/

namespace Sys2Proof.Machine

/-! ### Codewords without errors (R286, R287, R289) -/

section
variable (c : RsCode) {data : List Nat} (h : data.length = c.k)
include h

theorem RsCode.take_encode : (c.encode data).take c.k = data := List.take_left' h

theorem RsCode.drop_encode : (c.encode data).drop c.k = c.checkOf data := List.drop_left' h

theorem RsCode.syndromes_encode : (c.syndromes (c.encode data)).all (· == 0) = true := by
  rw [RsCode.syndromes, c.take_encode h, c.drop_encode h, polyAdd_self]
  simp [RsCode.eval_zeros]

/-- A codeword decodes to itself whatever symbols are erased. -/
theorem RsCode.decode_erased_encode (erased : List Nat) : c.decode erased (c.encode data) = some [] :=
  if_pos (c.syndromes_encode h)

theorem RsCode.take_invertChecks_encode : (invertChecks c (c.encode data)).take c.k = data := by
  rw [invertChecks, c.take_encode h]
  exact List.take_left' h

theorem RsCode.drop_invertChecks_encode :
    (invertChecks c (c.encode data)).drop c.k = (c.checkOf data).map (fun s => Nat.xor s (2 ^ c.bits - 1)) := by
  rw [invertChecks, c.take_encode h, c.drop_encode h]
  exact List.drop_left' h

end

/-- Inverted check symbols are no check symbols. -/
theorem RsCode.checkOf_ne_inverted (c : RsCode) (hc : 0 < c.checks) (data : List Nat) :
    c.checkOf data ≠ (c.checkOf data).map (fun s => Nat.xor s 255) := by
  have hlen := c.checkOf_length data
  cases hw : c.checkOf data with
  | nil => rw [hw, List.length_nil] at hlen; omega
  | cons x l =>
    intro heq
    have hx : x = x ^^^ 255 := List.head_eq_of_cons_eq heq
    exact absurd (xor_left_eq_self_iff.1 hx.symm) (by decide)

/-- A received word holds poison: its check symbols are inverted. -/
def RsCode.inverted (c : RsCode) (w : List Nat) : Bool := w.drop c.k == (c.checkOf (w.take c.k)).map (fun s => Nat.xor s 255)

theorem RsCode.inverted_encode (c : RsCode) (hc : 0 < c.checks) {data : List Nat} (h : data.length = c.k) :
    c.inverted (c.encode data) = false := by
  rw [RsCode.inverted, c.take_encode h, c.drop_encode h]
  exact beq_eq_false_iff_ne.2 (c.checkOf_ne_inverted hc data)

theorem RsCode.inverted_invertChecks (c : RsCode) (hb : c.bits = 8) {data : List Nat} (h : data.length = c.k) :
    c.inverted (invertChecks c (c.encode data)) = true := by
  rw [RsCode.inverted, c.take_invertChecks_encode h, c.drop_invertChecks_encode h, hb]
  exact beq_self_eq_true _

/-- What the decoder says of the received words of a burst. -/
def RsCode.judge (c : RsCode) (erased : List Nat) (ws : List (List Nat)) : BurstRead :=
  let fs := ws.map (c.decode erased)
  if ws.all c.inverted then .poison
  else if fs.any (·.isNone) then .uncorrectable
  else if fs.all (fun f => f == some []) then .sound
  else .corrected (fs.map (fun f => f.getD []))

section
variable (c : RsCode) (erased : List Nat) {ws : List (List Nat)}

theorem RsCode.judge_inverted (h : ∀ w ∈ ws, c.inverted w = true) : c.judge erased ws = .poison :=
  if_pos (List.all_eq_true.2 h)

theorem RsCode.judge_intact (hne : ws ≠ []) (hinv : ∀ w ∈ ws, c.inverted w = false)
    (hdec : ∀ w ∈ ws, c.decode erased w = some []) : c.judge erased ws = .sound := by
  obtain ⟨w, hw⟩ := List.exists_mem_of_ne_nil _ hne
  have hclean : ws.all c.inverted = false := List.all_eq_false.2 ⟨w, hw, by simp [hinv w hw]⟩
  simp [RsCode.judge, hclean, List.map_eq_replicate_iff.2 hdec]

end

/-! ### The codes of the memories -/

theorem burstCode_bits (u : Nat) : (burstCode u).bits = 8 := by unfold burstCode; split <;> rfl

theorem burstCode_checks (u : Nat) : (burstCode u).checks = 4 := by unfold burstCode; split <;> rfl

theorem dataSymbols_length (u : Nat) (bs : Bytes) (k : Nat) : (dataSymbols u bs k).length = (burstCode u).k := by
  rw [dataSymbols, List.length_map, List.length_range, beatBytes, burstCode]
  split <;> rfl

/-! ### A burst read without an error (R289) -/

section
variable (d : Dev) (u a : Nat)

/-- The codewords of a burst's data. -/
def Dev.dataWords : List (List Nat) :=
  (List.range (codewords u)).map (fun k => (burstCode u).encode (dataSymbols u (burstData d u a) k))

theorem dataWords_ne_nil : d.dataWords u a ≠ [] := by
  have hpos : codewords u ≠ 0 := by unfold codewords; split <;> decide
  simpa [Dev.dataWords] using hpos

theorem dataWords_mem {w : List Nat} (hw : w ∈ d.dataWords u a) :
    ∃ data : List Nat, data.length = (burstCode u).k ∧ w = (burstCode u).encode data := by
  obtain ⟨k, -, rfl⟩ := List.mem_map.1 hw
  exact ⟨_, dataSymbols_length .., rfl⟩

/-- The pins of a burst that are known bad. -/
def Dev.erasedPins : List Nat := (d.mc.badPins.filter (fun b => b.1 == u && b.2.1 == (rowAt u a).pc)).map (·.2.2)

/-- With no symbol changed the decoder sees the codewords as they are stored. -/
theorem readBurst_stored : readBurst d u a [] = (burstCode u).judge (d.erasedPins u a) (burstWords d u a) := by
  have hstored : (burstWords d u a).zipIdx.map (fun w => addErrors w.1 []) = burstWords d u a := List.zipIdx_map_fst 0 _
  exact congrArg ((burstCode u).judge (d.erasedPins u a)) hstored

variable {d u a}

theorem readBurst_poisoned (h : d.mc.poisoned.contains (burstKey u a) = true) : readBurst d u a [] = .poison := by
  have hwords : burstWords d u a = (d.dataWords u a).map (invertChecks (burstCode u)) := if_pos h
  rw [readBurst_stored, hwords]
  refine RsCode.judge_inverted _ _ fun w hw => ?_
  obtain ⟨v, hv, rfl⟩ := List.mem_map.1 hw
  obtain ⟨data, hlen, rfl⟩ := dataWords_mem d u a hv
  exact (burstCode u).inverted_invertChecks (burstCode_bits u) hlen

theorem readBurst_unpoisoned (h : d.mc.poisoned.contains (burstKey u a) = false) : readBurst d u a [] = .sound := by
  have hwords : burstWords d u a = d.dataWords u a := if_neg (by rw [h]; decide)
  have hchecks : 0 < (burstCode u).checks := by rw [burstCode_checks]; decide
  rw [readBurst_stored, hwords]
  refine RsCode.judge_intact _ _ (dataWords_ne_nil d u a) (fun w hw => ?_) fun w hw => ?_
  · obtain ⟨data, hlen, rfl⟩ := dataWords_mem d u a hw
    exact (burstCode u).inverted_encode hchecks hlen
  · obtain ⟨data, hlen, rfl⟩ := dataWords_mem d u a hw
    exact (burstCode u).decode_erased_encode hlen _

end

/-! ### BURST_ERROR: the third reading (R290) -/

section
variable {d : Dev} {e : BurstErr}

theorem lastRead_sound (h : readBurst d e.unit e.addr e.after = .sound) :
    lastRead d e = (d.bump (mcKey e.unit 1)).bump (mcKey e.unit 2) := by
  simp only [lastRead, h]; rfl

theorem lastRead_poison (h : readBurst d e.unit e.addr e.after = .poison) : lastRead d e = d := by
  simp only [lastRead, h]

theorem lastRead_corrected {f : List (List (Nat × Nat))} (h : readBurst d e.unit e.addr e.after = .corrected f) :
    lastRead d e = (onePin f).elim (escalate (d.bump (mcKey e.unit 1)) e.unit (rowAt e.unit e.addr))
      (notePin (escalate (d.bump (mcKey e.unit 1)) e.unit (rowAt e.unit e.addr)) e.unit (rowAt e.unit e.addr)) := by
  simp only [lastRead, h]
  cases onePin f <;> rfl

theorem lastRead_uncorrectable (h : readBurst d e.unit e.addr e.after = .uncorrectable) :
    lastRead d e = escalate (poisonBurst d e.unit e.addr) e.unit (rowAt e.unit e.addr) := by
  simp only [lastRead, h]

end

/-! ### BURST_ERROR: the first reading and the retry (R290) -/

/-- What a reading corrected. -/
def BurstRead.fix : BurstRead → Option (List (List (Nat × Nat)))
  | .corrected f => some f
  | _ => none

/-- A reading that needs correction or cannot be corrected is retried. -/
def BurstRead.faulty : BurstRead → Prop
  | .corrected _ => True
  | .uncorrectable => True
  | _ => False

theorem transient_corrected (d : Dev) (u : Nat) (f : List (List (Nat × Nat))) :
    transient d u (BurstRead.corrected f).fix.isSome = (d.bump (mcKey u 1)).bump (mcKey u 2) := rfl

theorem transient_uncorrectable (d : Dev) (u : Nat) : transient d u BurstRead.uncorrectable.fix.isSome = d.bump (mcKey u 2) := rfl

section
variable {d : Dev} {e : BurstErr}

theorem burst_outside (h : burstAddrOk e.unit e.addr = false) : burst d e = d := if_pos (by rw [h]; rfl)

variable (hok : burstAddrOk e.unit e.addr = true)
include hok

theorem burst_first_sound (h : readBurst d e.unit e.addr e.first = .sound) : burst d e = d := by
  simp [burst, hok, h]

theorem burst_first_poison (h : readBurst d e.unit e.addr e.first = .poison) : burst d e = poisonRead d e.unit e.addr := by
  simp [burst, hok, h]

section
variable {x : BurstRead} (hfirst : readBurst d e.unit e.addr e.first = x) (hx : x.faulty)
include hfirst hx

theorem burst_again_sound (h : readBurst d e.unit e.addr e.again = .sound) :
    burst d e = transient d e.unit x.fix.isSome := by
  cases x with
  | sound => exact hx.elim
  | poison => exact hx.elim
  | corrected f => simp [burst, hok, hfirst, h, BurstRead.fix]
  | uncorrectable => simp [burst, hok, hfirst, h, BurstRead.fix]

theorem burst_again_poison (h : readBurst d e.unit e.addr e.again = .poison) :
    burst d e = poisonRead (transient d e.unit x.fix.isSome) e.unit e.addr := by
  cases x with
  | sound => exact hx.elim
  | poison => exact hx.elim
  | corrected f => simp [burst, hok, hfirst, h, BurstRead.fix]
  | uncorrectable => simp [burst, hok, hfirst, h, BurstRead.fix]

/-- The correction of the retry is written back. -/
theorem burst_again_corrected {g : List (List (Nat × Nat))} (h : readBurst d e.unit e.addr e.again = .corrected g) :
    burst d e = lastRead (writeBack d e.unit e.addr e.again g) e := by
  cases x with
  | sound => exact hx.elim
  | poison => exact hx.elim
  | corrected f => simp [burst, hok, hfirst, h]
  | uncorrectable => simp [burst, hok, hfirst, h]

end

/-- The correction of the first reading is written back where the retry has none. -/
theorem burst_again_uncorrectable {f : List (List (Nat × Nat))} (hfirst : readBurst d e.unit e.addr e.first = .corrected f)
    (h : readBurst d e.unit e.addr e.again = .uncorrectable) :
    burst d e = lastRead (writeBack d e.unit e.addr e.first f) e := by
  simp [burst, hok, hfirst, h]

theorem burst_uncorrectable (hfirst : readBurst d e.unit e.addr e.first = .uncorrectable)
    (h : readBurst d e.unit e.addr e.again = .uncorrectable) :
    burst d e = if e.after = [] ∧ frameHeld d e.unit (frameAt e.unit e.addr) = true then poisonBurst d e.unit e.addr
      else escalate (poisonBurst d e.unit e.addr) e.unit (rowAt e.unit e.addr) := by
  simp [burst, hok, hfirst, h]

end

/-! ### Poison in a segment (R278, R289) -/

section
variable {d : Dev} {u a e : Nat} (h : segAt d (unitHome u) (frameAt u a) = some e)
include h

theorem frameHeld_of_segAt : frameHeld d u (frameAt u a) = true := by
  simp [frameHeld, h]

theorem poisonBurst_segment : poisonBurst d u a =
    stopReaders (poisonSeg (poisonWrite (d.bump (mcKey u 3)) u a) e (frameAt u a)) e := by
  simp [poisonBurst, frameHeld_of_segAt h, h]

theorem poisonRead_segment : poisonRead d u a = stopReaders d e := by
  simp only [poisonRead, h]

end

/-! ### CA_PARITY_ERROR (R293) -/

section
variable (d : Dev) (k : Nat) (again : Bool)

theorem caParity_absent (h : 12 ≤ k ∨ d.mc.lost.contains k = true) : caParity k again d = d := if_pos h

theorem caParity_present (hk : k < 12) (h : d.mc.lost.contains k = false) : caParity k again d =
    if again then stackLost d k 3 else d.event 0x0509 1 4 (mcLoc k 0) [] :=
  if_neg (not_or.2 ⟨Nat.not_le.2 hk, ne_true_of_eq_false h⟩)

end

/-! ### Refresh (R297, R301, R519) -/

theorem refreshState_hot {was : Nat} {c : Int} (h : 850 < c) : refreshState was c = 1 := if_pos h

theorem refreshState_cool {was : Nat} {c : Int} (h : c < 820) : refreshState was c = 0 :=
  (if_neg (by omega)).trans (if_pos h)

theorem refreshState_between {was : Nat} {c : Int} (h : 820 ≤ c ∧ c ≤ 850) : refreshState was c = was :=
  (if_neg (by omega)).trans (if_neg (by omega))

theorem dieTemp_ne_stackHot (k : Nat) : O.DIE_TEMP_C (13 + k) ≠ O.STACK_HOT_REFRESH k := by
  unfold O.DIE_TEMP_C O.STACK_HOT_REFRESH; omega

section
variable (d : Dev) {k : Nat} (c : Int)

/-- The device with its hot-refresh object `key` following a temperature. -/
def Dev.refreshed (key : Nat) : Dev := d.dset key (refreshState (d.dget key) c)

theorem refreshed_hot (key : Nat) (h : 850 < c) : (d.refreshed c key).dget key = 1 :=
  (Dev.dget_dset_self ..).trans (refreshState_hot h)

theorem refreshed_cool (key : Nat) (h : c < 820) : (d.refreshed c key).dget key = 0 :=
  (Dev.dget_dset_self ..).trans (refreshState_cool h)

theorem refreshed_between (key : Nat) (h : 820 ≤ c ∧ c ≤ 850) : (d.refreshed c key).dget key = d.dget key :=
  (Dev.dget_dset_self ..).trans (refreshState_between h)

theorem refreshed_other {key n : Nat} (h : n ≠ key) : (d.refreshed c key).dget n = d.dget n := Dev.dget_dset_ne _ _ h

theorem refreshInterval_absent (h : 12 ≤ k) : refreshInterval d k c = d := if_pos h

theorem refreshInterval_present (h : k < 12) : refreshInterval d k c =
    (d.dset (O.DIE_TEMP_C (13 + k)) (toUns 32 c)).refreshed c (O.STACK_HOT_REFRESH k) := by
  rw [refreshInterval, if_neg (by omega), Dev.refreshed, Dev.dget_dset_ne _ _ (dieTemp_ne_stackHot k).symm]

end

/-! ### The commands -/

section
variable (s : State) (k : Nat) (c : Int)

theorem exec_burstError (e : BurstErr) : exec (.burstError e) s = .next { s with dev := settle (burst s.dev e) } := rfl

theorem exec_caParityError (again : Bool) :
    exec (.caParityError k again) s = .next { s with dev := caParity k again s.dev } := rfl

theorem exec_refreshInterval : exec (.refreshInterval k c) s = .next { s with dev := refreshInterval s.dev k c } := rfl

theorem exec_slowTempPoll : exec (.slowTempPoll k c) s =
    .next { s with dev := if k < 32 then s.dev.refreshed c (O.PKG_HOT_REFRESH k) else s.dev } := rfl

end

/-- Settles O33, from the cases of `burst`, `lastRead` and `caParity`, the decoder on stored codewords, and `Dev.refreshed`.
The codes are log 138; what each reading counts, and when a failure is lasting, log 139. -/
theorem memoryErrorsAreClassified : Obligations.MemoryErrorsAreClassified := by
  unfold Obligations.MemoryErrorsAreClassified
  refine ⟨⟨fun s e hok => ?outside, fun s e hok => ?retried, fun d e => ?third,
      fun d u a e h => ⟨poisonBurst_segment h, poisonRead_segment h⟩,
      fun d u a => ⟨readBurst_poisoned, readBurst_unpoisoned⟩, fun s u es => rfl, fun s k again => ?parity⟩,
    fun s k c => ⟨fun hk => ?stackAbsent, fun hk => ?packageAbsent⟩, fun s k c hk => ?stack, fun s p c hp => ?package⟩
  case outside => rw [exec_burstError, burst_outside hok]
  case retried =>
    have gives {x : Dev} (hx : burst s.dev e = x) : exec (.burstError e) s = .next { s with dev := settle x } := by
      rw [exec_burstError, hx]
    refine ⟨fun h => gives (burst_first_sound hok h), fun h => gives (burst_first_poison hok h),
      fun f hf => ⟨fun h => ?_, fun h => ?_, fun g h => ?_, fun h => ?_⟩,
      fun hf => ⟨fun h => ?_, fun h => ?_, fun g h => ?_, fun h => ⟨fun hafter hheld => ?_, fun hlasting => ?_⟩⟩⟩
    · exact gives ((burst_again_sound hok hf trivial h).trans (transient_corrected _ _ _))
    · exact gives (by rw [burst_again_poison hok hf trivial h, transient_corrected])
    · exact gives (burst_again_corrected hok hf trivial h)
    · exact gives (burst_again_uncorrectable hok hf h)
    · exact gives ((burst_again_sound hok hf trivial h).trans (transient_uncorrectable _ _))
    · exact gives (by rw [burst_again_poison hok hf trivial h, transient_uncorrectable])
    · exact gives (burst_again_corrected hok hf trivial h)
    · exact gives ((burst_uncorrectable hok hf h).trans (if_pos ⟨hafter, hheld⟩))
    · refine gives ((burst_uncorrectable hok hf h).trans (if_neg fun hcured => ?_))
      obtain ⟨hafter, hheld⟩ := hcured
      exact hlasting.elim (fun hne => hne hafter) (fun hfree => by simp [hfree] at hheld)
  case third =>
    refine ⟨lastRead_sound, lastRead_poison, fun f h => ⟨fun hpin => ?_, fun p hpin => ?_⟩, lastRead_uncorrectable⟩
    · rw [lastRead_corrected h, hpin]; rfl
    · rw [lastRead_corrected h, hpin]; rfl
  case parity =>
    refine ⟨fun h => ?_, fun hk h => ⟨?_, ?_⟩⟩
    · rw [exec_caParityError, caParity_absent _ _ _ h]
    · rw [exec_caParityError, caParity_present _ _ _ hk h]; rfl
    · rw [exec_caParityError, caParity_present _ _ _ hk h]; rfl
  case stackAbsent => rw [exec_refreshInterval, refreshInterval_absent _ _ hk]
  case packageAbsent => rw [exec_slowTempPoll, if_neg (by omega)]
  case stack =>
    rw [exec_refreshInterval, refreshInterval_present _ _ hk]
    refine ⟨_, rfl, rfl, ?_, refreshed_hot _ c _, refreshed_cool _ c _, fun h => ?_, fun n hdie hhot => ?_⟩
    · exact (refreshed_other _ c (dieTemp_ne_stackHot k)).trans (Dev.dget_dset_self ..)
    · exact (refreshed_between _ c _ h).trans (Dev.dget_dset_ne _ _ (dieTemp_ne_stackHot k).symm)
    · exact (refreshed_other _ c hhot).trans (Dev.dget_dset_ne _ _ hdie)
  case package =>
    rw [exec_slowTempPoll, if_pos hp]
    exact ⟨_, rfl, rfl, refreshed_hot _ c _, refreshed_cool _ c _, refreshed_between _ c _, fun n => refreshed_other _ c⟩

end Sys2Proof.Machine
end

section
/-! The value of a curve (R321, R322). -/

namespace Sys2Proof.Machine

theorem nth_eq_getElem {α : Type} (d : α) {l : List α} {i : Nat} (h : i < l.length) : nth d l i = l[i] := by
  rw [nth, List.getElem?_eq_getElem h, Option.getD_some]

theorem rising_iff (l : List Nat) : rising l = true ↔ l.IsChain (· < ·) := by
  induction l with
  | nil => simp [rising]
  | cons a l ih =>
    cases l with
    | nil => simp [rising]
    | cons b l => rw [rising, Bool.and_eq_true, decide_eq_true_iff, ih, List.isChain_cons_cons]

theorem nth_lt_of_rising {l : List Nat} (h : rising l = true) {i j : Nat} (hij : i < j) (hj : j < l.length) :
    nth 0 l i < nth 0 l j := by
  rw [nth_eq_getElem 0 (hij.trans hj), nth_eq_getElem 0 hj]
  exact List.pairwise_iff_getElem.1 (List.isChain_iff_pairwise.1 ((rising_iff l).1 h)) i j _ hj hij

/-- In a range, the numbers below `m` are `m` in number. -/
theorem length_filter_range_of_lt {n m : Nat} (hm : m ≤ n) {q : Nat → Bool} (hq : ∀ p < n, q p = true ↔ p < m) :
    ((List.range n).filter q).length = m := by
  have hlow : (List.range n).filter q = (List.range n).filter (fun p => decide (p < m)) :=
    List.filter_congr fun p hp => Bool.eq_iff_iff.2 ((hq p (List.mem_range.1 hp)).trans decide_eq_true_iff.symm)
  obtain ⟨k, rfl⟩ := Nat.exists_eq_add_of_le hm
  have hall : (List.range m).filter (fun p => decide (p < m)) = List.range m :=
    List.filter_eq_self.2 fun p hp => by simpa using hp
  have hnone : ((List.range k).map (m + ·)).filter (fun p => decide (p < m)) = [] := by simp
  rw [hlow, List.range_add, List.filter_append, hall, hnone, List.append_nil, List.length_range]

section
variable {c : Curve} {t : Nat} (hx : c.xs.length = c.npts) (hr : rising c.xs = true)

theorem Curve.at_first (h : t ≤ nth 0 c.xs 0) : c.at t = nth 0 c.ys 0 := if_pos h

include hx hr

theorem Curve.xs_lt {i j : Nat} (hij : i < j) (hj : j < c.npts) : nth 0 c.xs i < nth 0 c.xs j :=
  nth_lt_of_rising hr hij (hx ▸ hj)

theorem Curve.xs_le {i j : Nat} (hij : i ≤ j) (hj : j < c.npts) : nth 0 c.xs i ≤ nth 0 c.xs j := by
  rcases hij.eq_or_lt with rfl | hlt
  · exact le_rfl
  · exact (Curve.xs_lt hx hr hlt hj).le

theorem Curve.at_last (hn : 1 ≤ c.npts) (h : nth 0 c.xs (c.npts - 1) ≤ t) : c.at t = nth 0 c.ys (c.npts - 1) := by
  by_cases hfirst : t ≤ nth 0 c.xs 0
  · have hone : ¬ 0 < c.npts - 1 := fun hlt => by
      have := Curve.xs_lt hx hr hlt (by omega)
      omega
    rw [Curve.at_first hfirst, Nat.eq_zero_of_not_pos hone]
  · rw [Curve.at, if_neg hfirst, if_pos h]

section
variable {i : Nat} (hi : i + 1 < c.npts) (hlo : nth 0 c.xs i ≤ t) (hhi : t < nth 0 c.xs (i + 1))
include hi hlo hhi

/-- The segment that R322 looks for: the largest point not after t. -/
theorem Curve.segment : ((List.range c.npts).filter (fun p => decide (nth 0 c.xs p ≤ t))).length - 1 = i := by
  rw [length_filter_range_of_lt (m := i + 1) hi.le, Nat.add_sub_cancel]
  intro p hp
  rw [decide_eq_true_iff]
  refine ⟨fun hpt => ?_, fun hpi => (Curve.xs_le hx hr (Nat.lt_succ_iff.1 hpi) (by omega)).trans hlo⟩
  by_contra hge
  have := Curve.xs_le hx hr (Nat.not_lt.1 hge) hp
  omega

/-- The interpolation holds at the segment's first point too, where it adds nothing. -/
theorem Curve.at_between : c.at t = nth 0 c.ys i +
    divRHE ((nth 0 c.ys (i + 1) - nth 0 c.ys i) * ((t : Int) - nth 0 c.xs i)) (nth 0 c.xs (i + 1) - nth 0 c.xs i) := by
  unfold Curve.at
  split
  · next hfirst =>
    have hi0 : i = 0 := by
      by_contra hne
      have := Curve.xs_lt hx hr (Nat.pos_of_ne_zero hne) (by omega)
      omega
    subst hi0
    have hzero (n : Nat) : divRHE 0 n = 0 := by simp [divRHE]
    rw [le_antisymm hfirst hlo, sub_self, mul_zero, hzero, add_zero]
  · have hlast := Curve.xs_le hx hr (show i + 1 ≤ c.npts - 1 by omega) (by omega)
    rw [if_neg (by omega)]
    simp only [Curve.segment hx hr hi hlo hhi]

end

end

/-- Settles O27: the segment found is the one given, and `divRHE_near` on its interpolation. -/
theorem curveValue : Obligations.CurveValue := by
  unfold Obligations.CurveValue
  refine ⟨fun c t hn hx _ hr => ⟨Curve.at_first, Curve.at_last hx hr hn, fun i hi hlo hhi => ?_⟩, fun d x g t => ⟨rfl, rfl, rfl, rfl⟩⟩
  have hlt := Curve.xs_lt hx hr (Nat.lt_succ_self i) hi
  have hcast : ((nth 0 c.xs (i + 1) - nth 0 c.xs i : Nat) : Int) = ((nth 0 c.xs (i + 1) : Nat) : Int) - (nth 0 c.xs i : Nat) :=
    Nat.cast_sub hlt.le
  have hnear := divRHE_near ((nth 0 c.ys (i + 1) - nth 0 c.ys i) * ((t : Int) - nth 0 c.xs i)) (Nat.sub_pos_of_lt hlt)
  rw [hcast] at hnear
  dsimp only
  rw [Curve.at_between hx hr hi hlo hhi, add_sub_cancel_left]
  exact ⟨Int.sub_pos_of_lt (Int.ofNat_lt.2 hlt), hnear⟩

end Sys2Proof.Machine
end

section
/-! Reduce records on their way to the open context of their name (R308, R316 to R318). -/

namespace Sys2Proof.Machine

theorem exec_recordCmd {k : Nat} (hk : 1 ≤ k ∧ k ≤ 4) (port : Nat) (bs : Bytes) (s : State) :
    exec (recordCmd k port bs) s = .next (recordTaken s port bs k) := by
  obtain ⟨hlo, hhi⟩ := hk
  interval_cases k <;> rfl

/-- A whole record on an up port reaches the command of its KIND. -/
theorem exec_recordArrives {s : State} {port : Nat} {bs : Bytes} (hup : s.dev.portUp port = true)
    (hk : 1 ≤ (rcdOf bs).kind ∧ (rcdOf bs).kind ≤ 4) :
    exec (recordCmd (rcdOf bs).kind port bs) s = .next { s with dev := recordArrives s.dev port bs } := by
  rw [exec_recordCmd hk, recordTaken, if_neg (by simp [hup])]

theorem rcdGood_kind {bs : Bytes} (h : rcdGood bs = true) : 1 ≤ (rcdOf bs).kind ∧ (rcdOf bs).kind ≤ 4 := by
  simp only [rcdGood, Bool.and_eq_true, decide_eq_true_iff] at h
  obtain ⟨⟨⟨⟨-, hkind⟩, -⟩, -⟩, -⟩ := h
  exact hkind

theorem recordArrives_bad_crc (d : Dev) (port : Nat) {bs : Bytes} (h : crc32c (bs.take 28 ++ bs.drop 32) ≠ leAt bs 28 4) :
    recordArrives d port bs = protoFault d port :=
  if_pos (by simp [rcdGood, h])

theorem exec_goodRecord {s : State} {port : Nat} {bs : Bytes} (h : GoodRecord s.dev port bs) :
    exec (recordCmd (rcdOf bs).kind port bs) s = .next { s with dev := takeRecord port bs s.dev } := by
  obtain ⟨hup, hhost, hpeer, hgood⟩ := h
  rw [exec_recordArrives hup (rcdGood_kind hgood), recordArrives, if_neg (by simp [hhost, hpeer, hgood])]

/-! ### Which context a good record meets (R308, R318) -/

section
variable {d : Dev} (port : Nat) {bs : Bytes}

theorem takeRecord_opened {c : RCtx} (h : d.ctxOf (rcdOf bs).tag (rcdOf bs).id (rcdOf bs).epoch = some c) :
    takeRecord port bs d = takeRcd d port (rcdOf bs) c := by
  simp only [takeRecord, h]

theorem takeRecord_other_epoch {c : RCtx} (h : d.ctxOf (rcdOf bs).tag (rcdOf bs).id (rcdOf bs).epoch = none)
    (hc : d.red.ctxs.find? (fun c => c.tag == (rcdOf bs).tag && c.id == (rcdOf bs).id) = some c) :
    takeRecord port bs d = d.bump (O.REDUCE_STALE_RECORDS c.job) := by
  simp only [takeRecord, h, hc]

/-- Without a context of its tag and ID there is none of its epoch either. -/
theorem takeRecord_unopened (hc : d.red.ctxs.find? (fun c => c.tag == (rcdOf bs).tag && c.id == (rcdOf bs).id) = none) :
    takeRecord port bs d = d.setRed (fun q => { q with held := q.held ++ [(port, bs)] }) := by
  have h : d.ctxOf (rcdOf bs).tag (rcdOf bs).id (rcdOf bs).epoch = none := by
    rw [List.find?_eq_none] at hc
    refine List.find?_eq_none.2 fun c hmem hname => hc c hmem ?_
    exact (Bool.and_eq_true_iff.1 hname).1
  simp only [takeRecord, h, hc]

end

/-! ### What an open context does with a record (R309 to R312, R318) -/

section
variable (d : Dev) (port : Nat) {r : Rcd} {c : RCtx}

theorem takeRcd_abort (hk : r.kind = 4) : takeRcd d port r c = abortCtx d c (some port) := if_pos hk

theorem takeRcd_differs (hk : r.kind ≠ 4) (h : r.tiles ≠ c.tiles ∨ r.step ≠ c.updStep) :
    takeRcd d port r c = abortCtx d c none := by
  rw [takeRcd, if_neg hk, if_pos h]

/-- The 64 codes of block `b` in the body of a DATA_UP. -/
def Rcd.codes (r : Rcd) (b : Nat) : List Int := (List.range 64).map (fun n => s32 (BitVec.ofNat 32 (leAt r.body (256 * b + 4 * n) 4)))

/-- Block `b` of a DATA_UP added to the context's partial, its SAT flag to the tile's (R312, R315). -/
def addTileBlock (c : RCtx) (r : Rcd) (q : Dev × Nat) (b : Nat) : Dev × Nat :=
  let a := addEntry q.1 (c.base + 64 * r.tile + b) (r.codes b)
  (a.1, if a.2 ∨ bit r.sat b then orBit q.2 b else q.2)

/-- The tile of a DATA_UP added to the context's partial, with the SAT flags of the sums. -/
def Dev.addTile (d : Dev) (c : RCtx) (r : Rcd) : Dev × Nat := (List.range 64).foldl (addTileBlock c r) (d, nth 0 c.sat r.tile)

/-- The context with a DATA_UP counted. -/
def RCtx.counted (c : RCtx) (r : Rcd) (sat : Nat) : RCtx :=
  { c with
    tileCnt := setNth c.tileCnt r.tile (nth 0 c.tileCnt r.tile + r.cnt), sat := setNth c.sat r.tile sat,
    void := if r.void && !c.void.contains r.tile then c.void ++ [r.tile] else c.void }

variable (htiles : r.tiles = c.tiles) (hstep : r.step = c.updStep)
include htiles hstep

theorem takeRcd_scaleUp (hk : r.kind = 1) : takeRcd d port r c =
    if c.subtree < c.count + r.cnt then d.bump (O.REDUCE_STALE_RECORDS c.job)
    else scaleProgress d { c with
      fold := (c.fold.zip (r.body.map BitVec.toNat)).map (fun p => foldScale p.1 p.2), count := c.count + r.cnt,
      kids := c.kids ++ [(port, r.src)] } := by
  rw [takeRcd, if_neg (by simp [hk]), if_neg (by simp [htiles, hstep])]
  simp only [hk]

theorem takeRcd_scaleDown (hk : r.kind = 2) : takeRcd d port r c =
    if c.root ∨ c.tb.isSome ∨ port ≠ c.parentPort then d.bump (O.REDUCE_STALE_RECORDS c.job)
    else agree d c (r.body.map BitVec.toNat) := by
  rw [takeRcd, if_neg (by simp [hk]), if_neg (by simp [htiles, hstep])]
  simp only [hk]

theorem takeRcd_dataUp (hk : r.kind = 3) : takeRcd d port r c =
    if c.tiles ≤ r.tile ∨ !c.kids.contains (port, r.src) ∨ c.tb = none ∨ c.subtree < nth 0 c.tileCnt r.tile + r.cnt then
      d.bump (O.REDUCE_STALE_RECORDS c.job)
    else dataProgress (d.addTile c r).1 (c.counted r (d.addTile c r).2) := by
  rw [takeRcd, if_neg (by simp [hk]), if_neg (by simp [htiles, hstep])]
  simp only [hk]
  rfl

end

/-- Settles O22, from `takeRecord` and `takeRcd` case by case; a record of other TILES or STEP aborts before it can be
discarded. -/
theorem faultyReduceRecordsAreRefused : Obligations.FaultyReduceRecordsAreRefused := by
  unfold Obligations.FaultyReduceRecordsAreRefused
  intro s port bs r d stale
  refine ⟨fun hup hkind hcrc => ?crc, fun hgood => ⟨fun c hepoch hc => ?otherEpoch, fun c hc =>
    ⟨fun hk htiles hstep hkid => ?stranger, fun hk htiles hstep hcount => ?scaleBeyond,
      fun hk htiles hstep hcount => ?dataBeyond, fun hk hdiff => ?differs⟩⟩⟩
  case crc => rw [exec_recordArrives hup hkind, recordArrives_bad_crc _ _ hcrc]
  case otherEpoch => rw [exec_goodRecord hgood, takeRecord_other_epoch port hepoch hc]
  all_goals
    have hmeets := exec_goodRecord hgood
    rw [takeRecord_opened port hc] at hmeets
  case stranger =>
    rw [hk, takeRcd_dataUp _ _ htiles hstep hk, if_pos (.inr (.inl (by rw [hkid]; rfl)))] at hmeets
    exact hmeets
  case scaleBeyond =>
    rw [hk, takeRcd_scaleUp _ _ htiles hstep hk, if_pos hcount] at hmeets
    exact hmeets
  case dataBeyond =>
    rw [hk, takeRcd_dataUp _ _ htiles hstep hk, if_pos (.inr (.inr (.inr hcount)))] at hmeets
    exact hmeets
  case differs => rw [hmeets, takeRcd_differs _ _ hk hdiff]

end Sys2Proof.Machine
end

section
/-! Sums in the reduce store (R306, R312, R315): the entries an addition writes, and those it leaves. -/

namespace Sys2Proof.Machine

/-- A clamped code is written and read back as it is. -/
theorem s32_ofInt_accClamp (v : Int) : s32 (BitVec.ofInt 32 (accClamp false v)) = accClamp false v := by
  have hrange : -(2 ^ 31 - 1) ≤ accClamp false v ∧ accClamp false v ≤ 2 ^ 31 - 1 := by
    simp only [accClamp, clampI, accW, Bool.false_eq_true, if_false]
    split_ifs <;> omega
  rw [s32, BitVec.toInt_ofInt]
  exact Int.bmod_eq_of_le (by omega) (by omega)

/-- An addition to entry `e` changes its codes alone, each to the clamped sum. -/
theorem addEntry_code (d : Dev) (e : Nat) {vs : List Int} (hlen : vs.length = 64) {k n : Nat} (hn : n < 64) :
    s32 (SMap.get 0 (addEntry d e vs).1.red.store (k * 64 + n)) =
      if k = e then accClamp false (s32 (SMap.get 0 d.red.store (e * 64 + n)) + nth 0 vs n)
      else s32 (SMap.get 0 d.red.store (k * 64 + n)) := by
  simp only [addEntry, Dev.setRed, SMap.get_writeRun, List.length_map, List.length_zip, SMap.readRun_length, hlen, Nat.min_self]
  by_cases hk : k = e
  · subst hk
    rw [if_pos (by omega), if_pos rfl, Nat.add_sub_cancel_left, nth_eq_getElem 0 (hlen ▸ hn), ← s32_ofInt_accClamp]
    simp [hlen, hn, accAdd, SMap.readRun_eq]
  · rw [if_neg (by omega), if_neg hk]

theorem addEntry_frame (d : Dev) (e : Nat) (vs : List Int) :
    (addEntry d e vs).1 = { d with red := { d.red with store := (addEntry d e vs).1.red.store } } := rfl

/-- 64 codes added to each of the first `k` entries from `base` on. -/
def addEntries (base : Nat) (vs : Nat → List Int) (k : Nat) (d : Dev) : Dev :=
  d.forEach (List.range k) (fun d b => (addEntry d (base + b) (vs b)).1)

section
variable (base : Nat) (vs : Nat → List Int) (d : Dev)

theorem addEntries_succ (k : Nat) :
    addEntries base vs (k + 1) d = (addEntry (addEntries base vs k d) (base + k) (vs k)).1 := by
  rw [addEntries, Dev.forEach, List.range_succ, List.foldl_append]
  rfl

theorem addEntries_frame (k : Nat) :
    addEntries base vs k d = { d with red := { d.red with store := (addEntries base vs k d).red.store } } := by
  induction k with
  | zero => rfl
  | succ k ih => rw [addEntries_succ, addEntry_frame, ih]

/-- Each entry takes its own sum once, whatever the others take. -/
theorem addEntries_code (hlen : ∀ b, (vs b).length = 64) (k : Nat) {b n : Nat} (hn : n < 64) :
    s32 (SMap.get 0 (addEntries base vs k d).red.store ((base + b) * 64 + n)) =
      if b < k then accClamp false (s32 (SMap.get 0 d.red.store ((base + b) * 64 + n)) + nth 0 (vs b) n)
      else s32 (SMap.get 0 d.red.store ((base + b) * 64 + n)) := by
  induction k with
  | zero => rfl
  | succ k ih =>
    rw [addEntries_succ, addEntry_code _ _ (hlen k) hn]
    by_cases hb : b = k
    · subst hb
      rw [if_pos rfl, ih, if_neg (lt_irrefl b), if_pos (Nat.lt_succ_self b)]
    · rw [if_neg (by omega), ih]
      exact if_congr (by omega) rfl rfl

end

/-- The SAT flags gathered beside the sums do not touch them. -/
theorem addTile_fst (d : Dev) (c : RCtx) (r : Rcd) : (d.addTile c r).1 = addEntries (c.base + 64 * r.tile) r.codes 64 d := by
  rw [Dev.addTile, addEntries, Dev.forEach]
  exact (List.foldl_hom Prod.fst (g₁ := addTileBlock c r) fun _ _ => rfl).symm

theorem Rcd.codes_length (r : Rcd) (b : Nat) : (r.codes b).length = 64 := by simp [Rcd.codes]

theorem Rcd.nth_codes (r : Rcd) (b : Nat) {n : Nat} (hn : n < 64) :
    nth 0 (r.codes b) n = s32 (BitVec.ofNat 32 (leAt r.body (256 * b + 4 * n) 4)) := by
  rw [nth_eq_getElem 0 (by rwa [r.codes_length])]
  simp [Rcd.codes]

/-- A DATA_UP counts for its tile. -/
theorem RCtx.counted_tileCnt {c : RCtx} {r : Rcd} (sat : Nat) (h : r.tile < c.tileCnt.length) :
    nth 0 (c.counted r sat).tileCnt r.tile = nth 0 c.tileCnt r.tile + r.cnt := by
  simp [RCtx.counted, nth, setNth, h]

theorem RCtx.counted_void (c : RCtx) (r : Rcd) (sat : Nat) :
    (c.counted r sat).void.contains r.tile = (r.void || c.void.contains r.tile) := by
  unfold RCtx.counted
  split
  · next h =>
    obtain ⟨hvoid, -⟩ := Bool.and_eq_true_iff.1 h
    simp [hvoid]
  · next h =>
    cases hvoid : r.void with
    | false => rfl
    | true => simpa [hvoid] using h

end Sys2Proof.Machine
end

section
/-! A reduce context closes (R312, R319): its descriptors complete DISCARDED, and no context of its name is open. -/

namespace Sys2Proof.Machine

open Sys2Proof.Laws

/-- Finishing decides a descriptor that has no status yet, and no other. -/
theorem Dev.finish_done (d : Dev) (f st k : Nat) : ((d.finish f st).flight k).map Flight.done =
    (d.flight k).map (fun x => if k = f then some (x.done.getD st) else x.done) := by
  by_cases hk : k = f
  · subst hk
    rw [Dev.finish, Dev.flight_modFlight _ _ _ (fun x => by split <;> rfl)]
    cases hx : d.flight k with
    | none => rw [Dev.releasePins, hx]; simp [hx]
    | some x => rw [Dev.releasePins_flight hx]; cases hd : x.done <;> simp [hd]
  · simp [d.finish_flight_ne st hk, hk]

theorem Dev.forEach_finish_done (l : List Nat) (st k : Nat) (d : Dev) :
    ((d.forEach l (fun d f => d.finish f st)).flight k).map Flight.done =
      (d.flight k).map (fun x => if k ∈ l then some (x.done.getD st) else x.done) := by
  induction l generalizing d with
  | nil => simp
  | cons f l ih =>
    rw [Dev.forEach_cons, ih]
    have hstep := d.finish_done f st k
    cases hx : d.flight k with
    | none =>
      rw [hx] at hstep
      rw [Option.map_eq_none_iff.1 hstep, Option.map_none, Option.map_none]
    | some x =>
      rw [hx] at hstep
      obtain ⟨y, hy, hdone⟩ := Option.map_eq_some_iff.1 hstep
      rw [hy, Option.map_some, Option.map_some, hdone]
      by_cases hf : k = f <;> simp [hf]

section
variable (d : Dev) (c : RCtx) (skip : Option Nat)

/-- The device after a context's ABORT is sent. -/
def Dev.abortSent : Dev :=
  d.forEach (c.neighbours.filter (fun p => skip != some p)) (fun d p => sendRcd d c p (mkRecord d c 4 0 false 0 0 []))

theorem abortCtx_eq :
    abortCtx d c skip = ((d.abortSent c skip).forEach c.flights (fun d f => d.finish f stDiscard)).dropCtx c := rfl

theorem Dev.abortSent_red : (d.abortSent c skip).red = d.red :=
  Dev.forEach_keeps Dev.red (fun d p => sendRcd d c p (mkRecord d c 4 0 false 0 0 [])) (fun _ _ => rfl) _ d

theorem Dev.abortSent_sched : (d.abortSent c skip).sched = d.sched :=
  Dev.forEach_keeps Dev.sched (fun d p => sendRcd d c p (mkRecord d c 4 0 false 0 0 [])) (fun _ _ => rfl) _ d

theorem Dev.dropCtx_ctxs : (d.dropCtx c).red.ctxs = d.red.ctxs.filter (fun b => !c.sameAs b) := rfl

theorem abortCtx_ctxs : (abortCtx d c skip).red.ctxs = d.red.ctxs.filter (fun b => !c.sameAs b) := by
  have hred : ((d.abortSent c skip).forEach c.flights (fun d f => d.finish f stDiscard)).red = d.red :=
    (Dev.forEach_keeps Dev.red _ (fun d f => d.finish_red f stDiscard) _ _).trans (d.abortSent_red c skip)
  rw [abortCtx_eq, Dev.dropCtx_ctxs, hred]

theorem abortCtx_done (k : Nat) : ((abortCtx d c skip).flight k).map Flight.done =
    (d.flight k).map (fun x => if k ∈ c.flights then some (x.done.getD stDiscard) else x.done) := by
  have hdrop : (abortCtx d c skip).sched = ((d.abortSent c skip).forEach c.flights (fun d f => d.finish f stDiscard)).sched := rfl
  rw [Dev.flight_congr hdrop, Dev.forEach_finish_done, Dev.flight_congr (d.abortSent_sched c skip)]

variable {d c} in
theorem abortCtx_ctxOf {tag id epoch : Nat} (h : d.ctxOf tag id epoch = some c) : (abortCtx d c skip).ctxOf tag id epoch = none := by
  have hname := List.find?_some h
  simp only [Bool.and_eq_true, beq_iff_eq] at hname
  obtain ⟨⟨rfl, rfl⟩, rfl⟩ := hname
  rw [Dev.ctxOf, abortCtx_ctxs, List.find?_eq_none]
  intro b hb hsame
  have hother := (List.mem_filter.1 hb).2
  simp only [RCtx.sameAs, Bool.and_eq_true, beq_iff_eq] at hsame hother
  simp [hsame] at hother

variable (cause : Nat)

theorem abortEvent_red : (abortEvent d c cause).red = d.red := by
  rw [abortEvent, (told_eventJ d _ _ _ _ _ _ (by decide)).rest]

theorem abortEvent_sched : (abortEvent d c cause).sched = d.sched := by
  rw [abortEvent, (told_eventJ d _ _ _ _ _ _ (by decide)).rest]

end

section
variable {d : Dev} {tag id epoch : Nat} {c : RCtx} (h : d.ctxOf tag id epoch = some c)
include h

theorem reduceTimeout_uncommitted (hc : c.committed = false) :
    reduceTimeout tag id epoch d = abortEvent (abortCtx d c none) c 1 := by
  simp [reduceTimeout, h, hc]

theorem abortEvent_abortCtx_ctxOf (skip : Option Nat) (cause : Nat) :
    (abortEvent (abortCtx d c skip) c cause).ctxOf tag id epoch = none := by
  rw [Dev.ctxOf, abortEvent_red]
  exact abortCtx_ctxOf skip h

end

/-- An undecided descriptor of an aborted context completes DISCARDED. -/
theorem abortEvent_abortCtx_flight (d : Dev) {c : RCtx} (skip : Option Nat) (cause : Nat) {f : Nat} (hf : f ∈ c.flights)
    {x : Flight} (hx : d.flight f = some x) (hd : x.done = none) :
    ∃ y, (abortEvent (abortCtx d c skip) c cause).flight f = some y ∧ y.done = some stDiscard := by
  have hdone := abortCtx_done d c skip f
  rw [hx, Option.map_some, if_pos hf, hd] at hdone
  rw [Dev.flight_congr (abortEvent_sched ..)]
  exact Option.map_eq_some_iff.1 hdone

theorem exec_reduceTimeout (tag id epoch : Nat) (s : State) :
    exec (.reduceTimeout tag id epoch) s = .next { s with dev := reduceTimeout tag id epoch s.dev } := rfl

/-- Settles O21: `takeRecord` and `takeRcd` case by case, the sums of a DATA_UP entry by entry, and the close of a context. -/
theorem reduceRecordsAreTaken : Obligations.ReduceRecordsAreTaken := by
  unfold Obligations.ReduceRecordsAreTaken
  refine ⟨fun s port bs hgood => ?records, fun s tag id epoch c hc hopen => ?timeout⟩
  case timeout =>
    exact ⟨_, exec_reduceTimeout tag id epoch s, reduceTimeout_uncommitted hc hopen,
      by rw [reduceTimeout_uncommitted hc hopen]; exact abortEvent_abortCtx_ctxOf hc none 1,
      fun f hf x hx hd => by rw [reduceTimeout_uncommitted hc hopen]; exact abortEvent_abortCtx_flight _ none 1 hf hx hd⟩
  intro r d
  refine ⟨fun hnone => ?waits, fun c hc => ⟨fun hk => ?abort, fun htiles hstep => ⟨fun hk hcount => ?scaleUp,
    fun hk hroot htb hport => ?scaleDown, fun hk htile hkid htb hcount hlen => ?dataUp⟩⟩⟩
  case waits => rw [exec_goodRecord hgood, takeRecord_unopened port hnone]
  all_goals
    have hmeets := exec_goodRecord hgood
    rw [takeRecord_opened port hc] at hmeets
  case abort =>
    rw [hk, takeRcd_abort _ _ hk] at hmeets
    exact hmeets
  case scaleUp =>
    rw [hk, takeRcd_scaleUp _ _ htiles hstep hk, if_neg (Nat.not_lt.2 hcount)] at hmeets
    exact hmeets
  case scaleDown =>
    rw [hk, takeRcd_scaleDown _ _ htiles hstep hk, if_neg (by simp [hroot, htb, hport])] at hmeets
    exact hmeets
  case dataUp =>
    have hfits : ¬ (c.tiles ≤ r.tile ∨ !c.kids.contains (port, r.src) ∨ c.tb = none ∨ c.subtree < nth 0 c.tileCnt r.tile + r.cnt) := by
      rw [hkid]
      simp [htb, htile, hcount]
    rw [hk, takeRcd_dataUp _ _ htiles hstep hk, if_neg hfits, addTile_fst] at hmeets
    have hframe := addEntries_frame (c.base + 64 * r.tile) r.codes d 64
    refine ⟨_, _, hmeets, RCtx.counted_tileCnt _ (hlen ▸ htile), rfl, rfl, rfl, c.counted_void r _, ?_, ?_, fun b n hb hn => ?_⟩
    · rw [hframe]
    · rw [hframe]
    · rw [addEntries_code _ _ _ r.codes_length 64 hn, if_pos hb, r.nth_codes b hn]

end Sys2Proof.Machine
end

section
/-! Numbers laid out as bit fields side by side, and their bytes: every field reads back (R5, R353, R337). -/

namespace Sys2Proof.Machine

/-! ### Fields side by side -/

/-- The number whose fields, as pairs of width and value, lie side by side, the first in the lowest bits. -/
def packed : List (Nat × Nat) → Nat
  | [] => 0
  | f :: fs => f.2 % 2 ^ f.1 + 2 ^ f.1 * packed fs

def packedWidth (fs : List (Nat × Nat)) : Nat := (fs.map Prod.fst).sum

@[simp] theorem packedWidth_cons (f : Nat × Nat) (fs : List (Nat × Nat)) : packedWidth (f :: fs) = f.1 + packedWidth fs := by
  simp [packedWidth]

theorem packed_lt (fs : List (Nat × Nat)) : packed fs < 2 ^ packedWidth fs := by
  induction fs with
  | nil => simp [packed, packedWidth]
  | cons f fs ih =>
    have hlow := Nat.mod_lt f.2 (Nat.two_pow_pos f.1)
    rw [packed, packedWidth_cons, Nat.pow_add]
    calc f.2 % 2 ^ f.1 + 2 ^ f.1 * packed fs < 2 ^ f.1 + 2 ^ f.1 * packed fs := by omega
      _ = 2 ^ f.1 * (packed fs + 1) := by ring
      _ ≤ 2 ^ f.1 * 2 ^ packedWidth fs := Nat.mul_le_mul_left _ ih

theorem packed_append (fs gs : List (Nat × Nat)) : packed (fs ++ gs) = packed fs + 2 ^ packedWidth fs * packed gs := by
  induction fs with
  | nil => simp [packed, packedWidth]
  | cons f fs ih => rw [List.cons_append, packed, ih, packed, packedWidth_cons]; ring

/-- Above a field the fields after it stand as they are. -/
theorem fld_packed_cons (f : Nat × Nat) (fs : List (Nat × Nat)) (lo n : Nat) :
    fld (packed (f :: fs)) (f.1 + lo) n = fld (packed fs) lo n := by
  rw [fld, packed, Nat.pow_add, ← Nat.div_div_eq_div_mul, Nat.add_mul_div_left _ _ (Nat.two_pow_pos _),
    Nat.div_eq_of_lt (Nat.mod_lt _ (Nat.two_pow_pos _)), Nat.zero_add, fld]

/-- Field `i` stands above the widths of the fields before it. -/
theorem fld_packed {fs : List (Nat × Nat)} {lo n v : Nat} (i : Nat) (h : fs[i]? = some (n, v))
    (hlo : packedWidth (fs.take i) = lo) (hv : v < 2 ^ n) : fld (packed fs) lo n = v := by
  subst hlo
  induction fs generalizing i with
  | nil => simp at h
  | cons f fs ih =>
    cases i with
    | zero =>
      obtain rfl : f = (n, v) := by simpa using h
      simp [fld, packed, packedWidth, Nat.mod_eq_of_lt hv]
    | succ i => rw [List.take_succ_cons, packedWidth_cons, fld_packed_cons, ih i (by simpa using h)]

theorem bit_packed {fs : List (Nat × Nat)} {lo : Nat} {b : Bool} (i : Nat) (h : fs[i]? = some (1, bool01 b))
    (hlo : packedWidth (fs.take i) = lo) : bit (packed fs) lo = b := by
  have hfld : fld (packed fs) lo 1 = bool01 b := fld_packed i h hlo (bool01_lt_two b)
  exact (congrArg (· == 1) hfld).trans (bool01_beq_one b)

/-- A field of a field. -/
theorem fld_fld (w lo : Nat) {m i n : Nat} (h : i + n ≤ m) : fld (fld w lo m) i n = fld w (lo + i) n := by
  refine Nat.eq_of_testBit_eq fun k => ?_
  rw [testBit_fld, testBit_fld, testBit_fld, Nat.add_assoc]
  by_cases hk : k < n
  · simp [hk, show i + k < m by omega]
  · simp [hk]

/-! ### Bytes of a number -/

@[simp] theorem length_leBytes (n v : Nat) : (leBytes n v).length = n := by
  induction n generalizing v with
  | zero => rfl
  | succ n ih => rw [leBytes, List.length_cons, ih]

theorem ofLe_leBytes {n v : Nat} (h : v < 256 ^ n) : ofLe (leBytes n v) = v := by
  induction n generalizing v with
  | zero => simp_all [leBytes, ofLe]
  | succ n ih =>
    have hhigh : v / 256 < 256 ^ n := Nat.div_lt_of_lt_mul (by rwa [← Nat.pow_succ'])
    rw [leBytes, ofLe, ih hhigh, BitVec.toNat_ofNat]
    exact Nat.mod_add_div v 256

/-- A number written after `o` bytes is read at offset `o`. -/
theorem leAt_leBytes {xs ys : Bytes} {o n v : Nat} (ho : xs.length = o) (hv : v < 256 ^ n) :
    leAt (xs ++ leBytes n v ++ ys) o n = v := by
  rw [leAt, List.append_assoc, List.drop_left' ho, List.take_left' (length_leBytes n v), ofLe_leBytes hv]

@[simp] theorem length_fitBytes (n : Nat) (bs : Bytes) : (fitBytes n bs).length = n := by
  rw [fitBytes, List.length_append, List.length_take, List.length_replicate]
  omega

theorem fitBytes_of_length {n : Nat} {bs : Bytes} (h : bs.length = n) : fitBytes n bs = bs := by
  rw [fitBytes, List.take_of_length_le h.le, h, Nat.sub_self, List.replicate_zero, List.append_nil]

end Sys2Proof.Machine
end

section
/-! Routed headers (R353) and whole messages (R352) read back. -/

namespace Sys2Proof.Machine

section
variable (h : Hdr) (n : Nat)

/-- The fields of a routed header, those that R353 keeps at 0 among them. -/
def hdrFields : List (Nat × Nat) :=
  [(8, h.kind), (8, h.hops), (15, h.dst), (1, bool01 h.dstHost), (15, h.src), (1, bool01 h.srcHost), (6, h.sjob), (8, h.schan),
    (2, 0), (16, n), (16, 0), (32, h.seq)]

theorem hdrBytes_eq : hdrBytes h n = leBytes 16 (packed (hdrFields h n)) := by
  refine congrArg (leBytes 16) ?_
  simp only [packed, hdrFields, at', Nat.zero_mod]
  ring

theorem length_hdrBytes : (hdrBytes h n).length = 16 := length_leBytes 16 _

theorem leAt_hdrBytes (rest : Bytes) : leAt (hdrBytes h n ++ rest) 0 16 = packed (hdrFields h n) := by
  have hlt : packed (hdrFields h n) < 256 ^ 16 := lt_of_lt_of_eq (packed_lt _) (by simp [hdrFields, packedWidth])
  rw [hdrBytes_eq]
  exact leAt_leBytes (xs := []) rfl hlt

theorem hdrLen_hdrBytes (hn : n < 2 ^ 16) (rest : Bytes) : hdrLen (hdrBytes h n ++ rest) = n := by
  rw [hdrLen, leAt_hdrBytes]
  exact fld_packed 9 rfl rfl hn

variable {h} in
theorem hdrOf_hdrBytes (hf : HdrFits h) (rest : Bytes) : hdrOf (hdrBytes h n ++ rest) = h := by
  obtain ⟨hkind, hhops, hdst, hsrc, hsjob, hschan, hseq⟩ := hf
  obtain ⟨kind, hops, dst, dstHost, src, srcHost, sjob, schan, seq⟩ := h
  rw [hdrOf, leAt_hdrBytes]
  simp only [Hdr.mk.injEq]
  exact ⟨fld_packed 0 rfl rfl hkind, fld_packed 1 rfl rfl hhops, fld_packed 2 rfl rfl hdst,
    bit_packed 3 rfl rfl, fld_packed 4 rfl rfl hsrc, bit_packed 5 rfl rfl, fld_packed 6 rfl rfl hsjob,
    fld_packed 7 rfl rfl hschan, fld_packed 11 rfl rfl hseq⟩

end

theorem msgBytes_eq (m : Msg) : ∃ pad, msgBytes m = hdrBytes m.hdr m.body.length ++ (m.body ++ pad) :=
  ⟨_, List.append_assoc ..⟩

theorem length_msgBytes_mod_eight (m : Msg) : (msgBytes m).length % 8 = 0 := by
  rw [msgBytes, List.length_append, List.length_replicate]
  omega

/-- Settles O41: the header's word is its fields side by side. -/
theorem headersReadBack : Obligations.HeadersReadBack := by
  unfold Obligations.HeadersReadBack
  refine ⟨fun h n rest hf hn => ⟨length_hdrBytes h n, hdrOf_hdrBytes n hf rest, hdrLen_hdrBytes h n hn rest⟩, fun m hf hlen => ?_⟩
  obtain ⟨pad, hbytes⟩ := msgBytes_eq m
  refine ⟨?_, ?_, length_msgBytes_mod_eight m⟩
  · rw [hbytes, hdrOf_hdrBytes _ hf]
  · rw [hbytes, hdrLen_hdrBytes _ _ hlen, List.drop_left' (length_hdrBytes ..), List.take_left' rfl]

end Sys2Proof.Machine
end

section
/-! A superframe carries its trailer and its frames (R337 to R339). -/

namespace Sys2Proof.Machine

/-! ### The trailer -/

/-- The FKINDs of a superframe's 20 frames, 0 beyond the last. -/
def fkindAt (frames : List Frame) (i : Nat) : Nat := ((frames[i]?).map (·.fkind)).getD 0

/-- The FKIND fields of the first `n` frames. -/
def fkindFields (frames : List Frame) (n : Nat) : List (Nat × Nat) := (List.range n).map (fun i => (4, fkindAt frames i))

theorem packedWidth_fkindFields (frames : List Frame) (n : Nat) : packedWidth (fkindFields frames n) = 4 * n := by
  simp [packedWidth, fkindFields, Function.comp_def, Nat.mul_comm]

theorem sumNat_concat (l : List Nat) (x : Nat) : sumNat (l ++ [x]) = sumNat l + x := by simp [sumNat]

theorem sumNat_fkinds (frames : List Frame) (lo n : Nat) :
    sumNat ((List.range n).map (fun i => at' (lo + 4 * i) 4 (fkindAt frames i))) = 2 ^ lo * packed (fkindFields frames n) := by
  induction n with
  | zero => rfl
  | succ n ih =>
    have hlast : fkindFields frames (n + 1) = fkindFields frames n ++ [(4, fkindAt frames n)] := by
      rw [fkindFields, List.range_succ, List.map_append]; rfl
    rw [List.range_succ, List.map_append, List.map_singleton, sumNat_concat, ih, hlast, packed_append, packedWidth_fkindFields, at']
    simp only [packed]
    ring

theorem fld_fkindFields {frames : List Frame} {n i : Nat} (hi : i < n) (hk : fkindAt frames i < 16) :
    fld (packed (fkindFields frames n)) (4 * i) 4 = fkindAt frames i := by
  have htake : (fkindFields frames n).take i = fkindFields frames i := by
    rw [fkindFields, ← List.map_take, List.take_range, Nat.min_eq_left hi.le, fkindFields]
  have hget : (fkindFields frames n)[i]? = some (4, fkindAt frames i) := by simp [fkindFields, hi]
  exact fld_packed i hget (by rw [htake, packedWidth_fkindFields]) hk

section
variable (sseq ack : Nat) (nak unnum : Bool) (frames : List Frame) (cret : List (Nat × Nat))

/-- The fields of a trailer; the 20 FKINDs are one field of 80 bits. -/
def trailerFields : List (Nat × Nat) :=
  [(12, sseq), (12, ack), (1, bool01 nak), (1, bool01 unnum), (80, packed (fkindFields frames 20)),
    (3, (nth (0, 0) cret 0).1), (8, (nth (0, 0) cret 0).2), (3, (nth (0, 0) cret 1).1), (8, (nth (0, 0) cret 1).2)]

theorem packed_fkindFields_lt : packed (fkindFields frames 20) < 2 ^ 80 := by
  have hlt := packed_lt (fkindFields frames 20)
  rwa [packedWidth_fkindFields] at hlt

theorem trailerWord_eq : trailerWord sseq ack nak unnum frames cret = packed (trailerFields sseq ack nak unnum frames cret) := by
  have hkinds := sumNat_fkinds frames 26 20
  simp only [fkindAt] at hkinds
  simp only [trailerWord, trailerFields, packed, at'] at hkinds ⊢
  rw [hkinds, Nat.mod_eq_of_lt (packed_fkindFields_lt frames)]
  ring

end

/-! ### The frames -/

/-- The bytes of frames laid one after another. -/
def frameBytes (frames : List Frame) : Bytes := frames.flatMap (fun f => fitBytes 256 f.bytes)

theorem length_frameBytes (frames : List Frame) : (frameBytes frames).length = 256 * frames.length := by
  simp [frameBytes, List.length_flatMap, Nat.mul_comm]

theorem take_drop_frameBytes {frames : List Frame} {i : Nat} {f : Frame} (hf : frames[i]? = some f) (rest : Bytes) :
    ((frameBytes frames ++ rest).drop (256 * i)).take 256 = fitBytes 256 f.bytes := by
  induction frames generalizing i with
  | nil => simp at hf
  | cons g frames ih =>
    have hcons : frameBytes (g :: frames) ++ rest = fitBytes 256 g.bytes ++ (frameBytes frames ++ rest) := by
      rw [frameBytes, List.flatMap_cons, List.append_assoc, frameBytes]
    rw [hcons]
    cases i with
    | zero =>
      obtain rfl : g = f := by simpa using hf
      exact List.take_left' (length_fitBytes ..)
    | succ i => rw [Nat.mul_succ, Nat.add_comm, ← List.drop_drop, List.drop_left' (length_fitBytes ..), ih (by simpa using hf)]

/-! ### The whole superframe -/

section
variable {sseq ack : Nat} {nak unnum : Bool} {frames : List Frame} {cret : List (Nat × Nat)}

theorem superframe_eq : superframe sseq ack nak unnum frames cret =
    fitBytes 5120 (frameBytes frames) ++ leBytes 16 (packed (trailerFields sseq ack nak unnum frames cret)) ++
      leBytes 4 (crc32c (fitBytes 5120 (frameBytes frames) ++
        leBytes 16 (packed (trailerFields sseq ack nak unnum frames cret)))) := by
  rw [superframe, trailerWord_eq]; rfl

theorem length_superframe : (superframe sseq ack nak unnum frames cret).length = 5140 := by
  simp [superframe_eq]

theorem crc32c_superframe : crc32c ((superframe sseq ack nak unnum frames cret).take 5136) =
    leAt (superframe sseq ack nak unnum frames cret) 5136 4 := by
  rw [superframe_eq]
  generalize hb : fitBytes 5120 (frameBytes frames) ++ leBytes 16 (packed (trailerFields sseq ack nak unnum frames cret)) = b
  have hlen : b.length = 5136 := by simp [← hb]
  have hcrc : crc32c b < 256 ^ 4 := BitVec.isLt _
  have hread := leAt_leBytes (ys := []) hlen hcrc
  rw [List.append_nil] at hread
  rw [hread, List.take_left' hlen]

theorem leAt_superframe : leAt (superframe sseq ack nak unnum frames cret) 5120 16 =
    packed (trailerFields sseq ack nak unnum frames cret) := by
  have hlt : packed (trailerFields sseq ack nak unnum frames cret) < 256 ^ 16 :=
    lt_of_lt_of_eq (packed_lt _) (by simp [trailerFields, packedWidth])
  rw [superframe_eq]
  exact leAt_leBytes (length_fitBytes ..) hlt

theorem frame_superframe {i : Nat} {f : Frame} (hn : frames.length ≤ 20) (hf : frames[i]? = some f) (hlen : f.bytes.length = 256) :
    ((superframe sseq ack nak unnum frames cret).drop (256 * i)).take 256 = f.bytes := by
  have hfit : fitBytes 5120 (frameBytes frames) = frameBytes frames ++ List.replicate (5120 - (frameBytes frames).length) 0 := by
    rw [fitBytes, List.take_of_length_le (by rw [length_frameBytes]; omega)]
  rw [superframe_eq, hfit, List.append_assoc, List.append_assoc, take_drop_frameBytes hf, fitBytes_of_length hlen]

end

theorem nth_of_forall {α : Type} {P : α → Prop} {d : α} {l : List α} (hd : P d) (hl : ∀ x ∈ l, P x) (i : Nat) : P (nth d l i) := by
  rw [nth]
  cases hi : l[i]? with
  | none => exact hd
  | some x => exact hl x (List.mem_of_getElem? hi)

theorem fkindAt_lt {frames : List Frame} (h : ∀ f ∈ frames, f.fkind < 16) (i : Nat) : fkindAt frames i < 16 := by
  rw [fkindAt]
  cases hi : frames[i]? with
  | none => decide
  | some f => exact h f (List.mem_of_getElem? hi)

/-- Settles O42: the trailer is its fields side by side, and the frames fill whole blocks of 256 bytes. -/
theorem superframesCarryTheirFrames : Obligations.SuperframesCarryTheirFrames := by
  unfold Obligations.SuperframesCarryTheirFrames
  intro sseq ack nak unnum frames cret hsseq hack hn _ hframes hcret b t
  have hret (i : Nat) := nth_of_forall (P := fun c : Nat × Nat => c.1 < 8 ∧ c.2 < 256) (d := (0, 0)) (by decide) hcret i
  obtain ⟨hchan0, hcount0⟩ := hret 0
  obtain ⟨hchan1, hcount1⟩ := hret 1
  have ht : t = packed (trailerFields sseq ack nak unnum frames cret) := leAt_superframe
  rw [ht]
  refine ⟨length_superframe, crc32c_superframe, fld_packed 0 rfl rfl hsseq, fld_packed 1 rfl rfl hack,
    bit_packed 2 rfl rfl, bit_packed 3 rfl rfl,
    Prod.ext (fld_packed 5 rfl rfl hchan0) (fld_packed 6 rfl rfl hcount0),
    Prod.ext (fld_packed 7 rfl rfl hchan1) (fld_packed 8 rfl rfl hcount1), fun i hi => ?_,
    fun i f hf => frame_superframe hn hf (hframes f (List.mem_of_getElem? hf)).2⟩
  have hkinds : fld (packed (trailerFields sseq ack nak unnum frames cret)) 26 80 = packed (fkindFields frames 20) :=
    fld_packed 4 rfl rfl (packed_fkindFields_lt frames)
  rw [← fld_fld _ 26 (m := 80) (by omega), hkinds]
  exact fld_fkindFields hi (fkindAt_lt (fun f hf => (hframes f hf).1) i)

end Sys2Proof.Machine
end

section
/-! A command that changes the device alone, and the guards of the model: a guard names what rules an effect out, a statement
what lets it through. -/

namespace Sys2Proof.Machine

/-- A command whose meaning is a change of the device answers what that change is known to be. -/
theorem next_dev {s : State} {d e : Dev} (h : d = e) :
    (.next { s with dev := d } : Host.Outcome State Fault Refusal) = .next { s with dev := e } := by rw [h]

section
variable {α : Type} {p c : Prop} [Decidable c] {a b : α} (h : p ↔ ¬c)
include h

theorem guard_open (hp : p) : (if c then a else b) = b := if_neg (h.1 hp)

theorem guard_shut (hp : ¬p) : (if c then a else b) = a := if_pos (not_not.1 (mt h.2 hp))

end

end Sys2Proof.Machine
end

section
/-! Boot, the image transfer and updates (R358, R370, R470, R485 to R491, R496, R510). -/

namespace Sys2Proof.Machine

open Sys2Proof.Safety Sys2Proof.Laws

/-! ### A valid image (R486) -/

theorem ite_some_eq_none {α : Type} {c : Prop} [Decidable c] {a : α} {x : Option α} :
    (if c then some a else x) = none ↔ ¬c ∧ x = none := by
  by_cases h : c <;> simp [h]

theorem ite_none_some_eq_none {α : Type} {c : Prop} [Decidable c] {a : α} : (if c then none else some a) = none ↔ c := by
  by_cases h : c <;> simp [h]

theorem imLenOk_iff (h : Nat) : imLenOk h = true ↔ 65536 ≤ fld h 64 32 ∧ fld h 64 32 ≤ 16776704 := decide_eq_true_iff

theorem imageFault_eq_none (o : Otp) (hdr body : Bytes) : imageFault o hdr body = none ↔
    fld (leAt hdr 0 512) 0 32 = 0x4F5A3237 ∧ fld (leAt hdr 0 512) 32 32 = 1 ∧ imLenOk (leAt hdr 0 512) = true ∧
    fld (leAt hdr 0 512) 198 3130 = 0 ∧ imFloor (leAt hdr 0 512) ≤ imSvn (leAt hdr 0 512) ∧ imFloor (leAt hdr 0 512) ≤ 64 ∧
    bit (imRevoke (leAt hdr 0 512)) (imKey (leAt hdr 0 512)) = false ∧ o.revoked.getLsbD (imKey (leAt hdr 0 512)) = false ∧
    o.minSvn ≤ imSvn (leAt hdr 0 512) ∧
    Config.fwSigOk (imKey (leAt hdr 0 512)) (imDigest hdr body) ((hdr.drop 416).take 96) = true := by
  simp only [imageFault, ite_some_eq_none, ite_none_some_eq_none, not_or, not_not, not_lt, ne_eq, Bool.not_eq_false,
    Bool.not_eq_true, and_assoc]

/-! ### Every port trains (R358, R370, R488) -/

theorem portState_inj {p q : Nat} (h : O.PORT_STATE p = O.PORT_STATE q) : p = q := by
  unfold O.PORT_STATE at h
  omega

/-- Of a list of ports each is put into training, and every other stays. -/
theorem forEach_dset_portState (l : List Nat) (d : Dev) (p : Nat) :
    (d.forEach l (fun d p => d.dset (O.PORT_STATE p) 1)).dget (O.PORT_STATE p) =
      if p ∈ l then 1 else d.dget (O.PORT_STATE p) := by
  induction l generalizing d with
  | nil => rfl
  | cons q l ih =>
    rw [Dev.forEach_cons, ih]
    by_cases hq : p = q
    · simp [hq]
    · simp [hq, Dev.dget_dset_ne d 1 (mt portState_inj hq)]

theorem startPorts_portState (d : Dev) {p : Nat} (hp : p < 16) : (startPorts d).dget (O.PORT_STATE p) = 1 := by
  rw [startPorts, forEach_dset_portState, if_pos (List.mem_range.2 hp)]

theorem startPorts_sec (d : Dev) : (startPorts d).sec = d.sec :=
  Dev.forEach_keeps Dev.sec (fun d p => d.dset (O.PORT_STATE p) 1) (fun _ _ => rfl) _ d

/-! ### What the recorder leaves of the security core -/

theorem told_sec {d e : Dev} (h : Told d e) : e.sec = d.sec := by rw [h.rest]

/-- Events held back from before the core ran may be of any severity: `told_acceptEvent` speaks of those below 8. -/
theorem writeRecord_sec (d : Dev) (r : Rec) : (writeRecord d r).sec = d.sec := by
  rw [writeRecord]
  refine (told_sec (told_notify _ _ _)).trans ?_
  split <;> simp

theorem acceptEvent_sec (d : Dev) (ev : EventIn) : (acceptEvent d ev).sec = d.sec := by
  have halert : (alertFor d.tickNo ev.severity d.recd.nextNo).sec = d.sec := (told_sec (told_alertFor ..)).trans rfl
  unfold acceptEvent
  dsimp only
  split
  · rw [writeRecord_sec]
    split <;> exact halert
  · split
    · split
      · exact halert
      · exact (told_sec (told_loseRec _ _ _)).trans halert
    · split
      · split <;> exact halert
      · exact (told_sec (told_loseRec _ _ _)).trans halert

theorem flushEarly_sec (d : Dev) : (flushEarly d).sec = d.sec := Dev.forEach_keeps Dev.sec _ acceptEvent_sec _ _

/-! ### BOOT (R487) -/

@[simp] theorem Dev.setSec_sec (d : Dev) (f : Sec → Sec) : (d.setSec f).sec = f d.sec := rfl

theorem loadPersisted_sec (d : Dev) : (loadPersisted d).sec = d.sec :=
  Dev.forEach_keeps Dev.sec (fun d (p : Nat × Nat) => d.dset p.1 p.2) (fun _ _ => rfl) _ d

theorem released_sec (d : Dev) (c h : Nat) (dg : Bytes) :
    (released d c h dg).sec = { d.sec with running := true, recovery := false, oldVersion := none } := by
  have hevent (e : Dev) (code loc obj : Nat) (b : Bytes) : (e.event code 1 loc obj b).sec = e.sec :=
    told_sec (told_event e code loc obj b (by decide))
  unfold released
  cases d.sec.oldVersion with
  | none => simp [hevent, flushEarly_sec, loadPersisted_sec]
  | some v => simp [hevent, flushEarly_sec, loadPersisted_sec]

section
variable {s : State} {c : Nat}

/-- The boot ROM of a powered module starts for this cause. -/
def State.boots (s : State) (c : Nat) : Prop :=
  Powered s.dev ∧ s.dev.sec.running = false ∧ s.dev.sec.recovery = false ∧ c = s.dev.sec.bootCause

/-- The image in flash: its header and its body. -/
def Dev.flashHdr (d : Dev) : Bytes := flashImage d 0 512
def Dev.flashBody (d : Dev) : Bytes := bodyOf d.flashHdr (flashImage d)

theorem State.boots_iff_not : s.boots c ↔ ¬((!s.dev.pow.pwrOk) = true ∨ s.dev.pow.latched = true ∨ (!s.dev.pow.rstN) = true ∨
    s.dev.sec.running = true ∨ s.dev.sec.recovery = true ∨ c ≠ s.dev.sec.bootCause) := by
  simp [State.boots, Powered, and_assoc]

theorem boot_idle (h : ¬s.boots c) : boot s c = s := guard_shut State.boots_iff_not h

theorem boot_recovers (h : s.boots c) {n : Nat} (hf : imageFault s.otp s.dev.flashHdr s.dev.flashBody = some n) :
    boot s c = { s with
      dev := (startPorts (s.dev.event 0x0A01 3 7 0 (leBytes 1 n))).setSec (fun x => { x with recovery := true }) } := by
  rw [Dev.flashBody, Dev.flashHdr] at hf
  rw [boot, if_neg (State.boots_iff_not.1 h)]
  dsimp only
  rw [hf]

theorem boot_runs (h : s.boots c) (hf : imageFault s.otp s.dev.flashHdr s.dev.flashBody = none) :
    let h := leAt s.dev.flashHdr 0 512
    boot s c = { s with
      otp := burn s.otp h
      dev := released (if (burn s.otp h).revoked = s.otp.revoked then s.dev
        else s.dev.event 0x0A05 2 7 0 (leBytes 1 (burn s.otp h).revoked.toNat)) c h
          (leBytes 48 (imDigest s.dev.flashHdr s.dev.flashBody).toNat) } := by
  rw [Dev.flashBody, Dev.flashHdr] at hf
  rw [boot, if_neg (State.boots_iff_not.1 h)]
  dsimp only
  rw [hf]
  rfl

theorem exec_boot : exec (.boot c) s = .next (boot s c) := rfl

end

/-! ### DEVICE_READY (R370) -/

section
variable {d : Dev} {bb bs bp rf : List Nat}

/-- The firmware runs, phase 1 of power has ended, and the module is not ready yet. -/
def Dev.comesReady (d : Dev) : Prop := d.sec.running = true ∧ d.sec.ready = false ∧ 5 ≤ d.pow.rails

theorem Dev.comesReady_iff_not : d.comesReady ↔ ¬((!d.sec.running) = true ∨ d.sec.ready = true ∨ d.pow.rails < 5) := by
  simp [Dev.comesReady]

theorem deviceReady_comes (h : d.comesReady) : deviceReady d bb bs bp rf =
    startPorts ((selfTest (hardRepair (restoreLedger d) rf) bb bs bp).setSec (fun x => { x with ready := true })) :=
  guard_open Dev.comesReady_iff_not h

theorem deviceReady_idle (h : ¬d.comesReady) : deviceReady d bb bs bp rf = d := guard_shut Dev.comesReady_iff_not h

end

/-! ### A neighbour message of MGMT -/

section
variable {d : Dev} {p : Nat} {m : Msg} {kind : Nat} {layout : Bool} {f : Dev → Dev}

theorem fromMgmt_iff_not : FromMgmt d p m kind ↔ ¬((!d.portUp p) = true ∨ m.vc ≠ 4 ∨ m.hdr.kind ≠ kind) := by
  simp [FromMgmt]

theorem mgmtRx_other (h : ¬FromMgmt d p m kind) : mgmtRx d p m kind layout f = d := guard_shut fromMgmt_iff_not h

section
variable (h : FromMgmt d p m kind)
include h

theorem mgmtRx_taken (hlayout : layout = true) : mgmtRx d p m kind layout f = f d :=
  (guard_open fromMgmt_iff_not h).trans (if_neg (by simp [hlayout]))

theorem mgmtRx_fault (hlayout : ¬layout = true) : mgmtRx d p m kind layout f = protoFault d p :=
  (guard_open fromMgmt_iff_not h).trans (if_pos (by simp [hlayout]))

end

end

/-! ### IMAGE_REQ and IMAGE_DATA (R489, R490) -/

section
variable {d : Dev} {o : Otp} {p : Nat} {m : Msg}

/-- The number in the first 16 bytes of a body. -/
def bodyWord (m : Msg) : Nat := leAt m.body 0 16

/-- IMAGE_DATA of a status with `n` bytes of the flash from the offset asked for. -/
def imageAnswer (d : Dev) (m : Msg) (st n : Nat) : Msg :=
  ⟨4, ⟨0x41, 0, 0, false, 0, false, 0, 0, 0⟩,
    leBytes 16 (at' 0 32 (fld (bodyWord m) 0 32) + at' 32 16 n + at' 48 8 st) ++ flashImage d (fld (bodyWord m) 0 32) n⟩

theorem imageReqOk_iff : imageReqOk m = true ↔ ¬(m.body.length ≠ 16 ∨ fld (leAt m.body 0 16) 32 16 % 64 ≠ 0 ∨
    fld (leAt m.body 0 16) 32 16 < 64 ∨ 65472 < fld (leAt m.body 0 16) 32 16) := by
  simp [imageReqOk, and_assoc]

theorem imageReq_eq : imageReq d p m = d.sendOn p none (if d.sec.ready = false then imageAnswer d m 1 0
    else if d.dget O.FW_SVN < fld (bodyWord m) 64 32 then imageAnswer d m 2 0
    else imageAnswer d m 0 (fld (bodyWord m) 32 16)) := by
  unfold imageReq
  cases hready : d.sec.ready with
  | false => rfl
  | true =>
    by_cases hsvn : d.dget O.FW_SVN < fld (leAt m.body 0 16) 64 32
    · simp [hsvn, imageAnswer, bodyWord]
    · simp [hsvn, imageAnswer, bodyWord]

theorem imageDataOk_iff : imageDataOk m = true ↔ 16 ≤ m.body.length ∧ m.body.length = 16 + fld (leAt m.body 0 16) 32 16 := by
  simp [imageDataOk]

theorem imageData_unasked (hf : d.sec.fetch = none) : imageData d o p m = d := by rw [imageData, hf]

section
variable {f : Fetch} (hf : d.sec.fetch = some f)
include hf

theorem imageData_unwanted (h : ¬(f.port = p ∧ fld (bodyWord m) 0 32 = (nextPart f).1)) : imageData d o p m = d := by
  rw [imageData, hf]
  exact if_pos (not_and_or.1 h)

section
variable (h : f.port = p ∧ fld (bodyWord m) 0 32 = (nextPart f).1)
include h

theorem imageData_refused (hst : fld (bodyWord m) 48 8 ≠ 0 ∨ fld (bodyWord m) 32 16 ≠ (nextPart f).2) :
    imageData d o p m = portGivesNone d o f := by
  rw [imageData, hf]
  exact (if_neg (not_or.2 ⟨not_not.2 h.1, not_not.2 h.2⟩)).trans (if_pos hst)

theorem imageData_part (hst : fld (bodyWord m) 48 8 = 0) (hlen : fld (bodyWord m) 32 16 = (nextPart f).2) :
    imageData d o p m = imagePart d o f (m.body.drop 16) := by
  rw [imageData, hf]
  exact (if_neg (not_or.2 ⟨not_not.2 h.1, not_not.2 h.2⟩)).trans (if_neg (not_or.2 ⟨not_not.2 hst, not_not.2 hlen⟩))

end

end

section
variable {f : Fetch} {data : Bytes}

/-- The device with a part of the image stored. -/
def Dev.partStored (d : Dev) (f : Fetch) (data : Bytes) : Dev :=
  d.setSec (fun x => { x with buffer := SMap.writeRun 0 x.buffer f.got data })

theorem imagePart_later {n : Nat} (hf : f.total = some n) :
    let g := { f with got := f.got + data.length }
    imagePart d o f data = if n ≤ g.got then imageWhole (d.partStored f data) o g else askImage (d.partStored f data) o g := by
  rw [imagePart, hf]; rfl

theorem imagePart_header (hf : f.total = none) :
    let len := fld (leAt data 0 512) 64 32
    let g := { f with got := 512, total := some (512 + len) }
    imagePart d o f data =
      if 65536 ≤ len ∧ len ≤ 16776704 then askImage (d.partStored f data) o g else imageWhole (d.partStored f data) o g := by
  rw [imagePart, hf]
  exact if_congr (imLenOk_iff _) rfl rfl

end

/-! ### The end of an attempt, and updates (R470, R488, R491, R496) -/

theorem imageFetchTimeout_asked {f : Fetch} (hf : d.sec.fetch = some f) : imageFetchTimeout d o = portGivesNone d o f := by
  rw [imageFetchTimeout, hf]

theorem imageFetchTimeout_idle (hf : d.sec.fetch = none) : imageFetchTimeout d o = d := by rw [imageFetchTimeout, hf]

/-- Every job is free, and no update or unlock runs. -/
def Dev.updatable (d : Dev) : Prop := (∀ j, j < 64 → d.dget (O.JOB_STATE j) = 0) ∧
  ¬(1 ≤ d.dget O.FW_UPDATE_STATE ∧ d.dget O.FW_UPDATE_STATE ≤ 3) ∧ d.sec.unlocking = false

theorem Dev.updatable_iff_not : d.updatable ↔ ¬((!allJobsFree d) = true ∨ updateRuns d = true ∨ d.sec.unlocking = true) := by
  simp [Dev.updatable, allJobsFree, updateRuns]

theorem fwUpdate_starts (h : d.updatable) :
    let p := d.dget O.FW_UPDATE_SOURCE
    let d1 := d.planStarts.dset O.FW_UPDATE_STATE 1
    (fwUpdate d o).2 = if d1.portUp p then askImage d1 o ⟨true, p, [], 0, none⟩ else updateFailed d1 0 :=
  congrArg Prod.snd (guard_open Dev.updatable_iff_not h)

theorem fwUpdate_refused (h : ¬d.updatable) : (fwUpdate d o).2 = d :=
  congrArg Prod.snd (guard_shut Dev.updatable_iff_not h)

theorem lullNoteOk_iff : (m.body.length == 1 && decide (leAt m.body 0 1 ≤ 1)) = true ↔ m.body.length = 1 ∧ leAt m.body 0 1 ≤ 1 := by
  simp

end

/-- Settles O49: each command case by case (log 78). The words count nine, the statement has eight commands. -/
theorem imagesBootAndUpdate : Obligations.ImagesBootAndUpdate := by
  unfold Obligations.ImagesBootAndUpdate
  refine ⟨fun o hdr body => ?valid, fun s c => ?boot, fun d c h dg => by simp [released_sec], fun s bb bs bp rf => ?ready,
    fun s p m hm => ?imageReq, fun s p m hm => ?imageData, fun s => ⟨fun f hf => next_dev (imageFetchTimeout_asked hf),
      fun hf => next_dev (imageFetchTimeout_idle hf), ?retry, ?update, fun p m hm => ?lullNote⟩,
    fun s p m => ⟨fun h => next_dev (mgmtRx_other h), fun h => next_dev (mgmtRx_other h), fun h => next_dev (mgmtRx_other h)⟩,
    fun d o f => ⟨fun hu => if_pos hu, fun hu => if_neg (by simp [hu]), fun p ps => rfl, rfl, rfl⟩⟩
  case valid =>
    rw [imageFault_eq_none, imLenOk_iff]
    exact Iff.rfl
  case boot =>
    rw [exec_boot]
    refine ⟨fun hb hf => ?_, fun n hb hf => ⟨_, ?_, rfl, fun p hp => ?_⟩, fun hb => ?_⟩
    · rw [boot_runs hb hf]
      simp only [burn, imRevoke, imFloor, imDigest, Dev.flashHdr, Dev.flashBody]
      rfl
    · rw [boot_recovers hb hf]
    · rw [Dev.setSec_dget, startPorts_portState _ hp]
    · rw [boot_idle hb]
  case ready =>
    refine ⟨fun h => ⟨_, next_dev (deviceReady_comes h), rfl, ?_, fun p hp => startPorts_portState _ hp⟩,
      fun h => next_dev (deviceReady_idle h)⟩
    rw [startPorts_sec]; rfl
  case imageReq =>
    refine ⟨fun hright => next_dev ?_, fun hwrong => next_dev (mgmtRx_fault hm (mt imageReqOk_iff.1 (not_not.2 hwrong)))⟩
    exact (mgmtRx_taken hm (imageReqOk_iff.2 hright)).trans imageReq_eq
  case imageData =>
    refine ⟨fun hpart => next_dev (mgmtRx_fault hm (mt imageDataOk_iff.1 hpart)), fun hwhole hf => ?_, fun f hwhole hf => ?_⟩
    all_goals
      have htaken : exec (.imageData p m) s = .next { s with dev := imageData s.dev s.otp p m } :=
        next_dev (mgmtRx_taken hm (imageDataOk_iff.2 hwhole))
      rw [htaken]
    · exact next_dev (imageData_unasked hf)
    · refine ⟨fun hw => next_dev (imageData_unwanted hf hw), fun hw hst => next_dev (imageData_refused hf hw hst),
        fun hw hst hlen => ?_⟩
      rw [imageData_part hf hw hst hlen]
      exact ⟨fun n ht => next_dev (imagePart_later ht), fun ht => next_dev (imagePart_header ht)⟩
  case retry => exact ⟨fun h => next_dev (if_pos h), fun h => next_dev (if_neg h)⟩
  case update => exact ⟨fun h => next_dev (fwUpdate_starts h), fun h => next_dev (fwUpdate_refused h)⟩
  case lullNote =>
    exact ⟨fun h => next_dev (mgmtRx_taken hm (lullNoteOk_iff.2 h)), fun h => next_dev (mgmtRx_fault hm (mt lullNoteOk_iff.1 h))⟩

end Sys2Proof.Machine
end

section
/-! MESSAGE_ROUTE (R354, R355, R360, R369): the ways of a message that arrives, of one that originates here, and of one in transit. -/

namespace Sys2Proof.Machine

/-! ### A message that arrives -/

section
variable {s : State} {port : Nat} {m : Msg}

theorem arrive_down (hup : s.dev.portUp port = false) : arrive s port m = s := if_pos (by simp [hup])

section
variable (hup : s.dev.portUp port = true)
include hup

theorem arrive_sync (hvc : m.vc = 6) : arrive s port m = { s with
    dev := if s.dev.isHostPort port then protoFault s.dev port else syncArrives s.dev port m } := by
  rw [arrive, if_neg (by simp [hup]), if_pos hvc]
  split <;> rfl

theorem arrive_mgmt (hvc : m.vc = 4) (hkind : neighbourKind m.hdr.kind = true) :
    arrive s port m = { s with dev := mgmtArrives s port m } := by
  rw [arrive, if_neg (by simp [hup]), if_neg (by omega), if_pos ⟨hvc, hkind⟩]

variable (hvc : m.vc ≠ 6) (hrouted : ¬(m.vc = 4 ∧ neighbourKind m.hdr.kind = true))
include hvc hrouted

theorem arrive_broken (hlayout : layoutOk m = false) : arrive s port m = { s with dev := protoFault s.dev port } := by
  rw [arrive, if_neg (by simp [hup]), if_neg hvc, if_neg hrouted, if_pos (by simp [hlayout])]

variable (hlayout : layoutOk m = true)
include hlayout

theorem arrive_unmapped (hhost : s.dev.isHostPort port = true) (hstamp : hostStamp s.dev m = none) :
    arrive s port m = { s with dev := s.dev.bump (O.HOST_UNMAPPED port) } := by
  rw [arrive, if_neg (by simp [hup]), if_neg hvc, if_neg hrouted, if_neg (by simp [hlayout]), if_pos hhost, hstamp]

variable {m1 : Msg} (hstamp : (if s.dev.isHostPort port then hostStamp s.dev m else some m) = some m1)
include hstamp

theorem arrive_onward (hdest : s.dev.destOf m1.hdr.dst m1.hdr.dstHost ≠ .here) :
    arrive s port m = { s with dev := s.dev.transit port none m1 } := by
  rw [arrive, if_neg (by simp [hup]), if_neg hvc, if_neg hrouted, if_neg (by simp [hlayout]), hstamp]
  dsimp only
  split
  · next hhere => exact absurd hhere hdest
  · rfl

theorem arrive_here (hdest : s.dev.destOf m1.hdr.dst m1.hdr.dstHost = .here) : arrive s port m = here s port m1 := by
  rw [arrive, if_neg (by simp [hup]), if_neg hvc, if_neg hrouted, if_neg (by simp [hlayout]), hstamp]
  dsimp only
  rw [hdest]

end

/-! ### A message that originates here -/

theorem originate_unrouted (hvc : m.vc = 3 ∨ m.vc = 6 ∨ 7 < m.vc) : originate s m = s := if_pos hvc

section
variable (hvc : ¬(m.vc = 3 ∨ m.vc = 6 ∨ 7 < m.vc))
include hvc

theorem originate_onward (hdest : s.dev.destOf m.hdr.dst m.hdr.dstHost ≠ .here) : originate s m = { s with
    dev := s.dev.sendMsg m.vc m.hdr.kind m.hdr.dst m.hdr.dstHost m.hdr.sjob m.hdr.schan (some m.hdr.sjob) m.body } := by
  rw [originate, if_neg hvc]
  dsimp only
  split
  · next hhere => exact absurd hhere hdest
  · rfl

theorem originate_here (hdest : s.dev.destOf m.hdr.dst m.hdr.dstHost = .here) :
    let q := s.dev.nextSeq m.hdr.dst m.vc
    originate s m = here { s with dev := q.2 } 16
      { m with hdr := { m.hdr with hops := 0, src := s.dev.srcId, srcHost := false, seq := q.1 } } := by
  rw [originate, if_neg hvc]
  dsimp only
  rw [hdest]

end

theorem exec_messageRoute_arrives (h : port < 16) : exec (.messageRoute port m) s = .next (arrive s port m) :=
  congrArg Host.Outcome.next (if_pos h)

theorem exec_messageRoute_originates (h : 16 ≤ port) : exec (.messageRoute port m) s = .next (originate s m) :=
  congrArg Host.Outcome.next (if_neg h.not_gt)

end

/-! ### A message in transit -/

section
variable {d : Dev} {rx : Nat} {m : Msg}

/-- A message with its HOPS one up. -/
def forwarded (m : Msg) : Msg := { m with hdr := { m.hdr with hops := m.hdr.hops + 1 } }

section
variable (hrx : rx < 16) {p : Nat} (hdest : d.destOf m.hdr.dst m.hdr.dstHost = .out p ∨ d.destOf m.hdr.dst m.hdr.dstHost = .host p)
include hrx hdest

theorem Dev.transit_forwards (hhops : m.hdr.hops < 127) : d.transit rx none m = d.sendOn p none (forwarded m) := by
  have hroom : ¬127 < m.hdr.hops + 1 := by omega
  rcases hdest with hdest | hdest <;> simp [Dev.transit, hrx, hdest, hroom, forwarded]

theorem Dev.transit_exhausted (hhops : 127 ≤ m.hdr.hops) : d.transit rx none m = d.bump (O.HOP_DROPS rx) := by
  have hroom : 127 < m.hdr.hops + 1 := by omega
  rcases hdest with hdest | hdest <;> simp [Dev.transit, hrx, hdest, hroom]

end

theorem Dev.transit_noHost (hrx : rx < 16) (hdest : d.destOf m.hdr.dst m.hdr.dstHost = .noHost) :
    d.transit rx none m = d.bump (O.HOP_DROPS rx) := by
  simp [Dev.transit, hrx, hdest]

theorem Dev.transit_unreachable (hdest : d.destOf m.hdr.dst m.hdr.dstHost = .unreachable) :
    d.transit rx none m = d.bump O.UNREACHABLE_DROPS := by
  simp [Dev.transit, hdest]

end

/-! ### The tables in force -/

section
variable {d : Dev} (hf : d.lnk.fencedIds = [])
include hf

theorem Dev.memberEntry_unfenced (n : Nat) : d.memberEntry n = (SMap.get 0 d.lnk.member n).toNat := by rw [Dev.memberEntry, hf]

theorem Dev.groupEntry_unfenced (n : Nat) : d.groupEntry n = (SMap.get 0 d.lnk.group n).toNat := by rw [Dev.groupEntry, hf]

theorem Dev.destOf_table {dst : Nat} (hown : d.ownId ≠ some dst) :
    let e := if d.ownId.map idGroup = some (idGroup dst) then SMap.get 0 d.lnk.member (idMember dst)
      else SMap.get 0 d.lnk.group (idGroup dst)
    d.destOf dst false = if bit e.toNat 4 && d.portUp (fld e.toNat 0 4) then .out (fld e.toNat 0 4) else .unreachable := by
  intro e
  have he : (if d.ownId.map idGroup = some (idGroup dst) then d.memberEntry (idMember dst) else d.groupEntry (idGroup dst)) =
      e.toNat := by
    rw [Dev.memberEntry_unfenced hf, Dev.groupEntry_unfenced hf]
    exact (apply_ite BitVec.toNat ..).symm
  rw [Dev.destOf, if_neg hown, if_neg (by simp [hf])]
  dsimp only
  rw [he]

end

/-- Settles O43: `arrive`, `originate` and `transit` case by case (log 17). -/
theorem messagesAreRouted : Obligations.MessagesAreRouted := by
  unfold Obligations.MessagesAreRouted
  refine ⟨fun s port m hport => ?arrives, fun s port m hport => ?originates, fun d rx m hrx => ?transit,
    fun d dst hown hf => Dev.destOf_table hf hown⟩
  case arrives =>
    rw [exec_messageRoute_arrives hport]
    refine ⟨fun hup => by rw [arrive_down hup], fun hup hvc => by rw [arrive_sync hup hvc],
      fun hup hvc hkind => by rw [arrive_mgmt hup hvc hkind], fun hup hvc hrouted => ⟨fun hl => ?_, fun hl hhost hstamp => ?_,
      fun m1 hl hstamp => ⟨fun hdest => ?_, fun hdest => ?_⟩⟩⟩
    · rw [arrive_broken hup hvc hrouted hl]
    · rw [arrive_unmapped hup hvc hrouted hl hhost hstamp]
    · rw [arrive_onward hup hvc hrouted hl hstamp hdest]
    · rw [arrive_here hup hvc hrouted hl hstamp hdest]
  case originates =>
    rw [exec_messageRoute_originates hport]
    refine ⟨fun hvc => by rw [originate_unrouted hvc], fun h8 h3 h6 hdest => ?_, fun h8 h3 h6 hdest => ?_⟩
    · rw [originate_onward (by omega) hdest]
    · rw [originate_here (by omega) hdest]
  case transit =>
    exact ⟨fun p hdest => ⟨Dev.transit_forwards hrx hdest, Dev.transit_exhausted hrx hdest⟩, Dev.transit_noHost hrx,
      Dev.transit_unreachable⟩

end Sys2Proof.Machine
end

section
/-! Training, bring-up and link control (R336, R346, R347, R357 to R360, R375). -/

namespace Sys2Proof.Machine

/-! ### PORT_TRAINING (R336, R358, R380) -/

section
variable {d : Dev} {p : Nat} {lanes : List Nat}

/-- The lanes of a list that exist, each once. -/
def laneSet (lanes : List Nat) : List Nat := (lanes.filter (fun l => decide (l < 9))).dedup

/-- The port is in training or retraining, or failed by a fence. -/
def Dev.trains (d : Dev) (p : Nat) : Prop :=
  p < 16 ∧ (d.dget (O.PORT_STATE p) = 1 ∨ d.dget (O.PORT_STATE p) = 4 ∨ (d.dget (O.PORT_STATE p) = 5 ∧ (d.port p).fenced = true))

theorem Dev.trains_iff_not : d.trains p ↔ ¬(16 ≤ p ∨ ¬(d.dget (O.PORT_STATE p) = 1 ∨ d.dget (O.PORT_STATE p) = 4 ∨
    (d.dget (O.PORT_STATE p) = 5 ∧ (d.port p).fenced = true))) := by
  rw [Dev.trains, not_or, not_not, not_le]

theorem portTraining_idle (h : ¬d.trains p) : portTraining d p lanes = d := guard_shut Dev.trains_iff_not h

section
variable (h : d.trains p)
include h

theorem portTraining_fails (hbad : 2 ≤ (laneSet lanes).length) : portTraining d p lanes = failPort d p :=
  (guard_open Dev.trains_iff_not h).trans (if_pos hbad)

theorem portTraining_links (hbad : (laneSet lanes).length < 2) : portTraining d p lanes =
    relink (((if d.dget (O.PORT_STATE p) = 5 then portChange d p 1 else d).modPort p (fun q => { q with
      fenced := false, linked := true, rxSpareOk := (laneSet lanes).isEmpty, txSpare := 255, swap := none, swapWait := none,
      peerLull := false })).dset (O.SPARE_SERVES p) 255) p :=
  (guard_open Dev.trains_iff_not h).trans (if_neg hbad.not_ge)

end

end

/-! ### HELLO and CREDIT_INIT (R349, R358, R360) -/

section
variable {d : Dev} {o : Otp} {p role id pp version : Nat} {serial : Bytes} {cs : List Nat}

/-- The port has lock. -/
def Dev.linkedPort (d : Dev) (p : Nat) : Prop := p < 16 ∧ (d.port p).linked = true

theorem Dev.linkedPort_iff_not : d.linkedPort p ↔ ¬(16 ≤ p ∨ (!(d.port p).linked) = true) := by
  simp [Dev.linkedPort]

theorem helloTaken_unlinked (h : ¬d.linkedPort p) : helloTaken d o p role id serial pp version = d :=
  guard_shut Dev.linkedPort_iff_not h

theorem creditTaken_unlinked (h : ¬d.linkedPort p) : creditTaken d o p cs = d :=
  guard_shut Dev.linkedPort_iff_not h

/-- A HELLO of a role or version that the manual does not give, or of a second adapter. -/
def Dev.helloWrong (d : Dev) (p role version : Nat) : Prop :=
  1 < role ∨ version ≠ 1 ∨ (role = 1 ∧ d.dget O.HOST_PORT < 16 ∧ d.dget O.HOST_PORT ≠ p)

/-- What a HELLO leaves of its sender: HOST_PORT, PEER_ID and the port's notes. -/
def Dev.helloNoted (d : Dev) (p role id : Nat) (serial : Bytes) (pp : Nat) : Dev :=
  ((if role = 1 then d.dset O.HOST_PORT p else if d.dget O.HOST_PORT = p then d.dset O.HOST_PORT 255 else d).dset (O.PEER_ID p)
      (if role = 1 ∨ 0x8000 ≤ id then 0x8000 else id)).modPort p (fun q => { q with
    peerHost := role == 1, peerSerial := fitBytes 16 serial, peerPort := pp, helloIn := true })

section
variable (h : d.linkedPort p)
include h

theorem creditTaken_linked : creditTaken d o p cs = upCheck (d.modPort p (fun q => { q with
    credits := (List.range 8).map (fun v => nth 0 cs v % 2 ^ 16), spent := [], creditIn := true })) o p :=
  guard_open Dev.linkedPort_iff_not h

theorem helloTaken_wrong (hw : d.helloWrong p role version) : helloTaken d o p role id serial pp version = protoFault d p := by
  refine (guard_open Dev.linkedPort_iff_not h).trans ?_
  by_cases hrole : 1 < role ∨ version ≠ 1
  · exact if_pos hrole
  · exact (if_neg hrole).trans (if_pos ((or_assoc.2 hw).resolve_left hrole))

theorem helloTaken_sound (hw : ¬d.helloWrong p role version) :
    helloTaken d o p role id serial pp version = upCheck (d.helloNoted p role id serial pp) o p := by
  obtain ⟨hrole, hsecond⟩ := not_or.1 (mt or_assoc.1 hw)
  exact (guard_open Dev.linkedPort_iff_not h).trans ((if_neg hrole).trans (if_neg hsecond))

end

theorem upCheck_both (hhello : (d.port p).helloIn = true) (hcredit : (d.port p).creditIn = true)
    (hst : d.dget (O.PORT_STATE p) = 1 ∨ d.dget (O.PORT_STATE p) = 4) :
    upCheck d o p = recoveryPump (portChange d p (if (d.port p).rxSpareOk then 2 else 3)) o p :=
  if_pos (by simpa [hhello, hcredit] using hst)

end

/-! ### RETRAIN, SWAP_REQ and SWAP_ACK (R345 to R347, R357) -/

section
variable {d : Dev} {p lane reason : Nat}

/-- SWAP_ACK: the lane, and the number of the next superframe. -/
def Dev.swapAcked (d : Dev) (p lane : Nat) : Dev := d.emitLc p (leBytes 1 4 ++ leBytes 1 lane ++ leBytes 2 (d.port p).txSseq)

/-- The transmitter's lane goes to its spare, and the event says so. -/
def Dev.laneMoved (d : Dev) (p lane : Nat) : Dev :=
  ((d.modPort p (fun q => { q with txSpare := lane })).bump (O.LANE_SWAPS p)).event 0x0601 1 5 (laneLoc p lane)
    (leBytes 1 0 ++ leBytes 1 1)

/-- The receiver reads the lane from its spare, and its swap is over. -/
def Dev.spareRead (d : Dev) (p lane : Nat) : Dev :=
  (d.modPort p (fun q => { q with swap := none, swapWait := none })).dset (O.SPARE_SERVES p) lane

section
variable (h : d.portUp p = false)
include h

theorem retrainTaken_down : retrainTaken d p reason = d := if_pos (by simp [h])

theorem swapReqTaken_down : swapReqTaken d p lane = d := if_pos (by simp [h])

theorem swapAckTaken_down : swapAckTaken d p lane = d := if_pos (by simp [h])

end

theorem swapAckTaken_unasked (hs : (d.port p).swap ≠ some lane) : swapAckTaken d p lane = d := if_pos (.inr hs)

section
variable (h : d.portUp p = true)
include h

theorem retrainTaken_up : retrainTaken d p reason = if reason ≤ 2 then retrainPort d p reason false else protoFault d p := by
  refine (if_neg (by simp [h])).trans ?_
  by_cases hr : reason ≤ 2
  · exact (if_neg hr.not_gt).trans (if_pos hr).symm
  · exact (if_pos (not_le.1 hr)).trans (if_neg hr).symm

theorem swapReqTaken_up : swapReqTaken d p lane = if 8 ≤ lane then protoFault d p
    else if (d.port p).txSpare = lane then d.swapAcked p lane
    else if (d.port p).txSpare = 255 then (d.laneMoved p lane).swapAcked p lane
    else retrainPort d p 0 true := by
  refine (if_neg (by simp [h])).trans ?_
  rw [← ite_not ((d.port p).txSpare = 255)]
  rfl

variable (hs : (d.port p).swap = some lane)
include hs

theorem swapAckTaken_asked (hw : (d.port p).swapWait = none) : swapAckTaken d p lane = d.spareRead p lane := by
  rw [swapAckTaken, if_neg (by simp [h, hs]), hw]; rfl

theorem swapAckTaken_waiting {l : Nat} (hw : (d.port p).swapWait = some l) :
    swapAckTaken d p lane = requestSwap (d.spareRead p lane) p l true := by
  rw [swapAckTaken, if_neg (by simp [h, hs]), hw]; rfl

end

theorem exec_swapAck {sseq : Nat} (h : sseq < 4096) (s : State) :
    exec (.swapAck p lane sseq) s = .next { s with dev := swapAckTaken s.dev p lane } :=
  congrArg Host.Outcome.next (if_pos h)

theorem exec_swapAck_badNumber {sseq : Nat} (h : 4096 ≤ sseq) (s : State) :
    exec (.swapAck p lane sseq) s = .next { s with dev := protoFault s.dev p } :=
  congrArg Host.Outcome.next (if_neg h.not_gt)

end

/-- Settles O45: each command case by case (logs 95, 96, 143). -/
theorem linkControlIsTaken : Obligations.LinkControlIsTaken := by
  unfold Obligations.LinkControlIsTaken
  refine ⟨fun s p bad => ?training, fun s p role id serial pp version cs => ?bringUp, fun s p r l n => ?control,
    fun s p st => rfl, fun d p _ hhello hcredit hst o => upCheck_both hhello hcredit hst⟩
  case training =>
    exact ⟨fun hopen hfew => next_dev (portTraining_links hopen hfew), fun hopen hmany => next_dev (portTraining_fails hopen hmany),
      fun hclosed => next_dev (portTraining_idle hclosed)⟩
  case bringUp =>
    exact ⟨fun h => ⟨next_dev (helloTaken_unlinked h), next_dev (creditTaken_unlinked h)⟩,
      fun h hw => next_dev (helloTaken_wrong h hw), fun h hw => next_dev (helloTaken_sound h hw),
      fun h => next_dev (creditTaken_linked h)⟩
  case control =>
    refine ⟨fun hdown => ⟨next_dev (retrainTaken_down hdown), next_dev (swapReqTaken_down hdown), fun hn => ?_⟩,
      fun hup => ⟨next_dev (retrainTaken_up hup), next_dev (swapReqTaken_up hup), fun hn hs => ?_, fun hn hs => ?_⟩,
      fun hn => exec_swapAck_badNumber hn s⟩
    all_goals rw [exec_swapAck hn]
    · exact next_dev (swapAckTaken_down hdown)
    · exact next_dev (swapAckTaken_unasked hs)
    · refine next_dev ?_
      cases hw : (s.dev.port p).swapWait with
      | none => exact swapAckTaken_asked hup hs hw
      | some w => exact swapAckTaken_waiting hup hs hw

end Sys2Proof.Machine
end

section
/-! Superframes out and in, replay and the loss of lanes (R340 to R347, R380, R510). -/

namespace Sys2Proof.Machine

/-! ### SUPERFRAME_TX and REPLAY_TIMEOUT (R338, R341, R342, R510) -/

/-- The port has lock and the module is not asleep. -/
def Dev.carries (d : Dev) (p : Nat) : Prop := p < 16 ∧ (d.port p).linked = true ∧ d.dget O.LULL_STATE ≠ 2

section
variable {d : Dev} {p : Nat}

/-- The device once the link toward a sleeping neighbour, with a frame for it, has started again (log 81). -/
def Dev.linkStarted (d : Dev) (p : Nat) : Dev :=
  if (d.port p).peerLull = true ∧ (d.port p).txq ≠ [] ∧ (d.port p).replay = [] then
    relink (d.modPort p (fun x => { x with peerLull := false })) p
  else d

theorem Dev.carries_iff_not : d.carries p ↔ ¬(16 ≤ p ∨ (!(d.port p).linked) = true ∨ d.dget O.LULL_STATE = 2) := by
  simp [Dev.carries]

theorem superframeTx_silent (h : ¬d.carries p ∨ (d.port p).silent = true) : superframeTx d p = d := by
  refine if_pos ?_
  rcases h with h | hs
  · have hguard := mt Dev.carries_iff_not.2 h
    tauto
  · exact .inr (.inr (.inr hs))

/-- The next superframe of a running replay goes out, else a new one, or an idle one while 128 are unacknowledged. -/
def Dev.superSent (d : Dev) (p : Nat) : Dev :=
  match (d.port p).resend with
  | x :: r => sendSuper (d.modPort p (fun q => { q with resend := r })) p x false
  | [] => if 128 ≤ (d.port p).replay.length then sendIdle d p else sendNew d p

theorem Dev.superSent_replay {x : Held} {r : List Held} (h : (d.port p).resend = x :: r) :
    d.superSent p = sendSuper (d.modPort p (fun q => { q with resend := r })) p x false := by
  rw [Dev.superSent, h]

theorem Dev.superSent_new (h : (d.port p).resend = []) :
    d.superSent p = if 128 ≤ (d.port p).replay.length then sendIdle d p else sendNew d p := by
  rw [Dev.superSent, h]

theorem superframeTx_sends (h : d.carries p) (hs : (d.port p).silent = false) :
    superframeTx d p = settlePort ((d.linkStarted p).superSent p) p := by
  obtain ⟨hp, hlinked, hlull⟩ := h
  exact if_neg (by simp [hp, hlinked, hlull, hs])

theorem replayTimeout_replays (hp : p < 16) (hlinked : (d.port p).linked = true) (hr : (d.port p).replay ≠ []) :
    replayTimeout d p = (d.modPort p (fun x => { x with resend := x.replay })).bump (O.REPLAYS p) :=
  if_neg (by simp [hp, hlinked, hr])

theorem replayTimeout_idle (h : 16 ≤ p ∨ (d.port p).linked = false ∨ (d.port p).replay = []) : replayTimeout d p = d :=
  if_pos (by simpa using h)

end

/-! ### SUPERFRAME_RX (R340, R344) -/

section
variable {s : State} {p : Nat} {lanes : List (List Nat)} {spare margins minima : List Nat}

theorem superframeRx_idle (h : ¬s.dev.carries p) : superframeRx s p lanes spare margins minima = s :=
  guard_shut Dev.carries_iff_not h

section
variable (h : s.dev.carries p)
include h

theorem superframeRx_accepted {b : Bytes} {corr : List Nat} (hr : received (readLanes s.dev p lanes spare) = some (b, corr)) :
    let d := if startsAgain (s.dev.port p) b then relink (s.dev.modPort p (fun q => { q with peerLull := false })) p else s.dev
    let u := superGood { s with dev := noteFixed d p corr } p b
    superframeRx s p lanes spare margins minima = { u with dev := settlePort u.dev p } := by
  rw [superframeRx, if_neg (Dev.carries_iff_not.1 h), hr]

theorem superframeRx_failed (hr : received (readLanes s.dev p lanes spare) = none) :
    superframeRx s p lanes spare margins minima = { s with
      dev := settlePort (superFailed s.dev p (badLane (s.dev.port p) margins minima)) p } := by
  rw [superframeRx, if_neg (Dev.carries_iff_not.1 h), hr]

end

theorem exec_superframeRx : exec (.superframeRx p lanes spare margins minima) s = .next (superframeRx s p lanes spare margins minima) :=
  rfl

theorem superGood_next {b : Bytes} (hnumbered : bit (leAt b 5120 16) 25 = false)
    (hnext : fld (leAt b 5120 16) 0 12 = sseqNext (s.dev.port p).rxGood) :
    superGood s p b = superAccepted
      { s with dev := nakTaken s.dev p (fld (leAt b 5120 16) 12 12) (bit (leAt b 5120 16) 24) } p b (leAt b 5120 16) :=
  (if_neg (by simp [hnumbered])).trans (if_pos hnext)

end

/-! ### LOSS_OF_SIGNAL and LANE_CORRECTED_LIMIT (R346, R347, R380, R510) -/

section
variable {d : Dev} {p : Nat} {lanes : List Nat}

/-- The port is up, and neither its neighbour nor the module sleeps. -/
def Dev.listens (d : Dev) (p : Nat) : Prop := d.portUp p = true ∧ (d.port p).peerLull = false ∧ d.dget O.LULL_STATE ≠ 2

theorem Dev.listens_iff_not :
    d.listens p ↔ ¬((!d.portUp p) = true ∨ (d.port p).peerLull = true ∨ d.dget O.LULL_STATE = 2) := by
  simp [Dev.listens]

theorem lossOfSignal_unheard (h : ¬d.listens p) : lossOfSignal d p lanes = d :=
  guard_shut Dev.listens_iff_not h

theorem lossOfSignal_none (h : laneSet lanes = []) : lossOfSignal d p lanes = d := by
  unfold lossOfSignal
  rw [laneSet] at h
  rw [h]
  exact ite_self d

section
variable (h : d.listens p)
include h

theorem lossOfSignal_one {l : Nat} (hl : laneSet lanes = [l]) : lossOfSignal d p lanes = laneLost d p l := by
  rw [laneSet] at hl
  rw [lossOfSignal, if_neg (Dev.listens_iff_not.1 h), hl]

theorem lossOfSignal_many (hl : 2 ≤ (laneSet lanes).length) : lossOfSignal d p lanes =
    if (laneSet lanes).length = 9 ∧ (d.port p).peerHost = false then fencePeer d p else retrainPort d p 0 true := by
  rw [laneSet] at hl ⊢
  rw [lossOfSignal, if_neg (Dev.listens_iff_not.1 h)]
  split
  · next hnil => simp [hnil] at hl
  · next l hone => simp [hone] at hl
  · simp

end

/-- The lane's corrected symbols exceed the limit, and no spare serves it or is asked for. -/
def Dev.swapDue (d : Dev) (p l n : Nat) : Prop :=
  d.portUp p = true ∧ l < 8 ∧ d.dget O.LANE_SWAP_CORRECTED < n ∧ d.dget (O.SPARE_SERVES p) ≠ l ∧ (d.port p).swap ≠ some l

theorem Dev.swapDue_iff_not {l n : Nat} : d.swapDue p l n ↔ ¬((!d.portUp p) = true ∨ 8 ≤ l ∨ n ≤ d.dget O.LANE_SWAP_CORRECTED ∨
    d.dget (O.SPARE_SERVES p) = l ∨ (d.port p).swap = some l) := by
  simp [Dev.swapDue]

theorem laneCorrectedLimit_due {l n : Nat} (h : d.swapDue p l n) : laneCorrectedLimit d p l n = requestSwap d p l true :=
  guard_open Dev.swapDue_iff_not h

theorem laneCorrectedLimit_idle {l n : Nat} (h : ¬d.swapDue p l n) : laneCorrectedLimit d p l n = d :=
  guard_shut Dev.swapDue_iff_not h

end

/-- Settles O46: each command case by case (log 81). -/
theorem linkTrafficAndItsFaults : Obligations.LinkTrafficAndItsFaults := by
  unfold Obligations.LinkTrafficAndItsFaults
  refine ⟨fun s p => ⟨fun h hs => ?tx, fun h => next_dev (superframeTx_silent h),
    fun hp hlinked hr => next_dev (replayTimeout_replays hp hlinked hr), fun h => next_dev (replayTimeout_idle h),
    fun lanes spare margins minima => ?rx⟩, fun s p b hnumbered hnext => superGood_next hnumbered hnext, fun s p ls l n => ?lanes⟩
  case tx => 
    have hsends : exec (.superframeTx p) s = .next { s with dev := settlePort ((s.dev.linkStarted p).superSent p) p } :=
      next_dev (superframeTx_sends h hs)
    rw [hsends]
    exact ⟨fun x r hr => next_dev (congrArg (settlePort · p) (Dev.superSent_replay hr)),
      fun hr => next_dev (congrArg (settlePort · p) (Dev.superSent_new hr))⟩
  case rx =>
    rw [exec_superframeRx]
    refine ⟨fun h b corr hr => ?_, fun h hr => ?_, fun h => ?_⟩
    · rw [superframeRx_accepted h hr]
    · rw [superframeRx_failed h hr]
    · rw [superframeRx_idle h]
  case lanes =>
    refine ⟨fun h hl => next_dev (lossOfSignal_one h hl), fun h hl hpeer => next_dev ?_, fun h hl hother => next_dev ?_,
      fun h => next_dev (h.elim lossOfSignal_unheard lossOfSignal_none), fun h => next_dev (laneCorrectedLimit_due h),
      fun h => next_dev (laneCorrectedLimit_idle h)⟩
    · have hmany : 2 ≤ (laneSet ls).length := by rw [laneSet, hl]; decide
      exact (lossOfSignal_many h hmany).trans (if_pos ⟨hl, hpeer⟩)
    · refine (lossOfSignal_many h hl).trans (if_neg fun hall => ?_)
      rcases hother with hfew | hhost
      · exact absurd hall.1 hfew.ne
      · exact Bool.false_ne_true (hall.2.symm.trans hhost)

end Sys2Proof.Machine
end

section
/-! The census and fencing at a module's ports (R371 to R375, R380): what each message of a neighbour brings. -/

namespace Sys2Proof.Machine

/-! ### A neighbour message of SYNC -/

section
variable {d : Dev} {p : Nat} {m : Msg} {kind : Nat} {groupOnly layout : Bool} {f : Dev → Dev}

/-- A message of SYNC of a KIND, on a port that is up. -/
def Dev.syncCame (d : Dev) (p : Nat) (m : Msg) (kind : Nat) : Prop := d.portUp p = true ∧ m.vc = 6 ∧ m.hdr.kind = kind

theorem Dev.syncCame_iff_not : d.syncCame p m kind ↔ ¬((!d.portUp p) = true ∨ m.vc ≠ 6 ∨ m.hdr.kind ≠ kind) := by
  simp [Dev.syncCame]

theorem censusRx_taken (h : FromNeighbour d p m kind) (hrole : groupOnly = true → d.groupPort p = true) (hlayout : layout = true) :
    censusRx d p m kind groupOnly layout f = f d := by
  obtain ⟨hup, hpeer, hhost, hvc, hkind⟩ := h
  have hproper : (groupOnly && !d.groupPort p) = false := by cases groupOnly <;> simp_all
  exact (guard_open Dev.syncCame_iff_not ⟨hup, hvc, hkind⟩).trans (if_neg (by simp [hpeer, hhost, hproper, hlayout]))

theorem censusRx_fault (h : d.syncCame p m kind)
    (hbad : (d.port p).peerHost = true ∨ d.isHostPort p = true ∨ (groupOnly = true ∧ d.groupPort p = false) ∨ layout = false) :
    censusRx d p m kind groupOnly layout f = protoFault d p :=
  (guard_open Dev.syncCame_iff_not h).trans (if_pos (by simpa [or_assoc] using hbad))

theorem censusRx_other (h : ¬d.syncCame p m kind) : censusRx d p m kind groupOnly layout f = d := guard_shut Dev.syncCame_iff_not h

end

/-! ### The group census (R372, R374) -/

section
variable {d : Dev}

/-- A ready bridge that no conflict has stopped. -/
def Dev.startsCensus (d : Dev) : Prop := d.isBridge = true ∧ d.sec.ready = true ∧ d.lnk.census.stopped = false

theorem Dev.startsCensus_iff_not :
    d.startsCensus ↔ ¬((!d.isBridge) = true ∨ (!d.sec.ready) = true ∨ d.lnk.census.stopped = true) := by
  simp [Dev.startsCensus]

theorem groupCensusStart_again (h : d.startsCensus) (hruns : d.dget O.CENSUS_STATE = 1) :
    groupCensusStart d = d.modCensus (fun c => { c with again := true }) :=
  (guard_open Dev.startsCensus_iff_not h).trans (if_pos hruns)

theorem groupCensusStart_first (h : d.startsCensus) (hruns : d.dget O.CENSUS_STATE ≠ 1) :
    groupCensusStart d = groupProgress (groupWave d) :=
  (guard_open Dev.startsCensus_iff_not h).trans (if_neg hruns)

theorem groupCensusStart_idle (h : ¬d.startsCensus) : groupCensusStart d = d := guard_shut Dev.startsCensus_iff_not h

/-- A bridge whose group census is complete. -/
def Dev.censusComplete (d : Dev) : Prop := d.isBridge = true ∧ 2 ≤ d.dget O.CENSUS_STATE ∧ d.dget O.CENSUS_STATE ≠ 4

theorem Dev.censusComplete_iff_not :
    d.censusComplete ↔ ¬((!d.isBridge) = true ∨ d.dget O.CENSUS_STATE < 2 ∨ d.dget O.CENSUS_STATE = 4) := by
  simp [Dev.censusComplete, Nat.succ_le_iff]

theorem machineCensusStart_complete (h : d.censusComplete) :
    machineCensusStart d = machineProgress (machineWave d ((d.lnk.census.mgen.getD 0 + 1) % 65536)) :=
  guard_open Dev.censusComplete_iff_not h

theorem machineCensusStart_idle (h : ¬d.censusComplete) : machineCensusStart d = d := guard_shut Dev.censusComplete_iff_not h

variable {p : Nat} {m : Msg}

theorem waveBody_foreign (h : foreignWave d ((m.body.drop 4).take 16) = true) :
    waveBody d p m = waveConflict d p ((m.body.drop 4).take 16) := if_pos h

theorem waveBody_newer (h : foreignWave d ((m.body.drop 4).take 16) = false)
    (hnew : newerThan (leAt m.body 2 2) d.lnk.census.gen = true) : waveBody d p m =
      joinWave d p m.hdr.hops (fld (leAt m.body 0 4) 0 9) (leAt m.body 2 2) ((m.body.drop 4).take 16) := by
  simp [waveBody, h, hnew]

theorem waveBody_seen (h : foreignWave d ((m.body.drop 4).take 16) = false)
    (hnew : newerThan (leAt m.body 2 2) d.lnk.census.gen = false) :
    waveBody d p m = d.sendOn p none (syncMsg 0x11 0 (replyBody false (leAt m.body 2 2) [])) := by
  simp [waveBody, h, hnew]

/-- A port owes this module's wave a reply, and the reply is of its generation. -/
def ReplyAsked (d : Dev) (p : Nat) (m : Msg) : Prop :=
  d.dget O.CENSUS_STATE = 1 ∧ d.lnk.census.gen = some (leAt m.body 2 2) ∧ d.lnk.census.pend.contains p = true

theorem replyAsked_iff_not : ReplyAsked d p m ↔ ¬(d.dget O.CENSUS_STATE ≠ 1 ∨ d.lnk.census.gen ≠ some (leAt m.body 2 2) ∨
    (!d.lnk.census.pend.contains p) = true) := by
  simp [ReplyAsked]

theorem replyTaken_asked (h : ReplyAsked d p m) :
    let rs := reportsOf (leAt m.body 4 2) (m.body.drop 6)
    replyTaken d p m = groupAnswer (d.modCensus (fun c => { c with
      pend := c.pend.filter (fun q => q != p), kept := c.kept ++ rs, via := c.via ++ rs.map (fun r => (repSerial r, p)) })) :=
  guard_open replyAsked_iff_not h

theorem replyTaken_other (h : ¬ReplyAsked d p m) : replyTaken d p m = d := guard_shut replyAsked_iff_not h

theorem routeSetTaken_own (h : m.body.take 16 = ownSerial) : routeSetTaken d m = installRoutes d m.body := if_pos h

theorem routeSetTaken_onward (h : m.body.take 16 ≠ ownSerial) {v : Bytes × Nat}
    (hv : d.lnk.census.via.find? (fun v => v.1 == m.body.take 16) = some v) :
    routeSetTaken d m = d.sendOn v.2 none (syncMsg 0x12 (m.hdr.hops + 1) m.body) := by
  simp [routeSetTaken, h, hv]

theorem routeSetTaken_unknown (h : m.body.take 16 ≠ ownSerial)
    (hv : d.lnk.census.via.find? (fun v => v.1 == m.body.take 16) = none) : routeSetTaken d m = d := by
  simp [routeSetTaken, h, hv]

end

/-! ### The machine census (R373) -/

theorem newerThan_self (g : Nat) : newerThan g (some g) = false := by
  simp [newerThan, newerGen]

section
variable {d : Dev} {p : Nat} {m : Msg}

/-- The group that an MWAVE names as its root. -/
def mwaveGroup (m : Msg) : Nat := fld (leAt m.body 0 4) 0 9

/-- The generation of an MWAVE. -/
def mwaveGen (m : Msg) : Nat := leAt m.body 2 2

/-- A bridge of a group below the wave's, its own census complete. -/
def Dev.lowerBridge (d : Dev) (m : Msg) : Prop :=
  d.isBridge = true ∧ d.groupNo < mwaveGroup m ∧ (d.dget O.CENSUS_STATE = 2 ∨ d.dget O.CENSUS_STATE = 3)

theorem mwaveTaken_lowerBridge (hnew : newerThan (mwaveGen m) d.lnk.census.mgen = true) (h : d.lowerBridge m) :
    mwaveTaken d p m = machineProgress (machineWave d (mwaveGen m)) := by
  obtain ⟨hbridge, hlow, hstate⟩ := h
  exact (if_pos hnew).trans (if_pos (by simpa [hbridge, mwaveGroup] using And.intro hlow hstate))

theorem mwaveTaken_newer (hnew : newerThan (mwaveGen m) d.lnk.census.mgen = true) (h : ¬d.lowerBridge m) :
    mwaveTaken d p m = joinMwave d p m.hdr.hops (mwaveGroup m) (mwaveGen m) :=
  (if_pos hnew).trans (if_neg fun hlow => h (by simpa [Dev.lowerBridge, mwaveGroup, and_assoc] using hlow))

section
variable (hgen : d.lnk.census.mgen = some (mwaveGen m))
include hgen

theorem mwaveTaken_lower (h : mwaveGroup m < d.lnk.census.mroot) :
    mwaveTaken d p m = joinMwave d p m.hdr.hops (mwaveGroup m) (mwaveGen m) := by
  have hold : ¬newerThan (mwaveGen m) d.lnk.census.mgen = true := by simp [hgen, newerThan_self]
  exact (if_neg hold).trans ((if_neg (not_or.2 ⟨not_not.2 hgen, h.not_gt⟩)).trans (if_pos h))

theorem mwaveTaken_same (h : mwaveGroup m = d.lnk.census.mroot) :
    mwaveTaken d p m = d.sendOn p none (syncMsg 0x15 0 (mreplyBody false (mwaveGen m) [])) := by
  have hold : ¬newerThan (mwaveGen m) d.lnk.census.mgen = true := by simp [hgen, newerThan_self]
  exact (if_neg hold).trans ((if_neg (not_or.2 ⟨not_not.2 hgen, h.not_gt⟩)).trans (if_neg h.not_lt))

end

theorem mwaveTaken_older (hold : newerThan (mwaveGen m) d.lnk.census.mgen = false)
    (h : d.lnk.census.mgen ≠ some (mwaveGen m) ∨ d.lnk.census.mroot < mwaveGroup m) : mwaveTaken d p m = d :=
  (if_neg (Bool.eq_false_iff.1 hold)).trans (if_pos h)

/-- A port owes this module's machine wave a reply, and the reply is of its generation. -/
def MreplyAsked (d : Dev) (p : Nat) (m : Msg) : Prop :=
  d.lnk.census.mgen = some (leAt m.body 2 2) ∧ d.lnk.census.mpend.contains p = true

theorem mreplyAsked_iff_not : MreplyAsked d p m ↔
    ¬(d.lnk.census.mgen ≠ some (leAt m.body 2 2) ∨ (!d.lnk.census.mpend.contains p) = true) := by
  simp [MreplyAsked]

theorem mreplyTaken_asked (h : MreplyAsked d p m) : mreplyTaken d p m = machineProgress (d.modCensus (fun c => { c with
    mpend := c.mpend.filter (fun q => q != p), mkept := c.mkept ++ trunksOf (leAt m.body 4 2) (m.body.drop 6),
    mkids := if bit (leAt m.body 0 4) 0 then c.mkids ++ [p] else c.mkids })) :=
  guard_open mreplyAsked_iff_not h

theorem mreplyTaken_other (h : ¬MreplyAsked d p m) : mreplyTaken d p m = d := guard_shut mreplyAsked_iff_not h

section
variable (hgen : d.lnk.census.mgen = some (leAt m.body 2 2))
include hgen

theorem mroutesTaken_own (h : d.isBridge = true ∧ d.groupNo = fld (leAt m.body 0 4) 0 9) :
    mroutesTaken d p m = applyMroutes d (m.body.drop 4) :=
  (if_neg (not_not.2 hgen)).trans (if_pos h)

theorem mroutesTaken_onward (h : ¬(d.isBridge = true ∧ d.groupNo = fld (leAt m.body 0 4) 0 9)) :
    mroutesTaken d p m = d.forEach (d.lnk.census.mkids.filter (fun q => q != p))
      (fun d q => d.sendOn q none (syncMsg 0x16 (m.hdr.hops + 1) m.body)) :=
  (if_neg (not_not.2 hgen)).trans (if_neg h)

end

theorem mroutesTaken_other (hgen : d.lnk.census.mgen ≠ some (leAt m.body 2 2)) : mroutesTaken d p m = d := if_pos hgen

/-! ### Fencing (R380) -/

/-- A FENCE_REQ on a port that is up. -/
def FenceAsked (d : Dev) (p : Nat) (m : Msg) : Prop := d.portUp p = true ∧ m.vc = 4 ∧ m.hdr.kind = 0x7F

/-- A FENCE_REQ that no neighbour may send, or with a body. -/
def FenceWrong (d : Dev) (p : Nat) (m : Msg) : Prop := (d.port p).peerHost = true ∨ d.isHostPort p = true ∨ m.body ≠ []

theorem fenceAsked_iff_not : FenceAsked d p m ↔ ¬((!d.portUp p) = true ∨ m.vc ≠ 4 ∨ m.hdr.kind ≠ 0x7F) := by
  simp [FenceAsked]

theorem fenceReqTaken_sound (h : FenceAsked d p m) (hw : ¬FenceWrong d p m) : fenceReqTaken d p m = fencePeer d p :=
  (guard_open fenceAsked_iff_not h).trans (if_neg fun hbad => hw (by simpa [FenceWrong, or_assoc] using hbad))

theorem fenceReqTaken_wrong (h : FenceAsked d p m) (hw : FenceWrong d p m) : fenceReqTaken d p m = protoFault d p :=
  (guard_open fenceAsked_iff_not h).trans (if_pos (by simpa [FenceWrong, or_assoc] using hw))

theorem fenceReqTaken_other (h : ¬FenceAsked d p m) : fenceReqTaken d p m = d := guard_shut fenceAsked_iff_not h

end

/-! ### The commands -/

/-- A length that is 6 more than another is at least 6. -/
theorem beq_six_add_and_le (n k : Nat) : (n == 6 + k && decide (6 ≤ n)) = (n == 6 + k) := by
  by_cases h : n = 6 + k
  · simp [h]
  · simp [h]

/-- The eight messages of the census and of fencing: KIND, whether only a group port may bring it, its layout. -/
def censusMessages (p : Nat) (m : Msg) : List (Nat × Bool × Bool × Instr) := [
  (0x10, true, m.body.length == 20, .wave p m), (0x11, true, m.body.length == 6 + 320 * leAt m.body 4 2, .reply p m),
  (0x12, true, m.body.length == 37460, .routeSet p m), (0x13, false, m.body.length == 20, .announce p m),
  (0x14, false, m.body.length == 4, .mwave p m), (0x15, false, m.body.length == 6 + 8 * leAt m.body 4 2, .mreply p m),
  (0x16, false, m.body.length == 516, .mroutes p m), (0x18, true, m.body.length == 8, .fenceNote p m)]

theorem exec_censusMessage {p : Nat} {m : Msg} {kind : Nat} {groupOnly layout : Bool} {i : Instr}
    (h : (kind, groupOnly, layout, i) ∈ censusMessages p m) (s : State) :
    ∃ f, exec i s = .next { s with dev := censusRx s.dev p m kind groupOnly layout f } := by
  simp only [censusMessages, List.mem_cons, List.not_mem_nil, or_false] at h
  rcases h with h | h | h | h | h | h | h | h <;> obtain ⟨rfl, rfl, rfl, rfl⟩ := h
  · exact ⟨(waveBody · p m), rfl⟩
  · exact ⟨(replyTaken · p m), by rw [← beq_six_add_and_le]; rfl⟩
  · exact ⟨(routeSetTaken · m), rfl⟩
  · exact ⟨(announceTaken · p m), rfl⟩
  · exact ⟨(mwaveTaken · p m), rfl⟩
  · exact ⟨(mreplyTaken · p m), by rw [← beq_six_add_and_le]; rfl⟩
  · exact ⟨(mroutesTaken · p m), rfl⟩
  · exact ⟨(fenceNoteTaken · p m), rfl⟩

section
variable {s : State} {p : Nat} {m : Msg}

theorem exec_wave (h : FromNeighbour s.dev p m 0x10) (hrole : s.dev.groupPort p = true) (hlen : m.body.length = 20) :
    exec (.wave p m) s = .next { s with dev := waveBody s.dev p m } :=
  next_dev (censusRx_taken h (fun _ => hrole) (by simp [hlen]))

theorem exec_reply (h : FromNeighbour s.dev p m 0x11) (hrole : s.dev.groupPort p = true)
    (hlen : m.body.length = 6 + 320 * leAt m.body 4 2) : exec (.reply p m) s = .next { s with dev := replyTaken s.dev p m } :=
  next_dev (censusRx_taken h (fun _ => hrole) (by rw [beq_six_add_and_le]; simp [hlen]))

theorem exec_routeSet (h : FromNeighbour s.dev p m 0x12) (hrole : s.dev.groupPort p = true) (hlen : m.body.length = 37460) :
    exec (.routeSet p m) s = .next { s with dev := routeSetTaken s.dev m } :=
  next_dev (censusRx_taken h (fun _ => hrole) (by simp [hlen]))

theorem exec_announce (h : FromNeighbour s.dev p m 0x13) (hlen : m.body.length = 20) :
    exec (.announce p m) s = .next { s with dev := announceTaken s.dev p m } :=
  next_dev (censusRx_taken h nofun (by simp [hlen]))

theorem exec_mwave (h : FromNeighbour s.dev p m 0x14) (hlen : m.body.length = 4) :
    exec (.mwave p m) s = .next { s with dev := mwaveTaken s.dev p m } :=
  next_dev (censusRx_taken h nofun (by simp [hlen]))

theorem exec_mreply (h : FromNeighbour s.dev p m 0x15) (hlen : m.body.length = 6 + 8 * leAt m.body 4 2) :
    exec (.mreply p m) s = .next { s with dev := mreplyTaken s.dev p m } :=
  next_dev (censusRx_taken h nofun (by rw [beq_six_add_and_le]; simp [hlen]))

theorem exec_mroutes (h : FromNeighbour s.dev p m 0x16) (hlen : m.body.length = 516) :
    exec (.mroutes p m) s = .next { s with dev := mroutesTaken s.dev p m } :=
  next_dev (censusRx_taken h nofun (by simp [hlen]))

theorem exec_fenceNote (h : FromNeighbour s.dev p m 0x18) (hrole : s.dev.groupPort p = true) (hlen : m.body.length = 8) :
    exec (.fenceNote p m) s = .next { s with dev := fenceNoteTaken s.dev p m } :=
  next_dev (censusRx_taken h (fun _ => hrole) (by simp [hlen]))

end

/-- Settles O47: `censusRx` sorts the messages, and each that is taken is followed case by case (logs 16, 68, 70 to 72, 75, 112). -/
theorem censusMessagesAreTaken : Obligations.CensusMessagesAreTaken := by
  unfold Obligations.CensusMessagesAreTaken
  refine ⟨fun s => ?starts, fun s p m h hrole hlen => ?wave, fun s p m h hrole hlen => ?reply, fun s p m h hrole hlen => ?routeSet,
    fun s p m h hlen => exec_announce h hlen, fun s p m h hlen => ?mwave, fun s p m h hlen => ?mreply, fun s p m h hlen => ?mroutes,
    fun s p m => ?fenceReq, fun s p m h hrole hlen => ?fenceNote, fun s p m kind groupOnly layout i hi => ?others⟩
  case starts =>
    exact ⟨fun h hruns => next_dev (groupCensusStart_again h hruns), fun h hruns => next_dev (groupCensusStart_first h hruns),
      fun h => next_dev (groupCensusStart_idle h), fun h => next_dev (machineCensusStart_complete h),
      fun h => next_dev (machineCensusStart_idle h)⟩
  case wave =>
    rw [exec_wave h hrole hlen]
    exact ⟨fun hf => next_dev (waveBody_foreign hf), fun hf hnew => next_dev (waveBody_newer hf hnew),
      fun hf hnew => next_dev (waveBody_seen hf hnew)⟩
  case reply =>
    rw [exec_reply h hrole hlen]
    exact ⟨fun hasked => next_dev (replyTaken_asked hasked), fun hasked => next_dev (replyTaken_other hasked)⟩
  case routeSet =>
    rw [exec_routeSet h hrole hlen]
    exact ⟨fun hown => next_dev (routeSetTaken_own hown), fun hown => ⟨fun v hv => next_dev (routeSetTaken_onward hown hv),
      fun hv => next_dev (routeSetTaken_unknown hown hv)⟩⟩
  case mwave =>
    rw [exec_mwave h hlen]
    refine ⟨fun hnew hbridge hlow hstate => next_dev (mwaveTaken_lowerBridge hnew ⟨hbridge, hlow, hstate⟩), ?_,
      fun hgen hg => next_dev (mwaveTaken_same hgen hg), fun hold hother => next_dev (mwaveTaken_older hold hother)⟩
    rintro (⟨hnew, hlow⟩ | ⟨hgen, hg⟩)
    · exact next_dev (mwaveTaken_newer hnew hlow)
    · exact next_dev (mwaveTaken_lower hgen hg)
  case mreply =>
    rw [exec_mreply h hlen]
    exact ⟨fun hasked => next_dev (mreplyTaken_asked hasked), fun hasked => next_dev (mreplyTaken_other hasked)⟩
  case mroutes =>
    rw [exec_mroutes h hlen]
    exact ⟨fun hgen hmine => next_dev (mroutesTaken_own hgen hmine), fun hgen hmine => next_dev (mroutesTaken_onward hgen hmine),
      fun hgen => next_dev (mroutesTaken_other hgen)⟩
  case fenceReq =>
    exact ⟨fun hcame hbad => next_dev (fenceReqTaken_sound hcame hbad), fun hcame hbad => next_dev (fenceReqTaken_wrong hcame hbad),
      fun hcame => next_dev (fenceReqTaken_other hcame)⟩
  case fenceNote =>
    rw [exec_fenceNote h hrole hlen]
    exact ⟨fun hown => next_dev (if_pos hown), fun hown => next_dev (if_neg hown)⟩
  case others =>
    obtain ⟨f, hexec⟩ := exec_censusMessage hi s
    rw [hexec]
    exact ⟨fun hcame hbad => next_dev (censusRx_fault hcame hbad), fun hcame => next_dev (censusRx_other hcame)⟩

end Sys2Proof.Machine
end

section
/-! The order of numbered messages (R376, R377): the numbers a sender gives, and what a receiver does with one. -/

namespace Sys2Proof.Machine

/-! ### The sender's numbers (R376) -/

theorem seqNext_eq (n : Nat) : seqNext n = if n = 2 ^ 32 - 1 then 1 else n + 1 := by
  unfold seqNext
  split <;> split <;> omega

theorem Dev.nextSeq_unnumbered (d : Dev) (dst : Nat) {vc : Nat} (h : vc = 3 ∨ vc = 5 ∨ vc = 6) : d.nextSeq dst vc = (0, d) :=
  if_pos (by omega)

/-- The sender's counter of a destination and channel. -/
def Dev.sendSeq (d : Dev) (dst vc : Nat) : Nat := SMap.get 0 d.lnk.txSeq (dst * 8 + vc)

section
variable (d : Dev) (dst : Nat) {vc : Nat} (h3 : vc ≠ 3) (h5 : vc ≠ 5) (h6 : vc ≠ 6)
include h3 h5 h6

theorem Dev.nextSeq_numbered : d.nextSeq dst vc = (d.sendSeq dst vc,
    { d with lnk := { d.lnk with txSeq := SMap.put 0 d.lnk.txSeq (dst * 8 + vc) (seqNext (d.sendSeq dst vc)) } }) :=
  if_neg (by omega)

theorem Dev.sendSeq_nextSeq_self : (d.nextSeq dst vc).2.sendSeq dst vc = seqNext (d.sendSeq dst vc) := by
  rw [Dev.nextSeq_numbered d dst h3 h5 h6]
  exact SMap.get_put_self ..

theorem Dev.sendSeq_nextSeq_ne {dst' vc' : Nat} (hvc : vc < 8) (hvc' : vc' < 8) (hne : dst' ≠ dst ∨ vc' ≠ vc) :
    (d.nextSeq dst vc).2.sendSeq dst' vc' = d.sendSeq dst' vc' := by
  rw [Dev.nextSeq_numbered d dst h3 h5 h6]
  exact SMap.get_put_ne _ _ _ (by omega)

end

/-! ### The receiver (R377) -/

/-- A message of this source, channel and number is held. -/
def State.holds (s : State) (k n : Nat) : Bool := s.dev.lnk.reorder.any (fun x => msgKey x.2 == k && x.2.hdr.seq == n)

theorem State.holds_iff {s : State} {k n : Nat} :
    s.holds k n = true ↔ ∃ x ∈ s.dev.lnk.reorder, msgKey x.2 = k ∧ x.2.hdr.seq = n := by
  simp [State.holds]

theorem State.not_holds_iff {s : State} {k n : Nat} :
    ¬s.holds k n = true ↔ ∀ x ∈ s.dev.lnk.reorder, msgKey x.2 ≠ k ∨ x.2.hdr.seq ≠ n := by
  simp only [State.holds_iff, not_exists, not_and_or, imp_iff_not_or, ne_eq]

theorem expected_setExpected (s : State) (k e : Nat) : expected (setExpected s k e).dev k = some e := by
  have hget : SMap.get 0 (setExpected s k e).dev.lnk.rxSeq k = e + 1 := by simp [setExpected, Dev.modLnk]
  rw [expected, hget]

section
variable {s : State} {port : Nat} {m : Msg}

theorem orderMsg_restart (hn : m.hdr.seq = 0) :
    orderMsg s port m = deliver (setExpected (dropHeld s (fun x => msgKey x.2 == msgKey m)) (msgKey m) 1) port m := if_pos hn

variable (hn : m.hdr.seq ≠ 0)
include hn

theorem orderMsg_unsynchronised (he : expected s.dev (msgKey m) = none) :
    orderMsg s port m = deliver (setExpected s (msgKey m) (seqNext m.hdr.seq)) port m := by
  rw [orderMsg, if_neg hn, he]

variable {e : Nat} (he : expected s.dev (msgKey m) = some e)
include he

theorem orderMsg_expected (heq : m.hdr.seq = e) :
    orderMsg s port m = drainAll (deliver (setExpected s (msgKey m) (seqNext e)) port m) (msgKey m) := by
  rw [orderMsg, if_neg hn, he]
  exact if_pos heq

variable (hne : m.hdr.seq ≠ e)
include hne

theorem orderMsg_earlier (hfar : ¬seqDist e m.hdr.seq < 2 ^ 31) :
    orderMsg s port m = { s with dev := s.dev.bump O.SEQ_DUPLICATES } := by
  rw [orderMsg, if_neg hn, he]
  exact (if_neg hne).trans (if_neg hfar)

variable (hnear : seqDist e m.hdr.seq < 2 ^ 31)
include hnear

theorem orderMsg_held_again (hheld : s.holds (msgKey m) m.hdr.seq = true) :
    orderMsg s port m = { s with dev := s.dev.bump O.SEQ_DUPLICATES } := by
  rw [orderMsg, if_neg hn, he]
  exact (if_neg hne).trans ((if_pos hnear).trans (if_pos hheld))

theorem orderMsg_later (hheld : ¬s.holds (msgKey m) m.hdr.seq = true) : orderMsg s port m =
    if 512 ≤ s.dev.lnk.reorder.length + 1 then skipTo (holdMsg s port m) (msgKey m) else holdMsg s port m := by
  have hlen : (holdMsg s port m).dev.lnk.reorder.length = s.dev.lnk.reorder.length + 1 := List.length_append
  rw [orderMsg, if_neg hn, he, ← hlen]
  exact (if_neg hne).trans ((if_pos hnear).trans (if_neg hheld))

end

/-! ### REORDER_TIMEOUT (R377) -/

section
variable {s : State} {src vc : Nat}

theorem reorderTimeout_oldest {x : Nat × Msg} (hx : s.dev.lnk.reorder.find? (fun x => msgKey x.2 == src * 8 + vc) = some x) :
    reorderTimeout s src vc = expireHeld (src * 8 + vc) x.2.hdr.seq s.dev.lnk.reorder.length s := by
  rw [reorderTimeout, hx]

theorem reorderTimeout_idle (h : ∀ x ∈ s.dev.lnk.reorder, msgKey x.2 ≠ src * 8 + vc) : reorderTimeout s src vc = s := by
  have hnone : s.dev.lnk.reorder.find? (fun x => msgKey x.2 == src * 8 + vc) = none := by simpa [List.find?_eq_none] using h
  rw [reorderTimeout, hnone]

theorem exec_reorderTimeout : exec (.reorderTimeout src vc) s = .next (reorderTimeout s src vc) := rfl

end

/-- Settles O44: the cases of `nextSeq`, `orderMsg` and `reorderTimeout`. The second copy of a held number, the comparison and
the skips are the model's reading (log 97). -/
theorem messagesOfASourceAreOrdered : Obligations.MessagesOfASourceAreOrdered := by
  unfold Obligations.MessagesOfASourceAreOrdered
  refine ⟨fun d dst vc hvc => ⟨d.nextSeq_unnumbered dst, fun h3 h5 h6 => ⟨?number, ?counter, fun dst' vc' hvc' hne => ?others⟩⟩,
    fun s port m => ⟨orderMsg_restart, fun hn he => ?unsynchronised,
      fun hn e he => ⟨fun heq => ?expected, fun hne hnear hnew hroom => ?held, fun hne hnear hnew hfull => ?full,
        fun hne hnear hheld => orderMsg_held_again hn he hne hnear (State.holds_iff.2 hheld),
        fun hne hfar => orderMsg_earlier hn he hne (not_lt.2 hfar)⟩, expected_setExpected s _⟩,
    fun s src vc => ⟨fun x hx => ?oldest, fun h => ?idle⟩⟩
  case number => rw [Dev.nextSeq_numbered d dst h3 h5 h6]; rfl
  case counter => exact (d.sendSeq_nextSeq_self dst h3 h5 h6).trans (seqNext_eq _)
  case others => exact d.sendSeq_nextSeq_ne dst h3 h5 h6 hvc hvc' hne
  case unsynchronised => rw [orderMsg_unsynchronised hn he, seqNext_eq]
  case expected => rw [orderMsg_expected hn he heq, ← heq, seqNext_eq]
  case held =>
    rw [orderMsg_later hn he hne hnear (State.not_holds_iff.2 hnew), if_neg (by omega)]
  case full =>
    rw [orderMsg_later hn he hne hnear (State.not_holds_iff.2 hnew), if_pos (by omega)]
  case oldest => rw [exec_reorderTimeout, reorderTimeout_oldest hx]
  case idle => rw [exec_reorderTimeout, reorderTimeout_idle h]

end Sys2Proof.Machine
end

section
/-! Routes (R369 to R373): hop counts and next labels of a graph, and the installation of a ROUTE_SET. -/

namespace Sys2Proof.Machine

open Sys2Proof.Safety Sys2Proof.Laws

/-! ### Nodes of a graph -/

section
variable {g : Graph} {v : Nat} {es : List (Nat × Nat)}

theorem Graph.find?_node (hn : (g.map (·.1)).Nodup) (h : (v, es) ∈ g) : g.find? (fun x => x.1 == v) = some (v, es) := by
  induction g with
  | nil => simp at h
  | cons x g ih =>
    obtain ⟨hx, hn⟩ := List.nodup_cons.1 hn
    rcases List.mem_cons.1 h with rfl | h
    · simp
    · have hne : x.1 ≠ v := fun e => hx (List.mem_map.2 ⟨_, h, e.symm⟩)
      rw [List.find?_cons_of_neg (by simpa using hne), ih hn h]

/-- What a table over the nodes of a graph gives for a node. -/
theorem distOf_map_node (hn : (g.map (·.1)).Nodup) (h : (v, es) ∈ g) (f : Nat × List (Nat × Nat) → Nat) :
    distOf (g.map (fun x => (x.1, f x))) v = f (v, es) := by
  rw [distOf, List.find?_map]
  exact congrArg (fun o => ((Option.map _ o).map _).getD farAway) (Graph.find?_node hn h)

theorem distOf_map_stranger (h : v ∉ g.map (·.1)) (f : Nat × List (Nat × Nat) → Nat) :
    distOf (g.map (fun x => (x.1, f x))) v = farAway := by
  have hnone : (g.map (fun x => (x.1, f x))).find? (fun p => p.1 == v) = none := by
    simp only [List.mem_map, not_exists, not_and] at h
    simpa [List.find?_eq_none] using fun a b hab => h (a, b) hab
  rw [distOf, hnone]
  rfl

end

/-! ### Hop counts (R372) -/

theorem foldl_min_le {α : Type} (x : α → Nat) (l : List α) (a k : Nat) :
    l.foldl (fun m e => Nat.min m (x e)) a ≤ k ↔ a ≤ k ∨ ∃ e ∈ l, x e ≤ k := by
  induction l generalizing a with
  | nil => simp
  | cons e l ih =>
    rw [List.foldl_cons, ih, show Nat.min a (x e) ≤ k ↔ a ≤ k ∨ x e ≤ k from min_le_iff, or_assoc]
    simp

/-- One round of `relaxDist`. -/
def relaxOnce (g : Graph) (t : List (Nat × Nat)) : List (Nat × Nat) :=
  g.map (fun v => (v.1, v.2.foldl (fun m e => Nat.min m (distOf t e.2 + 1)) (distOf t v.1)))

/-- The hop counts of a table are right as far as `j` edges lead: beyond, it counts a node as far away. -/
def CountsHops (g : Graph) (dst j : Nat) (t : List (Nat × Nat)) : Prop :=
  ∀ v k, k < farAway → (distOf t v ≤ k ↔ WithinHops g dst (min j k) v)

section
variable {g : Graph} {dst : Nat}

theorem withinHops_node {k v : Nat} (hd : dst ∈ g.map (·.1)) (h : WithinHops g dst k v) : v ∈ g.map (·.1) := by
  induction k with
  | zero => exact h ▸ hd
  | succ k ih =>
    rcases h with h | ⟨es, hes, -⟩
    · exact ih h
    · exact List.mem_map_of_mem hes

variable (hn : (g.map (·.1)).Nodup)
include hn

theorem withinHops_succ_iff {k v : Nat} {es : List (Nat × Nat)} (hv : (v, es) ∈ g) :
    WithinHops g dst (k + 1) v ↔ WithinHops g dst k v ∨ ∃ e ∈ es, WithinHops g dst k e.2 := by
  refine or_congr_right ⟨fun ⟨es', hes', he⟩ => ?_, fun he => ⟨es, hv, he⟩⟩
  obtain ⟨-, rfl⟩ : v = v ∧ es' = es := by simpa [Graph.find?_node hn hes'] using Graph.find?_node hn hv
  exact he

theorem distOf_relaxOnce {v : Nat} {es : List (Nat × Nat)} (hv : (v, es) ∈ g) (t : List (Nat × Nat)) (k : Nat) :
    distOf (relaxOnce g t) v ≤ k ↔ distOf t v ≤ k ∨ ∃ e ∈ es, distOf t e.2 + 1 ≤ k := by
  rw [relaxOnce, distOf_map_node hn hv, foldl_min_le]

variable (hd : dst ∈ g.map (·.1))
include hd

theorem countsHops_start : CountsHops g dst 0 (g.map (fun v => (v.1, if v.1 = dst then 0 else farAway))) := by
  intro v k hk
  rw [Nat.zero_min, WithinHops]
  by_cases hv : v ∈ g.map (·.1)
  · obtain ⟨⟨v, es⟩, hes, rfl⟩ := List.mem_map.1 hv
    rw [distOf_map_node hn hes]
    by_cases h : v = dst
    · simp [h]
    · simpa [h] using hk
  · rw [distOf_map_stranger hv]
    exact ⟨fun h => absurd h (not_le.2 hk), fun h => absurd (h ▸ hd) hv⟩

/-- A round of relaxation looks one edge further. -/
theorem CountsHops.relaxOnce {j : Nat} {t : List (Nat × Nat)} (h : CountsHops g dst j t) : CountsHops g dst (j + 1) (relaxOnce g t) := by
  intro v k hk
  by_cases hv : v ∈ g.map (·.1)
  · obtain ⟨⟨v, es⟩, hes, rfl⟩ := List.mem_map.1 hv
    rw [distOf_relaxOnce hn hes, h v k hk]
    cases k with
    | zero => simp
    | succ k =>
      have hedge : (∃ e ∈ es, distOf t e.2 + 1 ≤ k + 1) ↔ ∃ e ∈ es, WithinHops g dst (min j k) e.2 := by
        simp only [Nat.add_le_add_iff_right, h _ k (by omega)]
      rw [hedge, Nat.add_min_add_right, withinHops_succ_iff hn hes]
      rcases Nat.lt_or_ge k j with hkj | hjk
      · rw [Nat.min_eq_right hkj, Nat.min_eq_right hkj.le, withinHops_succ_iff hn hes, or_assoc, or_self]
      · rw [Nat.min_eq_left hjk, Nat.min_eq_left (by omega)]
  · rw [Machine.relaxOnce, distOf_map_stranger hv]
    exact ⟨fun hle => absurd hle (not_le.2 hk), fun hw => absurd (withinHops_node hd hw) hv⟩

theorem CountsHops.relaxDist {n j : Nat} {t : List (Nat × Nat)} (h : CountsHops g dst j t) :
    CountsHops g dst (j + n) (relaxDist g n t) := by
  induction n generalizing j t with
  | zero => exact h
  | succ n ih =>
    rw [← Nat.add_assoc, Nat.add_right_comm]
    exact ih (h.relaxOnce hn hd)

theorem distOf_dists_le {k : Nat} (hk : k ≤ g.length) (hlen : g.length < farAway) (v : Nat) :
    distOf (dists g dst) v ≤ k ↔ WithinHops g dst k v := by
  have h := (countsHops_start hn hd).relaxDist hn hd (n := g.length) v k (by omega)
  rwa [Nat.zero_add, Nat.min_eq_right hk] at h

end

/-! ### The edge chosen (R372, R373) -/

/-- A fold that keeps the lowest label finds the minimum. -/
theorem foldl_lowest {f : Option Nat → Nat × Nat → Option Nat} (hnone : ∀ e, f none e = some e.1)
    (hsome : ∀ x e, f (some x) e = some (Nat.min x e.1)) (l : List (Nat × Nat)) : l.foldl f none = (l.map (·.1)).min? := by
  have hfrom (l : List (Nat × Nat)) (x : Nat) : l.foldl f (some x) = some ((l.map (·.1)).foldl min x) := by
    induction l generalizing x with
    | nil => rfl
    | cons e l ih => rw [List.foldl_cons, hsome, ih]; rfl
  cases l with
  | nil => rfl
  | cons e l => rw [List.foldl_cons, hnone, hfrom, List.map_cons, List.min?_cons']

section
variable {g : Graph} {t : List (Nat × Nat)} {v : Nat} {es : List (Nat × Nat)}

/-- The edges that lead one hop nearer. -/
def nearer (t : List (Nat × Nat)) (v : Nat) (es : List (Nat × Nat)) : List (Nat × Nat) :=
  es.filter (fun e => decide (distOf t v < farAway) && distOf t e.2 + 1 == distOf t v)

theorem mem_nearer {e : Nat × Nat} : e ∈ nearer t v es ↔ e ∈ es ∧ distOf t v < farAway ∧ distOf t e.2 + 1 = distOf t v := by
  simp [nearer]

variable (hn : (g.map (·.1)).Nodup) (hv : (v, es) ∈ g)
include hn hv

theorem nextLabel_eq : nextLabel g t v = ((nearer t v es).map (·.1)).min? := by
  rw [nextLabel, Graph.find?_node hn hv]
  exact foldl_lowest (fun _ => rfl) (fun _ _ => rfl) _

theorem nextLabel_eq_none : nextLabel g t v = none ↔ ¬∃ e ∈ es, distOf t v < farAway ∧ distOf t e.2 + 1 = distOf t v := by
  rw [nextLabel_eq hn hv, List.min?_eq_none_iff, List.map_eq_nil_iff, List.eq_nil_iff_forall_not_mem, not_exists]
  simp only [mem_nearer]

theorem nextLabel_lowest {l : Nat} (h : nextLabel g t v = some l) :
    (∃ n, (l, n) ∈ es ∧ distOf t n + 1 = distOf t v) ∧ ∀ e ∈ es, distOf t e.2 + 1 = distOf t v → l ≤ e.1 := by
  rw [nextLabel_eq hn hv, List.min?_eq_some_iff] at h
  obtain ⟨hmem, hle⟩ := h
  obtain ⟨⟨l, n⟩, he, rfl⟩ := List.mem_map.1 hmem
  obtain ⟨hes, hfar, hstep⟩ := mem_nearer.1 he
  exact ⟨⟨n, hes, hstep⟩, fun e hes hstep => hle _ (List.mem_map_of_mem (mem_nearer.2 ⟨hes, hfar, hstep⟩))⟩

end

/-! ### A ROUTE_SET installed (R369, R372, R373) -/

theorem told_pow {d e : Dev} (h : Told d e) : e.pow = d.pow := by rw [h.rest]

theorem told_announce (d : Dev) : Told d (announce d) := by
  unfold announce
  split
  · exact told_refl d
  · exact told_forEach _ _ (fun d p => told_emit d p _ _ _) d

/-- The tables of a ROUTE_SET stand, the module has its ID and its generation. -/
def Dev.tablesInstalled (d : Dev) (b : Bytes) : Dev :=
  (((d.modLnk (fun l => { l with
    member := SMap.writeRun 0 l.member 0 ((b.drop 20).take 64), group := SMap.writeRun 0 l.group 0 ((b.drop 84).take 512),
    backup := SMap.writeRun 0 l.backup 0 (fitBytes 36864 (b.drop 596)), fencedIds := [] })).dset O.DEVICE_ID
      (leAt b 16 2 % 2 ^ 15)).dset O.CENSUS_GEN (leAt b 18 2)).dset O.GROUP_MEMBERS (validCount ((b.drop 20).take 64) + 1)

/-- The second ROUTE_SET of a generation has come. -/
def Dev.machineIsReady (d : Dev) (b : Bytes) : Dev :=
  ((((d.dset O.CENSUS_STATE 3).dset O.MACHINE_GROUPS (validCount ((b.drop 84).take 512) + 1)).dset O.MACHINE_ROOT
    d.lnk.census.mroot).setPow (fun p => { p with deviceFenced := false })).modAvail
      (fun a => { a with ready := true, restart := false })

/-- The first ROUTE_SET of a generation has come. -/
def Dev.groupIsReady (d : Dev) : Dev := (d.dset O.CENSUS_STATE 2).bump O.CENSUS_RUNS

section
variable {d : Dev} {b : Bytes} (hgen : d.lnk.census.gen = some (leAt b 18 2))
include hgen

theorem installRoutes_own : installRoutes d b = announce
    (if d.dget O.CENSUS_GEN == leAt b 18 2 && (d.dget O.CENSUS_STATE == 2 || d.dget O.CENSUS_STATE == 3) then
      (d.tablesInstalled b).machineIsReady b
    else (d.tablesInstalled b).groupIsReady) := by
  rw [installRoutes, if_neg (not_not.2 hgen)]
  rfl

theorem installRoutes_first (h : d.dget O.CENSUS_GEN ≠ leAt b 18 2) :
    installRoutes d b = announce (d.tablesInstalled b).groupIsReady := by
  rw [installRoutes_own hgen, beq_eq_false_iff_ne.2 h, Bool.false_and, if_neg Bool.false_ne_true]

theorem installRoutes_second (h : d.dget O.CENSUS_GEN = leAt b 18 2) (hstate : d.dget O.CENSUS_STATE = 2) :
    installRoutes d b = announce ((d.tablesInstalled b).machineIsReady b) := by
  rw [installRoutes_own hgen, if_pos (by simp [h, hstate])]

/-- The first ROUTE_SET of a generation and a later one differ in what they make of the census alone. -/
theorem installRoutes_tables : ∃ e, Told e (installRoutes d b) ∧ e.lnk = (d.tablesInstalled b).lnk ∧
    e.dget O.DEVICE_ID = leAt b 16 2 % 2 ^ 15 ∧ e.dget O.CENSUS_GEN = leAt b 18 2 := by
  refine ⟨_, installRoutes_own hgen ▸ told_announce _, ?_⟩
  split
  · simp (disch := decide) [Dev.machineIsReady, Dev.tablesInstalled, Dev.modAvail, Dev.dget_dset_ne]
  · simp (disch := decide) [Dev.groupIsReady, Dev.tablesInstalled, Dev.bump, Dev.bumpN, Dev.dget_dset_ne]

end

/-- A run of bytes put at the start of a table reads as it stands in the message. -/
theorem table_byte (t : SMap Byte) (b : Bytes) {o n i : Nat} (hi : i < n) (hlen : o + n ≤ b.length) :
    SMap.get 0 (SMap.writeRun 0 t 0 ((b.drop o).take n)) i = nth 0 b (o + i) := by
  rw [SMap.get_writeRun, if_pos (by simp; omega), nth, Nat.sub_zero, List.getD_eq_getElem?_getD, List.getElem?_take_of_lt hi,
    List.getElem?_drop]

/-- Settles O48: every round of relaxation looks one edge further, the chosen label is a minimum, and a ROUTE_SET's tables are
written byte for byte. -/
theorem routesAreShortestPaths : Obligations.RoutesAreShortestPaths := by
  unfold Obligations.RoutesAreShortestPaths
  refine ⟨fun g dst hn hd hlen => ⟨fun v k _ hk => distOf_dists_le hn hd hk hlen v,
    fun v es hv => ⟨fun l hl => nextLabel_lowest hn hv hl, nextLabel_eq_none hn hv⟩⟩, fun d b hlen hgen => ?_⟩
  obtain ⟨e, htold, hlnk, hid, hg⟩ := installRoutes_tables hgen
  have htables : (installRoutes d b).lnk = { (d.tablesInstalled b).lnk with
      ports := (installRoutes d b).lnk.ports, txSeq := (installRoutes d b).lnk.txSeq } := hlnk ▸ htold.lnk
  refine ⟨(htold.keys _ (by decide)).trans hid, (htold.keys _ (by decide)).trans hg, by rw [htables]; rfl,
    fun i hi => ?member, fun i hi => ?group, fun i hi => ?backup, fun hfirst => ?groupReady, fun hsame hstate => ?machineReady⟩
  case member => rw [htables]; exact table_byte _ b hi (by omega)
  case group => rw [htables]; exact table_byte _ b hi (by omega)
  case backup =>
    have hfit : fitBytes 36864 (b.drop 596) = (b.drop 596).take 36864 := by
      rw [fitBytes_of_length (by simp [hlen]), List.take_of_length_le (by simp [hlen])]
    rw [htables, ← table_byte d.lnk.backup b hi (by omega), ← hfit]
    rfl
  case groupReady =>
    rw [installRoutes_first hgen hfirst, (told_announce _).keys _ (by decide)]
    simp (disch := decide) [Dev.groupIsReady, Dev.bump, Dev.bumpN, Dev.dget_dset_ne]
  case machineReady =>
    rw [installRoutes_second hgen hsame hstate, (told_announce _).keys _ (by decide), told_pow (told_announce _)]
    refine ⟨?_, rfl⟩
    simp (disch := decide) [Dev.machineIsReady, Dev.modAvail, Dev.dget_dset_ne]

end Sys2Proof.Machine
end

section
/-! Barriers (R378, R379): BARRIER, the three tokens and BARRIER_TIMEOUT, case by case. -/

namespace Sys2Proof.Machine

open Sys2Proof.Safety Sys2Proof.Laws

/-! ### BARRIER -/

theorem Dev.start_barriers (d : Dev) (f : Nat) : (d.start f).sched.barriers = d.sched.barriers := by
  unfold Dev.start; split <;> rfl

theorem exec_barrier (f : Nat) (s : State) : exec (.barrier f) s = .next { s with dev := barrierArrive f s.dev } := rfl

/-- The barrier that a descriptor opens, with its own arrival. -/
def Flight.newBarrier (x : Flight) : Barrier :=
  { tag := (syncD x.w).tag, id := (syncD x.w).id, epoch := (syncD x.w).epoch, job := x.job, n := (syncD x.w).n,
    subtree := (syncD x.w).subtree, parentPort := (syncD x.w).parentPort, parentId := (syncD x.w).parentId,
    root := (syncD x.w).root, flights := [x.id], count := 1, kids := [], sent := false }

def Dev.openBarrier (d : Dev) (b : Barrier) : Dev := d.setSched (fun s => { s with barriers := s.barriers ++ [b] })

theorem Dev.barrierOf_openBarrier {d : Dev} {b : Barrier} (h : d.barrierOf b.tag b.id b.epoch = none) :
    (d.openBarrier b).barrierOf b.tag b.id b.epoch = some b := by
  have hnone : d.sched.barriers.find? (fun c => c.tag == b.tag && c.id == b.id && c.epoch == b.epoch) = none := h
  show (d.sched.barriers ++ [b]).find? _ = some b
  rw [List.find?_append, hnone]
  simp

theorem barrierArrive_not_ready {d : Dev} {f : Nat} (h : ∀ x, ¬SyncReady d f 0 x) : barrierArrive f d = d := by
  unfold barrierArrive
  cases hx : d.flight f with
  | none => rfl
  | some x => exact if_pos (by simpa [SyncReady, hx, imp_iff_not_or] using h x)

section
variable {d : Dev} {f : Nat} {x : Flight}

theorem barrierOf_opened (hb : d.barrierOf (syncD x.w).tag (syncD x.w).id (syncD x.w).epoch = none) :
    ((d.start f).openBarrier x.newBarrier).barrierOf (syncD x.w).tag (syncD x.w).id (syncD x.w).epoch = some x.newBarrier :=
  Dev.barrierOf_openBarrier (b := x.newBarrier) (by rw [Dev.barrierOf, Dev.start_barriers]; exact hb)

variable (h : SyncReady d f 0 x)
include h

theorem barrierArrive_open {b : Barrier} (hb : d.barrierOf (syncD x.w).tag (syncD x.w).id (syncD x.w).epoch = some b) :
    barrierArrive f d =
      barrierProgress ((d.start f).setBarrier { b with count := b.count + 1, flights := b.flights ++ [f] })
        { b with count := b.count + 1, flights := b.flights ++ [f] } := by
  obtain ⟨hx, hop, hsop, hlive, hstarted⟩ := h
  rw [barrierArrive, hx]
  dsimp only
  rw [if_neg (by simp [hop, hsop, hlive, hstarted]), hb]

theorem barrierArrive_new (hb : d.barrierOf (syncD x.w).tag (syncD x.w).id (syncD x.w).epoch = none) :
    barrierArrive f d = drainTokens (barrierProgress ((d.start f).openBarrier x.newBarrier) x.newBarrier)
      (syncD x.w).tag (syncD x.w).id (syncD x.w).epoch := by
  have hid : x.id = f := Dev.flight_id h.1
  obtain ⟨hx, hop, hsop, hlive, hstarted⟩ := h
  rw [barrierArrive, hx]
  dsimp only
  rw [if_neg (by simp [hop, hsop, hlive, hstarted]), hb, Flight.newBarrier, hid]
  rfl

end

/-! ### Tokens -/

/-- The three tokens of R379 by KIND. -/
def tokenCmds (port : Nat) (m : Msg) : List (Nat × Instr) :=
  [(1, .syncArrive port m), (2, .syncRelease port m), (3, .syncAbort port m)]

theorem exec_tokenCmd {port : Nat} {m : Msg} {c : Nat × Instr} (hc : c ∈ tokenCmds port m) (s : State) :
    (1 ≤ c.1 ∧ c.1 ≤ 3) ∧ exec c.2 s = .next (syncTaken s port m c.1) := by
  simp only [tokenCmds, List.mem_cons, List.not_mem_nil, or_false] at hc
  rcases hc with rfl | rfl | rfl <;> exact ⟨⟨by simp, by simp⟩, rfl⟩

section
variable {s : State} {port : Nat} {m : Msg} {kind : Nat}

theorem syncTaken_other (h : s.dev.portUp port = false ∨ m.vc ≠ 6 ∨ m.hdr.kind ≠ kind) : syncTaken s port m kind = s :=
  if_pos (by simpa using h)

variable (hkind : 1 ≤ kind ∧ kind ≤ 3)
include hkind

theorem syncTaken_wrong (h : s.dev.syncCame port m kind)
    (hw : s.dev.isHostPort port = true ∨ (s.dev.port port).peerHost = true ∨ m.body.length ≠ 16) :
    syncTaken s port m kind = { s with dev := protoFault s.dev port } := by
  rw [syncTaken, if_neg (Dev.syncCame_iff_not.1 h)]
  split
  · rfl
  · next hport =>
    rw [syncArrives, if_pos (h.2.2 ▸ hkind), if_pos (by simpa [or_assoc] using hw)]

theorem syncTaken_token (h : TokenOk s.dev port m kind) : syncTaken s port m kind = { s with dev := token port m s.dev } := by
  obtain ⟨hup, hvc, rfl, hport, hhost, hlen⟩ := h
  rw [syncTaken, if_neg (Dev.syncCame_iff_not.1 ⟨hup, hvc, rfl⟩), hport, syncArrives, if_pos hkind]
  simp [hport, hhost, hlen]

end

theorem exec_token {s : State} {port : Nat} {m : Msg} {c : Nat × Instr} (hc : c ∈ tokenCmds port m) (h : TokenOk s.dev port m c.1) :
    exec c.2 s = .next { s with dev := token port m s.dev } := by
  obtain ⟨hkind, hexec⟩ := exec_tokenCmd hc s
  rw [hexec, syncTaken_token hkind h]

/-- The open barrier that a token names. -/
def Dev.tokenBarrier (d : Dev) (m : Msg) : Option Barrier := d.barrierOf (tokenTag m) (tokenId m) (tokenEpoch m)

/-- A later barrier than the token's, of its TAG and ID, is open. -/
def Dev.tokenStale (d : Dev) (m : Msg) : Bool :=
  d.sched.barriers.any (fun b => b.tag == tokenTag m && b.id == tokenId m && decide (tokenEpoch m < b.epoch))

section
variable {d : Dev} {port : Nat} {m : Msg}

theorem token_open {b : Barrier} (h : d.tokenBarrier m = some b) : token port m d = takeToken d port m b := by
  rw [Dev.tokenBarrier] at h
  rw [token, h]

theorem token_closed (h : d.tokenBarrier m = none) : token port m d =
    if d.tokenStale m then d.bump O.SYNC_STALE
    else d.setSched (fun s => { s with heldTokens := s.heldTokens ++ [(port, m)] }) := by
  rw [Dev.tokenBarrier] at h
  rw [token, h]
  rfl

variable {b : Barrier}

theorem takeToken_arrive (h : m.hdr.kind = 1) : takeToken d port m b =
    barrierProgress (d.setBarrier { b with count := b.count + tokenCnt m, kids := b.kids ++ [port] })
      { b with count := b.count + tokenCnt m, kids := b.kids ++ [port] } := by
  rw [takeToken, h]
  rfl

theorem takeToken_release (h : m.hdr.kind = 2) (hroot : b.root = false) (hsent : b.sent = true) (hport : port = b.parentPort) :
    takeToken d port m b = releaseBarrier d b := by
  rw [takeToken, h]
  exact if_neg (by simp [hroot, hsent, hport])

theorem takeToken_not_parent (h : m.hdr.kind = 2) (hw : b.root = true ∨ b.sent = false ∨ port ≠ b.parentPort) :
    takeToken d port m b = d := by
  rw [takeToken, h]
  exact if_pos (by simpa using hw)

theorem takeToken_abort (h : m.hdr.kind = 3) : takeToken d port m b = abortBarrier d b (some port) := by
  rw [takeToken, h]
  rfl

end

/-- A token that meets its open barrier answers what that barrier makes of it. -/
theorem exec_token_open {s : State} {port kind : Nat} {m : Msg} {b : Barrier} {i : Instr} (hi : (kind, i) ∈ tokenCmds port m)
    (ht : TokenOk s.dev port m kind) (hb : s.dev.tokenBarrier m = some b) :
    exec i s = .next { s with dev := takeToken s.dev port m b } := by
  rw [exec_token hi ht, token_open hb]

/-! ### BARRIER_TIMEOUT -/

section
variable {d : Dev} {tag id epoch : Nat}

theorem barrierTimeout_closed (h : d.barrierOf tag id epoch = none) : barrierTimeout tag id epoch d = d := by
  rw [barrierTimeout, h]

variable {b : Barrier} (h : d.barrierOf tag id epoch = some b)
include h

theorem barrierTimeout_open : barrierTimeout tag id epoch d = abortBarrier d b none := by
  rw [barrierTimeout, h]

theorem Dev.barrierOf_name : b.tag = tag ∧ b.id = id ∧ b.epoch = epoch := by
  simpa [and_assoc] using List.find?_some h

/-- A barrier that is dropped is open no more, whatever happened before. -/
theorem Dev.barrierOf_dropBarrier (e : Dev) : (e.dropBarrier b).barrierOf tag id epoch = none := by
  obtain ⟨rfl, rfl, rfl⟩ := Dev.barrierOf_name h
  refine List.find?_eq_none.2 fun c hc => ?_
  have hother : b.sameAs c = false := by simpa using (List.mem_filter.1 hc).2
  simpa [Barrier.sameAs, eq_comm (a := b.tag), eq_comm (a := b.id), eq_comm (a := b.epoch)] using hother

theorem barrierOf_abortBarrier (e : Dev) (skip : Option Nat) : (abortBarrier e b skip).barrierOf tag id epoch = none := by
  have hsched (d : Dev) (job step : Nat) (bs : Bytes) : (d.eventJ 0x0607 2 6 0 job step bs).sched = d.sched := by
    rw [(told_eventJ d _ _ _ _ _ _ (by decide)).rest]
  rw [abortBarrier, Dev.barrierOf, hsched]
  exact Dev.barrierOf_dropBarrier h _

end

/-- Settles O29: the cases of `barrierArrive`, `syncTaken`, `token` and `barrierTimeout`. -/
theorem barriersCountArrivals : Obligations.BarriersCountArrivals := by
  unfold Obligations.BarriersCountArrivals
  refine ⟨fun s f h => next_dev (barrierArrive_not_ready h), fun s tag id epoch h => next_dev (barrierTimeout_closed h),
    fun s port m c hc => ?sorted, fun s f x h => ⟨fun b hb => next_dev (barrierArrive_open h hb), fun hb => ?opens⟩,
    fun s port m => ⟨fun b hb => ⟨fun ht => ?arrive, fun ht hroot hsent hport => ?release, fun ht hw => ?notParent, fun ht => ?abort⟩,
      fun hb c hc ht => ⟨fun hold => ?stale, fun hnew => ?early⟩⟩,
    fun s tag id epoch b hb => ⟨_, rfl, barrierTimeout_open hb, ?closed⟩⟩
  case sorted =>
    obtain ⟨hkind, hexec⟩ := exec_tokenCmd hc s
    rw [hexec]
    exact ⟨fun h => congrArg _ (syncTaken_other h), fun hup hvc hk hw => congrArg _ (syncTaken_wrong hkind ⟨hup, hvc, hk⟩ hw)⟩
  case opens =>
    have hid : x.id = f := Dev.flight_id h.1
    have hopened := barrierOf_opened (f := f) hb
    rw [exec_barrier, barrierArrive_new h hb]
    rw [Flight.newBarrier, hid] at hopened ⊢
    exact ⟨rfl, hopened⟩
  case closed => rw [barrierTimeout_open hb]; exact barrierOf_abortBarrier hb _ _
  case stale => rw [exec_token hc ht, token_closed hb]; exact next_dev (if_pos hold)
  case early => rw [exec_token hc ht, token_closed hb]; exact next_dev (if_neg (Bool.not_eq_true _ ▸ hnew))
  case arrive => rw [exec_token_open (by simp [tokenCmds]) ht hb, takeToken_arrive ht.2.2.1]
  case release => rw [exec_token_open (by simp [tokenCmds]) ht hb, takeToken_release ht.2.2.1 hroot hsent hport]
  case notParent => rw [exec_token_open (by simp [tokenCmds]) ht hb, takeToken_not_parent ht.2.2.1 hw]
  case abort => rw [exec_token_open (by simp [tokenCmds]) ht hb, takeToken_abort ht.2.2.1]

end Sys2Proof.Machine
end

section
/-! Power (R366, R500 to R504): the pins, the rails, the input, and what a loss of power or a reset keeps. -/

namespace Sys2Proof.Machine

open Sys2Proof.Safety Sys2Proof.Laws

/-! ### Reads -/

theorem SMap.findD_filter_of_keep {α : Type} (d : Nat → α) (m : SMap α) (f : Nat × α → Bool) (a : Nat)
    (h : ∀ p : Nat × α, p.1 = a → f p = true) : SMap.findD d (m.filter f) a = SMap.findD d m a := by
  induction m with
  | nil => rfl
  | cons p m ih =>
    by_cases hf : f p = true
    · rw [List.filter_cons_of_pos hf, SMap.findD, SMap.findD, ih]
    · rw [List.filter_cons_of_neg hf, SMap.findD, if_neg (mt (h p) hf), ih]

theorem dictMax_powerCycles : dictMax O.POWER_CYCLES = 2 ^ 32 - 1 := by decide +kernel

theorem dictMax_thermalHold : dictMax O.THERMAL_HOLD_NS = 2 ^ 64 - 1 := by decide +kernel

theorem told_calendar {d e : Dev} (h : Told d e) : e.calendar = d.calendar := by rw [h.rest]

theorem Dev.planStarts_eq (d : Dev) : ∃ r, d.planStarts = d.setRec r ∧ r.slots = d.recd.slots := by
  unfold Dev.planStarts
  split
  · exact ⟨_, rfl, rfl⟩
  · exact ⟨d.recd, rfl, rfl⟩

/-! ### PWR_OK (R502, R503, R366) -/

section
variable {d : Dev} {sid : Nat}

/-- What stands at power-good: the rails are up, the SID is sampled, the power-up is counted. -/
def Dev.poweredUp (d : Dev) (sid : Nat) : Dev :=
  ((((d.setPow (fun p => { p with pwrOk := true, rails := 5, latched := false })).dset O.MEMBER_SID (sid % 64)).dset O.MGMT_PLCA_ID
    (sid % 64 + 1)).bump O.POWER_CYCLES).setSec (fun x => { x with bootCause := 0 })

theorem pwrOkAssert_up (h : d.pow.pwrOk = false) : pwrOkAssert d sid = d.poweredUp sid := if_neg (by simp [h])

theorem pwrOkAssert_again (h : d.pow.pwrOk = true) : pwrOkAssert d sid = d := if_pos h

theorem Dev.poweredUp_sid : (d.poweredUp sid).dget O.MEMBER_SID = sid % 64 := by
  simp (disch := decide) [Dev.poweredUp, Dev.bump, Dev.bumpN, Dev.dget_dset_ne]

theorem Dev.poweredUp_plca : (d.poweredUp sid).dget O.MGMT_PLCA_ID = sid % 64 + 1 := by
  simp (disch := decide) [Dev.poweredUp, Dev.bump, Dev.bumpN, Dev.dget_dset_ne]

theorem Dev.poweredUp_cycles : (d.poweredUp sid).dget O.POWER_CYCLES = Nat.min (d.dget O.POWER_CYCLES + 1) (2 ^ 32 - 1) := by
  rw [← dictMax_powerCycles]
  simp (disch := decide) [Dev.poweredUp, Dev.bump, Dev.bumpN, Dev.dget_dset_ne]

theorem pwrOkDeassert_down (h : d.pow.pwrOk = true) :
    pwrOkDeassert d = (powerOff d).setPow (fun p => { p with rstN := d.pow.rstN, wakeN := d.pow.wakeN }) := if_neg (by simp [h])

theorem pwrOkDeassert_again (h : d.pow.pwrOk = false) : pwrOkDeassert d = d := if_pos (by simp [h])

end

/-! ### MOD_RST_N (R504) -/

section
variable {d : Dev} {level : Bool}

def Dev.pinMoved (d : Dev) (level : Bool) : Dev := d.setPow (fun p => { p with rstN := level })

/-- A falling MOD_RST_N of a module with power resets its cores. -/
def Dev.resets (d : Dev) (level : Bool) : Prop := level = false ∧ d.pow.pwrOk = true ∧ d.pow.latched = false

theorem Dev.resets_iff_not : d.resets level ↔ ¬(level = true ∨ (!d.pow.pwrOk) = true ∨ d.pow.latched = true) := by
  simp [Dev.resets]

theorem modRstN_same (h : level = d.pow.rstN) : modRstN d level = d := if_pos h

theorem modRstN_pin (h : level ≠ d.pow.rstN) (hr : ¬d.resets level) : modRstN d level = d.pinMoved level :=
  (if_neg h).trans (guard_shut Dev.resets_iff_not hr)

theorem modRstN_reset (h : level ≠ d.pow.rstN) (hr : d.resets level) : modRstN d level = resetCores (d.pinMoved level) 1 :=
  (if_neg h).trans (guard_open Dev.resets_iff_not hr)

end

/-- What a reset of every core leaves beside the dictionary. -/
theorem resetCores_rest (d : Dev) (cause : Nat) :
    let u := resetCores d cause
    u.pow.rstN = d.pow.rstN ∧ u.pow.pwrOk = d.pow.pwrOk ∧ u.mem = Mem.zero ∧ u.sec.running = false ∧ u.sec.bootCause = cause ∧
    u.calendar = d.calendar ∧ u.timeSet = d.timeSet ∧ u.sec.debugOpen = d.sec.debugOpen ∧ u.recd.slots = d.recd.slots := by
  obtain ⟨r, hplan, hslots⟩ := d.planStarts_eq
  rw [← hslots]
  unfold resetCores
  rw [hplan]
  dsimp only
  split <;> exact ⟨rfl, rfl, rfl, rfl, rfl, rfl, rfl, rfl, rfl⟩

theorem keptReset_columnMap {b : Nat} (hb : b < 156) : keptReset (O.SPARE_COLUMN_MAP b) = true := by
  have hrow : O.SPARE_COLUMN_MAP b / 256 = 0x8003 := by unfold O.SPARE_COLUMN_MAP; omega
  simp [keptReset, hrow]

/-- The columns that the spares serve outlast a reset (R100). -/
theorem resetCores_columnMap (d : Dev) (cause : Nat) {b : Nat} (hb : b < 156) :
    (resetCores d cause).dget (O.SPARE_COLUMN_MAP b) = d.dget (O.SPARE_COLUMN_MAP b) := by
  have hkept (e : Dev) (k : Nat) (hk : keptReset k = true) : (fromStart e keptReset).dget k = e.dget k :=
    SMap.findD_filter_of_keep _ _ _ _ fun p hp => hp ▸ hk
  have hne (k : Nat) (h : k < 0x800301) : O.SPARE_COLUMN_MAP b ≠ k := by unfold O.SPARE_COLUMN_MAP; omega
  obtain ⟨r, hplan, -⟩ := d.planStarts_eq
  have hk := hkept (d.setRec r) _ (keptReset_columnMap hb)
  unfold resetCores seqObject
  rw [hplan]
  dsimp only
  rw [Dev.dget_dset_ne _ _ (hne _ (by decide))]
  split
  · rw [Dev.dget_dset_ne _ _ (hne _ (by decide))]; exact hk
  · exact hk

/-! ### Faults of the rails and of the input (R500, R503) -/

/-- What the security core gives up when the standby rail alone is left shows in the dictionary and the recorder only. -/
theorem standbyFails_keeps {β : Type} (p : Dev → β) (hdset : ∀ d k v, p (d.dset k v) = p d)
    (htold : ∀ d e, Told d e → p e = p d) (d : Dev) : p (standbyFails d) = p d := by
  have hevent (e : Dev) (k v code : Nat) (b : Bytes) : p ((e.dset k v).event code 2 7 0 b) = p e :=
    (htold _ _ (told_event _ code 7 0 b (by decide))).trans (hdset ..)
  unfold standbyFails
  dsimp only
  rw [hdset]
  split <;> split <;> simp only [hevent]

section
variable {d : Dev} {code : Nat} {b : Bytes}

/-- Noting a device fence counts and records it, and marks the power state. -/
theorem fenceNoted_keeps {β : Type} (p : Dev → β) (hset : ∀ d f r, p ((d.setPow f).setRec r) = p d)
    (hbump : ∀ d k, p (d.bump k) = p d) (htold : ∀ d e, Told d e → p e = p d) (d : Dev) (cause : Nat) :
    p (fenceNoted d cause) = p d :=
  (hset _ _ _).trans ((htold _ _ (told_event (d.bump O.DEVICE_OUTAGES) 0x0401 3 0 (leBytes 1 cause) (by decide))).trans (hbump ..))

theorem railsDown_sec_calendar (d : Dev) : (railsDown d).sec.running = d.sec.running ∧ (railsDown d).calendar = d.calendar := by
  have hsec : (standbyFails d).sec = d.sec := standbyFails_keeps Dev.sec (fun _ _ _ => rfl) (fun _ _ => told_sec) d
  have hcal : (standbyFails d).calendar = d.calendar := standbyFails_keeps Dev.calendar (fun _ _ _ => rfl) (fun _ _ => told_calendar) d
  exact ⟨by rw [← hsec]; rfl, hcal⟩

theorem trip_off (h : d.pow.pwrOk = false ∨ d.pow.latched = true) : trip d code b = d := if_pos (by simpa using h)

/-- A trip takes every rail but standby. -/
theorem trip_on (hpwr : d.pow.pwrOk = true) (hlatch : d.pow.latched = false) :
    let u := trip d code b
    u.pow.rails = 1 ∧ u.pow.latched = true ∧ u.pow.deviceFenced = true ∧ u.mem = Mem.zero ∧ u.sec.ready = false ∧
    u.sec.running = d.sec.running ∧ u.calendar = d.calendar := by
  have htold : Told d (d.event code 4 7 0 b) := told_event d code 7 0 b (by decide)
  have hnoted : ∃ e, trip d code b = railsDown e ∧ e.sec = d.sec ∧ e.calendar = d.calendar := by
    refine ⟨_, if_neg (by simp [hpwr, hlatch]), ?_⟩
    split
    · exact ⟨told_sec htold, told_calendar htold⟩
    · exact ⟨(fenceNoted_keeps Dev.sec (fun _ _ _ => rfl) (fun _ _ => rfl) (fun _ _ => told_sec) _ 4).trans (told_sec htold),
        (fenceNoted_keeps Dev.calendar (fun _ _ _ => rfl) (fun _ _ => rfl) (fun _ _ => told_calendar) _ 4).trans (told_calendar htold)⟩
  obtain ⟨e, htrip, hsec, hcal⟩ := hnoted
  obtain ⟨hrun, hcal'⟩ := railsDown_sec_calendar e
  rw [htrip]
  exact ⟨rfl, rfl, rfl, rfl, rfl, hrun.trans (congrArg _ hsec), hcal'.trans hcal⟩

end

section
variable {d : Dev} {n : Nat} {t : Int}

theorem thermalTrip_cool (h : 25 ≤ n ∨ t < 1100) : thermalTrip d n t = d := if_pos h

theorem thermalTrip_hot (hn : n < 25) (ht : 1100 ≤ t) :
    thermalTrip d n t = trip (sensed d n t) 0x0A87 (leBytes 1 n ++ degC t) := if_neg (by omega)

/-- The commands that remove power trip the module where they speak of a fault. -/
theorem exec_trips {s : State} {c : Instr} (h : (∃ k, 1 ≤ k ∧ k ≤ 5 ∧ c = .railFault k) ∨ (∃ o mv, c = .inputFault o mv) ∨
    (∃ n t, n < 25 ∧ 1100 ≤ t ∧ c = .thermalTrip n t)) :
    ∃ (e : Dev) (code : Nat) (b : Bytes), exec c s = .next { s with dev := trip e code b } ∧ e.pow = s.dev.pow ∧ e.sec = s.dev.sec ∧
      e.calendar = s.dev.calendar := by
  rcases h with ⟨k, h1, h5, rfl⟩ | ⟨o, mv, rfl⟩ | ⟨n, t, hn, ht, rfl⟩
  · exact ⟨s.dev, _, _, next_dev (if_pos ⟨h1, h5⟩), rfl, rfl, rfl⟩
  · exact ⟨s.dev, _, _, rfl, rfl, rfl, rfl⟩
  · exact ⟨sensed s.dev n t, _, _, next_dev (thermalTrip_hot hn ht), rfl, rfl, rfl⟩

end

/-! ### The input and the cap (R501, R519) -/

section
variable {d : Dev}

theorem powerCapAdjust_above {w : Nat} (h : d.pow.pwrOk = true ∧ d.dget O.POWER_CAP_W < w) :
    powerCapAdjust d w = d.bumpN O.CAP_THROTTLE_NS 1000000 := if_pos (by simpa using h)

theorem powerCapAdjust_below {w : Nat} (h : ¬(d.pow.pwrOk = true ∧ d.dget O.POWER_CAP_W < w)) : powerCapAdjust d w = d :=
  if_neg (by simpa using h)

/-- The input objects show what was measured. -/
def Dev.inputShown (d : Dev) (mv ma : Nat) : Dev :=
  ((d.dset O.INPUT_MV (mv % 2 ^ 32)).dset O.INPUT_MA (ma % 2 ^ 32)).dset O.INPUT_W (Config.inputWatts mv ma % 2 ^ 32)

def inLowBand (mv : Nat) : Bool := decide (42000 ≤ mv ∧ mv < 44000)
def inHighBand (mv : Nat) : Bool := decide (58000 < mv ∧ mv ≤ 60000)

def Dev.lowTold (d : Dev) (p : Pow) (mv : Nat) : Dev :=
  if inLowBand mv && !p.inLow then d.event 0x0A83 2 7 0 (leBytes 2 mv) else d

def Dev.highTold (d : Dev) (p : Pow) (mv : Nat) : Dev :=
  if inHighBand mv && !p.inHigh then d.event 0x0A88 2 7 0 (leBytes 1 1 ++ leBytes 2 mv) else d

def Dev.excursionTold (d : Dev) (ex : Option Nat) : Dev :=
  (ex.map (fun v => d.event 0x0A88 2 7 0 (leBytes 1 2 ++ leBytes 2 (Nat.min v 65535)))).getD d

/-- The events of a sample. -/
def Dev.inputTold (d : Dev) (p : Pow) (mv : Nat) (ex : Option Nat) : Dev := ((d.lowTold p mv).highTold p mv).excursionTold ex

theorem Dev.told_inputTold (d : Dev) (p : Pow) (mv : Nat) (ex : Option Nat) : Told d (d.inputTold p mv ex) := by
  have hlow : Told d (d.lowTold p mv) := by
    unfold Dev.lowTold; split
    · exact told_event _ _ _ _ _ (by decide)
    · exact told_refl d
  have hhigh (e : Dev) : Told e (e.highTold p mv) := by
    unfold Dev.highTold; split
    · exact told_event _ _ _ _ _ (by decide)
    · exact told_refl e
  refine told_trans hlow (told_trans (hhigh _) ?_)
  cases ex with
  | none => exact told_refl _
  | some v => exact told_event _ _ _ _ _ (by decide)

/-- In its band since the sample before, and without an excursion, the input tells nothing. -/
theorem Dev.inputTold_nothing {p : Pow} {mv : Nat} (hlow : inLowBand mv = true → p.inLow = true)
    (hhigh : inHighBand mv = true → p.inHigh = true) : d.inputTold p mv none = d := by
  have hlow' : d.lowTold p mv = d := if_neg (by simpa using hlow)
  have hhigh' : d.highTold p mv = d := if_neg (by simpa using hhigh)
  rw [Dev.inputTold, hlow', hhigh']
  rfl

theorem inputSample_off {mv ma : Nat} {ex : Option Nat} (h : ¬(d.pow.pwrOk = true ∧ d.sec.running = true)) :
    inputSample d mv ma ex = d := guard_shut (by simp) h

theorem inputSample_on {mv ma : Nat} {ex : Option Nat} (h : d.pow.pwrOk = true ∧ d.sec.running = true) : inputSample d mv ma ex =
    ((d.inputShown mv ma).inputTold d.pow mv ex).setPow (fun p => { p with inLow := inLowBand mv, inHigh := inHighBand mv }) := by
  refine (guard_open (by simp) h).trans ?_
  cases ex <;> rfl

theorem Dev.inputShown_mv (mv ma : Nat) : (d.inputShown mv ma).dget O.INPUT_MV = mv % 2 ^ 32 := by
  simp (disch := decide) [Dev.inputShown, Dev.dget_dset_ne]

theorem Dev.inputShown_ma (mv ma : Nat) : (d.inputShown mv ma).dget O.INPUT_MA = ma % 2 ^ 32 := by
  simp (disch := decide) [Dev.inputShown, Dev.dget_dset_ne]

end

end Sys2Proof.Machine
end

section
/-! The die temperatures (R512), and Lull (R505, R506, R509). -/

namespace Sys2Proof.Machine

open Sys2Proof.Safety Sys2Proof.Laws

/-! ### Temperatures (R512) -/

theorem toSgn_toUns_thirtyTwo {v : Int} (h : -(2 ^ 31) ≤ v ∧ v < 2 ^ 31) : toSgn 32 (toUns 32 v) = v := by
  unfold toSgn toUns
  norm_num at h ⊢
  omega

section
variable {d : Dev} {n : Nat} {t : Int}

/-- A die of the module reads 95 degrees or more. -/
def Dev.hot (d : Dev) (n : Nat) (t : Int) : Prop := n < 25 ∧ 950 ≤ t ∧ d.pow.pwrOk = true ∧ d.pow.latched = false

theorem Dev.hot_iff_not : d.hot n t ↔ ¬(25 ≤ n ∨ t < 950 ∨ (!d.pow.pwrOk) = true ∨ d.pow.latched = true) := by
  simp [Dev.hot]

theorem thermalHold_cool (h : ¬d.hot n t) : thermalHold d n t = d := guard_shut Dev.hot_iff_not h

theorem thermalHold_holding (h : d.hot n t) (hh : d.pow.hold = true) : thermalHold d n t = sensed d n t :=
  (guard_open Dev.hot_iff_not h).trans (if_pos hh)

theorem thermalHold_begins (h : d.hot n t) (hh : d.pow.hold = false) : thermalHold d n t =
    ((sensed d n t).setPow (fun p => { p with hold := true })).event 0x0A86 2 7 0 (leBytes 1 n ++ degC t) :=
  (guard_open Dev.hot_iff_not h).trans (if_neg (by simp [hh]))

theorem dieTemp_inj {k : Nat} (h : O.DIE_TEMP_C k = O.DIE_TEMP_C n) : k = n := Nat.add_left_cancel h

/-- A die reads below 92 degrees. -/
def Dev.coolDie (d : Dev) (n : Nat) : Prop := toSgn 32 (d.dget (O.DIE_TEMP_C n)) < 920

/-- A sensor that is cooled reads below 92 degrees, and no other object changes. -/
theorem cooled_dict (d : Dev) (n : Nat) : (cooled d n).coolDie n ∧ ∀ k, k ≠ O.DIE_TEMP_C n → (cooled d n).dget k = d.dget k := by
  unfold cooled
  split
  · next h => exact ⟨h, fun _ _ => rfl⟩
  · dsimp only
    refine ⟨?_, fun k hk => Dev.dget_dset_ne _ _ hk⟩
    rw [Dev.coolDie, Dev.dget_dset_self, toSgn_toUns_thirtyTwo (by omega)]
    omega

theorem cooled_rest (d : Dev) (n : Nat) : (cooled d n).pow = d.pow ∧ (cooled d n).mem = d.mem := by
  unfold cooled
  split <;> exact ⟨rfl, rfl⟩

theorem forEach_cooled (l : List Nat) (d : Dev) : (∀ n, n ∈ l ∨ d.coolDie n → (d.forEach l cooled).coolDie n) ∧
    ∀ k, (∀ n ∈ l, k ≠ O.DIE_TEMP_C n) → (d.forEach l cooled).dget k = d.dget k := by
  induction l generalizing d with
  | nil => exact ⟨fun n h => h.resolve_left List.not_mem_nil, fun _ _ => rfl⟩
  | cons m l ih =>
    obtain ⟨hcool, hother⟩ := cooled_dict d m
    obtain ⟨ihcool, ihother⟩ := ih (cooled d m)
    refine ⟨fun n hn => ihcool n ?_, fun k hk => ?_⟩
    · by_cases hnm : n = m
      · exact .inr (hnm ▸ hcool)
      · rw [Dev.coolDie, hother _ (mt dieTemp_inj hnm)]
        exact hn.imp_left fun h => (List.mem_cons.1 h).resolve_left hnm
    · rw [Dev.forEach_cons, ihother k fun n hn => hk n (List.mem_cons_of_mem _ hn), hother k (hk m List.mem_cons_self)]

theorem forEach_cooled_rest (l : List Nat) (d : Dev) : (d.forEach l cooled).pow = d.pow ∧ (d.forEach l cooled).mem = d.mem :=
  ⟨Dev.forEach_keeps Dev.pow _ (fun d n => (cooled_rest d n).1) l d, Dev.forEach_keeps Dev.mem _ (fun d n => (cooled_rest d n).2) l d⟩

variable {ns : Nat}

theorem exec_thermalHoldEnd (s : State) : exec (.thermalHoldEnd ns) s = .next { s with dev := thermalHoldEnd s.dev ns } := rfl

theorem thermalHoldEnd_idle (h : d.pow.hold = false) : thermalHoldEnd d ns = d := if_pos (by simp [h])

/-- The hold is over and its time is counted. -/
def Dev.holdOver (d : Dev) (ns : Nat) : Dev := (d.setPow (fun p => { p with hold := false })).bumpN O.THERMAL_HOLD_NS ns

theorem thermalHoldEnd_ends (h : d.pow.hold = true) : thermalHoldEnd d ns = (d.holdOver ns).forEach (List.range 25) cooled :=
  if_neg (by simp [h])

theorem thermalHoldEnd_effect (h : d.pow.hold = true) :
    let u := thermalHoldEnd d ns
    u.pow.hold = false ∧ u.dget O.THERMAL_HOLD_NS = Nat.min (d.dget O.THERMAL_HOLD_NS + ns) (2 ^ 64 - 1) ∧ u.mem = d.mem ∧
    ∀ n, n < 25 → u.coolDie n := by
  obtain ⟨hpow, hmem⟩ := forEach_cooled_rest (List.range 25) (d.holdOver ns)
  obtain ⟨hcool, hother⟩ := forEach_cooled (List.range 25) (d.holdOver ns)
  rw [thermalHoldEnd_ends h]
  refine ⟨by rw [hpow]; rfl, ?_, hmem, fun n hn => hcool n (.inl (List.mem_range.2 hn))⟩
  rw [hother _ (by decide), Dev.holdOver, Dev.dget_bumpN_self, dictMax_thermalHold]
  rfl

end

/-! ### Entering Lull (R505, R506) -/

section
variable {d : Dev}

theorem Dev.planStarts_dget (d : Dev) (k : Nat) : d.planStarts.dget k = d.dget k := by
  obtain ⟨r, hplan, -⟩ := d.planStarts_eq
  rw [hplan]
  rfl

theorem Dev.planStarts_mem (d : Dev) : d.planStarts.mem = d.mem := by
  obtain ⟨r, hplan, -⟩ := d.planStarts_eq
  rw [hplan]
  rfl

theorem Dev.portUp_congr {e : Dev} (h : ∀ p, e.dget (O.PORT_STATE p) = d.dget (O.PORT_STATE p)) (p : Nat) : e.portUp p = d.portUp p := by
  rw [Dev.portUp, Dev.portUp, h]

theorem portState_ne_lullState (p : Nat) : O.PORT_STATE p ≠ O.LULL_STATE := by
  unfold O.PORT_STATE O.LULL_STATE
  omega

theorem filter_portUp_eq_nil (h : ∀ p, p < 16 → d.portUp p = false) (q : Nat → Bool) :
    (List.range 16).filter (fun p => d.portUp p && q p) = [] :=
  List.filter_eq_nil_iff.2 fun p hp => by simp [h p (List.mem_range.1 hp)]

theorem lullNotes_alone (h : ∀ p, p < 16 → d.portUp p = false) (v : Nat) : lullNotes d v = d := by
  rw [lullNotes, filter_portUp_eq_nil h, Dev.forEach_nil]

/-- The compute dies are power-gated, what they held is saved. -/
def Dev.gated (d : Dev) : Dev :=
  ((((d.setPow (fun p => { p with saved := some ⟨d.mem.acc, d.mem.rows, d.mem.opb, d.mem.shadow, d.mem.prog⟩ })).setMem (fun m =>
    { m with acc := [], rows := [], opb := [], shadow := [], prog := [] })).dset O.LULL_STATE 2).bump O.LULL_ENTRIES).event
      0x0A81 0 7 0 []

theorem lullProgress_alone (hs : d.dget O.LULL_STATE = 1) (h : ∀ p, p < 16 → d.portUp p = false) : lullProgress d = d.gated := by
  have hnil : (List.range 16).filter d.portUp = [] := by simpa using filter_portUp_eq_nil h fun _ => true
  exact if_neg (by simp [hs, hnil])

theorem Dev.gated_state : d.gated.dget O.LULL_STATE = 2 := by
  rw [Dev.gated, (told_event _ _ _ _ _ (by decide)).keys _ (by decide)]
  simp (disch := decide) [Dev.bump, Dev.bumpN, Dev.dget_dset_ne]

theorem Dev.gated_mem : d.gated.mem = { d.mem with acc := [], rows := [], opb := [], shadow := [], prog := [] } :=
  ((told_event _ _ _ _ _ (by decide) : Told _ d.gated).same_mem :)

theorem Dev.gated_saved : d.gated.pow.saved = some ⟨d.mem.acc, d.mem.rows, d.mem.opb, d.mem.shadow, d.mem.prog⟩ :=
  (congrArg Pow.saved (told_pow (told_event _ _ _ _ _ (by decide) : Told _ d.gated)) :)

/-- Where no port is up, entering Lull is done at once. -/
theorem lullEnter_alone (h : ∀ p, p < 16 → d.portUp p = false) : lullEnter d = (d.planStarts.dset O.LULL_STATE 1).gated := by
  have hdown (p : Nat) (hp : p < 16) : (d.planStarts.dset O.LULL_STATE 1).portUp p = false := by
    rw [Dev.portUp_congr (fun q => ?_), h p hp]
    rw [Dev.dget_dset_ne _ _ (portState_ne_lullState q), Dev.planStarts_dget]
  rw [lullEnter, lullNotes_alone hdown, lullProgress_alone (Dev.dget_dset_self ..) hdown]

end

/-! ### Waking (R506, R509) -/

section
variable {s : State} {cause p ns : Nat}

/-- The module is in Lull or enters it. -/
def Dev.asleep (d : Dev) : Prop := d.dget O.LULL_STATE = 1 ∨ d.dget O.LULL_STATE = 2

theorem exec_lullCmdWake : exec (.lullCmdWake ns) s = .next (if s.dev.dget O.LULL_STATE = 0 then s else wake s 2 0 ns) := rfl

/-- The pin after its pulse. -/
def State.wakePulse (s : State) : State := { s with dev := s.dev.setPow (fun p => { p with wakeN := true }) }

theorem exec_wakeN : exec (.wakeN ns) s = .next (wakeEvent s.wakePulse 1 0 ns) := rfl

theorem exec_laneLightDetect : exec (.laneLightDetect p ns) s = .next (if p < 16 then wakeEvent s 3 p ns else s) := rfl

theorem exec_lullTimer : exec (.lullTimer ns) s = .next
    (if s.dev.dget O.LULL_TIMER ≠ 0 ∧ s.dev.dget O.LULL_TIMER ≤ s.dev.calendar then wakeEvent s 4 0 ns else s) := rfl

theorem wakeEvent_asleep (h : s.dev.asleep) : wakeEvent s cause p ns = wake s cause p ns := if_pos h
theorem wakeEvent_awake (h : ¬s.dev.asleep) : wakeEvent s cause p ns = s := if_neg h

end

/-- Settles O59: each command case by case. What survives a reset is log 76 (DEDUCED), the whole millisecond of the cap log 115
(DEDUCED), the sensors after a hold log 77, WAKE_N as a pulse log 84. -/
theorem powerCommandsTakeEffect : Obligations.PowerCommandsTakeEffect := by
  unfold Obligations.PowerCommandsTakeEffect
  refine ⟨fun s sid => ⟨fun h => ?asserted, fun h => next_dev (pwrOkAssert_again h)⟩,
    fun s => ⟨fun h => ?deasserted, fun h => next_dev (pwrOkDeassert_again h)⟩,
    fun s level => ⟨fun h => next_dev (modRstN_same h), fun h hr => next_dev (modRstN_pin h hr), fun h hr => ?reset⟩,
    fun s hpwr hlatch c hc => ?trips,
    fun s => ⟨fun k hk => ?railIdle, fun o mv hoff => next_dev (trip_off hoff), fun n t h => next_dev (thermalTrip_cool h),
      fun n t hn ht hoff => next_dev ((thermalTrip_hot hn ht).trans (trip_off hoff))⟩,
    fun s w => ⟨fun h => next_dev (powerCapAdjust_above h), fun h => next_dev (powerCapAdjust_below h)⟩,
    fun s mv ma ex => ⟨fun hon => ?sample, fun hoff => next_dev (inputSample_off hoff)⟩,
    fun s n t => ⟨fun h hh => next_dev (thermalHold_holding h hh), fun h hh => next_dev (thermalHold_begins h hh),
      fun h => next_dev (thermalHold_cool h)⟩,
    fun s ns => ⟨fun h => next_dev (thermalHoldEnd_idle h), fun h => ?holdEnd⟩,
    fun s => ⟨fun h => next_dev (if_pos h), fun h => next_dev (if_neg (by simp [h])), fun h0 h hdown => ?lull, fun v hv => ?restore⟩,
    fun s p ns => ?wakes⟩
  case asserted =>
    refine ⟨_, next_dev (pwrOkAssert_up h), rfl, rfl, rfl, Dev.poweredUp_sid, Dev.poweredUp_plca, rfl, Dev.poweredUp_cycles, rfl⟩
  case deasserted =>
    exact ⟨_, next_dev (pwrOkDeassert_down h), rfl, rfl, rfl, rfl, rfl, rfl, rfl, rfl, rfl, rfl⟩
  case reset =>
    obtain ⟨hpin, hpwr, hmem, hrun, hcause, hcal, htime, hopen, hslots⟩ := resetCores_rest (s.dev.pinMoved level) 1
    exact ⟨_, next_dev (modRstN_reset h hr), rfl, hpin.trans hr.1, hpwr.trans hr.2.1, hmem, hrun, hcause, hcal, htime, hopen, hslots,
      fun b hb => resetCores_columnMap _ 1 hb⟩
  case trips =>
    obtain ⟨e, code, b, hexec, hpow, hsec, hcal⟩ := exec_trips (s := s) hc
    obtain ⟨hrails, hlatched, hfenced, hmem, hready, hrun, htime⟩ :=
      trip_on (d := e) (code := code) (b := b) (hpow ▸ hpwr) (hpow ▸ hlatch)
    exact ⟨_, hexec, hrails, hlatched, hfenced, hmem, hready, hrun.trans (by rw [hsec]), htime.trans hcal⟩
  case railIdle =>
    refine next_dev ?_
    rcases hk with hk | hk | hoff
    · exact if_neg (by omega)
    · exact if_neg (by omega)
    · rw [trip_off hoff, ite_self]
  case sample =>
    have htold := (s.dev.inputShown mv ma).told_inputTold s.dev.pow mv ex
    refine ⟨_, next_dev (inputSample_on hon), rfl, (htold.keys _ (by decide)).trans (Dev.inputShown_mv ..),
      (htold.keys _ (by decide)).trans (Dev.inputShown_ma ..), fun hlow hhigh hex => ?_⟩
    rw [hex, Dev.inputTold_nothing hlow hhigh]
    rfl
  case holdEnd => exact ⟨_, exec_thermalHoldEnd s, thermalHoldEnd_effect h⟩
  case lull =>
    refine ⟨_, next_dev ((if_neg (by simp [h])).trans (lullEnter_alone hdown)), Dev.gated_state, ?_⟩
    rw [Dev.gated_mem, Dev.gated_saved, Dev.dset_mem, Dev.planStarts_mem]
    exact ⟨rfl, rfl, rfl⟩
  case restore =>
    rw [restoreSaved, hv]
    exact ⟨rfl, rfl⟩
  case wakes =>
    rw [exec_lullCmdWake, exec_wakeN, exec_laneLightDetect, exec_lullTimer]
    refine ⟨fun h => by rw [if_pos h], fun h => by rw [if_neg h],
      fun h => congrArg _ (wakeEvent_asleep (s := s.wakePulse) h), fun h => congrArg _ (wakeEvent_awake (s := s.wakePulse) h),
      fun h hp => by rw [if_pos hp, wakeEvent_asleep h], fun h => ?_,
      fun h hdue => by rw [if_pos hdue, wakeEvent_asleep h], fun h => ?_⟩
    · rcases h with h | hp
      · rw [wakeEvent_awake h, ite_self]
      · rw [if_neg (not_lt.2 hp)]
    · rcases h with h | hdue
      · rw [wakeEvent_awake h, ite_self]
      · rw [if_neg hdue]

end Sys2Proof.Machine
end

section
/-! What every command keeps (R484; log 2): exec answers a next state, the queue stands, one-time storage grows within its fuses. -/

namespace Sys2Proof.Laws

open Sys2Proof.Machine Sys2Proof.Safety

theorem kept_stateIte {c : Prop} [Decidable c] {s a b : State} (ha : Kept s a) (hb : Kept s b) : Kept s (if c then a else b) := by
  split <;> assumption

theorem kept_messageRoute (s : State) (port : Nat) (m : Msg) : Kept s (if port < 16 then arrive s port m else originate s m) :=
  kept_stateIte (kept_arrive s port m) (kept_originate s m)

/-- A command answers a next state that keeps the queue and one-time storage: those that work on the whole state one by one, the
others write the device alone. -/
theorem exec_kept (c : Instr) (s : State) : ∃ t, exec c s = .next t ∧ Kept s t := by
  cases c
  case boot cause => exact ⟨_, rfl, kept_boot s cause⟩
  case unlockToken t => exact ⟨_, rfl, kept_tokenWrite s t⟩
  case chodalGet src pkt => exact ⟨_, rfl, kept_packetIf _ src pkt s⟩
  case chodalSet src pkt => exact ⟨_, rfl, kept_packetIf _ src pkt s⟩
  case chodalGetPart src pkt => exact ⟨_, rfl, kept_packetIf _ src pkt s⟩
  case chodalList src pkt => exact ⟨_, rfl, kept_packetIf _ src pkt s⟩
  case malformedPacket src pkt => exact ⟨_, rfl, kept_packetIf _ src pkt s⟩
  case persistEraseDone => exact ⟨_, rfl, kept_persistErased s⟩
  case lullCmdWake ns => exact ⟨_, rfl, kept_stateIte (kept_refl s) (kept_wake s 2 0 ns)⟩
  case wakeN ns => exact ⟨_, rfl, kept_of_dev (kept_wakeEvent _ 1 0 ns)⟩
  case lullTimer ns => exact ⟨_, rfl, kept_stateIte (kept_wakeEvent s 4 0 ns) (kept_refl s)⟩
  case laneLightDetect port ns => exact ⟨_, rfl, kept_stateIte (kept_wakeEvent s 3 port ns) (kept_refl s)⟩
  case reorderTimeout src vc => exact ⟨_, rfl, kept_reorderTimeout s src vc⟩
  case messageRoute port m => exact ⟨_, rfl, kept_messageRoute s port m⟩
  case segWrite port m => exact ⟨_, rfl, kept_delivered s port m ..⟩
  case segRead port m => exact ⟨_, rfl, kept_delivered s port m ..⟩
  case doorbell port m => exact ⟨_, rfl, kept_delivered s port m ..⟩
  case mboxWrite port m => exact ⟨_, rfl, kept_delivered s port m ..⟩
  case vaneRead port m => exact ⟨_, rfl, kept_stateIte (kept_delivered s port m ..) (kept_refl s)⟩
  case syncArrive port m => exact ⟨_, rfl, kept_syncTaken s port m 1⟩
  case syncRelease port m => exact ⟨_, rfl, kept_syncTaken s port m 2⟩
  case syncAbort port m => exact ⟨_, rfl, kept_syncTaken s port m 3⟩
  case scaleUp port r => exact ⟨_, rfl, kept_recordTaken s port r 1⟩
  case scaleDown port r => exact ⟨_, rfl, kept_recordTaken s port r 2⟩
  case dataUp port r => exact ⟨_, rfl, kept_recordTaken s port r 3⟩
  case abort port r => exact ⟨_, rfl, kept_recordTaken s port r 4⟩
  case superframeRx port lanes spare margins minima => exact ⟨_, rfl, kept_superframeRx s port lanes spare margins minima⟩
  case swapAck port lane sseq => exact ⟨_, rfl, kept_stateIte (kept_dev s _) (kept_dev s _)⟩
  all_goals exact ⟨_, rfl, kept_dev s _⟩

theorem kept_of_exec {c : Instr} {s t : State} (h : exec c s = .next t) : Kept s t := by
  obtain ⟨u, hu, hk⟩ := exec_kept c s
  cases hu.symm.trans h
  exact hk

/-- A step keeps one-time storage as its command does: the queue it runs with is no part of it. -/
theorem step_otp {s t : State} (h : step s = .next t) : OtpGrows s.otp t.otp ∧ (OtpInRange s.otp → OtpInRange t.otp) := by
  unfold step at h
  split at h
  next => cases h; exact ⟨otpGrows_refl _, fun hr => hr⟩
  next c rest _ => have hk := kept_of_exec h; exact ⟨hk.grows, hk.range⟩

/-- Settles O4: no operation of a command takes a fuse back. -/
theorem oneTimeStorageOnlyGrows : Obligations.OneTimeStorageOnlyGrows := by
  unfold Obligations.OneTimeStorageOnlyGrows
  exact fun _ _ h => (step_otp h).1

/-- Settles O5: a boot blows no floor above 64, no token is accepted at 255. -/
theorem oneTimeStorageStaysInRange : Obligations.OneTimeStorageStaysInRange := by
  unfold Obligations.OneTimeStorageStaysInRange
  exact fun _ _ hr h => (step_otp h).2 hr

/-- Settles O3: every command keeps the queue. -/
theorem execKeepsTheQueue : Obligations.ExecKeepsTheQueue := by
  unfold Obligations.ExecKeepsTheQueue
  exact fun _ _ _ h => (kept_of_exec h).pending

/-- Settles O2: exec answers a next state for every command. -/
theorem everyCommandAnswersNext : Obligations.EveryCommandAnswersNext := by
  unfold Obligations.EveryCommandAnswersNext
  exact fun c s => (exec_kept c s).imp fun _ h => h.1

/-- Settles O1: a step takes the front of the queue; on an empty one it ticks the calendar (log 12). -/
theorem stepRunsFront : Obligations.StepRunsFront := by
  unfold Obligations.StepRunsFront
  refine ⟨fun _ _ _ => rfl, fun ⟨_, _, _⟩ h => ?_⟩
  cases h
  rfl

end Sys2Proof.Laws
end

section
/-! The items of a Chodal packet read back as they were written (R454, R456). -/

namespace Sys2Proof.Machine

/-- The item's INDEX, SUB, TYPE and LEN fit their fields. -/
def CkItem.Fits (it : CkItem) : Prop := it.index < 65536 ∧ it.sub < 256 ∧ it.ty < 256 ∧ it.value.length < 65536

/-- The fields of an item's header (R454). -/
def CkItem.fields (it : CkItem) (st : Nat) : List (Nat × Nat) :=
  [(16, it.index), (8, it.sub), (8, it.ty), (16, it.value.length), (8, st)]

/-- The bytes of an item with its status. -/
def CkItem.bytes (it : CkItem) (st : Nat) : Bytes := ckItem it.index it.sub it.ty st it.value

section
variable {it : CkItem} (st : Nat)

theorem CkItem.bytes_eq : it.bytes st = leBytes 8 (packed (it.fields st)) ++ it.value ++ List.replicate ((4 - it.value.length % 4) % 4) 0 := by
  have hw : at' 0 16 it.index + at' 16 8 it.sub + at' 24 8 it.ty + at' 32 16 it.value.length + at' 48 8 st = packed (it.fields st) := by
    simp only [CkItem.fields, packed, at']
    ring
  rw [CkItem.bytes, ckItem, hw]

theorem CkItem.length_bytes : (it.bytes st).length = 8 + it.value.length + (4 - it.value.length % 4) % 4 := by
  rw [CkItem.bytes_eq, List.length_append, List.length_append, length_leBytes, List.length_replicate]

theorem CkItem.length_bytes_mod : (it.bytes st).length % 4 = 0 := by
  rw [CkItem.length_bytes]
  omega

/-- The header's word, whatever follows it. -/
theorem CkItem.leAt_bytes (rest : Bytes) : leAt (it.bytes st ++ rest) 0 8 = packed (it.fields st) := by
  have hlt : packed (it.fields st) < 256 ^ 8 := lt_of_lt_of_le (packed_lt _) (by simp [CkItem.fields, packedWidth])
  rw [CkItem.bytes_eq, List.append_assoc, List.append_assoc, ← List.nil_append (leBytes 8 _ ++ _), ← List.append_assoc]
  exact leAt_leBytes rfl hlt

variable (h : it.Fits)
include h

theorem CkItem.fields_read : fld (packed (it.fields st)) 0 16 = it.index ∧ fld (packed (it.fields st)) 16 8 = it.sub ∧
    fld (packed (it.fields st)) 24 8 = it.ty ∧ fld (packed (it.fields st)) 32 16 = it.value.length := by
  obtain ⟨hindex, hsub, hty, hlen⟩ := h
  exact ⟨fld_packed 0 rfl rfl hindex, fld_packed 1 rfl rfl hsub, fld_packed 2 rfl rfl hty, fld_packed 3 rfl rfl hlen⟩

/-- The first of `n + 1` items is read, and the rest from behind it. -/
theorem ckItems_bytes_append (n : Nat) (rest : Bytes) :
    ckItems (n + 1) (it.bytes st ++ rest) = (ckItems n rest).map (fun r => it :: r) := by
  obtain ⟨hindex, hsub, hty, hlen⟩ := CkItem.fields_read st h
  have htot := CkItem.length_bytes (it := it) st
  have hvalue : ((it.bytes st ++ rest).drop 8).take it.value.length = it.value := by
    rw [CkItem.bytes_eq, List.append_assoc, List.append_assoc, List.drop_left' (length_leBytes 8 _), List.take_left' rfl]
  rw [ckItems]
  dsimp only
  rw [CkItem.leAt_bytes, hindex, hsub, hty, hlen, ← htot, hvalue, List.drop_left' rfl, if_neg, if_neg]
  · rw [List.length_append]; omega
  · rw [List.length_append]; omega

/-- An item cut short overruns. -/
theorem ckItems_bytes_take (n : Nat) {k : Nat} (hk : k < (it.bytes st).length) : ckItems (n + 1) ((it.bytes st).take k) = none := by
  obtain ⟨-, -, -, hlen⟩ := CkItem.fields_read st h
  have htake : ((it.bytes st).take k).length = k := List.length_take_of_le hk.le
  rw [ckItems, htake]
  split
  next => rfl
  next hk8 =>
    have hword : leAt ((it.bytes st).take k) 0 8 = packed (it.fields st) := by
      have hfull := CkItem.leAt_bytes (it := it) st []
      rw [List.append_nil] at hfull
      rw [← hfull, leAt, leAt, List.drop_zero, List.drop_zero, List.take_take, Nat.min_eq_left (by omega)]
    dsimp only
    rw [hword, hlen, ← CkItem.length_bytes st, if_pos hk]

end

/-- The bytes of items with their statuses, one after another. -/
def itemsBytes (ps : List (CkItem × Nat)) : Bytes := ps.flatMap (fun p => p.1.bytes p.2)

theorem itemsBytes_cons (p : CkItem × Nat) (ps : List (CkItem × Nat)) : itemsBytes (p :: ps) = p.1.bytes p.2 ++ itemsBytes ps := rfl

theorem length_itemsBytes_mod (ps : List (CkItem × Nat)) : (itemsBytes ps).length % 4 = 0 := by
  induction ps with
  | nil => rfl
  | cons p ps ih =>
    have hp := CkItem.length_bytes_mod (it := p.1) p.2
    rw [itemsBytes_cons, List.length_append]
    omega

theorem ckItems_itemsBytes {ps : List (CkItem × Nat)} (h : ∀ p ∈ ps, p.1.Fits) (rest : Bytes) :
    ckItems ps.length (itemsBytes ps ++ rest) = some (ps.map Prod.fst) := by
  induction ps with
  | nil => rfl
  | cons p ps ih =>
    rw [List.forall_mem_cons] at h
    rw [itemsBytes_cons, List.append_assoc, List.length_cons, ckItems_bytes_append p.2 h.1, ih h.2]
    rfl

theorem ckItems_itemsBytes_take {ps : List (CkItem × Nat)} (h : ∀ p ∈ ps, p.1.Fits) {k : Nat} (hk : k < (itemsBytes ps).length) :
    ckItems ps.length ((itemsBytes ps).take k) = none := by
  induction ps generalizing k with
  | nil => exact absurd hk (Nat.not_lt_zero k)
  | cons p ps ih =>
    rw [List.forall_mem_cons] at h
    rw [itemsBytes_cons, List.length_append] at hk
    rw [itemsBytes_cons, List.length_cons]
    rcases lt_or_ge k (p.1.bytes p.2).length with hin | hbeyond
    · rw [List.take_append_of_le_length hin.le]
      exact ckItems_bytes_take p.2 h.1 _ hin
    · rw [List.take_append, List.take_of_length_le hbeyond, ckItems_bytes_append p.2 h.1, ih h.2 (by omega)]
      rfl

/-- Settles O51, by induction over the items. -/
theorem itemsReadBack : Obligations.ItemsReadBack := by
  unfold Obligations.ItemsReadBack
  intro its sts hlen hits _ bs
  have hfits : ∀ p ∈ its.zip sts, p.1.Fits := fun p hp => hits p.1 (List.of_mem_zip hp).1
  have hfst : (its.zip sts).map Prod.fst = its := List.map_fst_zip hlen.le
  have hn : its.length = (its.zip sts).length := by rw [List.length_zip, hlen, Nat.min_self]
  rw [hn]
  exact ⟨fun rest => (ckItems_itemsBytes hfits rest).trans (congrArg some hfst), length_itemsBytes_mod _,
    fun k hk => ckItems_itemsBytes_take hfits hk⟩

end Sys2Proof.Machine
end

section
/-! Doorbells (R421, R506) and mailboxes (R419, R440). -/

namespace Sys2Proof.Machine

open Sys2Proof.Safety Sys2Proof.Laws

/-! ### Doorbells -/

theorem exec_doorbell_inTurn {s : State} {port : Nat} {m : Msg} (h : InTurn s.dev port m 0x20) :
    exec (.doorbell port m) s = .next { s with dev := doorbellMsg s.dev m } := by
  have hkind : m.hdr.kind = 0x20 := h.1.2.1
  have htry : reqTry s.dev m = some (doorbellMsg s.dev m) := by rw [reqTry, hkind]; rfl
  exact (exec_reqCmd_inTurn (c := (0x20, .doorbell port m)) (by simp [reqCmds]) h).trans (by rw [htry]; rfl)

theorem doorbellMsg_asleep {d : Dev} (m : Msg) (h : d.dget O.LULL_STATE ≠ 0) :
    doorbellMsg d m = { d with pow := { d.pow with deferred := d.pow.deferred ++ [m] } } := if_neg h

theorem doorbellMsg_awake {d : Dev} (m : Msg) (h : d.dget O.LULL_STATE = 0) : doorbellMsg d m = doorbellNow d m := if_pos h

theorem doorbellNow_refused {d : Dev} {m : Msg} (h : ¬doorbellOk d m = true) : doorbellNow d m = d.bump O.DOORBELL_REJECTS :=
  if_pos (by simpa using h)

/-- Settles O39: the rules of R421, and the wait of R506 in Lull. -/
theorem doorbellsMoveTheTail : Obligations.DoorbellsMoveTheTail := by
  unfold Obligations.DoorbellsMoveTheTail
  refine ⟨fun s port m h hlull => (exec_doorbell_inTurn h).trans (next_dev (doorbellMsg_asleep m hlull)), fun s port m h hlull => ?_⟩
  intro d w j q depth tail chead dist ok d1
  have hrun : exec (.doorbell port m) s = .next { s with dev := doorbellNow d m } :=
    (exec_doorbell_inTurn h).trans (next_dev (doorbellMsg_awake m hlull))
  have hok : doorbellOk d m = true ↔ ok := by
    simp only [doorbellOk, Bool.and_eq_true, Bool.or_eq_true, beq_iff_eq, bne_iff_ne, decide_eq_true_eq, Bool.not_eq_true',
      and_assoc, ok, imp_iff_not_or, Bool.not_eq_true]
    rfl
  exact ⟨fun hw => hrun.trans (next_dev (if_neg (by simp [hok.2 hw]))), fun hw => hrun.trans (next_dev (doorbellNow_refused (mt hok.1 hw)))⟩

/-! ### Mailboxes -/

theorem exec_mboxWrite_inTurn {s : State} {port : Nat} {m : Msg} (h : InTurn s.dev port m 0x30) :
    exec (.mboxWrite port m) s = .next { s with dev := mboxMsg s.dev m } := by
  have hkind : m.hdr.kind = 0x30 := h.1.2.1
  have htry : reqTry s.dev m = some (mboxMsg s.dev m) := by rw [reqTry, hkind]; rfl
  exact (exec_reqCmd_inTurn (c := (0x30, .mboxWrite port m)) (by simp [reqCmds]) h).trans (by rw [htry]; rfl)

theorem mboxWords_succ (r : SMap (BitVec 32)) (k n : Nat) (bs : Bytes) :
    mboxWords r k (n + 1) bs = SMap.put 0 (mboxWords r k n bs) (k + n) (BitVec.ofNat 32 (leAt bs (4 * n) 4)) := by
  simp [mboxWords, List.range_succ]

/-- The registers after a write of `n` words from register `k` up. -/
theorem mboxWords_get (r : SMap (BitVec 32)) (k n : Nat) (bs : Bytes) :
    (∀ i, i < n → SMap.get 0 (mboxWords r k n bs) (k + i) = BitVec.ofNat 32 (leAt bs (4 * i) 4)) ∧
    (∀ a, a < k ∨ k + n ≤ a → SMap.get 0 (mboxWords r k n bs) a = SMap.get 0 r a) := by
  induction n with
  | zero => exact ⟨fun i hi => absurd hi (Nat.not_lt_zero i), fun a _ => rfl⟩
  | succ n ih =>
    obtain ⟨hin, hout⟩ := ih
    rw [mboxWords_succ]
    refine ⟨fun i hi => ?_, fun a ha => ?_⟩
    · rcases Nat.lt_succ_iff_lt_or_eq.1 hi with hlt | rfl
      · rw [SMap.get_put_ne _ _ _ (by omega), hin i hlt]
      · rw [SMap.get_put_self]
    · rw [SMap.get_put_ne _ _ _ (by omega), hout a (by omega)]

/-- What a write that is accepted leaves in its channel (R440). -/
def Mbox.written (x : Mbox) (m : Msg) : Mbox :=
  let w := leAt m.body 0 8
  ⟨mboxWords x.regs (fld w 8 4) (fld w 12 5) (m.body.drop 8), bit w 17⟩

theorem told_mbox1 {d e : Dev} (h : Told d e) (c : Nat) : e.mbox1 c = d.mbox1 c := by rw [h.rest]; rfl

theorem mboxConsume_idle {c : Nat} {d : Dev} (h : (d.mbox1 c).pending = false) : mboxConsume c d = d := if_pos (by simp [h])

theorem exec_mboxConsume (c : Nat) (s : State) : exec (.mboxConsume c) s = .next { s with dev := mboxConsume c s.dev } := rfl

/-- Settles O40: a write by the binding and the channel's state, then the hand-over. -/
theorem mailboxesTakeTheirSendersWords : Obligations.MailboxesTakeTheirSendersWords := by
  unfold Obligations.MailboxesTakeTheirSendersWords
  refine ⟨fun s port m h => ?writes, fun s c => ?consumed⟩
  case writes =>
    intro d w c b x ack bound
    have hbound : (!bit b 36 || !ownerIs b m.hdr || fld b 22 8 != m.hdr.schan) = true ↔ ¬bound := by
      simp only [Bool.or_eq_true, Bool.not_eq_true', bne_iff_ne, bound, not_and_or, Bool.not_eq_true, or_assoc]
    have hrun := exec_mboxWrite_inTurn h
    refine ⟨fun hb => hrun.trans (next_dev (if_pos (hbound.2 hb))),
      fun hb hp => hrun.trans (next_dev ((if_neg (mt hbound.1 (not_not.2 hb))).trans (if_pos hp))), fun hb hp => ?_⟩
    have hwrite : mboxMsg s.dev m = ack (d.setMbox c (x.written m)) stOk :=
      (if_neg (mt hbound.1 (not_not.2 hb))).trans (if_neg (show ¬x.pending = true by simp [hp]))
    have htold : Told (d.setMbox c (x.written m)) (ack (d.setMbox c (x.written m)) stOk) := told_sendMsg ..
    obtain ⟨hin, hout⟩ := mboxWords_get x.regs (fld w 8 4) (fld w 12 5) (m.body.drop 8)
    refine ⟨_, _, hrun.trans (next_dev hwrite), rfl, ?_, fun i hi => ?_, fun k hk => ?_, fun k hk => ?_⟩
    · rw [told_mbox1 htold, Dev.mbox1_setMbox_self]; rfl
    · rw [told_mbox1 htold, Dev.mbox1_setMbox_self]
      exact (hin i hi).trans (by rw [leAt, leAt, List.drop_drop])
    · rw [told_mbox1 htold, Dev.mbox1_setMbox_self]
      exact hout k hk
    · rw [told_mbox1 htold, Dev.mbox1_setMbox_ne _ _ hk]
  case consumed =>
    intro x b d
    rw [exec_mboxConsume]
    refine ⟨fun hp => next_dev (mboxConsume_idle hp), fun hp => ⟨next_dev (if_neg (by simp [x, hp])), ?_, fun k => ?_⟩⟩
    · rw [Dev.mbox1_setMbox_self]; rfl
    · rw [Dev.mbox1_setMbox_self]; rfl

end Sys2Proof.Machine
end

section
/-! Attestation (R492, R493) and debug unlock (R494 to R496). -/

namespace Sys2Proof.Machine

open Sys2Proof.Safety Sys2Proof.Laws

/-! ### The report (R493) -/

theorem leBytes_mod (n v : Nat) : leBytes n (v % 256 ^ n) = leBytes n v := by
  induction n generalizing v with
  | zero => rfl
  | succ n ih =>
    have hhigh : v % 256 ^ (n + 1) / 256 = v / 256 % 256 ^ n := by
      rw [pow_succ', Nat.mod_mul_right_div_self]
    have hlow : BitVec.ofNat 8 (v % 256 ^ (n + 1)) = BitVec.ofNat 8 v :=
      BitVec.eq_of_toNat_eq (Nat.mod_mod_of_dvd v ⟨256 ^ n, pow_succ' 256 n⟩)
    rw [leBytes, leBytes, hhigh, ih, hlow]

theorem ofLe_leBytes_mod (n v : Nat) : ofLe (leBytes n v) = v % 256 ^ n := by
  rw [← leBytes_mod]
  exact ofLe_leBytes (Nat.mod_lt _ (Nat.pow_pos (by decide)))

/-- Bytes that lie before what is appended. -/
theorem slice_append_left {xs : Bytes} (ys : Bytes) {o n : Nat} (h : o + n ≤ xs.length) :
    ((xs ++ ys).drop o).take n = (xs.drop o).take n := by
  rw [List.drop_append_of_le_length (by omega), List.take_append_of_le_length (by rw [List.length_drop]; omega)]

/-- The bytes that are appended. -/
theorem slice_append_right {xs ys : Bytes} {o n : Nat} (ho : xs.length = o) (hn : ys.length = n) : ((xs ++ ys).drop o).take n = ys := by
  rw [List.drop_left' ho, List.take_of_length_le hn.le]

theorem length_ownSerial : ownSerial.length = 16 := length_fitBytes 16 _

section
variable (d : Dev) (o : Otp)

/-- Bytes 20 to 31: the part's name and stepping. -/
def reportPart : Bytes := fitBytes 8 (ascii "OZ-2760") ++ ascii "B0" ++ leBytes 2 0

/-- Bytes 64 to 119: the firmware image that runs. -/
def reportImage : Bytes :=
  fitBytes 48 (SMap.get [] d.blobs O.FW_DIGEST) ++ leBytes 4 (d.dget O.FW_VERSION) ++ leBytes 4 (d.dget O.FW_SVN)

/-- Bytes 128 to 159. -/
def reportEnd : Bytes :=
  leBytes 4 (d.dget O.POWER_CYCLES) ++ leBytes 4 (bool01 d.sec.installed + o.revoked.toNat * 2) ++ leBytes 8 d.calendar ++
  leBytes 2 (d.dget O.DEVICE_ID) ++ leBytes 14 0

theorem reportHead_eq : reportHead d o = leBytes 2 1 ++ leBytes 2 256 ++ ownSerial ++ reportPart ++ fitBytes 32 d.sec.nonce ++
    reportImage d ++ leBytes 4 o.minSvn ++ leBytes 4 o.debugOpened ++ reportEnd d o := by
  simp only [reportHead, reportPart, reportImage, reportEnd, List.append_assoc]

theorem length_reportPart : reportPart.length = 12 := by
  simp only [reportPart, List.length_append, length_fitBytes, length_leBytes]; rfl

theorem length_reportImage : (reportImage d).length = 56 := by
  simp only [reportImage, List.length_append, length_fitBytes, length_leBytes]

theorem length_reportEnd : (reportEnd d o).length = 32 := by simp only [reportEnd, List.length_append, length_leBytes]

theorem length_reportHead : (reportHead d o).length = 160 := by
  simp only [reportHead_eq, List.length_append, length_leBytes, length_fitBytes, length_ownSerial, length_reportPart,
    length_reportImage, length_reportEnd]

/-- The fields of the report that R493 names. -/
theorem reportHead_fields : leAt (reportHead d o) 0 2 = 1 ∧ leAt (reportHead d o) 2 2 = 256 ∧
    ((reportHead d o).drop 4).take 16 = ownSerial ∧ ((reportHead d o).drop 32).take 32 = fitBytes 32 d.sec.nonce ∧
    leAt (reportHead d o) 120 4 = o.minSvn % 2 ^ 32 ∧ leAt (reportHead d o) 124 4 = o.debugOpened % 2 ^ 32 := by
  have hpart := length_reportPart
  have himage := length_reportImage d
  have hserial := length_ownSerial
  simp (disch := simp [hpart, himage, hserial]) only [reportHead_eq, leAt, slice_append_left, slice_append_right, ofLe_leBytes_mod]
  exact ⟨rfl, rfl, trivial, trivial, rfl, rfl⟩
end

/-! ### Nonce and signature (R492, R493) -/

section
variable {d : Dev} {o : Otp}

/-- A nonce can be taken: no signing runs, the identity key stands and no unlock runs. -/
def Dev.attestable (d : Dev) : Prop :=
  d.dget O.ATTEST_STATE ≠ 1 ∧ d.dget O.ATTEST_STATE ≠ 3 ∧ d.sec.identity = true ∧ d.sec.unlocking = false

theorem Dev.attestable_iff_not : d.attestable ↔
    ¬(d.dget O.ATTEST_STATE = 1 ∨ d.dget O.ATTEST_STATE = 3 ∨ (!d.sec.identity) = true ∨ d.sec.unlocking = true) := by
  simp [Dev.attestable]

theorem attestNonce_taken {nonce : Bytes} (h : d.attestable) (hn : nonce.length = 32) :
    (attestNonce d nonce).2 = (d.setSec (fun x => { x with nonce := nonce })).dset O.ATTEST_STATE 1 := by
  rw [attestNonce, guard_open Dev.attestable_iff_not h, fitBytes_of_length hn]

theorem attestNonce_refused (nonce : Bytes) (h : ¬d.attestable) : (attestNonce d nonce).2 = d :=
  congrArg Prod.snd (guard_shut Dev.attestable_iff_not h)

theorem exec_attestNonce (nonce : Bytes) (s : State) :
    exec (.attestNonce nonce) s = .next { s with dev := if nonce.length = 32 then (attestNonce s.dev nonce).2 else s.dev } := rfl

theorem exec_attestSignDone (s : State) : exec .attestSignDone s = .next { s with dev := attestSigned s.dev s.otp } := rfl

theorem attestSigned_idle (h : d.dget O.ATTEST_STATE ≠ 1) : attestSigned d o = d := if_pos h

/-- The report with its signature (R493). -/
def Dev.signedReport (d : Dev) (o : Otp) : Bytes := reportHead d o ++ fitBytes 96 (Config.identitySign (reportHead d o))

theorem Dev.length_signedReport : (d.signedReport o).length = 256 := by
  rw [Dev.signedReport, List.length_append, length_reportHead, length_fitBytes]

theorem attestSigned_signs (h : d.dget O.ATTEST_STATE = 1) : attestSigned d o =
    { d.dset O.ATTEST_STATE 2 with blobs := SMap.put [] d.blobs O.ATTEST_REPORT (d.signedReport o) } := if_neg (not_not.2 h)

end

/-! ### Tokens (R494, R495) -/

section
variable {s : State} {t : Bytes}

theorem tokenRefused_iff : tokenRefused s = false ↔ (∀ j, j < 64 → s.dev.dget (O.JOB_STATE j) = 0) ∧
    (s.dev.dget O.FW_UPDATE_STATE < 1 ∨ 3 < s.dev.dget O.FW_UPDATE_STATE) ∧ s.dev.sec.unlocking = false ∧
    s.otp.debugOpened < 255 ∧ s.dev.sec.debugOpen = false := by
  simp [tokenRefused, allJobsFree, updateRuns, imp_iff_not_or, and_assoc]

theorem tokenFault_eq_zero (d : Dev) : tokenFault d t = 0 ↔ leAt t 0 2 = 1 ∧ leAt t 50 14 = 0 ∧ t.length = 160 ∧
    (t.drop 2).take 16 = ownSerial ∧ d.sec.challenge = some ((t.drop 18).take 32) ∧
    Config.debugSigOk (t.take 64) (t.drop 64) = true := by
  unfold tokenFault
  split_ifs with hformat hserial hchallenge hsig
  case pos => exact ⟨False.elim, fun h => by tauto⟩
  case pos => exact ⟨False.elim, fun h => by tauto⟩
  case pos => exact ⟨False.elim, fun h => by tauto⟩
  case pos => exact ⟨fun _ => by tauto, fun _ => rfl⟩
  case neg => exact ⟨False.elim, fun h => by tauto⟩

theorem tokenWrite_refused (h : tokenRefused s = true) : tokenWrite s t = (false, s) := if_pos h

theorem tokenWrite_fails (h : tokenRefused s = false) (hf : tokenFault s.dev t ≠ 0) : tokenWrite s t = (true, { s with
    dev := ((s.dev.setSec (fun x => { x with challenge := none })).dset O.DEBUG_STATE 3).event 0x0A07 2 7 0
      (leBytes 1 (tokenFault s.dev t)) }) :=
  (if_neg (by simp [h])).trans (if_pos hf)

theorem tokenWrite_holds (h : tokenRefused s = false) (hf : tokenFault s.dev t = 0) : tokenWrite s t = (true, { s with
    otp := { s.otp with debugOpened := s.otp.debugOpened + 1 }
    dev := ((eraseAll (s.dev.setSec (fun x => { x with challenge := none }))).dset O.DEBUG_STATE 1).dset O.ATTEST_STATE 3 }) :=
  (if_neg (by simp [h])).trans (if_neg (not_not.2 hf))

theorem exec_unlockToken : exec (.unlockToken t) s = .next (tokenWrite s t).2 := rfl

/-! ### The end of the erasure (R495, R496) -/

theorem exec_unlockEraseDone (ok : Bool) : exec (.unlockEraseDone ok) s = .next { s with dev := unlockErased s.dev s.otp ok } := rfl

theorem unlockErased_idle {d : Dev} (o : Otp) (ok : Bool) (h : d.sec.unlocking = false) : unlockErased d o ok = d := if_pos (by simp [h])

theorem unlockErased_ends {d : Dev} (o : Otp) (ok : Bool) (h : d.sec.unlocking = true) : unlockErased d o ok =
    let d1 := (if ok then d.planStarts else d).setSec (fun x => { x with unlocking := false, debugOpen := ok })
    if ok then (d1.dset O.DEBUG_STATE 2).event 0x0A06 3 7 0 (leBytes 1 o.debugOpened)
    else (d1.dset O.DEBUG_STATE 3).event 0x0A07 2 7 0 (leBytes 1 5) := if_neg (by simp [h])

end

/-- Settles O50, each command case by case. -/
theorem attestationAndUnlock : Obligations.AttestationAndUnlock := by
  unfold Obligations.AttestationAndUnlock
  refine ⟨fun s nonce => ?nonce, fun s h => next_dev (attestSigned_idle h), fun s h => ?signed, fun s => rfl, fun s t => ?token,
    fun s h => ⟨next_dev (unlockErased_ends s.otp true h), next_dev (unlockErased_ends s.otp false h)⟩,
    fun s ok h => next_dev (unlockErased_idle s.otp ok h)⟩
  case nonce =>
    rw [exec_attestNonce]
    refine ⟨fun ⟨hn, ha⟩ => next_dev ((if_pos hn).trans (attestNonce_taken ha hn)), fun h => next_dev ?_⟩
    split
    next hn => exact attestNonce_refused nonce (fun ha => h ⟨hn, ha⟩)
    next => rfl
  case signed =>
    obtain ⟨hversion, hlen, hserial, hnonce, hsvn, hopened⟩ := reportHead_fields s.dev s.otp
    refine ⟨length_reportHead _ _, hversion, hlen, hserial, hnonce, hsvn, hopened, _, next_dev (attestSigned_signs h), rfl, ?_, ?_, ?_⟩
    · exact Dev.dget_dset_self s.dev O.ATTEST_STATE 2
    · exact SMap.get_put_self [] s.dev.blobs O.ATTEST_REPORT (s.dev.signedReport s.otp)
    · exact (congrArg List.length (SMap.get_put_self [] s.dev.blobs O.ATTEST_REPORT (s.dev.signedReport s.otp))).trans Dev.length_signedReport
  case token =>
    rw [exec_unlockToken]
    refine ⟨fun h => by rw [tokenWrite_refused h], fun h hf => by rw [tokenWrite_fails h hf], fun h hf => ?_,
      tokenRefused_iff, tokenFault_eq_zero s.dev⟩
    rw [tokenWrite_holds h hf]
    refine ⟨_, rfl, rfl, rfl, rfl, rfl, rfl, rfl, ?_, Dev.dget_dset_self ..⟩
    rw [Dev.dget_dset_ne _ _ (by decide), Dev.dget_dset_self]

end Sys2Proof.Machine
end

section
/-! The recorder's commands and the availability accounts (R466 to R471, R476 to R479). -/

namespace Sys2Proof.Machine

open Sys2Proof.Safety Sys2Proof.Laws

/-! ### Freezing and thawing (R478, R479) -/

section
variable {d : Dev}

theorem freezeStart_running (h : d.dget O.RECORDER_STATE = 0) : freezeStart d =
    (d.setRec { d.recd with limit := d.dget O.FREEZE_LIMIT_S, droppedCount := 0 }).dset O.RECORDER_STATE 1 := if_pos h

theorem freezeStart_other (h : d.dget O.RECORDER_STATE ≠ 0) : freezeStart d = d := if_neg h

theorem freezeDrained_drained (h : d.dget O.RECORDER_STATE = 1) (hq : d.recd.queue = []) (he : d.recd.erasing = none) :
    freezeDrained d = (writeDirect d ⟨0x0002, 0, 7, 0, none, [], false⟩).dset O.RECORDER_STATE 2 := if_pos ⟨h, hq, he⟩

theorem freezeDrained_waits (h : d.dget O.RECORDER_STATE ≠ 1 ∨ d.recd.queue ≠ [] ∨ d.recd.erasing ≠ none) : freezeDrained d = d :=
  if_neg (by tauto)

theorem thawStart_frozen (h : d.dget O.RECORDER_STATE = 2) :
    thawStart d = (d.setRec { d.recd with heldCount := d.recd.holding.length }).dset O.RECORDER_STATE 3 := if_pos h

theorem thawStart_other (h : d.dget O.RECORDER_STATE ≠ 2) : thawStart d = d := if_neg h

theorem freezeExpired_late {n : Nat} (h : d.dget O.RECORDER_STATE = 2) (hn : d.recd.limit < n) :
    freezeExpired d n = (thawStart d).event 0x0004 2 7 0 (leBytes 4 n) := if_pos ⟨h, hn⟩

theorem freezeExpired_within {n : Nat} (hn : n ≤ d.recd.limit) : freezeExpired d n = d := if_neg (by omega)

end

/-! ### The accounts (R470, R471) -/

/-- The floor of 10^9 (1 - down / (sv 10^9)), the quotient rounded up first. -/
theorem sub_ceilDiv_eq {n sv down : Nat} (hsv : 0 < sv) (hdown : down ≤ sv * n) : n - ceilDiv down sv = (sv * n - down) / sv := by
  rw [ceilDiv]
  have hlo := Nat.div_mul_le_self (down + sv - 1) sv
  have hhi := Nat.lt_div_mul_add (a := down + sv - 1) hsv
  generalize (down + sv - 1) / sv = q at hlo hhi
  have hmul : sv * n = n * sv := Nat.mul_comm ..
  have hq : q ≤ n := Nat.le_of_lt_succ (Nat.lt_of_mul_lt_mul_right (a := sv) (by rw [Nat.succ_mul]; omega))
  have hcover : (n - q) * sv = n * sv - q * sv := Nat.sub_mul ..
  have hqsv : q * sv ≤ n * sv := Nat.mul_le_mul_right sv hq
  exact (Nat.div_eq_of_lt_le (by omega) (by rw [Nat.succ_mul]; omega)).symm

section
variable (d : Dev)

theorem Dev.modAvail_dget (f : Avail → Avail) (k : Nat) : (d.modAvail f).dget k = d.dget k := rfl

theorem addOpSecs_dget_ne (c : Nat) {k : Nat} (h : k ≠ O.OP_HOURS) : (addOpSecs d c).dget k = d.dget k := Dev.dget_bumpN_ne d _ h

theorem addOpSecs_hours (c : Nat) : (addOpSecs d c).dget O.OP_HOURS = Nat.min (d.dget O.OP_HOURS + (d.opSecs + c) / 3600) (dictMax O.OP_HOURS) :=
  Dev.dget_bumpN_self ..

/-- The account of availability changes its object, and draws a free value where the formula has none (log 20). -/
theorem availability_keeps : (∀ k, k ≠ O.AVAILABILITY_PPB → (availability d).dget k = d.dget k) ∧
    (availability d).recd = d.recd ∧ (availability d).opSecs = d.opSecs := by
  unfold availability
  dsimp only
  split
  · exact ⟨fun k hk => Dev.dget_dset_ne _ _ hk, rfl, rfl⟩
  · exact ⟨fun k hk => Dev.dget_dset_ne _ _ hk, rfl, rfl⟩

theorem availability_ppb :
    let u := availability d
    0 < u.dget O.SERVICE_S → u.dget O.DOWN_NS ≤ u.dget O.SERVICE_S * 10 ^ 9 → u.dget O.AVAILABILITY_PPB =
      (10 ^ 9 * (u.dget O.SERVICE_S * 10 ^ 9 - u.dget O.DOWN_NS)) / (u.dget O.SERVICE_S * 10 ^ 9) := by
  obtain ⟨hkeys, -, -⟩ := availability_keeps d
  dsimp only
  rw [hkeys O.SERVICE_S (by decide), hkeys O.DOWN_NS (by decide)]
  intro hsv hdown
  rw [availability, if_neg (by omega), Dev.dget_dset_self, sub_ceilDiv_eq hsv hdown, Nat.mul_comm (d.dget O.SERVICE_S) (10 ^ 9),
    Nat.mul_div_mul_left _ _ (by decide)]

variable (a b c : Nat)

/-- The times of an account added. -/
def Dev.accounted : Dev :=
  let n := if d.inService || d.recd.avail.part then a else 0
  addOpSecs (((d.modAvail (fun v => { v with part := false })).bumpN O.SERVICE_S n).bumpN O.DEGRADED_S b) c

theorem exec_hourlyUpdate (s : State) : exec (.hourlyUpdate a b c) s = .next { s with dev := availability (s.dev.accounted a b c) } := rfl

theorem Dev.accounted_service : (d.accounted a b c).dget O.SERVICE_S =
    Nat.min (d.dget O.SERVICE_S + if d.inService || d.recd.avail.part then a else 0) (dictMax O.SERVICE_S) := by
  rw [Dev.accounted, addOpSecs_dget_ne _ _ (by decide), Dev.dget_bumpN_ne _ _ (by decide), Dev.dget_bumpN_self, Dev.modAvail_dget]

theorem Dev.accounted_degraded : (d.accounted a b c).dget O.DEGRADED_S = Nat.min (d.dget O.DEGRADED_S + b) (dictMax O.DEGRADED_S) := by
  rw [Dev.accounted, addOpSecs_dget_ne _ _ (by decide), Dev.dget_bumpN_self, Dev.dget_bumpN_ne _ _ (by decide), Dev.modAvail_dget]

theorem Dev.accounted_hours : (d.accounted a b c).dget O.OP_HOURS =
    Nat.min (d.dget O.OP_HOURS + (d.opSecs + c) / 3600) (dictMax O.OP_HOURS) := by
  rw [Dev.accounted, addOpSecs_hours, Dev.dget_bumpN_ne _ _ (by decide), Dev.dget_bumpN_ne _ _ (by decide), Dev.modAvail_dget]
  rfl

theorem Dev.accounted_down : (d.accounted a b c).dget O.DOWN_NS = d.dget O.DOWN_NS := by
  rw [Dev.accounted, addOpSecs_dget_ne _ _ (by decide), Dev.dget_bumpN_ne _ _ (by decide), Dev.dget_bumpN_ne _ _ (by decide),
    Dev.modAvail_dget]

end

/-! ### Outages and delays (R466, R468, R469) -/

section
variable {d : Dev} {code ns cn bound : Nat} {cut : Bool}

theorem outageEnd_delay (h : isDelay code = true) : outageEnd d code ns cn bound cut = d.bumpN O.DELAY_NS ns := if_pos h

theorem outageEnd_outage (h : isDelay code = false) : outageEnd d code ns cn bound cut =
    let run := d.recd.avail.running
    let counts := ((run.find? (fun o => o.1 == code)).map (·.2)).getD (!d.planned)
    let d0 := d.modAvail (fun a => { a with running := run.eraseP (fun o => o.1 == code) })
    let d1 := if counts then d0.bumpN O.DOWN_NS cn else d0
    let d2 := if code = 0x0401 then d1 else d1.raiseMax O.LONGEST_OUTAGE_NS ns
    let d3 := (availability d2).raise ⟨0x0005, 1, 3, 0, none, leBytes 8 ns ++ leBytes 2 code, cut⟩
    if bound < ns then (d3.bump O.BOUND_EXCEEDED).event 0x0006 3 3 0 (leBytes 2 code ++ leBytes 8 ns) else d3 := by
  rw [outageEnd, if_neg (by simp [h])]
  dsimp only
  cases d.recd.avail.running.find? (fun o => o.1 == code) <;> rfl

end

/-- Settles O57, each command case by case; that an outage begun in a planned state is no downtime, and when service seconds
count, is log 142 (DEDUCED). -/
theorem recorderCommandsTakeEffect : Obligations.RecorderCommandsTakeEffect := by
  unfold Obligations.RecorderCommandsTakeEffect
  refine ⟨fun s => ?recorder, fun s a b c => ?hour, fun s code ns cn bound cut => ?outage⟩
  case recorder =>
    refine ⟨fun h => next_dev (freezeStart_running h), fun h => next_dev (freezeStart_other h),
      fun h hq he => next_dev (freezeDrained_drained h hq he), fun h => next_dev (freezeDrained_waits h),
      fun h => ⟨next_dev (thawStart_frozen h), fun n => ⟨fun hn => next_dev ?_, fun hn => next_dev (freezeExpired_within hn)⟩⟩,
      fun h => next_dev (thawStart_other h), rfl, rfl⟩
    rw [freezeExpired_late h hn, thawStart_frozen h]
  case hour =>
    obtain ⟨hkeys, hrecd, hsecs⟩ := availability_keeps (s.dev.accounted a b c)
    refine ⟨_, exec_hourlyUpdate a b c s, ?_, hrecd ▸ rfl, ?_, ?_, hsecs, ?_, availability_ppb _⟩
    · rw [hkeys _ (by decide), Dev.accounted_service]
    · rw [hkeys _ (by decide), Dev.accounted_degraded]
    · rw [hkeys _ (by decide), Dev.accounted_hours]
    · rw [hkeys _ (by decide), Dev.accounted_down]
  case outage =>
    refine ⟨fun h => next_dev (outageEnd_delay (by simpa [isDelay] using h)), fun h => ?_⟩
    have hend := outageEnd_outage (d := s.dev) (ns := ns) (cn := cn) (bound := bound) (cut := cut) (by simpa [isDelay] using h)
    exact ⟨fun hb => next_dev (hend.trans (if_neg (not_lt.2 hb))), fun hb => next_dev (hend.trans (if_pos hb))⟩

end Sys2Proof.Machine
end

section
/-! The 64 bytes of an event's record (R473). -/

namespace Sys2Proof.Machine

/-- A field reads back modulo its width. -/
theorem fld_packed_mod {fs : List (Nat × Nat)} {lo n v : Nat} (i : Nat) (h : fs[i]? = some (n, v))
    (hlo : packedWidth (fs.take i) = lo) : fld (packed fs) lo n = v % 2 ^ n := by
  subst hlo
  induction fs generalizing i with
  | nil => simp at h
  | cons f fs ih =>
    cases i with
    | zero =>
      obtain rfl : f = (n, v) := by simpa using h
      simp [fld, packed, packedWidth]
    | succ i => rw [List.take_succ_cons, packedWidth_cons, fld_packed_cons, ih i (by simpa using h)]

section
variable (r : Rec) (seq lost : Nat)

/-- The fields of a record below its CRC, those that R473 keeps at 0 among them. -/
def recFields : List (Nat × Nat) :=
  [(32, seq), (64, r.time), (32, r.opHours), (12, r.opSecs), (1, bool01 r.timeSet), (1, bool01 r.held), (1, bool01 r.ev.partialFlag),
    (1, bool01 false), (32, r.cycles), (16, r.ev.code), (3, r.ev.severity), (5, 0), (4, r.ev.level), (20, r.ev.location),
    (6, (r.ev.job.map (·.1)).getD 0), (1, bool01 r.ev.job.isSome), (1, bool01 false), (32, (r.ev.job.map (·.2)).getD 0),
    (24, Nat.min lost (2 ^ 24 - 1)), (192, ofLe (fitBytes 24 r.ev.detail))]

theorem at_zero (lo n : Nat) : at' lo n 0 = 0 := by rw [at', Nat.zero_mod, Nat.zero_mul]

theorem packed_nil : packed [] = 0 := rfl

/-- The lowest field split from those above it. -/
theorem two_pow_mul_packed_cons (lo n v : Nat) (fs : List (Nat × Nat)) :
    2 ^ lo * packed ((n, v) :: fs) = at' lo n v + 2 ^ (lo + n) * packed fs := by
  rw [packed, at', Nat.pow_add]
  ring

theorem recBody_eq : recBody r seq lost = packed (recFields r seq lost) := by
  have hzero : bool01 false = 0 := rfl
  rw [← Nat.one_mul (packed _), ← Nat.pow_zero 2]
  simp only [recFields, two_pow_mul_packed_cons, Nat.reduceAdd, hzero, at_zero, packed_nil, Nat.mul_zero, Nat.add_zero, Nat.zero_add,
    recBody, Nat.add_assoc]

/-- The widths of the fields up to the CRC. -/
def recWidths : List Nat := [32, 64, 32, 12, 1, 1, 1, 1, 32, 16, 3, 5, 4, 20, 6, 1, 1, 32, 24, 192]

theorem widths_recFields : (recFields r seq lost).map Prod.fst = recWidths := rfl

theorem packedWidth_recFields : packedWidth (recFields r seq lost) = 480 := by
  rw [packedWidth, widths_recFields]; rfl

/-- The CRC-32C of a record. -/
def recCrc : Nat := crc32c (leBytes 60 (packed (recFields r seq lost)))

theorem recCrc_lt : recCrc r seq lost < 2 ^ 32 := BitVec.isLt _

/-- The fields of a record with its CRC. -/
def recAll : List (Nat × Nat) := recFields r seq lost ++ [(32, recCrc r seq lost)]

theorem widths_recAll : (recAll r seq lost).map Prod.fst = recWidths ++ [32] := by
  rw [recAll, List.map_append, widths_recFields]; rfl

theorem packedWidth_take_recAll (i : Nat) : packedWidth ((recAll r seq lost).take i) = ((recWidths ++ [32]).take i).sum := by
  rw [packedWidth, List.map_take, widths_recAll]

theorem packed_recAll : packed (recAll r seq lost) = packed (recFields r seq lost) + 2 ^ 480 * recCrc r seq lost := by
  rw [recAll, packed_append, packedWidth_recFields, packed, packed_nil, Nat.mod_eq_of_lt (recCrc_lt r seq lost), Nat.mul_zero,
    Nat.add_zero]

theorem recWord_toNat : (recWord r seq lost).toNat = packed (recAll r seq lost) := by
  have hwidth : packedWidth (recAll r seq lost) = 512 := by rw [packedWidth, widths_recAll]; rfl
  have hlt : packed (recAll r seq lost) < 2 ^ 512 := lt_of_lt_of_eq (packed_lt _) (by rw [hwidth])
  have hword : recWord r seq lost = BitVec.ofNat 512 (packed (recAll r seq lost)) := by
    rw [recWord, recBody_eq, packed_recAll, recCrc, Nat.mul_comm (2 ^ 480)]
  rw [hword, BitVec.toNat_ofNat, Nat.mod_eq_of_lt hlt]

theorem slotGood_recWord : slotGood (recWord r seq lost) = true := by
  have hpow : (256 : Nat) ^ 60 = 2 ^ 480 := Nat.pow_mul 2 8 60 |>.symm
  have hlt : packed (recFields r seq lost) < 2 ^ 480 := lt_of_lt_of_eq (packed_lt _) (by rw [packedWidth_recFields])
  have hlow : (recWord r seq lost).toNat % 256 ^ 60 = packed (recFields r seq lost) := by
    rw [recWord_toNat, packed_recAll, hpow, Nat.add_mul_mod_self_left, Nat.mod_eq_of_lt hlt]
  have hcrc : fld (recWord r seq lost).toNat 480 32 = recCrc r seq lost := by
    rw [recWord_toNat]
    exact fld_packed 20 rfl (packedWidth_take_recAll ..) (recCrc_lt r seq lost)
  rw [slotGood, hcrc, ← leBytes_mod, hlow, beq_iff_eq, recCrc]

section
variable {r seq lost}

theorem fld_recWord (i : Nat) {lo n v : Nat} (h : (recAll r seq lost)[i]? = some (n, v)) (hlo : ((recWidths ++ [32]).take i).sum = lo) :
    fld (recWord r seq lost).toNat lo n = v % 2 ^ n := by
  rw [recWord_toNat]
  exact fld_packed_mod i h ((packedWidth_take_recAll ..).trans hlo)

theorem bit_recWord (i : Nat) {lo : Nat} {b : Bool} (h : (recAll r seq lost)[i]? = some (1, bool01 b))
    (hlo : ((recWidths ++ [32]).take i).sum = lo) : bit (recWord r seq lost).toNat lo = b := by
  rw [recWord_toNat]
  exact bit_packed i h ((packedWidth_take_recAll ..).trans hlo)

end

/-- What the bits of a record say (R473). -/
theorem recWord_fields (hseq : seq < 2 ^ 32) :
    let n := (recWord r seq lost).toNat
    fld n 0 32 = seq ∧ fld n 32 64 = r.time % 2 ^ 64 ∧ fld n 144 32 = r.cycles % 2 ^ 32 ∧
    fld n 176 16 = r.ev.code % 2 ^ 16 ∧ fld n 192 3 = r.ev.severity % 8 ∧ fld n 200 4 = r.ev.level % 16 ∧
    fld n 204 20 = r.ev.location % 2 ^ 20 ∧ bit n 230 = r.ev.job.isSome ∧ bit n 141 = r.held ∧
    fld n 264 24 = Nat.min lost (2 ^ 24 - 1) ∧ fld n 195 5 = 0 ∧ bit n 143 = false ∧ bit n 231 = false := by
  have hlost : Nat.min lost (2 ^ 24 - 1) < 2 ^ 24 := lt_of_le_of_lt (Nat.min_le_right ..) (by decide)
  exact ⟨(fld_recWord 0 rfl rfl).trans (Nat.mod_eq_of_lt hseq), fld_recWord 1 rfl rfl, fld_recWord 8 rfl rfl, fld_recWord 9 rfl rfl,
    fld_recWord 10 rfl rfl, fld_recWord 12 rfl rfl, fld_recWord 13 rfl rfl, bit_recWord 15 rfl rfl, bit_recWord 5 rfl rfl,
    (fld_recWord 18 rfl rfl).trans (Nat.mod_eq_of_lt hlost), fld_recWord 11 rfl rfl, bit_recWord 7 rfl rfl, bit_recWord 16 rfl rfl⟩

end

end Sys2Proof.Machine
end

section
/-! Events on their way to the flash (R472, R476 to R478, R497). -/

namespace Sys2Proof.Machine

open Sys2Proof.Safety Sys2Proof.Laws

/-! ### An event accepted (R476, R477) -/

section
variable (d : Dev) (ev : EventIn)

theorem Dev.outageStarts_rest (code : Nat) : ∃ a, d.outageStarts code = d.setRec { d.recd with avail := a } := by
  unfold Dev.outageStarts
  split
  · exact ⟨_, rfl⟩
  · exact ⟨d.recd.avail, rfl⟩

theorem alertFor_recd (sev no : Nat) : ∃ n, (alertFor d sev no).recd =
    { d.recd with alert := (if sev < d.dget O.ALERT_SEVERITY then d.recd.alert else true), alertNo := n } := by
  unfold alertFor
  dsimp only
  split
  · exact ⟨d.recd.alertNo, rfl⟩
  · split
    · exact ⟨_, rfl⟩
    · exact ⟨_, rfl⟩

/-- The device once an event's alert is raised. -/
def Dev.alerted : Dev := alertFor d.tickNo ev.severity d.recd.nextNo

/-- Raising the alert of an event leaves what waits and what was lost. -/
theorem Dev.alerted_recd : ∃ n, (d.alerted ev).recd = { d.recd with
    nextNo := d.recd.nextNo + 1, alert := (if ev.severity < d.dget O.ALERT_SEVERITY then d.recd.alert else true), alertNo := n } :=
  alertFor_recd d.tickNo ev.severity d.recd.nextNo

theorem loseRec_recd (no : Nat) (dropped : Bool) : ∃ n, (loseRec d no dropped).recd = { d.recd with
    alertNo := n, lost := d.recd.lost + bool01 (!dropped), dropped := d.recd.dropped + bool01 dropped,
    droppedCount := d.recd.droppedCount + bool01 dropped } := by
  unfold loseRec
  cases dropped
  · dsimp only
    split
    · exact ⟨_, rfl⟩
    · exact ⟨_, rfl⟩
  · dsimp only
    split
    · exact ⟨_, rfl⟩
    · exact ⟨_, rfl⟩

theorem mkRec_setAvail (a : Avail) (held : Bool) : mkRec (d.setRec { d.recd with avail := a }) ev held = mkRec d ev held := rfl

section
variable {d ev}

/-- A freeze, as `acceptEvent` tests it. -/
theorem decide_frozen {st : Nat} : (st == 1 || st == 2) = decide (st = 1 ∨ st = 2) := by
  rw [Bool.decide_or, beq_eq_decide, beq_eq_decide]

/-- In a freeze an event goes to the holding buffer, or is dropped; a device fence is written at once. -/
theorem acceptEvent_frozen (hf : d.dget O.RECORDER_STATE = 1 ∨ d.dget O.RECORDER_STATE = 2) (hcode : ev.code ≠ 0x0401) : acceptEvent d ev =
    if (d.alerted ev).recd.holding.length < 256 then
      (d.alerted ev).setRec { (d.alerted ev).recd with holding := (d.alerted ev).recd.holding ++ [mkRec d ev true] }
    else loseRec (d.alerted ev) d.recd.nextNo true := by
  unfold acceptEvent
  dsimp only
  rw [if_neg (fun h => hcode h.2), if_pos hf, decide_frozen, decide_eq_true hf]
  rfl

/-- Outside a freeze an event waits, behind the thaw's records in THAWING, or is lost. -/
theorem acceptEvent_running (hf : ¬(d.dget O.RECORDER_STATE = 1 ∨ d.dget O.RECORDER_STATE = 2)) : acceptEvent d ev =
    if (d.alerted ev).recd.queue.length + (d.alerted ev).recd.behind.length < 1024 then
      if d.dget O.RECORDER_STATE = 3 then
        (d.alerted ev).setRec { (d.alerted ev).recd with behind := (d.alerted ev).recd.behind ++ [mkRec d ev false] }
      else (d.alerted ev).setRec { (d.alerted ev).recd with queue := (d.alerted ev).recd.queue ++ [mkRec d ev false] }
    else loseRec (d.alerted ev) d.recd.nextNo false := by
  unfold acceptEvent
  dsimp only
  rw [if_neg (fun h => hf h.1), if_neg hf, decide_frozen, decide_eq_false hf]
  rfl

/-- What waits, is held, lost and dropped after an event is taken in a freeze. -/
theorem acceptEvent_frozen_recd (hf : d.dget O.RECORDER_STATE = 1 ∨ d.dget O.RECORDER_STATE = 2) (hcode : ev.code ≠ 0x0401) :
    (d.recd.holding.length < 256 → (acceptEvent d ev).recd.holding = d.recd.holding ++ [mkRec d ev true]) ∧
    (256 ≤ d.recd.holding.length →
      (acceptEvent d ev).recd.holding = d.recd.holding ∧ (acceptEvent d ev).recd.droppedCount = d.recd.droppedCount + 1) ∧
    (acceptEvent d ev).recd.alert = if ev.severity < d.dget O.ALERT_SEVERITY then d.recd.alert else true := by
  obtain ⟨n, hrecd⟩ := d.alerted_recd ev
  obtain ⟨l, hlost⟩ := loseRec_recd (d.alerted ev) d.recd.nextNo true
  rw [acceptEvent_frozen hf hcode]
  split
  next h =>
    rw [hrecd] at h ⊢
    exact ⟨fun _ => rfl, fun hfull => absurd h (not_lt.2 hfull), rfl⟩
  next h =>
    rw [hlost, hrecd] at *
    exact ⟨fun hroom => absurd hroom h, fun _ => ⟨rfl, rfl⟩, rfl⟩

/-- What waits and is lost after an event is taken in RUNNING and THAWING. -/
theorem acceptEvent_running_recd (hf : ¬(d.dget O.RECORDER_STATE = 1 ∨ d.dget O.RECORDER_STATE = 2)) :
    (d.recd.queue.length + d.recd.behind.length < 1024 → (acceptEvent d ev).recd.lost = d.recd.lost ∧
      (d.dget O.RECORDER_STATE = 3 → (acceptEvent d ev).recd.behind = d.recd.behind ++ [mkRec d ev false]) ∧
      (d.dget O.RECORDER_STATE ≠ 3 → (acceptEvent d ev).recd.queue = d.recd.queue ++ [mkRec d ev false])) ∧
    (1024 ≤ d.recd.queue.length + d.recd.behind.length →
      (acceptEvent d ev).recd.queue = d.recd.queue ∧ (acceptEvent d ev).recd.lost = d.recd.lost + 1) ∧
    (acceptEvent d ev).recd.alert = if ev.severity < d.dget O.ALERT_SEVERITY then d.recd.alert else true := by
  obtain ⟨n, hrecd⟩ := d.alerted_recd ev
  obtain ⟨l, hlost⟩ := loseRec_recd (d.alerted ev) d.recd.nextNo false
  rw [acceptEvent_running hf]
  split
  next h =>
    rw [hrecd] at h ⊢
    split
    next h3 => exact ⟨fun _ => ⟨rfl, fun _ => rfl, fun hn => absurd h3 hn⟩, fun hfull => absurd h (not_lt.2 hfull), rfl⟩
    next h3 => exact ⟨fun _ => ⟨rfl, fun hn => absurd hn h3, fun _ => rfl⟩, fun hfull => absurd h (not_lt.2 hfull), rfl⟩
  next h =>
    rw [hlost, hrecd] at *
    exact ⟨fun hroom => absurd hroom h, fun _ => ⟨rfl, rfl⟩, rfl⟩

end
end

/-! ### A record written (R472, R460) -/

/-- Keys in which notifying and sending count (R363, R460). -/
def noticeKey (k : Nat) : Bool := [O.NOTIFY_SENT, O.NOTIFY_DROPPED, O.UNREACHABLE_DROPS, O.HOP_DROPS 0].contains k

/-- `e` is `d` after notifications and messages: the recorder stands, and of the dictionary all but their counts. -/
structure Noticed (d e : Dev) : Prop where
  recd : e.recd = d.recd
  keys : ∀ k, noticeKey k = false → e.dget k = d.dget k

theorem noticed_refl (d : Dev) : Noticed d d := ⟨rfl, fun _ _ => rfl⟩

theorem noticed_trans {a b c : Dev} (h : Noticed a b) (k : Noticed b c) : Noticed a c :=
  ⟨k.recd.trans h.recd, fun x hx => (k.keys x hx).trans (h.keys x hx)⟩

theorem noticed_bump (d : Dev) {k : Nat} (hk : noticeKey k = true) : Noticed d (d.bump k) :=
  ⟨rfl, fun x hx => Dev.dget_dset_ne d _ (by rintro rfl; simp [hk] at hx)⟩

theorem noticed_emit (d : Dev) (p vc : Nat) (y : Option Nat) (bs : Bytes) : Noticed d (d.emit p vc y bs) := ⟨rfl, fun _ _ => rfl⟩

theorem noticed_mgmt (d : Dev) (m : Mgmt) : Noticed d { d with mgmt := m } := ⟨rfl, fun _ _ => rfl⟩

theorem noticed_transit (d : Dev) (y : Option Nat) (m : Msg) : Noticed d (d.transit 16 y m) := by
  simp only [Dev.transit, show ¬(16 : Nat) < 16 by omega, if_false]
  cases d.destOf m.hdr.dst m.hdr.dstHost with
  | here => exact noticed_refl d
  | host p =>
    dsimp only; split
    · exact noticed_bump d (by decide)
    · exact noticed_emit d _ _ _ _
  | out p =>
    dsimp only; split
    · exact noticed_bump d (by decide)
    · exact noticed_emit d _ _ _ _
  | noHost => exact noticed_bump d (by decide)
  | unreachable => exact noticed_bump d (by decide)

theorem noticed_sendMsg (d : Dev) (vc kind dst : Nat) (h : Bool) (sj sc : Nat) (y : Option Nat) (b : Bytes) :
    Noticed d (d.sendMsg vc kind dst h sj sc y b) := by
  have hseq : Noticed d (d.nextSeq dst vc).2 := by
    unfold Dev.nextSeq
    split
    · exact noticed_refl d
    · exact ⟨rfl, fun _ _ => rfl⟩
  exact noticed_trans hseq (noticed_transit _ _ _)

theorem noticed_notifyOne (d : Dev) (k : Nat) (go : Dev → Option Dev) (h : ∀ e, go d = some e → Noticed d e) :
    Noticed d (notifyOne d k go) := by
  unfold notifyOne
  split
  · exact noticed_bump d (by decide)
  · split
    · exact noticed_bump d (by decide)
    · next e he => exact noticed_trans (h e he) (noticed_trans (noticed_bump e (k := O.NOTIFY_SENT) (by decide)) (noticed_mgmt _ _))

theorem noticed_forEach {α : Type} (l : List α) (f : Dev → α → Dev) (h : ∀ d x, Noticed d (f d x)) :
    ∀ d : Dev, Noticed d (d.forEach l f) := by
  induction l with
  | nil => exact noticed_refl
  | cons x l ih => intro d; exact noticed_trans (h d x) (ih _)

/-- Notifying leaves the recorder. -/
theorem noticed_notify (d : Dev) (r : Rec) (w : Word512) : Noticed d (notify d r w) := by
  unfold notify
  split
  · exact noticed_refl d
  · dsimp only
    generalize ckHdr 5 d.mgmt.notifySeq 1 0 true ++ ckItem 0 0 8 0 (wordBytes w) = pkt
    have hpeers := noticed_forEach (List.range 4) (fun (d : Dev) (k : Nat) =>
      if d.dget (O.NOTIFY_DEST k) = 0 then d
      else notifyOne d k (fun x => some (x.t1s ⟨0, fld (d.dget (O.NOTIFY_DEST k)) 0 48, fld (d.dget (O.NOTIFY_DEST k)) 48 16, pkt⟩)))
      (fun d k => by
        split
        · exact noticed_refl d
        · exact noticed_notifyOne d k _ (fun e he => by cases he; exact noticed_mgmt _ _)) d
    refine noticed_trans ?_ (noticed_mgmt _ _)
    split
    · refine noticed_trans hpeers (noticed_notifyOne _ _ _ (fun e he => ?_))
      simp only [Option.map_eq_some_iff] at he
      obtain ⟨h, -, rfl⟩ := he
      exact noticed_sendMsg ..
    · exact hpeers

/-- The slots and the sector under erase once a record is in its slot (R472). -/
def Recorder.placed (q : Recorder) (w : Word512) : SMap Word512 × Option Nat :=
  let slot := recSlot q.nextSeq
  let s1 := SMap.put slotErased q.slots slot w
  match ringSector slot with
  | some x => if (slot - 8192) % 1024 = 0 then (eraseSector s1 ((x + 1) % 66), some ((x + 1) % 66)) else (s1, q.erasing)
  | none => (s1, q.erasing)

/-- The recorder once it has written a record. -/
def Recorder.recorded (q : Recorder) (r : Rec) : Recorder :=
  let w := recWord r q.nextSeq (q.lost + q.dropped)
  { q with
    slots := (q.placed w).1, erasing := (q.placed w).2, nextSeq := (q.nextSeq + 1) % 2 ^ 32, lost := 0, dropped := 0
    alertNo := if q.alertNo == some r.no then none else q.alertNo }

section
variable (d : Dev) (r : Rec)

theorem writeRecord_noticed : Noticed (
    let q := d.recd
    let d2 := ((d.setRec (q.recorded r)).dset O.NEWEST_SEQ q.nextSeq).bump (O.RECORDS_BY_SEVERITY r.ev.severity)
    if q.alertNo == some r.no then d2.dset O.ALERT_CAUSE q.nextSeq else d2) (writeRecord d r) :=
  noticed_notify _ r _

theorem writeRecord_recd : (writeRecord d r).recd = d.recd.recorded r := by
  refine (writeRecord_noticed d r).recd.trans ?_
  dsimp only
  split <;> rfl

theorem writeRecord_newest (hs : r.ev.severity < 8) : (writeRecord d r).dget O.NEWEST_SEQ = d.recd.nextSeq := by
  have hkey : O.NEWEST_SEQ ≠ O.RECORDS_BY_SEVERITY r.ev.severity := by
    unfold O.NEWEST_SEQ O.RECORDS_BY_SEVERITY; omega
  refine ((writeRecord_noticed d r).keys _ (by decide)).trans ?_
  dsimp only
  split
  · rw [Dev.dget_dset_ne _ _ (by decide), Dev.bump, Dev.dget_bumpN_ne _ _ hkey, Dev.dget_dset_self]
  · rw [Dev.bump, Dev.dget_bumpN_ne _ _ hkey, Dev.dget_dset_self]

end

section
variable (q : Recorder) (w : Word512)

/-- The record stays in its slot: the sector erased is the next one. -/
theorem Recorder.placed_slot : SMap.get slotErased (q.placed w).1 (recSlot q.nextSeq) = w := by
  have hput := SMap.get_put_self slotErased q.slots (recSlot q.nextSeq) w
  unfold Recorder.placed
  dsimp only
  split
  next x hx =>
    split
    next h0 =>
      have hsector : x = (recSlot q.nextSeq - 8192) / 1024 ∧ 8192 ≤ recSlot q.nextSeq := by
        unfold ringSector at hx
        split at hx
        next => simp at hx
        next hlo => exact ⟨(Option.some.inj hx).symm, Nat.le_of_not_lt hlo⟩
      have hnext : ¬(8192 + (x + 1) % 66 * 1024 ≤ recSlot q.nextSeq ∧ recSlot q.nextSeq < 8192 + (x + 1) % 66 * 1024 + 1024) := by
        omega
      dsimp only
      rw [eraseSector, SMap.get_erase, if_neg hnext, hput]
    next => exact hput
  next => exact hput

/-- The first record of a ring sector starts the erase of the next (R472). -/
theorem Recorder.placed_erasing (hring : 8192 ≤ q.nextSeq) (hfirst : (q.nextSeq - 8192) % 1024 = 0) :
    (q.placed w).2 = some (((recSlot q.nextSeq - 8192) / 1024 + 1) % 66) := by
  have hslot : recSlot q.nextSeq = 8192 + (q.nextSeq - 8192) % 67584 := if_neg (by omega)
  have hsector : ringSector (recSlot q.nextSeq) = some ((recSlot q.nextSeq - 8192) / 1024) := if_neg (by omega)
  unfold Recorder.placed
  dsimp only
  have h0 : (recSlot q.nextSeq - 8192) % 1024 = 0 := by
    rw [hslot, Nat.add_sub_cancel_left, Nat.mod_mod_of_dvd _ (by decide), hfirst]
  rw [hsector]
  dsimp only
  rw [if_pos h0]

end

/-! ### RECORD_PROGRAM (R472, R477, R479) -/

section
variable {d : Dev}

theorem programNext_waits (h : recBlocked d.recd = true ∨ d.dget O.RECORDER_STATE = 2) : programNext d = d := by
  unfold programNext
  dsimp only
  rcases h with h | h
  · rw [if_pos h]
  · rw [if_neg (show ¬d.dget O.RECORDER_STATE = 3 by omega), if_pos h, ite_self]

theorem programNext_thawing (hb : recBlocked d.recd = false) (h3 : d.dget O.RECORDER_STATE = 3) :
    (∀ r rest, d.recd.holding = r :: rest → programNext d = writeRecord (d.setRec { d.recd with holding := rest }) r) ∧
    (d.recd.holding = [] → programNext d =
      let e := writeDirect d ⟨0x0003, 0, 7, 0, none, leBytes 2 d.recd.heldCount ++ leBytes 4 d.recd.droppedCount, false⟩
      (e.setRec { e.recd with queue := e.recd.queue ++ e.recd.behind, behind := [] }).dset O.RECORDER_STATE 0) := by
  unfold programNext
  dsimp only
  rw [if_neg (by simp [hb]), if_pos h3]
  exact ⟨fun r rest h => by rw [h], fun h => by rw [h]⟩

theorem programNext_running (hb : recBlocked d.recd = false) (h2 : d.dget O.RECORDER_STATE ≠ 2) (h3 : d.dget O.RECORDER_STATE ≠ 3) :
    (∀ r rest, d.recd.queue = r :: rest → programNext d = writeRecord (d.setRec { d.recd with queue := rest }) r) ∧
    (d.recd.queue = [] → programNext d = d) := by
  unfold programNext
  dsimp only
  rw [if_neg (by simp [hb]), if_neg h3, if_neg h2]
  exact ⟨fun r rest h => by rw [h], fun h => by rw [h]⟩

end

/-- Settles O58: the record's bits, the event taken, then its record written. That an outage is timed from its event on is log 142
(DEDUCED). -/
theorem eventsReachTheFlash : Obligations.EventsReachTheFlash := by
  unfold Obligations.EventsReachTheFlash
  refine ⟨fun r seq lost hseq => ⟨slotGood_recWord r seq lost, recWord_fields r seq lost hseq⟩, fun s ev => ?accept,
    fun s r rest h0 hq hb hs => ?written, fun s => ⟨fun h => next_dev (programNext_waits h),
      fun hb h3 => ⟨fun r rest h => next_dev ((programNext_thawing hb h3).1 r rest h), fun h => next_dev ((programNext_thawing hb h3).2 h)⟩,
      fun hb h2 h3 => ⟨fun r rest h => next_dev ((programNext_running hb h2 h3).1 r rest h),
        fun h => next_dev ((programNext_running hb h2 h3).2 h)⟩⟩, fun d ev hs => told_raise d ev hs⟩
  case accept =>
    obtain ⟨a, hout⟩ := s.dev.outageStarts_rest ev.code
    refine ⟨fun hoff => next_dev ((if_neg ?_).trans rfl), fun hon => ?_⟩
    · rw [hout]; simp [hoff]
    · have hraise : s.dev.raise ev = acceptEvent (s.dev.setRec { s.dev.recd with avail := a }) ev := by
        rw [Dev.raise, hout]; exact if_pos hon
      refine ⟨_, rfl, fun hs => told_raise _ _ hs, ?_⟩
      dsimp only
      rw [hraise]
      have hrun := acceptEvent_running_recd (d := s.dev.setRec { s.dev.recd with avail := a }) (ev := ev)
      have hfrz := acceptEvent_frozen_recd (d := s.dev.setRec { s.dev.recd with avail := a }) (ev := ev)
      simp only [mkRec_setAvail, Dev.setRec_dget] at hrun hfrz
      have halert (hc : ev.code ≠ 0x0401) := (em (s.dev.dget O.RECORDER_STATE = 1 ∨ s.dev.dget O.RECORDER_STATE = 2)).elim
        (fun hf => (hfrz hf hc).2.2) (fun hf => (hrun hf).2.2)
      refine ⟨fun h0 hroom => ?_, fun h0 hfull => ?_, fun h3 hroom => ?_, fun hf hc hroom => (hfrz hf hc).1 hroom,
        fun hf hc hfull => (hfrz hf hc).2.1 hfull, fun _ hc hsev => (halert hc).trans (if_neg (not_lt.2 hsev)),
        fun _ hc hsev => (halert hc).trans (if_pos hsev)⟩
      · obtain ⟨hlost, -, hqueue⟩ := (hrun (by omega)).1 hroom
        exact ⟨hqueue (by omega), hlost⟩
      · exact (hrun (by omega)).2.1 hfull
      · obtain ⟨hlost, hbehind, -⟩ := (hrun (by omega)).1 hroom
        exact ⟨hbehind h3, hlost⟩
  case written =>
    have htold : Told s.dev (writeRecord (s.dev.setRec { s.dev.recd with queue := rest }) r) :=
      told_trans (told_setRec s.dev _) (told_writeRecord _ _ hs)
    have hrecd := writeRecord_recd (s.dev.setRec { s.dev.recd with queue := rest }) r
    refine ⟨_, next_dev ((programNext_running hb (by omega) (by omega)).1 r rest hq), htold, ?_, ?_,
      writeRecord_newest (s.dev.setRec { s.dev.recd with queue := rest }) r hs, ?_, ?_, fun hring hfirst => ?_⟩
    all_goals dsimp only; rw [hrecd]
    · rfl
    · rfl
    · rfl
    · exact Recorder.placed_slot { s.dev.recd with queue := rest } _
    · exact Recorder.placed_erasing { s.dev.recd with queue := rest } _ hring hfirst

end Sys2Proof.Machine
end

section
/-! A completion record in its ring (R435 to R437). -/

namespace Sys2Proof.Machine

section
variable {d : Dev} {e off : Nat} {bs : Bytes}

theorem Dev.uncompressed_of_writable (h : d.segWriteStatus e = 0) : (d.res e).comp = false := by
  unfold Dev.segWriteStatus at h
  split_ifs at h with h3 hdir hcomp
  simpa using hcomp

theorem Dev.segStore_writable (h : d.segWriteStatus e = 0) : d.segStore e off bs = d.segWrite e off bs := if_pos h

theorem Dev.segStore_unwritable (h : d.segWriteStatus e ≠ 0) : d.segStore e off bs = d := if_neg h

section
variable (hc : (d.res e).comp = false)
include hc

/-- A write of a segment changes memory, and which bursts are sound. -/
theorem Dev.segWrite_rest : d.segWrite e off bs = { d with mem := (d.segWrite e off bs).mem, mc := (d.segWrite e off bs).mc } := by
  rw [Dev.segWrite_uncompressed hc]
  unfold Dev.frameWrite Dev.setTierMem
  split <;> rfl

/-- The bytes written read back. -/
theorem Dev.segRead_segWrite_self : (d.segWrite e off bs).segRead e off bs.length = bs := by
  have hres := Dev.segWrite_res hc off e bs
  rw [Dev.segRead_uncompressed (hres ▸ hc), hres, Dev.segWrite_tierMem hc, if_pos Iff.rfl, SMap.readRun_writeRun_self]

/-- The bytes of the segment's tier outside the run written. -/
theorem Dev.segWrite_tierMem_outside {a : Nat}
    (h : a < cellKey (d.res e).homeNo (d.res e).frame off ∨ cellKey (d.res e).homeNo (d.res e).frame off + bs.length ≤ a) :
    SMap.get 0 ((d.segWrite e off bs).tierMem (d.res e).homeNo) a = SMap.get 0 (d.tierMem (d.res e).homeNo) a := by
  rw [Dev.segWrite_tierMem hc, if_pos Iff.rfl, SMap.get_writeRun, if_neg (by omega)]

end
end

section
variable (d : Dev) (x : Flight) (st : Nat)

/-- The record sent to the job's owner where the descriptor asks for it (R437). -/
def Dev.notifyRecord : Dev := if bit x.w 14 then d.sendOwner x.job 1 0x21 (leBytes 32 (completionWord x st)) else d

/-- The record in its slot, CTAIL moved on, and the owner told. -/
theorem Dev.ringRecord_eq (h : 0 < nth 0 (d.job x.job).depths x.queue) : d.ringRecord x st =
    (((d.segStore (d.dget (O.COMPL_SEG x.job x.queue))
        (d.dget (O.COMPL_TAIL x.job x.queue) % nth 0 (d.job x.job).depths x.queue * 32) (leBytes 32 (completionWord x st))).dset
      (O.COMPL_TAIL x.job x.queue) ((d.dget (O.COMPL_TAIL x.job x.queue) + 1) % 2 ^ 32)).notifyRecord x st) := by
  unfold Dev.ringRecord
  dsimp only
  rw [if_neg (Nat.ne_of_gt h)]
  rfl

end

/-- Settles O16, from what a write of a segment leaves. -/
theorem completionRecordLandsInItsSlot : Obligations.CompletionRecordLandsInItsSlot := by
  unfold Obligations.CompletionRecordLandsInItsSlot
  intro d x st depth t seg r bs hdepth
  have hring := d.ringRecord_eq x st hdepth
  have hlen : bs.length = 32 := length_leBytes 32 _
  refine ⟨fun hno => ?_, fun hok => ?_⟩
  · rw [hring, Dev.segStore_unwritable hno]
    rfl
  · have hc : r.comp = false := Dev.uncompressed_of_writable hok
    have hrest := Dev.segWrite_rest (off := t % depth * 32) (bs := bs) hc
    have hdget (k : Nat) : (d.segWrite seg (t % depth * 32) bs).dget k = d.dget k := by rw [hrest]; rfl
    rw [Dev.segStore_writable hok] at hring
    refine ⟨(d.segWrite seg (t % depth * 32) bs).dset (O.COMPL_TAIL x.job x.queue) ((t + 1) % 2 ^ 32), rfl, ?_, fun a ha => ?_,
      Dev.dget_dset_self .., fun k hk => (Dev.dget_dset_ne _ _ hk).trans (hdget k), ?_, hring⟩
    · have hread := Dev.segRead_segWrite_self (off := t % depth * 32) (bs := bs) hc
      rw [hlen] at hread
      exact hread
    · exact Dev.segWrite_tierMem_outside hc (by rw [hlen]; exact ha)
    · rw [hrest]; rfl

end Sys2Proof.Machine
end

section
/-! DESCRIPTOR_FETCH (R417): what the acceptance and the issue of a descriptor leave as it was. -/

namespace Sys2Proof.Machine

open Sys2Proof.Laws

/-! ### What a fetch keeps -/

/-- The memories, the links, the mailboxes, the next flight number and the indices of the queues (objects 0x55xx) are as they
were. -/
structure KeepsRings (d e : Dev) : Prop where
  mem : e.mem = d.mem
  lnk : e.lnk = d.lnk
  mbox : e.mbox = d.mbox
  next : e.sched.nextFlight = d.sched.nextFlight
  rings : ∀ k, k / 65536 = 0x55 → e.dget k = d.dget k

/-- So are the residence table, the serving loops and the flights: what a step boundary keeps. -/
structure KeepsFlights (d e : Dev) : Prop extends KeepsRings d e where
  store : e.store = d.store
  srv : e.srv = d.srv
  flights : e.sched.flights = d.sched.flights

theorem KeepsRings.refl (d : Dev) : KeepsRings d d := ⟨rfl, rfl, rfl, rfl, fun _ _ => rfl⟩

theorem KeepsRings.trans {a b c : Dev} (h : KeepsRings a b) (g : KeepsRings b c) : KeepsRings a c :=
  ⟨g.mem.trans h.mem, g.lnk.trans h.lnk, g.mbox.trans h.mbox, g.next.trans h.next, fun k hk => (g.rings k hk).trans (h.rings k hk)⟩

theorem KeepsFlights.refl (d : Dev) : KeepsFlights d d := ⟨.refl d, rfl, rfl, rfl⟩

theorem KeepsFlights.trans {a b c : Dev} (h : KeepsFlights a b) (g : KeepsFlights b c) : KeepsFlights a c :=
  ⟨h.toKeepsRings.trans g.toKeepsRings, g.store.trans h.store, g.srv.trans h.srv, g.flights.trans h.flights⟩

theorem KeepsFlights.dset (d : Dev) {k : Nat} (v : Nat) (hk : k / 65536 ≠ 0x55) : KeepsFlights d (d.dset k v) :=
  ⟨⟨rfl, rfl, rfl, rfl, fun _ hl => Dev.dget_dset_ne d v (fun h => hk (h ▸ hl))⟩, rfl, rfl, rfl⟩

theorem KeepsFlights.modJob (d : Dev) (j : Nat) (f : Job → Job) : KeepsFlights d (d.modJob j f) :=
  ⟨⟨rfl, rfl, rfl, rfl, fun _ _ => rfl⟩, rfl, rfl, rfl⟩

theorem KeepsFlights.setBlk (d : Dev) (f : Blk → Blk) : KeepsFlights d (d.setBlk f) :=
  ⟨⟨rfl, rfl, rfl, rfl, fun _ _ => rfl⟩, rfl, rfl, rfl⟩

theorem KeepsFlights.setRed (d : Dev) (f : Red → Red) : KeepsFlights d (d.setRed f) :=
  ⟨⟨rfl, rfl, rfl, rfl, fun _ _ => rfl⟩, rfl, rfl, rfl⟩

theorem KeepsRings.modFlight (d : Dev) (f : Nat) (g : Flight → Flight) : KeepsRings d (d.modFlight f g) :=
  ⟨rfl, rfl, rfl, rfl, fun _ _ => rfl⟩

theorem KeepsFlights.forEach {α : Type} {f : Dev → α → Dev} (l : List α) (hf : ∀ d, ∀ a ∈ l, KeepsFlights d (f d a)) (d : Dev) :
    KeepsFlights d (d.forEach l f) := by
  induction l generalizing d with
  | nil => exact .refl d
  | cons a l ih =>
    exact (hf d a List.mem_cons_self).trans (ih (fun d b hb => hf d b (List.mem_cons_of_mem a hb)) (f d a))

/-! ### The step boundary -/

theorem keepsFlights_publishSlow (d : Dev) {j : Nat} (hj : j < 64) (hs : ∀ p ∈ (d.job j).slow, p.1 < 16) :
    KeepsFlights d (publishSlow d j) := by
  refine KeepsFlights.forEach _ (fun d p hp => KeepsFlights.dset d p.2 ?_) d
  have := hs p hp
  unfold O.SLOWDOWN
  omega

/-- The audit's objects are of the classes 0x81 and 0x82. -/
theorem keepsFlights_publishAudit (d : Dev) {j : Nat} (hj : j < 64) : KeepsFlights d (publishAudit d j) := by
  have put : ∀ {d e : Dev} (k v : Nat), k / 65536 ≠ 0x55 → KeepsFlights d e → KeepsFlights d (e.dset k v) :=
    fun k v hk h => h.trans (KeepsFlights.dset _ v hk)
  unfold publishAudit
  refine put _ _ ?_ (put _ _ ?_ (put _ _ ?_ (put _ _ ?_ (put _ _ ?_ (put _ _ ?_ (put _ _ ?_ (put _ _ ?_ (put _ _ ?_ (.refl d)))))))))
  · unfold O.STATE_DRIFT_MEAN; omega
  · unfold O.STATE_DRIFT_MAX; omega
  · unfold O.STATE_DRIFT_RMS; omega
  · unfold O.STATE_AUDIT_STEPS; omega
  · unfold O.AUDIT_DRIFT_MEAN; omega
  · unfold O.AUDIT_DRIFT_MAX; omega
  · unfold O.AUDIT_DRIFT_RMS; omega
  · unfold O.AUDIT_ELEMENTS; omega
  · unfold O.AUDIT_TILES; omega

theorem keepsFlights_takeFrozen (d : Dev) (j : Nat) : KeepsFlights d (takeFrozen d j) := by
  unfold takeFrozen
  exact (KeepsFlights.forEach _ (fun d p _ => KeepsFlights.setRed d _) d).trans (KeepsFlights.setRed _ _)

theorem publishAudit_job (d : Dev) (j k : Nat) : (publishAudit d j).job k = d.job k := rfl

theorem keepsFlights_snapSettings (d : Dev) (j step : Nat) : KeepsFlights d (d.snapSettings j step) := by
  unfold Dev.snapSettings
  exact KeepsFlights.modJob d j _

theorem keepsFlights_dropStale (d : Dev) (j step : Nat) : KeepsFlights d (dropStale d j step) := by
  unfold dropStale
  exact KeepsFlights.setBlk d _

theorem keepsFlights_acceptStep (d : Dev) {j : Nat} (step cls : Nat) (hj : j < 64) (hs : ∀ p ∈ (d.job j).slow, p.1 < 16) :
    KeepsFlights d (acceptStep d j step cls) := by
  unfold acceptStep
  split
  · exact .refl d
  · have hfrozen := ((keepsFlights_publishAudit d hj).trans (keepsFlights_publishSlow (publishAudit d j) hj hs)).trans
      (keepsFlights_takeFrozen _ j)
    have hsnap : KeepsFlights d ((takeFrozen (publishSlow (publishAudit d j) j) j).snapSettings j step) :=
      hfrozen.trans (keepsFlights_snapSettings _ j step)
    have hdrop : KeepsFlights d (dropStale ((takeFrozen (publishSlow (publishAudit d j) j) j).snapSettings j step) j step) :=
      hsnap.trans (keepsFlights_dropStale _ j step)
    exact hdrop.trans (KeepsFlights.modJob _ j _)

theorem keepsFlights_markSolo (d : Dev) (j step : Nat) : KeepsFlights d (markSolo d j step) :=
  KeepsFlights.forEach _ (fun d p _ => KeepsFlights.modJob d p.1 _) d

/-! ### The issue -/

/-- Of a flight, what no step of its life changes: its number, job, queue, index and descriptor. -/
def Flight.origin (x : Flight) : Nat × Nat × Nat × Nat × Word512 := (x.id, x.job, x.queue, x.index, x.d)

/-- Flight `f` of origin `o` is in the list, and the rings, memories, links and mailboxes are those of `d`. -/
structure TakenIn (d : Dev) (f : Nat) (o : Nat × Nat × Nat × Nat × Word512) (e : Dev) : Prop extends KeepsRings d e where
  origin : (e.flight f).map Flight.origin = some o

/-- The residence table and the serving loops are as they were. -/
def SameServing (d e : Dev) : Prop := e.store = d.store ∧ e.srv = d.srv

theorem SameServing.trans {a b c : Dev} (h : SameServing a b) (g : SameServing b c) : SameServing a c :=
  ⟨g.1.trans h.1, g.2.trans h.2⟩

section
variable {d e e' : Dev} {f : Nat} {o : Nat × Nat × Nat × Nat × Word512}

theorem TakenIn.of_sched (h : TakenIn d f o e) (hk : KeepsRings e e') (hs : e'.sched = e.sched) : TakenIn d f o e' :=
  ⟨h.toKeepsRings.trans hk, by rw [Dev.flight_congr hs]; exact h.origin⟩

theorem TakenIn.of_flights (h : TakenIn d f o e) (hk : KeepsFlights e e') : TakenIn d f o e' :=
  ⟨h.toKeepsRings.trans hk.toKeepsRings, by unfold Dev.flight; rw [hk.flights]; exact h.origin⟩

theorem TakenIn.modFlight (h : TakenIn d f o e) (n : Nat) {g : Flight → Flight} (hg : ∀ x, (g x).origin = x.origin) :
    TakenIn d f o (e.modFlight n g) :=
  ⟨h.toKeepsRings.trans (KeepsRings.modFlight e n g),
    (Dev.map_flight_modFlight Flight.origin e n f g (fun x => congrArg Prod.fst (hg x)) hg).trans h.origin⟩

theorem TakenIn.forEach {α : Type} (h : TakenIn d f o e) {g : Dev → α → Dev} (hg : ∀ e a, TakenIn d f o e → TakenIn d f o (g e a))
    (l : List α) : TakenIn d f o (e.forEach l g) := by
  induction l generalizing e with
  | nil => exact h
  | cons a l ih => exact ih (hg e a h)

theorem keepsRings_takePin (d : Dev) (p : Nat × Bool) : KeepsRings d (d.takePin p) := by
  unfold Dev.takePin
  split <;> exact ⟨rfl, rfl, rfl, rfl, fun _ _ => rfl⟩

theorem TakenIn.grantPins (h : TakenIn d f o e) (n : Nat) (ps : List (Nat × Bool)) : TakenIn d f o (e.grantPins n ps) := by
  unfold Dev.grantPins
  split
  · exact h
  · exact (h.forEach (fun e p h => h.of_sched (keepsRings_takePin e p) (e.takePin_sched p)) _).modFlight n (fun _ => rfl)

/-- Deciding a flight that holds no pin. -/
theorem TakenIn.finish (h : TakenIn d f o e) {x : Flight} (hx : e.flight f = some x) (hp : x.pins = []) (st : Nat) :
    TakenIn d f o (e.finish f st) ∧ SameServing e (e.finish f st) := by
  have keeps : ∀ {β : Type} (p : Dev → β), (∀ d g, p (Dev.setSched d g) = p d) → (∀ d g, p (Dev.setBlk d g) = p d) →
      p (e.finish f st) = p e := fun p hs hb => Dev.finish_keeps p hs hb st hx hp
  refine ⟨⟨h.toKeepsRings.trans ⟨keeps Dev.mem (fun _ _ => rfl) (fun _ _ => rfl), keeps Dev.lnk (fun _ _ => rfl) (fun _ _ => rfl),
    keeps Dev.mbox (fun _ _ => rfl) (fun _ _ => rfl), by rw [Dev.finish_sched], fun k _ => keeps (fun d => d.dget k) (fun _ _ => rfl) (fun _ _ => rfl)⟩, ?_⟩,
    keeps Dev.store (fun _ _ => rfl) (fun _ _ => rfl), keeps Dev.srv (fun _ _ => rfl) (fun _ _ => rfl)⟩
  have hx0 := h.origin
  rw [Dev.finish, Dev.flight_modFlight _ _ _ (fun x => by split <;> rfl), Dev.releasePins_flight hx, ← hx0, hx]
  simp only [Option.map_some]
  split <;> rfl

theorem KeepsFlights.bump (d : Dev) {k : Nat} (hk : k / 65536 ≠ 0x55) : KeepsFlights d (d.bump k) := KeepsFlights.dset d _ hk
theorem KeepsFlights.raiseMax (d : Dev) {k : Nat} (v : Nat) (hk : k / 65536 ≠ 0x55) : KeepsFlights d (d.raiseMax k v) :=
  KeepsFlights.dset d _ hk

theorem TakenIn.reportPlans (h : TakenIn d f o e) (x : Flight) (hj : x.job < 64) (ps : List Plan) :
    TakenIn d f o (reportPlans e x ps) ∧ SameServing e (reportPlans e x ps) := by
  unfold Machine.reportPlans
  have h1 := h.modFlight x.id (g := fun y => { y with
    retiled := ps.any (·.retiled), effLoss := maxNat (ps.map (·.effLoss))
    shape := ((largestPlan (if x.opcode = 1 then (·.cols) else (·.rows)) ps).map (·.shape)).getD 0
    pm := ((largestPlan (if x.opcode = 1 then (·.cols) else (·.rows)) ps).map (·.pm)).getD 0
    pn := ((largestPlan (if x.opcode = 1 then (·.cols) else (·.rows)) ps).map (·.pn)).getD 0 }) (fun _ => rfl)
  dsimp only
  split
  · refine ⟨(h1.of_flights (KeepsFlights.bump _ ?_)).of_flights (KeepsFlights.raiseMax _ _ ?_), rfl, rfl⟩
    · unfold O.RETILE_COUNT; omega
    · unfold O.RETILE_LOSS_MAX; omega
  · exact ⟨h1, rfl, rfl⟩

theorem TakenIn.report (h : TakenIn d f o e) (x : Flight) (hj : x.job < 64) (ps : List Plan) :
    TakenIn d f o (if x.opcode = 1 ∨ x.opcode = 3 then Machine.reportPlans e x ps else e) ∧
      SameServing e (if x.opcode = 1 ∨ x.opcode = 3 then Machine.reportPlans e x ps else e) := by
  split
  · exact h.reportPlans x hj ps
  · exact ⟨h, rfl, rfl⟩

theorem TakenIn.issueInputPin (h : TakenIn d f o e) (x : Flight) : TakenIn d f o (issueInputPin e x) := by
  unfold Machine.issueInputPin
  dsimp only
  split
  · exact h.grantPins _ _
  · exact h

theorem TakenIn.issueApply (h : TakenIn d f o e) (x : Flight) : TakenIn d f o (issueApply e x) := by
  unfold Machine.issueApply
  dsimp only
  split
  · have h1 := h.of_flights (KeepsFlights.setRed e (fun r => { r with
      applies := r.applies ++ [⟨x.id, (updateD x.w).group, (e.res (updateD x.w).wSeg).home, (updateD x.w).close, false, 0⟩] }))
    split
    · exact h1.grantPins _ _
    · exact h1
  · exact h

theorem TakenIn.noteCache (h : TakenIn d f o e) (x : Flight) : TakenIn d f o (noteCache e x) := by
  unfold Machine.noteCache
  dsimp only
  split
  · exact (h.modFlight x.id (g := fun y => { y with cacheLen := attLen (e.dirHdr (attD x.w).dir) (attD x.w) }) (fun _ => rfl)).of_sched
      ⟨rfl, rfl, rfl, rfl, fun _ _ => rfl⟩ rfl
  · exact h

/-- Only a conv, an attend or an update takes pins or notes a cache at its issue. -/
theorem issueApply_issueInputPin_other (e : Dev) {x : Flight} (hx : x.opcode ≠ 3 ∧ x.opcode ≠ 5 ∧ x.opcode ≠ 8) :
    noteCache (issueApply (issueInputPin e x) x) x = e := by
  obtain ⟨hconv, hattend, hupdate⟩ := hx
  rw [issueInputPin, if_neg (fun h => hconv h.1), issueApply, if_neg (fun h => hupdate h.1), noteCache, if_neg hattend]

theorem TakenIn.takeIn (h : TakenIn d f o e) (x : Flight) (hj : x.job < 64) (hfork : x.opcode ≠ 9) (ps : List Plan) :
    TakenIn d f o (takeIn e x ps) ∧
      (x.opcode ≠ 3 ∧ x.opcode ≠ 5 ∧ x.opcode ≠ 8 → SameServing e (takeIn e x ps)) := by
  have h2 := (h.modFlight x.id (g := fun y => { y with plans := ps }) (fun _ => rfl)).report x hj ps
  have h3 := ((h2.1.issueInputPin x).issueApply x).noteCache x
  unfold Machine.takeIn
  dsimp only
  rw [if_neg hfork]
  split
  · exact ⟨⟨h3.toKeepsRings.trans ⟨rfl, rfl, rfl, rfl, fun _ _ => rfl⟩, h3.origin⟩, fun hx => by
      rw [issueApply_issueInputPin_other _ hx]; exact h2.2.trans ⟨rfl, rfl⟩⟩
  · exact ⟨h3, fun hx => by rw [issueApply_issueInputPin_other _ hx]; exact h2.2⟩

/-- A flight that is put behind the others is found under its number. -/
theorem Dev.flight_requeue (e : Dev) (x : Flight) :
    (e.setSched (fun s => { s with flights := s.flights.filter (fun y => y.id != x.id) ++ [x] })).flight x.id = some x := by
  have hnone : (e.sched.flights.filter (fun y => y.id != x.id)).find? (fun y => y.id == x.id) = none := by
    simp [List.find?_eq_none]
  simp [Dev.flight, Dev.setSched, List.find?_append, -List.find?_filter, hnone]

theorem TakenIn.issue (h : TakenIn d f o e) {x : Flight} (hx : e.flight f = some x) (hp : x.pins = []) (hj : x.job < 64)
    (hfork : x.opcode ≠ 9) : TakenIn d f o (issue e f) ∧
      (x.opcode ≠ 3 ∧ x.opcode ≠ 5 ∧ x.opcode ≠ 8 → SameServing e (issue e f)) := by
  obtain rfl := Dev.flight_id hx
  have hx1 := Dev.flight_requeue e { x with waiting := false, afterReform := false }
  have h1 : TakenIn d x.id o (e.setSched (fun s => { s with
      flights := s.flights.filter (fun y => y.id != x.id) ++ [{ x with waiting := false, afterReform := false }] })) := by
    refine ⟨h.toKeepsRings.trans ⟨rfl, rfl, rfl, rfl, fun _ _ => rfl⟩, ?_⟩
    have ho := h.origin
    rw [hx] at ho
    rw [hx1]
    exact ho
  unfold Machine.issue
  rw [hx]
  dsimp only
  generalize hd1 : e.setSched (fun s => { s with
      flights := s.flights.filter (fun y => y.id != x.id) ++ [{ x with waiting := false, afterReform := false }] }) = d1 at h1 hx1 ⊢
  have hs : SameServing e d1 := by subst hd1; exact ⟨rfl, rfl⟩
  have close : ∀ {d2 : Dev} (st : Nat), KeepsFlights d1 d2 →
      TakenIn d x.id o (d2.finish x.id st) ∧ SameServing e (d2.finish x.id st) := by
    intro d2 st hk
    have hx2 : d2.flight x.id = some { x with waiting := false, afterReform := false } := by
      unfold Dev.flight; rw [hk.flights]; exact hx1
    obtain ⟨ht, hserve⟩ := (h1.of_flights hk).finish hx2 hp st
    exact ⟨ht, hs.trans (SameServing.trans ⟨hk.store, hk.srv⟩ hserve)⟩
  have closeIf : ∀ (p : Prop) [Decidable p] (k st : Nat), k / 65536 ≠ 0x55 →
      TakenIn d x.id o ((if p then d1.bump k else d1).finish x.id st) ∧ SameServing e ((if p then d1.bump k else d1).finish x.id st) := by
    intro p _ k st hk
    split
    · exact close st (KeepsFlights.bump d1 hk)
    · exact close st (.refl d1)
  split
  · exact ⟨h1, fun _ => hs⟩
  · split
    · exact (close stField (.refl d1)).imp_right (fun h _ => h)
    · split
      · exact (closeIf _ _ _ (by unfold O.ACC_SHORT_REJECTS; omega)).imp_right (fun h _ => h)
      · exact (closeIf _ _ _ (by unfold O.CONV_EMPTY; omega)).imp_right (fun h _ => h)
      · next ps _ =>
        exact (h1.takeIn { x with waiting := false, afterReform := false } hj hfork ps).imp_right (fun h hop => hs.trans (h hop))

end

/-! ### The fetch -/

theorem mem_updFirst {α : Type} {p : α → Bool} {g : α → α} {y : α} {l : List α} (h : y ∈ updFirst p g l) :
    y ∈ l ∨ ∃ x ∈ l, p x = true ∧ y = g x := by
  induction l with
  | nil => exact .inl h
  | cons a l ih =>
    unfold updFirst at h
    split at h
    · next ha =>
      rcases List.mem_cons.1 h with rfl | h
      · exact .inr ⟨a, List.mem_cons_self, ha, rfl⟩
      · exact .inl (List.mem_cons_of_mem a h)
    · rcases List.mem_cons.1 h with rfl | h
      · exact .inl List.mem_cons_self
      · rcases ih h with h | ⟨x, hx, hp, rfl⟩
        · exact .inl (List.mem_cons_of_mem a h)
        · exact .inr ⟨x, List.mem_cons_of_mem a hx, hp, rfl⟩

/-- A descriptor that comes into the list is found under the number it got. -/
theorem Dev.flight_addFlight {d : Dev} (j q i : Nat) (w : Word512) (b : Bool) (hfree : d.flight d.sched.nextFlight = none) :
    (d.addFlight j q i w b).flight d.sched.nextFlight = some { Flight.fresh d.sched.nextFlight j q i w with waiting := b } := by
  unfold Dev.flight at hfree
  simp [Dev.flight, Dev.addFlight, Dev.setSched, List.find?_append, hfree, Flight.fresh]

theorem Dev.flight_modFlight_some {d : Dev} {n : Nat} {x : Flight} {g : Flight → Flight} (hid : ∀ y, (g y).id = y.id)
    (hx : d.flight n = some x) : (d.modFlight n g).flight n = some (g x) := by
  rw [Dev.flight_modFlight _ n g hid, hx]
  rfl

/-- Where none waits in its queue, the flight that waits there is the new one. -/
theorem waiting_is_new {l : List Flight} {n j q : Nat} {x y : Flight} {g : Flight → Flight} (hid : ∀ z, (g z).id = z.id)
    (hnone : l.any (fun z => z.waiting && z.job == j && z.queue == q) = false) (hx : x.id = n)
    (hy : (updFirst (fun z => z.id == n) g (l ++ [x])).find? (fun z => z.waiting && z.job == j && z.queue == q) = some y) :
    y.id = n := by
  rcases mem_updFirst (List.mem_of_find?_eq_some hy) with hmem | ⟨z, -, hz, rfl⟩
  · rcases List.mem_append.1 hmem with hold | hnew
    · exact absurd (List.find?_some hy) (List.any_eq_false.1 hnone y hold)
    · rw [List.mem_singleton.1 hnew, hx]
  · rw [hid]; simpa using hz

/-- A descriptor that is no fork, taken into a queue where its number is free. -/
theorem takeDescriptor_takenIn {d : Dev} {j : Nat} (q i : Nat) (w : Word512) (sound : Bool) (hj : j < 64)
    (hfree : d.flight d.sched.nextFlight = none) (hslow : ∀ p ∈ (d.job j).slow, p.1 < 16) (hfork : fld w.toNat 0 8 ≠ 9) :
    let e := takeDescriptor j q i w sound d
    (e.flight d.sched.nextFlight).map Flight.origin = some (d.sched.nextFlight, j, q, i, w) ∧
      e.sched.nextFlight = d.sched.nextFlight + 1 ∧ e.mem = d.mem ∧ e.lnk = d.lnk ∧ e.mbox = d.mbox ∧
      (∀ k, k / 65536 = 0x55 → e.dget k = d.dget k) ∧
      (fld w.toNat 0 8 ≠ 3 ∧ fld w.toNat 0 8 ≠ 5 ∧ fld w.toNat 0 8 ≠ 8 → SameServing d e) := by
  intro e
  let n := d.sched.nextFlight
  let x : Flight := { Flight.fresh n j q i w with waiting := true }
  let d1 := d.addFlight j q i w true
  have hx1 : d1.flight n = some x := Dev.flight_addFlight j q i w true hfree
  let d2 := markSolo (acceptStep d1 j x.step x.cls) j x.step
  have hk2 : KeepsFlights d1 d2 := (keepsFlights_acceptStep d1 x.step x.cls hj hslow).trans (keepsFlights_markSolo _ j x.step)
  let held := (d2.job j).reform.isSome && !(d2.job j).begun.any (fun p => p.1 == x.step)
  let d3 := d2.modFlight n (fun y => { y with afterReform := held })
  have hx3 : d3.flight n = some { x with afterReform := held } := by
    have hx2 : d2.flight n = some x := by unfold Dev.flight; rw [hk2.flights]; exact hx1
    exact Dev.flight_modFlight_some (g := fun y => { y with afterReform := held }) (fun _ => rfl) hx2
  have h1 : TakenIn d1 n (n, j, q, i, w) d1 := ⟨.refl d1, by rw [hx1]; rfl⟩
  have h3 : TakenIn d1 n (n, j, q, i, w) d3 := (h1.of_flights hk2).modFlight n (fun _ => rfl)
  have hserve3 : SameServing d1 d3 := ⟨hk2.store, hk2.srv⟩
  have hfinal : TakenIn d1 n (n, j, q, i, w) e ∧
      (fld w.toNat 0 8 ≠ 3 ∧ fld w.toNat 0 8 ≠ 5 ∧ fld w.toNat 0 8 ≠ 8 → SameServing d1 e) := by
    have he : e = if !sound then (d3.modFlight n (fun y => { y with waiting := false })).finish n stPoison
        else if d.sched.flights.any (fun x => x.waiting && x.job == j && x.queue == q) then d3 else releaseQueue j q 1 d3 := by
      show takeDescriptor j q i w sound d = _
      unfold takeDescriptor
      dsimp only
      rw [show (d.addFlight j q i w true).flight d.sched.nextFlight = some x from hx1]
    rw [he]
    split
    · have hx4 : (d3.modFlight n (fun y => { y with waiting := false })).flight n =
          some { x with afterReform := held, waiting := false } :=
        Dev.flight_modFlight_some (g := fun y => { y with waiting := false }) (fun _ => rfl) hx3
      obtain ⟨hfin, hserve⟩ := (h3.modFlight n (g := fun y => { y with waiting := false }) (fun _ => rfl)).finish hx4 rfl stPoison
      exact ⟨hfin, fun _ => hserve3.trans (SameServing.trans ⟨rfl, rfl⟩ hserve)⟩
    · split
      · exact ⟨h3, fun _ => hserve3⟩
      · next hbehind =>
        unfold releaseQueue
        split
        · exact ⟨h3, fun _ => hserve3⟩
        · next y hy =>
          have hflights : d3.sched.flights = updFirst (fun z => z.id == n) (fun y => { y with afterReform := held })
              (d.sched.flights ++ [x]) := congrArg (updFirst _ _) hk2.flights
          rw [hflights] at hy
          rw [waiting_is_new (n := n) (x := x) (g := fun y => { y with afterReform := held }) (fun _ => rfl) (Bool.eq_false_iff.2 hbehind) rfl hy]
          split
          · obtain ⟨hiss, hserve⟩ := h3.issue hx3 rfl hj hfork
            exact ⟨hiss, fun hop => hserve3.trans (hserve hop)⟩
          · exact ⟨h3, fun _ => hserve3⟩
  obtain ⟨ht, hserve⟩ := hfinal
  exact ⟨ht.origin, ht.next, ht.mem, ht.lnk, ht.mbox, ht.rings, fun hop => hserve hop⟩

/-- Settles O15: a step boundary, the issue check and a decision leave the rings' indices, the memories, the links and the
mailboxes as they are, and only a conv, an attend or an update takes pins or notes a cache. -/
theorem fetchTakesTheNextDescriptor : Obligations.FetchTakesTheNextDescriptor := by
  unfold Obligations.FetchTakesTheNextDescriptor
  intro s j q head seg w
  have hexec : mayFetch s.dev j q = true → exec (.descriptorFetch j q) s = .next {
      s with dev := takeDescriptor j q head w (s.dev.segOk seg) (s.dev.dset (O.QUEUE_HEAD j q) ((head + 1) % 2 ^ 32)) } := by
    intro hmay
    refine next_dev ?_
    rw [fetch, hmay]
    rfl
  refine ⟨fun hno => next_dev ?_, hexec, fun hmay hfree hslow hfork => ?_⟩
  · rw [fetch, hno]
    rfl
  · have hbounds : j < 64 ∧ q < 4 := by
      unfold mayFetch at hmay
      simp only [Bool.and_eq_true, decide_eq_true_eq] at hmay
      exact hmay.1.1.1.1.1
    obtain ⟨horigin, hnext, hmem, hlnk, hmbox, hrings, hserve⟩ := takeDescriptor_takenIn
      (d := s.dev.dset (O.QUEUE_HEAD j q) ((head + 1) % 2 ^ 32)) q head w (s.dev.segOk seg) hbounds.1 hfree hslow hfork
    obtain ⟨x, hx, horig⟩ := Option.map_eq_some_iff.1 horigin
    obtain ⟨-, hjob, hqueue, hindex, hd⟩ := (by simpa [Flight.origin] using horig :
      x.id = _ ∧ x.job = j ∧ x.queue = q ∧ x.index = head ∧ x.d = w)
    refine ⟨_, x, hexec hmay, rfl, rfl, hx, hjob, hqueue, hindex, hd, hnext, ?_, hmem, hlnk, hmbox, fun hop => ?_⟩
    · refine (hrings _ ?_).trans (Dev.dget_dset_self _ _ _)
      unfold O.QUEUE_HEAD
      omega
    · exact hserve (by simpa [Flight.opcode, Flight.w, hd] using hop)

end Sys2Proof.Machine
end

section
/-! Semaphores (R400 to R403): the grant of a free semaphore, the two operations on their descriptors, and the grace timer. -/

namespace Sys2Proof.Machine

open Sys2Proof.Laws

/-! ### What leaves the semaphores, the memories and the dictionary -/

theorem Dev.sem_congr {d e : Dev} (h : e.sched.sems = d.sched.sems) (n : Nat) : e.sem n = d.sem n := by
  rw [Dev.sem, h]; rfl

theorem Dev.sem_modFlight (d : Dev) (f n : Nat) (g : Flight → Flight) : (d.modFlight f g).sem n = d.sem n := rfl

theorem Dev.sem_start (d : Dev) (f n : Nat) : (d.start f).sem n = d.sem n :=
  Dev.sem_congr (by unfold Dev.start; split <;> rfl) n

theorem Dev.sem_finish (d : Dev) (f st n : Nat) : (d.finish f st).sem n = d.sem n :=
  Dev.sem_congr (by rw [Dev.finish_sched]) n

theorem Dev.sem_regrace_self (d : Dev) (n : Nat) : (d.regrace n).sem n = { d.sem n with
    grace := (d.sem n).held && d.isDisplaced (d.sem n).owner && (d.sem n).waiters.any (fun w => w.2 != (d.sem n).owner) } :=
  d.sem_setSem_self n _

theorem Dev.sem_regrace_ne (d : Dev) {n k : Nat} (h : k ≠ n) : (d.regrace n).sem k = d.sem k := d.sem_setSem_ne _ h

theorem Dev.start_isDisplaced (d : Dev) (f j : Nat) : (d.start f).isDisplaced j = d.isDisplaced j := by
  unfold Dev.start; split <;> rfl

/-- The memories and the dictionary are as they were. -/
def SameData (d e : Dev) : Prop := e.mem = d.mem ∧ e.dict = d.dict

theorem SameData.trans {a b c : Dev} (h : SameData a b) (g : SameData b c) : SameData a c := ⟨g.1.trans h.1, g.2.trans h.2⟩

theorem sameData_start (d : Dev) (f : Nat) : SameData d (d.start f) := d.start_mem_dict f

theorem sameData_finish {d : Dev} {f : Nat} {x : Flight} (st : Nat) (hx : d.flight f = some x) (hp : x.pins = []) :
    SameData d (d.finish f st) :=
  ⟨Dev.finish_keeps Dev.mem (fun _ _ => rfl) (fun _ _ => rfl) st hx hp, Dev.finish_keeps Dev.dict (fun _ _ => rfl) (fun _ _ => rfl) st hx hp⟩

/-! ### The grant -/

/-- Semaphore `s` once flight `x` holds it, with `ws` waiting. -/
def Sem.grantedTo (s : Sem) (x : Flight) (ws : List (Nat × Nat)) : Sem :=
  { s with held := true, broken := false, owner := x.job, step := x.step, grace := false, waiters := ws }

/-- Semaphore `n` is flight `x`'s; the flight knows whether it was broken. -/
def Dev.handSem (d : Dev) (n : Nat) (x : Flight) : Dev :=
  (d.setSem n ((d.sem n).grantedTo x ((d.sem n).waiters.filter (fun w => w.1 != x.id)))).modFlight x.id
    (fun y => { y with broken := (d.sem n).broken })

theorem Dev.sem_handSem_self (d : Dev) (n : Nat) (x : Flight) : (d.handSem n x).sem n =
    (d.sem n).grantedTo x ((d.sem n).waiters.filter (fun w => w.1 != x.id)) := by
  rw [Dev.handSem, Dev.sem_modFlight, Dev.sem_setSem_self]

theorem Dev.sem_handSem_ne (d : Dev) {n k : Nat} (x : Flight) (hk : k ≠ n) : (d.handSem n x).sem k = d.sem k := by
  rw [Dev.handSem, Dev.sem_modFlight, Dev.sem_setSem_ne _ _ hk]

theorem Dev.flight_handSem_self {d : Dev} {f : Nat} {x : Flight} (n : Nat) (hx : d.flight f = some x) :
    (d.handSem n x).flight f = some { x with broken := (d.sem n).broken } := by
  obtain rfl := Dev.flight_id hx
  exact Dev.flight_modFlight_some (d := d.setSem n _) (g := fun y => { y with broken := (d.sem n).broken }) (fun _ => rfl) hx

theorem Dev.flight_handSem_ne (d : Dev) {k : Nat} (n : Nat) {x : Flight} (hk : k ≠ x.id) : (d.handSem n x).flight k = d.flight k :=
  Dev.flight_modFlight_ne (d.setSem n _) x.id k (fun y : Flight => { y with broken := (d.sem n).broken }) (fun _ => rfl) hk

section
variable {d : Dev} {n f : Nat} {x : Flight} (hx : d.flight f = some x)
include hx

theorem grantSem_eq : grantSem d n f = ((d.handSem n x).finish f stOk).regrace n := by
  obtain rfl := Dev.flight_id hx
  rw [grantSem, hx]
  rfl

/-- The holder, its step and the list of waiters; the grace timer alone depends on who is displaced. -/
theorem grantSem_sem : ∃ g, (grantSem d n f).sem n =
    { (d.sem n).grantedTo x ((d.sem n).waiters.filter (fun w => w.1 != f)) with grace := g } ∧
    ((d.sem n).waiters = [] → g = false) := by
  rw [grantSem_eq hx, Dev.sem_regrace_self, Dev.sem_finish, Dev.sem_handSem_self, Dev.flight_id hx]
  exact ⟨_, rfl, fun hw => by simp [Sem.grantedTo, hw]⟩

theorem grantSem_sem_ne {k : Nat} (hk : k ≠ n) : (grantSem d n f).sem k = d.sem k := by
  rw [grantSem_eq hx, Dev.sem_regrace_ne _ hk, Dev.sem_finish, Dev.sem_handSem_ne _ _ hk]

theorem grantSem_flight (hdone : x.done = none) : (grantSem d n f).flight f =
    some { x with broken := (d.sem n).broken, pins := [], done := some stOk } := by
  rw [grantSem_eq hx]
  exact Dev.finish_flight stOk (Dev.flight_handSem_self n hx) hdone

theorem grantSem_flight_ne {k : Nat} (hk : k ≠ f) : (grantSem d n f).flight k = d.flight k := by
  rw [grantSem_eq hx]
  exact (Dev.finish_flight_ne _ stOk hk).trans (Dev.flight_handSem_ne d n (by rw [Dev.flight_id hx]; exact hk))

theorem sameData_grantSem (hp : x.pins = []) : SameData d (grantSem d n f) := by
  rw [grantSem_eq hx]
  exact SameData.trans (b := d.handSem n x) ⟨rfl, rfl⟩
    ((sameData_finish stOk (Dev.flight_handSem_self n hx) hp).trans ⟨rfl, rfl⟩)

end

/-! ### The operations -/

theorem semAcquire_not_ready {d : Dev} {f : Nat} (h : ∀ x, ¬SyncReady d f 1 x) : semAcquire f d = d := by
  unfold semAcquire
  cases hx : d.flight f with
  | none => rfl
  | some x => exact if_pos (by simpa [SyncReady, hx, imp_iff_not_or] using h x)

theorem semRelease_not_ready {d : Dev} {f : Nat} (h : ∀ x, ¬SyncReady d f 2 x) : semRelease f d = d := by
  unfold semRelease
  cases hx : d.flight f with
  | none => rfl
  | some x => exact if_pos (by simpa [SyncReady, hx, imp_iff_not_or] using h x)

theorem semAcquireBad_iff (d : Dev) (x : Flight) : semAcquireBad d x = true ↔ bit (d.sem (syncD x.w).sem).jobs x.job = false ∨
    ((d.sem (syncD x.w).sem).held = true ∧ (d.sem (syncD x.w).sem).owner = x.job) ∨
    (∃ w ∈ (d.sem (syncD x.w).sem).waiters, w.2 = x.job) := by
  simp [semAcquireBad, or_assoc]

theorem semReleaseBad_iff (d : Dev) (x : Flight) : semReleaseBad d x = true ↔ bit (d.sem (syncD x.w).sem).jobs x.job = false ∨
    (d.sem (syncD x.w).sem).held = false ∨ (d.sem (syncD x.w).sem).owner ≠ x.job := by
  simp [semReleaseBad, or_assoc]

section
variable {d : Dev} {f : Nat} {x : Flight}

/-- A waiting acquire stands behind the others. -/
def Dev.waitSem (d : Dev) (n f j : Nat) : Dev :=
  (d.setSem n { d.sem n with waiters := (d.sem n).waiters ++ [(f, j)] }).regrace n

theorem semAcquire_eq (h : SyncReady d f 1 x) : semAcquire f d = if semAcquireBad d x then d.finish f stField
    else if (d.sem (syncD x.w).sem).held = true ∨ (d.sem (syncD x.w).sem).waiters ≠ [] then
      (d.start f).waitSem (syncD x.w).sem f x.job
    else grantSem (d.start f) (syncD x.w).sem f := by
  obtain ⟨hx, hop, hsop, hlive, hstarted⟩ := h
  rw [semAcquire, hx]
  dsimp only
  rw [if_neg (by simp [hop, hsop, hlive, hstarted]), Dev.waitSem, Dev.sem_start]

/-- A semaphore let go. -/
def Sem.freed (s : Sem) : Sem := { s with held := false, owner := 0, step := 0, grace := false }

theorem semRelease_eq (h : SyncReady d f 2 x) : semRelease f d = if semReleaseBad d x then d.finish f stField
    else (serveSem ((d.start f).setSem (syncD x.w).sem (d.sem (syncD x.w).sem).freed) (syncD x.w).sem false).finish f stOk := by
  obtain ⟨hx, hop, hsop, hlive, hstarted⟩ := h
  rw [semRelease, hx]
  dsimp only
  rw [if_neg (by simp [hop, hsop, hlive, hstarted])]
  rfl

end

theorem serveSem_none {d : Dev} {n : Nat} (held : Bool) (h : (d.sem n).waiters = []) : serveSem d n held = d := by
  unfold serveSem
  dsimp only
  rw [h]

/-- At an explicit release the first waiter is granted, displaced or not (log 107). -/
theorem serveSem_first {d : Dev} {n : Nat} {w : Nat × Nat} {ws : List (Nat × Nat)} (hheld : (d.sem n).held = false)
    (h : (d.sem n).waiters = w :: ws) : serveSem d n false = grantSem d n w.1 := by
  unfold serveSem
  dsimp only
  rw [h, hheld]
  rfl

/-- Who waits behind the first one, whose descriptor names no other entry. -/
theorem filter_first_waiter {w : Nat × Nat} {ws : List (Nat × Nat)} (h : ∀ v ∈ ws, v.1 ≠ w.1) :
    (w :: ws).filter (fun v => v.1 != w.1) = ws := by
  rw [List.filter_cons_of_neg (by simp)]
  exact List.filter_eq_self.2 fun v hv => by simpa using h v hv

section
variable {s : State} {f : Nat} {x : Flight}

theorem semAcquire_refused (h : SyncReady s.dev f 1 x) (hbad : semAcquireBad s.dev x = true) :
    exec (.semAcquire f) s = .next { s with dev := s.dev.finish f stField } :=
  next_dev (by rw [semAcquire_eq h, if_pos hbad])

theorem semRelease_refused (h : SyncReady s.dev f 2 x) (hbad : semReleaseBad s.dev x = true) :
    exec (.semRelease f) s = .next { s with dev := s.dev.finish f stField } :=
  next_dev (by rw [semRelease_eq h, if_pos hbad])

theorem exec_semAcquire (f : Nat) (s : State) : exec (.semAcquire f) s = .next { s with dev := semAcquire f s.dev } := rfl
theorem exec_semRelease (f : Nat) (s : State) : exec (.semRelease f) s = .next { s with dev := semRelease f s.dev } := rfl

theorem semAcquire_granted (h : SyncReady s.dev f 1 x) (hgood : semAcquireBad s.dev x = false)
    (hheld : (s.dev.sem (syncD x.w).sem).held = false) (hw : (s.dev.sem (syncD x.w).sem).waiters = []) :
    ∃ t y, exec (.semAcquire f) s = .next t ∧
      t.dev.sem (syncD x.w).sem =
        { s.dev.sem (syncD x.w).sem with held := true, broken := false, owner := x.job, step := x.step, grace := false } ∧
      t.dev.flight f = some y ∧ y.done = some stOk ∧ y.broken = (s.dev.sem (syncD x.w).sem).broken ∧
      (∀ k, k ≠ (syncD x.w).sem → t.dev.sem k = s.dev.sem k) ∧
      (x.pins = [] → t.dev.mem = s.dev.mem ∧ t.dev.dict = s.dev.dict) := by
  obtain ⟨hx, hlive⟩ : s.dev.flight f = some x ∧ x.live = true := ⟨h.1, h.2.2.2.1⟩
  have hstart := Dev.start_flight hx
  obtain ⟨g, hsem, hg⟩ := grantSem_sem (n := (syncD x.w).sem) hstart
  rw [Dev.sem_start] at hsem hg
  have hflight := grantSem_flight (n := (syncD x.w).sem) hstart (Flight.live_undecided hlive)
  rw [Dev.sem_start] at hflight
  rw [exec_semAcquire, semAcquire_eq h, hgood, if_neg Bool.false_ne_true, if_neg (by simp [hheld, hw])]
  refine ⟨_, _, rfl, ?_, hflight, rfl, rfl, fun k hk => (grantSem_sem_ne hstart hk).trans (Dev.sem_start _ f k),
    fun hp => (sameData_start s.dev f).trans (sameData_grantSem hstart hp)⟩
  rw [hsem, hg hw]
  dsimp only [Sem.grantedTo]
  rw [hw]
  rfl

theorem semAcquire_waits (h : SyncReady s.dev f 1 x) (hgood : semAcquireBad s.dev x = false)
    (hbusy : (s.dev.sem (syncD x.w).sem).held = true ∨ (s.dev.sem (syncD x.w).sem).waiters ≠ []) :
    let n := (syncD x.w).sem
    let m := s.dev.sem n
    ∃ t y, exec (.semAcquire f) s = .next t ∧
      t.dev.sem n = { m with
        waiters := m.waiters ++ [(f, x.job)]
        grace := m.held && t.dev.isDisplaced m.owner && (m.waiters ++ [(f, x.job)]).any (fun w => w.2 != m.owner) } ∧
      t.dev.flight f = some y ∧ y.done = none ∧ y.started = true ∧
      (∀ k, k ≠ n → t.dev.sem k = s.dev.sem k) ∧ t.dev.mem = s.dev.mem ∧ t.dev.dict = s.dev.dict := by
  intro n m
  obtain ⟨hx, hlive⟩ : s.dev.flight f = some x ∧ x.live = true := ⟨h.1, h.2.2.2.1⟩
  rw [exec_semAcquire, semAcquire_eq h, hgood, if_neg Bool.false_ne_true, if_pos hbusy]
  refine ⟨_, { x with started := true }, rfl, ?_, Dev.start_flight hx, Flight.live_undecided hlive, rfl, fun k hk => ?_,
    sameData_start s.dev f⟩
  · show ((s.dev.start f).waitSem n f x.job).sem n = _
    rw [Dev.waitSem, Dev.sem_regrace_self, Dev.sem_setSem_self, Dev.sem_start]
    rfl
  · show ((s.dev.start f).waitSem n f x.job).sem k = _
    rw [Dev.waitSem, Dev.sem_regrace_ne _ hk, Dev.sem_setSem_ne _ _ hk, Dev.sem_start]

theorem semRelease_free (h : SyncReady s.dev f 2 x) (hgood : semReleaseBad s.dev x = false)
    (hw : (s.dev.sem (syncD x.w).sem).waiters = []) :
    ∃ t y, exec (.semRelease f) s = .next t ∧ t.dev.sem (syncD x.w).sem = (s.dev.sem (syncD x.w).sem).freed ∧
      t.dev.flight f = some y ∧ y.done = some stOk ∧ (∀ k, k ≠ (syncD x.w).sem → t.dev.sem k = s.dev.sem k) ∧
      (x.pins = [] → t.dev.mem = s.dev.mem ∧ t.dev.dict = s.dev.dict) := by
  obtain ⟨hx, hlive⟩ : s.dev.flight f = some x ∧ x.live = true := ⟨h.1, h.2.2.2.1⟩
  have hd1 : ((s.dev.start f).setSem (syncD x.w).sem (s.dev.sem (syncD x.w).sem).freed).flight f = some { x with started := true } :=
    Dev.start_flight hx
  rw [exec_semRelease, semRelease_eq h, hgood, if_neg Bool.false_ne_true, serveSem_none _ (by rw [Dev.sem_setSem_self]; exact hw)]
  refine ⟨_, _, rfl, ?_, Dev.finish_flight stOk hd1 (Flight.live_undecided hlive), rfl, fun k hk => ?_,
    fun hp => (sameData_start s.dev f).trans (SameData.trans ⟨rfl, rfl⟩ (sameData_finish stOk hd1 hp))⟩
  · exact (Dev.sem_finish _ f stOk _).trans (Dev.sem_setSem_self _ _ _)
  · exact (Dev.sem_finish _ f stOk k).trans ((Dev.sem_setSem_ne _ _ hk).trans (Dev.sem_start _ f k))

theorem semRelease_hands (h : SyncReady s.dev f 2 x) (hgood : semReleaseBad s.dev x = false) {w : Nat × Nat} {ws : List (Nat × Nat)}
    {z : Flight} (hw : (s.dev.sem (syncD x.w).sem).waiters = w :: ws) (hothers : ∀ v ∈ ws, v.1 ≠ w.1) (hne : w.1 ≠ f)
    (hz : s.dev.flight w.1 = some z) (hzdone : z.done = none) :
    let n := (syncD x.w).sem
    ∃ t y u, exec (.semRelease f) s = .next t ∧
      (t.dev.sem n).held = true ∧ (t.dev.sem n).owner = z.job ∧ (t.dev.sem n).step = z.step ∧ (t.dev.sem n).waiters = ws ∧
      t.dev.flight f = some y ∧ y.done = some stOk ∧ t.dev.flight w.1 = some u ∧ u.done = some stOk ∧
      (∀ k, k ≠ n → t.dev.sem k = s.dev.sem k) ∧
      (x.pins = [] → z.pins = [] → t.dev.mem = s.dev.mem ∧ t.dev.dict = s.dev.dict) := by
  intro n
  obtain ⟨hx, hlive⟩ : s.dev.flight f = some x ∧ x.live = true := ⟨h.1, h.2.2.2.1⟩
  let d1 := (s.dev.start f).setSem n (s.dev.sem n).freed
  have hsem1 : d1.sem n = (s.dev.sem n).freed := Dev.sem_setSem_self _ _ _
  have hx1 : d1.flight f = some { x with started := true } := Dev.start_flight hx
  have hz1 : d1.flight w.1 = some z := (Dev.start_flight_ne s.dev hne).trans hz
  have hx2 := (grantSem_flight_ne (n := n) hz1 (Ne.symm hne)).trans hx1
  obtain ⟨g, hsem2, -⟩ := grantSem_sem (n := n) hz1
  rw [hsem1, show (s.dev.sem n).freed.waiters = w :: ws from hw, filter_first_waiter hothers] at hsem2
  have hsem : ((grantSem d1 n w.1).finish f stOk).sem n = _ := (Dev.sem_finish _ f stOk n).trans hsem2
  rw [exec_semRelease, semRelease_eq h, hgood, if_neg Bool.false_ne_true,
    serveSem_first (d := d1) (by rw [hsem1]; rfl) (by rw [hsem1]; exact hw)]
  refine ⟨_, _, _, rfl, ?_, ?_, ?_, ?_, Dev.finish_flight stOk hx2 (Flight.live_undecided hlive), rfl,
    (Dev.finish_flight_ne _ stOk hne).trans (grantSem_flight hz1 hzdone), rfl, fun k hk => ?_, fun hp hzp => ?_⟩
  · rw [hsem]; rfl
  · rw [hsem]; rfl
  · rw [hsem]; rfl
  · rw [hsem]; rfl
  · exact (Dev.sem_finish _ f stOk k).trans ((grantSem_sem_ne hz1 hk).trans ((Dev.sem_setSem_ne _ _ hk).trans (Dev.sem_start _ f k)))
  · exact (sameData_start s.dev f).trans (SameData.trans (b := d1) ⟨rfl, rfl⟩
      ((sameData_grantSem hz1 hzp).trans (sameData_finish stOk hx2 hp)))

end

theorem sem_breakSem (d : Dev) (n : Nat) : ((breakSem d n).sem n).held = false ∧ ((breakSem d n).sem n).broken = true ∧
    ((breakSem d n).sem n).owner = 0 ∧ ((breakSem d n).sem n).grace = false := by
  rw [breakSem, Dev.sem_setSem_self]
  exact ⟨rfl, rfl, rfl, rfl⟩

/-- Settles O28: the cases of `semAcquire`, `semRelease` and `semGrace`. That a grant at a release goes to the first waiter even
where it is displaced, and at the end of a grace to the first that is not, is log 107's reading of R403. -/
theorem semaphoresAreGrantedAndReleased : Obligations.SemaphoresAreGrantedAndReleased := by
  unfold Obligations.SemaphoresAreGrantedAndReleased
  refine ⟨⟨fun s f h => next_dev (semAcquire_not_ready h), fun s f h => next_dev (semRelease_not_ready h), fun s f x => ?_⟩,
    fun s n => ⟨fun hgrace => next_dev ?_, fun hgrace => ⟨next_dev ?_, ?_⟩⟩⟩
  · refine ⟨fun h hbad => semAcquire_refused h ((semAcquireBad_iff s.dev x).2 hbad),
      fun h hbad => semRelease_refused h ((semReleaseBad_iff s.dev x).2 hbad), fun h hjob hown hwait => ?_, fun h hjob hheld hown => ?_⟩
    · have hgood : semAcquireBad s.dev x = false := by
        rw [← Bool.not_eq_true, semAcquireBad_iff]
        rintro (hno | hno | ⟨w, hw, hno⟩)
        · exact absurd (hjob.symm.trans hno) (by decide)
        · exact hown hno
        · exact hwait w hw hno
      exact ⟨fun hfree hnone => semAcquire_granted h hgood hfree hnone, fun hbusy => semAcquire_waits h hgood hbusy⟩
    · have hgood : semReleaseBad s.dev x = false := by
        rw [← Bool.not_eq_true, semReleaseBad_iff]
        rintro (hno | hno | hno)
        · exact absurd (hjob.symm.trans hno) (by decide)
        · exact absurd (hheld.symm.trans hno) (by decide)
        · exact hno hown
      exact ⟨fun hnone => semRelease_free h hgood hnone, fun w ws z hw hothers hne hz hzdone =>
        semRelease_hands h hgood hw hothers hne hz hzdone⟩
  · exact if_pos (by simp [hgrace])
  · exact if_neg (by simp [hgrace])
  · exact sem_breakSem _ n

end Sys2Proof.Machine
end

section
/-! DESTROY, step 6 (R392): the grants of a job return zeroed. -/

namespace Sys2Proof.Machine

open Sys2Proof.Laws

/-- What steps that each zero a cell or leave it as it was do together: the cell is zero where one of them hit it. -/
theorem Dev.forEach_zeroed {α β : Type} {read : Dev → β} {zero : β} {hit : α → Prop} {f : Dev → α → Dev}
    (hzero : ∀ d a, hit a → read (f d a) = zero) (hkeep : ∀ d a, ¬hit a → read (f d a) = read d) (l : List α) (d : Dev) :
    ((∃ a ∈ l, hit a) → read (d.forEach l f) = zero) ∧ (¬(∃ a ∈ l, hit a) → read (d.forEach l f) = read d) := by
  induction l generalizing d with
  | nil => simp
  | cons a l ih =>
    obtain ⟨ihzero, ihkeep⟩ := ih (f d a)
    rw [Dev.forEach_cons]
    refine ⟨fun hex => ?_, fun hno => ?_⟩
    · by_cases htail : ∃ b ∈ l, hit b
      · exact ihzero htail
      · have ha : hit a := by
          obtain ⟨b, hb, hh⟩ := hex
          rcases List.mem_cons.1 hb with rfl | hb
          · exact hh
          · exact absurd ⟨b, hb, hh⟩ htail
        exact (ihkeep htail).trans (hzero d a ha)
    · have htail : ¬∃ b ∈ l, hit b := fun ⟨b, hb, hh⟩ => hno ⟨b, List.mem_cons_of_mem a hb, hh⟩
      exact (ihkeep htail).trans (hkeep d a fun hh => hno ⟨a, List.mem_cons_self, hh⟩)

/-- Place `p` lies on a block where key `k` is one of its `n` from `key` up. -/
def Place.covers (p : Place) (key : Place → Nat → Nat) (n k : Nat) : Prop := ∃ b, p.phys = some b ∧ key p b ≤ k ∧ k < key p b + n

/-- A memory that zeroPlace erases `n` keys of, from `key` up, over all places of a job. -/
theorem zeroPlaces_read {β : Type} (jb : Job) (mem : Dev → SMap β) (zero : β) (key : Place → Nat → Nat) (n : Nat)
    (hnone : ∀ d p, p.phys = none → mem (zeroPlace d jb p) = mem d)
    (hsome : ∀ d p b, p.phys = some b → mem (zeroPlace d jb p) = SMap.erase (mem d) (key p b) n) (d : Dev) (k : Nat) :
    ((∃ p ∈ jb.places, p.covers key n k) → SMap.get zero (mem (d.forEach jb.places (fun d p => zeroPlace d jb p))) k = zero) ∧
    (¬(∃ p ∈ jb.places, p.covers key n k) →
      SMap.get zero (mem (d.forEach jb.places (fun d p => zeroPlace d jb p))) k = SMap.get zero (mem d) k) := by
  refine Dev.forEach_zeroed (read := fun d => SMap.get zero (mem d) k) (hit := fun p => p.covers key n k) ?_ ?_ jb.places d
  · rintro d p ⟨b, hb, hin⟩
    rw [hsome d p b hb, SMap.get_erase, if_pos hin]
  · intro d p hout
    cases hb : p.phys with
    | none => rw [hnone d p hb]
    | some b => rw [hsome d p b hb, SMap.get_erase, if_neg fun hin => hout ⟨b, hb, hin⟩]

section
variable (d : Dev) (jb : Job) (p : Place)

theorem zeroPlace_none (h : p.phys = none) : zeroPlace d jb p = d := by rw [zeroPlace, h]

theorem zeroPlace_some {b : Nat} (h : p.phys = some b) :
    zeroPlace d jb p = zeroProgs (zeroOpb (zeroSlots d b p.slot jb.slots) b p.opb jb.opb) b p.prog jb.progs := by rw [zeroPlace, h]

theorem zeroPlace_sched : (zeroPlace d jb p).sched = d.sched := by unfold zeroPlace; split <;> rfl
theorem zeroPlace_fast : (zeroPlace d jb p).mem.fast = d.mem.fast := by unfold zeroPlace; split <;> rfl
theorem zeroPlace_slow : (zeroPlace d jb p).mem.slow = d.mem.slow := by unfold zeroPlace; split <;> rfl

end

/-- Objects that go back to their defaults. -/
theorem Dev.dget_forEach_ddef (l : List Nat) (d : Dev) (k : Nat) :
    (d.forEach l Dev.ddef).dget k = if k ∈ l then dictDefault k else d.dget k := by
  induction l generalizing d with
  | nil => simp
  | cons a l ih =>
    rw [Dev.forEach_cons, ih]
    by_cases hk : k ∈ l
    · simp [hk]
    · by_cases ha : k = a
      · subst ha
        simp [hk, Dev.ddef]
      · simp [hk, ha, Dev.ddef, Dev.dget_dset_ne d _ ha]

theorem Dev.forEach_ddef (l : List Nat) (d : Dev) : d.forEach l Dev.ddef = { d with dict := (d.forEach l Dev.ddef).dict } := by
  induction l generalizing d with
  | nil => rfl
  | cons a l ih => rw [Dev.forEach_cons, ih]; rfl

theorem dictDefault_reduceGrant {j : Nat} (hj : j < 64) : dictDefault (O.REDUCE_GRANT j) = 0 := by
  have hall : ∀ j < 64, dictDefault (O.REDUCE_GRANT j) = 0 := by decide +kernel
  exact hall j hj

/-- Per-job objects that go back to their defaults when the grants return. -/
def grantObjects (j : Nat) : List Nat :=
  (List.range 4).flatMap (fun q => [O.QUEUE_SEG j q, O.COMPL_SEG j q, O.QUEUE_TAIL j q, O.QUEUE_HEAD j q,
    O.COMPL_TAIL j q, O.COMPL_HEAD j q]) ++ [O.REDUCE_GRANT j] ++ (List.range 8).map (fun c => O.LINK_RESERVE j c)

section
variable (d : Dev) (j : Nat)

theorem destroyGrants_mem : (destroyGrants d j).mem = (d.forEach (d.job j).places (fun e p => zeroPlace e (d.job j) p)).mem := by
  unfold destroyGrants forgetJob
  dsimp only
  rw [Dev.forEach_ddef]
  rfl

theorem destroyGrants_groups : (destroyGrants d j).red.groups =
    (d.forEach (d.job j).places (fun e p => zeroPlace e (d.job j) p)).red.groups.filter (fun p => p.2.job != j) := by
  unfold destroyGrants forgetJob
  dsimp only
  rw [Dev.forEach_ddef]
  rfl

theorem destroyGrants_dget {k : Nat} (hk : k ∈ grantObjects j) : (destroyGrants d j).dget k = dictDefault k := by
  have hkeep : ∀ (e : Dev) (f : Blk → Blk) (v : Job), ((e.setBlk f).setJob j v).dget k = e.dget k := fun _ _ _ => rfl
  unfold grantObjects at hk
  unfold destroyGrants forgetJob
  dsimp only
  rw [hkeep, Dev.dget_forEach_ddef, if_pos hk]

theorem destroyGrants_job_self : (destroyGrants d j).job j = { Job.free with baseSet := (d.job j).baseSet } :=
  Dev.job_setJob_self _ _ _

theorem destroyGrants_job_ne {i : Nat} (hi : i ≠ j) : (destroyGrants d j).job i = d.job i := by
  unfold destroyGrants forgetJob
  dsimp only
  rw [Dev.forEach_ddef, Dev.job_setJob_ne _ _ hi]
  show SMap.get Job.free (d.forEach (d.job j).places (fun e p => zeroPlace e (d.job j) p)).sched.jobs i = d.job i
  rw [Dev.forEach_keeps Dev.sched _ (fun e p => zeroPlace_sched e (d.job j) p)]
  rfl

end

/-- Settles O56: each place of the job erases its runs, and nothing that follows touches a memory. -/
theorem grantsLeaveZeroed : Obligations.GrantsLeaveZeroed := by
  unfold Obligations.GrantsLeaveZeroed
  intro d j x u held acc row opb prog
  have hmem : u.mem = (d.forEach x.places (fun e p => zeroPlace e x p)).mem := destroyGrants_mem d j
  have none : ∀ {β : Type} (mem : Dev → SMap β) (d : Dev) (p : Place), p.phys = none → mem (zeroPlace d x p) = mem d :=
    fun mem d p hp => by rw [zeroPlace_none d x p hp]
  refine ⟨fun k => ?_, fun k => ?_, fun k => ?_, fun k => ?_, fun p hp => ?_, fun hj => ?_, destroyGrants_job_self d j,
    fun i hi => destroyGrants_job_ne d j hi, ?_, ?_⟩
  · rw [hmem]
    exact zeroPlaces_read x (fun d => d.mem.acc) 0 acc (x.slots * 4160) (none (fun d => d.mem.acc))
      (fun d p b hb => by rw [zeroPlace_some d x p hb]; rfl) d k
  · rw [hmem]
    exact zeroPlaces_read x (fun d => d.mem.rows) 0 row (x.slots * 256) (none (fun d => d.mem.rows))
      (fun d p b hb => by rw [zeroPlace_some d x p hb]; rfl) d k
  · rw [hmem]
    exact zeroPlaces_read x (fun d => d.mem.opb) 0 opb x.opb (none (fun d => d.mem.opb))
      (fun d p b hb => by rw [zeroPlace_some d x p hb]; rfl) d k
  · rw [hmem]
    exact zeroPlaces_read x (fun d => d.mem.prog) 0 prog (x.progs * 32) (none (fun d => d.mem.prog))
      (fun d p b hb => by rw [zeroPlace_some d x p hb]; rfl) d k
  · rw [destroyGrants_groups] at hp
    simpa using (List.mem_filter.1 hp).2
  · rw [destroyGrants_dget d j (by simp [grantObjects]), dictDefault_reduceGrant hj]
  · rw [hmem]
    exact Dev.forEach_keeps (fun d => d.mem.fast) _ (fun d p => zeroPlace_fast d x p) _ d
  · rw [hmem]
    exact Dev.forEach_keeps (fun d => d.mem.slow) _ (fun d p => zeroPlace_slow d x p) _ d

end Sys2Proof.Machine
end

section
/-! Job contexts (R386 to R389), baselines (R409) and tenancies (R395): what each command does, case by case. -/

namespace Sys2Proof.Machine

open Sys2Proof.Laws

/-! ### FORM -/

/-- A context at its FORM: counters at zero, baselines kept where written, the partition in force, the rings not yet there. -/
def formBase (d : Dev) (j : Nat) (p : Part) : Dev :=
  let old := d.job j
  let depths := (List.range 4).map (fun q => d.dget (O.QUEUE_DEPTH j q))
  let d0 := d.forEach (jobCounters j ++ [O.PART_LOST j]) Dev.ddef
  let d1 := d0.forEach ((List.range 16).filter (fun c => !old.baseSet.contains c)) (fun d c => d.dset (O.BASELINE j c) 0)
  (d1.setJob j ({ Job.free with
      baseSet := old.baseSet, depths := depths, owner := d.dget (O.JOB_OWNER j) }.withPart p)).setSched (fun s =>
    { s with issued := s.issued.filter (fun e => e.1 != j) })

/-- The queue depths that a FORM reads. -/
def formDepths (d : Dev) (j : Nat) : List (Nat × Nat) :=
  (List.range 4).zip ((List.range 4).map (fun q => d.dget (O.QUEUE_DEPTH j q)))

/-- A context that is formed. -/
def Dev.formed (d : Dev) (j : Nat) (p : Part) : Dev :=
  ((d.dset (O.PART_RESULT j) 0).dset (O.REDUCE_GRANT j) p.reduce).dset (O.JOB_STATE j) 1

section
variable {d : Dev} {j : Nat}

theorem formJob_shut (h : 64 ≤ j ∨ d.dget (O.JOB_STATE j) ≠ 0 ∨ noForm d = true) : (formJob d j).1 = d := by
  rw [formJob, if_pos h]

variable (hj : j < 64) (hfree : d.dget (O.JOB_STATE j) = 0) (hform : noForm d = false)
include hj hfree hform

theorem formJob_open : ¬(64 ≤ j ∨ d.dget (O.JOB_STATE j) ≠ 0 ∨ noForm d = true) := by
  simp [hfree, hform]
  omega

theorem formJob_none {r : Nat} (hr : reqPart d j = .inr r) : (formJob d j).1 = d.dset (O.PART_RESULT j) r := by
  rw [formJob, if_neg (formJob_open hj hfree hform), hr]

theorem formJob_noRings {p : Part} (hp : reqPart d j = .inl p) (hr : formRings j (formDepths d j) (formBase d j p) = none) :
    (formJob d j).1 = d.dset (O.PART_RESULT j) 6 := by
  unfold formDepths formBase at hr
  rw [formJob, if_neg (formJob_open hj hfree hform), hp]
  dsimp only at hr ⊢
  rw [hr]

theorem formJob_formed {p : Part} (hp : reqPart d j = .inl p) {e : Dev}
    (hr : formRings j (formDepths d j) (formBase d j p) = some e) : (formJob d j).1 = e.formed j p := by
  unfold formDepths formBase at hr
  rw [formJob, if_neg (formJob_open hj hfree hform), hp]
  dsimp only at hr ⊢
  rw [hr]
  rfl

end

/-- A context of no queue needs no ring. -/
theorem formRings_noQueues (j : Nat) {qs : List (Nat × Nat)} (h : ∀ p ∈ qs, p.2 = 0) (d : Dev) : formRings j qs d = some d := by
  induction qs with
  | nil => rfl
  | cons p qs ih =>
    rw [formRings, if_pos (h p List.mem_cons_self)]
    exact ih fun q hq => h q (List.mem_cons_of_mem p hq)

theorem formDepths_zero {d : Dev} {j : Nat} (h : ∀ q, q < 4 → d.dget (O.QUEUE_DEPTH j q) = 0) : ∀ p ∈ formDepths d j, p.2 = 0 := by
  intro p hp
  obtain ⟨q, hq, hdepth⟩ := List.mem_map.1 (List.of_mem_zip (a := p.1) (b := p.2) hp).2
  rw [← hdepth]
  exact h q (List.mem_range.1 hq)

section
variable (d : Dev) (j : Nat) (p : Part)

theorem formBase_rest : ∃ e : Dev, e.sched = d.sched ∧ e.mem = d.mem ∧ formBase d j p =
    (e.setJob j ({ Job.free with
      baseSet := (d.job j).baseSet, depths := (List.range 4).map (fun q => d.dget (O.QUEUE_DEPTH j q)), owner := d.dget (O.JOB_OWNER j)
      }.withPart p)).setSched (fun s => { s with issued := s.issued.filter (fun e => e.1 != j) }) := by
  refine ⟨_, ?_, ?_, rfl⟩
  · exact (Dev.forEach_keeps Dev.sched (fun d c => d.dset (O.BASELINE j c) 0) (fun _ _ => rfl) _ _).trans (Dev.forEach_keeps Dev.sched Dev.ddef (fun _ _ => rfl) _ d)
  · exact (Dev.forEach_keeps Dev.mem (fun d c => d.dset (O.BASELINE j c) 0) (fun _ _ => rfl) _ _).trans (Dev.forEach_keeps Dev.mem Dev.ddef (fun _ _ => rfl) _ d)

theorem formBase_mem : (formBase d j p).mem = d.mem := by
  obtain ⟨e, -, hmem, heq⟩ := formBase_rest d j p
  rw [heq]
  exact hmem

theorem formBase_job_ne {i : Nat} (hi : i ≠ j) : (formBase d j p).job i = d.job i := by
  obtain ⟨e, hsched, -, heq⟩ := formBase_rest d j p
  rw [heq]
  refine (Dev.job_setJob_ne e _ hi).trans ?_
  rw [Dev.job, hsched]
  rfl

theorem formBase_job_self : (formBase d j p).job j = { Job.free with
    baseSet := (d.job j).baseSet, depths := (List.range 4).map (fun q => d.dget (O.QUEUE_DEPTH j q)), owner := d.dget (O.JOB_OWNER j)
    }.withPart p := by
  obtain ⟨e, -, -, heq⟩ := formBase_rest d j p
  rw [heq]
  exact Dev.job_setJob_self e _ _

theorem Dev.formed_state : (d.formed j p).dget (O.JOB_STATE j) = 1 := Dev.dget_dset_self _ _ _

theorem Dev.formed_reduce : (d.formed j p).dget (O.REDUCE_GRANT j) = p.reduce :=
  (Dev.dget_dset_ne _ _ (by unfold O.REDUCE_GRANT O.JOB_STATE; omega)).trans (Dev.dget_dset_self _ _ _)

theorem Dev.formed_result : (d.formed j p).dget (O.PART_RESULT j) = 0 :=
  (Dev.dget_dset_ne _ _ (by unfold O.PART_RESULT O.JOB_STATE; omega)).trans
    ((Dev.dget_dset_ne _ _ (by unfold O.PART_RESULT O.REDUCE_GRANT; omega)).trans (Dev.dget_dset_self _ _ _))

end

/-! ### SUSPEND, RESUME, DESTROY, REFORM -/

section
variable {d : Dev} {j : Nat}

theorem suspendJob_shut (h : 64 ≤ j ∨ d.dget (O.JOB_STATE j) ≠ 1) : (suspendJob d j).1 = d := by rw [suspendJob, if_pos h]
theorem resumeJob_shut (h : 64 ≤ j ∨ d.dget (O.JOB_STATE j) ≠ 2) : (resumeJob d j).1 = d := by rw [resumeJob, if_pos h]
theorem destroyJob_shut (h : 64 ≤ j ∨ (d.dget (O.JOB_STATE j) ≠ 1 ∧ d.dget (O.JOB_STATE j) ≠ 2)) : (destroyJob d j).1 = d := by
  rw [destroyJob, if_pos h]
theorem reformJob_shut (h : 64 ≤ j ∨ (d.dget (O.JOB_STATE j) ≠ 1 ∧ d.dget (O.JOB_STATE j) ≠ 2)) : (reformJob d j).1 = d := by
  rw [reformJob, if_pos h]

variable (hj : j < 64)
include hj

theorem suspendJob_running (h : d.dget (O.JOB_STATE j) = 1) : (suspendJob d j).1 = settle (d.dset (O.JOB_STATE j) 2) := by
  rw [suspendJob, if_neg (by omega)]

theorem resumeJob_suspended (h : d.dget (O.JOB_STATE j) = 2) : (resumeJob d j).1 =
    settle ((d.dset (O.JOB_STATE j) 1).forEach (((d.job j).places.filterMap (·.phys)).filter
      (fun b => ((d.dset (O.JOB_STATE j) 1).readyJobs b).contains j)) (fun d b => raiseVtime d b j)) := by
  rw [resumeJob, if_neg (by omega)]

theorem destroyJob_held (h : d.dget (O.JOB_STATE j) = 1 ∨ d.dget (O.JOB_STATE j) = 2) : (destroyJob d j).1 =
    settle ((destroyGrants (destroySegs (destroyLoop (destroySems (destroyWaves (destroyWork d j) j) j) j) j) j).dset
      (O.JOB_STATE j) 3) := by
  rw [destroyJob, if_neg (by omega)]

theorem reformJob_none (h : d.dget (O.JOB_STATE j) = 1 ∨ d.dget (O.JOB_STATE j) = 2) {r : Nat} (hr : reqPart d j = .inr r) :
    (reformJob d j).1 = d.dset (O.PART_RESULT j) r := by
  rw [reformJob, if_neg (by omega), hr]

theorem reformJob_accepted (h : d.dget (O.JOB_STATE j) = 1 ∨ d.dget (O.JOB_STATE j) = 2) {p : Part} (hp : reqPart d j = .inl p) :
    (reformJob d j).1 = settle (holdUnstarted ((d.dset (O.PART_RESULT j) 0).modJob j (fun x => { x with reform := some p })) j) := by
  rw [reformJob, if_neg (by omega), hp]

end

/-! ### REFORM_TAKE_EFFECT -/

theorem reformTake_none {d : Dev} {j : Nat} (h : (d.job j).reform = none) : reformTake j d = d := by rw [reformTake, h]

theorem reformTake_early {d : Dev} {j : Nat} (h : ∃ x ∈ d.sched.flights, x.job = j ∧ x.waiting = false ∧ x.done = none) :
    reformTake j d = d := by
  unfold reformTake
  split
  · rfl
  · obtain ⟨x, hx, hjob, hwaiting, hdone⟩ := h
    exact if_pos (List.any_eq_true.2 ⟨x, hx, by simp [hjob, hwaiting, hdone]⟩)

/-! ### BASELINE_WRITE -/

/-- A job's records of a class after a write of its baseline. -/
def Job.withBaseline (x : Job) (c v : Nat) : Job := { x with
  hist := x.hist.filter (fun p => p.1 != c)
  baseSet := if v = 0 then x.baseSet.filter (fun k => k != c) else (x.baseSet.filter (fun k => k != c)) ++ [c]
  slow := if v = 0 then x.slow.filter (fun p => p.1 != c) else x.slow }

theorem Job.mem_withBaseline (x : Job) (c v : Nat) : c ∈ (x.withBaseline c v).baseSet ↔ v ≠ 0 := by
  unfold Job.withBaseline
  dsimp only
  split <;> simp_all

section
variable (d : Dev) {j c v : Nat}

theorem baselineWrite_shut (h : 64 ≤ j ∨ 16 ≤ c ∨ 2 ^ 32 ≤ v) : baselineWrite j c v d = d := by rw [baselineWrite, if_pos h]

variable (hj : j < 64) (hc : c < 16) (hv : v < 2 ^ 32)
include hj hc hv

omit hv in
theorem baselineWrite_zero (h0 : v = 0) : baselineWrite j c v d =
    (((d.dset (O.BASELINE j c) v).modJob j (fun x => x.withBaseline c v)).dset (O.SLOWDOWN j c) 0) := by
  rw [baselineWrite, if_neg (by omega)]
  exact if_pos h0

theorem baselineWrite_value (h0 : v ≠ 0) : baselineWrite j c v d =
    (d.dset (O.BASELINE j c) v).modJob j (fun x => x.withBaseline c v) := by
  rw [baselineWrite, if_neg (by omega)]
  exact if_neg h0

theorem baselineWrite_effect :
    (baselineWrite j c v d).dget (O.BASELINE j c) = v ∧ (v = 0 → (baselineWrite j c v d).dget (O.SLOWDOWN j c) = 0) ∧
    (v ≠ 0 → (baselineWrite j c v d).dget (O.SLOWDOWN j c) = d.dget (O.SLOWDOWN j c)) ∧
    (c ∈ ((baselineWrite j c v d).job j).baseSet ↔ v ≠ 0) ∧ (baselineWrite j c v d).mem = d.mem := by
  have hkeys : O.BASELINE j c ≠ O.SLOWDOWN j c := by unfold O.BASELINE O.SLOWDOWN; omega
  have hset : ((d.dset (O.BASELINE j c) v).modJob j (fun x => x.withBaseline c v)).dget (O.BASELINE j c) = v :=
    Dev.dget_dset_self d _ _
  have hmem : c ∈ (((d.dset (O.BASELINE j c) v).modJob j (fun x => x.withBaseline c v)).job j).baseSet ↔ v ≠ 0 := by
    rw [Dev.modJob, Dev.job_setJob_self]
    exact Job.mem_withBaseline _ c v
  by_cases h0 : v = 0
  · rw [baselineWrite_zero d hj hc h0]
    exact ⟨(Dev.dget_dset_ne _ _ hkeys).trans hset, fun _ => Dev.dget_dset_self _ _ _, fun h => absurd h0 h, hmem, rfl⟩
  · rw [baselineWrite_value d hj hc hv h0]
    exact ⟨hset, fun h => absurd h h0, fun _ => Dev.dget_dset_ne d _ hkeys.symm, hmem, rfl⟩

end

/-! ### TENANCY_SWITCH -/

section
variable {d : Dev} {b : Nat} (cycles : Nat)

theorem tenancySwitch_idle (h : d.tenant b = none) : tenancySwitch b cycles d = settle (giveTenancy d b) := by rw [tenancySwitch, h]

theorem tenancySwitch_busy {t : Nat × Nat} (h : d.tenant b = some t) (hbusy : tenantBusy d b t = true) :
    tenancySwitch b cycles d = d := by
  rw [tenancySwitch, h]
  exact if_pos hbusy

theorem tenancySwitch_over {t : Nat × Nat} (h : d.tenant b = some t) (hbusy : tenantBusy d b t = false) :
    tenancySwitch b cycles d = settle (giveTenancy ((d.setVtime b t.1
      (d.vtime b t.1 + cycles * 256 / Nat.max 1 (d.job t.1).weight)).setTenant b none) b) := by
  rw [tenancySwitch, h]
  exact if_neg (by rw [hbusy]; decide)

end

/-- Settles O55. That PART_RESULT shows the reason of a REFORM too, and that a FORM keeps the baselines written before it, is
log 93; that VTIME is rounded down is log 105. -/
theorem jobCommandsTakeEffect : Obligations.JobCommandsTakeEffect := by
  unfold Obligations.JobCommandsTakeEffect
  refine ⟨fun s j hj hfree hform => ⟨fun r hr => ?_, fun p hp => ⟨fun hr => ?_, fun e hr => ?_⟩, fun p hp hdepths => ?_⟩,
    fun s j hj => ⟨?_, ?_, ?_, ?_, ?_⟩, fun s j hj => ?_, fun s j => ⟨fun h => ?_, fun h => ?_, fun p hp hdone => ?_⟩,
    fun s j c v hj hc hv => ?_, fun s j c v h => ?_, fun s b cycles => ⟨fun h => ?_, fun t ht => ⟨fun hbusy => ?_, fun hidle => ?_⟩⟩⟩
  · exact next_dev (formJob_none hj hfree hform hr)
  · exact next_dev (formJob_noRings hj hfree hform hp hr)
  · exact next_dev (formJob_formed hj hfree hform hp hr)
  · have hrings := formRings_noQueues j (formDepths_zero hdepths) (formBase s.dev j p)
    have hself := formBase_job_self s.dev j p
    refine ⟨_, next_dev (formJob_formed hj hfree hform hp hrings), Dev.formed_state _ j p, Dev.formed_result _ j p,
      Dev.formed_reduce _ j p, congrArg Job.places hself, congrArg Job.slots hself, congrArg Job.opb hself,
      congrArg Job.progs hself, congrArg Job.prio hself, congrArg Job.weight hself, congrArg Job.pipes hself,
      fun i hi => formBase_job_ne s.dev j p hi, formBase_mem s.dev j p⟩
  · exact next_dev (formJob_shut (.inl hj))
  · exact next_dev (suspendJob_shut (.inl hj))
  · exact next_dev (resumeJob_shut (.inl hj))
  · exact next_dev (destroyJob_shut (.inl hj))
  · exact next_dev (reformJob_shut (.inl hj))
  · exact ⟨fun h => next_dev (formJob_shut (.inr h)), fun h => next_dev (suspendJob_shut (.inr h)),
      fun h => next_dev (resumeJob_shut (.inr h)),
      fun h1 h2 => ⟨next_dev (destroyJob_shut (.inr ⟨h1, h2⟩)), next_dev (reformJob_shut (.inr ⟨h1, h2⟩))⟩,
      fun h => next_dev (suspendJob_running hj h), fun h => next_dev (resumeJob_suspended hj h),
      fun h => ⟨next_dev (destroyJob_held hj h), fun r hr => next_dev (reformJob_none hj h hr),
        fun p hp => next_dev (reformJob_accepted hj h hp)⟩⟩
  · exact next_dev (reformTake_none h)
  · exact next_dev (reformTake_early h)
  · have hnone : s.dev.sched.flights.any (fun x => x.job == j && !x.waiting && x.done.isNone) = false := by
      refine List.any_eq_false.2 fun x hx hbad => ?_
      simp only [Bool.and_eq_true, beq_iff_eq, Bool.not_eq_true', Option.isNone_iff_eq_none] at hbad
      rcases hdone x hx hbad.1.1 with hw | hd
      · exact absurd (hw.symm.trans hbad.1.2) (by decide)
      · exact hd hbad.2
    refine next_dev ?_
    rw [reformTake, hp]
    exact if_neg (by rw [hnone]; decide)
  · exact ⟨_, rfl, baselineWrite_effect s.dev hj hc hv⟩
  · exact next_dev (baselineWrite_shut s.dev h)
  · exact next_dev (tenancySwitch_idle cycles h)
  · exact next_dev (tenancySwitch_busy cycles ht hbusy)
  · exact next_dev (tenancySwitch_over cycles ht hidle)

end Sys2Proof.Machine
end

section
/-! Chodal packets (R452 to R462): what each operation answers, what a malformed packet does, the persisted copy, and the
port's own protocols. -/

namespace Sys2Proof.Machine

open Sys2Proof.Laws

/-! ### Which command a packet is -/

/-- The four operations by OP. -/
def opCmds (src : ChodalSrc) (pkt : Bytes) : List (Nat × Instr) :=
  [(1, Instr.chodalGet src pkt), (2, .chodalSet src pkt), (3, .chodalGetPart src pkt), (4, .chodalList src pkt)]

theorem exec_opCmd {src : ChodalSrc} {pkt : Bytes} {c : Nat × Instr} (hc : c ∈ opCmds src pkt) (s : State) :
    exec c.2 s = .next (packetIf (isOp pkt c.1) src pkt s) := by
  simp only [opCmds, List.mem_cons, List.not_mem_nil, or_false] at hc
  rcases hc with rfl | rfl | rfl | rfl <;> rfl

theorem isOp_iff {pkt : Bytes} {op : Nat} : isOp pkt op = true ↔ ∃ its, PacketOf pkt op its := by
  simp only [isOp, PacketOf, Bool.and_eq_true, decide_eq_true_eq, beq_iff_eq, Option.isSome_iff_exists]
  constructor
  · rintro ⟨⟨⟨⟨hlo, hhi⟩, hver⟩, its, hits⟩, hop⟩
    exact ⟨its, hlo, hhi, hver, hop, hits⟩
  · rintro ⟨its, hlo, hhi, hver, hop, hits⟩
    exact ⟨⟨⟨⟨hlo, hhi⟩, hver⟩, its, hits⟩, hop⟩

/-- The packet is of some operation. -/
def anyOp (pkt : Bytes) : Bool := isOp pkt 1 || isOp pkt 2 || isOp pkt 3 || isOp pkt 4

theorem anyOp_iff {pkt : Bytes} : anyOp pkt = true ↔ (8 ≤ pkt.length ∧ pkt.length ≤ 1024) ∧
    (leAt pkt 0 1 = 1 ∧ ckItems (leAt pkt 4 2) (pkt.drop 8) ≠ none) ∧ 1 ≤ leAt pkt 1 1 ∧ leAt pkt 1 1 ≤ 4 := by
  simp only [anyOp, isOp, Bool.or_eq_true, Bool.and_eq_true, decide_eq_true_eq, beq_iff_eq, ← Option.isSome_iff_ne_none]
  constructor
  · rintro (((h | h) | h) | h) <;> exact ⟨h.1.1.1, ⟨h.1.1.2, h.1.2⟩, by omega⟩
  · rintro ⟨hsized, ⟨hver, hits⟩, hop⟩
    have : leAt pkt 1 1 = 1 ∨ leAt pkt 1 1 = 2 ∨ leAt pkt 1 1 = 3 ∨ leAt pkt 1 1 = 4 := by omega
    simpa [hsized, hver, hits, or_assoc] using this

theorem exec_malformedPacket (src : ChodalSrc) (pkt : Bytes) (s : State) :
    exec (.malformedPacket src pkt) s = .next (packetIf (!anyOp pkt) src pkt s) := rfl

/-! ### One packet -/

section
variable {s : State} {src : ChodalSrc} {pkt : Bytes}

theorem packet_asleep (h : s.dev.sec.running = false) : packet s src pkt = s := by simp [packet, h]

theorem packetIf_asleep (c : Bool) (h : s.dev.sec.running = false) : packetIf c src pkt s = s := by
  unfold packetIf
  split
  · exact packet_asleep h
  · rfl

theorem packet_long (hrun : s.dev.sec.running = true) (h : 1024 < pkt.length) :
    packet s src pkt = { s with dev := s.dev.bump O.PKTS_MALFORMED } := by simp [packet, hrun, h]

theorem packet_short (h : pkt.length < 8) : packet s src pkt = s := by
  have hlong : ¬1024 < pkt.length := by omega
  simp [packet, h, hlong]

section
variable (hrun : s.dev.sec.running = true) (hlo : 8 ≤ pkt.length) (hhi : pkt.length ≤ 1024)
include hrun hlo hhi

/-- A packet of a legal size is counted; behind one that waits it waits. -/
theorem packet_queued (h : s.dev.mgmt.waiting ≠ []) : packet s src pkt = waitPacket (counted s) src pkt := by
  simp [packet, hrun, not_lt.2 hlo, not_lt.2 hhi, h, counted]

theorem packet_next (h : s.dev.mgmt.waiting = []) : packet s src pkt = handle (counted s) src pkt := by
  simp [packet, hrun, not_lt.2 hlo, not_lt.2 hhi, h, counted]

end

theorem handle_cached {bs : Bytes} (h : cached s.dev src pkt = some bs) :
    handle s src pkt = { s with dev := sendReply (s.dev.bump O.REPLIES_CACHED) src bs } := by rw [handle, h]

section
variable (h : cached s.dev src pkt = none)
include h

theorem handle_bad (hbad : leAt pkt 0 1 ≠ 1 ∨ ckItems (leAt pkt 4 2) (pkt.drop 8) = none) :
    handle s src pkt = { s with dev := reply (s.dev.bump O.PKTS_MALFORMED) src pkt (replyHdr pkt 0 ckRange) } := by
  have hnone : (if leAt pkt 0 1 = 1 then ckItems (leAt pkt 4 2) (pkt.drop 8) else none) = none := by
    split
    · next hver => exact hbad.resolve_left (not_not.2 hver)
    · rfl
  rw [handle, h]
  dsimp only
  rw [hnone]

variable {its : List CkItem} (hver : leAt pkt 0 1 = 1) (hits : ckItems (leAt pkt 4 2) (pkt.drop 8) = some its)
include hver hits

theorem handle_get (hop : leAt pkt 1 1 = 1) : handle s src pkt = readPacket s src pkt its getItem := by
  simp [handle, h, hver, hits, hop]

theorem handle_set (hop : leAt pkt 1 1 = 2) : handle s src pkt = setPacket s src pkt its := by
  simp [handle, h, hver, hits, hop]

theorem handle_getPart (hop : leAt pkt 1 1 = 3) : handle s src pkt = readPacket s src pkt its partItem := by
  simp [handle, h, hver, hits, hop]

theorem handle_list (hop : leAt pkt 1 1 = 4) : handle s src pkt = readPacket s src pkt its listItem := by
  simp [handle, h, hver, hits, hop]

theorem handle_otherOp (hop : leAt pkt 1 1 = 0 ∨ 4 < leAt pkt 1 1) :
    handle s src pkt = { s with dev := reply s.dev src pkt (replyHdr pkt 0 ckRange) } := by
  rw [handle, h]
  dsimp only
  rw [if_pos hver, hits]
  dsimp only
  split
  · omega
  · omega
  · omega
  · omega
  · rfl

end

end

/-! ### Fresh packets -/

/-- A fresh packet of an operation is handled, counted. -/
theorem exec_fresh {s : State} {src : ChodalSrc} {pkt : Bytes} {its : List CkItem} {c : Nat × Instr} (hc : c ∈ opCmds src pkt)
    (hf : FreshPacket s src pkt c.1 its) : exec c.2 s = .next (handle (counted s) src pkt) := by
  obtain ⟨hrun, hwait, -, hlo, hhi, hver, hop, hits⟩ := hf
  rw [exec_opCmd hc, packetIf, if_pos (isOp_iff.2 ⟨its, hlo, hhi, hver, hop, hits⟩), packet_next hrun hlo hhi hwait]

theorem readPacket_eq (s : State) (src : ChodalSrc) (pkt : Bytes) (its : List CkItem) (f : Gather → CkItem → Gather) :
    readPacket s src pkt its f =
      let g := its.foldl f ⟨[], ckOk, s⟩
      if mayRead s.dev src then { g.s with dev := reply g.s.dev src pkt (replyHdr pkt its.length g.st ++ g.out) }
      else { s with dev := s.dev.bump O.WRITES_DENIED } := by
  unfold readPacket
  cases mayRead s.dev src <;> rfl

section
variable {s : State} {src : ChodalSrc} {pkt : Bytes} {its : List CkItem}

theorem exec_get_fresh (hf : FreshPacket s src pkt 1 its) :
    exec (.chodalGet src pkt) s = .next (readPacket (counted s) src pkt its getItem) := by
  rw [exec_fresh (c := (1, .chodalGet src pkt)) (by simp [opCmds]) hf]
  obtain ⟨-, -, hcache, -, -, hver, hop, hits⟩ := hf
  exact congrArg _ (handle_get (s := counted s) hcache hver hits hop)

theorem exec_getPart_fresh (hf : FreshPacket s src pkt 3 its) :
    exec (.chodalGetPart src pkt) s = .next (readPacket (counted s) src pkt its partItem) := by
  rw [exec_fresh (c := (3, .chodalGetPart src pkt)) (by simp [opCmds]) hf]
  obtain ⟨-, -, hcache, -, -, hver, hop, hits⟩ := hf
  exact congrArg _ (handle_getPart (s := counted s) hcache hver hits hop)

theorem exec_list_fresh (hf : FreshPacket s src pkt 4 its) :
    exec (.chodalList src pkt) s = .next (readPacket (counted s) src pkt its listItem) := by
  rw [exec_fresh (c := (4, .chodalList src pkt)) (by simp [opCmds]) hf]
  obtain ⟨-, -, hcache, -, -, hver, hop, hits⟩ := hf
  exact congrArg _ (handle_list (s := counted s) hcache hver hits hop)

theorem exec_set_fresh (hf : FreshPacket s src pkt 2 its) :
    exec (.chodalSet src pkt) s = .next (setPacket (counted s) src pkt its) := by
  rw [exec_fresh (c := (2, .chodalSet src pkt)) (by simp [opCmds]) hf]
  obtain ⟨-, -, hcache, -, -, hver, hop, hits⟩ := hf
  exact congrArg _ (handle_set (s := counted s) hcache hver hits hop)

theorem setPacket_waits (hw : mayWrite s.dev src = true) (hm : mustWait s.dev its = true) :
    setPacket s src pkt its = waitPacket s src pkt := by simp [setPacket, hw, hm]

theorem setPacket_denied (hw : mayWrite s.dev src = false) : setPacket s src pkt its =
    { s with dev := reply (s.dev.bump O.WRITES_DENIED) src pkt (setReply pkt its (its.map (fun _ => ckDenied))) } := by
  simp [setPacket, hw]

end

/-! ### The items of a SET -/

section
variable {s : State} {its : List CkItem} {atomic : Bool}

theorem setAll_failing (h : atomic = true ∧ (setItems its s).1.any (· != ckOk) = true) :
    setAll s its atomic = ((setItems its s).1.map (fun st => if st = ckOk then ckNotApplied else st), s) := by
  rw [setAll]
  exact if_pos (by rw [h.1, h.2]; rfl)

variable (h : ¬(atomic = true ∧ (setItems its s).1.any (· != ckOk) = true))
include h

theorem setAll_passing : setAll s its atomic =
    if (its.zip (setItems its s).1).any (fun p => itemRwp p.1 && p.2 == ckOk) then
      if copyWorn s.dev then setUnstored s its (setItems its s).1 atomic
      else ((setItems its s).1, { (setItems its s).2 with dev := persist (setItems its s).2.dev })
    else setItems its s := by
  rw [setAll]
  exact if_neg (by simpa using h)

end

/-! ### PERSIST_ERASE_DONE -/

theorem persistErased_idle {s : State} (h : s.dev.mgmt.erasing = false) : persistErased s = s := by simp [persistErased, h]

/-- The state with one copy erased and nothing waiting. -/
def copyErased (s : State) : State := { s with dev := { s.dev with mgmt := { copiesErased s.dev.mgmt with waiting := [] } } }

theorem persistErased_running {s : State} (h : s.dev.mgmt.erasing = true) : persistErased s =
    s.dev.mgmt.waiting.foldl (fun s p => if s.dev.mgmt.waiting ≠ [] then waitPacket s p.1 p.2 else handle s p.1 p.2) (copyErased s) := by
  rw [persistErased, h]
  rfl

/-- Settles O52. What the port's own protocols carry is log 80; that packets behind a waiting one wait, that the cache goes before
the check of a malformed packet, and that ATOMIC finds out by a trial are log 114; PERSIST_FAIL of a worn sector is log 144. -/
theorem packetsAreAnswered : Obligations.PacketsAreAnswered := by
  unfold Obligations.PacketsAreAnswered
  refine ⟨fun s src pkt its => ⟨fun hf => ?_, fun hf => ?_, fun hf => ?_, fun hf => ⟨fun hw hm => ?_, fun hw hm => ?_, fun hw => ?_⟩⟩,
    fun s src pkt op i hi => ⟨fun its hp => ?_, fun hno => ?_⟩, fun s its atomic => ?_, fun s src pkt => ?_,
    fun s => ⟨fun h => ⟨?_, fun hw => ?_, fun src pkt hw => ?_⟩, fun h => ?_⟩, fun s mac pkt => ?_⟩
  · rw [exec_get_fresh hf, readPacket_eq]
  · rw [exec_getPart_fresh hf, readPacket_eq]
  · rw [exec_list_fresh hf, readPacket_eq]
  · exact exec_chodalSet_fresh hf hw hm
  · rw [exec_set_fresh hf, setPacket_waits hw hm]
  · rw [exec_set_fresh hf, setPacket_denied hw]
  · have hexec := exec_opCmd hi s
    have ⟨hlo, hhi, _⟩ := hp
    rw [packetIf, if_pos (isOp_iff.2 ⟨its, hp⟩)] at hexec
    refine ⟨fun hrun => ?_, fun hrun hwait => ?_, fun bs hrun hwait hcache => ?_⟩
    · rw [hexec, packet_asleep hrun]
    · rw [hexec, packet_queued hrun hlo hhi hwait]
    · rw [hexec, packet_next hrun hlo hhi hwait, handle_cached (s := counted s) hcache]
      rfl
  · rw [exec_opCmd hi, packetIf, if_neg (fun h => hno (isOp_iff.1 h))]
  · refine ⟨fun hfail => ?_, fun hpass hstores => ?_, fun hpass hstores hworn => ?_, fun hpass hstores hworn => ?_⟩
    · rw [setAll_failing hfail]
      exact ⟨rfl, rfl⟩
    · rw [setAll_passing hpass, if_neg hstores]
    · rw [setAll_passing hpass, if_pos hstores, hworn]
      rfl
    · rw [setAll_passing hpass, if_pos hstores, hworn]
      rfl
  · intro bad other sized
    have hshut : ∀ {P : Prop}, (anyOp pkt = true → ¬P) → P → packetIf (!anyOp pkt) src pkt s = packet s src pkt := by
      intro P hno hP
      rw [packetIf, if_pos]
      simpa using fun h : anyOp pkt = true => hno h hP
    have hform : bad ∨ other → packetIf (!anyOp pkt) src pkt s = packet s src pkt := hshut fun hany => by
      obtain ⟨-, ⟨hver, hits⟩, hop⟩ := anyOp_iff.1 hany
      rintro ((hb | hb) | hb)
      · exact hb hver
      · exact hits hb
      · omega
    refine ⟨fun hrun => ?_, fun hrun hlong => ?_, fun hshort => ?_, fun ⟨hrun, hlo, hhi⟩ hbad hwait => ?_,
      fun bs ⟨hrun, hlo, hhi⟩ hbad hwait hcache => ?_, fun ⟨hrun, hlo, hhi⟩ hwait hcache => ⟨fun hbad => ?_, fun hgood hother => ?_⟩,
      fun ⟨hrun, hlo, hhi⟩ hgood hop => ?_⟩
    · rw [exec_malformedPacket, packetIf_asleep _ hrun]
    · rw [exec_malformedPacket, hshut (fun hany => by have := (anyOp_iff.1 hany).1; omega) hlong, packet_long hrun hlong]
    · rw [exec_malformedPacket, hshut (fun hany => by have := (anyOp_iff.1 hany).1; omega) hshort, packet_short hshort]
    · rw [exec_malformedPacket, hform hbad, packet_queued hrun hlo hhi hwait]
    · rw [exec_malformedPacket, hform hbad, packet_next hrun hlo hhi hwait, handle_cached (s := counted s) hcache]
      rfl
    · rw [exec_malformedPacket, hform (.inl hbad), packet_next hrun hlo hhi hwait, handle_bad (s := counted s) hcache hbad]
      rfl
    · have hver : leAt pkt 0 1 = 1 := not_not.1 fun h => hgood (.inl h)
      obtain ⟨its, hits⟩ := Option.ne_none_iff_exists'.1 fun h => hgood (.inr h)
      rw [exec_malformedPacket, hform (.inr hother), packet_next hrun hlo hhi hwait,
        handle_otherOp (s := counted s) hcache hver hits hother]
      rfl
    · have hany : anyOp pkt = true := anyOp_iff.2 ⟨⟨hlo, hhi⟩, ⟨not_not.1 fun h => hgood (.inl h), fun h => hgood (.inr h)⟩,
        Nat.one_le_iff_ne_zero.2 fun h => hop (.inl h), not_lt.1 fun h => hop (.inr h)⟩
      rw [exec_malformedPacket, hany]
      rfl
  · exact congrArg _ (persistErased_running h)
  · refine congrArg _ ((persistErased_running h).trans ?_)
    rw [hw]
    rfl
  · refine congrArg _ ((persistErased_running h).trans ?_)
    rw [hw]
    rfl
  · exact congrArg _ (persistErased_idle h)
  · intro ip named asked
    refine ⟨fun hrun => ⟨next_dev (if_pos hrun), next_dev (if_pos hrun)⟩, fun hrun => ⟨next_dev ?_, next_dev ?_⟩,
      fun h => next_dev (if_pos h), fun h => next_dev (if_neg h), fun h => next_dev (if_pos h), fun h => next_dev (if_neg h)⟩
    · rw [hrun]; rfl
    · rw [hrun]; rfl

end Sys2Proof.Machine
end

section
/-! Writing and reading back (R446 to R449): where the objects that may be both read and written lie, and what a write of one of
them leaves for the next read. -/

namespace Sys2Proof.Machine

open Sys2Proof.Laws

/-! ### Where the writable numeric objects lie -/

/-- A rectangle of objects: its first index, how many, its first and its last sub-index. -/
abbrev Rect : Type := Nat × Nat × Nat × Nat

/-- One object. -/
def Rect.point (k : Nat) : Rect := (k / 256, 1, k % 256, k % 256)

/-- An object lies in a rectangle. -/
def Rect.holds (r : Rect) (i sub : Nat) : Prop := r.1 ≤ i ∧ i < r.1 + r.2.1 ∧ r.2.2.1 ≤ sub ∧ sub ≤ r.2.2.2

/-- Objects with a rule of their own that may not be both written and read: commands, states that another part keeps, counters
that no command measures, challenges, and the vendor range. -/
def oneWayObjects : List Rect :=
  [Rect.point O.LULL_CMD, Rect.point O.RECORDER_CMD, Rect.point O.ALERT_CLEAR, Rect.point O.FW_UPDATE_CMD, Rect.point O.MGMT_MAC,
   Rect.point O.SLOW_FREE, Rect.point O.SEM_STATE, Rect.point O.FREEZE_HELD, Rect.point O.OLDEST_SEQ, Rect.point O.MIN_SVN,
   Rect.point O.KEYS_REVOKED, Rect.point O.DEBUG_OPENED, Rect.point O.ATTEST_REPORT, Rect.point O.UNLOCK_CHALLENGE,
   (0x4001, 1, 0, 255), (0x5100, 64, 2, 2), (0x8100, 64, 0x30, 0x30), (0x8100, 64, 0x32, 0xFF), (0x5300, 64, 0x21, 0x26),
   (0x4201, 63, 0x0B, 0x0C), (0x9000, 0x1000, 0, 255)]

/-- A row of a table meets a rectangle. -/
def Obj.meets (o : Obj) (r : Rect) : Bool :=
  decide (o.base < r.1 + r.2.1 ∧ r.1 < o.base + o.n ∧ o.lo ≤ r.2.2.2 ∧ r.2.2.1 ≤ o.hi)

/-- A numeric row that may be read and written. -/
def Obj.settable (o : Obj) : Bool := (o.acc == 1 || o.acc == 3) && o.ty != 7 && o.ty != 8

theorem settable_rows : ∀ o ∈ objTable, o.settable = true → (1 ≤ o.lo ∧ o.hi < 256) ∧
    (∀ r ∈ oneWayObjects, o.meets r = false) ∧ (o.meets (0x5300, 64, 1, 0x10) = true → tyBytes o.ty = 4) ∧
    (o.meets (0x8100, 64, 0x31, 0x31) = true → o.ty = 6) := by
  decide +kernel

theorem objsOf_subset (i : Nat) : ∀ o ∈ objsOf i, o ∈ objTable := by
  unfold objsOf objTable
  split <;> simp +contextual [or_imp]

theorem objFind_row {i sub : Nat} {o : Obj} (h : objFind i sub = some o) :
    o ∈ objTable ∧ o.base ≤ i ∧ i < o.base + o.n ∧ o.lo ≤ sub ∧ sub ≤ o.hi :=
  ⟨objsOf_subset i o (List.mem_of_find?_eq_some h), by simpa using List.find?_some h⟩

/-- A rectangle that an object of the row lies in meets the row. -/
theorem Obj.meets_of_holds {i sub : Nat} {o : Obj} (h : objFind i sub = some o) {r : Rect} (hr : r.holds i sub) :
    o.meets r = true := by
  obtain ⟨-, hbase, hn, hlo, hhi⟩ := objFind_row h
  obtain ⟨hfirst, hlast, hmin, hmax⟩ := hr
  exact decide_eq_true ⟨by omega, by omega, by omega, by omega⟩

/-- Object (i, sub) is a numeric one of row `o` that may be read and written. -/
structure SettableAt (i sub : Nat) (o : Obj) : Prop where
  found : objFind i sub = some o
  settable : o.settable = true

/-- FROZEN of a group at the next step boundary. -/
def Dev.freezeNext (d : Dev) (g : Nat) (b : Bool) : Dev :=
  d.setRed (fun r => { r with frozenNext := r.frozenNext.filter (fun p => p.1 != g) ++ [(g, b)] })

/-- The value that takes effect at the boundary is the one that GROUP_FROZEN reads. -/
theorem groupObject_freezeNext {d : Dev} {j g v : Nat} (hv : v ≤ 1) (hg : selectedGroup d j = some g) :
    groupObject (d.freezeNext g (v == 1)) j 0x31 = v := by
  have hg' : selectedGroup (d.freezeNext g (v == 1)) j = some g := hg
  have hnext : ((d.freezeNext g (v == 1)).red.frozenNext.find? (fun p => p.1 == g)).map (·.2) = some (v == 1) := by
    show ((d.red.frozenNext.filter (fun p => p.1 != g) ++ [(g, v == 1)]).find? (fun p => p.1 == g)).map (·.2) = _
    have hnone : (d.red.frozenNext.filter (fun p => p.1 != g)).find? (fun p => p.1 == g) = none := by
      simp [List.find?_eq_none]
    rw [List.find?_append, hnone]
    simp
  have hbit : bool01 (v == 1) = v := by
    interval_cases v <;> rfl
  rw [groupObject, hg']
  dsimp only
  rw [if_neg (by decide), if_pos rfl, hnext]
  exact hbit

theorem numValue_semJobs (s : State) : numValue s O.SEM_JOBS = (s.dev.sem (s.dev.dget O.SEM_SELECT)).jobs := rfl

/-- A write of GROUP_FROZEN. -/
def freezeSelected (s : State) (j v : Nat) : Nat × State :=
  match selectedGroup s.dev j with
  | some g => (ckOk, { s with dev := s.dev.freezeNext g (v == 1) })
  | none => (ckRange, s)

namespace SettableAt

variable {i sub : Nat} {o : Obj} (h : SettableAt i sub o)
include h

theorem sub_bounds : 1 ≤ sub ∧ sub < 256 := by
  obtain ⟨hmem, -, -, hlo, hhi⟩ := objFind_row h.found
  have := (settable_rows o hmem h.settable).1
  omega

theorem apart {r : Rect} (hr : r ∈ oneWayObjects) : ¬r.holds i sub := fun hin => by
  have hmeets := (settable_rows o (objFind_row h.found).1 h.settable).2.1 r hr
  rw [Obj.meets_of_holds h.found hin] at hmeets
  exact absurd hmeets (by decide)

theorem key_ne {k : Nat} (hk : Rect.point k ∈ oneWayObjects) : i * 256 + sub ≠ k := by
  rintro rfl
  have := h.sub_bounds
  refine h.apart hk ?_
  simp only [Rect.point, Rect.holds]
  omega

theorem key_div : (i * 256 + sub) / 256 = i := by have := h.sub_bounds; omega
theorem key_mod : (i * 256 + sub) % 256 = sub := by have := h.sub_bounds; omega

theorem not_vendor : vendorRange i = false := by
  have hout := h.apart (r := (0x9000, 0x1000, 0, 255)) (by simp [oneWayObjects])
  have := h.sub_bounds
  simp only [Rect.holds] at hout
  unfold vendorRange
  exact decide_eq_false (by omega)

/-- A baseline is a U32. -/
theorem baseline_bytes (hi : 0x5300 ≤ i ∧ i < 0x5340) (hsub : sub ≤ 0x10) : tyBytes o.ty = 4 :=
  (settable_rows o (objFind_row h.found).1 h.settable).2.2.1
    (Obj.meets_of_holds h.found ⟨hi.1, hi.2, h.sub_bounds.1, hsub⟩)

/-- GROUP_FROZEN is a BOOL. -/
theorem frozen_type (hi : 0x8100 ≤ i ∧ i < 0x8140) (hsub : sub = 0x31) : o.ty = 6 :=
  (settable_rows o (objFind_row h.found).1 h.settable).2.2.2
    (Obj.meets_of_holds h.found ⟨hi.1, hi.2, hsub.ge, hsub.le⟩)

theorem access : o.acc ≠ 0 ∧ o.acc ≠ 2 ∧ o.ty ≠ 7 ∧ o.ty ≠ 8 := by
  have := h.settable
  simp only [Obj.settable, Bool.and_eq_true, Bool.or_eq_true, beq_iff_eq, bne_iff_ne] at this
  obtain ⟨⟨hacc, h7⟩, h8⟩ := this
  exact ⟨by omega, by omega, h7, h8⟩

theorem measured : unmeasured (i * 256 + sub) = false := by
  have hcount := h.apart (r := (0x5300, 64, 0x21, 0x26)) (by simp [oneWayObjects])
  have hmem := h.apart (r := (0x4201, 63, 0x0B, 0x0C)) (by simp [oneWayObjects])
  simp only [Rect.holds] at hcount hmem
  unfold unmeasured
  rw [h.key_div, h.key_mod]
  simp only [List.contains_cons, List.contains_nil, Bool.or_false, Bool.or_eq_false_iff, Bool.and_eq_false_iff, beq_eq_false_iff_ne,
    decide_eq_false_iff_not]
  omega

/-! ### Reading -/

theorem readObject_eq (s : State) : readObject s i sub =
    ⟨ckOk, o.ty, leBytes (tyBytes o.ty) (numValue s (i * 256 + sub)), s⟩ := by
  obtain ⟨-, hacc, h7, h8⟩ := h.access
  have hsub := h.sub_bounds
  have hreport := h.key_ne (k := O.ATTEST_REPORT) (by simp [oneWayObjects])
  have hchallenge := h.key_ne (k := O.UNLOCK_CHALLENGE) (by simp [oneWayObjects])
  rw [readObject, h.not_vendor, if_neg Bool.false_ne_true, if_neg (by omega), h.found]
  dsimp only
  rw [if_neg hacc, if_neg (fun hr => hreport hr.1), if_neg hchallenge, h.measured, if_neg Bool.false_ne_true,
    if_neg (by omega)]

/-- What an object reads that no part but the dictionary keeps. -/
theorem numValue_eq_dget (hcal : i * 256 + sub ≠ O.CALENDAR_TIME) (hjobs : i * 256 + sub ≠ O.SEM_JOBS)
    (hfrozen : ¬(0x8100 ≤ i ∧ i < 0x8140 ∧ sub = 0x31)) (s : State) : numValue s (i * 256 + sub) = s.dev.dget (i * 256 + sub) := by
  have hfree := h.apart (r := (0x4001, 1, 0, 255)) (by simp [oneWayObjects])
  have hstate := h.apart (r := (0x8100, 64, 0x30, 0x30)) (by simp [oneWayObjects])
  have hshard := h.apart (r := (0x8100, 64, 0x32, 0xFF)) (by simp [oneWayObjects])
  have hsub := h.sub_bounds
  simp only [Rect.holds] at hfree hstate hshard
  rw [numValue, h.key_div, h.key_mod, if_neg hcal, if_neg (h.key_ne (k := O.MGMT_MAC) (by simp [oneWayObjects])),
    if_neg (h.key_ne (k := O.SLOW_FREE) (by simp [oneWayObjects])), if_neg (by omega),
    if_neg (h.key_ne (k := O.SEM_STATE) (by simp [oneWayObjects])), if_neg hjobs,
    if_neg (h.key_ne (k := O.FREEZE_HELD) (by simp [oneWayObjects])), if_neg (h.key_ne (k := O.OLDEST_SEQ) (by simp [oneWayObjects])),
    if_neg (h.key_ne (k := O.MIN_SVN) (by simp [oneWayObjects])), if_neg (h.key_ne (k := O.KEYS_REVOKED) (by simp [oneWayObjects])),
    if_neg (h.key_ne (k := O.DEBUG_OPENED) (by simp [oneWayObjects])), if_neg (by omega)]

/-! ### Writing -/

/-- Outside Lull, a value of the object's type is checked for its range, and then takes effect. -/
theorem setItem_eq {s : State} {v : Nat} (hv : v < 256 ^ tyBytes o.ty) (hbool : o.ty = 6 → v ≤ 1) (hlull : s.dev.dget O.LULL_STATE = 0) :
    setItem s ⟨i, sub, o.ty, leBytes (tyBytes o.ty) v⟩ = if rangeOk s.dev i sub v then applyNum s i sub v else (ckRange, s) := by
  obtain ⟨hacc, -, h7, h8⟩ := h.access
  have hsub := h.sub_bounds
  have hlen : tyBytes o.ty ≤ 8 := by unfold tyBytes; split <;> decide
  have hval : leAt (leBytes (tyBytes o.ty) v) 0 8 = v := by
    rw [leAt, List.drop_zero, List.take_of_length_le (by rw [length_leBytes]; exact hlen), ofLe_leBytes hv]
  have hone : ¬(o.ty = 6 ∧ 1 < leAt (leBytes (tyBytes o.ty) v) 0 1) := by
    rintro ⟨h6, hbig⟩
    have hle := hbool h6
    rw [h6, show tyBytes 6 = 1 from rfl, leAt_byte (by omega)] at hbig
    omega
  rw [setItem]
  dsimp only
  rw [h.not_vendor, if_neg Bool.false_ne_true, if_neg (by omega), h.found]
  dsimp only
  rw [if_neg hacc, if_neg (by omega), if_neg (by omega), if_neg (by rw [length_leBytes]; exact not_not.2 rfl), if_neg hone, hval, setNum]
  cases rangeOk s.dev i sub v with
  | false => rfl
  | true => exact (if_neg (by decide)).trans (if_neg fun hl => hl.1 hlull)

/-- The effect of a value, by the objects that are not simply kept. -/
theorem applyNum_eq (s : State) (v : Nat) : applyNum s i sub v =
    if i * 256 + sub = O.CALENDAR_TIME then (ckOk, { s with dev := { s.dev with calendar := v, timeSet := true } })
    else if i * 256 + sub = O.SEM_JOBS then 
      (ckOk, { s with dev := s.dev.setSem (s.dev.dget O.SEM_SELECT) { s.dev.sem (s.dev.dget O.SEM_SELECT) with jobs := v } })
    else if i = 0x5600 ∨ i = 0x5601 then
      if (s.dev.mbox1 (bindChannel i sub)).pending then (ckState, s) else (ckOk, { s with dev := s.dev.dset (i * 256 + sub) v })
    else if 0x5300 ≤ i ∧ i < 0x5340 ∧ sub ≤ 0x10 then (ckOk, { s with dev := baselineWrite (i % 64) (sub - 1) v s.dev })
    else if 0x8100 ≤ i ∧ i < 0x8140 ∧ sub = 0x31 then
      freezeSelected s (i % 64) v
    else (ckOk, { s with dev := s.dev.dset (i * 256 + sub) v }) := by
  have hjob := h.apart (r := (0x5100, 64, 2, 2)) (by simp [oneWayObjects])
  have hstep := h.apart (r := (0x8100, 64, 0x32, 0xFF)) (by simp [oneWayObjects])
  simp only [Rect.holds] at hjob hstep
  rw [applyNum]
  dsimp only
  rw [if_neg (h.key_ne (k := O.LULL_CMD) (by simp [oneWayObjects])), if_neg (h.key_ne (k := O.RECORDER_CMD) (by simp [oneWayObjects])),
    if_neg (h.key_ne (k := O.ALERT_CLEAR) (by simp [oneWayObjects])), if_neg (h.key_ne (k := O.FW_UPDATE_CMD) (by simp [oneWayObjects])),
    if_neg (c := 0x5100 ≤ i ∧ i < 0x5140 ∧ sub = 0x02) (by omega), if_neg (c := 0x8100 ≤ i ∧ i < 0x8140 ∧ sub = 0x32) (by omega)]
  rfl

/-- An object that the dictionary alone keeps reads what was written. -/
theorem numValue_dset (hcal : i * 256 + sub ≠ O.CALENDAR_TIME) (hjobs : i * 256 + sub ≠ O.SEM_JOBS)
    (hfrozen : ¬(0x8100 ≤ i ∧ i < 0x8140 ∧ sub = 0x31)) (s : State) (v : Nat) :
    numValue { s with dev := s.dev.dset (i * 256 + sub) v } (i * 256 + sub) = v :=
  (h.numValue_eq_dget hcal hjobs hfrozen _).trans (Dev.dget_dset_self _ _ _)

theorem numValue_baseline {v : Nat} (hv : v < 256 ^ tyBytes o.ty) (hi : 0x5300 ≤ i ∧ i < 0x5340 ∧ sub ≤ 0x10) (s : State) :
    numValue { s with dev := baselineWrite (i % 64) (sub - 1) v s.dev } (i * 256 + sub) = v := by
  obtain ⟨hlo, hhi, hsub⟩ := hi
  have hpos := h.sub_bounds.1
  rw [h.baseline_bytes ⟨hlo, hhi⟩ hsub] at hv
  have hkey : O.BASELINE (i % 64) (sub - 1) = i * 256 + sub := by unfold O.BASELINE; omega
  have hset := (baselineWrite_effect s.dev (j := i % 64) (c := sub - 1) (v := v) (by omega) (by omega) (by omega)).1
  rw [hkey] at hset
  rw [h.numValue_eq_dget (by unfold O.CALENDAR_TIME; omega) (by unfold O.SEM_JOBS; omega) (by omega)]
  exact hset

theorem numValue_frozen {v : Nat} (hv : v ≤ 1) (hi : 0x8100 ≤ i ∧ i < 0x8140 ∧ sub = 0x31) (s : State)
    (hok : (freezeSelected s (i % 64) v).1 = ckOk) : numValue (freezeSelected s (i % 64) v).2 (i * 256 + sub) = v := by
  have hvalue : ∀ t : State, numValue t (i * 256 + sub) = groupObject t.dev (i % 64) 0x31 := by
    intro t
    have hj : i - 0x8100 = i % 64 := by omega
    rw [numValue, h.key_div, h.key_mod, if_neg (by unfold O.CALENDAR_TIME; omega), if_neg (by unfold O.MGMT_MAC; omega),
      if_neg (by unfold O.SLOW_FREE; omega), if_neg (by omega), if_neg (by unfold O.SEM_STATE; omega),
      if_neg (by unfold O.SEM_JOBS; omega), if_neg (by unfold O.FREEZE_HELD; omega), if_neg (by unfold O.OLDEST_SEQ; omega),
      if_neg (by unfold O.MIN_SVN; omega), if_neg (by unfold O.KEYS_REVOKED; omega), if_neg (by unfold O.DEBUG_OPENED; omega),
      if_pos (by omega), hj, hi.2.2]
  rw [hvalue]
  unfold freezeSelected at hok ⊢
  cases hg : selectedGroup s.dev (i % 64) with
  | none => rw [hg] at hok; exact absurd hok (show ckRange ≠ ckOk by decide)
  | some g => exact groupObject_freezeNext hv hg

/-- What a write that is accepted leaves is what a read gives. -/
theorem numValue_applyNum {v : Nat} (hv : v < 256 ^ tyBytes o.ty) (hbool : o.ty = 6 → v ≤ 1) (s : State)
    (hok : (applyNum s i sub v).1 = ckOk) : numValue (applyNum s i sub v).2 (i * 256 + sub) = v := by
  rw [h.applyNum_eq] at hok ⊢
  split_ifs at hok ⊢ with hcal hjobs hbind hpending hbase hfrozen
  · rw [hcal]; rfl
  · rw [hjobs, numValue_semJobs]
    exact congrArg Sem.jobs (Dev.sem_setSem_self _ _ _)
  · exact absurd hok (show ckState ≠ ckOk by decide)
  · exact h.numValue_dset hcal hjobs (by omega) s v
  · exact h.numValue_baseline hv hbase s
  · exact h.numValue_frozen (hbool (h.frozen_type ⟨hfrozen.1, hfrozen.2.1⟩ hfrozen.2.2)) hfrozen s hok
  · exact h.numValue_dset hcal hjobs hfrozen s v

end SettableAt

/-- Settles O54: no writable numeric object lies where a read asks another part of the module than a write told. -/
theorem writesReadBack : Obligations.WritesReadBack := by
  unfold Obligations.WritesReadBack
  intro s i sub v o hfound hacc h7 h8 hv hbool hlull r hok
  have h : SettableAt i sub o := ⟨hfound, by simp [Obj.settable, hacc, h7, h8]⟩
  have hset : r = if rangeOk s.dev i sub v then applyNum s i sub v else (ckRange, s) := h.setItem_eq hv hbool hlull
  cases hrange : rangeOk s.dev i sub v with
  | false =>
    rw [hset, hrange] at hok
    exact absurd hok (show ckRange ≠ ckOk by decide)
  | true =>
    rw [hrange, if_pos rfl] at hset
    rw [hset] at hok
    intro q
    have hq : q = ⟨ckOk, o.ty, leBytes (tyBytes o.ty) (numValue r.2 (i * 256 + sub)), r.2⟩ := h.readObject_eq r.2
    rw [hq, hset, h.numValue_applyNum hv hbool s hok]
    exact ⟨rfl, rfl, rfl, rfl⟩

end Sys2Proof.Machine
end
